-- ==== Sys2Proof/Word.lean ====
section
/-!
DEFINITION. The words of the KC2: a byte, a 32-bit dword, a byte string, and the sparse table that holds every
memory and every register file of the model. (R4: every multi-byte field is little-endian; the byte-order helpers
stand in Machine/Util.lean.)
-/

namespace Sys2Proof

/-- One byte. -/
abbrev Byte := BitVec 8

/-- One 32-bit dword: the unit of BAR 0 registers and of packet fields. -/
abbrev Word := BitVec 32

/-- A string of bytes, first byte at the lowest address. -/
abbrev Bytes := List Byte

/-- A sparse table: the entries that differ from a default, with strictly rising keys. What an absent key reads as
is an argument of the operations over tables (Machine/Util.lean). -/
abbrev Table (α : Type) := List (Nat × α)

/-- The number of PCIe functions: the PF is 0, VF n is n (R318). -/
abbrev FnId := Fin 64

/-- A ring index within a function (R380). -/
abbrev RingId := Fin 256

/-- A ticket number (R393). -/
abbrev Ticket := Fin 768

/-- A running command: a ticket, or from 768 on a frame that the chip serves for a ring job's lead (R374). -/
abbrev RunId := Fin 1024

end Sys2Proof
end

