-- ==== Sys2Proof/Types.lean ====
section
/-!
DEFINITION. The operand types of the commands of Syntax.lean: what the host's memory answers to a read that the
device makes, completion statuses, reset classes, and the small enumerations that several commands share.
-/

namespace Sys2Proof

/-- How a read that the device issued to host memory can fail (R265, R340): Unsupported Request, Completer Abort, a
completion with the EP bit, or the completion timeout. -/
inductive ReadFail where
  | ur | ca | ep | timeout
  deriving DecidableEq, Repr

/-- One piece of what host memory answers during a step: the bytes from a bus address on, or a failure of every
read that touches them. Host memory lies outside the KC2, so a command whose step reads host memory carries the
answer as an operand. -/
structure HostChunk where
  base : BitVec 64
  fail : Option ReadFail := none
  data : Bytes
  deriving DecidableEq, Repr

/-- What host memory answers during one step; an address in no chunk answers UR. -/
abbrev HostView := List HostChunk

/-- Status of a completion that arrives for a read of the device (R265, R388). -/
inductive CplStatus where
  | sc | ur | ca
  deriving DecidableEq, Repr

/-- Status with which the device completes a configuration request (R330, R331, R346). -/
inductive CfgStatus where
  | sc | ur | crs
  deriving DecidableEq, Repr

/-- The reset classes of Table 0-4. -/
inductive ResetClass where
  | P | W | E | S | F
  deriving DecidableEq, Repr

/-- Causes of a reset of class E or S, as the RESET log entry codes them (Table 19-5). -/
inductive ResetCause where
  | perstN | hotReset | linkDisable | linkLoss | hostDsr
  deriving DecidableEq, Repr

/-- Which BAR a register access names. -/
inductive BarId where
  | bar0 | bar4
  deriving DecidableEq, Repr

/-- The target of a BAR access: an offset in a function's BAR 0 or BAR 4, or the address of the memory request, which the endpoint
decodes (R324 to R326). -/
inductive BarRef where
  | bar0 (fn : FnId) (offset : BitVec 17)
  | bar4 (fn : FnId) (offset : BitVec 17)
  | address (a : BitVec 64)
  deriving DecidableEq, Repr

/-- How a command names the target of a BAR access: BAR 0 or BAR 4 of its function at its offset, or the address of the memory
request, beside which its function and offset are not read. -/
inductive BarSel where
  | bar0 | bar4
  | address (a : BitVec 64)
  deriving DecidableEq, Repr

/-- What the AVSBus regulator answers in one review (R44 to R48): nothing, a status fault, or its read-back in mV
and its current in A. -/
inductive AvsAnswer where
  | none
  | fault
  | ok (readMv : BitVec 10) (currentA : BitVec 8)
  deriving DecidableEq, Repr

/-- What one quadrant's monitor measured in a window (R31) or since the last one: the replica loop's rate and the
mean admitted rate in M beats/s, and the beats admitted, withheld and computed in (Table 24-7). -/
structure QuadMeasure where
  rate : BitVec 16 := 0
  admitted : BitVec 16 := 0
  beats : Nat := 0
  withheld : Nat := 0
  compute : Nat := 0
  deriving DecidableEq, Repr

/-- Events of the supplies that SUPPLIES_VALID reports: which supplies are now valid. -/
inductive LinkFall where
  /-- Hot Reset, Link Disable, or a fall of DL_Active for any other reason (R343). -/
  | hotReset | linkDisable | linkLoss
  deriving DecidableEq, Repr

/-- A configuration request (R322 to R348). -/
inductive CfgReq where
  | read (reg : BitVec 12)
  | write (reg : BitVec 12) (value : Word)
  deriving DecidableEq, Repr

/-- The header of a CSI-2 short packet: its virtual channel, and whether the receiver corrected one bit of it (R355). -/
structure CsiHeader where
  vc : Fin 16
  fixed : Bool := false
  deriving DecidableEq, Repr

/-- A CSI-2 packet for a line of an open frame, as the receiver sees it (R351, Table 13-2). -/
inductive CsiPacket where
  /-- A long packet: header error corrected or not, payload CRC good or not, payload bytes in CSI-2 order. -/
  | line (dtype : BitVec 6) (hdrFixed crcBad : Bool) (payload : Bytes)
  /-- A packet whose header cannot be corrected. -/
  | badHeader
  /-- A D-PHY start-of-transmission or sync error. -/
  | phyError
  deriving DecidableEq, Repr

/-- A memory word's physical condition as a read or a power loss leaves it: programmed flag cells, and raw bit
errors, where the spec leaves them open (R112). -/
structure CellFate where
  flag : Nat := 0
  errs : Nat := 0
  data : Bytes := []
  deriving DecidableEq, Repr

/-- The space that a debug access names (R572). -/
inductive DbgSpace where
  | bar0 | device | aon | reserved
  deriving DecidableEq, Repr

/-- Correctable and uncorrectable link errors that the endpoint logs (Table 12-7, BAD_TLP). -/
inductive LinkError where
  | receiver | badTlp | badDllp | replayTimeout | replayRollover
  | dlProtocol | fcProtocol | rxOverflow | malformed
  | poisonedWrite (dst : BarRef)
  | unsupported (fn : Option FnId)
  deriving DecidableEq, Repr

/-- A message between the firmwares of two chips. The spec names the messages and their effect; their layout in CTRL
flits is open (log entry 46). -/
inductive CtrlMsg where
  /-- Bind a pattern for the lead's binding: its handle, the pattern, the chip count, DW2 and DW3 of the bind (R372). -/
  | bind (handle : Word) (pattern : Nat) (chips : Nat) (dw2 dw3 : Word)
  /-- A participant's answer to a bind (R372). -/
  | bound (handle : Word) (status : BitVec 16)
  /-- Run a frame: binding, frame key, chip count, first and last stage, ABORT, dynamic lengths, ticks left, LATE_DROP
  (R374, R484). -/
  | frame (handle : Word) (key chips first last : Nat) (abort : Bool) (lens : List Nat) (left : Option Nat) (lateDrop : Bool)
  /-- Open a transfer channel for a range of a frame's buffer (R361), towards the lead or from it. -/
  | chan (num key buf off len : Nat) (up : Bool)
  /-- A participant asks its lead for a range of an input buffer of a frame (R242, R374). -/
  | want (key buf off len : Nat)
  /-- A frame has ended on a participant: status, whether narrow results were kept for want of time (R164), the words of its
  first failing line (R274), poisoned lines in and out, and the components of R285 (R485). -/
  | done (key : Nat) (status : BitVec 16) (kept : Bool) (w0 w1 : Word) (inBad outBad halt pace input contention : Nat)
  /-- Stop a frame: its outputs are discarded (R484), or the tiles that it has begun are still finished and sent (R275,
  R279). -/
  | drop (key : Nat) (discard : Bool)
  /-- Release the job's binding (R422, R467). -/
  | release (handle : Word)
  /-- A message of no meaning here. -/
  | other
  deriving DecidableEq, Repr, Inhabited

end Sys2Proof
end

