-- ==== Sys2Proof/Syntax.lean ====
section
/-!
DEFINITION. The commands of the KC2: one constructor for each row of the table of operations and events. A ring
command names the ticket under which its entry was accepted (R389); an event names where it happens and carries what
the outside world did or answered. No row has bits in the table, so the constructors have no encoding.
-/

namespace Sys2Proof

/-- A command of the block, or an event at its boundary or inside it. -/
inductive Instr where
  /-- NOP (R414): Command that does nothing except carry flags such as FENCE and NOTIFY through a ring, and completes OK. -/
  | nop (t : Ticket)
  /-- QUERY (R416): Command that returns one item of firmware, quota, pattern or binding information in the result words. -/
  | query (t : Ticket)
  /-- SET_LATENCY (R417): Command that replaces the issuing function's tolerable wake latency and reports the resulting target levels. -/
  | setLatency (t : Ticket)
  /-- PATTERN_INSTALL (R418): Command that checks a pattern package, then erases and programs its extents, extent tags and directory slot. -/
  | patternInstall (t : Ticket) (view : HostView)
  /-- PATTERN_REMOVE (R228): Command that programs the tombstone of a pattern's directory slot in both planes. -/
  | patternRemove (t : Ticket)
  /-- PATTERN_BIND (R420): Command that checks a pattern's extents, allocates cores, ways and a binding index, and reserves the pattern's banks. -/
  | patternBind (t : Ticket)
  /-- PATTERN_RELEASE (R422): PATTERN_BIND with DW2[31] set, which schedules the release of a binding once its earlier-accepted commands have completed. -/
  | patternRelease (t : Ticket)
  /-- BINDING_RELEASE_DONE (R456): Once a held release may proceed, the binding's cores are zeroed, its ways flushed and freed, and its bank reservations dropped. -/
  | bindingReleaseDone (fn : FnId) (index : Fin 64)
  /-- RUN (R423): Command that runs every stage of a binding with the given buffers, fault mode, deadline and dynamic lengths. -/
  | run (t : Ticket) (view : HostView)
  /-- RUN_LIGHT (R425): RUN with the LIGHT flag, which moves buffers of 256 bytes or less by the light path under POISON with no deadline. -/
  | runLight (t : Ticket)
  /-- CHAIN (R424): Command that runs stages first to last of a binding and hands data between them through the hand-over slots. -/
  | chain (t : Ticket) (view : HostView)
  /-- ADAPT_STEP_TRAIN (R603): ADAPT_STEP with action TRAIN, which runs the forward pass, loss, backward pass and optimiser update on the adapter region. -/
  | adaptStepTrain (t : Ticket) (view : HostView)
  /-- ADAPT_ATTACH (R601): ADAPT_STEP with action ATTACH, which checks an adapter region and attaches it to a binding. -/
  | adaptAttach (t : Ticket)
  /-- ADAPT_DETACH (R601): ADAPT_STEP with action DETACH, which removes a binding's adapter attachment. -/
  | adaptDetach (t : Ticket)
  /-- CANCEL (R427): Command that cancels the named ticket's command if it is still held by the issuing function with that ring and sequence number. -/
  | cancel (t : Ticket)
  /-- STREAM_OPEN (R429): Command that takes a free stream slot and binds a PCIe or CSI-2 frame source to a pattern binding. -/
  | streamOpen (t : Ticket)
  /-- STREAM_CLOSE (R360): Command that stops capture on a slot, cancels frames waiting for input, and frees the slot once its last frame completes. -/
  | streamClose (t : Ticket)
  /-- STREAM_FRAME (R430): Command that runs one frame of a stream slot on its binding with the slot's fault mode and late policy. -/
  | streamFrame (t : Ticket) (view : HostView)
  /-- COPY (R432): Command that moves logical bytes from a source block list to a destination block list through a stream engine. -/
  | copy (t : Ticket)
  /-- COPY_LIGHT (R412): COPY with the LIGHT flag, which copies 256 bytes or less, or inline data, through the light-path engine. -/
  | copyLight (t : Ticket)
  /-- NVM_READ (R434): Command that reads a range of code words, with optional report bytes, into an output buffer. -/
  | nvmRead (t : Ticket)
  /-- NVM_PROGRAM (R435): Command that checks and queues a program of a range of code words of one weight block from a source buffer. -/
  | nvmProgram (t : Ticket)
  /-- NVM_ERASE (R97): Command that checks and queues the erase of one logical block of a weight bank. -/
  | nvmErase (t : Ticket)
  /-- NVM_STATUS (R114): Command that returns a bank's or plane's state, queue, progress and reservation, and optionally its per-block entries. -/
  | nvmStatus (t : Ticket)
  /-- NVM_SCRUB_BLOCK (R437): NVM_SCRUB with DW2[7] clear, which relocates one named logical block. -/
  | nvmScrubBlock (t : Ticket)
  /-- NVM_SCRUB_DUE (R437): NVM_SCRUB with DW2[7] set, which relocates every scrub-due block of the bank in ascending order. -/
  | nvmScrubDue (t : Ticket)
  /-- COUNTERS_READ (R438): Command that writes a snapshot of STATS or PERF, optionally clearing the counters at the same instant. -/
  | countersRead (t : Ticket)
  /-- TROUBLE_READ (R439): Command that returns the function's FN_TRB and, for the PF, TRB. -/
  | troubleRead (t : Ticket)
  /-- TROUBLE_CLEAR (R439): Command that clears the named FN_TRB and TRB bits as W1C writes do. -/
  | troubleClear (t : Ticket)
  /-- LOG_READ (R440): Command that writes held event-log entries from a wanted sequence number. -/
  | logRead (t : Ticket)
  /-- SETTINGS_GET (R565): Command that writes the settings record in force to an output buffer. -/
  | settingsGet (t : Ticket)
  /-- SETTINGS_SET_UPDATE (R565): SETTINGS_SET in UPDATE mode, which writes a record of the own version whose seq matches the seq in force. -/
  | settingsSetUpdate (t : Ticket) (view : HostView)
  /-- SETTINGS_SET_MIGRATE (R565): SETTINGS_SET in MIGRATE mode, which translates an older record to the own version and writes both copies. -/
  | settingsSetMigrate (t : Ticket) (view : HostView)
  /-- SETTINGS_SET_REPLACE (R565): SETTINGS_SET in REPLACE mode, which writes a record of the own version whatever the seq in force. -/
  | settingsSetReplace (t : Ticket) (view : HostView)
  /-- FW_STAGE (R442): Command that optionally erases, then programs, part of the inactive firmware slot. -/
  | fwStage (t : Ticket)
  /-- FW_COMMIT (R443): FW_COMMIT with DW2[0] set, which checks the inactive slot and programs a COMMIT mark. -/
  | fwCommit (t : Ticket)
  /-- FW_WITHDRAW (R559): FW_COMMIT with DW2[0] clear, which programs a WITHDRAW mark on a PENDING slot. -/
  | fwWithdraw (t : Ticket)
  /-- TENANT_RESET (R467): Command that ends a function's commands with ABORTED_BY_RESET, closes its slots, releases its bindings and resets its tolerance. -/
  | tenantReset (t : Ticket)
  /-- PEER_QUERY (R445): Command that returns the liveness, path and epoch of a named Weft chip. -/
  | peerQuery (t : Ticket)
  /-- SENSOR_CALIBRATE (R446): Command that re-trims the selected droop sensors, one at a time, against an AVSBus voltage read. -/
  | sensorCalibrate (t : Ticket) (delta : BitVec 8)
  /-- SQ_TAIL (R386): Doorbell write that submits the entries from the present SQ tail up to the new tail. -/
  | sqTail (fn : FnId) (ring : RingId) (value : Word)
  /-- CQ_HEAD (R385): Doorbell write that frees CQ entries the host has consumed, or is discarded with bad_db. -/
  | cqHead (fn : FnId) (ring : RingId) (value : Word)
  /-- RING_ENABLE (R383): Write of RING_CTL.en = 1, which checks the ring's configuration and makes it ACTIVE. -/
  | ringEnable (fn : FnId) (ring : RingId)
  /-- RING_DISABLE (R399): Write of RING_CTL.en = 0, which stops fetching and moves an ACTIVE ring to DRAINING. -/
  | ringDisable (fn : FnId) (ring : RingId)
  /-- HWIN_CTL (R305): Write of HWIN_CTL, which commits the staged host-window base, limit and control as one change. -/
  | hwinCtl (fn : FnId) (win : Fin 16) (value : Word)
  /-- DWIN_WCTL (R306): PF write of DWIN_WCTL, which commits the staged device window to the selected function. -/
  | dwinWctl (value : Word)
  /-- QUOTA_COMMIT (R449): Write of QUOTA_CTL.commit, which commits or refuses the staged quota of the selected function. -/
  | quotaCommit
  /-- NVM_UNLOCK (R89): Write of a key to NVM_UNLOCK, which steps the unlock sequence or locks the store. -/
  | nvmUnlock (key : Word)
  /-- UNLOCK_TIMEOUT (R89): Expiry of the 1,024-tick limit after the first unlock key, which aborts the unlock sequence. -/
  | unlockTimeout
  /-- SOFT_RESET (R531): Write of 1 to DEV_CTL.soft_reset, which starts a device soft reset unless it is discarded. -/
  | softReset
  /-- FETCH_STOP (R626): Write of FN_CTL.fetch_stop, which stops or resumes fetching on every ring of the function. -/
  | fetchStop (fn : FnId) (stop : Bool)
  /-- STATS_CLEAR (R630): Write of 1 to FN_CTL.stats_clear, which clears the function's STATS at one instant. -/
  | statsClear (fn : FnId)
  /-- EVLOG_ACK (R524): Write of EVLOG_ACK, which acknowledges earlier entries, or is refused if the value is later than EVLOG_NEXT. -/
  | evlogAck (value : Word)
  /-- TRACE_MARK (R584): Write of TRACE_MARK, which emits a MARKER trace packet. -/
  | traceMark (value : Word)
  /-- TRACE_ENABLE (R587): Write of TRACE_CTL.en from 0 to 1, which starts capture and resets TRACE_WPTR, or is refused for a bad LP5X region. -/
  | traceEnable (value : Word)
  /-- REGISTER_WRITE (R8): Write to any BAR 0 register with no row of its own, acting per its access type, including W1C clears and rejection of reserved encodings. -/
  | registerWrite (bar : BarSel) (fn : FnId) (offset : BitVec 17) (is64 : Bool) (value : BitVec 64)
  /-- RC_READ (R8): Read of an RC field, which returns the value and clears it. -/
  | rcRead (bar : BarSel) (fn : FnId) (offset : BitVec 17) (is64 : Bool)
  /-- LATCH_LOW_READ (R618): 32-bit read of the low dword of a latching register, which copies the high dword into the function's shadow. -/
  | latchLowRead (fn : FnId) (offset : BitVec 17)
  /-- LATCH_HIGH_READ (R618): 32-bit read of the high dword of a latching register, which returns the shadow if paired and the live value otherwise. -/
  | latchHighRead (fn : FnId) (offset : BitVec 17)
  /-- BAR_MISALIGNED_ACCESS (R7): Access to BAR 0 or BAR 4 that is not an aligned 32- or 64-bit access, which discards a write or returns 0xFF bytes. -/
  | barMisalignedAccess (bar : BarSel) (fn : FnId) (isWrite : Bool) (len : Nat)
  /-- BAR2_READ (R317): PF read through the BAR 2 aperture, served per region from LP5X, the NVM aperture or the views. -/
  | bar2Read (offset : BitVec 28) (len : Nat)
  /-- BAR2_WRITE (R317): PF write through the BAR 2 aperture, served per region or discarded. -/
  | bar2Write (offset : BitVec 28) (data : Bytes)
  /-- WD_CHALLENGE (R536): Firmware read of WD_CHALLENGE, which in the window steps the LFSR and arms the watchdog. -/
  | wdChallenge
  /-- WD_RESPONSE (R538): Firmware write of WD_RESPONSE, which is a valid service or counts as an expiry. -/
  | wdResponse (token : Word)
  /-- WD_PERIOD_SET (R540): Firmware write of WD_PERIOD_SET, which stages a new period in the window or is refused. -/
  | wdPeriodSet (value : BitVec 16)
  /-- WD_ARM_LAPSE (R536): Expiry of the 1,024-tick arming, which disarms the watchdog without counting anything. -/
  | wdArmLapse
  /-- WD_FIRST_EXPIRY (R541): Expiry while not warned, which marks the watchdog warned, interrupts the CP, signals wd_warn and starts the warning period. -/
  | wdFirstExpiry
  /-- WD_WARN_ENTRY (R542): The firmware writes the WD_WARN log entry, after which TRB_WD_WARN is set. -/
  | wdWarnEntry
  /-- WD_WARN_TIMEOUT (R542): Expiry of 4,096 ticks after the first expiry with no entry, which sets TRB_WD_WARN without one. -/
  | wdWarnTimeout
  /-- WD_SECOND_EXPIRY (R543): Expiry while warned, which performs a watchdog reset in RESET mode or pulses WDT_OUT_N and quiesces in PIN mode. -/
  | wdSecondExpiry
  /-- WDT_PULSE_END (R543): End of the fused WDT_OUT_N pulse, which releases the pin while quiescence continues. -/
  | wdtPulseEnd
  /-- POR (R653): A monitored supply falling below its threshold for 1 µs, or PWROK low, which puts the KC2 into power-on reset. -/
  | por (aonLost : Bool)
  /-- SUPPLIES_VALID (R653): All monitored supplies above their thresholds with PWROK high, which ends POR with the effects of a reset of class P. -/
  | suppliesValid
  /-- TEST_EN_HIGH (R641): TEST_EN high, which holds the KC2 in POR. -/
  | testEnHigh
  /-- PERST_N_ASSERT (R343): Assertion of PERST_N, which performs a reset of class E. -/
  | perstNAssert
  /-- PERST_N_RELEASE (R654): Rise of PERST_N, which samples CHIP_ID and allows the boot to begin. -/
  | perstNRelease (chip : BitVec 2)
  /-- LINK_DOWN (R343): Hot Reset, Link Disable or a fall from DL_Active, treated as a reset of class E. -/
  | linkDown (cause : LinkFall)
  /-- BOOT (R552): Boot after a reset of class P, W, E or S, running the boot steps from fuse load to firmware ready. -/
  | boot (gibA gibB : Nat) (trained : Bool) (bad : List (Fin 64)) (speed : BitVec 4) (width : BitVec 5)
  /-- FW_NOT_READY_TIMEOUT (R347): Expiry of 0.9 s after PERST_N or a DSR with no firmware ready, so the boot ROM takes over BAR 0 and stops the watchdog. -/
  | fwNotReadyTimeout
  /-- CONFIG_REQUEST (R346): A PCIe configuration request, answered with CRS, UR or normally according to the device state. -/
  | configRequest (fn : FnId) (req : CfgReq)
  /-- FLR (R333): Initiate Function Level Reset, which ends a function's work without completions and clears its rings, host windows and MSI-X. -/
  | flr (fn : FnId)
  /-- VF_ENABLE (R330): VF Enable set, which brings VFs 1 to NumVFs into existence with default quotas and ring counts. -/
  | vfEnable
  /-- VF_DISABLE (R331): VF Enable cleared, which stops every VF's requests and work and frees its resources and windows. -/
  | vfDisable
  /-- NUMVFS_WRITE (R328): Write of NumVFs, accepted only from 0 to 63 while VF Enable is 0. -/
  | numvfsWrite (value : BitVec 16)
  /-- BUS_MASTER_ENABLE (R335): Change of a function's Bus Master Enable, which holds or releases its memory requests and MSI-X messages. -/
  | busMasterEnable (fn : FnId) (value : Bool)
  /-- D3HOT_ENTRY (R508): Transition of the PF to D3hot, which holds requests and messages and lifts the tolerance limit. -/
  | d3hotEntry
  /-- D0_ENTRY (R508): Transition of the PF from D3hot to D0, which wakes the device with state kept. -/
  | d0Entry
  /-- LINK_RETRAIN (R344): A link retrain that changes speed or width, which updates FN_LINK, signals link events and logs one entry. -/
  | linkRetrain (speed : BitVec 4) (width : BitVec 5)
  /-- MSIX_UNMASK (R339): Clearing of a vector or Function Mask, which sends once any message whose PBA bit is set. -/
  | msixUnmask (fn : FnId) (vec : Option (Fin 64))
  /-- PCIE_COMPLETION (R265): Arrival of a read completion, delivering lines or making them failing lines on UR, CA or EP. -/
  | pcieCompletion (tag : Nat) (status : CplStatus) (ep : Bool) (data : Bytes)
  /-- COMPLETION_TIMEOUT (R340): Expiry of the completion timer of a non-posted request, which makes its lines failing lines and logs AER. -/
  | completionTimeout (tag : Nat)
  /-- L1_ENTRY_REQUEST (R509): Expiry of 10 µs with nothing to transmit and nothing outstanding, so the KC2 requests ASPM L1. -/
  | l1EntryRequest
  /-- SQ_FETCH (R387): The KC2 issues an SQ read of up to 8 entries once the ring is ACTIVE, the CQ has room and a ticket is free. -/
  | sqFetch (fn : FnId) (ring : RingId)
  /-- ENTRY_ACCEPT (R391): A fetched entry is checked, given a sequence number and ticket, and dispatched or completed with an error. -/
  | entryAccept (fn : FnId) (ring : RingId)
  /-- FENCE_RELEASE (R401): Dispatch of a FENCE command once every earlier completion of its ring has been written. -/
  | fenceRelease (fn : FnId) (ring : RingId)
  /-- COMPLETION_WRITE (R396): Writing of a command's completion entry after its data writes and any ORDERED predecessors. -/
  | completionWrite (t : Ticket)
  /-- MODERATION_TIMEOUT (R406): Expiry of RING_MOD.time_us after the oldest pending completion, which sends the ring's message. -/
  | moderationTimeout (fn : FnId) (ring : RingId)
  /-- STAGE_START (R261): A chain stage starts a layer once its hand-over slot holds the needed token. -/
  | stageStart (t : RunId) (stage : Fin 8)
  /-- LAYER_START (R231): The sequencer reads a layer record, loads tables and grants the first tiles. -/
  | layerStart (t : RunId) (stage : Fin 8)
  /-- TILE_GRANT (R246): The sequencer grants a tile to a group column and its load phase begins. -/
  | tileGrant (t : RunId) (stage col : Fin 8)
  /-- LOAD_PHASE_END (R245): End of a core's load phase, after which its compute phase begins. -/
  | loadPhaseEnd (t : RunId) (stage col : Fin 8)
  /-- COMPUTE_PHASE_END (R180): End of a tile's compute and requantisation, after which the next load phase may start. -/
  | computePhaseEnd (t : RunId) (stage col : Fin 8)
  /-- LAYER_DRAIN_END (R252): End of a layer's drain, after which the drift check runs and the next layer or stage may start. -/
  | layerDrainEnd (t : RunId) (stage : Fin 8)
  /-- WHEEL_SLOT (R253): Advance of a stream engine's wheel by one slot, issuing at most one line of the slot's class. -/
  | wheelSlot (engine : Fin 4) (view : HostView)
  /-- DEADLINE_PASS (R283): The time base passes the deadline of an incomplete frame, which drops it under LATE_DROP. -/
  | deadlinePass (t : Ticket)
  /-- CORE_FAULT (R27): A core fails, ending its group's command with CORE_FAULT and marking the core failed. -/
  | coreFault (core : Fin 64)
  /-- NVM_OP_START (R92): A queued program or erase starts on its bank after earlier operations end, checking vpp_ok and the written flags. -/
  | nvmOpStart (bank : Fin 66) (view : HostView)
  /-- CODE_WORD_PROGRAMMED (R94): End of charging one code word, after which the next word is charged or the operation ends. -/
  | codeWordProgrammed (bank : Fin 66) (view : HostView)
  /-- ERASE_PULSE_DONE (R97): End of a 1 ms erase pulse, after which the block is checked from the sixth pulse and the erase succeeds, continues or fails. -/
  | erasePulseDone (bank : Fin 66) (passed : Bool)
  /-- VPP_OK_SET (R90): VPP_NVM held at or above 2.40 V for 100 µs, which sets vpp_ok. -/
  | vppOkSet
  /-- VPP_LOSS (R91): VPP_NVM falling below 2.30 V, which clears vpp_ok and stops any running program or erase. -/
  | vppLoss
  /-- PATROL_READ (R75): A patrol read of a logical row, which may make its block scrub-due. -/
  | patrolRead (bank : Fin 66) (row : BitVec 13)
  /-- AUTO_RELOCATION_START (R77): The KC2 starts an automatic relocation of a scrub-due block once its conditions have held. -/
  | autoRelocationStart (bank : Fin 66)
  /-- SPARE_ERASE (R78): Erase of a spare left partly written by an abandoned relocation, once the bank is unreserved. -/
  | spareErase (bank : Fin 66)
  /-- STALE_BLOCK_ERASE (R79): Erase of a block discarded at boot after the firmware is ready. -/
  | staleBlockErase (bank : Fin 66)
  /-- WEAR_CHECKPOINT (R73): Hourly or pre-RL4 program of the wear record with counts, states, maps and install counts. -/
  | wearCheckpoint
  /-- SETTINGS_LOCK_LAPSE (R582): Expiry of the settings-commit lock, which releases it with only the inactive copy written. -/
  | settingsLockLapse
  /-- BEAT_RATE_WINDOW (R31): End of a 1 ms monitor window, which updates the beat-rate registers and lets the AVS master review VDD_CORE. -/
  | beatRateWindow (q0 q1 q2 q3 : QuadMeasure) (wdoKhz : BitVec 12) (avs : AvsAnswer)
  /-- AVS_SETTLE (R47): Regulator read-back within 10 mV of the target, or 50 µs passing, which moves the droop sensors to the new target. -/
  | avsSettle (readMv : Option (BitVec 10))
  /-- PACE_HOLD_END (R34): End of the 2 µs hold after a demand rises, which starts the ramp. -/
  | paceHoldEnd (quad : Fin 4)
  /-- PACE_RAMP_STEP (R34): A 500 ns ramp step that raises the admission by 1/8. -/
  | paceRampStep (quad : Fin 4)
  /-- DROOP_SENSOR_TRIP (R36): A droop sensor seeing the supply 30 or 60 mV below target, which raises level 1 or 2 in its quadrant. -/
  | droopSensorTrip (sensor : Fin 8) (level2 : Bool)
  /-- DROOP_SENSOR_RELEASE (R36): A droop sensor seeing the supply recover, which releases its level so the hold and ramp follow. -/
  | droopSensorRelease (sensor : Fin 8) (toLevel1 : Bool)
  /-- DROOP_IN_FALL (R37): DROOP_IN_N falling, which applies the selected droop level to all four governors. -/
  | droopInFall (short : Bool)
  /-- DROOP_IN_RISE (R37): DROOP_IN_N rising, which releases the pin's droop demand. -/
  | droopInRise
  /-- THERM_READING (R40): A new hottest thermal reading, which may throttle, release, warn or trip. -/
  | thermReading (tj : BitVec 11)
  /-- REST_ENTER (R496): Expiry of a level's dwell time while idle, which steps the device one rest level deeper. -/
  | restEnter
  /-- WAKE (R504): A wake event, which returns the device to RL0 within the exit latency. -/
  | wake (source : Fin 7)
  /-- PD1_ALONE_EXIT (R505): A BAR, configuration access or MSI-X message at RL4, which brings PD1 alone out of retention. -/
  | pd1AloneExit
  /-- L12_TIMEOUT (R505): Expiry of 10 ms without the link returning to L1.2, which makes the target RL3. -/
  | l12Timeout
  /-- CSI_FRAME_START (R353): A Frame Start on a slot's channel, which checks and takes a capture buffer or counts an overrun. -/
  | csiFrameStart (rx : Fin 2) (hdr : CsiHeader) (dtype : BitVec 6) (frameNo : BitVec 16)
  /-- CSI_LINE (R355): A captured long packet, which is stored, poisoned or discarded by its errors. -/
  | csiLine (rx : Fin 2) (vc : Fin 16) (packet : CsiPacket)
  /-- CSI_FRAME_END (R353): A Frame End, which closes the frame and makes its buffer unconsumed for a waiting STREAM_FRAME. -/
  | csiFrameEnd (rx : Fin 2) (hdr : CsiHeader)
  /-- CSI_FRAME_TIMEOUT (R355): Expiry of 100 ms with no packet for an open frame, which closes the frame. -/
  | csiFrameTimeout (slot : Fin 16)
  /-- WEFT_DATA_FLIT (R363): Receipt of a DATA flit, which is accepted, forwarded or discarded with a NAK. -/
  | weftDataFlit (port : Fin 2) (flit : Bytes)
  /-- WEFT_CTRL_FLIT (R372): Receipt of a CTRL flit carrying a firmware message such as a ring-job bind, frame or drop. -/
  | weftCtrlFlit (port : Fin 2) (flit : Bytes)
  /-- WEFT_ACK (R363): Receipt of a cumulative ACK, which frees acknowledged flits. -/
  | weftAck (port : Fin 2) (flit : Bytes)
  /-- WEFT_NAK (R363): Receipt of a NAK, which makes the sender resend from the expected seq. -/
  | weftNak (port : Fin 2) (flit : Bytes)
  /-- WEFT_CREDIT (R364): Receipt of a CREDIT flit, which returns sending credits. -/
  | weftCredit (port : Fin 2) (flit : Bytes)
  /-- WEFT_HELLO (R369): Receipt of a HELLO, which updates peer liveness or detects a ring configuration error. -/
  | weftHello (port : Fin 2) (flit : Bytes)
  /-- WEFT_ACK_DUE (R363): Expiry of 1 µs, or 32 accepted flits, which sends a cumulative ACK. -/
  | weftAckDue (port : Fin 2)
  /-- WEFT_RESEND_TIMEOUT (R363): Expiry of 8 µs without an ACK advancing, which resends from the oldest unacknowledged flit. -/
  | weftResendTimeout (port : Fin 2)
  /-- WEFT_HELLO_SEND (R368): The 100 µs timer that sends a HELLO on each port that is up. -/
  | weftHelloSend
  /-- WEFT_LANE_LOCK_LOSS (R365): A lane losing lock, which takes the port down and retrains. -/
  | weftLaneLockLoss (port : Fin 2)
  /-- WEFT_SILENCE_TIMEOUT (R365): Expiry of 100 µs without a good flit, which takes the port down. -/
  | weftSilenceTimeout (port : Fin 2)
  /-- WEFT_PORT_UP (R365): Completion of a port's retrain, which brings it up with seq 0 and full credits. -/
  | weftPortUp (port : Fin 2)
  /-- PEER_TIMEOUT (R371): Expiry of 1 ms with no HELLO naming a peer, which counts it as lost. -/
  | peerTimeout (chip : Fin 4)
  /-- TRACE_LOST_EMIT (R588): Room returning in the trace FIFO after drops, which emits a LOST packet. -/
  | traceLostEmit
  /-- DBG_PEEK (R578): DBG_ACCESS peek, which reads a space without any read side effect. -/
  | dbgPeek (space : DbgSpace) (fn : FnId) (addr : BitVec 40)
  /-- DBG_POKE (R579): DBG_ACCESS poke, which writes with every side effect of the named function's write. -/
  | dbgPoke (space : DbgSpace) (fn : FnId) (addr : BitVec 40) (data : Word)
  /-- HALT (R580): Debug command that stops the CP at the next instruction boundary and freezes the watchdog. -/
  | halt
  /-- RESUME (R580): Debug command that restarts the CP and writes the waiting completions and entries. -/
  | resume
  /-- STEP (R580): Debug command that runs one CP instruction. -/
  | step
  /-- UNLOCK_LOAD (R574): Debug command that loads one word of an unlock token. -/
  | unlockLoad (index : BitVec 16) (word : Word)
  /-- UNLOCK_CHECK (R575): Debug command that checks the loaded token and grants a scope or counts a failure. -/
  | unlockCheck
  /-- LOCK (R573): Debug command that ends the debug scope. -/
  | lock
  /-- RESTORE_ERASE (R583): Restore command that erases the firmware slot of a plane. -/
  | restoreErase (plane : BitVec 16)
  /-- RESTORE_LOAD (R583): Restore command that loads one word of the 256-byte buffer. -/
  | restoreLoad (index : BitVec 16) (word : Word)
  /-- RESTORE_PROGRAM (R583): Restore command that programs the buffer into a code word of the slot. -/
  | restoreProgram (word : BitVec 16) (plane : Word)
  /-- RESTORE_COMMIT (R583): Restore command that programs a COMMIT mark on the restored slot. -/
  | restoreCommit (plane : BitVec 16)
  /-- DBG_STATUS (R571): TAP instruction that returns the unique ID, scope, halt, busy and failure state. -/
  | dbgStatus
  /-- IDCODE (R571): TAP instruction that returns the 32-bit IDCODE. -/
  | idcode
  /-- EXTEST (R571): TAP boundary-scan instruction that drives the pins from the boundary-scan register. -/
  | extest (scan : Nat)
  /-- SAMPLE_PRELOAD (R571): TAP boundary-scan instruction that samples the pins and preloads the boundary-scan register. -/
  | samplePreload (scan : Nat)
  /-- BYPASS (R571): TAP instruction, and every unlisted code, that selects the 1-bit bypass register. -/
  | bypass (code : BitVec 8) (len scan : Nat)
  /-- DL_ACTIVE (R343): The PCIe data link reaching DL_Active, which ends a class E reset caused by Hot Reset, Link Disable or link loss so that the boot can begin. -/
  | dlActive (speed : BitVec 4) (width : BitVec 5)
  /-- L1_2_ENTRY (R501): The platform moving the PCIe link into L1.2, which lets the target level deepen to RL4 and returns PD1 to retention after a PD1-alone exit. -/
  | l12Entry
  /-- L1_EXIT (R509): The link partner starting an exit from L1 or its substates, which the KC2 follows and which leaves L1.2. -/
  | l1Exit
  /-- RECOVERY_ENTRY (R344): An entry of the LTSSM into Recovery, which increments PCIE_RECOV_CNT whether or not speed or width changes. -/
  | recoveryEntry
  /-- BAD_TLP (R342): Receipt of a Receiver Error, Bad TLP, Bad DLLP, Malformed TLP or a link-layer timeout, which the KC2 logs in AER. -/
  | badTlp (err : LinkError)
  deriving DecidableEq, Repr

end Sys2Proof
end

