-- ==== Sys2Proof/Decode.lean ====
section
/-!
DEFINITION. The command that a table word spells. No row of the table of operations and events has bits, so no word
spells a command.
-/

namespace Sys2Proof

/-- The command that a word of `nbits` bits spells by the table: none, for no row gives bits (log entry 1). -/
def decodeTableWord (nbits w : Nat) : Option Instr :=
  match nbits, w with
  | _, _ => none

end Sys2Proof
end

