-- ==== Sys2Proof/Machine/Util.lean ====
section
/-!
DEFINITION. Helpers without a machine state: sparse tables in canonical form, little-endian byte strings (R4),
bit fields, saturating counters and list pieces.
-/

namespace Sys2Proof

/-- The value of a table at a key; `d` is what an absent key reads as. -/
def Table.get {α : Type} (d : α) : List (Nat × α) → Nat → α
  | [], _ => d
  | (k, v) :: t, a => if a = k then v else Table.get d t a

/-- Remove a key from a table. -/
def Table.erase {α : Type} : List (Nat × α) → Nat → List (Nat × α)
  | [], _ => []
  | (k, v) :: t, a => if a = k then Table.erase t a else (k, v) :: Table.erase t a

/-- Put a pair into a table whose keys rise. -/
def Table.insert {α : Type} : List (Nat × α) → Nat → α → List (Nat × α)
  | [], a, x => [(a, x)]
  | (k, v) :: t, a, x =>
    if a < k then (a, x) :: (k, v) :: t
    else if a = k then (k, x) :: t
    else (k, v) :: Table.insert t a x

/-- Write a table: a value equal to the default leaves no entry, so equal tables are equal data. -/
def Table.set {α : Type} [DecidableEq α] (d : α) (t : List (Nat × α)) (a : Nat) (x : α) : List (Nat × α) :=
  if x = d then Table.erase t a else Table.insert t a x

/-- Change one entry of a table. -/
def Table.upd {α : Type} [DecidableEq α] (d : α) (t : List (Nat × α)) (a : Nat) (f : α → α) : List (Nat × α) :=
  Table.set d t a (f (Table.get d t a))

/-- Every key of a table is above a bound. -/
def Table.above {α : Type} : List (Nat × α) → Nat → Bool
  | [], _ => true
  | (k, _) :: t, b => decide (b < k) && Table.above t b

/-- The canonical form of a table: keys strictly rising, no entry equal to the default. -/
def Table.wf {α : Type} [DecidableEq α] (d : α) : List (Nat × α) → Bool
  | [] => true
  | (k, v) :: t => !decide (v = d) && Table.above t k && Table.wf d t

/-- Apply a function to every entry of a table; entries that become the default go. -/
def Table.mapVal {α : Type} [DecidableEq α] (d : α) (f : Nat → α → α) (t : List (Nat × α)) : List (Nat × α) :=
  (t.map fun p => (p.1, f p.1 p.2)).filter fun p => !decide (p.2 = d)

/-- A table whose entries are optional: its lookup. -/
def Table.find {α : Type} : List (Nat × α) → Nat → Option α
  | [], _ => none
  | (k, v) :: t, a => if a = k then some v else Table.find t a

/-- The lowest number below `n` that satisfies `p`. -/
def lowest (p : Nat → Bool) (n : Nat) : Option Nat := (List.range n).find? p

/-- The highest number below `n` that satisfies `p`. -/
def highest (p : Nat → Bool) (n : Nat) : Option Nat := (List.range n).reverse.find? p

/-- The bits [msb:lsb] of a word, as a number (R4). -/
def bitsOf {n : Nat} (x : BitVec n) (msb lsb : Nat) : Nat := (x.toNat >>> lsb) % 2 ^ (msb + 1 - lsb)

/-- One bit of a word. -/
def bitOf {n : Nat} (x : BitVec n) (i : Nat) : Bool := x.getLsbD i

/-- A Boolean as a number. -/
def b2n (b : Bool) : Nat := if b then 1 else 0

/-- A dword built of (lsb, value) fields; each value is taken as it is. -/
def mkWord (fs : List (Nat × Nat)) : Word := fs.foldl (fun w f => w ||| BitVec.ofNat 32 (f.2 <<< f.1)) 0

/-- The low dword of a 64-bit value. -/
def loWord (x : BitVec 64) : Word := x.setWidth 32

/-- The high dword of a 64-bit value. -/
def hiWord (x : BitVec 64) : Word := (x >>> 32).setWidth 32

/-- A 64-bit value from its low and high dwords. -/
def wide (lo hi : Word) : BitVec 64 := hi ++ lo

/-- The little-endian bytes of a number, `n` of them (R4). -/
def leBytes : Nat → Nat → Bytes
  | 0, _ => []
  | n + 1, v => BitVec.ofNat 8 v :: leBytes n (v / 256)

/-- The number that little-endian bytes spell (R4). -/
def leNat : Bytes → Nat
  | [] => 0
  | b :: t => b.toNat + 256 * leNat t

/-- The little-endian number in bytes `o` to `o + n - 1` of a string; bytes beyond its end count as 0. -/
def leAt (b : Bytes) (o n : Nat) : Nat := leNat ((b.drop o).take n)

/-- Increase a counter that saturates at all ones. -/
def satInc {n : Nat} (x : BitVec n) (k : Nat) : BitVec n :=
  if x.toNat + k < 2 ^ n then BitVec.ofNat n (x.toNat + k) else BitVec.allOnes n

/-- A number held to an upper limit. -/
def satNat (limit x : Nat) : Nat := if x < limit then x else limit

/-- `a` is later than `b` in serial-number arithmetic (R403). -/
def seqLater (a b : Word) : Bool :=
  let d := (a - b).toNat
  decide (d ≠ 0) && decide (d < 2 ^ 31)

/-- The bytes of `n` zeros. -/
def zeroBytes (n : Nat) : Bytes := List.replicate n 0

/-- Replace bytes `o`, `o+1`, … of a string by `d` (bytes beyond the end are dropped). -/
def spliceBytes (b : Bytes) (o : Nat) (d : Bytes) : Bytes := (b.take o ++ d ++ b.drop (o + d.length)).take b.length

/-- A two's complement number of `n` bits. -/
def toSigned (n v : Nat) : Int := if v < 2 ^ (n - 1) then (v : Int) else (v : Int) - 2 ^ n

/-- Round a quotient up. -/
def ceilDiv (a b : Nat) : Nat := if b = 0 then 0 else (a + b - 1) / b

/-- Round up to a multiple. -/
def roundUp (a n : Nat) : Nat := ceilDiv a n * n

/-- Split a byte string into pieces of `n` bytes (`fuel` bounds the number of pieces). -/
def chunksOf (n : Nat) : Nat → Bytes → List Bytes
  | 0, _ => []
  | fuel + 1, b => if b.isEmpty then [] else b.take n :: chunksOf n fuel (b.drop n)

/-- The byte string at `a`, `a+1`, … of a memory held as a table. -/
def readBytes (d : Byte) (m : List (Nat × Byte)) (a : Nat) : Nat → Bytes
  | 0 => []
  | n + 1 => Table.get d m a :: readBytes d m (a + 1) n

/-- Store a byte string at `a`, `a+1`, … of a memory held as a table. -/
def writeBytes (d : Byte) (m : List (Nat × Byte)) (a : Nat) : Bytes → List (Nat × Byte)
  | [] => m
  | b :: t => writeBytes d (Table.set d m a b) (a + 1) t

/-- Remove every entry whose key lies from `lo` to `hi - 1`: the range reads as the default afterwards. -/
def clearRange {α : Type} (m : List (Nat × α)) (lo hi : Nat) : List (Nat × α) :=
  m.filter fun p => !(decide (lo ≤ p.1) && decide (p.1 < hi))

end Sys2Proof
end

