-- ==== Sys2Proof/Machine/Num.lean ====
section
/-!
DEFINITION. The number formats of the KC2 (chapter 5): exact binary fractions, the floating-point formats of Table 5-2,
the conversions of R119 to R121, FP32 arithmetic (R666), weight codes and default grids (R122 to R125).
-/

namespace Sys2Proof.Machine

/-- A floating-point value: a NaN, an infinity, or (−1)^neg × m × 2^e exactly. -/
inductive Fp where
  | nan
  | inf (neg : Bool)
  | num (neg : Bool) (m : Nat) (e : Int)
  deriving DecidableEq, Repr

/-- A floating-point format (Table 5-2): exponent and mantissa bits, and whether it holds infinities. -/
structure FpFmt where
  eb : Nat
  mb : Nat
  hasInf : Bool
  deriving DecidableEq, Repr

/-- FP8-E4M3. -/
def fmtE4M3 : FpFmt := { eb := 4, mb := 3, hasInf := false }
/-- FP8-E5M2. -/
def fmtE5M2 : FpFmt := { eb := 5, mb := 2, hasInf := true }
/-- FP16. -/
def fmtFp16 : FpFmt := { eb := 5, mb := 10, hasInf := true }
/-- BF16. -/
def fmtBf16 : FpFmt := { eb := 8, mb := 7, hasInf := true }
/-- FP32. -/
def fmtFp32 : FpFmt := { eb := 8, mb := 23, hasInf := true }

/-- The exponent bias. -/
def FpFmt.bias (f : FpFmt) : Nat := 2 ^ (f.eb - 1) - 1

/-- The sign bit's weight. -/
def FpFmt.signBit (f : FpFmt) : Nat := 2 ^ (f.eb + f.mb)

/-- The encoding of the largest finite value. -/
def FpFmt.maxBits (f : FpFmt) : Nat := if f.hasInf then (2 ^ f.eb - 1) * 2 ^ f.mb - 1 else 2 ^ (f.eb + f.mb) - 2

/-- The canonical NaN (Table 5-2). -/
def FpFmt.nanBits (f : FpFmt) : Nat :=
  if !f.hasInf then 2 ^ (f.eb + f.mb) - 1
  else if f.mb = 2 then 0x7F
  else (2 ^ f.eb - 1) * 2 ^ f.mb + 2 ^ (f.mb - 1)

/-- The value that an encoding stands for. -/
def FpFmt.decode (f : FpFmt) (w : Nat) : Fp :=
  let neg := decide (w / f.signBit % 2 = 1)
  let ex := w / 2 ^ f.mb % 2 ^ f.eb
  let mn := w % 2 ^ f.mb
  if f.hasInf ∧ ex = 2 ^ f.eb - 1 then (if mn = 0 then .inf neg else .nan)
  else if !f.hasInf ∧ ex = 2 ^ f.eb - 1 ∧ mn = 2 ^ f.mb - 1 then .nan
  else if ex = 0 then .num neg mn (1 - (f.bias : Int) - f.mb)
  else .num neg (2 ^ f.mb + mn) ((ex : Int) - f.bias - f.mb)

/-- Divide by a power of two, rounding to nearest, ties to even. -/
def rneShift (m s : Nat) : Nat :=
  let q := m / 2 ^ s
  let r := m % 2 ^ s
  if 2 * r > 2 ^ s ∨ (2 * r = 2 ^ s ∧ q % 2 = 1) then q + 1 else q

/-- The magnitude bits of m × 2^e rounded to nearest even; above `maxBits` it has overflowed. -/
def FpFmt.roundMag (f : FpFmt) (m : Nat) (e : Int) : Nat :=
  if m = 0 then 0
  else
    let emin : Int := 1 - (f.bias : Int) - f.mb
    let top : Int := e + (Nat.log2 m : Int) - f.mb
    let q := if top < emin then emin else top
    let mant := if q ≤ e then m * 2 ^ (e - q).toNat else rneShift m (q - e).toNat
    (q - emin).toNat * 2 ^ f.mb + mant

/-- A conversion under R119: the encoding, and whether it saturated. -/
def FpFmt.convert (f : FpFmt) (v : Fp) : Nat × Bool :=
  match v with
  | .nan => (f.nanBits, false)
  | .inf neg =>
    let s := if neg then f.signBit else 0
    if f.hasInf then (s + f.maxBits + 1, false) else (s + f.maxBits, true)
  | .num neg m e =>
    let s := if neg then f.signBit else 0
    let b := f.roundMag m e
    if b > f.maxBits then (s + f.maxBits, true) else (s + b, false)

/-! ## FP32 arithmetic (R666) -/

/-- An FP32 encoding. -/
abbrev F32 := BitVec 32

/-- The value of an FP32 encoding. -/
def f32v (w : F32) : Fp := fmtFp32.decode w.toNat

/-- Round to FP32: an overflow becomes an infinity, a NaN the canonical NaN (R666). -/
def rne32 (v : Fp) : F32 :=
  match v with
  | .nan => 0x7FC00000
  | .inf neg => if neg then 0xFF800000 else 0x7F800000
  | .num neg m e =>
    let b := fmtFp32.roundMag m e
    let s := if neg then fmtFp32.signBit else 0
    BitVec.ofNat 32 (s + if b > fmtFp32.maxBits then fmtFp32.maxBits + 1 else b)

/-- Change of sign. -/
def Fp.neg : Fp → Fp
  | .nan => .nan
  | .inf s => .inf (!s)
  | .num s m e => .num (!s) m e

/-- Exact product. -/
def Fp.mul (a b : Fp) : Fp :=
  match a, b with
  | .nan, _ => .nan
  | _, .nan => .nan
  | .inf s, .inf t => .inf (s != t)
  | .inf s, .num t m _ => if m = 0 then .nan else .inf (s != t)
  | .num s m _, .inf t => if m = 0 then .nan else .inf (s != t)
  | .num s m e, .num t n d => .num (s != t) (m * n) (e + d)

/-- A signed numerator at an exponent. -/
def signedAt (neg : Bool) (m : Nat) (e d : Int) : Int :=
  let v : Int := (m * 2 ^ (e - d).toNat : Nat)
  if neg then -v else v

/-- Exact sum. A zero sum of values that are not both negative is +0. -/
def Fp.add (a b : Fp) : Fp :=
  match a, b with
  | .nan, _ => .nan
  | _, .nan => .nan
  | .inf s, .inf t => if s = t then .inf s else .nan
  | .inf s, .num _ _ _ => .inf s
  | .num _ _ _, .inf t => .inf t
  | .num s m e, .num t n d =>
    let q := if e < d then e else d
    let v := signedAt s m e q + signedAt t n d q
    if v = 0 then .num (s && t) 0 q else .num (decide (v < 0)) v.natAbs q

/-- An integer as a value. -/
def Fp.ofInt (i : Int) : Fp := .num (decide (i < 0)) i.natAbs 0

/-- The value is NaN. -/
def Fp.isNan : Fp → Bool
  | .nan => true
  | _ => false

/-- Strict order of values; false with a NaN. -/
def Fp.lt (a b : Fp) : Bool :=
  match a, b with
  | .nan, _ => false
  | _, .nan => false
  | .inf s, .inf t => s && !t
  | .inf s, .num _ _ _ => s
  | .num _ _ _, .inf t => !t
  | .num s m e, .num t n d =>
    let q := if e < d then e else d
    decide (signedAt s m e q < signedAt t n d q)

/-- FP32 sum, difference, product and fused multiply-add, each with one rounding. -/
def f32add (a b : F32) : F32 := rne32 ((f32v a).add (f32v b))
/-- Difference. -/
def f32sub (a b : F32) : F32 := rne32 ((f32v a).add (f32v b).neg)
/-- Product. -/
def f32mul (a b : F32) : F32 := rne32 ((f32v a).mul (f32v b))
/-- Fused multiply-add. -/
def f32fma (a b c : F32) : F32 := rne32 (((f32v a).mul (f32v b)).add (f32v c))

/-- Quotient with a sticky last bit, from which every narrower rounding is exact. -/
def Fp.div (a b : Fp) : Fp :=
  match a, b with
  | .nan, _ => .nan
  | _, .nan => .nan
  | .inf _, .inf _ => .nan
  | .inf s, .num t _ _ => .inf (s != t)
  | .num s _ _, .inf t => .num (s != t) 0 0
  | .num s m e, .num t n d =>
    if n = 0 then (if m = 0 then .nan else .inf (s != t))
    else
      let k := 160 + Nat.log2 n
      let q := m * 2 ^ k / n
      .num (s != t) (2 * q + if m * 2 ^ k % n = 0 then 0 else 1) (e - d - k - 1)

/-- Correctly rounded FP32 quotient. -/
def f32div (a b : F32) : F32 := rne32 ((f32v a).div (f32v b))

/-- Correctly rounded FP32 square root. -/
def f32sqrt (a : F32) : F32 :=
  match f32v a with
  | .nan => 0x7FC00000
  | .inf neg => if neg then 0x7FC00000 else 0x7F800000
  | .num neg m e =>
    if m = 0 then a
    else if neg then 0x7FC00000
    else
      let par := (e % 2).toNat
      let n := m * 2 ^ (160 + par)
      let r := Nat.sqrt n
      rne32 (.num false (2 * r + if r * r = n then 0 else 1) ((e - par) / 2 - 81))

/-! ## Integers -/

/-- Round a value to an integer, ties to even; none for a NaN, the sign for an infinity. -/
def Fp.toInt (v : Fp) : Option (Int ⊕ Bool) :=
  match v with
  | .nan => none
  | .inf neg => some (.inr neg)
  | .num neg m e =>
    let n := if 0 ≤ e then m * 2 ^ e.toNat else rneShift m (-e).toNat
    some (.inl (if neg then -(n : Int) else n))

/-- Hold an integer to a range; the flag says that it was outside. -/
def satInt (lo hi i : Int) : Int × Bool := if i < lo then (lo, true) else if hi < i then (hi, true) else (i, false)

/-- A conversion to an integer format with zero point `z` under R120: the value, and whether it counts as clipped. -/
def toIntSat (lo hi z : Int) (v : Fp) : Int × Bool :=
  match v.toInt with
  | none => (z, true)
  | some (.inr neg) => (if neg then lo else hi, true)
  | some (.inl i) => satInt lo hi (i + z)

/-! ## The twelve formats (Table 5-1) -/

/-- Bits of an element. -/
def fmtBits (f : Nat) : Nat := [2, 3, 4, 4, 8, 8, 16, 8, 8, 16, 16, 32].getD f 0

/-- Bytes of a stored element. -/
def fmtBytes (f : Nat) : Nat := fmtBits f / 8

/-- The floating-point format of a code, for codes 7 to 11. -/
def fpOf (f : Nat) : FpFmt :=
  if f = 7 then fmtE4M3 else if f = 8 then fmtE5M2 else if f = 9 then fmtFp16 else if f = 10 then fmtBf16 else fmtFp32

/-- A format is an integer format. -/
def fmtIsInt (f : Nat) : Bool := decide (f ≤ 6)

/-- The integer that an element of an integer format holds. -/
def fmtInt (f raw : Nat) : Int :=
  if f = 3 then toSigned 4 (raw % 16)
  else if f = 4 then toSigned 8 (raw % 256)
  else if f = 5 then (raw % 256 : Nat)
  else if f = 6 then toSigned 16 (raw % 65536)
  else (raw : Int)

/-- The exact value of an element (R121). -/
def fmtVal (f raw : Nat) : Fp := if fmtIsInt f then Fp.ofInt (fmtInt f raw) else (fpOf f).decode raw

/-- The range of an integer format. -/
def fmtRange (f : Nat) : Int × Int :=
  if f = 3 then (-8, 7) else if f = 4 then (-128, 127) else if f = 5 then (0, 255) else (-32768, 32767)

/-- The raw bits of an integer in `n` bits. -/
def rawInt (n : Nat) (i : Int) : Nat := (i % (2 ^ n : Int)).toNat

/-- An FP32 value written in a stored format with zero point `z` (R120, R140): raw bits, and whether it is clipped. -/
def fmtStore (f : Nat) (z : Nat) (v : F32) : Nat × Bool :=
  if f = 11 then (v.toNat, false)
  else if fmtIsInt f then
    let r := fmtRange f
    let q := toIntSat r.1 r.2 (if f = 5 then z else 0) (f32v v)
    (rawInt (fmtBits f) q.1, q.2)
  else (fpOf f).convert (f32v v)

/-- Whether the value of a raw element equals its zero or a NaN is of no account here: the raw zero of padding (R137). -/
def padRaw (f z : Nat) : Nat := if f = 5 then z else 0

/-! ## Weight codes and grids (R122 to R125) -/

/-- The code of index `i` in packed weights, least significant bit first (R122). -/
def unpackCode (bits : Nat) (b : Bytes) (i : Nat) : Nat :=
  let bit := i * bits
  leAt b (bit / 8) 3 / 2 ^ (bit % 8) % 2 ^ bits

/-- The default grids, as LUT entries (Table 5-3). -/
def defaultGrid (f : Nat) : List Int :=
  if f = 2 then [-1024, -725, -555, -427, -318, -221, -130, -43, 43, 130, 221, 318, 427, 555, 725, 1024]
  else if f = 1 then [-1024, -592, -326, -105, 105, 326, 592, 1024]
  else [-1024, -284, 284, 1024]

/-- The LUT entry of a user grid's FP16 entry: 1,024 × g, rounded to nearest even (R123). -/
def lutEntry (fp16 : Nat) : Int :=
  match (Fp.mul (.num false 1024 0) (fmtFp16.decode fp16)).toInt with
  | some (.inl i) => i
  | _ => 0

/-- The LUT entry, or the weight code itself, of a weight of an integer path (R123, R136). -/
def lutValue (f : Nat) (user : Option Bytes) (code : Nat) : Int :=
  if f = 3 ∨ f = 4 then fmtInt f code
  else
    match user with
    | some g => lutEntry (leAt g (2 * code) 2)
    | none => (defaultGrid f).getD code 0

/-- The entry exponent (R123). -/
def entryExp (f : Nat) : Nat := if f ≤ 2 then 10 else 0

/-! ## The rotor (R145) -/

/-- One butterfly stage with distance `d`. -/
def butterfly (d : Nat) (x : List F32) : List F32 :=
  (List.range x.length).map fun i =>
    let b := x.getD i 0
    if i / d % 2 = 0 then f32add b (x.getD (i + d) 0) else f32sub (x.getD (i - d) 0) b

/-- The butterflies of distances d, 2d, …, `n` of them. -/
def butterflies : Nat → Nat → List F32 → List F32
  | 0, _, x => x
  | n + 1, d, x => butterflies n (2 * d) (butterfly d x)

/-- The rotor's constant (Table 6-2). -/
def rotorConst (block : Nat) : F32 :=
  if block = 1 then 0x3E3504F3 else if block = 2 then 0x3E000000 else if block = 3 then 0x3DB504F3 else 0x3D800000

/-- Rotate one block of 16 × 2^block values: signs, butterflies, constant (R145). -/
def rotate (block : Nat) (signs : Option (BitVec 256)) (x : List F32) : List F32 :=
  let y := match signs with
    | none => x
    | some v => (List.range x.length).map fun i => let a := x.getD i 0; if v.getLsbD i then a ^^^ 0x80000000 else a
  (butterflies (4 + block) 1 y).map fun a => f32mul a (rotorConst block)

end Sys2Proof.Machine
end

