-- ==== Sys2Proof/Machine/Layer.lean ====
section
/-!
DEFINITION. Layer records and pieces (chapters 7 and 8): the fields of Tables 8-1 to 8-6, the split of a layer over a
core group (R183), the enumeration of tiles (R186, R187, R216, R231), and where a weight code lies in a stripe (R189,
R218, R219).
-/

namespace Sys2Proof.Machine

/-! ## Fields -/

/-- A layer record as its 128 bytes (Table 8-4). -/
abbrev LayerRec := Bytes

/-- Bits [msb:lsb] of the dword at an offset of a record. -/
def recBits (r : Bytes) (o msb lsb : Nat) : Nat := leAt r o 4 / 2 ^ lsb % 2 ^ (msb + 1 - lsb)

/-- A 16-bit field in which 0 means 65,536 (R214). -/
def dim16 (v : Nat) : Nat := if v = 0 then 65536 else v

namespace LayerRec
def opKind (r : LayerRec) : Nat := recBits r 0 7 0
def wFmt (r : LayerRec) : Nat := recBits r 0 11 8
def inFmt (r : LayerRec) : Nat := recBits r 0 15 12
def actFmt (r : LayerRec) : Nat := recBits r 0 19 16
def outFmt (r : LayerRec) : Nat := recBits r 0 23 20
def wGran (r : LayerRec) : Nat := recBits r 0 25 24
def userGrid (r : LayerRec) : Bool := recBits r 0 26 26 == 1
def modeN (r : LayerRec) : Bool := recBits r 0 27 27 == 1
def gather (r : LayerRec) : Bool := recBits r 0 28 28 == 1
def widen (r : LayerRec) : Bool := recBits r 0 29 29 == 1
def signEn (r : LayerRec) : Bool := recBits r 0 30 30 == 1
def last (r : LayerRec) : Bool := recBits r 0 31 31 == 1
def rotBlock (r : LayerRec) : Nat := recBits r 4 2 0
def loLp (r : LayerRec) : Nat := recBits r 4 5 3
def loSac (r : LayerRec) : Nat := recBits r 4 8 6
def loCore (r : LayerRec) : Nat := recBits r 4 11 9
def loMac (r : LayerRec) : Nat := recBits r 4 14 12
def dynEn (r : LayerRec) : Bool := recBits r 4 15 15 == 1
def dynDim (r : LayerRec) : Nat := recBits r 4 17 16
def dynAxis (r : LayerRec) : Nat := recBits r 4 19 18
def segOp (r : LayerRec) : Nat := recBits r 4 21 20
def tileH (r : LayerRec) : Nat := recBits r 8 12 0
def tileW (r : LayerRec) : Nat := recBits r 8 25 13
def winH (r : LayerRec) : Nat := recBits r 8 28 26
def winW (r : LayerRec) : Nat := recBits r 8 31 29
def kTile (r : LayerRec) : Nat := recBits r 12 9 0
def cTile (r : LayerRec) : Nat := recBits r 12 21 10
def strideH (r : LayerRec) : Nat := recBits r 12 23 22 + 1
def strideW (r : LayerRec) : Nat := recBits r 12 25 24 + 1
def dilH (r : LayerRec) : Nat := recBits r 12 27 26 + 1
def dilW (r : LayerRec) : Nat := recBits r 12 29 28 + 1
def padTop (r : LayerRec) : Nat := recBits r 16 2 0
def padLeft (r : LayerRec) : Nat := recBits r 16 5 3
def satLimit (r : LayerRec) : Nat := recBits r 16 31 16
def wBase (r : LayerRec) : Nat := leAt r 0x14 1
def wSize (r : LayerRec) : Nat := leAt r 0x15 1
def aBase (r : LayerRec) : Nat := leAt r 0x16 1
def aSize (r : LayerRec) : Nat := leAt r 0x17 1
def oBase (r : LayerRec) : Nat := leAt r 0x18 1
def oSize (r : LayerRec) : Nat := leAt r 0x19 1
def zA (r : LayerRec) : Nat := leAt r 0x1A 1
def zO (r : LayerRec) : Nat := leAt r 0x1B 1
def blkRows (r : LayerRec) : Nat := dim16 (leAt r 0x1C 2)
def blkK (r : LayerRec) : Nat := dim16 (leAt r 0x1E 2)
def inH (r : LayerRec) : Nat := dim16 (leAt r 0x20 2)
def inW (r : LayerRec) : Nat := dim16 (leAt r 0x22 2)
def inC (r : LayerRec) : Nat := dim16 (leAt r 0x24 2)
def outC (r : LayerRec) : Nat := dim16 (leAt r 0x26 2)
def outH (r : LayerRec) : Nat := dim16 (leAt r 0x28 2)
def outW (r : LayerRec) : Nat := dim16 (leAt r 0x2A 2)
def sA (r : LayerRec) : F32 := BitVec.ofNat 32 (leAt r 0x2C 4)
def rA (r : LayerRec) : F32 := BitVec.ofNat 32 (leAt r 0x30 4)
def wideRatio (r : LayerRec) : F32 := BitVec.ofNat 32 (leAt r 0x34 4)
def wideRecip (r : LayerRec) : F32 := BitVec.ofNat 32 (leAt r 0x38 4)
def srcBuf (r : LayerRec) : Nat := leAt r 0x3C 1
def dstBuf (r : LayerRec) : Nat := leAt r 0x3D 1
def auxBuf (r : LayerRec) : Nat := leAt r 0x3E 1
def srcOff (r : LayerRec) : Nat := leAt r 0x40 4
def dstOff (r : LayerRec) : Nat := leAt r 0x44 4
def auxOff (r : LayerRec) : Nat := leAt r 0x48 4
def srcPitch (r : LayerRec) : Nat := leAt r 0x4C 4
def dstPitch (r : LayerRec) : Nat := leAt r 0x50 4
def wOff (r : LayerRec) : Nat := leAt r 0x54 4
def tabOff (r : LayerRec) : Nat := leAt r 0x58 4
def nestOff (r : LayerRec) : Nat := leAt r 0x5C 4
def signVec (r : LayerRec) : BitVec 256 := BitVec.ofNat 256 (leAt r 0x60 32)

/-- The layer is an array operator (Table 8-5). -/
def isArray (r : LayerRec) : Bool := decide (opKind r ≤ 1)
/-- Window taps. -/
def taps (r : LayerRec) : Nat := winH r * winW r
/-- Input rows of a tile of `h` output rows (R176). -/
def spanH (r : LayerRec) (h : Nat) : Nat := (h - 1) * strideH r + (winH r - 1) * dilH r + 1
/-- Input columns of a tile of `w` output columns (R176). -/
def spanW (r : LayerRec) (w : Nat) : Nat := (w - 1) * strideW r + (winW r - 1) * dilW r + 1
/-- Input elements in one weight-scale group; 0 for per-channel scales (R126). -/
def group (r : LayerRec) : Nat := [0, 32, 64, 128].getD (wGran r) 0
/-- Weight-scale groups per tap over the layer's input channels (R126). -/
def groups (r : LayerRec) : Nat := if wGran r = 0 then 0 else ceilDiv (inC r) (group r)
/-- The sign vector in use (R145). -/
def signs (r : LayerRec) : Option (BitVec 256) := if signEn r then some (signVec r) else none
end LayerRec

open LayerRec

/-- Input channels per beat of a format pair (Table 5-5); 0 where the pair is not legal. -/
def cpbOf (w a : Nat) : Nat :=
  if a = 4 ∨ a = 5 then (if w = 4 then 32 else if w ≤ 3 then 64 else 0)
  else if a = 6 then (if w ≤ 4 then 16 else 0)
  else if a = 7 ∨ a = 8 then (if w = 7 ∨ w = 8 then 32 else 0)
  else if a = 9 then (if w = 9 then 8 else 0)
  else if a = 10 then (if w = 10 then 8 else 0)
  else 0

/-! ## Boxes of work -/

/-- A box of a layer's loops: output channels, output rows and columns, input channels (for a vector operator, output
channels in the place of input channels). -/
structure Box where
  k0 : Nat
  kn : Nat
  y0 : Nat
  h : Nat
  x0 : Nat
  w : Nat
  c0 : Nat
  cn : Nat
  deriving DecidableEq, Repr

/-- Split a range into pieces of `n`. -/
def splitRange (a len n : Nat) : List (Nat × Nat) :=
  (List.range (ceilDiv len n)).map fun i => (a + i * n, min n (len - i * n))

/-- The position tiles of a box: rows, then columns. -/
def Box.posTiles (b : Box) (th tw : Nat) : List (Nat × Nat × Nat × Nat) :=
  (splitRange b.y0 b.h th).flatMap fun y => (splitRange b.x0 b.w tw).map fun x => (y.1, y.2, x.1, x.2)

/-- Split a box into tiles in the order that a loop-order code gives (R216). -/
def Box.split (b : Box) (order tk th tw tc : Nat) : List Box :=
  let ks := splitRange b.k0 b.kn tk
  let cs := splitRange b.c0 b.cn tc
  let ps := b.posTiles th tw
  let mk (k : Nat × Nat) (c : Nat × Nat) (p : Nat × Nat × Nat × Nat) : Box :=
    { k0 := k.1, kn := k.2, y0 := p.1, h := p.2.1, x0 := p.2.2.1, w := p.2.2.2, c0 := c.1, cn := c.2 }
  if order = 0 then ks.flatMap fun k => cs.flatMap fun c => ps.map fun p => mk k c p
  else if order = 1 then cs.flatMap fun c => ks.flatMap fun k => ps.map fun p => mk k c p
  else if order = 2 then ks.flatMap fun k => ps.flatMap fun p => cs.map fun c => mk k c p
  else if order = 3 then ps.flatMap fun p => ks.flatMap fun k => cs.map fun c => mk k c p
  else if order = 4 then cs.flatMap fun c => ps.flatMap fun p => ks.map fun k => mk k c p
  else ps.flatMap fun p => cs.flatMap fun c => ks.map fun k => mk k c p

/-- A nest record (Table 8-6). -/
abbrev NestRec := Bytes

/-- A level's tile of a nest record: columns 0 to 3 are rows, columns, output and input channels. -/
def nestDim (n : NestRec) (level i : Nat) : Nat := dim16 (leAt n (level * 8 + i * 2) 2)

/-- The column block of a layer: the output channels of group column `j` and the positions of a whole row block, as
if its rows began at 0 (R183). A vector operator's channels stand in the place of its input channels (R200). -/
def columnBlock (r : LayerRec) (j : Nat) : Box :=
  let k0 := j * blkK r
  let kn := min (blkK r) (outC r - k0)
  let h := min (blkRows r) (outH r)
  if isArray r then { k0 := k0, kn := kn, y0 := 0, h := h, x0 := 0, w := outW r, c0 := 0, cn := inC r }
  else { k0 := k0, kn := 1, y0 := 0, h := h, x0 := 0, w := outW r, c0 := k0, cn := kn }

/-- The LP5X-level tiles of a column in mode N (R187), the whole block in mode S. -/
def lpBoxes (r : LayerRec) (nest : NestRec) (b : Box) : List Box :=
  if modeN r then b.split (loLp r) (nestDim nest 0 2) (nestDim nest 0 0) (nestDim nest 0 1) (nestDim nest 0 3) else [b]

/-- The SAC-level tiles of an LP5X-level tile. -/
def sacBoxes (r : LayerRec) (nest : NestRec) (b : Box) : List Box :=
  if modeN r then b.split (loSac r) (nestDim nest 1 2) (nestDim nest 1 0) (nestDim nest 1 1) (nestDim nest 1 3) else [b]

/-- The boxes that a column is staged in, each with the number of the LP5X-level tile that it is a part of. -/
def outerPairs (r : LayerRec) (nest : NestRec) (b : Box) : List (Nat × Box) :=
  let l := lpBoxes r nest b
  (List.range l.length).flatMap fun i => (sacBoxes r nest (l.getD i b)).map fun x => (i, x)

/-- The boxes that a column is staged in: SAC-level tiles within LP5X-level tiles in mode N (R187), the whole block in
mode S. -/
def outerBoxes (r : LayerRec) (nest : NestRec) (b : Box) : List Box := (outerPairs r nest b).map Prod.snd

/-- The tiles of a column, in enumeration order (R231), each with the number of the box it is staged in. -/
def taggedBoxes (r : LayerRec) (nest : NestRec) (j : Nat) : List (Nat × Box) :=
  let b := columnBlock r j
  if b.kn = 0 ∨ b.cn = 0 then []
  else
    let l := outerBoxes r nest b
    (List.range l.length).flatMap fun i =>
      ((l.getD i b).split (loCore r) (kTile r) (tileH r) (tileW r) (cTile r)).map fun x => (i, x)

/-- The tiles of a column, in enumeration order. -/
def columnBoxes (r : LayerRec) (nest : NestRec) (j : Nat) : List Box := (taggedBoxes r nest j).map Prod.snd

/-! ## Run-time shapes (R195 to R198, R207) -/

/-- How a layer follows a dynamic dimension: SKIP or BUCKET, and the actual length. -/
structure Dyn where
  skip : Bool
  len : Nat
  deriving DecidableEq, Repr

/-- The output rows within the actual length (R196); all of them where rows do not follow it. -/
def rowLimit (r : LayerRec) (d : Option Dyn) : Nat :=
  match d with
  | some x => if dynEn r ∧ dynAxis r = 0 then ceilDiv x.len (strideH r) else outH r
  | none => outH r

/-- The output columns within the actual length; for a gather layer's axis 3, list entries (R207). -/
def colLimit (r : LayerRec) (d : Option Dyn) : Nat :=
  match d with
  | some x => if dynEn r ∧ (dynAxis r = 1 ∨ dynAxis r = 3) then ceilDiv x.len (strideW r) else outW r
  | none => outW r

/-- SKIP applies. -/
def skips (d : Option Dyn) : Bool :=
  match d with
  | some x => x.skip
  | none => false

/-- The part of a column tile that the core of group row `i` computes: its rows moved to the core's block and clipped to
the output, and under SKIP to the actual length (R183, R197). -/
def coreBox (r : LayerRec) (d : Option Dyn) (i : Nat) (b : Box) : Box :=
  let y := i * blkRows r + b.y0
  let hi := if skips d then min (outH r) (rowLimit r d) else outH r
  let wi := if skips d then min (outW r) (colLimit r d) else outW r
  { b with y0 := y, h := min b.h (hi - y), w := min b.w (wi - b.x0) }

/-- Output positions of a tile. -/
def Box.positions (b : Box) : Nat := b.h * b.w

/-- The tiles of a column that some core of it computes (R197, R243, R248), with the number of the box each is staged in. -/
def taggedTiles (r : LayerRec) (nest : NestRec) (d : Option Dyn) (gh j : Nat) : List (Nat × Box) :=
  (taggedBoxes r nest j).filter fun b => (List.range gh).any fun i => decide ((coreBox r d i b.2).positions ≠ 0)

/-- The tiles of a column that some core of it computes. -/
def columnTiles (r : LayerRec) (nest : NestRec) (d : Option Dyn) (gh j : Nat) : List Box :=
  (taggedTiles r nest d gh j).map Prod.snd

/-! ## Weights (R189, R218, R219) -/

/-- Output channels of a tile rounded up to whole blocks (R177). -/
def Box.kPad (b : Box) : Nat := roundUp b.kn 32

/-- Bytes of one channel's codes in a weight block. -/
def blockCodes (r : LayerRec) : Nat := cpbOf (wFmt r) (actFmt r) * fmtBits (wFmt r) / 8

/-- Input blocks of a tile. -/
def Box.cBlocks (b : Box) (r : LayerRec) : Nat := ceilDiv b.cn (cpbOf (wFmt r) (actFmt r))

/-- Bytes of a weight tile's image (R219). -/
def Box.imageBytes (b : Box) (r : LayerRec) : Nat :=
  b.kPad / 32 * taps r * b.cBlocks r * 32 * blockCodes r

/-- A core's share of an image (R219). -/
def shareBytes (image gh : Nat) : Nat := ceilDiv (ceilDiv image gh) 128 * 128

/-- Where in an image the codes of a channel begin: block kb, tap, cb, then the channel within the block (R189). -/
def imageOff (r : LayerRec) (b : Box) (k tap cb : Nat) : Nat :=
  (((k / 32) * taps r + tap) * b.cBlocks r + cb) * 32 * blockCodes r + k % 32 * blockCodes r

/-- The distinct weight tiles of a column, in the order of its stripes (R219). -/
def weightTiles (r : LayerRec) (nest : NestRec) (j : Nat) : List Box :=
  ((columnBoxes r nest j).map fun b => { b with y0 := 0, h := 0, x0 := 0, w := 0 }).foldl
    (fun l b => if l.contains b then l else l ++ [b]) []

/-- Where in a core's stripe its share of a weight tile begins (R219). -/
def shareOff (r : LayerRec) (gh : Nat) : List Box → Box → Nat
  | [], _ => wOff r
  | b :: t, a => if a = b then wOff r else shareBytes (b.imageBytes r) gh + shareOff r gh t a

/-- The stripe bytes that a layer takes in a core of column `j`. -/
def stripeUse (r : LayerRec) (nest : NestRec) (gh j : Nat) : Nat :=
  ((weightTiles r nest j).map fun b => shareBytes (b.imageBytes r) gh).sum

/-! ## Tables (R220) -/

/-- The layer has weight scales: grid, INT4 or INT8 weights (R126, R220). The second operand of MATMUL_AA is no weight and
its scale is folded into the multipliers (Table 8-5): it has none. R126 lets FP weights use either granularity, and R220 gives them
no scales in a table: the model follows the table's layout (log entry 142). -/
def hasScales (r : LayerRec) : Bool := opKind r == 0 && decide (wFmt r ≤ 4)

/-- Bytes of the weight scales in the tables. -/
def scaleBytes (r : LayerRec) : Nat :=
  if hasScales r then 2 * outC r * (if wGran r = 0 then 1 else taps r * groups r) else 0

/-- Offset, within a layer's tables, of its requantisation entries. -/
def requantOff (r : LayerRec) : Nat := if userGrid r then 32 else 0

/-- Offset of its weight scales. -/
def scaleOff (r : LayerRec) : Nat := requantOff r + 16 * outC r

/-- Bytes of a layer's tables. -/
def tableBytes (r : LayerRec) : Nat :=
  if isArray r then scaleOff r + scaleBytes r
  else requantOff r + 32 + (if opKind r = 0x13 then 8 * inC r else 0)

/-- The user grid, where the layer's weights are grid codes (R124). -/
def userTable (r : LayerRec) (tab : Bytes) : Option Bytes := if userGrid r ∧ wFmt r ≤ 2 then some (tab.take 32) else none

/-! ## Pieces (Table 8-3) -/

/-- A PIECE entry as its 64 bytes. -/
abbrev PieceRec := Bytes

namespace PieceRec
def stage (p : PieceRec) : Nat := leAt p 0 1
def origin (p : PieceRec) : Nat := leAt p 1 1
def gh (p : PieceRec) : Nat := leAt p 2 1
def gw (p : PieceRec) : Nat := leAt p 3 1
def key (p : PieceRec) : Nat := leAt p 4 2
def nLayers (p : PieceRec) : Nat := leAt p 6 2
def layerIdx (p : PieceRec) : Nat := leAt p 8 4
def stripeOff (p : PieceRec) : Nat := leAt p 12 4
def stripeLen (p : PieceRec) : Nat := leAt p 16 4
def tableOff (p : PieceRec) : Nat := leAt p 20 4
def tableLen (p : PieceRec) : Nat := leAt p 24 4
def nestIdx (p : PieceRec) : Nat := leAt p 28 4
def nNest (p : PieceRec) : Nat := leAt p 32 2

/-- The core in row `i` and column `j` of the group (R182). -/
def core (p : PieceRec) (i j : Nat) : Nat := origin p + 8 * i + j

/-- The cores of a group, row by row. -/
def cores (p : PieceRec) : List Nat :=
  (List.range (gh p)).flatMap fun i => (List.range (gw p)).map fun j => core p i j

/-- The group lies in the grid (R182). -/
def inGrid (p : PieceRec) : Bool :=
  decide (1 ≤ gh p) && decide (gh p ≤ 8) && decide (1 ≤ gw p) && decide (gw p ≤ 8) && decide (origin p < 64)
    && decide (origin p / 8 + gh p ≤ 8) && decide (origin p % 8 + gw p ≤ 8)
end PieceRec

/-! ## Dynamic dimensions (Table 8-2) -/

/-- A DYN entry as its 32 bytes. -/
abbrev DynRec := Bytes

namespace DynRec
def mode (d : DynRec) : Nat := leAt d 0 1
def nBuckets (d : DynRec) : Nat := leAt d 1 1
def maxLen (d : DynRec) : Nat := leAt d 4 4
def bucket (d : DynRec) (i : Nat) : Nat := leAt d (8 + 2 * i) 2
def isBucket (d : DynRec) : Bool := decide (mode d = 0)
def isSkip (d : DynRec) : Bool := decide (mode d = 1)
def isChips (d : DynRec) : Bool := decide (mode d = 2)

/-- The smallest bucket that is not less than a length (R195). -/
def pick (d : DynRec) (len : Nat) : Option Nat :=
  (List.range (nBuckets d)).find? fun i => decide (len ≤ bucket d i)

/-- The largest bucket that does not exceed a count of chips (R373). -/
def pickChips (d : DynRec) (live : Nat) : Option Nat :=
  (List.range (nBuckets d)).reverse.find? fun i => decide (bucket d i ≤ live)
end DynRec

/-- A piece's key matches the bucket indices chosen for the dimensions; none for a SKIP dimension (R211). -/
def keyMatches (key : Nat) (l : List (Option Nat)) : Bool :=
  (List.range 4).all fun d =>
    let n := key / 16 ^ d % 16
    match l.getD d none with
    | none => true
    | some b => n == 15 || n == b

end Sys2Proof.Machine
end

