-- ==== Sys2Proof/Config.lean ====
section
/-!
DEFINITION. What the spec leaves open: free values. Each is an opaque constant, applied to the operands it depends on
or to the counter `State.fresh`; nothing in Lean can find a value of it. The notes name each in the assumption log.
-/

namespace Sys2Proof.Config

/-- Whether the WDO ticks at a given tick of the time base: it runs at 0.75 to 1.25 MHz (R533). Log entry 4. -/
opaque wdoTicks : Nat → Bool

/-- The step of the watchdog's 32-bit maximal-length LFSR, whose polynomial the spec does not give (R536). Log
entry 5. -/
opaque lfsrStep : BitVec 32 → BitVec 32

/-- A bit that the spec leaves open, by the fresh counter. Log entry 6. -/
opaque freeBit : Nat → Bool

/-- A byte that the spec leaves open, by the fresh counter and a position. Log entry 6. -/
opaque freeByte : Nat → Nat → BitVec 8

/-- A number that the spec leaves open, by the fresh counter. Log entry 6. -/
opaque freeNat : Nat → Nat

/-- A 32-bit value that the spec leaves open, by the fresh counter. Log entry 6. -/
opaque freeWord : Nat → BitVec 32

/-- The 9-bit SEC-DED code of 16 bytes of LP5X, which the spec does not give (Table 11-3). Log entry 124. -/
opaque secDed : List (BitVec 8) → BitVec 9

/-- The 168 parity bits of a code word, by its bytes 0 to 266: the BCH code's generator is not given (Table 3-1). Log entry 133. -/
opaque bchParity : List (BitVec 8) → BitVec 168

/-- How many code words of a copy the wear record of one checkpoint takes. Log entry 134. -/
opaque wearWords : Nat

/-- A byte of a checkpoint's wear record, by its counts, block map, install counts and place; the record's layout is not given
(Table 3-3). Log entry 134. -/
opaque wearByte : List (Nat × List Nat) → List (Nat × Nat) → List (Nat × Nat) → Nat → BitVec 8

/-- The line within a way that a tenant's cache gives a line of memory: whether it is host memory, and its number there. The spec
gives the rule for scratch ways only (R302). Log entry 69. -/
opaque cacheIndex : Bool → Nat → Nat

/-- Whether the header, key, signature and covered bytes of a firmware image pass the key-hash and ECDSA P-256
checks of R555: a function of the bytes. Log entry 7. -/
opaque imageSigned : List (BitVec 8) → Bool

/-- Whether the key and signature of an unlock token pass the key-hash and ECDSA P-256 checks of R574. Log entry
7. -/
opaque tokenSigned : List (BitVec 8) → Bool

/-- The vector unit's functions whose FP32 evaluation the spec does not fix: GELU, SiLU, sigmoid and tanh by their code,
and ReLU and clamp of a NaN. Log entry 55. -/
opaque vecAct : Nat → BitVec 32 → BitVec 32

/-- What an element adds to the second reduction of a normalisation: variant, mean, element. Log entry 55. -/
opaque vecNormTerm : Nat → BitVec 32 → BitVec 32 → BitVec 32

/-- One element of a normalisation: variant, epsilon, mean, mean of the second reduction, the element, its gamma and beta. Log
entry 55. -/
opaque vecNorm : Nat → BitVec 32 → BitVec 32 → BitVec 32 → BitVec 32 → BitVec 32 → BitVec 32 → BitVec 32

/-- The exponential of a softmax: the largest element of the list, and the element. Log entry 55. -/
opaque vecExp : BitVec 32 → BitVec 32 → BitVec 32

/-- How COMBINE adds the next partial to those before it. Log entry 55. -/
opaque vecFold : BitVec 32 → BitVec 32 → BitVec 32

/-- One element of COMBINE: the value and the combined partials. Log entry 55. -/
opaque vecCombine : BitVec 32 → BitVec 32 → BitVec 32

/-- The input channel that SHUFFLE moves to an output channel: factor, input channels, output channel, row and column
within the factor. Log entry 55. -/
opaque shuffleChan : Nat → Nat → Nat → Nat → Nat → Nat

/-- Where a piece of a mode-N layer's source lies in a staging area: the level (0 LP5X, 1 SAC), the core that reads it, and
the piece's offset in the source buffer; the spec gives the area's start only. Log entry 56. -/
opaque stagePlace : Nat → Nat → Nat → Nat

/-- The payload of a CTRL flit that carries a message, and the message that a payload spells: the spec leaves the layout
to the firmware (R361, R372). Log entry 46. -/
opaque ctrlBytes : CtrlMsg → List (BitVec 8)

/-- The message that a CTRL payload spells. Log entry 46. -/
opaque ctrlMessage : List (BitVec 8) → CtrlMsg

/-- The order of a sum that the spec leaves open: a seed, and how many addends are left; which of them comes next. Log entry 58. -/
opaque sumOrder : Nat → Nat → Nat

/-- The derivative of GELU, SiLU, sigmoid and tanh, by their code, evaluated in FP32. Log entry 58. -/
opaque vecActGrad : Nat → BitVec 32 → BitVec 32

/-- The gradient of an input of a normalisation: variant, epsilon, the inputs, the output gradients with gamma applied, the input's
number. Log entry 58. -/
opaque vecNormGrad : Nat → BitVec 32 → List (BitVec 32) → List (BitVec 32) → Nat → BitVec 32

/-- The length of the boundary-scan register, which the spec does not give (R571). Log entry 40. -/
opaque bsrLen : Nat

end Sys2Proof.Config
end

