-- ==== Sys2Proof/Machine/Factory.lean ====
section
/-!
DEFINITION. The CRC-32 of R208, and what the KC2 leaves the factory with (R566): slot A's image, its marks, and both
copies of the settings record. The spec does not give the image's bytes; log entry 21 names the ones used here.
-/

namespace Sys2Proof.Machine

/-- One step of the reflected CRC-32 register (R208). -/
def crcBit (c : Word) : Word := if c.getLsbD 0 then (c >>> 1) ^^^ 0xEDB88320 else c >>> 1

/-- Take one byte into the register, least significant bit first. -/
def crcByte (c : Word) (b : Byte) : Word :=
  crcBit (crcBit (crcBit (crcBit (crcBit (crcBit (crcBit (crcBit (c ^^^ b.setWidth 32))))))))

/-- The CRC-32 of IEEE 802.3 (R208). -/
def crc32 (b : Bytes) : Word := ~~~ (b.foldl crcByte 0xFFFFFFFF)

/-- The 16-byte head of a settings record (Table 21-4). -/
def recordHead (version seq flags : Nat) : Bytes :=
  leBytes 4 0x5345544B ++ leBytes 2 version ++ leBytes 2 4096 ++ leBytes 4 seq ++ leBytes 1 flags ++ zeroBytes 3

/-- A settings record of factory values with a sequence number (Table 21-4). -/
def factoryRecord (seq : Nat) : Bytes :=
  let b := recordHead 1 seq 0 ++ leBytes 2 0x1FA7 ++ leBytes 2 0xC200 ++ leBytes 4 0x48448484 ++ zeroBytes 4068
  b ++ leBytes 4 (crc32 b).toNat

/-- The header of an image (Table 21-2), its key and signature apart. -/
def imageHead (version rollback len own lo mig : Nat) : Bytes :=
  leBytes 4 0x46574B43 ++ leBytes 2 0x0100 ++ zeroBytes 2 ++ leBytes 4 version ++ leBytes 4 rollback ++ leBytes 4 len
    ++ leBytes 2 own ++ leBytes 2 lo ++ leBytes 2 mig ++ zeroBytes 38

/-- The factory image, as far as the model needs one: version 1.0.0, rollback_ver 0, settings version 1, a header
and nothing after it (log entry 21). -/
def factoryImage : Bytes := imageHead 0x01000000 0 512 1 1 1 ++ zeroBytes 448

/-- The 256 bytes of a mark word (21.3). -/
def markBytes (kind seq version : Nat) : Bytes :=
  leBytes 4 kind ++ leBytes 4 seq ++ leBytes 4 version ++ zeroBytes 244

/-- Consecutive code words of one block: (bank, block, word, data). -/
def codeWords (bank block first : Nat) (b : Bytes) : List (Nat × Nat × Nat × Bytes) :=
  let l := chunksOf 256 (b.length + 1) b
  (List.range l.length).map fun i => (bank, block, first + i, l.getD i [])

/-- The code words that are programmed when the KC2 leaves the factory, by ascending place (R566). -/
def factoryWords : List (Nat × Nat × Nat × Bytes) :=
  codeWords 64 0 0 factoryImage
    ++ [(64, 47, 1008, markBytes 1 1 0x01000000), (64, 47, 1009, markBytes 2 2 0x01000000),
        (64, 47, 1010, markBytes 3 3 0x01000000)]
    ++ codeWords 64 48 0 (factoryRecord 1)
    ++ codeWords 65 48 0 (factoryRecord 1)

end Sys2Proof.Machine
end

