-- ==== Sys2Proof/Machine/State.lean ====
section
/-!
DEFINITION. The state of the KC2 as plain data. Every structure's field defaults are the values the spec states for
reset (or, where a docstring names a log entry, the value the model names); `State.reset` is the record of defaults.
-/

namespace Sys2Proof.Machine

/-! ## What the device sends (outside the block: host memory, MSI-X, LTR, AVSBus, Weft, JTAG) -/

/-- Everything the device emits at its boundary, in the order in which it emits it. -/
inductive Out where
  /-- A posted memory write with the requester ID of a function (R312); `ns` is the No Snoop attribute (R313). -/
  | memWrite (fn addr : Nat) (data : Bytes) (ns : Bool)
  /-- A memory read request under a tag (R321). -/
  | memRead (fn tag addr len : Nat) (ns : Bool)
  /-- An MSI-X message: the vector's address and data (R337). -/
  | msix (fn vec : Nat) (addr : BitVec 64) (data : Word)
  /-- The completions of a BAR read: each with its bytes and EP bit; `ur` for an Unsupported Request (R317, R336). -/
  | barCpl (ur : Bool) (parts : List (Bytes × Bool))
  /-- The completion of a configuration request. -/
  | cfgCpl (status : CfgStatus) (value : Word)
  /-- An LTR message with its Snoop and No-Snoop latency value (R510). -/
  | ltr (value : Word)
  /-- An AVSBus transfer: 0 voltage write, 1 voltage read, 2 status read, 3 current read, with its data (R47, R48). -/
  | avs (kind value : Nat)
  /-- A flit sent on a Weft port (R361). -/
  | flit (port : Nat) (data : Bytes)
  /-- A trace packet sent on the trace port (R586). -/
  | tracePort (packet : Bytes)
  /-- Bits shifted out on TDO, least significant first (R571). -/
  | tdo (len : Nat) (value : Nat)
  deriving DecidableEq, Repr

/-- A place in memory that passed its check: a host bus address with its No Snoop attribute, a device address in
LP5X, or an offset in the tenant's SAC partition. -/
inductive Place where
  | host (addr : Nat) (ns : Bool)
  | lp5x (addr : Nat)
  | sac (off : Nat)
  deriving DecidableEq, Repr

/-! ## Functions: windows, MSI-X, trouble, quotas, counters (chapters 11, 12, 14, 16, 19, 24) -/

/-- A host window of a function (R305, Table 11-5): the committed window and the staged base and limit, in 4 KiB
granules. Reset 0 by P W E S F. -/
structure HWin where
  base : BitVec 52 := 0
  limit : BitVec 52 := 0
  en : Bool := false
  rd : Bool := false
  wr : Bool := false
  ns : Bool := false
  sbase : BitVec 52 := 0
  slimit : BitVec 52 := 0
  deriving DecidableEq, Repr

/-- A device window of a function (R306, Table 11-5), in 4 KiB granules. Reset 0 by P W E S. -/
structure DWin where
  base : BitVec 28 := 0
  limit : BitVec 28 := 0
  en : Bool := false
  rd : Bool := false
  wr : Bool := false
  deriving DecidableEq, Repr

/-- One MSI-X vector: message address and data and the vector mask, which resets to 1 (PCIe Base Specification,
log entry 11). -/
structure MsixVec where
  addr : BitVec 64 := 0
  data : Word := 0
  mask : Bool := true
  deriving DecidableEq, Repr

/-- A function's quota (Table 16-1). `rings` is the count the PF committed; the count the function holds is
`FnSt.ringsHeld` (R451). -/
structure Quota where
  rings : Nat := 32
  tickets : Nat := 64
  ways : Nat := 16
  groups : Nat := 16
  slots : Nat := 16
  weight : Nat := 4
  deriving DecidableEq, Repr

/-- What belongs to one PCIe function. -/
structure FnSt where
  /-- Bus Master Enable of the function's Command register (R335). -/
  bme : Bool := false
  /-- MSI-X Enable and Function Mask (R339). -/
  msixEn : Bool := false
  fnMask : Bool := false
  vecs : Table MsixVec := []
  /-- The pending-bit array (R339). -/
  pba : BitVec 64 := 0
  /-- `FN_EVT_CAUSE`, `FN_EVT_MASK` (Table 12-8): bit 0 trouble, bit 1 link. -/
  evtCause : BitVec 2 := 0
  evtMask : BitVec 2 := 0
  /-- `FN_TRB` (Table 19-2). -/
  trb : BitVec 10 := 0
  /-- AER uncorrectable and correctable error status (Table 12-7). -/
  aerUncorr : Word := 0
  aerCorr : Word := 0
  /-- AER First Error Pointer and header log (R342). -/
  aerFirst : BitVec 5 := 0
  aerHdr : List Word := []
  /-- Device Status: correctable, non-fatal, fatal error and Unsupported Request detected; the error bits of the Status register,
  in place (R322). -/
  devSta : BitVec 4 := 0
  cfgStat : Word := 0
  /-- `FN_CTL.fetch_stop`, `FN_SCRATCH` (Table 24-5). -/
  fetchStop : Bool := false
  scratch : Word := 0
  /-- The latch shadow of R618 and the register whose low dword was the immediately preceding BAR 0 read. -/
  shadow : Word := 0
  shadowFor : Option Nat := none
  hwin : Table HWin := []
  dwin : Table DWin := []
  quota : Quota := {}
  /-- Rings the function holds after R451. -/
  ringsHeld : Nat := 32
  /-- The tolerable wake latency of SET_LATENCY (R417); reset no limit (R491). -/
  tol : Word := 0xFFFFFFFF
  /-- The `STATS` counters, by slot (Table 24-6); slot 0 is clear_stamp, slot 1 (now) is not stored. -/
  stats : Table Nat := []
  /-- The host generation of the function's cache lines (R314). -/
  hostGen : Nat := 0
  /-- The count of ticks of the time base below one microsecond of busy time (slot busy_us). -/
  busyTicks : Nat := 0
  /-- End of the first millisecond of a newly enabled VF, in which it may answer with CRS (R330). -/
  crsUntil : Option (BitVec 64) := none
  /-- An FLR that was started during a reset of class S and waits for its end (R348). -/
  flrWaits : Bool := false
  /-- The requests and messages held while Bus Master Enable is 0, oldest first (R335). -/
  heldOut : List Out := []
  deriving DecidableEq, Repr

/-! ## Rings and commands (chapter 14) -/

/-- Ring states (Table 14-1). -/
inductive RingState where
  | disabled | active | draining | error
  deriving DecidableEq, Repr

/-- A submission entry: its sixteen dwords (Table 14-3). -/
abbrev Entry := List Word

/-- One ring pair (Table 14-6, R383, R385 to R387, R406). -/
structure Ring where
  sqBase : BitVec 52 := 0
  cqBase : BitVec 52 := 0
  sqLog2 : BitVec 5 := 0
  cqLog2 : BitVec 5 := 0
  rt : Bool := false
  failFast : Bool := false
  vector : BitVec 6 := 1
  modCount : BitVec 8 := 1
  modTime : BitVec 16 := 0
  /-- RING_MOD.time_us as it stood when the last completion was written: a new value applies from the next one (14.10). -/
  pendLimit : BitVec 16 := 0
  state : RingState := .disabled
  badDb : Bool := false
  err : BitVec 4 := 0
  /-- Next SQ index to accept, and the host's tail. -/
  sqHead : Nat := 0
  sqTail : Nat := 0
  /-- Next SQ index to fetch: entries from `sqHead` to here are fetched or being fetched. -/
  sqFetch : Nat := 0
  cqHead : Nat := 0
  cqTail : Nat := 0
  /-- The phase the next completion entry carries (R396). -/
  phase : Bool := true
  seq : Word := 0
  /-- Accepted commands whose completion is not yet written (`RING_OUT`). -/
  accepted : Nat := 0
  /-- Entries fetched and not yet accepted, oldest first. -/
  fetched : List Entry := []
  /-- Completions written and not yet announced (R406), and when the oldest of them was written. -/
  pend : Nat := 0
  pendSince : BitVec 64 := 0
  /-- When the doorbell write came that submitted each entry from `sqHead` to the tail (R285). -/
  bells : List (BitVec 64) := []
  /-- The previous deadline-carrying RUN or CHAIN of the ring missed its deadline (R288). -/
  missed : Bool := false
  deriving DecidableEq, Repr

/-- Where a command stands between acceptance and its completion entry. -/
inductive CmdPhase where
  /-- Held behind a FENCE, or by a TENANT_RESET of its function (R401, R444). -/
  | held
  /-- Dispatched; its own step has not run. -/
  | ready
  /-- Its step has run and its work is in progress. -/
  | busy
  /-- Ended; its completion entry is not yet written. -/
  | ended
  deriving DecidableEq, Repr

/-- What a command that carries a deadline needs when its completion is written: the deadline, whether WIDEN is the
cause, the components of R285 in ticks but halt, the lowest incomplete stage when the deadline passed, and the stream
slot. -/
structure MissInfo where
  deadline : BitVec 64
  widen : Bool := false
  /-- Halt time that other chips of a ring job report (R485). -/
  halt : Nat := 0
  pace : Nat := 0
  input : Nat := 0
  contention : Nat := 0
  /-- Missed whatever its end: R164 kept narrow results. -/
  kept : Bool := false
  /-- Dropped when the CP resumed: the moment of the drop passed in a halt (R287). -/
  haltDrop : Bool := false
  stage : Nat := 0
  slot : Option Nat := none
  /-- The capture buffer that stays in use until the completion is written (R353). -/
  cap : Option Nat := none
  deriving DecidableEq, Repr

/-- An accepted command, held by its ticket (R389, R393). -/
structure Cmd where
  fn : Nat
  ring : Nat
  seq : Word
  entry : Entry
  /-- Acceptance time on the time base (R389) and position in acceptance order. -/
  time : BitVec 64
  order : Nat
  phase : CmdPhase
  /-- The function's windows as they stood at acceptance, for the checks made then (R307, Table 11-4). -/
  hwin : Table HWin
  dwin : Table DWin
  status : BitVec 16 := 0
  res0 : Word := 0
  res1 : Word := 0
  /-- When the doorbell write came that submitted the entry, and the halted time until acceptance (R285). -/
  bell : BitVec 64 := 0
  haltBase : Nat := 0
  miss : Option MissInfo := none
  deriving DecidableEq, Repr

/-- What an outstanding non-posted request of the device reads (R265, R388). -/
inductive ReadUse where
  /-- Submission entries of a ring: how many. -/
  | sq (ring count : Nat)
  /-- Lines of a stream: the ticket, the buffer reference, the logical offset of the first byte; the stage that reads, the
  block and its logical start, for the location of a failure (Table 10-4). -/
  | line (ticket buf offset stage block start : Nat)
  deriving DecidableEq, Repr

/-- An outstanding read request (R321, R340). -/
structure ReadReq where
  tag : Nat
  fn : Nat
  addr : Nat
  len : Nat
  use : ReadUse
  /-- Whether it has been sent, and the time base then, for the completion timeout (R335, R340). -/
  sent : Bool := true
  issued : BitVec 64
  /-- The function was disabled or reset: the completion is discarded when it arrives (R331). -/
  orphan : Bool := false
  /-- What completions have brought so far, and the ranges of it that came poisoned: first byte and length. -/
  got : Bytes := []
  bad : List (Nat × Nat) := []
  deriving DecidableEq, Repr

/-! ## The PCIe endpoint (chapter 12) -/

/-- Device-level PCIe state: SR-IOV control, the PF's Device Control fields, the link and its counters. -/
structure Pcie where
  /-- Memory Space Enable of the PF's Command register (R336). -/
  mse : Bool := false
  /-- SR-IOV: NumVFs, VF Enable, VF Memory Space Enable, ARI Capable Hierarchy, System Page Size (R325, R328). -/
  numVfs : BitVec 16 := 0
  vfEnable : Bool := false
  vfMse : Bool := false
  ari : Bool := false
  sysPage : Word := 1
  /-- Base address registers as programmed: BAR 0, 2, 4 and VF BAR 0, 4 (R324, R325). -/
  bar0 : BitVec 64 := 0
  bar2 : BitVec 64 := 0
  bar4 : BitVec 64 := 0
  vfBar0 : BitVec 64 := 0
  vfBar4 : BitVec 64 := 0
  /-- Device Control: Max_Payload_Size, Max_Read_Request_Size encodings, 10-bit Tag Requester Enable (R320, R321). -/
  mps : BitVec 3 := 0
  mrrs : BitVec 3 := 2
  /-- Device Control's other fields: error reporting, relaxed ordering, extended tags, no snoop. -/
  devCtl : Word := 0x910
  /-- Parity Error Response and SERR# Enable of the PF's Command register (R322). -/
  perr : Bool := false
  serr : Bool := false
  /-- AER masks and severity of the PF, which govern every function (R342). -/
  aerUncMask : Word := 0
  aerSev : Word := 0x62010
  aerCorMask : Word := 0x2000
  /-- The other configuration registers of the PF that software may write, by offset (`cfgRwDefs`, R319, R323). -/
  cfgRw : Table Word := []
  tag10 : Bool := false
  /-- Device Control 2: Completion Timeout Value and Disable, LTR Mechanism Enable (R340, R341, R345). -/
  cto : BitVec 4 := 0
  ctoDis : Bool := false
  ltrEn : Bool := false
  /-- Link Control ASPM Control; L1 PM Substates Control 1; Read Completion Boundary bit (R317, R345). -/
  aspm : BitVec 2 := 0
  l1ss : BitVec 4 := 0
  rcb128 : Bool := false
  /-- The PF is in D3hot (R508). -/
  d3hot : Bool := false
  /-- `PCIE_LINK_STAT`, `PCIE_RECOV_CNT`, `PCIE_CPL_TO` (Table 12-8). -/
  speed : BitVec 4 := 0
  width : BitVec 5 := 0
  dlActive : Bool := false
  recovCnt : Word := 0
  cplTo : Word := 0
  /-- Configuration requests are answered with CRS (R346). -/
  crs : Bool := true
  /-- `DEV_EVT_CAUSE`, `DEV_EVT_MASK` (Table 12-8): trouble, therm_warn, wd_warn, peer, ready. -/
  evtCause : BitVec 5 := 0
  evtMask : BitVec 5 := 0
  /-- Subsystem Vendor ID and Subsystem ID in force, as one dword (R322, R565). -/
  subsys : Word := 0xC2001FA7
  deriving DecidableEq, Repr

/-! ## Windows, aperture and LP5X (chapter 11) -/

/-- The registers of a core beside its store (R193): the LUT entries of the present layer run (R130), the sign vector of its
rotor, the weight block in the array (R179), the vector unit's parameters (Table 8-7). All zero is empty. -/
structure CoreRegs where
  lut : List Int := []
  signs : Bytes := []
  block : List Nat := []
  par : Bytes := []
  deriving DecidableEq, Repr

/-- The PF's window selector, the staged device window, the aperture and the LP5X status (Table 11-5). -/
structure Addr where
  selFn : BitVec 6 := 0
  selWin : BitVec 4 := 0
  stBase : BitVec 28 := 0
  stLimit : BitVec 28 := 0
  aptBase : BitVec 12 := 0
  unmapped : Bool := false
  denied : Bool := false
  /-- `LP5X_STAT`: `LP5X_TOP` in MiB, ECC layout in force, trained (P W E). -/
  top : BitVec 16 := 0
  eccOn : Bool := false
  trained : Bool := false
  eccCnt : Word := 0
  uncorrCnt : Word := 0
  /-- LP5X data by device address; an address not listed reads 0 (log entry 8). -/
  lp5x : Table Byte := []
  /-- Poison marks by LP5X line number (R299): a listed line is marked. -/
  poison : Table Bool := []
  /-- Wrong bits in the worst code of LP5X lines with ECC on, by channel * 2^34 + line of the channel (R292, R300). -/
  lpErr : Table Nat := []
  /-- SAC data by way * 2 MiB + byte (R303), poison tags by SAC line. -/
  sac : Table Byte := []
  sacPoison : Table Bool := []
  /-- Core store by core * 1 MiB + byte (R303); the registers of each core. -/
  cores : Table Byte := []
  coreRegs : Table CoreRegs := []
  deriving DecidableEq, Repr

/-! ## Tenants (chapter 16) -/

/-- A SAC way (R457 to R461). -/
structure Way where
  /-- The tenant that holds it. -/
  owner : Option Nat := none
  /-- The binding key (function * 64 + index) it was taken for. -/
  bind : Nat := 0
  scratch : Bool := false
  /-- Held by the tenant though its binding is released (R460). -/
  unused : Bool := false
  deriving DecidableEq, Repr

/-- The device's quota registers (Table 16-1) and its scheduling memory (R463, R464). -/
structure Tenants where
  selFn : BitVec 6 := 0
  /-- Staged QUOTA_A and QUOTA_B; none until the first staging write after a commit or a selection (R449). -/
  stA : Option Word := none
  stB : Option Word := none
  refused : Bool := false
  short : Bool := false
  rtReserve : BitVec 10 := 64
  ways : Table Way := []
  /-- The last real-time ring served, as function * 256 + ring (R463). -/
  lastRt : Nat := 0
  /-- The function whose best-effort turn it is, and the acceptances that it has had in this turn (R464). -/
  beFn : Nat := 0
  beUsed : Nat := 0
  /-- For each function, the ring after the last one served best-effort, as function * 256 + ring (R464). -/
  beRings : Table Nat := []
  /-- Real-time acceptances of the present round: the rings served in it (R463). -/
  rtServed : List Nat := []
  /-- Whether a best-effort entry has been accepted since the last round ended. -/
  beTaken : Bool := false
  deriving DecidableEq, Repr

/-! ## Trouble and the event log (chapter 19) -/

/-- A held event-log entry or a waiting one: stamp, kind, function byte, payload (Table 19-4). -/
structure LogEntry where
  stamp : BitVec 64 := 0
  kind : BitVec 16 := 0
  /-- Byte 14: [5:0] function, [6] dev. -/
  fn : BitVec 8 := 0
  payload : Bytes := []
  deriving DecidableEq, Repr

/-- A trouble bit that follows an entry: a device bit, or a bit of a function (R516). -/
inductive TrbRef where
  | dev (bit : Nat)
  | fn (fn bit : Nat)
  deriving DecidableEq, Repr

/-- The trouble registers and the event log (Tables 19-1, 19-3, 19-6). -/
structure Trouble where
  trb : BitVec 20 := 0
  sel : BitVec 6 := 0
  next : Word := 0
  oldest : Word := 0
  ack : Word := 0
  idx : Word := 0
  /-- Entries by sequence number mod 1,024. -/
  log : Table LogEntry := []
  /-- Firmware entries that wait while the CP is halted, with the bits that follow them (R523). -/
  waiting : List (LogEntry × List TrbRef) := []
  deriving DecidableEq, Repr

/-! ## Pace, droop, thermal, AVSBus (chapter 2) -/

/-- What a governor is doing (R34). -/
inductive GovPhase where
  | steady | hold | ramp
  deriving DecidableEq, Repr

/-- One pace governor (R33, R34): it admits k/8 of the beats. -/
structure Governor where
  k : Nat := 8
  phase : GovPhase := .steady
  deriving DecidableEq, Repr

/-- The PACE block (Tables 2-4 to 2-11) and the state behind it. -/
structure Pace where
  forceLevel : BitVec 8 := 0
  gov : Table Governor := []
  targetUnmet : Bool := false
  /-- BEAT_RATE_Qn as (rate, admitted), by quadrant. -/
  rates : Table (BitVec 16 × BitVec 16) := []
  sensorEn : BitVec 8 := 0xFF
  pinEn : Bool := true
  pinLevel : Bool := true
  fired : BitVec 8 := 0
  pinFired : Bool := false
  /-- Beats withheld since the last reset, by quadrant (R33, R285). -/
  withheld : Table Nat := []
  cntL1 : Word := 0
  cntL2 : Word := 0
  /-- The level that each sensor's local supply calls for, 0 to 2 (R36), before sensor_en. -/
  sensor : Table Nat := []
  tjMax : BitVec 11 := 0
  /-- The thermal demand of R40 is 4/8. -/
  throttle : Bool := false
  warnC : BitVec 8 := 100
  warnIrqEn : Bool := true
  /-- The warning of R41 is armed (it is at the end of every reset). -/
  warnArmed : Bool := true
  targetRate : BitVec 11 := 1100
  manual : Bool := false
  vMin : BitVec 10 := 650
  vMax : BitVec 10 := 850
  setMv : BitVec 10 := 0
  readMv : BitVec 10 := 0
  settled : Bool := false
  busFault : Bool := false
  /-- The regulator did not answer, or reported a fault, in the last window (R48). -/
  failing : Bool := false
  currentA : BitVec 8 := 0
  vset : BitVec 10 := 750
  /-- The voltage against which the droop sensors compare, while a change settles (R47). -/
  droopRef : BitVec 10 := 0
  deriving DecidableEq, Repr

/-! ## Power (chapter 18) -/

/-- The PWR block (Table 18-4) and the state behind it. -/
structure Power where
  maxLevel : Nat := 4
  unboundGate : Bool := true
  level : Nat := 0
  linkL12 : Bool := false
  /-- The link is in ASPM or PCI-PM L1 (R509). -/
  inL1 : Bool := false
  /-- The pin CLKREQ_N: high while the link needs no REFCLK (R652). -/
  clkreqN : Bool := false
  dom : BitVec 14 := 0x17FF
  dwell1 : BitVec 8 := 10
  dwell2 : BitVec 8 := 20
  dwell3 : BitVec 8 := 20
  dwell4 : BitVec 8 := 50
  activeUs : BitVec 10 := 20
  ltrSent : Word := 0xFFFFFFFF
  wake : BitVec 7 := 0
  entryCnt : Table Nat := []
  resMs : Table Nat := []
  /-- Ticks of the time base spent at the present level beyond whole milliseconds. -/
  resTicks : Nat := 0
  /-- Ticks of the time base for which the device has been idle without a break (R496). -/
  idleTicks : Nat := 0
  /-- PD1 alone is out of retention at RL4 (R505). -/
  pd1Alone : Bool := false
  /-- The link has stayed out of L1.2 for 10 ms after a PD1-alone exit: the target is RL3 (R505). -/
  l12Late : Bool := false
  /-- The wear-record checkpoint that precedes RL4 has been made in this idle period (R497). -/
  ckptDone : Bool := false
  deriving DecidableEq, Repr

/-! ## Watchdog (chapter 20) -/

/-- The watchdog (Tables 20-4, 20-5). -/
structure Watchdog where
  /-- WDO ticks left in the present period. -/
  count : Nat := 2048000
  period : BitVec 16 := 2000
  staged : BitVec 16 := 2000
  /-- WDO ticks left of the arming; none when not armed (R536). -/
  armLeft : Option Nat := none
  challenge : Word := 0
  lfsr : Word := 0
  warned : Bool := false
  stopped : Bool := false
  quiesced : Bool := false
  periodRefused : Bool := false
  rate : BitVec 12 := 0
  expiries : BitVec 16 := 0
  /-- The payload of the WD_WARN entry the firmware owes, and the WDO ticks left of its 4,096 (R542). -/
  warnDue : Option Bytes := none
  warnLeft : Option Nat := none
  deriving DecidableEq, Repr

/-! ## Life: supplies, resets, boot, fuses, pins (chapters 20, 21, 25) -/

/-- Where the device stands between resets. -/
inductive Phase where
  /-- Held in POR: supplies not valid or TEST_EN high (R641, R653). -/
  | por
  /-- A reset in force: of class E with PERST_N low or the link down (R343), or of class P with PERST_N low (R654). -/
  | held (c : ResetClass)
  /-- A boot of a class is due or in progress (R552); of class S, the DSR in progress. -/
  | boot (c : ResetClass)
  /-- The firmware has signalled ready. -/
  | running
  /-- The boot ROM serves BAR 0, no firmware runs (R347). -/
  | romOnly
  /-- Quiescent after a PIN-mode watchdog action (R544). -/
  | quiesced
  deriving DecidableEq, Repr

/-- Fused values (no reset changes them; log entry 9 names the values of the reset state). -/
structure Fuses where
  uid : BitVec 64 := 0
  salt : Word := 0
  wdFraction : BitVec 2 := 1
  wdPin : Bool := false
  wdPulse : BitVec 2 := 1
  /-- The anti-rollback counter: fuse bits blown, 0 to 64 (R556). -/
  rollback : Nat := 0
  deriving DecidableEq, Repr

/-- Pins and supplies. -/
structure Pins where
  vddAon : Bool := true
  supplies : Bool := true
  testEn : Bool := false
  perstN : Bool := true
  chipId : BitVec 2 := 0
  droopInN : Bool := true
  thermTripN : Bool := true
  wdtOutN : Bool := true
  /-- When the present or last pulse on WDT_OUT_N began (R543). -/
  wdtFrom : BitVec 64 := 0
  deriving DecidableEq, Repr

/-- Boot state, core marks and the firmware's registers (chapters 19, 21, 24). -/
structure Life where
  phase : Phase := .boot .P
  /-- Cause of the last reset of class E or S. -/
  cause : ResetCause := .perstN
  /-- Time base at the start of the present or last boot. -/
  bootStart : BitVec 64 := 0
  /-- `ID_READY.ready`. -/
  ready : Bool := false
  /-- The thermal trip of R42 holds. -/
  tripped : Bool := false
  /-- Chip ID as sampled (R367). -/
  chipId : BitVec 2 := 0
  /-- WEFT_EPOCH (R368): 0 by class P (Table 13-6), and then 1, since this reset too counts. -/
  epoch : Word := 1
  /-- Cores marked failed (R27), and whether one of them still failed the boot test after S or E (R562). -/
  failed : Table Bool := []
  powerCycle : Bool := false
  /-- Functions whose commands the present reset ended: FN_TRB.lost_work is due (R526). -/
  lostWork : List Nat := []
  /-- VFs that a reset of class E disabled with commands in flight, and how many: their entries are due (R331). -/
  vfEnded : List (Nat × Nat) := []
  /-- The CP has stopped after an uncorrectable fetch (R71). -/
  cpStopped : Bool := false
  /-- The boot ROM has found no runnable slot at this boot (R558). -/
  noFw : Bool := false
  deriving DecidableEq, Repr

/-! ## Debug and trace (chapter 22) -/

/-- The debug access register's result (R572). -/
structure DbgResult where
  done : Bool := false
  se : Bool := false
  denied : Bool := false
  busy : Bool := false
  poisoned : Bool := false
  addr : BitVec 40 := 0
  data : Word := 0
  deriving DecidableEq, Repr

/-- The debug port. -/
structure Debug where
  scope : BitVec 2 := 0
  attached : Bool := false
  halted : Bool := false
  fails : BitVec 4 := 0
  /-- Unlock token words 0 to 39 and restore-buffer words 0 to 63. -/
  token : Table Word := []
  buffer : Table Word := []
  result : DbgResult := {}
  /-- Tickets of the commands that ended during a halt, in the order in which they ended (R580). -/
  haltEnds : List Nat := []
  /-- The boundary-scan register, least significant bit first. -/
  bsr : Nat := 0
  /-- Ticks of the time base spent halted in halts that have ended, and the start of the present one (R285). -/
  haltSum : Nat := 0
  haltStart : BitVec 64 := 0
  deriving DecidableEq, Repr

/-- The TRACE block (Table 22-9), its FIFO, internal buffer and stub. -/
structure Trace where
  en : Bool := false
  sink : BitVec 2 := 0
  stopMode : Bool := false
  deep : Bool := false
  classes : BitVec 8 := 0xFF
  stopped : Bool := false
  refused : Bool := false
  fnLo : Word := 0xFFFFFFFF
  fnHi : Word := 0xFFFFFFFF
  base : BitVec 28 := 0
  size : BitVec 19 := 1
  wptr : Word := 0
  lost : Word := 0
  idx : BitVec 12 := 0
  /-- The internal buffer by packet number. -/
  buf : Table Bytes := []
  fifo : List Bytes := []
  /-- Packets dropped since the last LOST packet (R588). -/
  dropped : Nat := 0
  /-- The always-on stub (R590): its packets and the count of all it was given. -/
  stub : List Bytes := []
  stubCount : Word := 0
  deriving DecidableEq, Repr

/-! ## The weight store (chapters 3 and 4) -/

/-- A stored code word (Table 3-1, R55): the cells of its written flag that are programmed (0 to 8), data, origin, kind,
generation, reserved bytes and parity as they were programmed, and the raw bit errors that a read of it meets. An erased word is
the default. -/
structure NvmWord where
  flag : Nat := 0
  data : Bytes := []
  /-- origin [5:0]: the bank, or the plane; [31]: the code bank. -/
  bank : Nat := 0
  code : Bool := false
  /-- origin [12:6] and [22:13]; [30:23] reserved. -/
  lblock : Nat := 0
  lword : Nat := 0
  originRsv : Nat := 0
  /-- kind [0]; [7:1] reserved. -/
  moved : Bool := false
  kindRsv : Nat := 0
  gen : BitVec 16 := 0
  /-- Bytes 263 to 266. -/
  rsv : Word := 0
  /-- Bytes 267 to 287. -/
  parity : BitVec 168 := 0
  errs : Nat := 0
  deriving DecidableEq, Repr

/-- Bytes 0 to 266 of a code word, which the BCH code covers (Table 3-1). -/
def NvmWord.covered (w : NvmWord) : Bytes :=
  w.data
    ++ leBytes 4 (w.bank + 64 * w.lblock + 8192 * w.lword + 8388608 * w.originRsv + (if w.code then 2147483648 else 0))
    ++ leBytes 1 ((if w.moved then 1 else 0) + 2 * w.kindRsv) ++ leBytes 2 w.gen.toNat ++ leBytes 4 w.rsv.toNat

/-- The word that a program writes into a bank or plane: origin, kind, generation, reserved bytes zero, parity (R54, R84). -/
def NvmWord.made (b l w : Nat) (gen : BitVec 16) (moved : Bool) (data : Bytes) : NvmWord :=
  let x : NvmWord :=
    { flag := 8, data := data, bank := if b < 64 then b else b - 64, code := decide (64 ≤ b), lblock := l, lword := w
      moved := moved, gen := gen }
  { x with parity := Config.bchParity x.covered }

/-- A physical block (R57, R72, R74, R76, R80). -/
structure NvmBlock where
  /-- Row reads since the last erase. -/
  rows : Nat := 0
  erases : BitVec 16 := 1
  due : Bool := false
  /-- Programmed cells of the block-complete flag. -/
  complete : Nat := 0
  /-- Discarded or partly written: it serves as no spare until it is erased (R78, R79). -/
  stale : Bool := false
  deriving DecidableEq, Repr

/-- What starts an operation on a bank or plane (R88). -/
inductive NvmOwner where
  /-- A command, by its ticket. -/
  | cmd (ticket : Nat)
  /-- Automatic relocation (R77), erase of a stale or partly written block (R78, R79), wear checkpoint (R73). -/
  | auto
  | stale
  | wear
  /-- A mark that the firmware programs on a slot: slot and kind (R560, R561). -/
  | mark (slot kind : Nat)
  /-- The debug restore service (R583). -/
  | restore
  /-- A command that has ended without waiting for its operation (R103, R104). -/
  | orphan
  deriving DecidableEq, Repr

/-- A piece of an extent's contents: bytes from an offset of the package, or bytes that the KC2 composed (R223, R226). -/
structure NvmPart where
  len : Nat
  src : Option Nat := none
  lit : Bytes := []
  deriving DecidableEq, Repr

/-- Where the bytes of a program come from (R84, R94). -/
inductive NvmSrc where
  /-- Host memory or LP5X from a place on, and the function that reads. -/
  | mem (from' : Place) (fn : Nat)
  /-- Bytes that the firmware composed, or that a buffer holds. -/
  | bytes (b : Bytes)
  /-- Pieces of a package at a place, read again as they are programmed (R418). -/
  | layout (from' : Place) (fn : Nat) (parts : List NvmPart)
  /-- The next mark of a slot (21.3), into the next word of its mark area. -/
  | mark (slot kind : Nat)
  /-- A checkpoint of the blocks' counts and states, the block map and the install counts, into the next place of the plane's copy
  of the wear record (R73). -/
  | wear (counts : Table NvmBlock) (map : Table Nat) (inst : Table Nat)
  deriving DecidableEq, Repr

/-- One operation on a bank or plane. -/
inductive NvmAct where
  /-- Program `count` words from word `first` of a logical block on; a slot's image runs on into the next blocks. -/
  | program (lblock first count : Nat) (src : NvmSrc)
  /-- Erase a logical block. -/
  | erase (lblock : Nat)
  /-- Erase a physical block that is not mapped. -/
  | erasePhys (phys : Nat)
  /-- Relocate a logical block: copy its words to a spare, complete it, switch the map, erase the old block. -/
  | relocate (lblock : Nat)
  deriving DecidableEq, Repr

/-- A queued or running operation (R100, R101). -/
structure NvmOp where
  bank : Nat
  act : NvmAct
  owner : NvmOwner
  running : Bool := false
  /-- Code words programmed, or erase pulses applied. -/
  done : Nat := 0
  /-- The source bytes of the code word being charged (R94). -/
  staged : Bytes := []
  /-- Relocation: the code word being copied; the spare that is being filled, or, once `erasing`, the block that is
  being erased; whether that erase precedes the copy (R78). -/
  word : Nat := 0
  spare : Nat := 0
  erasing : Bool := false
  before : Bool := false
  /-- End after the code word in progress: the status to end with (R103). -/
  stop : Option (BitVec 16) := none
  deriving DecidableEq, Repr

/-- What the success of a command's operations brings about beside them. -/
inductive NvmGoal where
  | plain
  /-- A settings record comes into force (R565); the defaulted state may end. -/
  | settings (record : Bytes) (ends : Bool)
  /-- A pattern is installed: its placement map (R226). -/
  | install (map : Bytes)
  deriving DecidableEq, Repr

/-- How a command whose operations are queued ends: words programmed or blocks relocated so far, its result words for a
success, and what its success brings about. -/
structure NvmPlan where
  count : Nat := 0
  /-- An operation of the command has ended. -/
  begun : Bool := false
  res0 : Word := 0
  res1 : Word := 0
  goal : NvmGoal := .plain
  deriving DecidableEq, Repr

/-- The weight store: arrays, maps, engines and registers (Tables 3-11, 4-7). Banks 0 to 63 are the weight banks,
64 and 65 planes K0 and K1. -/
structure Nvm where
  /-- Code words by (bank * 128 + physical block) * 1,024 + word; the factory's at first (R566). -/
  words : Table NvmWord := factoryWords.map fun (b, l, w, d) =>
    (1024 * (128 * b + l) + w, NvmWord.made b l w 0 false d)
  /-- Physical blocks by bank * 128 + physical block. -/
  blocks : Table NvmBlock := []
  /-- Block map by bank * 128 + logical block, as physical block + 1; absent means the block of the same number. -/
  map : Table Nat := []
  /-- Generation of each logical block. -/
  gens : Table (BitVec 16) := []
  ops : List NvmOp := []
  plans : Table NvmPlan := []
  opseq : Word := 0
  /-- Banks and planes that charge a code word or a pulse now, and the one that the last grant went to (R101). -/
  charging : List Nat := []
  lastCharge : Nat := 65
  rdLimit : BitVec 24 := 0xC00000
  eccLimit : BitVec 4 := 6
  autoEn : Bool := true
  eccCnt : Word := 0
  uncorrCnt : Word := 0
  wearSel : BitVec 14 := 0
  maxPar : BitVec 5 := 16
  vppOk : Bool := false
  unlocked : Bool := false
  /-- WDO ticks left of an open unlock sequence; none when none is open (R89). -/
  unlockLeft : Option Nat := none
  /-- Reservation by bank: the binding keys that hold it (R105). -/
  resv : Table (List Nat) := []
  /-- WDO ticks left of the settings-commit lock; none when it is not held (R581). -/
  setLock : Option Nat := none
  /-- The rows in a bank's or plane's prefetch buffer, most recently used first (R60). -/
  prefetch : Table (List Nat) := []
  /-- The branch cache: 64-byte lines of the running slot, at most 64, most recently used first; and the line that the CP
  fetched last (R62). -/
  branch : List Nat := []
  lastFetch : Option Nat := none
  /-- Install counts of the directory slots (R222). -/
  instCnt : Table Nat := []
  /-- Read counts, erase counts, due states and install counts as last checkpointed (R73). -/
  ckpt : Table NvmBlock := []
  ckptInst : Table Nat := []
  deriving DecidableEq, Repr

/-! ## Firmware and settings (chapter 21) -/

/-- The FW block (Table 21-8) and the firmware's own state. -/
structure Fw where
  running : Nat := 0
  trial : Bool := false
  defaulted : Bool := false
  restarted : Bool := false
  version : Word := 0
  /-- set_own, set_lo, mig_lo and rollback_ver of the running image (Table 21-2). -/
  setOwn : Nat := 0
  setLo : Nat := 0
  migLo : Nat := 0
  rollVer : Nat := 0
  /-- The settings record in force, 4,096 bytes once the firmware has read it. -/
  record : Bytes := []
  found : BitVec 16 := 0
  /-- wheel_map in force (R255). -/
  wheelMap : Word := 0x48448484
  bootMs : BitVec 16 := 0
  bootClass : BitVec 2 := 0
  /-- Marks that wait for VPP_NVM, oldest first, as (slot, kind); and whether the counter rises once the CONFIRM mark is
  programmed (R560). -/
  marksDue : List (Nat × Nat) := []
  rollDue : Bool := false
  /-- Fallback reason held in the always-on island across the restart of R568: slot, settings version, version. -/
  fallback : Option (Nat × Nat × Nat) := none
  deriving DecidableEq, Repr

/-! ## Camera inputs and stream slots (chapter 13) -/

/-- A CSI-2 receiver: control, status and error counters (Table 13-6). -/
structure Csi where
  en : Bool := false
  lanes : BitVec 2 := 2
  hsClock : Bool := false
  ecc1 : BitVec 16 := 0
  ecc2 : BitVec 16 := 0
  crc : BitVec 16 := 0
  len : BitVec 16 := 0
  sync : BitVec 16 := 0
  unbound : BitVec 16 := 0
  phy : BitVec 16 := 0
  deriving DecidableEq, Repr

/-- State of a capture buffer (R353). -/
inductive CapState where
  | free | unconsumed | inUse
  deriving DecidableEq, Repr

/-- One capture buffer of a slot: its state and the frame it holds. -/
structure CapBuf where
  state : CapState := .free
  stamp : BitVec 64 := 0
  frameNo : BitVec 16 := 0
  short : Bool := false
  poisoned : Bool := false
  /-- Order of its Frame End among the slot's frames. -/
  order : Nat := 0
  deriving DecidableEq, Repr

/-- An open camera frame of a slot (R353, R355). -/
structure OpenFrame where
  buf : Nat := 0
  /-- The device address of the buffer, as the check at Frame Start gave it. -/
  base : Nat := 0
  line : Nat := 0
  /-- The frame is discarded: nothing of it is stored. -/
  discard : Bool := false
  stamp : BitVec 64 := 0
  frameNo : BitVec 16 := 0
  short : Bool := false
  poisoned : Bool := false
  last : BitVec 64 := 0
  deriving DecidableEq, Repr

/-- A stream slot (Table 13-3, R284, R288, R353). -/
structure Slot where
  isOpen : Bool := false
  closing : Bool := false
  csi : Bool := false
  fn : Nat := 0
  bind : Nat := 0
  receiver : Nat := 0
  vc : Nat := 0
  dtype : Nat := 0
  width : Nat := 0
  height : Nat := 0
  /-- Capture ring: device window and offset of its first buffer, and the buffer count. -/
  win : Nat := 0
  off : Nat := 0
  nbuf : Nat := 0
  abort : Bool := false
  lateDrop : Bool := false
  hold : Bool := false
  holdWin : Nat := 0
  holdOff : Nat := 0
  holdLen : Nat := 0
  /-- The hold buffer holds a frame (R284): for each output buffer of it, how many bytes. -/
  holdFull : Bool := false
  holdExt : List (Nat × Nat) := []
  budget : Nat := 0
  bufs : Table CapBuf := []
  nextBuf : Nat := 0
  ends : Nat := 0
  frame : Option OpenFrame := none
  overrun : BitVec 16 := 0
  overruns : Word := 0
  /-- The previous frame of the slot missed its deadline (R288). -/
  missed : Bool := false
  /-- The ticket of the STREAM_CLOSE that waits for the slot to become free. -/
  closer : Option Nat := none
  deriving DecidableEq, Repr

/-! ## Weft (chapter 13) -/

/-- One Weft port (R361 to R365). -/
structure Port where
  up : Bool := false
  /-- Held down for a configuration error (R369). -/
  heldDown : Bool := false
  /-- The sequence number of the oldest unacknowledged flit, or of the next one to send. -/
  txSeq : BitVec 12 := 0
  /-- Sequenced flits sent and not acknowledged, oldest first: header and payload, the sequence number left 0. -/
  unacked : List Bytes := []
  /-- How many of them have been sent since the last resend began. -/
  cur : Nat := 0
  /-- Sequenced flits that wait for credit or for room in the window. -/
  waiting : List Bytes := []
  rxSeq : BitVec 12 := 0
  nakSent : Bool := false
  credits : Nat := 512
  /-- Flits accepted since the last ACK. -/
  unackedRx : Nat := 0
  /-- Flits received in order and not yet drained, oldest first: they wait to be forwarded (R364, R370). -/
  rxBuf : List Bytes := []
  /-- Resends in a row without progress. -/
  resends : Nat := 0
  lastGood : BitVec 64 := 0
  /-- When an ACK last advanced, or the window began to fill; when the oldest flit that no ACK covers was accepted. -/
  lastAck : BitVec 64 := 0
  rxSince : BitVec 64 := 0
  /-- The chip ID of the neighbour, once a HELLO has come. -/
  neighbour : Option Nat := none
  errCrc : BitVec 16 := 0
  errResend : BitVec 16 := 0
  deriving DecidableEq, Repr

/-- What is known of a peer chip (R369, R371). -/
structure Peer where
  live : Bool := false
  epoch : Word := 0
  /-- A HELLO of its own has come since it became live: the epoch is known. -/
  known : Bool := false
  last : BitVec 64 := 0
  /-- Ports through which it was named. -/
  ports : BitVec 2 := 0
  deriving DecidableEq, Repr

/-- An open transfer channel: the chip that sends, the frame by its lead's key, the buffer and the range still to come, and
whether it brings a frame's outputs to its lead. -/
structure Chan where
  peer : Nat
  num : Nat
  key : Nat
  buf : Nat
  off : Nat
  left : Nat
  up : Bool
  deriving DecidableEq, Repr

/-- The Weft block. -/
structure Weft where
  portEn : BitVec 2 := 3
  serve : Bool := false
  configErr : Bool := false
  ports : Table Port := []
  peers : Table Peer := []
  /-- Channels on which lines arrive. -/
  chans : List Chan := []
  /-- The transfer channel opened last. -/
  chanNum : Nat := 0
  deriving DecidableEq, Repr

/-! ## Bindings (chapters 15 and 16) -/

/-- The states of a ready token (Table 10-1). -/
inductive Token where
  | free | filling | ready | reading
  deriving DecidableEq, Repr

/-- A binding of a function, by index (R413, R420, R455). -/
structure Binding where
  live : Bool := false
  /-- Count of binds into this index (R413). -/
  count : Nat := 0
  pattern : Word := 0
  cores : List Nat := []
  /-- Core groups it counts as: the pattern's stage count (R455). -/
  groups : Nat := 0
  /-- Hand-over base and slot size in 4 KiB units (R420). -/
  hoBase : Nat := 0
  hoSize : Nat := 0
  chips : Nat := 1
  /-- Chip IDs of a ring job's participants, the lead first (R373), and of every chip that still holds the job. -/
  parts : List Nat := []
  holders : List Nat := []
  /-- The ticket of the release, or of the TENANT_RESET, that waits for its commands (R422). -/
  releaser : Option Nat := none
  releasing : Bool := false
  /-- Attached adapter region: device address and length (R601). -/
  adapter : Option (Nat × Nat) := none
  /-- Served for a lead chip: the lead's chip ID, and the lead's binding handle (R372). -/
  lead : Option Nat := none
  leadHandle : Word := 0
  /-- Commands that have started: the next one takes hand-over slot `turn` mod 2 (R259). -/
  turn : Nat := 0
  /-- Ready tokens by hand-over * 2 + slot (R260). -/
  tokens : Table Token := []
  /-- The slot of the hand-over after a stage that the last command ending at that stage filled (R424). -/
  filled : Table Nat := []
  /-- Frames of a ring job assigned so far (R374). -/
  frames : Nat := 0
  /-- No bucket fits the chips that remain: every later command ends with PEER_LOST (R376). -/
  dead : Bool := false
  /-- The participants' answers that a PATTERN_BIND of a ring job still waits for, and its ticket (R372). -/
  awaits : List Nat := []
  binder : Option Nat := none
  /-- Scratch and cache ways asked for, and the hand-over fields, as sent to participants. -/
  dw2 : Word := 0
  dw3 : Word := 0
  deriving DecidableEq, Repr

/-! ## Work in progress (chapters 7 to 10) -/

/-- A block of a block list, as its descriptor gives it (Table 9-1). -/
structure Block where
  base : Nat := 0
  rowBytes : Nat := 0
  rows : Nat := 0
  pitch : Nat := 0
  space : Nat := 0
  win : Nat := 0
  malformed : Bool := false
  deriving DecidableEq, Repr

/-- A buffer of a command: its block list, at most two fetched bursts of it, the latest first, and the logical starts of
the bursts that are known (R233, R236, R237). A buffer given whole has no list. -/
structure Buf where
  list : Option Place := none
  count : Nat := 1
  bursts : List (Nat × List Block) := []
  starts : List Nat := [0]
  deriving DecidableEq, Repr

/-- One line that a command moves in: bytes of one row within one 64-byte line of a buffer's logical space. It serves a
core once a read slot has moved it and its data has come (R253, R266). -/
structure Line where
  len : Nat := 0
  slot : Bool := false
  data : Option Bytes := none
  poison : Bool := false
  /-- A core has consumed it; a stream has fetched it from memory (R257). The block that it belongs to (R238). -/
  used : Bool := false
  fetched : Bool := false
  blk : Nat := 0
  /-- When its data came (R285); whether it came from host memory (R314), and from where in memory (R314, R315). -/
  came : BitVec 64 := 0
  host : Bool := false
  src : Option Place := none
  deriving DecidableEq, Repr

/-- Bytes that a command has yet to write to a buffer: buffer, logical offset, data, poison, stage. Buffer 256 is the hold
buffer (R284), 257 the adapter region (R604). -/
structure OutLine where
  buf : Nat
  off : Nat
  data : Bytes
  poison : Bool
  stage : Nat := 0
  /-- Positions beyond the actual length under BUCKET: not written to host memory or LP5X (R196). -/
  beyond : Bool := false
  deriving DecidableEq, Repr

/-- What a column of a core group is doing (R245, R246). -/
inductive ColPhase where
  | idle | load | compute | done
  deriving DecidableEq, Repr

/-- A column of a core group in a layer run: its next or present tile, whether it holds outputs to drain, whether its
first load phase has ended, when the present load phase began. -/
structure ColSt where
  tile : Nat := 0
  phase : ColPhase := .idle
  held : Bool := false
  loaded : Bool := false
  since : BitVec 64 := 0
  /-- The present tile's weight image as the home banks gave it (R247); its blocks that came from poisoned lines (R269). -/
  image : Bytes := []
  badW : List Nat := []
  /-- The successor's first weight tile and its poisoned blocks, once the home banks have read it (R250). -/
  next : Option Bytes := none
  nextBad : List Nat := []
  /-- The SAC-level tile of a mode-N layer that has been staged last (R187). -/
  staged : Option Nat := none
  deriving DecidableEq, Repr

/-- A core in a layer run: its saturation counters (R150), the poisoned input positions of its tile, its saturated
accumulators (R132), the poisoned outputs it holds. -/
structure CoreSt where
  actClip : Nat := 0
  outClip : Nat := 0
  badIn : List Nat := []
  sat : List Nat := []
  badOut : List Nat := []
  deriving DecidableEq, Repr

/-- Where a stage stands (R261): it waits before a layer, a layer may start, a layer runs, or it has ended. -/
inductive StagePhase where
  | gate | open | running | done
  deriving DecidableEq, Repr

/-- A stage of a running command. -/
structure StageSt where
  phase : StagePhase := .gate
  layer : Nat := 0
  /-- The weight half of the present layer (R173). -/
  half : Nat := 0
  rerun : Bool := false
  /-- The layer's record, nest record and tables as LAYER_START read them, and whether a word of them was
  uncorrectable. -/
  record : Bytes := []
  nest : Bytes := []
  tab : Bytes := []
  tabBad : Bool := false
  /-- Columns by number; cores by row * 8 + column. -/
  cols : Table ColSt := []
  cores : Table CoreSt := []
  /-- Whether the layer run's first tile has been granted, and the withheld beats of the quadrants at the stage's start. -/
  granted : Bool := false
  withheld : List Nat := []
  /-- Since when the stage waits for a token or its turn, and the halted time then (R285). -/
  waits : Option (BitVec 64) := none
  waitHalt : Nat := 0
  /-- The failing and poisoned lines that the layer run has met, and those of them that LAYER_START read (R166). -/
  inCount : Nat := 0
  baseIn : Nat := 0
  /-- Poisoned lines of the SAC that the layer run has counted (R264); list entries that lie beyond the source and have been
  counted (R203). -/
  seen : List Nat := []
  overIdx : List Nat := []
  /-- The admitted beats of the narrow run, from its first tile load to its drain (R163). -/
  beats : Nat := 0
  deriving DecidableEq, Repr

/-- Where a failing line lies (Table 10-4). -/
structure FailLoc where
  block : Nat
  buf : Nat
  stage : Nat
  write : Bool
  line : Nat
  deriving DecidableEq, Repr

/-- How a command that does not run to its end ends: status, whether its result words locate a failing line, whether it
is a drop (R275, R279, R283). -/
structure Stop where
  status : BitVec 16
  located : Bool := false
  drop : Bool := false
  deriving DecidableEq, Repr

/-- Kinds of running command. -/
inductive RunKind where
  | pattern | copy
  deriving DecidableEq, Repr

/-- A TRAIN step's parameters (R426, R600). -/
structure Train where
  deterministic : Bool
  noUpdate : Bool
  accumulate : Bool
  lr : Word
  deriving DecidableEq, Repr

/-- One tensor of an attachment entry: the entry's number and address, 0 for A and 1 for B, and its elements. -/
structure Tensor where
  entry : Nat
  at' : Nat
  which : Nat
  n : Nat
  deriving DecidableEq, Repr

/-- The update phase of a TRAIN step: the tensors that are not updated yet, the first of them in progress, and how many have been
updated (R610, R614). -/
structure UpdPhase where
  left : List Tensor := []
  count : Nat := 0
  deriving DecidableEq, Repr

/-- What a participant reports of a frame that it has run: status, kept narrow results, the words of its first failing line,
poisoned lines in and out, halt (R164, R274, R485). -/
structure Report where
  status : BitVec 16
  kept : Bool
  w0 : Word
  w1 : Word
  inBad : Nat
  outBad : Nat
  halt : Nat
  deriving DecidableEq, Repr

/-- A running command: RUN, CHAIN, STREAM_FRAME, ADAPT_STEP, COPY, or a frame served for a lead chip. -/
structure Run where
  kind : RunKind := .pattern
  fn : Nat := 0
  bind : Nat := 0
  order : Nat := 0
  rt : Bool := false
  first : Nat := 0
  last : Nat := 0
  abort : Bool := false
  light : Bool := false
  /-- Actual lengths of the dynamic dimensions, 0 for none. -/
  lens : List Nat := []
  /-- The piece that each stage runs, by stage. -/
  pieces : List Nat := []
  bufs : Table Buf := []
  /-- Poison-map buffer, once its check has passed, and its length (R273, Table 11-4). -/
  map : Option (Place × Nat) := none
  deadline : Option (BitVec 64) := none
  lateDrop : Bool := false
  slot : Option Nat := none
  /-- Where the capture record goes, and the capture buffer taken (R358, R359). -/
  capRec : Option Place := none
  cap : Option Nat := none
  waitCap : Bool := false
  /-- Hand-over slots: the command's own, and the one its first stage reads (R259, R424); the slots that it holds, by
  hand-over * 2 + slot (R275). -/
  par : Nat := 0
  inPar : Nat := 0
  holds : List Nat := []
  /-- Entries of its buffer table (R411). -/
  nbuf : Nat := 0
  stages : Table StageSt := []
  /-- Lines by buffer * 2^48 + logical offset of their first byte. -/
  lines : Table Line := []
  /-- Bytes that the command has written, by the same key, and the poisoned 64-byte lines among them with the layer runs that
  poisoned them. -/
  wrote : Table Byte := []
  wroteBad : Table (List Nat) := []
  writes : List OutLine := []
  /-- Its outputs that are in LP5X already: the first byte's key, the length and the address (R315). -/
  issued : List (Nat × Nat × Nat) := []
  /-- Blocks checked, by buffer * 2^14 + block * 2 + write: where the block lies, or none where its check failed
  (R238). -/
  checked : Table (Option Place) := []
  /-- Poisoned output lines by buffer * 2^42 + line (R273), each with the layer runs that poisoned it, as
  stage * 65536 + layer (R166). -/
  outBad : Table (List Nat) := []
  inPoison : Nat := 0
  fail : Option FailLoc := none
  stop : Option Stop := none
  drift : Bool := false
  /-- The layer runs, as stage * 65536 + layer, of which a widened re-run's results stand (R608). -/
  wideRuns : List Nat := []
  /-- A re-run has ended (R159); one has started (R165). -/
  widened : Bool := false
  reran : Bool := false
  /-- A poisoned weight, table or region line has been met (R269, R599). -/
  weightBad : Bool := false
  /-- R164 has kept narrow results. -/
  kept : Bool := false
  /-- The components of R285 in ticks (`halt`: what another chip reported), and until when waits have been counted. -/
  halt : Nat := 0
  pace : Nat := 0
  input : Nat := 0
  contention : Nat := 0
  waited : BitVec 64 := 0
  missStage : Option Nat := none
  haltDrop : Bool := false
  noRepeat : Bool := false
  /-- The chip that runs a ring job's frame has been told to stop it (R484). -/
  told : Bool := false
  /-- The hold copy or the repeat has been queued (R284); the hold buffer's device address for it. -/
  copied : Bool := false
  holdAt : Nat := 0
  /-- Applied adapter region: device address and length (R599); the update phase of a TRAIN step (R610). -/
  adapter : Option (Nat × Nat) := none
  updating : Option UpdPhase := none
  train : Option Train := none
  /-- COPY: bytes requested and bytes written. -/
  asked : Nat := 0
  pos : Nat := 0
  /-- A ring job's frame that runs on another chip: the input ranges that the chip has asked for, as buffer, offset and length,
  and the outputs that it has sent back, in this chip's SAC until it reports (R276, R374). -/
  asks : List (Nat × Nat × Nat) := []
  upLines : List OutLine := []
  /-- The chip that runs a ring job's frame (R374); a frame served for another chip and its key there. -/
  chip : Option Nat := none
  lead : Option (Nat × Nat) := none
  report : Option Report := none
  deriving DecidableEq, Repr

/-- A line that a tenant's cache ways hold: the tenant, whether it comes from host memory, the address of its first byte, its
bytes, its poison tag, and the host generation it was fetched in (R314, R457). -/
structure CacheLine where
  fn : Nat
  host : Bool
  addr : Nat
  data : Bytes
  poison : Bool
  gen : Nat
  deriving DecidableEq, Repr

/-- Cores, sequencers and stream engines at work. -/
structure Compute where
  /-- Running commands by ticket; frames served for lead chips from 768 on. -/
  runs : Table Run := []
  /-- The wheel position of each stream engine (R253). -/
  wheel : Table Nat := []
  /-- The engine whose read slot the light path takes next (R241). -/
  lightTurn : Nat := 0
  /-- The function whose best-effort turn it is at each engine, and the lines that it has had in this turn (R465). -/
  beTurns : Table (Nat × Nat) := []
  /-- SAC hits not yet counted in units of 1,024 (Table 24-7). -/
  sacHits : Nat := 0
  /-- What the cache ways hold, by SAC line: way * 32,768 + line within the way (R302, R304, R457). -/
  cache : Table CacheLine := []
  deriving DecidableEq, Repr

/-! ## The device -/

/-- The state of the KC2. -/
structure State where
  /-- The commands that are waiting, first in, first out (the model's own field). -/
  pending : List Instr := []
  /-- Everything the device has emitted, oldest first (the model's own field). -/
  out : List Out := []
  /-- A read of host memory that a step needs cannot be issued now, so that the step does not take place (R321, R335, R341; the
  model's own field, set within a step only). -/
  blocked : Bool := false
  /-- A counter that the model reads and advances where the spec leaves a value open (the model's own field). -/
  fresh : Nat := 0
  /-- The always-on time base, 38.4 MHz. -/
  time : BitVec 64 := 0
  pins : Pins := {}
  fuses : Fuses := {}
  life : Life := {}
  pcie : Pcie := {}
  /-- Functions by number. -/
  fns : Table FnSt := []
  addr : Addr := {}
  tenants : Tenants := {}
  trouble : Trouble := {}
  /-- Rings by function * 256 + ring. -/
  rings : Table Ring := []
  /-- Accepted commands by ticket. -/
  cmds : List (Nat × Cmd) := []
  /-- Acceptance order of the next command (R389). -/
  order : Nat := 0
  reads : List ReadReq := []
  /-- Bindings by function * 64 + index. -/
  binds : Table Binding := []
  /-- The VF that owns a directory slot's pattern; a slot not listed belongs to the PF (R229). -/
  owners : Table Nat := []
  pace : Pace := {}
  power : Power := {}
  wd : Watchdog := {}
  dbg : Debug := {}
  trace : Trace := {}
  nvm : Nvm := {}
  fw : Fw := {}
  /-- CSI-2 receivers 0 and 1; stream slots 0 to 15. -/
  csi : Table Csi := []
  slots : Table Slot := []
  weft : Weft := {}
  comp : Compute := {}
  /-- PERF counters by slot (Table 24-7). -/
  perf : Table Nat := []
  deriving DecidableEq, Repr

/-- Faults: the KC2's rules give every command an effect, so no meaning of this model faults. -/
inductive Fault where
  /-- Raised by no meaning; a closed type needs one name. Safe: nothing reaches it. -/
  | unreachable
  deriving DecidableEq, Repr

/-- Refusals. -/
inductive Refusal where
  /-- The command has no meaning in the model. Safe: no claim covers it. -/
  | notModelled (mnemonic : String)
  deriving DecidableEq, Repr

/-- The machine right after a power-on reset, with supplies valid and PERST_N high: the boot of class P is due
(R654). -/
def State.reset : State := {}

end Sys2Proof.Machine
end

