-- ==== Sys2Proof/Machine/Ops.lean ====
section
/-!
DEFINITION. The named operations that every family of commands shares: lookup and update of functions, rings and
commands, sending on PCIe (R312, R335, R339), events and trouble (R338, R514 to R524), trace packets (R584 to R590),
windows (R305 to R308), host and LP5X accesses (R299 to R301), counters (R628 to R631) and the end of a command.
-/

namespace Sys2Proof.Machine

/-- The state that answers a command: a next state. -/
abbrev ok (s : State) : Host.Outcome State Fault Refusal := .next s

/-! ## Lookup and update -/

/-- A function's state. -/
def State.fnSt (s : State) (f : Nat) : FnSt := Table.get {} s.fns f

/-- Change a function's state. -/
def State.updFn (s : State) (f : Nat) (g : FnSt → FnSt) : State := { s with fns := Table.upd {} s.fns f g }

/-- Key of a ring: function * 256 + ring. -/
def ringKey (f r : Nat) : Nat := f * 256 + r

/-- A ring's state. -/
def State.ring (s : State) (f r : Nat) : Ring := Table.get {} s.rings (ringKey f r)

/-- Change a ring. -/
def State.updRing (s : State) (f r : Nat) (g : Ring → Ring) : State :=
  { s with rings := Table.upd {} s.rings (ringKey f r) g }

/-- The command that holds a ticket. -/
def State.cmd? (s : State) (t : Nat) : Option Cmd := Table.find s.cmds t

/-- Change the command that holds a ticket, if one does. -/
def State.updCmd (s : State) (t : Nat) (g : Cmd → Cmd) : State :=
  match Table.find s.cmds t with
  | none => s
  | some c => { s with cmds := Table.insert s.cmds t (g c) }

/-- A binding by its key. -/
def State.bind (s : State) (k : Nat) : Binding := Table.get {} s.binds k

/-- Change a binding. -/
def State.updBind (s : State) (k : Nat) (g : Binding → Binding) : State :=
  { s with binds := Table.upd {} s.binds k g }

/-- A stream slot. -/
def State.slot (s : State) (i : Nat) : Slot := Table.get {} s.slots i

/-- Change a stream slot. -/
def State.updSlot (s : State) (i : Nat) (g : Slot → Slot) : State := { s with slots := Table.upd {} s.slots i g }

/-- The functions that exist: the PF, and VFs 1 to NumVFs while VF Enable is 1 (R330, R447). -/
def State.fnExists (s : State) (f : Nat) : Bool :=
  f == 0 || (s.pcie.vfEnable && decide (f ≤ s.pcie.numVfs.toNat))

/-- The functions that exist, in ascending order. -/
def State.fnList (s : State) : List Nat := (List.range 64).filter s.fnExists

/-! ## Entries -/

/-- Dword `i` of a submission entry (Table 14-3). -/
def Entry.dw (e : Entry) (i : Nat) : Word := e.getD i 0
/-- The opcode. -/
def Entry.opcode (e : Entry) : Nat := bitsOf (Entry.dw e 0) 7 0
/-- FENCE. -/
def Entry.fence (e : Entry) : Bool := bitOf (Entry.dw e 0) 8
/-- ORDERED. -/
def Entry.ordered (e : Entry) : Bool := bitOf (Entry.dw e 0) 9
/-- LIGHT. -/
def Entry.light (e : Entry) : Bool := bitOf (Entry.dw e 0) 10
/-- NOTIFY. -/
def Entry.notify (e : Entry) : Bool := bitOf (Entry.dw e 0) 11
/-- Bits [15:12] of dword 0, reserved. -/
def Entry.rsv (e : Entry) : Nat := bitsOf (Entry.dw e 0) 15 12
/-- host_tag. -/
def Entry.tag (e : Entry) : Nat := bitsOf (Entry.dw e 0) 31 16
/-- The handle, dword 1. -/
def Entry.handle (e : Entry) : Word := Entry.dw e 1

/-- Every dword of `l` is zero in the entry (R415). -/
def Entry.zeros (e : Entry) (l : List Nat) : Bool := l.all fun i => Entry.dw e i == 0

/-! ## Status codes (Table 14-5, Table 4-6) -/

namespace St
def ok : BitVec 16 := 0x0000
def bankBusy : BitVec 16 := 0x0201
def noTicket : BitVec 16 := 0x0202
def noResource : BitVec 16 := 0x0203
def badOpcode : BitVec 16 := 0x0301
def badParam : BitVec 16 := 0x0302
def windowFault : BitVec 16 := 0x0303
def hostAbort : BitVec 16 := 0x0304
def cancelled : BitVec 16 := 0x0305
def doubleProgram : BitVec 16 := 0x0401
def vppLow : BitVec 16 := 0x0402
def eraseFail : BitVec 16 := 0x0403
def bankReserved : BitVec 16 := 0x0404
def nvmLocked : BitVec 16 := 0x0405
def nvmUncorrectable : BitVec 16 := 0x0406
def patternDamaged : BitVec 16 := 0x0407
def abortedByReset : BitVec 16 := 0x0501
def coreFault : BitVec 16 := 0x0502
def peerLost : BitVec 16 := 0x0503
end St

/-! ## Who runs -/

/-- The firmware executes: it has signalled ready, no debugger holds the CP and no fetch has stopped it (R71, R580,
R544). -/
def State.fwRuns (s : State) : Bool :=
  decide (s.life.phase = .running) && !s.dbg.halted && !s.life.cpStopped

/-- The fabric runs: no trip holds and the device is not quiescent (R33, R42, R544). -/
def State.fabricRuns (s : State) : Bool := decide (s.life.phase = .running) && !s.life.tripped

/-! ## Sending on PCIe -/

/-- Emit something at the boundary. -/
def State.emit (s : State) (o : Out) : State := { s with out := s.out ++ [o] }

/-- A memory request or message of a function may leave now: its Bus Master Enable is 1 and the PF is in D0 (R335,
R508). -/
def State.canSend (s : State) (f : Nat) : Bool := (s.fnSt f).bme && !s.pcie.d3hot

/-- The KC2 leaves L1, and L1.2, when it has a TLP to send (R509); the link needs REFCLK again (R652). -/
def State.leaveL1 (s : State) : State :=
  if s.power.inL1 then { s with power := { s.power with inL1 := false, linkL12 := false, clkreqN := false } } else s

/-- Issue a memory request or message with a function's requester ID: at once, or held while the function may not
send (R335). None is issued before the firmware is ready or in the quiescent state (R553, R544). -/
def State.busSend (s : State) (f : Nat) (o : Out) : State :=
  if s.life.phase = .running then
    if s.canSend f then s.leaveL1.emit o else s.updFn f fun x => { x with heldOut := x.heldOut ++ [o] }
  else s

/-- Send an MSI-X message of a function's vector, or set its PBA bit while it is masked (R339). At RL4 it brings PD1
alone out of retention (R505). -/
def State.sendMsi (s : State) (f vec : Nat) : State :=
  let x := s.fnSt f
  if !x.msixEn then s
  else
    let v := Table.get {} x.vecs vec
    if x.fnMask || v.mask then s.updFn f fun y => { y with pba := y.pba ||| (1 <<< vec) }
    else
      let s := if s.power.level = 4 then { s with power := { s.power with pd1Alone := true } } else s
      s.busSend f (.msix f vec v.addr v.data)

/-- Set a bit of `FN_EVT_CAUSE`; a change from 0 to 1 with the mask bit 0 sends vector 0 (R338). -/
def State.raiseFnEvt (s : State) (f bit : Nat) : State :=
  let x := s.fnSt f
  if bitOf x.evtCause bit then s
  else
    let s := s.updFn f fun y => { y with evtCause := y.evtCause ||| (1 <<< bit) }
    if bitOf x.evtMask bit then s else s.sendMsi f 0

/-- Set a bit of `DEV_EVT_CAUSE`; a change from 0 to 1 with the mask bit 0 sends the PF's vector 1 (R338). -/
def State.raiseDevEvt (s : State) (bit : Nat) : State :=
  if bitOf s.pcie.evtCause bit then s
  else
    let m := bitOf s.pcie.evtMask bit
    let s := { s with pcie := { s.pcie with evtCause := s.pcie.evtCause ||| (1 <<< bit) } }
    if m then s else s.sendMsi 0 1

/-! ## Trouble and the event log -/

/-- Bits of `TRB` (Table 19-1). -/
inductive Trb where
  | needsPowerCycle | thermTrip | avsFault | nvmUncorr | codeUncorr | scrubDue | vppLow | doubleProgram
  | eraseFail | patternDamaged | dramConfig | dramUncorr | weftConfig | coreFault | logLost | fwFallback
  | settingsDefaulted | wdWarn | wdQuiesced | fwNotReady
  deriving DecidableEq, Repr

/-- The bit number of a `TRB` field. -/
def Trb.bit : Trb → Nat
  | .needsPowerCycle => 0 | .thermTrip => 1 | .avsFault => 2 | .nvmUncorr => 3 | .codeUncorr => 4
  | .scrubDue => 5 | .vppLow => 6 | .doubleProgram => 7 | .eraseFail => 8 | .patternDamaged => 9
  | .dramConfig => 10 | .dramUncorr => 11 | .weftConfig => 12 | .coreFault => 13 | .logLost => 14
  | .fwFallback => 15 | .settingsDefaulted => 16 | .wdWarn => 17 | .wdQuiesced => 18 | .fwNotReady => 19

/-- Bits of `FN_TRB` (Table 19-2). -/
inductive FnTrb where
  | streamFault | ringFault | deadlineMiss | drift | coreFault | peerLost | lostWork | gatherOverflow
  | captureOverrun | badDoorbell
  deriving DecidableEq, Repr

/-- The bit number of an `FN_TRB` field. -/
def FnTrb.bit : FnTrb → Nat
  | .streamFault => 0 | .ringFault => 1 | .deadlineMiss => 2 | .drift => 3 | .coreFault => 4 | .peerLost => 5
  | .lostWork => 6 | .gatherOverflow => 7 | .captureOverrun => 8 | .badDoorbell => 9

/-- Set a bit of `TRB`; a change from 0 to 1 raises the device event trouble (R513, R338, R349). -/
def State.setTrb (s : State) (b : Trb) : State :=
  if bitOf s.trouble.trb b.bit then s
  else
    { s with trouble := { s.trouble with trb := s.trouble.trb ||| (1 <<< b.bit) } }.raiseDevEvt 0

/-- Set a bit of a function's `FN_TRB`; a change from 0 to 1 raises its function event trouble (R513, R349). -/
def State.setFnTrb (s : State) (f : Nat) (b : FnTrb) : State :=
  if bitOf (s.fnSt f).trb b.bit then s
  else (s.updFn f fun x => { x with trb := x.trb ||| (1 <<< b.bit) }).raiseFnEvt f 0

/-- Write an entry into the event log, over the oldest when 1,024 are held (R520, R524). -/
def State.writeEntry (s : State) (e : LogEntry) : State :=
  let t := s.trouble
  let full := decide ((t.next - t.oldest).toNat ≥ 1024)
  let lost := full && !seqLater t.ack t.oldest
  let s := { s with trouble := { t with
    log := Table.set {} t.log (t.next.toNat % 1024) e
    next := t.next + 1
    oldest := if full then t.oldest + 1 else t.oldest } }
  if lost then s.setTrb .logLost else s

/-- Set the trouble bits that follow an entry (R516). -/
def State.setRefs (s : State) : List TrbRef → State
  | [] => s
  | .dev b :: t =>
    (if bitOf s.trouble.trb b then s
     else { s with trouble := { s.trouble with trb := s.trouble.trb ||| (1 <<< b) } }.raiseDevEvt 0).setRefs t
  | .fn f b :: t =>
    (if bitOf (s.fnSt f).trb b then s
     else (s.updFn f fun x => { x with trb := x.trb ||| (1 <<< b) }).raiseFnEvt f 0).setRefs t

/-- Byte 14 of an entry for a function, and for the device as a whole (Table 19-4). -/
def fnByte (f : Nat) : BitVec 8 := BitVec.ofNat 8 f
/-- The device byte. -/
def devByte : BitVec 8 := 0x40

/-- Log an event: the entry, then its bits (R516). The always-on island writes kinds 0x0010 to 0x0012 itself; the
firmware writes every other kind, and while it does not run the entry and its bits wait (R523). -/
def State.logEvent (s : State) (kind : Nat) (fn : BitVec 8) (payload : Bytes) (bits : List TrbRef) : State :=
  let e : LogEntry := { stamp := s.time, kind := BitVec.ofNat 16 kind, fn := fn, payload := payload }
  if (decide (0x10 ≤ kind) && decide (kind ≤ 0x12)) || s.fwRuns then (s.writeEntry e).setRefs bits
  else { s with trouble := { s.trouble with waiting := s.trouble.waiting ++ [(e, bits)] } }

/-- Write the entries that waited for the firmware, in order, with their bits (R523). -/
def State.flushWaiting (s : State) : List (LogEntry × List TrbRef) → State
  | [] => { s with trouble := { s.trouble with waiting := [] } }
  | (e, b) :: t => ((s.writeEntry e).setRefs b).flushWaiting t

/-- A scrub-due block exists in a bank or plane (R74). -/
def State.bankDue (s : State) (bank : Nat) : Bool :=
  s.nvm.blocks.any fun p => p.2.due && p.1 / 128 == bank

/-- The level conditions of `TRB` that hold (Table 19-1). -/
def State.levelBits (s : State) : BitVec 20 :=
  BitVec.ofNat 20
    (b2n (s.life.tripped || s.life.powerCycle) + 2 * b2n s.life.tripped
      + 32 * b2n (s.nvm.blocks.any fun p => p.2.due)
      + 1024 * b2n (s.addr.top == 0)
      + 4096 * b2n (s.weft.ports.any fun p => p.2.heldDown)
      + 8192 * b2n (!s.life.failed.isEmpty)
      + 65536 * b2n s.fw.defaulted)

/-- Clear `TRB` bits as a W1C write does: a level bit whose condition holds stays at 1 (R514). -/
def State.clearTrb (s : State) (w : Word) : State :=
  { s with trouble := { s.trouble with trb := s.trouble.trb &&& (~~~(w.setWidth 20) ||| s.levelBits) } }

/-- Clear a function's `FN_TRB` bits (R513). -/
def State.clearFnTrb (s : State) (f : Nat) (w : Word) : State :=
  s.updFn f fun x => { x with trb := x.trb &&& ~~~(w.setWidth 10) }

/-! ## Counters -/

/-- Whether a STATS slot is a 48-bit wrapping counter (Table 24-6). -/
def statWide (slot : Nat) : Bool := slot ∈ [2, 3, 13, 14, 16, 17, 18, 19, 20, 21]

/-- Add to a counter that wraps at 48 bits or saturates at 32 (R591, R628). -/
def addCounter (w : Bool) (v k : Nat) : Nat := if w then (v + k) % 2 ^ 48 else satNat 0xFFFFFFFF (v + k)

/-- Count in a function's STATS (R629). -/
def State.stat (s : State) (f slot k : Nat) : State :=
  s.updFn f fun x => { x with stats := Table.upd 0 x.stats slot fun v => addCounter (statWide slot) v k }

/-- Count in PERF (R631): every slot but tickets_peak is 48 bits wide. -/
def State.perfAdd (s : State) (slot k : Nat) : State :=
  { s with perf := Table.upd 0 s.perf slot fun v => addCounter true v k }

/-! ## Time -/

/-- At least `us` microseconds of the 38.4 MHz time base have passed since a stamp. -/
def State.usSince (s : State) (t : BitVec 64) (us : Nat) : Bool := decide (5 * (s.time - t).toNat ≥ 192 * us)

/-- Ticks of the time base for which the CP has been halted, in all (R285). -/
def State.haltNow (s : State) : Nat := s.dbg.haltSum + if s.dbg.halted then (s.time - s.dbg.haltStart).toNat else 0

/-- Take a fresh free value's index. -/
def State.tick (s : State) : State := { s with fresh := s.fresh + 1 }

/-! ## Trace -/

/-- PD13 is ON for capture: trace is enabled at the present level (R589). -/
def State.traceOn (s : State) : Bool := s.trace.en && (decide (s.power.level ≤ 2) || s.trace.deep)

/-- The 16 bytes of a trace packet (R584). -/
def tracePacket (stamp : BitVec 64) (kind src aux flags : Nat) (data : Word) : Bytes :=
  leBytes 8 stamp.toNat ++ leBytes 1 kind ++ leBytes 1 src ++ leBytes 1 aux ++ leBytes 1 flags ++ leBytes 4 data.toNat

/-- Hand a packet to the FIFO, or count it as lost when the FIFO is full (R588). -/
def State.traceFifo (s : State) (p : Bytes) : State :=
  if s.trace.stopped then s
  else if s.trace.fifo.length < 256 then { s with trace := { s.trace with fifo := s.trace.fifo ++ [p] } }
  else { s with trace := { s.trace with dropped := s.trace.dropped + 1, lost := satInc s.trace.lost 1 } }

/-- Emit a trace packet of a class: by the class mask and the function filter (R585), to the FIFO, or to the stub for
an always-on kind while PD13 is not ON (R590). -/
def State.traceEmit (s : State) (cls : Nat) (fn : Option Nat) (aon : Bool) (kind src aux : Nat) (data : Word) : State :=
  let t := s.trace
  let pass := match fn with
    | none => true
    | some f => if f < 32 then bitOf t.fnLo f else bitOf t.fnHi (f - 32)
  if !t.en || !bitOf t.classes cls || !pass then s
  else
    let p := tracePacket s.time kind src aux 0 data
    if s.traceOn then s.traceFifo p
    else if aon then
      { s with trace := { t with
        stubCount := satInc t.stubCount 1
        stub := if t.stub.length < 16 then t.stub ++ [p] else t.stub } }
    else s

/-! ## Windows (R305 to R308) -/

/-- A range reference (R410). -/
structure RangeRef where
  off : Nat
  win : Nat
  space : Nat
  deriving DecidableEq, Repr

/-- Decode a range reference from its two dwords. -/
def rangeRef (lo hi : Word) : RangeRef :=
  { off := lo.toNat + 2 ^ 32 * bitsOf hi 7 0, win := bitsOf hi 11 8, space := bitsOf hi 13 12 }

/-- The reserved bits of a range reference's high dword are zero. -/
def rangeRefOk (hi : Word) : Bool := bitsOf hi 31 14 == 0

/-- A host window passes a range (R308). -/
def HWin.pass (w : HWin) (wr : Bool) (a len : Nat) : Bool :=
  w.en && (if wr then w.wr else w.rd) && decide (4096 * w.base.toNat ≤ a)
    && decide (a + len ≤ 4096 * (w.limit.toNat + 1)) && decide (a + len ≤ 2 ^ 64)

/-- A device window passes a range (R308). -/
def DWin.pass (w : DWin) (wr : Bool) (a len : Nat) : Bool :=
  w.en && (if wr then w.wr else w.rd) && decide (4096 * w.base.toNat ≤ a)
    && decide (a + len ≤ 4096 * (w.limit.toNat + 1)) && decide (a + len ≤ 2 ^ 40)

/-- Check a range of `len` bytes in spaces 0 to 2 against a tenant's windows (R308). -/
def checkRange (hw : Table HWin) (dw : Table DWin) (r : RangeRef) (len : Nat) (wr : Bool) : Option Place :=
  if r.space = 0 then
    let w := Table.get {} hw r.win
    let a := 4096 * w.base.toNat + r.off
    if w.pass wr a len then some (.host a w.ns) else none
  else if r.space = 1 then
    let w := Table.get {} dw r.win
    let a := 4096 * w.base.toNat + r.off
    if w.pass wr a len then some (.lp5x a) else none
  else if r.space = 2 then
    if dw.any fun p => p.2.pass wr r.off len then some (.lp5x r.off) else none
  else none

/-- A bus range passes some enabled host window of a function (R307, R383, R388, R397); its No Snoop attribute. -/
def hostWindow (hw : Table HWin) (a len : Nat) (wr : Bool) : Option Bool :=
  (hw.find? fun p => p.2.pass wr a len).map fun p => p.2.ns

/-! ## LP5X (R299 to R301) -/

/-- `LP5X_TOP` in bytes. -/
def State.lpTop (s : State) : Nat := 1048576 * s.addr.top.toNat

/-- A device address lies in channel B (R292). -/
def inChannelB (a : Nat) : Bool := ([8, 12, 16, 20, 24, 28, 32].filter a.testBit).length % 2 == 1

/-- The channel address of a device address (R292). -/
def channelAddr (a : Nat) : Nat := a / 512 * 256 + a % 256

/-- Where a channel keeps what belongs to a device line: the channel, and the line within it. -/
def dramLine (line : Nat) : Nat := 2 ^ 34 * b2n (inChannelB (64 * line)) + channelAddr (64 * line) / 64

/-- Bytes of one channel: `LP5X_TOP` is 7/8 or 511/512 of both (R294). -/
def State.channelBytes (s : State) : Nat := if s.addr.eccOn then s.lpTop / 2 / 7 * 8 else s.lpTop / 2 / 511 * 512

/-- The channel address of the check entry of a channel's line (R297). -/
def State.entryAddr (s : State) (l : Nat) : Nat := s.channelBytes / 8 * 7 + 8 * l

/-- The check entry of a device line, as its channel holds it (Table 11-3): four codes, and the poison mark. -/
def State.checkEntry (s : State) (line : Nat) : Nat :=
  ((List.range 4).map fun i => 2 ^ (9 * i) * (Config.secDed (readBytes 0 s.addr.lp5x (64 * line + 16 * i) 16)).toNat).sum
    + 2 ^ 36 * b2n (Table.get false s.addr.poison line)

/-- The channel address and the bit of a device line's mark in the poison bitmap, with ECC off (R298). -/
def State.bitmapAt (s : State) (line : Nat) : Nat × Nat :=
  let l := channelAddr (64 * line) / 64
  (s.channelBytes / 512 * 511 + l / 8, l % 8)

/-- A line's cells hold other data from now on: nothing tells what (R300). -/
def State.lpGarble (s : State) (line : Nat) : State :=
  { s.tick with addr := { s.addr with lp5x := writeBytes 0 s.addr.lp5x (64 * line) ((List.range 64).map (Config.freeByte s.fresh)) } }

/-- Change the count of wrong bits in the worst code of a line. -/
def State.lpSetErr (s : State) (line n : Nat) : State :=
  { s with addr := { s.addr with lpErr := Table.set 0 s.addr.lpErr (dramLine line) n } }

/-- A read corrects a line and writes it back (R300). -/
def State.lpCorrect (s : State) (line : Nat) : State :=
  { s.lpSetErr line 0 with addr := { (s.lpSetErr line 0).addr with eccCnt := satInc s.addr.eccCnt 1 } }

/-- A read finds a line uncorrectable (R300). -/
def State.lpUncorr (s : State) (line : Nat) : State :=
  { s with addr := { s.addr with uncorrCnt := satInc s.addr.uncorrCnt 1 } }.logEvent 0x23 devByte
    (leBytes 5 (line * 64)) [.dev Trb.dramUncorr.bit]

/-- Meet one LP5X line on a read: correct it, or deliver it poisoned (R299, R300). Three wrong bits or more in one code may be
found uncorrectable, miscorrected or not found: which is open (log entry 124). -/
def State.lpTouch (s : State) (line : Nat) : State × Bool :=
  let marked := Table.get false s.addr.poison line
  let e := Table.get 0 s.addr.lpErr (dramLine line)
  if !s.addr.eccOn ∨ e = 0 then (s, marked)
  else if e = 1 then (s.lpCorrect line, marked)
  else if e = 2 then (s.lpUncorr line, true)
  else
    match Config.freeNat s.fresh % 3 with
    | 0 => (s.tick.lpUncorr line, true)
    | 1 => ((s.tick.lpGarble line).lpCorrect line, marked)
    | _ => ((s.tick.lpGarble line).lpSetErr line 0, marked)

/-- Meet `n` LP5X lines from `line` on; answers the poisoned ones. -/
def State.lpTouchAll (s : State) (line : Nat) : Nat → State × List Nat
  | 0 => (s, [])
  | n + 1 =>
    let (s, p) := s.lpTouch line
    let (s, l) := s.lpTouchAll (line + 1) n
    (s, if p then line :: l else l)

/-- The number of 64-byte lines that a byte range touches. -/
def lineCount (a len : Nat) : Nat := if len = 0 then 0 else (a + len - 1) / 64 - a / 64 + 1

/-- Read LP5X: the bytes, and the poisoned lines among those touched. -/
def State.lpRead (s : State) (a len : Nat) : State × Bytes × List Nat :=
  let (t, l) := s.lpTouchAll (a / 64) (lineCount a len)
  (t.perfAdd 33 (lineCount a len), readBytes 0 t.addr.lp5x a len, l)

/-- Decide the mark of one line that a write touches: a whole write by its own poison, a partial one by the merge with the
line as it is read; check codes are computed anew over it (R299 to R301). -/
def State.lpMark (s : State) (line : Nat) (whole poisoned : Bool) : State :=
  let r := if whole then (s, false) else s.lpTouch line
  let t := if s.addr.eccOn then r.1.lpSetErr line 0 else r.1
  { t with addr := { t.addr with poison := Table.set false t.addr.poison line (r.2 || poisoned) } }

/-- Mark the `n` lines from `line` on that a write of bytes `a` to `e - 1` touches. -/
def State.lpMarkAll (s : State) (a e line : Nat) (poisoned : Bool) : Nat → State
  | 0 => s
  | n + 1 =>
    (s.lpMark line (decide (a ≤ line * 64) && decide (line * 64 + 64 ≤ e)) poisoned).lpMarkAll a e (line + 1) poisoned n

/-! ## Copies in the SAC (R314, R315) -/

/-- A byte string with another laid over it: `v` and `a` are where the two start. -/
def overlay (v : Nat) (b : Bytes) (a : Nat) (d : Bytes) : Bytes :=
  (List.range b.length).map fun i => if a ≤ v + i ∧ v + i < a + d.length then d.getD (v + i - a) 0 else b.getD i 0

/-- Two byte ranges, as start and length, meet. -/
def rangesMeet (a n v m : Nat) : Bool := decide (a < v + m) && decide (v < a + n)

/-- A write to memory as its copies see it: to LP5X or to host memory, its address, its bytes, whether it is poisoned, and the
LP5X lines that are marked after it. -/
structure MemWrite where
  lp : Bool
  addr : Nat
  data : Bytes
  poison : Bool
  marks : Table Bool
  deriving DecidableEq, Repr

/-- Whether a copy of `n` bytes from `v` on is poisoned after a write that touches it: by the marks of its LP5X lines; a copy of
host memory by the write where that covers it, and else as it was too. -/
def MemWrite.tag (w : MemWrite) (v n : Nat) (old : Bool) : Bool :=
  if w.lp then (List.range (lineCount v n)).any fun i => Table.get false w.marks (v / 64 + i)
  else w.poison || (old && !(decide (w.addr ≤ v) && decide (v + n ≤ w.addr + w.data.length)))

/-- A copy of memory after a write to it: its bytes and its tag. -/
def MemWrite.onCopy (w : MemWrite) (v : Nat) (b : Bytes) (old : Bool) : Bytes × Bool :=
  if rangesMeet w.addr w.data.length v b.length then (overlay v b w.addr w.data, w.tag v b.length old) else (b, old)

/-- A line that a command has fetched, after a write to memory. -/
def Line.patch (l : Line) (w : MemWrite) : Line :=
  match l.src, l.data with
  | some (.lp5x v), some b =>
    if w.lp then { l with data := some (w.onCopy v b l.poison).1, poison := (w.onCopy v b l.poison).2 } else l
  | some (.host v _), some b =>
    if w.lp then l else { l with data := some (w.onCopy v b l.poison).1, poison := (w.onCopy v b l.poison).2 }
  | _, _ => l

/-- A line of a cache way, after a write to memory. -/
def CacheLine.patch (l : CacheLine) (w : MemWrite) : CacheLine :=
  if l.host == w.lp then l
  else { l with data := (w.onCopy l.addr l.data l.poison).1, poison := (w.onCopy l.addr l.data l.poison).2 }

/-- The bytes of a command's own output that it has written to LP5X already, after a later write there: `q` is the first byte's
key, the length and the address. -/
def MemWrite.onOutput (w : MemWrite) (t : Table Byte) (q : Nat × Nat × Nat) : Table Byte :=
  (List.range q.2.1).foldl (fun (t : Table Byte) i =>
    if w.lp ∧ w.addr ≤ q.2.2 + i ∧ q.2.2 + i < w.addr + w.data.length then
      Table.insert t (q.1 + i) (w.data.getD (q.2.2 + i - w.addr) 0)
    else t) t

/-- The tags of such output, in the manner of `Run.wroteBad`: a mark of no layer run stands for a poison that came later. -/
def MemWrite.onTags (w : MemWrite) (t : Table (List Nat)) (q : Nat × Nat × Nat) : Table (List Nat) :=
  if w.lp ∧ w.poison ∧ rangesMeet w.addr w.data.length q.2.2 q.2.1 then Table.upd [] t (q.1 / 64) fun l => 0x80000 :: l else t

/-- A command's copies of memory after a write to it (R314, R315). -/
def Run.patch (r : Run) (w : MemWrite) : Run :=
  { r with
    lines := r.lines.map fun q => (q.1, q.2.patch w)
    wrote := r.issued.foldl w.onOutput r.wrote
    wroteBad := r.issued.foldl w.onTags r.wroteBad }

/-- Every copy in the SAC after a write to memory: of all tenants, or of one for host memory. -/
def State.patchCopies (s : State) (w : MemWrite) (mine : Nat → Bool) : State :=
  { s with comp := { s.comp with
    runs := s.comp.runs.map fun (p : Nat × Run) => (p.1, if mine p.2.fn then p.2.patch w else p.2)
    cache := s.comp.cache.map fun (p : Nat × CacheLine) => (p.1, if mine p.2.fn then p.2.patch w else p.2) } }

/-- LP5X is coherent inside the device: a write replaces every copy of its bytes (R315). -/
def State.patchLp (s : State) (a : Nat) (d : Bytes) (poison : Bool) : State :=
  s.patchCopies { lp := true, addr := a, data := d, poison := poison, marks := s.addr.poison } fun _ => true

/-- A line that a stream writes to host memory replaces any copy of it in the tenant's ways (R314). -/
def State.patchHost (s : State) (f a : Nat) (d : Bytes) (poison : Bool) : State :=
  s.patchCopies { lp := false, addr := a, data := d, poison := poison, marks := [] } fun g => g == f

/-- Write LP5X (R299, R301). -/
def State.lpWrite (s : State) (a : Nat) (d : Bytes) (poisoned : Bool) : State :=
  let s := (s.lpMarkAll a (a + d.length) (a / 64) poisoned (lineCount a d.length)).patchLp a d poisoned
  ({ s with addr := { s.addr with lp5x := writeBytes 0 s.addr.lp5x a d } }).perfAdd 34 (lineCount a d.length)

/-! ## Host memory -/

/-- What host memory answers for a byte range; an address outside the view answers UR. -/
def hostBytes (v : HostView) : Nat → Nat → Nat → Except ReadFail Bytes
  | 0, _, _ => .ok []
  | fuel + 1, a, len =>
    if len = 0 then .ok []
    else
      match v.find? fun c => decide (c.base.toNat ≤ a) && decide (a < c.base.toNat + c.data.length) with
      | none => .error .ur
      | some c =>
        match c.fail with
        | some e => .error e
        | none =>
          let o := a - c.base.toNat
          let p := (c.data.drop o).take len
          match hostBytes v fuel (a + p.length) (len - p.length) with
          | .ok r => .ok (p ++ r)
          | .error e => .error e

/-- The pieces of a host write: cut at multiples of Max_Payload_Size (R320). -/
def payloadPieces (mps : Nat) : Nat → Nat → Bytes → List (Nat × Bytes)
  | 0, _, _ => []
  | fuel + 1, a, d =>
    if d.isEmpty then []
    else
      let n := mps - a % mps
      (a, d.take n) :: payloadPieces mps fuel (a + n) (d.drop n)

/-- Max_Payload_Size in bytes; encodings above 512 act as 512 (R320). -/
def State.mpsBytes (s : State) : Nat :=
  if s.pcie.mps = 0 then 128 else if s.pcie.mps = 1 then 256 else 512

/-- Max_Read_Request_Size in bytes, at most 4,096 (R320). -/
def State.mrrsBytes (s : State) : Nat := if s.pcie.mrrs.toNat < 6 then 128 * 2 ^ s.pcie.mrrs.toNat else 4096

/-- Send a list of pieces as posted writes. -/
def State.sendPieces (s : State) (f : Nat) (ns : Bool) : List (Nat × Bytes) → State
  | [] => s
  | (a, d) :: t => (s.busSend f (.memWrite f a d ns)).sendPieces f ns t

/-- Write host memory with a function's requester ID (R312, R320), and count its lines. -/
def State.hostWrite (s : State) (f a : Nat) (ns : Bool) (d : Bytes) (poison : Bool := false) : State :=
  ((((s.patchHost f a d poison).sendPieces f ns (payloadPieces s.mpsBytes (d.length + 1) a d))).stat f 18 (lineCount a d.length)).perfAdd 32
    (lineCount a d.length)

/-- A place moved by an offset. -/
def Place.plus (p : Place) (n : Nat) : Place :=
  match p with
  | .host a ns => .host (a + n) ns
  | .lp5x a => .lp5x (a + n)
  | .sac a => .sac (a + n)

/-- Write a byte string at a place that passed its check, for a function's command. -/
def State.writePlace (s : State) (f : Nat) (p : Place) (d : Bytes) (poisoned : Bool) : State :=
  match p with
  | .host a ns => s.hostWrite f a ns d
  | .lp5x a => (s.lpWrite a d poisoned).stat f 20 (lineCount a d.length)
  | .sac _ => s

/-- What Device Status adds for an error: correctable, non-fatal, fatal, Unsupported Request. -/
def devStaOf (un co : Word) (fatal : Bool) : BitVec 4 :=
  BitVec.ofNat 4 (b2n (co != 0) + 2 * b2n (un != 0 && !fatal && !bitOf co 13) + 4 * b2n fatal + 8 * b2n (bitOf un 20))

/-- An unmasked uncorrectable error is the first: it sets the First Error Pointer, and its TLP's header is logged, which the commands
do not name (log entry 143). -/
def State.aerLog (s : State) (f : Nat) (un : Word) : State :=
  let x := s.fnSt f
  if un &&& ~~~s.pcie.aerUncMask = 0 ∨ bitOf x.aerUncorr x.aerFirst.toNat then s
  else
    let first := BitVec.ofNat 5 ((lowest (fun i => bitOf un i) 32).getD 0)
    let hdr : List Word := if un &&& 0x159000 = 0 then []
      else (List.range 4).map fun i => BitVec.ofNat 32 (leAt ((List.range 4).map fun j => Config.freeByte s.fresh (4 * i + j)) 0 4)
    s.tick.updFn f fun y => { y with aerFirst := first, aerHdr := hdr }

/-- Log an AER error of a function (R342): the status bits, Device Status, the pointer and the header. An uncorrectable error that is
advisory counts as correctable while its severity is non-fatal (PCIe Base Specification, log entry 143). -/
def State.aer (s : State) (f : Nat) (un corr : Word) : State :=
  let fatal := decide (un &&& s.pcie.aerSev ≠ 0)
  let co := if fatal then corr &&& ~~~(0x2000 : Word) else corr
  (s.aerLog f un).updFn f fun x => { x with
    aerUncorr := x.aerUncorr ||| un, aerCorr := x.aerCorr ||| co, devSta := x.devSta ||| devStaOf un co fatal }

/-- A poisoned completion or write reaches a function: Detected Parity Error, and for a completion, with Parity Error Response set,
Master Data Parity Error (R322, R342). -/
def State.parity (s : State) (f : Nat) (completion : Bool) : State :=
  s.updFn f fun x => { x with
    cfgStat := x.cfgStat ||| (if completion && s.pcie.perr then 0x81000000 else 0x80000000) }

/-- An Unsupported Request: logged in the function it addresses, or in the PF when it addresses none; a posted one is advisory
(Table 12-7, log entry 11). A device that a reset holds logs nothing. -/
def State.logUr (s : State) (f : Nat) (posted : Bool) : State :=
  match s.life.phase with
  | .por => s
  | .held _ => s
  | _ => s.aer (if s.fnExists f then f else 0) 0x100000 (if posted then 0x2000 else 0)

/-- A failed read of host memory is counted and logged (Table 12-7, R340): a timeout, a poisoned completion. -/
def State.noteRead (s : State) (f : Nat) (r : Except ReadFail Bytes) : State :=
  match r with
  | .error .timeout => { (s.aer f 0x4000 0) with pcie := { s.pcie with cplTo := satInc s.pcie.cplTo 1 } }
  | .error .ep => (s.aer f 0x1000 0x2000).parity f true
  | _ => s

/-- The limit on outstanding non-posted requests (R321). -/
def State.tagLimit (s : State) : Nat := if s.pcie.tag10 then 768 else 256

/-- The lowest tag that no outstanding request uses. -/
def State.freeTag (s : State) : Option Nat := lowest (fun t => !(s.reads.any fun q => q.tag == t)) s.tagLimit

/-- The limit of a read request: Max_Read_Request_Size, at most 4,096 bytes (R266, R320). -/
def State.readLimit (s : State) : Nat := min 4096 s.mrrsBytes

/-- Send the read requests that a byte range takes, cut at multiples of the limit (R266, R312, R313). -/
def State.sendReads (s : State) (f tag : Nat) (ns : Bool) : Nat → Nat → Nat → State
  | 0, _, _ => s
  | fuel + 1, a, len =>
    if len = 0 then s
    else
      let n := min len (s.readLimit - a % s.readLimit)
      (s.emit (.memRead f tag a n ns)).sendReads f tag ns fuel (a + n) (len - n)

/-- A step's read of host memory waits: the function may not send (R335), every tag is in use (R321), or no completion comes and
nothing times it out (R341). -/
def State.readWaits (s : State) (f : Nat) (r : Except ReadFail Bytes) : Bool :=
  !s.canSend f || s.freeTag.isNone || (s.pcie.ctoDis && match r with
    | .error .timeout => true
    | _ => false)

/-- Read host memory within a step: the requests and their answer, or a step that waits. -/
def State.readHost (s : State) (view : HostView) (f a : Nat) (ns : Bool) (len : Nat) : State × Except ReadFail Bytes :=
  let r := hostBytes view (len + 1) a len
  if s.readWaits f r then ({ s with blocked := true }, .error .timeout)
  else ((((s.sendReads f (s.freeTag.getD 0) ns (len + 1) a len).stat f 17 (lineCount a len)).perfAdd 31 (lineCount a len)).noteRead f r, r)

/-- A step that waits for a read of host memory changes nothing, and may be taken again. -/
def State.orWait (s t : State) : State := if t.blocked then s else t

/-- Read a byte string at a place that passed its check; a poisoned LP5X line fails as a completion with EP does
(R265, R299). -/
def State.readPlace (s : State) (view : HostView) (f : Nat) (p : Place) (len : Nat) : State × Except ReadFail Bytes :=
  match p with
  | .host a ns => s.readHost view f a ns len
  | .lp5x a =>
    let (s, d, bad) := s.lpRead a len
    (s.stat f 19 (lineCount a len), if bad.isEmpty then .ok d else .error .ep)
  | .sac _ => (s, .error .ur)

/-! ## The end of a command -/

/-- The trouble bits of a command that ends with CORE_FAULT or PEER_LOST (Table 19-2). -/
def State.endTrb (s : State) (t : Nat) (status : BitVec 16) : State :=
  match s.cmd? t with
  | none => s
  | some c =>
    if status = St.coreFault then s.setFnTrb c.fn .coreFault
    else if status = St.peerLost then s.setFnTrb c.fn .peerLost
    else s

/-- A command ends: its status and result words wait for its completion entry (R396). -/
def State.endCmd (s : State) (t : Nat) (status : BitVec 16) (r0 r1 : Word) : State :=
  let a := (s.endTrb t status).updCmd t fun c => { c with phase := .ended, status := status, res0 := r0, res1 := r1 }
  if s.dbg.halted then { a with dbg := { a.dbg with haltEnds := a.dbg.haltEnds ++ [t] } } else a

/-- A command's own step may run: it is dispatched and its opcode is one of `ops`; the firmware dispatches it (R580),
unless a thermal trip holds, when nothing is dispatched (R622). -/
def State.dispatched (s : State) (t : Nat) (ops : List Nat) : Option Cmd :=
  match s.cmd? t with
  | none => none
  | some c =>
    if c.phase = .ready ∧ ops.contains (Entry.opcode c.entry) ∧ s.fwRuns ∧ !s.life.tripped then some c else none

/-- Weighted round robin over functions (R464): of the functions that have something ready, the one that is served next and how often
it has been served in its turn. A turn ends at the function's weight, or when it has nothing ready and another is served. -/
def weightedTurn (weight : Nat → Nat) (turn : Nat × Nat) (ready : List Nat) : Option (Nat × Nat) :=
  if ready.contains turn.1 && decide (turn.2 < weight turn.1) then some (turn.1, turn.2 + 1)
  else
    match (ready.filter fun f => decide (turn.1 < f)).min? with
    | some f => some (f, 1)
    | none => ready.min?.map fun f => (f, 1)

/-- Run a command's step on the command that holds a ticket; where the ticket holds no such command the event does
not arise and nothing changes (log entry 2). -/
def State.onCmd (s : State) (t : Nat) (ops : List Nat) (f : Cmd → State) : State :=
  match s.dispatched t ops with
  | none => s
  | some c => f c

/-- Tickets held by a function (R393). -/
def State.ticketsHeld (s : State) (f : Nat) : Nat := (s.cmds.filter fun p => p.2.fn == f).length

/-- Ring class of a command's ring. -/
def State.cmdRt (s : State) (c : Cmd) : Bool := (s.ring c.fn c.ring).rt

/-- The tickets of the commands that satisfy a condition, in ticket order. -/
def State.ticketsWhere (s : State) (p : Cmd → Bool) : List Nat := (s.cmds.filter fun q => p q.2).map Prod.fst

/-- The output that a command names in dwords `lo` and `lo + 1`, checked whole at acceptance with write permission
(R308, Table 11-4); spaces 0 and 1. -/
def Cmd.output (c : Cmd) (lo len : Nat) : Except (BitVec 16) Place :=
  let hi := Entry.dw c.entry (lo + 1)
  let r := rangeRef (Entry.dw c.entry lo) hi
  if !rangeRefOk hi ∨ r.space > 1 then .error St.badParam
  else
    match checkRange c.hwin c.dwin r len true with
    | none => .error St.windowFault
    | some p => .ok p

/-- An input that a command names in dwords `lo` and `lo + 1`, checked whole at acceptance with read permission (R308,
Table 11-4); spaces 0 and 1. -/
def Cmd.input (c : Cmd) (lo len : Nat) : Except (BitVec 16) Place :=
  let hi := Entry.dw c.entry (lo + 1)
  let r := rangeRef (Entry.dw c.entry lo) hi
  if !rangeRefOk hi ∨ r.space > 1 then .error St.badParam
  else
    match checkRange c.hwin c.dwin r len false with
    | none => .error St.windowFault
    | some p => .ok p

end Sys2Proof.Machine
end

