-- ==== Sys2Proof/Machine/PowerOps.lean ====
section
/-!
DEFINITION. Chapter 18: power domains, the idle test, the latency contract, waking, LTR. Shared by every command that
wakes the device or changes an input of the target level.
-/

namespace Sys2Proof.Machine

/-! ## Static maps (R13, R14, R52) -/

/-- Quadrant of a core with index n = 8 * row + column. -/
def coreQuad (n : Nat) : Nat := 2 * (n / 8 / 4) + n % 8 / 4

/-- A bank or plane lies in tiers 2 and 3, powered in PD4 (R52). -/
def bankInPd4 (b : Nat) : Bool := decide (b < 64) && decide (coreQuad b ≥ 2)

/-! ## Domains (R491 to R494) -/

/-- States of a domain, as trace packets code them (Table 22-7): 0 ON, 1 STANDBY, 2 RET, 3 OFF, 4 PDN, 5 SR, 6 SR with
the PHY off. -/
abbrev DomState := Nat

/-- A live binding holds a core of a quadrant. -/
def State.quadBound (s : State) (q : Nat) : Bool :=
  s.binds.any fun p => p.2.live && p.2.cores.any fun c => coreQuad c == q

/-- A quadrant's domain is ON at RL0 (R493). -/
def State.quadOn (s : State) (q : Nat) : Bool := !s.power.unboundGate || s.quadBound q

/-- PD4 is ON at RL0 (R493). -/
def State.pd4On (s : State) : Bool :=
  !s.power.unboundGate || s.quadBound 2 || s.quadBound 3 || s.nvm.ops.any fun o => bankInPd4 o.bank

/-- The wear-record checkpoint that precedes RL4 runs: the CP and the code bank are ON for it (R64, R497, log entry 134). -/
def State.entryWork (s : State) : Bool := decide (s.power.level = 3) && !s.nvm.ops.isEmpty

/-- The state that Table 18-2 gives a domain at the present level (R492, R493). -/
def State.tableState (s : State) (d : Nat) : DomState :=
  let l := s.power.level
  if d = 0 then 0
  else if d = 1 then (if l = 4 ∧ !s.power.pd1Alone then 2 else 0)
  else if d = 2 then (if l = 3 then 2 else if l = 4 then 3 else 0)
  else if d = 3 then (if l = 0 then 0 else if l ≤ 2 then 1 else 3)
  else if d = 4 then (if l = 0 then (if s.pd4On then 0 else 3) else if l = 1 then (if s.pd4On then 1 else 3) else 3)
  else if d ≤ 8 then
    (if l = 0 then (if s.quadOn (d - 5) then 0 else 3)
     else if l = 1 then (if s.quadOn (d - 5) then 2 else 3) else 3)
  else if d = 9 then (if l ≤ 1 then 0 else 2)
  else if d = 10 then (if l = 0 then 0 else if l = 1 then 4 else if l ≤ 3 then 5 else 6)
  else if d = 11 then (if s.csi.any (fun p => p.2.en) then 0 else 3)
  else if d = 12 then (if s.weft.portEn = 0 then 3 else 0)
  else if d = 13 then (if s.traceOn || s.dbg.attached then 0 else 3)
  else 0

/-- The state of a domain: that of Table 18-2, but while a checkpoint precedes RL4. -/
def State.domState (s : State) (d : Nat) : DomState := if (d = 2 ∨ d = 3) ∧ s.entryWork then 0 else s.tableState d

/-- The domains that are ON (`PWR_DOM`). -/
def State.domsOn (s : State) : BitVec 14 :=
  (List.range 14).foldl (fun w d => if s.domState d = 0 then w ||| (1 <<< d) else w) 0

/-- The REST packet of a domain that leaves its state for another below ON (R589). PD2 sends none from RET to OFF (Example 22.8-a, log
entry 134). -/
def State.restPacket (s old : State) (d : Nat) : State :=
  let a := old.tableState d
  let b := s.tableState d
  if a = b ∨ b = 0 ∨ (d = 2 ∧ a = 2) then s else s.traceEmit 0 none true 0x01 d b (BitVec.ofNat 32 s.power.level)

/-- The RESUME packet of a domain that is back ON (R589). -/
def State.resumePacket (s old : State) (d : Nat) : State :=
  let a := old.tableState d
  if a = 0 ∨ s.tableState d ≠ 0 then s else s.traceEmit 0 none true 0x02 d a (BitVec.ofNat 32 s.power.level)

/-- A read that needs PD4 while it is OFF powers it ON for as long as it takes (R493). -/
def State.pd4Read (s : State) (b : Nat) : State :=
  if bankInPd4 b && decide (s.power.level = 0) && !s.pd4On then
    (s.traceEmit 0 none true 0x02 4 3 0).traceEmit 0 none true 0x01 4 3 0
  else s

/-! ## The trace sink (R586 to R588) -/

/-- Packets that the sink holds; none where the sink is the port. -/
def Trace.capacity (t : Trace) : Option Nat := if t.sink = 0 then some 4096 else if t.sink = 1 then some (t.size.toNat * 256) else none

/-- A packet reaches the sink. -/
def State.sinkPacket (s : State) (p : Bytes) : State :=
  let t := s.trace
  match t.capacity with
  | none => s.emit (.tracePort p)
  | some n =>
    if t.sink = 0 then { s with trace := { t with buf := Table.insert t.buf (t.wptr.toNat % n) p } }
    else s.lpWrite (4096 * t.base.toNat + t.wptr.toNat % n * 16) p false

/-- The write pointer moves; stop mode ends with a full sink. -/
def Trace.advance (t : Trace) : Trace :=
  let full := match t.capacity with
    | some n => t.stopMode && decide (n ≤ t.wptr.toNat + 1)
    | none => false
  { t with wptr := t.wptr + 1, stopped := t.stopped || full }

/-- The FIFO gives a packet to the sink, unless it has stopped. -/
def State.drainPacket (s : State) : State :=
  match s.trace.fifo with
  | [] => s
  | p :: t =>
    if s.trace.stopped then s
    else
      let a := { s with trace := { s.trace with fifo := t } }.sinkPacket p
      { a with trace := a.trace.advance }

/-- The FIFO drains while PD13 is ON; while LP5X is in SR, the packets for it wait (R588). -/
def State.drainTrace (s : State) : State :=
  if !s.traceOn || (decide (s.trace.sink = 1) && decide (5 ≤ s.domState 10)) then s else s.drainPacket

/-- The FIFO drains whole before LP5X enters SR (R588). -/
def State.flushTrace (s : State) : State :=
  if !s.traceOn then s else s.trace.fifo.foldl (fun (t : State) _ => t.drainPacket) s

/-- Core stores of the quadrants that are OFF lose their contents and read zero on return (R491). -/
def State.dropCores (s : State) : State :=
  { s with addr := { s.addr with
    cores := s.addr.cores.filter fun p => s.domState (5 + coreQuad (p.1 / 1048576)) ≠ 3
    coreRegs := s.addr.coreRegs.filter fun p => s.domState (5 + coreQuad p.1) ≠ 3 } }

/-- Replay the always-on stub when PD13 returns to ON (R590). -/
def State.replayStub (s : State) (was : DomState) : State :=
  let n := s.trace.stub.length
  let cnt := s.trace.stubCount.toNat
  let s := s.traceFifo (tracePacket s.time 0x02 13 was 0 (BitVec.ofNat 32 s.power.level))
  let s := s.traceFifo (tracePacket s.time 0x03 0 n 0 (BitVec.ofNat 32 cnt))
  let s := s.trace.stub.foldl (fun s p => s.traceFifo (p.take 11 ++ [1] ++ p.drop 12)) s
  { s with trace := { s.trace with stub := [], stubCount := 0, lost := satInc s.trace.lost (cnt - n) } }

/-- When PD13 leaves ON, the internal buffer is lost and the waiting packets become the first stub entries (R589,
R590). -/
def State.stubFifo (s : State) : State :=
  let keep := s.trace.fifo.take (16 - s.trace.stub.length)
  { s with trace := { s.trace with
    buf := []
    fifo := []
    stub := s.trace.stub ++ keep
    stubCount := satInc s.trace.stubCount s.trace.fifo.length } }

/-- The effects of a change of level, binding or use on the domains, from the state `old`: trace packets, lost core
stores, `PWR_DOM` (R491 to R494, R589, R590). -/
def State.refreshDoms (s old : State) : State :=
  let a := old.domState 13
  let b := s.domState 13
  let s := if a ≠ 0 ∧ b = 0 ∧ s.trace.en then s.replayStub a else s
  let s := [1, 2, 3, 4, 5, 6, 7, 8, 9, 10, 11, 12].foldl (fun s d => s.restPacket old d) s
  let s := [10, 1, 2, 3, 4, 5, 6, 7, 8, 9, 11, 12].foldl (fun s d => s.resumePacket old d) s
  let s := if a = 0 ∧ b ≠ 0 ∧ s.trace.en then
      (s.traceFifo (tracePacket s.time 0x01 13 b 0 (BitVec.ofNat 32 s.power.level))).stubFifo else s
  let s := s.dropCores
  { s with power := { s.power with dom := s.domsOn } }

/-! ## The latency contract (R500 to R502) -/

/-- Exit latencies in µs (Table 18-2). -/
def exitUs (l : Nat) : Nat := if l = 0 then 0 else if l = 1 then 2 else if l = 2 then 40 else if l = 3 then 400 else 6000

/-- A tenant is active: it holds a ring that is ACTIVE or DRAINING (R500). -/
def State.tenantActive (s : State) (f : Nat) : Bool :=
  s.fnExists f && s.rings.any fun p => p.1 / 256 == f && (p.2.state = .active ∨ p.2.state = .draining)

/-- tol_min: the smallest tolerance among active tenants; no limit without one, or in D3hot (R500). -/
def State.tolMin (s : State) : Nat :=
  if s.pcie.d3hot then 0xFFFFFFFF
  else (s.fnList.filter s.tenantActive).foldl (fun m f => min m (s.fnSt f).tol.toNat) 0xFFFFFFFF

/-- The function whose tolerance sets tol_min. -/
def State.tolFn (s : State) : Nat :=
  ((s.fnList.filter s.tenantActive).find? fun f => (s.fnSt f).tol.toNat == s.tolMin).getD 0

/-- The deepest level whose exit latency fits a tolerance in µs. -/
def tolLevel (tol : Nat) : Nat := (highest (fun l => decide (exitUs l ≤ tol)) 5).getD 0

/-- An open slot with a CSI-2 source, or with a PCIe source. -/
def State.csiSlots (s : State) : Bool := s.slots.any fun p => p.2.isOpen && p.2.csi
/-- An open PCIe-fed slot. -/
def State.pcieSlots (s : State) : Bool := s.slots.any fun p => p.2.isOpen && !p.2.csi
/-- The chip serves a ring job as a participant (R372). -/
def State.serving (s : State) : Bool := s.binds.any fun p => p.2.live && p.2.lead.isSome

/-- The caps of R501, in order, each with its code in `PWR_STAT.limit`. -/
def State.powerCaps (s : State) : List (Nat × Nat) :=
  [(1, tolLevel s.tolMin),
   (2, if s.csiSlots then 1 else 4),
   (3, if s.pcieSlots || s.serving then 2 else 4),
   (4, s.power.maxLevel),
   (5, if s.dbg.halted then 0 else 4),
   (6, if (s.power.linkL12 || s.power.pd1Alone) && !s.power.l12Late then 4 else 3),
   (7, if s.nvm.vppOk then 4 else 3)]

/-- The target level (R501). -/
def State.target (s : State) : Nat := s.powerCaps.foldl (fun t c => min t c.2) 4

/-- `PWR_STAT.limit`: the first limit, in the order of R501, that sets the target (log entry 14). -/
def State.limitCode (s : State) : Nat :=
  if s.target = 4 then 0 else ((s.powerCaps.find? fun c => c.2 == s.target).map Prod.fst).getD 0

/-! ## Idle (R387, R496) -/

/-- Tickets that no command holds. -/
def State.freeTickets (s : State) : Nat := 768 - s.cmds.length

/-- A function has a free ticket for an entry of a ring of a class (R393, R453). -/
def State.ticketFree (s : State) (f : Nat) (rt : Bool) : Bool :=
  decide (s.ticketsHeld f < (s.fnSt f).quota.tickets)
    && (if rt then decide (0 < s.freeTickets) else decide (s.tenants.rtReserve.toNat < s.freeTickets))

/-- SQ size of a ring, and CQ size. -/
def Ring.sqSize (r : Ring) : Nat := 2 ^ r.sqLog2.toNat
/-- CQ size. -/
def Ring.cqSize (r : Ring) : Nat := 2 ^ r.cqLog2.toNat

/-- Completions written that the host has not consumed. -/
def Ring.unconsumed (r : Ring) : Nat := (r.cqTail + r.cqSize - r.cqHead) % r.cqSize

/-- Accepted commands whose completion is not written plus unconsumed completions number fewer than CQ size - 1
(R387); `extra` counts entries already fetched. -/
def Ring.cqRoom (r : Ring) (extra : Nat) : Bool := decide (r.accepted + r.unconsumed + extra + 1 < r.cqSize)

/-- A function's ring may fetch the entry at its SQ head now (R387, R626). -/
def State.fetchable (s : State) (f r : Nat) : Bool :=
  let x := s.ring f r
  decide (r < (s.fnSt f).ringsHeld) && s.fnExists f && decide (x.state = .active) && decide (x.sqFetch ≠ x.sqTail)
    && x.cqRoom 0 && (x.failFast || s.ticketFree f x.rt) && !(s.fnSt f).fetchStop

/-- A bank is reserved by a binding (R105). -/
def State.reserved (s : State) (b : Nat) : Bool := !(Table.get [] s.nvm.resv b).isEmpty

/-- An automatic relocation or erase is due in some bank (R77, R78, R79). -/
def State.nvmDue (s : State) : Bool :=
  s.nvm.vppOk && s.nvm.blocks.any fun p =>
    (p.2.stale || (p.2.due && s.nvm.autoEn)) && !s.reserved (p.1 / 128)

/-- The device is idle (R496); the checkpoint that precedes RL4 belongs to that entry (R497). -/
def State.idle (s : State) : Bool :=
  s.cmds.isEmpty && !(s.rings.any fun p => s.fetchable (p.1 / 256) (p.1 % 256) || !p.2.fetched.isEmpty)
    && (s.nvm.ops.all fun o => decide (s.power.level = 3) && decide (o.owner = .wear)) && !s.nvmDue && !(s.binds.any fun p => p.2.releasing)
    && !(s.slots.any fun p => p.2.frame.isSome) && !s.dbg.halted && decide (s.life.phase = .running)

/-- The dwell time of a level, in ticks of the time base (R496, Table 18-4): µs, 10 µs, 100 µs, ms; 5 dwell ticks are
192 times the µs. -/
def Power.dwellUs (p : Power) (l : Nat) : Nat :=
  if l = 1 then p.dwell1.toNat
  else if l = 2 then p.dwell2.toNat * 10
  else if l = 3 then p.dwell3.toNat * 100
  else 1000 * p.dwell4.toNat

/-- The device may step down to the next level: idle without a break for its dwell time, and it is no deeper than the target
(R496). -/
def State.mayRest (s : State) : Bool :=
  s.idle && decide (s.power.level + 1 ≤ s.target)
    && decide (5 * s.power.idleTicks ≥ 192 * s.power.dwellUs (s.power.level + 1))

/-! ## LTR (R510) -/

/-- The latency that the KC2 reports, in µs; 0xFFFF_FFFF is No Requirement. -/
def State.ltrUs (s : State) : Nat :=
  if !s.idle || s.csiSlots || s.pcieSlots || s.serving then s.power.activeUs.toNat
  else if s.tolMin = 0xFFFFFFFF then 0xFFFFFFFF
  else s.tolMin - exitUs s.target

/-- The LTR format: a 10-bit value times 32 to the power of a scale, in ns; the largest value it can hold not above a
latency (PCIe Base Specification, log entry 15). -/
def ltrField (us : Nat) : Nat :=
  if us = 0xFFFFFFFF then 0
  else
    let ns := 1000 * us
    let k := (lowest (fun k => decide (ns / 32 ^ k < 1024)) 6).getD 5
    0x8000 + 1024 * k + min 1023 (ns / 32 ^ k)

/-- Send an LTR message after the reported value changed, while LTR Mechanism Enable is set (R345, R510). -/
def State.ltrUpdate (s : State) : State :=
  let v := s.ltrUs
  if !s.pcie.ltrEn || s.life.phase ≠ .running || v = s.power.ltrSent.toNat then s
  else
    ({ s with power := { s.power with ltrSent := BitVec.ofNat 32 v } }).emit
      (.ltr (BitVec.ofNat 32 (ltrField v + 65536 * ltrField v)))

/-! ## Waking (R498, R502, R504) -/

/-- A fresh watchdog period begins when the CP resumes; the warned state is kept and the arming is cleared (R546). -/
def Watchdog.fresh (w : Watchdog) : Watchdog :=
  { w with period := w.staged, count := 1024 * w.staged.toNat, armLeft := none }

/-- Return to RL0 from a rest level, with the wake source's bit and trace packet (R504, R498). -/
def State.wake (s : State) (src : Nat) : State :=
  if s.power.level = 0 then { s with power := { s.power with idleTicks := 0 } }
  else
    let t := s.traceEmit 0 none true 0x05 0 src 0
    let t := { t with
      power := { t.power with
        level := 0, wake := t.power.wake ||| (1 <<< src), idleTicks := 0, resTicks := 0
        pd1Alone := false, l12Late := false, ckptDone := false }
      wd := t.wd.fresh }
    (t.refreshDoms s).ltrUpdate

/-- Recompute the target after a change of one of its inputs: a target shallower than the present level wakes the
device (R502); and report the latency (R510). -/
def State.retarget (s : State) : State :=
  if s.target < s.power.level then s.wake 4 else s.ltrUpdate

end Sys2Proof.Machine
end

