-- ==== Sys2Proof/Machine/NvmOps.lean ====
section
/-!
DEFINITION. Chapters 3 and 4, the shared part: banks, planes and the block map, the prefetch buffer, reading a code
word with its ECC outcome, scrub-due marking, programming and erasing, and the queue of operations.
-/

namespace Sys2Proof.Machine

/-! ## Geometry (R52, R57) -/

/-- Physical blocks of a bank or plane. -/
def nvmPhys (b : Nat) : Nat := if b < 64 then 128 else 64
/-- Logical blocks of a bank or plane. -/
def nvmLogical (b : Nat) : Nat := if b < 64 then 126 else 62

/-- Key of a block of a bank. -/
def blockKey (b p : Nat) : Nat := b * 128 + p
/-- Key of a code word. -/
def wordKey (b p w : Nat) : Nat := 1024 * (128 * b + p) + w

/-- The physical block that holds a logical block. -/
def Nvm.physOf (v : Nvm) (b l : Nat) : Nat :=
  match Table.get 0 v.map (blockKey b l) with
  | 0 => l
  | n + 1 => n

/-- The logical block that a physical block holds, if any. -/
def Nvm.logicalOf (v : Nvm) (b p : Nat) : Option Nat := lowest (fun l => v.physOf b l == p) (nvmLogical b)

/-- Map a logical block. -/
def Nvm.remap (v : Nvm) (b l p : Nat) : Nvm :=
  { v with map := Table.set 0 v.map (blockKey b l) (if p = l then 0 else p + 1) }

/-- The generation of a logical block (R54). -/
def Nvm.gen (v : Nvm) (b l : Nat) : BitVec 16 := Table.get 0 v.gens (blockKey b l)

/-- A stored code word by its logical place. -/
def Nvm.word (v : Nvm) (b l w : Nat) : NvmWord := Table.get {} v.words (wordKey b (v.physOf b l) w)

/-- A physical block's record. -/
def Nvm.block (v : Nvm) (b p : Nat) : NvmBlock := Table.get {} v.blocks (blockKey b p)

/-- Change a physical block's record. -/
def State.updBlock (s : State) (b p : Nat) (f : NvmBlock → NvmBlock) : State :=
  { s with nvm := { s.nvm with blocks := Table.upd {} s.nvm.blocks (blockKey b p) f } }

/-- Readings of a written flag (R55). -/
inductive Flag where
  | erased | partly | written
  deriving DecidableEq, Repr

/-- The flag that a number of programmed cells reads as (R55). -/
def flagOf (cells : Nat) : Flag := if cells ≤ 3 then .erased else if cells = 4 then .partly else .written

/-- The flag's code in a report byte (Table 4-4). -/
def Flag.code : Flag → Nat
  | .erased => 0
  | .partly => 1
  | .written => 2

/-- Every code word of a physical block is the erased word. -/
def Nvm.blockErased (v : Nvm) (b p : Nat) : Bool :=
  !(v.words.any fun x => x.1 / 1024 == blockKey b p && decide (flagOf x.2.flag ≠ .erased))

/-- A physical block is a spare: no logical block maps to it and it waits for no erase (R57, R79). -/
def Nvm.isSpare (v : Nvm) (b p : Nat) : Bool := (v.logicalOf b p).isNone && !(v.block b p).stale

/-- The erased spares of a bank. -/
def Nvm.erasedSpares (v : Nvm) (b : Nat) : List Nat :=
  (List.range (nvmPhys b)).filter fun p => v.isSpare b p && v.blockErased b p

/-! ## States of a bank (Table 3-5, R65, R114) -/

/-- The operation that runs on a bank. -/
def Nvm.running (v : Nvm) (b : Nat) : Option NvmOp := v.ops.find? fun o => o.bank == b && o.running

/-- An operation runs on a bank. -/
def Nvm.atWork (v : Nvm) (b : Nat) : Bool := v.ops.any fun o => o.bank == b && o.running

/-- The next bank in turn that has work and does not charge: ascending after the last grant, going round (R101). -/
def Nvm.waitsCharge (v : Nvm) : Option Nat :=
  ((List.range 66).map fun i => (v.lastCharge + 1 + i) % 66).find? fun b => v.atWork b && !v.charging.contains b

/-- Grant charge in turn while fewer than max_parallel banks and planes charge (R101). -/
def Nvm.grantCharge (v : Nvm) : Nat → Nvm
  | 0 => v
  | n + 1 =>
    if v.maxPar.toNat ≤ v.charging.length then v
    else
      match v.waitsCharge with
      | none => v
      | some b => ({ v with charging := v.charging ++ [b], lastCharge := b }).grantCharge n

/-- Charge after a change of the operations: banks without work hold none, and what is free is granted (R101). -/
def Nvm.recount (v : Nvm) : Nvm := ({ v with charging := v.charging.filter v.atWork }).grantCharge 16

/-- The code word or pulse of a bank that charges ends, and its turn with it (R101); none while the bank waits. A step that
touches the active plane empties the branch cache (R63). -/
def State.unitEnds (s : State) (b : Nat) : Option State :=
  let v := s.nvm.recount
  if v.charging.contains b then
    some { s with nvm := { v with
      charging := v.charging.filter fun x => x != b
      branch := if b = 64 + s.fw.running then [] else v.branch } }
  else none

/-- An operation runs on a bank: it is in PROGRAM, ERASE or RELOCATE. -/
def Nvm.busy (v : Nvm) (b : Nat) : Bool := (v.running b).isSome

/-- Code words of a logical block that a relocation programs (R76). -/
def Nvm.copyCount (v : Nvm) (b l : Nat) : Nat :=
  ((List.range 1024).filter fun w => decide (flagOf (v.word b l w).flag ≠ .erased)).length

/-- Progress of a running operation in percent (R65, R97). -/
def Nvm.progress (v : Nvm) (o : NvmOp) : Nat :=
  if o.erasing then o.done * 100 / 16
  else
    match o.act with
    | .program _ _ n _ => o.done * 100 / n
    | .erase _ => o.done * 100 / 16
    | .erasePhys _ => o.done * 100 / 16
    | .relocate l => o.done * 100 / (v.copyCount o.bank l)

/-- The logical block and code word that a program of words from (`l`, `first`) on reaches after `n` words. -/
def wordAt (l first n : Nat) : Nat × Nat := (l + (first + n) / 1024, (first + n) % 1024)

/-- The operation code of a running operation (Table 3-6). -/
def NvmOp.code (o : NvmOp) : Nat :=
  match o.act with
  | .program _ _ _ _ => 1
  | .erase _ => 2
  | .erasePhys _ => 2
  | .relocate _ => 3

/-- The status word of a busy bank (R65). -/
def Nvm.statusWord (v : Nvm) (o : NvmOp) : Nat := 0xB51E0000 + o.code * 256 + v.progress o

/-- The state of a bank or plane as NVM_STATUS reports it (R114): 0 GATED, 1 READY, 2 PROGRAM, 3 ERASE, 4 RELOCATE. -/
def State.bankState (s : State) (b : Nat) : Nat :=
  match s.nvm.running b with
  | some o => o.code + 1
  | none => if s.domState (if bankInPd4 b then 4 else 3) = 3 then 0 else 1

/-! ## Scrub-due marking and row reads (R60, R72, R74) -/

/-- A block becomes scrub-due (R74): `why` is 0 for the read count, 1 for corrections. -/
def State.markDue (s : State) (b p why : Nat) : State :=
  if (s.nvm.block b p).due then s
  else
    let l := (s.nvm.logicalOf b p).getD 0x7F
    (s.updBlock b p fun x => { x with due := true }).logEvent 0x21 devByte
      [BitVec.ofNat 8 b, BitVec.ofNat 8 l, BitVec.ofNat 8 why] [.dev Trb.scrubDue.bit]

/-- The read-disturb count of a block, in units of 65,536 row reads (R72). -/
def NvmBlock.units (x : NvmBlock) : Nat := satNat 0xFFFFFF (x.rows / 65536)

/-- Count `n` row reads of a physical block (R72), and mark the block when its count has reached `rd_limit` (R74). A limit that is
lowered to a held count or below acts at the block's next counted read (log entry 135). -/
def State.countReads (s : State) (b p n : Nat) : State :=
  if n = 0 then s
  else
    let t := (s.updBlock b p fun x => { x with rows := x.rows + n }).perfAdd 35 n
    if (t.nvm.block b p).units ≥ s.nvm.rdLimit.toNat then t.markDue b p 0 else t

/-- Count one row read of a logical row (R72). -/
def State.countRow (s : State) (b row : Nat) : State := s.countReads b (s.nvm.physOf b (row / 64)) 1

/-- Rows that a delivery of a row leaves at the front of the prefetch buffer (R60). -/
def aheadRows (b row : Nat) : List Nat :=
  ([row, row + 1, row + 2, row + 3]).filter fun r => decide (r < nvmLogical b * 64)

/-- Deliver a row: the rows of the read and of the read-ahead that the buffer lacks are row reads (R60, R72). -/
def State.readRow (s : State) (b row : Nat) : State :=
  let buf := Table.get [] s.nvm.prefetch b
  let want := aheadRows b row
  let t := (want.filter fun r => !buf.contains r).foldl (fun (t : State) r => t.countRow b r) s
  { t with nvm := { t.nvm with
    prefetch := Table.set [] t.nvm.prefetch b ((want ++ buf.filter fun r => !want.contains r).take 4) } }

/-- A row read that the prefetch buffer does not serve, with no read-ahead: flag scans, patrol and scrub reads. -/
def State.scanRow (s : State) (b row : Nat) : State := s.countRow b row

/-! ## Reading a code word (R56, R69, R70) -/

/-- What a read of a code word yields. -/
structure WordRead where
  data : Bytes
  flag : Flag
  /-- Bits corrected; 0 for an erased or uncorrectable word. -/
  corrected : Nat
  uncorr : Bool
  deriving DecidableEq, Repr

/-- The outcome of reading a stored word: erased words give 0xFF bytes, up to 12 errors are corrected, more are
detected (R54, R56). The data of an uncorrectable word, as read, is open (log entry 6). -/
def NvmWord.read (w : NvmWord) (fresh : Nat) : WordRead :=
  let f := flagOf w.flag
  if f = .erased then { data := List.replicate 256 0xFF, flag := f, corrected := 0, uncorr := false }
  else if w.errs ≤ 12 then { data := w.data, flag := f, corrected := w.errs, uncorr := false }
  else { data := (List.range 256).map (Config.freeByte fresh), flag := f, corrected := 0, uncorr := true }

/-- Count an ECC outcome and mark the block (R69, R70, R74). -/
def State.eccOutcome (s : State) (b l w : Nat) (r : WordRead) : State :=
  if r.uncorr then
    ({ s with nvm := { s.nvm with uncorrCnt := satInc s.nvm.uncorrCnt 1 } }).logEvent 0x20 devByte
      ([BitVec.ofNat 8 b, BitVec.ofNat 8 l] ++ leBytes 2 w) [.dev Trb.nvmUncorr.bit]
  else if r.corrected = 0 then s
  else
    let t := { s with nvm := { s.nvm with eccCnt := satInc s.nvm.eccCnt 1 } }
    if r.corrected > s.nvm.eccLimit.toNat then t.markDue b (s.nvm.physOf b l) 1 else t

/-- Read one code word, its row having been delivered. -/
def State.readWord (s : State) (b l w : Nat) : State × WordRead :=
  let r := (s.nvm.word b l w).read s.fresh
  ((if r.uncorr then s.tick else s).eccOutcome b l w r, r)

/-- Read `n` code words of a block from `w` on, row by row. -/
def State.readWords (s : State) (b l w : Nat) : Nat → State × List WordRead
  | 0 => (s, [])
  | n + 1 =>
    let s1 := s.readRow b (l * 64 + w / 16)
    let (s2, r) := s1.readWord b l w
    let (s3, rs) := s2.readWords b l (w + 1) n
    (s3, r :: rs)

/-- Each stored code word of a bank or plane that lies in a part of its logical space is read, and meets its ECC outcome
(R69, R70). -/
def State.readStored (s : State) (part : Nat → Nat → Nat → Bool) : State :=
  s.nvm.words.foldl (fun (t : State) x =>
    let b := x.1 / 131072
    match s.nvm.logicalOf b (x.1 / 1024 % 128) with
    | none => t
    | some l => if part b l (x.1 % 1024) then (t.readWord b l (x.1 % 1024)).1 else t) s

/-- The rows of a slot's first `len` bytes are read once each (R72). -/
def State.slotRows (s : State) (b len : Nat) : State :=
  (List.range 48).foldl (fun (t : State) l => t.countReads b (s.nvm.physOf b l) (min 64 ((len + 4095) / 4096 - 64 * l))) s

/-- The data of a code word as the firmware and the boot ROM see it: none when it is not written or uncorrectable. -/
def Nvm.goodWord (v : Nvm) (b l w : Nat) : Option Bytes :=
  let x := v.word b l w
  if flagOf x.flag = .written ∧ x.errs ≤ 12 then some x.data else none

/-- The data of a code word by logical place; 0xFF where it is erased. -/
def Nvm.rawWord (v : Nvm) (b l w : Nat) : Bytes :=
  let x := v.word b l w
  if flagOf x.flag = .erased then List.replicate 256 0xFF else x.data

/-- Bytes of a bank's logical space from offset `o` on, as stored. -/
def Nvm.logicalByte (v : Nvm) (b o : Nat) : Byte := (v.rawWord b (o / 262144) (o % 262144 / 256)).getD (o % 256) 0xFF

/-- A byte range of a bank's logical space, as stored. -/
def Nvm.logicalBytes (v : Nvm) (b o len : Nat) : Bytes := (List.range len).map fun i => v.logicalByte b (o + i)

/-! ## Programming and erasing (R84, R94, R98, R99) -/

/-- Charge one code word: eight flag cells, then data, spare and parity (R84, R94). How many bits of it later read wrong is
the silicon's: a free value, at most 16 (R54, R87, log entry 6). -/
def State.charge (s : State) (b p l w : Nat) (gen : BitVec 16) (moved : Bool) (data : Bytes) : State :=
  let x : NvmWord := { NvmWord.made b l w gen moved data with errs := Config.freeNat s.fresh % 17 }
  { s.tick with nvm := { s.nvm with words := Table.set {} s.nvm.words (wordKey b p w) x } }

/-- A code word that power or VPP_NVM left while it was charged: anything (R112, R91). -/
def garbledWord (fresh i : Nat) : NvmWord :=
  let c (j : Nat) : Nat := (Config.freeByte fresh (i * 512 + j)).toNat
  { flag := c 0 % 9, moved := decide (c 1 % 2 = 1), gen := BitVec.ofNat 16 (c 2 + 256 * c 3), lblock := c 4 % 128
    lword := c 5 + 256 * (c 6 % 4), errs := c 7 % 17, data := (List.range 256).map fun j => BitVec.ofNat 8 (c (8 + j))
    bank := c 264 % 64, code := decide (c 265 % 2 = 1), originRsv := c 266, kindRsv := c 267 % 128
    rsv := BitVec.ofNat 32 (leAt ((List.range 4).map fun j => BitVec.ofNat 8 (c (268 + j))) 0 4)
    parity := BitVec.ofNat 168 (leAt ((List.range 21).map fun j => BitVec.ofNat 8 (c (272 + j))) 0 21) }

/-- Leave one code word indeterminate. -/
def State.garble (s : State) (b p w : Nat) : State :=
  { s.tick with nvm := { s.nvm with words := Table.set {} s.nvm.words (wordKey b p w) (garbledWord s.fresh 0) } }

/-- Every code word of a block is indeterminate (R99, R112); so is its block-complete flag. -/
def State.garbleBlock (s : State) (b p : Nat) : State :=
  let v := s.nvm
  let words := (List.range 1024).foldl
    (fun t w => Table.set {} t (wordKey b p w) (garbledWord s.fresh w)) v.words
  ({ s.tick with nvm := { v with words := words } }).updBlock b p fun x =>
    { x with complete := (Config.freeByte s.fresh (1024 * 512)).toNat % 9 }

/-- A block erased with success (R98). -/
def State.eraseOk (s : State) (b p : Nat) : State :=
  ({ s with nvm := { s.nvm with words := clearRange s.nvm.words (wordKey b p 0) (wordKey b p 1024) } }).updBlock b p
    fun x => { rows := 0, erases := satInc x.erases 1, due := false, complete := 0, stale := false }

/-- An erase whose check failed after 16 pulses (R99): its pulses count, its contents are indeterminate. -/
def State.eraseBad (s : State) (b p : Nat) : State :=
  ((s.updBlock b p fun x => { x with erases := satInc x.erases 1 }).garbleBlock b p).logEvent 0x22 devByte
    [BitVec.ofNat 8 b, BitVec.ofNat 8 p] [.dev Trb.eraseFail.bit]

/-! ## The queue (R100) -/

/-- Queue an operation behind the earlier ones. -/
def State.queueOp (s : State) (o : NvmOp) : State := { s with nvm := { s.nvm with ops := s.nvm.ops ++ [o] } }

/-- Take the running operation of a bank out of the queue. -/
def Nvm.dropRunning (v : Nvm) (b : Nat) : Nvm := { v with ops := v.ops.filter fun o => !(o.bank == b && o.running) }

/-- Replace the running operation of a bank. -/
def Nvm.setRunning (v : Nvm) (b : Nat) (f : NvmOp → NvmOp) : Nvm :=
  { v with ops := v.ops.map fun o => if o.bank = b ∧ o.running then f o else o }

/-- A command's plan. -/
def Nvm.plan (v : Nvm) (t : Nat) : NvmPlan := Table.get {} v.plans t

/-- A host-commanded operation runs or is queued on a bank (R102, R107). -/
def Nvm.hostOp (v : Nvm) (b : Nat) : Bool :=
  v.ops.any fun o => o.bank == b && (match o.owner with
    | .cmd _ => true
    | .orphan => true
    | _ => false)

/-- Only a program can be stopped after its code word (R103). -/
def NvmAct.stopWith (a : NvmAct) (status : BitVec 16) : Option (BitVec 16) :=
  match a with
  | .program _ _ _ _ => some status
  | _ => none

/-- Commands whose tickets satisfy `p` no longer wait for the store (R103, R104): their queued operations go, a
running program ends after its code word in progress, a running erase or relocation runs to its end. -/
def Nvm.orphan (v : Nvm) (p : Nat → Bool) : Nvm :=
  let mine (o : NvmOp) : Bool := match o.owner with
    | .cmd t => p t
    | _ => false
  let keep := v.ops.filter fun o => !(mine o && !o.running)
  { v with
    ops := keep.map fun o => if mine o then { o with owner := .orphan, stop := o.act.stopWith St.abortedByReset } else o
    plans := v.plans.filter fun x => !p x.1 }

/-- A running operation is charging a code word: its bank's turn has come, and the word's source bytes are staged (R94, R101). -/
def Nvm.midWord (v : Nvm) (o : NvmOp) : Bool := o.running && v.charging.contains o.bank && !o.staged.isEmpty

/-- A relocation stops while it copies: a spare that holds anything waits for an erase (R78). -/
def State.leaveSpare (s : State) (o : NvmOp) (mid : Bool) : State :=
  s.updBlock o.bank o.spare fun x => { x with stale := x.stale || mid || decide (0 < o.done) }

/-- What a reset of class W, E or S finds when every engine has stopped (R104): a code word that a program was charging is
fully programmed, one that waited for its turn is untouched; an erase has run to its end, and whether its check passed is the
silicon's. -/
def State.finishOp (s : State) (o : NvmOp) : State :=
  if !o.running then s
  else
    let mid := s.nvm.midWord o
    let pulses (s : State) (p : Nat) : State :=
      if Config.freeBit s.fresh then s.tick.eraseOk o.bank p else s.tick.eraseBad o.bank p
    match o.act with
    | .program l first _ _ =>
      let p := wordAt l first o.done
      if mid then s.charge o.bank (s.nvm.physOf o.bank p.1) p.1 p.2 (s.nvm.gen o.bank p.1) false o.staged else s
    | .erase l => pulses s (s.nvm.physOf o.bank l)
    | .erasePhys p => pulses s p
    | .relocate l =>
      if o.erasing then pulses s o.spare
      else
        (if mid then s.charge o.bank o.spare l o.word (s.nvm.gen o.bank l + 1) true o.staged else s).leaveSpare o mid

/-- What a loss of power leaves of a running operation: the code word that was being charged, or the block that was being erased,
is indeterminate (R112, R91). -/
def State.cutOp (s : State) (o : NvmOp) : State :=
  if !o.running then s
  else
    let mid := s.nvm.midWord o
    match o.act with
    | .program l first _ _ =>
      let p := wordAt l first o.done
      if mid then s.garble o.bank (s.nvm.physOf o.bank p.1) p.2 else s
    | .erase l => s.garbleBlock o.bank (s.nvm.physOf o.bank l)
    | .erasePhys p => s.garbleBlock o.bank p
    | .relocate _ =>
      if o.erasing then s.garbleBlock o.bank o.spare
      else (if mid then s.garble o.bank o.spare o.word else s).leaveSpare o mid

/-- Apply an operation's end to every operation of the queue. -/
def State.forOps (s : State) (f : State → NvmOp → State) : State := s.nvm.ops.foldl f s

end Sys2Proof.Machine
end

