-- ==== Sys2Proof/Machine/Directory.lean ====
section
/-!
DEFINITION. The pattern directory as the planes hold it (R221, R222, R227, R229): slots, handles, owners, the banks that a pattern
uses, and the banks that a bind reserves from its acceptance on (R105).
-/

namespace Sys2Proof.Machine

/-! ## Slots (R221, R227) -/

/-- The logical block of a plane that holds a directory slot. -/
def slotBlock (i : Nat) : Nat := 50 + i / 32

/-- A slot's first code word in its block. -/
def slotFirst (i : Nat) : Nat := i % 32 * 32

/-- A plane's copy of a slot: bytes 0 to 7,935, when every code word but the tombstone reads good and the CRC is right. -/
def Nvm.slotCopy (v : Nvm) (plane i : Nat) : Option Bytes :=
  match (List.range 31).mapM fun w => v.goodWord (64 + plane) (slotBlock i) (slotFirst i + w) with
  | none => none
  | some l =>
    let b := l.flatten
    if leAt b 7932 4 = (crc32 (b.take 7932)).toNat then some b else none

/-- A slot's tombstone reads written or partial in a plane. -/
def Nvm.tombed (v : Nvm) (plane i : Nat) : Bool :=
  decide (flagOf (v.word (64 + plane) (slotBlock i) (slotFirst i + 31)).flag ≠ .erased)

/-- The commit sequence of a slot's bytes. -/
def slotCommit (b : Bytes) : Word := BitVec.ofNat 32 (leAt b 64 4)

/-- The copy of a slot that counts, whatever its tombstones say: of two good ones the later commit sequence, or the
active plane's (R227). -/
def Nvm.slotBest (v : Nvm) (active i : Nat) : Option Bytes :=
  match v.slotCopy active i, v.slotCopy (1 - active) i with
  | some a, some b => if seqLater (slotCommit b) (slotCommit a) then some b else some a
  | some a, none => some a
  | none, x => x

/-- The installed pattern of a slot, as its bytes; none for a free slot (R227). -/
def Nvm.slotTaken (v : Nvm) (active i : Nat) : Option Bytes :=
  if v.tombed 0 i ∨ v.tombed 1 i then none else v.slotBest active i

/-- Every code word of a slot reads erased in both copies (R671). -/
def Nvm.slotClean (v : Nvm) (i : Nat) : Bool :=
  [64, 65].all fun b => (List.range 32).all fun w =>
    decide (flagOf (v.word b (slotBlock i) (slotFirst i + w)).flag = .erased)

/-- The installed patterns, by slot. -/
def State.patterns (s : State) : List (Nat × Bytes) :=
  (List.range 256).filterMap fun i => (s.nvm.slotTaken s.fw.running i).map fun b => (i, b)

/-! ## The bytes of a slot (Table 8-10) -/

namespace Pattern
/-- The 64-bit pattern identifier. -/
def id (b : Bytes) : Nat := leAt b 8 8
/-- flags[0]: any function may bind. -/
def shared (b : Bytes) : Bool := leAt b 6 1 % 2 == 1
/-- Pieces. -/
def pieceCount (b : Bytes) : Nat := leAt b 20 2
/-- Stages. -/
def stageCount (b : Bytes) : Nat := leAt b 22 1
/-- Dynamic dimensions. -/
def dynCount (b : Bytes) : Nat := leAt b 23 1
/-- The installing function. -/
def installer (b : Bytes) : Nat := leAt b 68 1 % 64
/-- The handle (R222). -/
def handle (b : Bytes) : Word := BitVec.ofNat 32 (leAt b 72 4)
/-- Placement-map entry of a bank: first block, block count, data code words, CRC (R223). -/
def mapWord (b : Bytes) (bank : Nat) : Nat := leAt b (128 + 8 * bank) 4
/-- First logical block of the extent in a bank. -/
def first (b : Bytes) (bank : Nat) : Nat := mapWord b bank % 128
/-- Blocks of the extent in a bank; 0 where the pattern does not use it. -/
def blocks (b : Bytes) (bank : Nat) : Nat := mapWord b bank / 128 % 128
/-- Data code words of the extent in a bank. -/
def words (b : Bytes) (bank : Nat) : Nat := mapWord b bank / 16384
/-- The banks in which the pattern has an extent. -/
def banks (b : Bytes) : List Nat := (List.range 64).filter fun n => blocks b n != 0
end Pattern

/-! ## Handles and owners (R222, R229) -/

/-- The slot that a handle names, when it holds an installed pattern of that handle. -/
def State.patternOf (s : State) (h : Word) : Option (Nat × Bytes) :=
  let i := bitsOf h 7 0
  match s.nvm.slotTaken s.fw.running i with
  | none => none
  | some b => if Pattern.handle b = h then some (i, b) else none

/-- The owner of a slot's pattern: a VF, or the PF (R229). -/
def State.owner (s : State) (slot : Nat) : Nat := Table.get 0 s.owners slot

/-- A function may bind a pattern (R229). -/
def State.mayBind (s : State) (f slot : Nat) (b : Bytes) : Bool := Pattern.shared b || f == 0 || f == s.owner slot

/-- A binding's pattern. -/
def State.bindPattern (s : State) (b : Binding) : Bytes :=
  match s.patternOf b.pattern with
  | some (_, x) => x
  | none => []

/-- A pattern holds a binding. -/
def State.isBound (s : State) (h : Word) : Bool := s.binds.any fun p => p.2.live && p.2.pattern == h

/-! ## Reservation (R105, R106) -/

/-- A PATTERN_BIND that has been accepted and not yet decided needs a bank: the bank is reserved from its acceptance on (R105). -/
def State.bindNeeds (s : State) (c : Cmd) (b : Nat) : Bool :=
  Entry.opcode c.entry == 0x12 && !bitOf (Entry.dw c.entry 2) 31 && (decide (c.phase = .held) || decide (c.phase = .ready))
    && (match s.patternOf (Entry.handle c.entry) with
      | some (_, p) => Pattern.blocks p b != 0
      | none => false)

/-- A bank is reserved: by a binding, or by a bind that has been accepted (R105). -/
def State.bankReserved (s : State) (b : Nat) : Bool := s.reserved b || s.cmds.any fun p => s.bindNeeds p.2 b

/-- A bank is reserved for a command: by a binding, or by a bind that was accepted before it (R105, R106). -/
def State.reservedFor (s : State) (c : Cmd) (b : Nat) : Bool :=
  s.reserved b || s.cmds.any fun p => decide (p.2.order < c.order) && s.bindNeeds p.2 b

end Sys2Proof.Machine
end

