-- ==== Sys2Proof/Machine/Checks.lean ====
section
/-!
DEFINITION. The checks that are made of every entry when it is accepted (R391 item 3, R415): each opcode's own parameters, the
object that it names, and the ranges that it names as one range reference. What a command reads to be checked (a buffer table, a
package, descriptors, a region) is read by the command's own step.
-/

namespace Sys2Proof.Machine

/-! ## Weight-store ranges (R92, R434, R437) -/

/-- Block, first word and count of DW2. -/
def nvmRange (e : Entry) : Nat × Nat × Nat :=
  (bitsOf (Entry.dw e 2) 6 0, bitsOf (Entry.dw e 2) 16 7, bitsOf (Entry.dw e 2) 27 17)

/-- Bank, block, word and count lie in range (R434, Table 4-1). -/
def nvmRangeOk (bank l w n : Nat) : Bool :=
  decide (bank < 66) && decide (l < nvmLogical bank) && decide (1 ≤ n) && decide (w + n ≤ 1024)

/-- Check 3 of Table 4-1 for NVM_PROGRAM. -/
def nvmProgramOk (e : Entry) : Bool :=
  decide ((Entry.handle e).toNat < 64)
    && nvmRangeOk (Entry.handle e).toNat (nvmRange e).1 (nvmRange e).2.1 (nvmRange e).2.2
    && bitsOf (Entry.dw e 2) 31 28 == 0 && Entry.zeros e [5, 6, 7, 8, 9, 10, 11, 12, 13, 14, 15]

/-- Check 3 of Table 4-1 for NVM_ERASE. -/
def nvmEraseOk (e : Entry) : Bool :=
  decide ((Entry.handle e).toNat < 64) && decide ((Entry.dw e 2).toNat < 126)
    && Entry.zeros e [3, 4, 5, 6, 7, 8, 9, 10, 11, 12, 13, 14, 15]

/-- The parameters of NVM_SCRUB are in range: a bank, and a block of it or the mode that takes every scrub-due one (R437). -/
def scrubOk (e : Entry) : Bool :=
  decide ((Entry.handle e).toNat < 66) && decide (bitsOf (Entry.dw e 2) 31 8 = 0)
    && (if bitOf (Entry.dw e 2) 7 then bitsOf (Entry.dw e 2) 6 0 == 0 else decide (bitsOf (Entry.dw e 2) 6 0 < nvmLogical (Entry.handle e).toNat))
    && Entry.zeros e [3, 4, 5, 6, 7, 8, 9, 10, 11, 12, 13, 14, 15]

/-- The parameters of NVM_READ are in range, its output large enough (R111, R434). -/
def nvmReadOk (e : Entry) : Bool :=
  let n := (nvmRange e).2.2
  nvmRangeOk (Entry.handle e).toNat (nvmRange e).1 (nvmRange e).2.1 n && bitsOf (Entry.dw e 2) 31 28 == 0
    && bitsOf (Entry.dw e 3) 31 1 == 0 && decide (n * 256 + (if bitOf (Entry.dw e 3) 0 then n else 0) ≤ (Entry.dw e 6).toNat)
    && Entry.zeros e [7, 8, 9, 10, 11, 12, 13, 14, 15]

/-- The parameters of NVM_STATUS are in range; DW2 and DW3 must be zero where DW4[0] does not enable them (R436, log entry 138). -/
def nvmStatusOk (e : Entry) : Bool :=
  decide ((Entry.handle e).toNat < 66) && bitsOf (Entry.dw e 4) 31 1 == 0 && (bitOf (Entry.dw e 4) 0 || Entry.zeros e [2, 3])
    && Entry.zeros e [5, 6, 7, 8, 9, 10, 11, 12, 13, 14, 15]

/-! ## Light descriptors (R239, R412) -/

/-- A light descriptor: its block, and its inline count. -/
structure LightRef where
  block : Block
  inl : Nat
  deriving DecidableEq, Repr

/-- Decode a light descriptor; none where a reserved field is not zero, or a window is named outside spaces 0 and 1. -/
def lightRef (lo hi : Word) : Option LightRef :=
  let sp := bitsOf hi 13 12
  let n := bitsOf hi 21 14 + 1
  if bitsOf hi 31 28 ≠ 0 ∨ (2 ≤ sp ∧ bitsOf hi 11 8 ≠ 0) then none
  else
    some { block := { base := lo.toNat + 2 ^ 32 * bitsOf hi 7 0, rowBytes := n, rows := 1, pitch := n, space := sp, win := bitsOf hi 11 8 }
           inl := bitsOf hi 27 22 }

/-- What a LIGHT command names: the output, and the input as a block or as bytes. -/
structure LightArgs where
  out : Block
  inp : Option Block
  bytes : Bytes
  deriving DecidableEq, Repr

/-- Bytes 0 to 47 of DW4 to DW15. -/
def inlineBytes (e : Entry) : Bytes := (List.range 12).flatMap fun i => leBytes 4 (Entry.dw e (4 + i)).toNat

/-- The buffers of a LIGHT entry; none where the entry is malformed. -/
def lightArgs (e : Entry) : Option LightArgs :=
  match lightRef (Entry.dw e 2) (Entry.dw e 3) with
  | none => none
  | some o =>
    if o.inl = 0 then
      match lightRef (Entry.dw e 4) (Entry.dw e 5) with
      | none => none
      | some i =>
        if i.inl ≠ 0 ∨ !Entry.zeros e [6, 7, 8, 9, 10, 11, 12, 13, 14, 15] then none
        else some { out := o.block, inp := some i.block, bytes := [] }
    else if 48 < o.inl then none
    else if ((inlineBytes e).drop o.inl).any fun b => b != 0 then none
    else some { out := o.block, inp := none, bytes := (inlineBytes e).take o.inl }

/-! ## Patterns, runs, adapters -/

/-- DW2 of a bind: counts of at most 16, nothing else. -/
def bindDwOk (d : Word) : Bool :=
  decide (bitsOf d 4 0 ≤ 16) && decide (bitsOf d 12 8 ≤ 16) && bitsOf d 7 5 == 0 && bitsOf d 31 13 == 0

/-- DW2 of a pattern-running command: fault mode and buffer count, nothing else. -/
def runDw2Ok (d : Word) : Bool := bitsOf d 3 1 == 0 && bitsOf d 31 9 == 0 && decide (bitsOf d 8 4 ≤ 16)

/-- The action of an entry (Table 23-3). -/
def adaptAction (e : Entry) : Nat := bitsOf (Entry.dw e 14) 3 0

/-- The dwords that ATTACH and DETACH leave zero. -/
def attachZeros (e : Entry) : Bool :=
  bitsOf (Entry.dw e 2) 3 0 == 0 && bitsOf (Entry.dw e 2) 31 9 == 0 && bitsOf (Entry.dw e 14) 31 6 == 0
    && Entry.zeros e [6, 7, 8, 9, 10, 11, 12, 13, 15]

/-- The reserved fields of a TRAIN entry; an action above 2 is reserved (Table 23-3). -/
def trainDwOk (e : Entry) : Bool :=
  adaptAction e == 0 && bitsOf (Entry.dw e 2) 3 2 == 0 && bitsOf (Entry.dw e 2) 31 9 == 0 && decide (bitsOf (Entry.dw e 2) 8 4 ≤ 16)
    && bitsOf (Entry.dw e 14) 31 6 == 0 && Entry.zeros e [8, 9] && rangeRefOk (Entry.dw e 7)

/-! ## Captured data types (Table 13-1) -/

/-- Stored bytes per pixel of a data type that a receiver captures. -/
def csiPixel (dtype : Nat) : Option Nat :=
  if dtype = 0x2A then some 1 else if dtype ∈ [0x2B, 0x2C, 0x1E] then some 2 else if dtype = 0x24 then some 3 else none

/-- Stored bytes of a slot's line. -/
def Slot.rowBytes (sl : Slot) : Nat := sl.width * (csiPixel sl.dtype).getD 1
/-- The line pitch of a slot's capture buffers. -/
def Slot.pitch (sl : Slot) : Nat := roundUp sl.rowBytes 64
/-- Bytes of one capture buffer. -/
def Slot.bufBytes (sl : Slot) : Nat := sl.height * sl.pitch

/-! ## STREAM_OPEN (R356, R429) -/

/-- The slot that an entry of STREAM_OPEN describes, for a function and a binding. -/
def openSlot (e : Entry) (f k : Nat) : Slot :=
  let d := Entry.dw e 2
  let w := Entry.dw e 3
  let ring := rangeRef (Entry.dw e 4) (Entry.dw e 5)
  let hold := rangeRef (Entry.dw e 6) (Entry.dw e 7)
  { isOpen := true, csi := bitOf d 0, fn := f, bind := k, receiver := bitsOf d 1 1, vc := bitsOf d 5 2, dtype := bitsOf d 13 8
    abort := bitOf d 14, lateDrop := bitOf d 15, nbuf := if bitOf d 0 then bitsOf d 18 16 + 1 else 0
    width := bitsOf w 13 0, height := bitsOf w 28 16, win := ring.win, off := ring.off
    hold := bitOf d 19 && bitOf d 15, holdWin := hold.win, holdOff := hold.off, holdLen := (Entry.dw e 8).toNat
    budget := (Entry.dw e 9).toNat }

/-- The fields of a CSI-2 slot lie in their ranges (Table 13-3). -/
def csiFieldsOk (e : Entry) (sl : Slot) : Bool :=
  (csiPixel sl.dtype).isSome && decide (2 ≤ sl.nbuf) && decide (1 ≤ sl.width) && decide (sl.width ≤ 8192) && decide (1 ≤ sl.height)
    && decide (sl.height ≤ 4352) && bitsOf (Entry.dw e 5) 31 14 == 0 && bitsOf (Entry.dw e 5) 13 12 == 1

/-- The fields that a PCIe-fed slot does not use are zero. -/
def pcieFieldsOk (e : Entry) : Bool :=
  bitsOf (Entry.dw e 2) 13 1 == 0 && bitsOf (Entry.dw e 2) 18 16 == 0 && Entry.zeros e [3, 4, 5]

/-- Every value of STREAM_OPEN lies in its range (R356, R429). -/
def openOk (e : Entry) (sl : Slot) : Bool :=
  bitsOf (Entry.dw e 2) 7 6 == 0 && bitsOf (Entry.dw e 2) 31 20 == 0 && bitsOf (Entry.dw e 3) 15 14 == 0
    && bitsOf (Entry.dw e 3) 31 29 == 0 && decide (1 ≤ sl.budget) && Entry.zeros e [10, 11, 12, 13, 14, 15]
    && (if sl.csi then csiFieldsOk e sl else pcieFieldsOk e)
    && (!bitOf (Entry.dw e 2) 19 || (bitsOf (Entry.dw e 7) 31 14 == 0 && bitsOf (Entry.dw e 7) 13 12 == 1))

/-- A range in a device window passes for reads and for writes. -/
def bothWays (hw : Table HWin) (dw : Table DWin) (win off len : Nat) : Bool :=
  let r : RangeRef := { off := off, win := win, space := 1 }
  (checkRange hw dw r len true).isSome && (checkRange hw dw r len false).isSome

/-- The capture ring and the hold buffer pass their windows (R309). -/
def Cmd.openRanges (c : Cmd) (sl : Slot) : Bool :=
  (!sl.csi || bothWays c.hwin c.dwin sl.win sl.off (sl.nbuf * sl.bufBytes))
    && (!bitOf (Entry.dw c.entry 2) 19 || bothWays c.hwin c.dwin sl.holdWin sl.holdOff sl.holdLen)

/-! ## Firmware and tenants -/

/-- The two forms of FW_COMMIT have well-formed parameters (R415). -/
def commitOk (e : Entry) : Bool :=
  decide (bitsOf (Entry.dw e 2) 31 1 = 0) && Entry.zeros e [1, 3, 4, 5, 6, 7, 8, 9, 10, 11, 12, 13, 14, 15]

/-- The parameters of FW_STAGE are in range: whole code words within the slot (R442). -/
def stageOk (e : Entry) : Bool :=
  let len := (Entry.dw e 5).toNat
  let off := (Entry.dw e 6).toNat
  bitsOf (Entry.dw e 2) 31 1 == 0 && len % 256 == 0 && off % 256 == 0 && decide (off + len ≤ 12582912)
    && Entry.zeros e [1, 7, 8, 9, 10, 11, 12, 13, 14, 15]

/-- The bytes of the counter block that COUNTERS_READ selects (R438). -/
def counterBytes (e : Entry) : Nat := if bitOf (Entry.dw e 2) 0 then 512 else 256

/-- The function that a TENANT_RESET entry names (R444). -/
def resetTarget (e : Entry) : Nat := bitsOf (Entry.dw e 2) 5 0

/-! ## The parameters of each opcode (R391, R415) -/

/-- A LIGHT COPY names no handle, and its inline bytes fill its destination (R412). -/
def lightCopyOk (e : Entry) : Bool :=
  match lightArgs e with
  | none => false
  | some a => Entry.handle e == 0 && (a.inp.isSome || a.bytes.length == a.out.rowBytes)

/-- The dwords from one number on are zero. -/
def Entry.zeroFrom (e : Entry) (n : Nat) : Bool := Entry.zeros e (List.range' n (16 - n))

/-- An entry's parameters: every field lies in its range, every reserved dword is zero (R415). -/
def Entry.paramsOk (e : Entry) : Bool :=
  let d := Entry.dw e
  match Entry.opcode e with
  | 0x00 => Entry.zeroFrom e 1
  | 0x01 => decide ((d 2).toNat ≤ 3) && Entry.zeroFrom e 3
  | 0x02 => Entry.zeros e [1] && Entry.zeroFrom e 3
  | 0x10 => bitsOf (d 7) 31 1 == 0 && Entry.zeros e [1] && Entry.zeroFrom e 8
  | 0x11 => Entry.zeroFrom e 2
  | 0x12 => if bitOf (d 2) 31 then bitsOf (d 2) 30 0 == 0 && Entry.zeroFrom e 3 else bindDwOk (d 2) && Entry.zeroFrom e 4
  | 0x13 => if Entry.light e then (lightArgs e).isSome else runDw2Ok (d 2) && Entry.zeros e [14, 15] && rangeRefOk (d 6)
  | 0x14 => runDw2Ok (d 2) && Entry.zeros e [14] && bitsOf (d 15) 31 6 == 0 && rangeRefOk (d 6)
  | 0x15 => if adaptAction e = 1 ∨ adaptAction e = 2 then attachZeros e else trainDwOk e
  | 0x16 => bitsOf (d 2) 31 8 == 0 && Entry.zeroFrom e 4
  | 0x20 => openOk e (openSlot e 0 0)
  | 0x21 => Entry.zeroFrom e 2
  | 0x22 => runDw2Ok (d 2) && !bitOf (d 2) 0 && Entry.zeros e [14, 15] && rangeRefOk (d 6)
  | 0x23 => if Entry.light e then lightCopyOk e
      else bitsOf (d 2) 31 1 == 0 && bitsOf (d 5) 31 13 == 0 && bitsOf (d 8) 31 13 == 0 && Entry.zeros e [1] && Entry.zeroFrom e 9
  | 0x30 => nvmReadOk e
  | 0x31 => nvmProgramOk e
  | 0x32 => nvmEraseOk e
  | 0x33 => nvmStatusOk e
  | 0x34 => scrubOk e
  | 0x40 => bitsOf (d 2) 31 2 == 0 && Entry.zeros e [1] && Entry.zeroFrom e 6 && decide (counterBytes e ≤ (d 5).toNat)
  | 0x41 => Entry.zeroFrom e 1
  | 0x42 => Entry.zeros e [1] && Entry.zeroFrom e 4
  | 0x43 => decide (1 ≤ bitsOf (d 3) 10 0) && decide (bitsOf (d 3) 10 0 ≤ 1024) && bitsOf (d 3) 31 11 == 0 && Entry.zeros e [1]
      && Entry.zeroFrom e 7
  | 0x50 => decide (4096 ≤ (d 4).toNat) && Entry.zeros e [1] && Entry.zeroFrom e 5
  | 0x51 => decide (bitsOf (d 2) 1 0 ≠ 3) && bitsOf (d 2) 31 2 == 0 && Entry.zeros e [1] && Entry.zeroFrom e 5
  | 0x52 => stageOk e
  | 0x53 => commitOk e
  | 0x60 => bitsOf (d 2) 31 6 == 0 && Entry.zeros e [1] && Entry.zeroFrom e 3
  | 0x61 => bitsOf (d 2) 31 2 == 0 && Entry.zeros e [1] && Entry.zeroFrom e 3
  | 0x62 => bitsOf (d 2) 31 8 == 0 && Entry.zeros e [1] && Entry.zeroFrom e 3
  | _ => false

/-! ## The objects that an entry names -/

/-- The handle of a binding. -/
def State.handleAt (s : State) (k : Nat) : Word := BitVec.ofNat 32 (k % 64 + 64 * ((s.bind k).count % 2 ^ 26))

/-- The live binding that a handle of a function names. A binding made for a lead chip has no handle here. -/
def State.byHandle (s : State) (f : Nat) (h : Word) : Option Nat :=
  let k := f * 64 + bitsOf h 5 0
  let b := s.bind k
  if b.live ∧ b.binder.isNone ∧ b.lead.isNone ∧ s.handleAt k = h then some k else none

/-- The slot that a command's DW1 names, open and of its function. -/
def State.slotOf (s : State) (c : Cmd) : Option Nat :=
  let i := bitsOf (Entry.handle c.entry) 3 0
  if bitsOf (Entry.handle c.entry) 31 4 = 0 ∧ (s.slot i).isOpen ∧ (s.slot i).fn = c.fn ∧ !(s.slot i).closing then some i else none

/-- The object that an entry names may be used by its function: a binding that is not released, a slot that is open, a pattern of
its own, a function, counters (R229, R356, R413, R422, R431, R438, R439, R444). -/
def State.nameOk (s : State) (c : Cmd) : Bool :=
  let e := c.entry
  let h := Entry.handle e
  let bound := match s.byHandle c.fn h with
    | some k => !(s.bind k).releasing
    | none => false
  let mine := match s.patternOf h with
    | some (i, b) => s.mayBind c.fn i b
    | none => false
  match Entry.opcode e with
  | 0x01 =>
    match (Entry.dw e 2).toNat with
    | 2 => (s.patternOf h).isSome
    | 3 => (s.byHandle c.fn h).isSome
    | _ => h == 0
  | 0x12 => if bitOf (Entry.dw e 2) 31 then bound else mine
  | 0x13 => bound
  | 0x14 => bound
  | 0x15 => bound
  | 0x20 => bound
  | 0x21 => (s.slotOf c).isSome
  | 0x22 => (s.slotOf c).isSome
  | 0x40 => !bitOf (Entry.dw e 2) 0 || c.fn == 0
  | 0x42 => c.fn == 0 || Entry.dw e 3 == 0
  | 0x60 => (c.fn == 0 || resetTarget e == c.fn) && s.fnExists (resetTarget e)
  | _ => true

/-! ## The ranges that an entry names (Table 11-4) -/

/-- The ranges that an entry names by one range reference and a length: dword, length, and whether the command writes it. -/
def Entry.ranges (e : Entry) : List (Nat × Nat × Bool) :=
  let len (i : Nat) : Nat := (Entry.dw e i).toNat
  match Entry.opcode e with
  | 0x10 => (2, len 4, false) :: if bitOf (Entry.dw e 7) 0 then [(5, 512, true)] else []
  | 0x30 => [(4, len 6, true)]
  | 0x33 => if bitOf (Entry.dw e 4) 0 then [(2, 8 * nvmPhys (Entry.handle e).toNat, true)] else []
  | 0x40 => [(3, len 5, true)]
  | 0x43 => [(4, len 6, true)]
  | 0x50 => [(2, len 4, true)]
  | 0x51 => [(3, 4096, false)]
  | 0x52 => [(3, len 5, false)]
  | _ => []

/-- The first range of an entry that fails its check. -/
def Cmd.rangeStatus (c : Cmd) : Option (BitVec 16) :=
  if Entry.opcode c.entry = 0x20 then (if c.openRanges (openSlot c.entry c.fn 0) then none else some St.windowFault)
  else
    (Entry.ranges c.entry).findSome? fun q =>
      match (if q.2.2 then c.output q.1 q.2.1 else c.input q.1 q.2.1) with
      | .error st => some st
      | .ok _ => none

/-! ## The checks in their order -/

/-- Checks 2 to 5 of Table 4-1, which are made when the command is accepted (R92): the status of the first that fails. -/
def State.nvmCheck (s : State) (c : Cmd) : Option (BitVec 16) :=
  let e := c.entry
  let o := Entry.opcode e
  if o ≠ 0x31 ∧ o ≠ 0x32 then none
  else if !s.nvm.unlocked then some St.nvmLocked
  else if !(if o = 0x31 then nvmProgramOk e else nvmEraseOk e) then some St.badParam
  else if s.reservedFor c (Entry.handle e).toNat then some St.bankReserved
  else if o = 0x32 then none
  else
    match c.input 3 (256 * (nvmRange e).2.2) with
    | .error st => some st
    | .ok _ => none

/-- The opcode's own checks at acceptance (R391 item 3): the status of the first that fails. -/
def State.ownCheck (s : State) (c : Cmd) : Option (BitVec 16) :=
  if Entry.opcode c.entry = 0x31 ∨ Entry.opcode c.entry = 0x32 then s.nvmCheck c
  else if !Entry.paramsOk c.entry ∨ !s.nameOk c then some St.badParam
  else c.rangeStatus

end Sys2Proof.Machine
end

