-- ==== Sys2Proof/Machine/FwOps.lean ====
section
/-!
DEFINITION. Chapter 21, the shared part: firmware images and their checks, slots and marks, the boot choice, and the
settings record with its two copies.
-/

namespace Sys2Proof.Machine

/-! ## Images (R555) -/

/-- The first 512 bytes of a slot: its image header (Table 21-2). -/
def Nvm.slotHead (v : Nvm) (slot : Nat) : Bytes := v.logicalBytes (64 + slot) 0 512

/-- image_len of a header. -/
def headLen (h : Bytes) : Nat := leAt h 16 4

/-- Every byte of a piece of a string is zero. -/
def zerosAt (h : Bytes) (o n : Nat) : Bool := ((h.drop o).take n).all fun b => b == 0

/-- The format check (R555). -/
def headFormat (h : Bytes) : Bool :=
  leAt h 0 4 == 0x46574B43 && leAt h 4 2 == 0x0100 && decide (headLen h % 256 = 0) && decide (512 ≤ headLen h)
    && decide (headLen h ≤ 12578816) && decide (leAt h 24 2 ≤ leAt h 22 2) && decide (leAt h 22 2 ≤ leAt h 20 2)
    && zerosAt h 6 2 && zerosAt h 26 38 && zerosAt h 192 320

/-- The key-hash and signature checks of an image (R555): the factory's image passes (R566); of any other, a function
of its bytes (log entry 7). -/
def imageOk (b : Bytes) : Bool := b == factoryImage || Config.imageSigned b

/-- No code word that the signature covers is uncorrectable (R555). -/
def Nvm.imageReadable (v : Nvm) (slot len : Nat) : Bool :=
  (List.range (len / 256)).all fun i =>
    decide ((v.word (64 + slot) (i / 1024) (i % 1024)).errs ≤ 12)
      || decide (flagOf (v.word (64 + slot) (i / 1024) (i % 1024)).flag = .erased)

/-- Checks of an image: 0 valid, else the code that FW_COMMIT reports: 3 format, 1 signature, 2 rollback (R443,
R555). -/
def Nvm.imageCheck (v : Nvm) (slot rollback : Nat) : Nat :=
  let h := v.slotHead slot
  let n := headLen h
  if !headFormat h then 3
  else if !(v.imageReadable slot n && imageOk (v.logicalBytes (64 + slot) 0 n)) then 1
  else if leAt h 12 4 < rollback then 2
  else 0

/-! ## Marks and slot states (R557, Table 21-3) -/

/-- Code words of the mark area: words 1,008 to 1,023 of logical block 47. -/
def Nvm.markWord (v : Nvm) (slot i : Nat) : NvmWord := v.word (64 + slot) 47 (1008 + i)

/-- Mark words used: up to the highest whose flag is not erased. -/
def Nvm.marksUsed (v : Nvm) (slot : Nat) : Nat :=
  match highest (fun i => decide (flagOf (v.markWord slot i).flag ≠ .erased)) 16 with
  | none => 0
  | some i => i + 1

/-- The readable marks of a slot in order, as (kind, sequence). A partial or uncorrectable word is ignored. -/
def Nvm.marks (v : Nvm) (slot : Nat) : List (Nat × Nat) :=
  (List.range 16).filterMap fun i =>
    (v.goodWord (64 + slot) 47 (1008 + i)).map fun b => (leAt b 0 1, leAt b 4 4)

/-- A slot's state code (Table 21-3). A slot whose header is erased and that has no mark is STAGED, as R566 calls the
factory's slot B (log entry 28). -/
def Nvm.slotState (v : Nvm) (slot : Nat) : Nat :=
  let m := v.marks slot
  let blank := decide (flagOf (v.word (64 + slot) 0 0).flag = .erased) && m.isEmpty
  if blank then 0
  else if !headFormat (v.slotHead slot) then 5
  else
    match m.getLast? with
    | none => 0
    | some (k, _) =>
      if k = 1 then 1
      else if k = 2 then 2
      else if k = 3 then 3
      else if k = 4 then 4
      else if k = 5 then (if m.any fun x => x.1 == 3 then 3 else 0)
      else 0

/-- The later of two mark sequences (R403). -/
def laterSeq (a b : Nat) : Nat := if seqLater (BitVec.ofNat 32 a) (BitVec.ofNat 32 b) then a else b

/-- The latest mark sequence of either slot. -/
def Nvm.lastMark (v : Nvm) : Nat := ((v.marks 0 ++ v.marks 1).map Prod.snd).foldl laterSeq 0

/-- The bytes of the next mark of a slot (21.3). -/
def Nvm.nextMark (v : Nvm) (slot kind : Nat) : Bytes :=
  markBytes kind ((v.lastMark + 1) % 2 ^ 32) (leAt (v.slotHead slot) 8 4)

/-- The last CONFIRM mark's sequence of a slot. -/
def Nvm.confirmSeq (v : Nvm) (slot : Nat) : Nat :=
  (((v.marks slot).filter fun x => x.1 == 3).getLast?.map Prod.snd).getD 0

/-- A slot is valid. -/
def State.slotValid (s : State) (slot : Nat) : Bool := s.nvm.imageCheck slot s.fuses.rollback == 0

/-- A slot may run as a confirmed one (R558). -/
def State.slotConfirmed (s : State) (slot : Nat) : Bool := s.nvm.slotState slot == 3 && s.slotValid slot

/-- The boot ROM's choice, with a slot to skip (R558, R568): the slot and whether the boot is a trial. -/
def State.bootChoice (s : State) (skip : Option Nat) : Option (Nat × Bool) :=
  let pending (i : Nat) : Bool := s.nvm.slotState i == 1 && s.slotValid i && decide (skip ≠ some i)
  if pending 0 then some (0, true)
  else if pending 1 then some (1, true)
  else
    match s.slotConfirmed 0, s.slotConfirmed 1 with
    | true, true =>
      some (if seqLater (BitVec.ofNat 32 (s.nvm.confirmSeq 1)) (BitVec.ofNat 32 (s.nvm.confirmSeq 0)) then 1 else 0, false)
    | true, false => some (0, false)
    | false, true => some (1, false)
    | false, false => none

/-- A mark that is programmed within BOOT: the program starts and ends before step 5 (R560, R568, log entry 136); a slot whose
mark area is full takes none. -/
def State.programMark (s : State) (slot kind : Nat) : State :=
  let i := s.nvm.marksUsed slot
  if i ≥ 16 then s
  else
    let b := 64 + slot
    let t := s.charge b (s.nvm.physOf b 47) 47 (1008 + i) (s.nvm.gen b 47) false (s.nvm.nextMark slot kind)
    { t with nvm := { t.nvm with
      opseq := t.nvm.opseq + 1, prefetch := Table.set [] t.nvm.prefetch b [], branch := [] } }

/-- The program of a mark, its place and bytes being found when it starts (21.3). -/
def markAct (slot kind : Nat) : NvmAct := .program 47 1008 1 (.mark slot kind)

/-- A mark waits for VPP_NVM (R560). -/
def State.markLater (s : State) (slot kind : Nat) : State :=
  { s with fw := { s.fw with marksDue := s.fw.marksDue ++ [(slot, kind)] } }

/-- The firmware's program of a mark is queued, or waits for VPP_NVM (R88, R560). -/
def State.fwMark (s : State) (slot kind : Nat) : State :=
  if s.nvm.vppOk then s.queueOp { bank := 64 + slot, act := markAct slot kind, owner := .mark slot kind }
  else s.markLater slot kind

/-! ## The settings record (R563, R564) -/

/-- The bytes at a record position of a plane, if every code word reads written and correctable. -/
def Nvm.recordBytes (v : Nvm) (plane pos : Nat) : Option Bytes :=
  (List.range 16).foldl (fun acc i =>
    match acc, v.goodWord (64 + plane) (48 + pos / 64) (pos % 64 * 16 + i) with
    | some b, some w => some (b ++ w)
    | _, _ => none) (some [])

/-- A record's magic, length and CRC are right. -/
def recordGood (b : Bytes) : Bool :=
  leAt b 0 4 == 0x5345544B && leAt b 6 2 == 4096 && decide (b.length = 4096)
    && leAt b 4092 4 == (crc32 (b.take 4092)).toNat

/-- A record's version, seq and CRC field. -/
def recordVersion (b : Bytes) : Nat := leAt b 4 2
/-- The sequence of a record. -/
def recordSeq (b : Bytes) : Nat := leAt b 8 4

/-- The later of two records by seq. -/
def laterRecord (a b : Option Bytes) : Option Bytes :=
  match a, b with
  | some x, some y => if seqLater (BitVec.ofNat 32 (recordSeq y)) (BitVec.ofNat 32 (recordSeq x)) then some y else some x
  | some x, none => some x
  | none, y => y

/-- The good record with the latest seq in a plane (R563). -/
def Nvm.planeRecord (v : Nvm) (plane : Nat) : Option Bytes :=
  (List.range 128).foldl (fun acc p =>
    laterRecord acc ((v.recordBytes plane p).filter recordGood)) none

/-- The stored record: the later of the two planes' (R563). -/
def Nvm.storedRecord (v : Nvm) : Option Bytes := laterRecord (v.planeRecord 0) (v.planeRecord 1)

/-- The next erased record position of a copy; 128 when none is left (R564). -/
def Nvm.recordNext (v : Nvm) (plane : Nat) : Nat :=
  let used (p : Nat) : Bool :=
    (List.range 16).any fun i => decide (flagOf (v.word (64 + plane) (48 + p / 64) (p % 64 * 16 + i)).flag ≠ .erased)
  match highest used 128 with
  | none => 0
  | some p => p + 1

/-- A record with its seq replaced and its CRC computed anew. -/
def recordWith (b : Bytes) (seq : Nat) : Bytes :=
  let c := (spliceBytes b 8 (leBytes 4 seq)).take 4092
  c ++ leBytes 4 (crc32 c).toNat

/-- A wheel map has no reserved entry and a slot for each class (R255). -/
def wheelMapOk (w : Nat) : Bool :=
  let e (i : Nat) : Nat := w / 4 ^ i % 4
  ((List.range 16).all fun i => decide (e i ≠ 3)) && ((List.range 3).all fun c => (List.range 16).any fun i => e i == c)

end Sys2Proof.Machine
end

