-- ==== Sys2Proof/Machine/Pace.lean ====
section
/-!
DEFINITION. Chapter 2: the pace governors, droop sensing, the thermal response and the AVSBus master.
-/

namespace Sys2Proof.Machine

/-! ## Demands (R33, R36, R37, R40) -/

/-- The fraction, in eighths, that a level admits: level 0 8/8, level 1 4/8, level 2 2/8. -/
def levelK (l : Nat) : Nat := if l = 0 then 8 else if l = 1 then 4 else 2

/-- The level that a sensor raises: none while it is disabled (Table 2-7). -/
def Pace.sensorLevel (p : Pace) (i : Nat) : Nat := if bitOf p.sensorEn i then Table.get 0 p.sensor i else 0

/-- A quadrant's droop level: the greater of its two sensors' and of the pin's while it acts (R36, R37). -/
def State.droopLevel (s : State) (q : Nat) : Nat :=
  let pin := if !s.pins.droopInN && s.pace.pinEn then (if s.pace.pinLevel then 2 else 1) else 0
  max (max (s.pace.sensorLevel (2 * q)) (s.pace.sensorLevel (2 * q + 1))) pin

/-- The forced level of a quadrant (Table 2-4). -/
def Pace.forced (p : Pace) (q : Nat) : Nat := bitsOf p.forceLevel (2 * q + 1) (2 * q)

/-- The smallest of a quadrant's droop, thermal and forced demands, in eighths (R33). -/
def State.paceDemand (s : State) (q : Nat) : Nat :=
  min (min (levelK (s.droopLevel q)) (if s.pace.throttle then 4 else 8)) (levelK (s.pace.forced q))

/-- A quadrant's governor. -/
def State.gov (s : State) (q : Nat) : Governor := Table.get {} s.pace.gov q

/-- Set a quadrant's governor, with its trace packet when the fraction changes (Table 22-7). -/
def State.setGov (s : State) (q : Nat) (g : Governor) (why : Nat) : State :=
  let k := (s.gov q).k
  let s := { s with pace := { s.pace with gov := Table.set {} s.pace.gov q g } }
  if g.k = k then s else s.traceEmit 1 none true 0x20 q g.k (BitVec.ofNat 32 why)

/-- A demand that lowers the fraction applies at once; a rise of the smallest demand starts a hold (R34). `d0` is the
quadrant's demand before the change; `why` names the demand in the trace packet. -/
def State.govern (s : State) (q d0 why : Nat) : State :=
  let d := s.paceDemand q
  let g := s.gov q
  if d ≤ g.k then (if d = g.k ∧ g.phase = .steady then s else s.setGov q { k := d, phase := .steady } why)
  else if d0 < d then s.setGov q { g with phase := .hold } why
  else s

/-- What holds a quadrant at its droop level: the lower of its sensors that calls for it, else the pin (8). -/
def State.droopSource (s : State) (q : Nat) : Nat :=
  let l := s.droopLevel q
  if s.pace.sensorLevel (2 * q) = l then 2 * q else if s.pace.sensorLevel (2 * q + 1) = l then 2 * q + 1 else 8

/-- Count and log the entries into a droop level that a change made in a quadrant (R39). -/
def State.droopEntry (s : State) (q l0 source : Nat) : State :=
  let l := s.droopLevel q
  if l0 = 0 ∧ l = 1 then { s with pace := { s.pace with cntL1 := satInc s.pace.cntL1 1 } }
  else if l0 < 2 ∧ l = 2 then
    ({ s with pace := { s.pace with cntL2 := satInc s.pace.cntL2 1 } }).logEvent 0x10 devByte
      [BitVec.ofNat 8 q, BitVec.ofNat 8 source] []
  else s

/-- The effects on one quadrant of a change from the state `old`. -/
def State.paceQuad (s old : State) (q source why : Nat) : State :=
  (s.govern q (old.paceDemand q) why).droopEntry q (old.droopLevel q) source

/-- The effects on all four quadrants of a change from the state `old` (R33, R34, R39). -/
def State.paceAll (s old : State) (source why : Nat) : State :=
  (((s.paceQuad old 0 source why).paceQuad old 1 source why).paceQuad old 2 source why).paceQuad old 3 source why

/-- A sensor or the pin whose droop holds already acts from the moment it is enabled: its bit of `DROOP_STAT` is set
(Tables 2-7, 2-8). -/
def State.noteFired (s old : State) : State :=
  let raised (i : Nat) : Bool := s.pace.sensorLevel i != 0 && old.pace.sensorLevel i == 0
  { s with pace := { s.pace with
    fired := (List.range 8).foldl (fun (m : BitVec 8) i => if raised i then m ||| (1 <<< i) else m) s.pace.fired
    pinFired := s.pace.pinFired || (!s.pins.droopInN && s.pace.pinEn && !old.pace.pinEn) } }

/-- The effects of a change of the droop controls from the state `old`: each entry names what holds its quadrant (R39). -/
def State.paceControl (s old : State) (why : Nat) : State :=
  let a := s.noteFired old
  [0, 1, 2, 3].foldl (fun (t : State) q => t.paceQuad old q (t.droopSource q) why) a

/-- The end of a reset of class P, W, E or S: each governor takes its smallest present demand and the warning of R41
is armed (R34, R41). -/
def State.paceRestart (s : State) : State :=
  let set (s : State) (q : Nat) : State :=
    { s with pace := { s.pace with gov := Table.set {} s.pace.gov q { k := s.paceDemand q, phase := .steady } } }
  let s := set (set (set (set s 0) 1) 2) 3
  { s with pace := { s.pace with warnArmed := true } }

/-- The same, with the entries into droop levels of the sensors and of the pin that the reset's values enable again (R39). -/
def State.paceReenter (s old : State) : State :=
  [0, 1, 2, 3].foldl (fun (t : State) q => t.droopEntry q (old.droopLevel q) (t.droopSource q)) (s.paceRestart.noteFired old)

/-- `PACE_STAT.admit` of a quadrant: k - 1, or 0 while it admits no beats (Table 2-5). -/
def State.admitField (s : State) (q : Nat) : Nat :=
  if s.life.tripped ∨ s.life.phase = .quiesced then 0 else (s.gov q).k - 1

/-! ## The hold and the ramp (R34) -/

/-- Raise a governor's fraction by 1/8 and ramp on until it meets the smallest demand. -/
def State.rampStep (s : State) (q : Nat) : State :=
  let g := s.gov q
  let d := s.paceDemand q
  let k := min (g.k + 1) d
  s.setGov q { k := k, phase := if k < d then .ramp else .steady } 3

/-- PACE_HOLD_END: the 2 µs hold ends; the first ramp step applies at once (Table 2-2, steps 4 and 5). -/
def execPaceHoldEnd (quad : Fin 4) (s : State) : Host.Outcome State Fault Refusal :=
  if (s.gov quad.val).phase = .hold then ok (s.rampStep quad.val) else ok s

/-- PACE_RAMP_STEP: one 500 ns step of the ramp. -/
def execPaceRampStep (quad : Fin 4) (s : State) : Host.Outcome State Fault Refusal :=
  if (s.gov quad.val).phase = .ramp then ok (s.rampStep quad.val) else ok s

/-! ## Droop (R36 to R39) -/

/-- DROOP_SENSOR_TRIP: the local supply of a sensor falls 30 mV (level 1) or 60 mV (level 2) below the target. -/
def execDroopSensorTrip (sensor : Fin 8) (level2 : Bool) (s : State) : Host.Outcome State Fault Refusal :=
  let i := sensor.val
  let l := max (Table.get 0 s.pace.sensor i) (if level2 then 2 else 1)
  let t := { s with pace := { s.pace with
    sensor := Table.set 0 s.pace.sensor i l
    fired := if bitOf s.pace.sensorEn i then s.pace.fired ||| (1 <<< i) else s.pace.fired } }
  ok (t.paceQuad s (i / 2) i 0)

/-- DROOP_SENSOR_RELEASE: the supply rises to within 50 mV (level 2 is released) or 20 mV (both are). -/
def execDroopSensorRelease (sensor : Fin 8) (toLevel1 : Bool) (s : State) : Host.Outcome State Fault Refusal :=
  let i := sensor.val
  let l := min (Table.get 0 s.pace.sensor i) (if toLevel1 then 1 else 0)
  let t := { s with pace := { s.pace with sensor := Table.set 0 s.pace.sensor i l } }
  ok (t.paceQuad s (i / 2) i 0)

/-- DROOP_IN_N goes low (R37). -/
def State.droopFall (s : State) : State :=
  let t := { s with
    pins := { s.pins with droopInN := false }
    pace := { s.pace with pinFired := s.pace.pinFired || s.pace.pinEn } }
  t.paceAll s 8 0

/-- DROOP_IN_N goes high (R37). -/
def State.droopRise (s : State) : State :=
  let t := { s with pins := { s.pins with droopInN := true } }
  t.paceAll s 8 0

/-- DROOP_IN_FALL: the pin falls. A pulse shorter than 2 ns is ignored, or acts exactly as a 2 ns pulse does, and has
ended when the command ends (R37: the choice is a free value, log entry 6). -/
def execDroopInFall (short : Bool) (s : State) : Host.Outcome State Fault Refusal :=
  if short then (if Config.freeBit s.fresh then ok s.tick.droopFall.droopRise else ok s.tick)
  else ok s.droopFall

/-- DROOP_IN_RISE: the pin rises. -/
def execDroopInRise (s : State) : Host.Outcome State Fault Refusal := ok s.droopRise

/-! ## Thermal response (R40 to R42) -/

/-- `THERM_STAT.tj_max` in quarters of a degree. -/
def Pace.tj (p : Pace) : Int := toSigned 11 p.tjMax.toNat

/-- The continuous comparison of the thermal warning (R41). -/
def State.thermWarn (s : State) : State :=
  if s.pace.warnArmed && s.pace.warnIrqEn && decide (s.pace.tj ≥ 4 * (s.pace.warnC.toNat : Int)) then
    ({ s with pace := { s.pace with warnArmed := false } }).raiseDevEvt 1
  else s

/-- The thermal trip (R42): the fabric and the watchdog stop (R547), THERM_TRIP_N goes low, the entry and the trouble
bits are written. -/
def State.thermTrip (s : State) : State :=
  if s.life.tripped then s
  else
    ({ s with
      life := { s.life with tripped := true }
      pins := { s.pins with thermTripN := false }
      wd := { s.wd with stopped := true } }).logEvent 0x11 devByte (leBytes 2 s.pace.tjMax.toNat)
      [.dev Trb.needsPowerCycle.bit, .dev Trb.thermTrip.bit]

/-- THERM_READING: a new hottest reading (R40 to R42). The warning is armed again by a reading that has fallen far enough, not
by a write that raises warn_c (DESIGN CHOICE, log entry 123). -/
def execThermReading (tj : BitVec 11) (s : State) : Host.Outcome State Fault Refusal :=
  if !s.pins.vddAon then ok s
  else
    let t := { s with pace := { s.pace with tjMax := tj } }
    let v := t.pace.tj
    let th := if v ≥ 420 then true else if v ≤ 400 then false else s.pace.throttle
    let t := { t with pace := { t.pace with
      throttle := th
      warnArmed := t.pace.warnArmed || decide (v ≤ 4 * ((t.pace.warnC.toNat : Int) - 5)) } }
    let t := if th = s.pace.throttle then t else t.traceEmit 1 none true 0x21 0 0 (BitVec.ofNat 32 tj.toNat)
    let t := (t.paceAll s 8 1).thermWarn
    ok (if v ≥ 500 then t.thermTrip else t)

/-! ## The monitor window and AVSBus (R31, R43 to R49) -/

/-- A voltage is within 10 mV of another (R47). -/
def within10 (a b : Nat) : Bool := decide (a ≤ b + 10) && decide (b ≤ a + 10)

/-- Write a target voltage (R47): the droop sensors compare against the lower of the old and the new one until the
regulator settles. At the first write after a reset there is no old target: the new one stands for it (DESIGN CHOICE, log
entry 122). -/
def State.avsWrite (s : State) (v : Nat) : State :=
  if v = s.pace.setMv.toNat then s
  else
    let old := if s.pace.setMv = 0 then v else s.pace.setMv.toNat
    ({ s with pace := { s.pace with
      setMv := BitVec.ofNat 10 v
      settled := false
      droopRef := BitVec.ofNat 10 (min old v) } }).emit (.avs 0 v)

/-- A voltage clamped to the permitted range and rounded down to the 5 mV grid (R46). -/
def Pace.clampMv (p : Pace) (v : Nat) : Nat := (min (max v p.vMin.toNat) p.vMax.toNat) / 5 * 5

/-- The next voltage of the 5 mV grid at or above a voltage. -/
def gridUp (v : Nat) : Nat := (v + 4) / 5 * 5

/-- The lowest and the highest voltage of the grid within the permitted range (R44). -/
def Pace.lowMv (p : Pace) : Nat := gridUp p.vMin.toNat
/-- The highest one. -/
def Pace.highMv (p : Pace) : Nat := p.vMax.toNat / 5 * 5

/-- The voltage that R45 allows for a wanted change from `base` to `v`: no rise at 100 °C or more; at 103 °C or more a
fall of 10 mV per window, down to v_min_mv, and never a rise. -/
def Pace.thermalMv (p : Pace) (base v : Nat) : Nat :=
  if p.tj ≥ 412 then max (base - 10) (min base p.lowMv)
  else if p.tj ≥ 400 then min base v
  else v

/-- The voltage that is driven: the target, or what the regulator reads back where none has been written since a reset. -/
def Pace.baseMv (p : Pace) : Nat := if p.setMv = 0 then p.readMv.toNat else p.setMv.toNat

/-- The least of the four quadrants' measured rates. -/
def State.minRate (s : State) : Nat :=
  let r (q : Nat) : Nat := (Table.get (0, 0) s.pace.rates q).1.toNat
  min (min (r 0) (r 1)) (min (r 2) (r 3))

/-- The smallest rate meets the target plus 3 % (R44). -/
def State.rateMet (s : State) : Bool := decide (s.minRate * 100 ≥ s.pace.targetRate.toNat * 103)

/-- A voltage of the grid within 10 mV of another, as near as it can be to the one wanted (R44). -/
def nearMv (base v : Nat) : Nat := min (max v (gridUp (base - 10))) ((base + 10) / 5 * 5)

/-- The voltage of the automatic review (R44): below the target rate the next grid voltage or the one after it, at the
target rate the present one or one of the two below it, in the permitted range, and never more than 10 mV away: where the
range itself has moved further away, the voltage follows it by 10 mV a window (DESIGN CHOICE, log entry 12). How far the
lowest sufficient voltage lies is the silicon's: a free value (log entry 12). -/
def State.autoMv (s : State) (base : Nat) : Nat :=
  let n := Config.freeNat s.fresh
  let v := if s.rateMet then gridUp base - 5 * (n % 3) else base / 5 * 5 + 5 + 5 * (n % 2)
  nearMv base (min (max v s.pace.lowMv) s.pace.highMv)

/-- The review of VDD_CORE once per window (R44 to R46); `target_unmet` tells of the automatic mode only (Table 2-5). -/
def State.avsReview (s : State) : State :=
  let p := s.pace
  let base := p.baseMv
  if p.manual then
    ({ s with pace := { p with targetUnmet := false } }).avsWrite (p.thermalMv base (p.clampMv p.vset.toNat))
  else
    let unmet := !s.rateMet && decide (p.highMv ≤ base)
    let s' := { s.tick with pace := { p with targetUnmet := unmet } }
    s'.avsWrite (p.thermalMv base (if unmet then nearMv base p.highMv else s.autoMv base))

/-- The regulator does not respond or reports a fault (R48). Each such window sets `bus_fault` and the trouble bit, which is
an event bit (R514); the entry is written at the first of a row of them (log entry 13). -/
def State.avsFault (s : State) (status : Bool) : State :=
  let a := { s with pace := { s.pace with busFault := true, failing := true } }
  if s.pace.failing then a.setTrb .avsFault
  else
    a.logEvent 0x12 devByte ([BitVec.ofNat 8 (b2n status), 0] ++ leBytes 2 s.pace.setMv.toNat) [.dev Trb.avsFault.bit]

/-- What a Voltage read brings: the read-back, and whether the regulator has settled at the target (R47). -/
def State.avsRead (s : State) (mv : BitVec 10) : State :=
  let near := decide (s.pace.setMv ≠ 0) && within10 mv.toNat s.pace.setMv.toNat
  { s with pace := { s.pace with
    readMv := mv
    settled := near || s.pace.settled
    droopRef := if near then s.pace.setMv else s.pace.droopRef } }

/-- The registers of one quadrant for the window (R31), and its PERF counters (Table 24-7). -/
def State.windowQuad (s : State) (q : Nat) (m : QuadMeasure) : State :=
  let s := { s with pace := { s.pace with
    rates := Table.set (0, 0) s.pace.rates q (m.rate, m.admitted)
    withheld := Table.upd 0 s.pace.withheld q (· + m.withheld) } }
  ((s.perfAdd (2 + q) m.beats).perfAdd (6 + q) m.withheld).perfAdd (10 + q) m.compute

/-- BEAT_RATE_WINDOW: the 1 ms window ends (R31, R533); the AVSBus master reviews VDD_CORE once the firmware is ready
(R44, R49). It issues a status, a voltage and a current read in every window, in that order and before any write: the spec
does not say when it issues which read (DESIGN CHOICE, log entry 121). -/
def execBeatRateWindow (q0 q1 q2 q3 : QuadMeasure) (wdoKhz : BitVec 12) (avs : AvsAnswer) (s : State) :
    Host.Outcome State Fault Refusal :=
  let s := (((s.windowQuad 0 q0).windowQuad 1 q1).windowQuad 2 q2).windowQuad 3 q3
  let s := { s with wd := { s.wd with rate := wdoKhz } }
  if s.life.phase ≠ .running then ok s
  else
    let s := ((s.emit (.avs 2 0)).emit (.avs 1 0)).emit (.avs 3 0)
    match avs with
    | .none => ok (s.avsFault false)
    | .fault => ok (s.avsFault true)
    | .ok mv cur =>
      let s := { s with pace := { s.pace with failing := false, currentA := cur } }
      ok (s.avsRead mv).avsReview

/-- AVS_SETTLE: the regulator's read-back lies within 10 mV of the new target, or 50 µs have passed; the droop sensors
switch to the new target (R47). -/
def execAvsSettle (readMv : Option (BitVec 10)) (s : State) : Host.Outcome State Fault Refusal :=
  match readMv with
  | none => ok { s with pace := { s.pace with droopRef := s.pace.setMv } }
  | some mv => ok (s.avsRead mv)

end Sys2Proof.Machine
end

