-- ==== Sys2Proof/Machine/Optim.lean ====
section
/-!
DEFINITION. The optimisers of a TRAIN step and its update phase, tensor by tensor (R481, R610, R613 to R615).
-/

namespace Sys2Proof.Machine

namespace Region
/-- Fields of an adapter region's header (Table 23-1), at a device address. -/
def u (s : State) (a o n : Nat) : Nat := leNat (readBytes 0 s.addr.lp5x (a + o) n)
/-- Optimiser: Adam. -/
def adam (s : State) (a : Nat) : Bool := u s a 8 1 == 1
/-- An FP32 field. -/
def f32 (s : State) (a o : Nat) : F32 := BitVec.ofNat 32 (u s a o 4)
end Region

/-- A BF16 element as FP32. -/
def bf16Up (w : Nat) : F32 := BitVec.ofNat 32 (65536 * w)

/-- An FP32 value written as BF16 (R119). -/
def bf16Down (v : F32) : Nat := (fmtBf16.convert (f32v v)).1

/-! ## The optimisers (R610) -/

/-- A power by squaring over the bits of the exponent below its most significant one, one rounding for each multiplication. -/
def powBits (b : F32) : List Bool → F32 → F32
  | [], r => r
  | true :: t, r => powBits b t (f32mul (f32mul r r) b)
  | false :: t, r => powBits b t (f32mul r r)

/-- β^t for t ≥ 1. -/
def f32pow (b : F32) (t : Nat) : F32 := powBits b ((List.range (Nat.log2 t)).reverse.map t.testBit) b

/-- FP32 1. -/
def f32one : F32 := 0x3F800000

/-- What the optimiser uses: learning rate, β₁ or μ, β₂, ε, λ. -/
structure OptArgs where
  lr : F32
  b1 : F32
  b2 : F32
  eps : F32
  wd : F32
  deriving DecidableEq, Repr

/-- One element under SGD with momentum: weight, gradient, state; the new weight and state. -/
def sgdStep (o : OptArgs) (w : Nat) (g u : F32) : Nat × F32 :=
  let u' := f32add (f32mul o.b1 u) g
  let w32 := bf16Up w
  (bf16Down (f32sub w32 (f32mul o.lr (f32add u' (f32mul o.wd w32)))), u')

/-- One element under Adam at update `t`: the new weight and the two moments. -/
def adamStep (o : OptArgs) (t w : Nat) (g m v : F32) : Nat × F32 × F32 :=
  let m' := f32add (f32mul o.b1 m) (f32mul (f32sub f32one o.b1) g)
  let v' := f32add (f32mul o.b2 v) (f32mul (f32sub f32one o.b2) (f32mul g g))
  let c1 := f32sub f32one (f32pow o.b1 t)
  let c2 := f32sub f32one (f32pow o.b2 t)
  let w32 := bf16Up w
  let q := f32div (f32div m' c1) (f32add (f32sqrt (f32div v' c2)) o.eps)
  (bf16Down (f32sub w32 (f32mul o.lr (f32add q (f32mul o.wd w32)))), m', v')

/-- A tensor under SGD: weights, gradients and state as bytes; the new weights and state. -/
def sgdTensor (o : OptArgs) (n : Nat) (w g u : Bytes) : Bytes × Bytes :=
  let l := (List.range n).map fun i => sgdStep o (leAt w (2 * i) 2) (bf16Up (leAt g (2 * i) 2)) (BitVec.ofNat 32 (leAt u (4 * i) 4))
  (l.flatMap fun x => leBytes 2 x.1, l.flatMap fun x => leBytes 4 x.2.toNat)

/-- A tensor under Adam; the second moments follow the first. -/
def adamTensor (o : OptArgs) (t n : Nat) (w g u : Bytes) : Bytes × Bytes :=
  let l := (List.range n).map fun i =>
    adamStep o t (leAt w (2 * i) 2) (bf16Up (leAt g (2 * i) 2)) (BitVec.ofNat 32 (leAt u (4 * i) 4))
      (BitVec.ofNat 32 (leAt u (4 * (n + i)) 4))
  (l.flatMap fun x => leBytes 2 x.1, (l.flatMap fun x => leBytes 4 x.2.1.toNat) ++ l.flatMap fun x => leBytes 4 x.2.2.toNat)

/-! ## Reading and writing the region (R481, R611) -/

/-- Read a range of LP5X for a command's step: the bytes, and how many poisoned lines it holds. -/
def State.trainRead (s : State) (f a len : Nat) : State × Bytes × Nat :=
  let q := s.lpRead a len
  (q.1.stat f 19 (lineCount a len), q.2.1, q.2.2.length)

/-- Write a range of the region. -/
def State.trainWrite (s : State) (f a : Nat) (d : Bytes) (poison : Bool) : State :=
  (s.lpWrite a d poison).stat f 20 (lineCount a d.length)

/-- The device addresses of a tensor's weights, gradients and state, in a region at `a` (Table 23-2). -/
def State.tensorAt (s : State) (a : Nat) (t : Tensor) : Nat × Nat × Nat :=
  let f (i : Nat) : Nat := a + Region.u s t.at' (16 + 8 * i + 4 * t.which) 4
  (f 0, f 1, f 2)

/-! ## One tensor (R481, R610, R614) -/

/-- The optimiser's constants of a step: DW15, or the header's lr where it is 0 (R600). -/
def State.optArgs (s : State) (t : Train) (a : Nat) : OptArgs :=
  { lr := if t.lr = 0 then Region.f32 s a 12 else t.lr
    b1 := Region.f32 s a 16, b2 := Region.f32 s a 20, eps := Region.f32 s a 24, wd := Region.f32 s a 28 }

/-- A tensor takes part in the update: its train bit is set. -/
def State.trained (s : State) (p : Tensor) : Bool := Region.u s p.at' 5 1 / 2 ^ p.which % 2 == 1

/-- The number of a tensor's next update: t_a or t_b, incremented. -/
def State.updateNo (s : State) (p : Tensor) : Nat := (Region.u s p.at' (40 + 4 * p.which) 4 + 1) % 2 ^ 32

/-- Read a tensor and form its new weights and state; none where a line read for it is poisoned (R481). -/
def State.newTensor (s : State) (f : Nat) (o : OptArgs) (a : Nat) (p : Tensor) : State × Option (Bytes × Bytes) :=
  let l := s.tensorAt a p
  let adam := Region.adam s a
  let w := s.trainRead f l.1 (2 * p.n)
  let g := w.1.trainRead f l.2.1 (2 * p.n)
  let u := g.1.trainRead f l.2.2 (4 * (if adam then 2 else 1) * p.n)
  if w.2.2 + g.2.2 + u.2.2 ≠ 0 then (u.1, none)
  else (u.1, some (if adam then adamTensor o (s.updateNo p) p.n w.2.1 g.2.1 u.2.1 else sgdTensor o p.n w.2.1 g.2.1 u.2.1))

/-- Update one tensor, unless a line read for it is poisoned; whether it was updated. -/
def State.updateTensor (s : State) (f : Nat) (o : OptArgs) (a : Nat) (p : Tensor) : State × Bool :=
  let l := s.tensorAt a p
  match s.newTensor f o a p with
  | (b, none) => (b, false)
  | (b, some r) =>
    let c := (b.trainWrite f l.1 r.1 false).trainWrite f l.2.2 r.2 false
    (c.trainWrite f (p.at' + 40 + 4 * p.which) (leBytes 4 (s.updateNo p)) false, true)

/-- The header's counts once the update phase has ended: steps, and the tensors updated (R610, R614). -/
def State.endUpdate (s : State) (x : Run) (a : Nat) (u : UpdPhase) : State × Run :=
  (s.trainWrite x.fn (a + 52) (leBytes 4 (Region.u s a 52 4 + 1) ++ leBytes 4 u.count) false, { x with updating := none, copied := true })

/-- The tensor in progress is updated whole; after the last one the update phase ends (R610). -/
def State.stepUpdate (s : State) (x : Run) : State × Run :=
  match x.updating, x.train, x.adapter with
  | some u, some t, some (a, _) =>
    match u.left with
    | [] => s.endUpdate x a u
    | p :: l =>
      let q := s.updateTensor x.fn (s.optArgs t a) a p
      let y := if q.2 then x else { x with weightBad := true }
      let v : UpdPhase := { left := l, count := u.count + b2n q.2 }
      if l.isEmpty then q.1.endUpdate y a v else (q.1, { y with updating := some v })
  | _, _, _ => (s, x)

/-- A CANCEL in the update phase takes effect after the tensor in progress (R614). -/
def State.closeUpdate (s : State) (x : Run) : State × Run :=
  let u := s.stepUpdate x
  match u.2.updating, u.2.adapter with
  | some v, some (a, _) => u.1.endUpdate u.2 a v
  | _, _ => u

/-- A reset leaves the tensor in progress with an open part of its new weights and state, its count unchanged (R615, log entry 58). -/
def State.tearRun (s : State) (x : Run) : State :=
  match x.updating, x.train, x.adapter with
  | some u, some t, some (a, _) =>
    match u.left with
    | [] => s
    | p :: _ =>
      match s.newTensor x.fn (s.optArgs t a) a p with
      | (_, none) => s
      | (_, some r) =>
        let l := s.tensorAt a p
        (s.tick.lpWrite l.1 (r.1.take (Config.freeNat s.fresh % (r.1.length + 1))) false).lpWrite l.2.2
          (r.2.take (Config.freeNat (s.fresh + 1) % (r.2.length + 1))) false |>.tick
  | _, _, _ => s

/-- The TRAIN steps of a function, or of all, that a reset finds in their update phase. -/
def State.tearRuns (s : State) (mine : Run → Bool) : State :=
  s.comp.runs.foldl (fun (t : State) p => if mine p.2 then t.tearRun p.2 else t) s

end Sys2Proof.Machine
end

