-- ==== Sys2Proof/Machine/Cache.lean ====
section
/-!
DEFINITION. The cache ways of a tenant (R256, R257, R302, R314, R457, R592): what they hold, which lines a line of memory
evicts, and the copies that a running command keeps of lines that are evicted.
-/

namespace Sys2Proof.Machine

/-- Cut a string at multiples of 64 of its offset. -/
def cut64 {α : Type} : Nat → Nat → List α → List (Nat × List α)
  | 0, _, _ => []
  | fuel + 1, o, d =>
    if d.isEmpty then []
    else
      let n := 64 - o % 64
      (o, d.take n) :: cut64 fuel (o + n) (d.drop n)

/-! ## What a command keeps of its lines -/

/-- The key of a block's check. -/
def checkKey (buf block : Nat) (wr : Bool) : Nat := 2 ^ 14 * buf + block * 2 + b2n wr

/-- Forget the lines of a command that satisfy a condition: what is fetched afresh is checked again, block by block (R238,
R309). -/
def Run.forget (r : Run) (p : Nat × Line → Bool) : Run :=
  let keys := (r.lines.filter p).map fun q => checkKey (q.1 / 2 ^ 48) q.2.blk false
  { r with
    lines := r.lines.filter fun q => !p q
    checked := r.checked.filter fun q => !keys.contains q.1 }

/-- A line was fetched ahead and no core has consumed it (R257). -/
def Line.ahead (l : Line) : Bool := l.fetched && l.slot && !l.used

/-- How many lines of a command that satisfy a condition no core has consumed. -/
def Run.aheadCount (r : Run) (p : Nat × Line → Bool) : Nat := (r.lines.filter fun q => p q && q.2.ahead).length

/-- A line of a command is a copy of a part of a line of memory. -/
def Line.copies (l : Line) (host : Bool) (line : Nat) : Bool :=
  match l.src with
  | some (.host a _) => host && rangesMeet (64 * line) 64 a l.len
  | some (.lp5x a) => !host && rangesMeet (64 * line) 64 a l.len
  | _ => false

/-- The commands of a tenant lose their copies of a line of memory, but for those that `keep` names, by command and line: a line
that is lost before a core has consumed it counts as wasted (R257). -/
def State.loseCopies (s : State) (keep : Nat → Nat × Line → Bool) (f : Nat) (host : Bool) (line : Nat) : State :=
  let lost (k : Nat) (q : Nat × Line) : Bool := q.2.copies host line && q.2.data.isSome && !keep k q
  let mine (x : Run) : Bool := x.fn == f && !x.light
  let n := (s.comp.runs.map fun p => if mine p.2 then p.2.aheadCount (lost p.1) else 0).sum
  { s with comp := { s.comp with
    runs := s.comp.runs.map fun (p : Nat × Run) => (p.1, if mine p.2 then p.2.forget (lost p.1) else p.2) } }.stat f 16 n

/-! ## What the ways hold -/

/-- The cache ways of a tenant, ascending: its cache set (R457). -/
def Tenants.cacheWays (t : Tenants) (f : Nat) : List Nat :=
  (t.ways.filter fun p => decide (p.2.owner = some f) && !p.2.scratch).map Prod.fst

/-- The place of a line of memory in a way. -/
def cacheKey (way : Nat) (host : Bool) (line : Nat) : Nat := 32768 * way + Config.cacheIndex host line % 32768

/-- A cached line holds a tenant's line of memory; one of an older host generation misses (R314). -/
def State.cacheHit (s : State) (f : Nat) (host : Bool) (line : Nat) (c : CacheLine) : Bool :=
  c.fn == f && c.host == host && c.addr / 64 == line && (!host || c.gen == (s.fnSt f).hostGen)

/-- The way of a tenant that holds a line of memory, and the line. -/
def State.cacheFind (s : State) (f : Nat) (host : Bool) (line : Nat) : Option (Nat × CacheLine) :=
  (s.tenants.cacheWays f).findSome? fun w =>
    ((Table.find s.comp.cache (cacheKey w host line)).filter (s.cacheHit f host line)).map fun c => (w, c)

/-- A byte string of memory as a tenant's ways hold it, and whether it is poisoned; none where a part of it misses. -/
def State.cacheBytes (s : State) (f : Nat) (host : Bool) (a len : Nat) : Option (Bytes × Bool) :=
  let part (q : Nat × Bytes) : Option (Bytes × Bool) :=
    match s.cacheFind f host (q.1 / 64) with
    | some (_, c) =>
      if c.addr ≤ q.1 ∧ q.1 + q.2.length ≤ c.addr + c.data.length then some ((c.data.drop (q.1 - c.addr)).take q.2.length, c.poison)
      else none
    | none => none
  ((cut64 (len + 1) a (zeroBytes len)).mapM part).map fun (l : List (Bytes × Bool)) => (l.flatMap Prod.fst, l.any Prod.snd)

/-- The way that takes a line of memory: the one that holds it, one with room, or a way whose line is evicted; which is open (log
entry 69). -/
def State.cacheWay (s : State) (f : Nat) (host : Bool) (line : Nat) (ways : List Nat) : State × Nat :=
  match s.cacheFind f host line with
  | some (w, _) => (s, w)
  | none =>
    match ways.find? fun w => (Table.find s.comp.cache (cacheKey w host line)).isNone with
    | some w => (s, w)
    | none => (s.tick, ways.getD (Config.freeNat s.fresh % ways.length) 0)

/-- The line at a place of a way leaves it: the tenant's commands lose their copies of it. -/
def State.evict (s : State) (keep : Nat → Nat × Line → Bool) (key : Nat) : State :=
  match Table.find s.comp.cache key with
  | none => s
  | some c =>
    { s with comp := { s.comp with cache := Table.erase s.comp.cache key } }.loseCopies keep c.fn c.host (c.addr / 64)

/-- Put a part of one line of memory into a tenant's ways. -/
def State.cacheLine (s : State) (keep : Nat → Nat × Line → Bool) (f : Nat) (host : Bool) (a : Nat) (d : Bytes) (poison : Bool) : State :=
  let ways := s.tenants.cacheWays f
  if ways.isEmpty then s
  else
    let u := s.cacheWay f host (a / 64) ways
    let key := cacheKey u.2 host (a / 64)
    let t := if (u.1.cacheFind f host (a / 64)).isSome then u.1 else u.1.evict keep key
    { t with comp := { t.comp with
      cache := Table.insert t.comp.cache key { fn := f, host := host, addr := a, data := d, poison := poison, gen := (s.fnSt f).hostGen } } }

/-- Put a byte string of memory into a tenant's ways. -/
def State.cachePut (s : State) (keep : Nat → Nat × Line → Bool) (f : Nat) (host : Bool) (a : Nat) (d : Bytes) (poison : Bool) : State :=
  (cut64 (d.length + 1) a d).foldl (fun (t : State) q => t.cacheLine keep f host q.1 q.2 poison) s

/-- Invalidate what the ways hold, as far as it satisfies a condition, with the copies of it. -/
def State.emptyCache (s : State) (p : Nat × CacheLine → Bool) : State :=
  (s.comp.cache.filter p).foldl (fun (t : State) q => t.evict (fun _ _ => false) q.1) s

end Sys2Proof.Machine
end

