-- ==== Sys2Proof/Machine/Rings.lean ====
section
/-!
DEFINITION. Chapter 14: doorbells, ring states, fetching and accepting entries, fences, completion entries and
interrupt moderation; and the order of acceptance among tenants (R463, R464).
-/

namespace Sys2Proof.Machine

/-! ## What BAR 0 serves (Table 24-3) -/

/-- How BAR 0 of a function serves an access. -/
inductive BarMode where
  | normal | alwaysOn | unsupported
  deriving DecidableEq, Repr

/-- The state of BAR 0 of a function (Table 24-3, R336): memory space disabled takes precedence. -/
def State.barMode (s : State) (f : Nat) : BarMode :=
  if !(if f = 0 then s.pcie.mse else s.fnExists f && s.pcie.vfMse) then .unsupported
  else
    match s.life.phase with
    | .running => .normal
    | .boot _ => .alwaysOn
    | .romOnly => .alwaysOn
    | .quiesced => .alwaysOn
    | .por => .unsupported
    | .held _ => .unsupported

/-- A ring exists (R380). -/
def State.ringExists (s : State) (f r : Nat) : Bool := s.fnExists f && decide (r < (s.fnSt f).ringsHeld)

/-- A read request brings submission entries of a ring. -/
def ReadUse.isSq (u : ReadUse) (r : Nat) : Bool :=
  match u with
  | .sq r' _ => r' == r
  | .line _ _ _ _ _ _ => false

/-- Forget the SQ reads of a ring: what they bring is discarded, and entries fetched but not accepted go back to the
SQ. -/
def State.dropFetches (s : State) (f r : Nat) : State :=
  ({ s with reads := s.reads.map fun (q : ReadReq) =>
      if q.fn = f ∧ q.use.isSq r then { q with orphan := true } else q }).updRing f r fun x =>
    { x with fetched := [], sqFetch := x.sqHead }

/-- A ring that is DRAINING or in ERROR becomes DISABLED when its last accepted command has ended (Table 14-1). -/
def Ring.settle (x : Ring) : Ring :=
  if (x.state = .draining ∨ x.state = .error) ∧ x.accepted = 0 then { x with state := .disabled } else x

/-- A ring enters ERROR (R388, R397). -/
def State.ringError (s : State) (f r : Nat) (code : BitVec 4) : State :=
  (((s.dropFetches f r).updRing f r fun x => ({ x with state := .error, err := code } : Ring).settle).setFnTrb f
    .ringFault).retarget

/-- A write by a command of its own: an Unsupported Request while memory space is disabled (R336). -/
def State.barRow (s : State) (f : Nat) (g : State → State) : State :=
  if s.barMode f = .unsupported then s.logUr f true else g s

/-! ## Doorbells (R385, R386) -/

/-- A doorbell write that was discarded (R385, Table 19-2). -/
def State.badDoorbell (s : State) (f r : Nat) (bad : Bool) : State :=
  (s.updRing f r fun x => { x with badDb := x.badDb || bad }).setFnTrb f .badDoorbell

/-- Lines of host memory that a tenant's command has fetched miss from now on: they are fetched afresh when they are needed
(R314); light inputs have been taken whole (R240). -/
def Run.missHost (r : Run) (f : Nat) : Run := if r.fn = f ∧ !r.light then r.forget fun p => p.2.host else r

/-- Lines fetched ahead that a new host generation makes miss before any core has consumed them (R257, R314). -/
def State.staleAhead (s : State) (f : Nat) : Nat :=
  (s.comp.runs.map fun p =>
    if p.2.fn = f ∧ !p.2.light then p.2.aheadCount fun q => q.2.host else 0).sum

/-- A line request of a tenant whose answer belongs to an older host generation (R314). -/
def State.staleRead (s : State) (f : Nat) (q : ReadReq) : Bool :=
  match q.use with
  | .sq _ _ => false
  | .line k _ _ _ _ _ => q.fn == f && (match Table.find s.comp.runs k with
      | some r => !r.light
      | none => true)

/-- Every doorbell write of a ring of the tenant begins a new host generation, 32 bits wide: lines fetched before it are fetched
afresh, and what is on its way is not used (R314); where the count wraps, the tenant's cache ways are invalidated (R592). -/
def State.newGeneration (s : State) (f : Nat) : State :=
  let n := ((s.fnSt f).hostGen + 1) % 2 ^ 32
  let b := (s.updFn f fun x => { x with hostGen := n }).stat f 16 (s.staleAhead f)
  let a := if n = 0 then b.emptyCache fun p => p.2.fn == f else b
  { a with
    reads := a.reads.map fun (q : ReadReq) => if s.staleRead f q then { q with orphan := true } else q
    comp := { a.comp with runs := a.comp.runs.map fun p => (p.1, p.2.missHost f) } }

/-- A write of `SQ_TAIL`. -/
def State.sqTailWrite (s : State) (f r : Nat) (v : Word) : State :=
  if s.barMode f ≠ .normal ∨ !s.ringExists f r then s
  else
    let s := s.newGeneration f
    let x := s.ring f r
    let tail := bitsOf v 15 0
    if x.state ≠ .active then s.badDoorbell f r false
    else if tail ≥ x.sqSize then s.badDoorbell f r true
    else
      let n := (tail + x.sqSize - x.sqTail) % x.sqSize
      let t := s.updRing f r fun x => { x with sqTail := tail, bells := x.bells ++ List.replicate n s.time }
      if tail = x.sqTail then t else t.wake 0

/-- A `CQ_HEAD` value lies between the present CQ head and tail, going forward round the ring. -/
def Ring.headOk (x : Ring) (h : Nat) : Bool :=
  decide (h < x.cqSize) && decide ((h + x.cqSize - x.cqHead) % x.cqSize ≤ x.unconsumed)

/-- A write of `CQ_HEAD`: accepted on an ACTIVE or DRAINING ring. -/
def State.cqHeadWrite (s : State) (f r : Nat) (v : Word) : State :=
  if s.barMode f ≠ .normal ∨ !s.ringExists f r then s
  else
    let s := s.newGeneration f
    let x := s.ring f r
    let h := bitsOf v 15 0
    if x.state ≠ .active ∧ x.state ≠ .draining then s.badDoorbell f r false
    else if x.headOk h then s.updRing f r fun x => { x with cqHead := h }
    else s.badDoorbell f r true

/-- SQ_TAIL. -/
def execSqTail (fn : FnId) (ring : RingId) (value : Word) (s : State) : Host.Outcome State Fault Refusal :=
  ok (s.barRow fn.val fun s => s.sqTailWrite fn.val ring.val value)

/-- CQ_HEAD. -/
def execCqHead (fn : FnId) (ring : RingId) (value : Word) (s : State) : Host.Outcome State Fault Refusal :=
  ok (s.barRow fn.val fun s => s.cqHeadWrite fn.val ring.val value)

/-! ## Enabling and disabling a ring (R383, R399) -/

/-- The completion vectors of a function (Table 12-5). -/
def completionVector (f v : Nat) : Bool := if f = 0 then decide (2 ≤ v) && decide (v ≤ 63) else decide (1 ≤ v) && decide (v ≤ 32)

/-- The first failing check of an enable, 0 for none (R383). -/
def State.enableErr (s : State) (f : Nat) (x : Ring) : Nat :=
  let inRange (n : Nat) : Bool := decide (4 ≤ n) && decide (n ≤ 16)
  let hw := (s.fnSt f).hwin
  if !(inRange x.sqLog2.toNat && inRange x.cqLog2.toNat) then 1
  else if (hostWindow hw (4096 * x.sqBase.toNat) (64 * x.sqSize) false).isNone then 2
  else if (hostWindow hw (4096 * x.cqBase.toNat) (16 * x.cqSize) true).isNone then 3
  else if !completionVector f x.vector.toNat then 4
  else 0

/-- A write of RING_CTL.en = 1: it acts on a DISABLED ring. -/
def State.ringEnable (s : State) (f r : Nat) : State :=
  if s.barMode f ≠ .normal ∨ !s.ringExists f r then s
  else
    let x := s.ring f r
    if x.state ≠ .disabled then s
    else
      let e := s.enableErr f x
      if e = 0 then
        (s.updRing f r fun x => { x with
          state := .active, err := 0, sqHead := 0, sqTail := 0, sqFetch := 0, cqHead := 0, cqTail := 0
          seq := 0, phase := true, fetched := [], pend := 0, accepted := 0, bells := [] }).retarget
      else s.updRing f r fun x => { x with err := BitVec.ofNat 4 e }

/-- A write of RING_CTL.en = 0: it acts on an ACTIVE ring. -/
def State.ringDisable (s : State) (f r : Nat) : State :=
  if s.barMode f ≠ .normal ∨ !s.ringExists f r then s
  else if (s.ring f r).state ≠ .active then s
  else ((s.dropFetches f r).updRing f r fun x => ({ x with state := .draining } : Ring).settle).retarget

/-- RING_ENABLE. -/
def execRingEnable (fn : FnId) (ring : RingId) (s : State) : Host.Outcome State Fault Refusal :=
  ok (s.barRow fn.val fun s => s.ringEnable fn.val ring.val)

/-- RING_DISABLE. -/
def execRingDisable (fn : FnId) (ring : RingId) (s : State) : Host.Outcome State Fault Refusal :=
  ok (s.barRow fn.val fun s => s.ringDisable fn.val ring.val)

/-! ## Fetching (R387, R388) -/

/-- The firmware serves the rings: it runs, the device is at RL0 and no trip holds (R499, R580, R622). -/
def State.serves (s : State) : Bool := s.fwRuns && decide (s.power.level = 0) && !s.life.tripped

/-- How many entries an SQ read takes: up to 8, up to the tail, not past the end of the SQ, within the request size
and a 4 KiB page (R266, R320), while the CQ and the tickets have room for each (R387). -/
def State.fetchCount (s : State) (f r : Nat) : Nat :=
  let x := s.ring f r
  let toTail := if x.sqFetch ≤ x.sqTail then x.sqTail - x.sqFetch else x.sqSize - x.sqFetch
  let n := min (min 8 toTail) (min (s.mrrsBytes / 64) (64 - x.sqFetch % 64))
  let room := (highest (fun k => x.cqRoom (k - 1) || k == 0) (n + 1)).getD 0
  if x.failFast then room
  else
    let held := s.ticketsHeld f
    let quota := (s.fnSt f).quota.tickets - held
    let free := if x.rt then s.freeTickets else s.freeTickets - s.tenants.rtReserve.toNat
    min room (min quota free)

/-- Issue a read request of a function (R312, R321). -/
def State.issueRead (s : State) (f tag addr len : Nat) (ns : Bool) (use : ReadUse) : State :=
  let q : ReadReq := { tag := tag, fn := f, addr := addr, len := len, use := use, sent := s.canSend f, issued := s.time }
  ({ s with reads := s.reads ++ [q] }).busSend f (.memRead f tag addr len ns)

/-- SQ_FETCH: an SQ read of a ring, checked against the host windows first. -/
def execSqFetch (fn : FnId) (ring : RingId) (s : State) : Host.Outcome State Fault Refusal :=
  let f := fn.val
  let r := ring.val
  let x := s.ring f r
  let outstanding := s.reads.any fun q => q.fn == f && !q.orphan && q.use.isSq r
  if !(s.serves && s.fetchable f r) || outstanding || !x.fetched.isEmpty then ok s
  else
    let n := s.fetchCount f r
    let a := 4096 * x.sqBase.toNat + 64 * x.sqFetch
    if n = 0 then ok s
    else
      match hostWindow (s.fnSt f).hwin a (64 * n) false with
      | none => ok (s.ringError f r 5)
      | some ns =>
        match s.freeTag with
        | none => ok s
        | some tag =>
          let t := s.updRing f r fun x => { x with sqFetch := (x.sqFetch + n) % x.sqSize }
          ok ((t.issueRead f tag a (64 * n) ns (.sq r n)).perfAdd 31 n)

/-- The sixteen dwords of a 64-byte entry (R4). -/
def entryOf (b : Bytes) : Entry := (List.range 16).map fun i => BitVec.ofNat 32 (leAt b (4 * i) 4)

/-- The entries of an SQ read arrive, or the read fails (R388). -/
def State.sqArrive (s : State) (f r : Nat) (good : Bool) (data : Bytes) : State :=
  if good then s.updRing f r fun x => { x with fetched := x.fetched ++ (chunksOf 64 64 data).map entryOf }
  else s.ringError f r 5

/-! ## The order of acceptance (R463, R464) -/

/-- Keys of the rings of a class whose next entry has been fetched, ascending. -/
def State.arrived (s : State) (rt : Bool) : List Nat :=
  (s.rings.filter fun p => p.2.rt == rt && !p.2.fetched.isEmpty && decide (p.2.state = .active)).map Prod.fst

/-- The next key after `last`, going round. -/
def nextAfter (l : List Nat) (last : Nat) : Option Nat := (l.find? fun k => decide (last < k)).or l.head?

/-- The best-effort ring whose turn it is, with its function's turn: weighted round robin over functions, the rings of a function in
turn (R464). -/
def State.bePick (s : State) : Option (Nat × Nat × Nat) :=
  let l := s.arrived false
  let t := s.tenants
  match weightedTurn (fun f => (s.fnSt f).quota.weight) (t.beFn, t.beUsed) (l.map fun k => k / 256) with
  | none => none
  | some (f, n) =>
    let own := l.filter fun k => k / 256 == f
    ((own.find? fun k => decide (Table.get 0 t.beRings f ≤ k)).or own.head?).map fun k => (k, f, n)

/-- Whose entry is accepted next, and the scheduling memory after it. -/
def State.turn (s : State) : Option (Nat × Tenants) :=
  let t := s.tenants
  let rt := s.arrived true
  let be (served : List Nat) : Option (Nat × Tenants) :=
    s.bePick.map fun (k, f, n) =>
      (k, { t with rtServed := served, beTaken := true, beFn := f, beUsed := n, beRings := Table.set 0 t.beRings f (k + 1) })
  match nextAfter (rt.filter fun k => !t.rtServed.contains k) t.lastRt with
  | some k => some (k, { t with lastRt := k, rtServed := k :: t.rtServed })
  | none =>
    match (if t.beTaken then none else be t.rtServed) with
    | some x => some x
    | none =>
      match nextAfter rt t.lastRt with
      | some k => some (k, { t with lastRt := k, rtServed := [k], beTaken := false })
      | none => be []

/-! ## Completion entries (R396, R397, R406, R407) -/

/-- Announce a ring's pending completions on its vector (R406). -/
def State.announce (s : State) (f r : Nat) : State :=
  if (s.ring f r).pend = 0 then s
  else (s.updRing f r fun x => { x with pend := 0 }).sendMsi f (s.ring f r).vector.toNat

/-- The 16 bytes of a completion entry (Table 14-4). -/
def cqEntry (r0 r1 : Word) (tag status seq ticket : Nat) (phase : Bool) : Bytes :=
  leBytes 4 r0.toNat ++ leBytes 4 r1.toNat ++ leBytes 2 tag ++ leBytes 2 status
    ++ leBytes 4 (seq % 2 ^ 21 + 2 ^ 21 * ticket + 2 ^ 31 * b2n phase)

/-- The STATS slot that counts a status (Table 24-6): classes 0x01 to 0x05. -/
def statusSlot (status : BitVec 16) : Option Nat :=
  let c := bitsOf status 15 8
  if 1 ≤ c ∧ c ≤ 5 then some (3 + c) else none

/-- A ring after a completion entry was written at its CQ tail at a time (R396, R406). -/
def Ring.wrote (x : Ring) (now : BitVec 64) : Ring :=
  let wraps := decide (x.cqTail + 1 = x.cqSize)
  { x with
    cqTail := if wraps then 0 else x.cqTail + 1
    phase := if wraps then !x.phase else x.phase
    pendSince := if x.pend = 0 then now else x.pendSince
    pendLimit := x.modTime
    pend := x.pend + 1 }

/-- Count a written completion (Tables 24-6, 24-7). -/
def State.countCqe (s : State) (f : Nat) (status : BitVec 16) : State :=
  let s := ((s.stat f 3 1).perfAdd 43 1).perfAdd 32 1
  match statusSlot status with
  | some k => s.stat f k 1
  | none => s

/-- A ring's pending completions are due for their message: NOTIFY, or the count is reached (R406, R407). -/
def Ring.due (x : Ring) (e : Entry) : Bool :=
  Entry.notify e || (decide (x.modCount ≠ 0) && decide (x.modCount.toNat ≤ x.pend))

/-- Write a completion entry at a ring's CQ tail, after its window check (R396, R397). -/
def State.writeCqe (s : State) (f r : Nat) (e : Entry) (seq : Word) (ticket : Nat) (status : BitVec 16)
    (r0 r1 : Word) : State :=
  let x := s.ring f r
  if x.state = .error ∧ x.err = 6 then s
  else
    let a := 4096 * x.cqBase.toNat + 16 * x.cqTail
    match hostWindow (s.fnSt f).hwin a 16 true with
    | none => s.ringError f r 6
    | some ns =>
      let b := cqEntry r0 r1 (Entry.tag e) status.toNat seq.toNat ticket x.phase
      let s1 := (s.busSend f (.memWrite f a b ns)).updRing f r fun y => y.wrote s.time
      let d := BitVec.ofNat 32 (status.toNat + 65536 * (seq.toNat % 65536))
      let s2 := (s1.countCqe f status).traceEmit 2 (some f) false 0x11 f r d
      if (s2.ring f r).due e then s2.announce f r else s2

/-! ## Acceptance (R389 to R394, R400, R401) -/

/-- The opcodes of Table 15-1. -/
def definedOpcodes : List Nat :=
  [0x00, 0x01, 0x02, 0x10, 0x11, 0x12, 0x13, 0x14, 0x15, 0x16, 0x20, 0x21, 0x22, 0x23, 0x30, 0x31, 0x32, 0x33, 0x34,
   0x40, 0x41, 0x42, 0x43, 0x50, 0x51, 0x52, 0x53, 0x60, 0x61, 0x62]

/-- The management opcodes (R391). -/
def managementOpcode (o : Nat) : Bool :=
  (decide (0x30 ≤ o) && decide (o ≤ 0x34)) || (decide (0x50 ≤ o) && decide (o ≤ 0x53))

/-- The opcode accepts the ring's class and the function (R414, Table 15-1). -/
def opcodeAllowed (o f : Nat) (rt : Bool) : Bool :=
  if o = 0x22 then rt
  else if o ∈ [0x10, 0x11, 0x12, 0x51, 0x52, 0x53] then !rt
  else if o = 0x62 then !rt && f == 0
  else true

/-- The checks made of every entry at acceptance (R391 items 1 and 2, R414). -/
def acceptStatus (e : Entry) (f : Nat) (rt : Bool) : Option (BitVec 16) :=
  let o := Entry.opcode e
  if !definedOpcodes.contains o || (managementOpcode o && f != 0) then some St.badOpcode
  else if Entry.rsv e ≠ 0 ∨ (Entry.light e ∧ o ≠ 0x13 ∧ o ≠ 0x23) then some St.badParam
  else if !opcodeAllowed o f rt then some St.badParam
  else none

/-- A command of a ring waits behind a fence: a FENCE command at or before it still waits for earlier completions
(R401). -/
def State.fenceBlocks (s : State) (c : Cmd) : Bool :=
  s.cmds.any fun p =>
    let d := p.2
    d.fn == c.fn && d.ring == c.ring && Entry.fence d.entry && decide (d.phase ≠ .ended)
      && !seqLater d.seq c.seq
      && s.cmds.any fun q => q.2.fn == c.fn && q.2.ring == c.ring && seqLater d.seq q.2.seq

/-- A command is held by a TENANT_RESET of its function that was accepted before it (R444). -/
def State.resetBlocks (s : State) (c : Cmd) : Bool :=
  s.cmds.any fun p =>
    Entry.opcode p.2.entry == 0x60 && resetTarget p.2.entry == c.fn && (p.2.fn == 0 || p.2.fn == c.fn)
      && decide (p.2.order < c.order)
      && decide (p.2.phase ≠ .ended)

/-- Dispatch a held command that nothing holds any longer. -/
def State.unhold (s : State) (c : Cmd) : Cmd :=
  if c.phase = .held ∧ !s.fenceBlocks c ∧ !s.resetBlocks c then { c with phase := .ready } else c

/-- Accept an entry under a ticket (R389, R391). -/
def State.accept (s : State) (f r t : Nat) (e : Entry) : State :=
  let x := s.ring f r
  let y := s.fnSt f
  let c : Cmd :=
    { fn := f, ring := r, seq := x.seq, entry := e, time := s.time, order := s.order, phase := .held
      hwin := y.hwin, dwin := y.dwin, bell := x.bells.headD s.time, haltBase := s.haltNow }
  let s1 := { s with order := s.order + 1 }
  let c := match (acceptStatus e f x.rt).or (s.ownCheck c) with
    | some st => { c with phase := .ended, status := st }
    | none => { s1 with cmds := Table.insert s1.cmds t c }.unhold c
  let s2 := ({ s1 with cmds := Table.insert s1.cmds t c }).updRing f r fun x => { x with accepted := x.accepted + 1 }
  let held := s2.ticketsHeld f
  let s3 := s2.updFn f fun y => { y with stats := Table.upd 0 y.stats 24 fun v => max v held }
  { s3 with perf := Table.upd 0 s3.perf 44 fun v => max v s3.cmds.length }

/-- ENTRY_ACCEPT: the CP accepts the ring's next fetched entry, when it is that ring's turn (R389, R463). -/
def execEntryAccept (fn : FnId) (ring : RingId) (s : State) : Host.Outcome State Fault Refusal :=
  let f := fn.val
  let r := ring.val
  match s.turn with
  | none => ok s
  | some (k, ten) =>
    let x := s.ring f r
    match x.fetched with
    | [] => ok s
    | e :: rest =>
      let free := s.ticketFree f x.rt
      if !s.serves || k ≠ ringKey f r || (!free && !x.failFast) then ok s
      else
        let s := { s with tenants := ten, power := { s.power with idleTicks := 0 } }
        let s := s.updRing f r fun x => { x with
          fetched := rest
          sqHead := (x.sqHead + 1) % x.sqSize }
        let s := ((s.stat f 2 1).perfAdd 42 1).traceEmit 2 (some f) false 0x10 f r x.seq
        let s := match free, lowest (fun t => (s.cmd? t).isNone) 768 with
          | true, some t => s.accept f r t e
          | _, _ => s.writeCqe f r e x.seq 0x3FF St.noTicket 0 0
        ok ((s.updRing f r fun x => { x with seq := x.seq + 1, bells := x.bells.drop 1 }).ltrUpdate)

/-- FENCE_RELEASE: the commands of a ring that nothing holds any longer are dispatched (R401, R428, R444). -/
def execFenceRelease (fn : FnId) (ring : RingId) (s : State) : Host.Outcome State Fault Refusal :=
  if !s.serves then ok s
  else ok { s with cmds := s.cmds.map fun p =>
    (p.1, if p.2.fn = fn.val ∧ p.2.ring = ring.val then s.unhold p.2 else p.2) }

/-- A command's completion may be written: it has ended, an ORDERED one only after every lower sequence number of its
ring (R400), and its function may send (R335). -/
def State.mayComplete (s : State) (c : Cmd) : Bool :=
  decide (c.phase = .ended) && s.canSend c.fn &&
    !(Entry.ordered c.entry && s.cmds.any fun p =>
        p.2.fn == c.fn && p.2.ring == c.ring && seqLater c.seq p.2.seq)

/-! ## Deadlines at the end of a command (R281, R285 to R289) -/

/-- The reported cause of a miss (R286, Table 10-2): WIDEN, or the largest component, ties in the order of the rule. -/
def missCause (widen : Bool) (halt pace input contention : Nat) : Nat :=
  let m := max (max halt pace) (max input contention)
  if widen then 3 else if halt = m then 5 else if pace = m then 2 else if input = m then 1 else 4

/-- A component in a log entry: units of 256 ticks, saturating at 16 bits. -/
def missUnits (n : Nat) : Bytes := leBytes 2 (satNat 0xFFFF (n / 256))

/-- Whether the previous frame of a stream, or the previous deadline-carrying RUN or CHAIN of a ring, missed (R288). -/
def State.wasMissed (s : State) (c : Cmd) (m : MissInfo) : Bool :=
  match m.slot with
  | some i => (s.slot i).missed
  | none => (s.ring c.fn c.ring).missed

/-- Remember whether this one missed. -/
def State.noteMissed (s : State) (c : Cmd) (m : MissInfo) (b : Bool) : State :=
  match m.slot with
  | some i => if (s.slot i).isOpen then s.updSlot i fun x => { x with missed := b } else s
  | none => s.updRing c.fn c.ring fun x => { x with missed := b }

/-- Result word 1 of a missed command (Table 10-3). -/
def missWord (old : Word) (cause stage late : Nat) : Word := old ||| mkWord [(0, cause), (3, stage), (8, late)]

/-- Count, log and mark a miss (R288, R516). -/
def State.reportMiss (s : State) (c : Cmd) (m : MissInfo) (cause : Nat) (halt pace input contention : Nat) : State :=
  let a := s.stat c.fn 9 1
  let b := if s.wasMissed c m then a.setFnTrb c.fn .deadlineMiss
    else
      a.logEvent 0x32 (fnByte c.fn)
        (leBytes 1 (m.slot.getD 0xFF) ++ leBytes 1 cause ++ leBytes 4 c.seq.toNat ++ missUnits halt ++ missUnits pace
          ++ missUnits input ++ missUnits contention ++ leBytes 1 c.ring) [.fn c.fn FnTrb.deadlineMiss.bit]
  b.noteMissed c m true

/-- Decide a deadline-carrying command's miss as its completion is written (R281, R289). A command with an abort status
reports none (R277). -/
def State.judge (s : State) (c : Cmd) : State × Cmd :=
  match c.miss with
  | none => (s, c)
  | some m =>
    if 1 < bitsOf c.status 15 8 then (s, c)
    else if s.time ≤ m.deadline ∧ !m.kept then (s.noteMissed c m false, c)
    else
      let halt := s.haltNow - c.haltBase + m.halt
      let cause := if m.haltDrop && !m.widen then 5 else missCause m.widen halt m.pace m.input m.contention
      let late := if s.time ≤ m.deadline then 0 else satNat 0xFFFFFF ((s.time - m.deadline).toNat / 256)
      (s.reportMiss c m cause halt m.pace m.input m.contention,
        { c with status := c.status ||| 0x0108, res1 := missWord c.res1 cause m.stage late })

/-- Close a slot at once and free it; its overrun count stays readable (Table 13-6). -/
def State.dropSlot (s : State) (i : Nat) : State := s.updSlot i fun x => { overrun := x.overrun }

/-- A slot that closes becomes free when the completion of its last frame has been written; its STREAM_CLOSE ends with it
(R360). -/
def State.slotDone (s : State) (i : Nat) : State :=
  let sl := s.slot i
  let busy := (s.comp.runs.any fun p => p.2.slot == some i)
    || s.cmds.any fun p => (p.2.miss.bind fun m => m.slot) == some i
  if !sl.closing || busy then s
  else
    let a := s.dropSlot i
    match sl.closer with
    | some t => (a.endCmd t St.ok 0 0).retarget
    | none => a.retarget

/-- A capture buffer whose command has completed is free (R353). -/
def State.freeCapture (s : State) (i : Nat) (cap : Option Nat) : State :=
  match cap with
  | some b => s.updSlot i fun y => { y with bufs := Table.set {} y.bufs b {} }
  | none => s

/-- The slot of a command whose completion has been written. -/
def State.afterFrame (s : State) (c : Cmd) : State :=
  match c.miss with
  | some m =>
    match m.slot with
    | some i => (s.freeCapture i m.cap).slotDone i
    | none => s
  | none => s

/-- Write the completion entry of an ended command and free its ticket (R393, R396), if it may be written now. -/
def State.completionWrite (s : State) (t : Nat) : State :=
  match s.cmd? t with
  | none => s
  | some c =>
    if !s.serves || !s.mayComplete c then s
    else
      let (s, c) := s.judge c
      let s := s.writeCqe c.fn c.ring c.entry c.seq t c.status c.res0 c.res1
      let s := { s with cmds := Table.erase s.cmds t }
      ((s.updRing c.fn c.ring fun x => ({ x with accepted := x.accepted - 1 } : Ring).settle).afterFrame c).retarget

/-- COMPLETION_WRITE. -/
def execCompletionWrite (t : Ticket) (s : State) : Host.Outcome State Fault Refusal := ok (s.completionWrite t.val)

/-- MODERATION_TIMEOUT: RING_MOD.time_us have passed since the oldest pending completion was written (R406), its value as the last
completion found it (14.10). -/
def execModerationTimeout (fn : FnId) (ring : RingId) (s : State) : Host.Outcome State Fault Refusal :=
  let x := s.ring fn.val ring.val
  if x.pend ≠ 0 ∧ x.pendLimit ≠ 0 ∧ s.usSince x.pendSince x.pendLimit.toNat then ok (s.announce fn.val ring.val)
  else ok s

end Sys2Proof.Machine
end

