-- ==== Sys2Proof/Machine/WeftOps.lean ====
section
/-!
DEFINITION. The Weft link's flits and its sending side (R361 to R366, R370), which every file that talks to another chip
uses.
-/

namespace Sys2Proof.Machine

/-! ## Flits (R361) -/

/-- A flit's header (Table 13-5), the sequence field 0. -/
def flitHead (kind dst src : Nat) (poison : Bool) (chan : Nat) : Nat :=
  kind * 2 ^ 12 + dst % 4 * 2 ^ 16 + src % 4 * 2 ^ 18 + b2n poison * 2 ^ 20 + chan % 128 * 2 ^ 21

/-- Header and payload of a flit, the sequence field 0. -/
def flitBody (kind dst src : Nat) (poison : Bool) (chan : Nat) (payload : Bytes) : Bytes :=
  leBytes 4 (flitHead kind dst src poison chan) ++ (payload ++ zeroBytes 64).take 64

/-- The 72 bytes of a flit: its sequence number and its CRC set. -/
def flitSeal (seq : Nat) (body : Bytes) : Bytes :=
  let b := leBytes 4 (leAt body 0 4 / 4096 * 4096 + seq % 4096) ++ (body.drop 4).take 64
  b ++ leBytes 4 (crc32 b).toNat

namespace Flit
/-- Fields of a flit's header. -/
def head (f : Bytes) : Nat := leAt f 0 4
def seq (f : Bytes) : Nat := head f % 4096
def kind (f : Bytes) : Nat := head f / 2 ^ 12 % 16
def dst (f : Bytes) : Nat := head f / 2 ^ 16 % 4
def src (f : Bytes) : Nat := head f / 2 ^ 18 % 4
def poison (f : Bytes) : Bool := head f / 2 ^ 20 % 2 == 1
def chan (f : Bytes) : Nat := head f / 2 ^ 21 % 128
/-- The payload. -/
def payload (f : Bytes) : Bytes := (f.drop 4).take 64
/-- The flit is whole and its CRC is good. -/
def good (f : Bytes) : Bool := f.length == 72 && leAt f 68 4 == (crc32 (f.take 68)).toNat
end Flit

/-! ## Ports -/

/-- A port. -/
def State.port (s : State) (i : Nat) : Port := Table.get {} s.weft.ports i

/-- Change a port. -/
def State.updPort (s : State) (i : Nat) (g : Port → Port) : State :=
  { s with weft := { s.weft with ports := Table.upd {} s.weft.ports i g } }

/-- A peer chip. -/
def State.peer (s : State) (c : Nat) : Peer := Table.get {} s.weft.peers c

/-- Change what is known of a peer. -/
def State.updPeer (s : State) (c : Nat) (g : Peer → Peer) : State :=
  { s with weft := { s.weft with peers := Table.upd {} s.weft.peers c g } }

/-- This chip's ID. -/
def State.self (s : State) : Nat := s.life.chipId.toNat

/-- The live map of a chip, its own bit included (R368, Table 13-6). -/
def State.liveMap (s : State) : Nat :=
  ((List.range 4).map fun c => 2 ^ c * b2n (c == s.self || (s.peer c).live)).sum

/-- Transmit what a port may: flits that are being resent, then waiting ones, while there is credit and room in the window
of 512 (R363, R364). Answers the flits in the order of their transmission. -/
def Port.pump (now : BitVec 64) : Nat → Port → Port × List Bytes
  | 0, p => (p, [])
  | n + 1, p =>
    if p.credits = 0 then (p, [])
    else
      match p.unacked[p.cur]? with
      | some b =>
        let r := Port.pump now n { p with cur := p.cur + 1, credits := p.credits - 1 }
        (r.1, flitSeal (p.txSeq.toNat + p.cur) b :: r.2)
      | none =>
        match p.waiting with
        | [] => (p, [])
        | b :: t =>
          if 512 ≤ p.unacked.length then (p, [])
          else
            let r := Port.pump now n { p with
              waiting := t, unacked := p.unacked ++ [b], cur := p.cur + 1, credits := p.credits - 1
              lastAck := if p.unacked.isEmpty then now else p.lastAck }
            (r.1, flitSeal (p.txSeq.toNat + p.unacked.length) b :: r.2)

/-- Emit flits on a port and count them (Table 24-7). -/
def State.emitFlits (s : State) (i : Nat) (l : List Bytes) : State :=
  ({ s with out := s.out ++ l.map fun b => Out.flit i b }).perfAdd (38 + i) l.length

/-- Send an unsequenced flit to the neighbour of a port that is up; where the neighbour's ID is not known the destination field is
free. -/
def State.sendBare (s : State) (i kind seq : Nat) (payload : Bytes) : State :=
  if !(s.port i).up then s
  else
    let dst := (s.port i).neighbour.getD (Config.freeNat s.fresh)
    { s.tick with out := s.out ++ [.flit i (flitSeal seq (flitBody kind dst s.self false 0 payload))] }

/-- An IDLE flit, which a port sends whenever it has no credit or nothing else to send (R364, R365); one stands for all of them
until the port sends again, or the time base ticks (log entry 132). -/
def State.sendIdle (s : State) (i : Nat) : State := s.sendBare i 0 0 []

/-- Let a port transmit. -/
def State.pump (s : State) (i : Nat) : State :=
  let p := s.port i
  if !p.up then s
  else
    let r := p.pump s.time (p.unacked.length + p.waiting.length + 1)
    ((s.updPort i fun _ => r.1).emitFlits i r.2).sendIdle i

/-- The port by which a chip is reached (R370); none while both are down. -/
def State.route (s : State) (dst : Nat) : Option Nat :=
  let a := s.port 0
  let b := s.port 1
  if !a.up && !b.up then none
  else if !b.up then some 0
  else if !a.up then some 1
  else if a.neighbour = some dst then some 0
  else if b.neighbour = some dst then some 1
  else some 0

/-- Send a sequenced flit on a port. -/
def State.sendOn (s : State) (i : Nat) (body : Bytes) : State :=
  (s.updPort i fun p => { p with waiting := p.waiting ++ [body] }).pump i

/-- Send a sequenced flit to a chip; without a path it is lost. -/
def State.sendTo (s : State) (dst : Nat) (body : Bytes) : State :=
  match s.route dst with
  | some i => s.sendOn i body
  | none => s

/-- Send a message to the firmware of a chip (R372). -/
def State.sendCtrl (s : State) (dst : Nat) (m : CtrlMsg) : State :=
  s.sendTo dst (flitBody 2 dst s.self false 0 (Config.ctrlBytes m))

/-- Send one line to a chip on a transfer channel (R361, R366). -/
def State.sendLine (s : State) (dst chan : Nat) (d : Bytes) (poison : Bool) : State :=
  s.sendTo dst (flitBody 1 dst s.self poison chan d)

/-- A port's state once it is down: its unacknowledged flits are discarded; what it has received stays (R365). -/
def Port.cut (p : Port) : Port :=
  { errCrc := p.errCrc, errResend := p.errResend, heldDown := p.heldDown, neighbour := p.neighbour, rxBuf := p.rxBuf }

/-- A port goes down: flits not yet sent leave by the other port (R365, R370). -/
def State.portCut (s : State) (i : Nat) : State :=
  let p := s.port i
  p.waiting.foldl (fun (t : State) x => t.sendTo (Flit.dst x) x) (s.updPort i Port.cut)

/-- A port goes down for a reason of Table 19-5: it is logged and traced (R365, Table 22-7). -/
def State.portOff (s : State) (i : Nat) (reason : Nat) : State :=
  if !(s.port i).up then s
  else ((s.portCut i).logEvent 0x50 devByte (leBytes 1 i ++ leBytes 1 reason) []).traceEmit 5 none false 0x40 i 0 (BitVec.ofNat 32 reason)

/-! ## Ring order (R370, R373) -/

/-- The other chips in ring order from this chip's port 0: the neighbour there, then chips that are no neighbour, then the
neighbour at port 1. -/
def State.ringOrder (s : State) : List Nat :=
  let a := (s.port 0).neighbour
  let b := (s.port 1).neighbour
  let rest := ((List.range 3).map fun i => (s.self + 1 + i) % 4).filter fun c => some c != a && some c != b
  let tail := match b with
    | some c => if b = a then [] else [c]
    | none => []
  (a.toList ++ rest ++ tail).filter fun c => c != s.self

/-- The live chips other than this one, in ring order. -/
def State.livePeers (s : State) : List Nat := s.ringOrder.filter fun c => (s.peer c).live

end Sys2Proof.Machine
end

