-- ==== Sys2Proof/Machine/Release.lean ====
section
/-!
DEFINITION. Giving resources back: the cores, SAC ways, bank reservations and stream slots of a binding or a function
(R193, R310, R331, R333, R360, R456 to R461).
-/

namespace Sys2Proof.Machine

/-! ## Cores (R193, R456) -/

/-- Zero the stores and the registers of a list of cores (R193). -/
def State.zeroCores (s : State) (l : List Nat) : State :=
  { s with addr := { s.addr with
    cores := s.addr.cores.filter fun p => !l.contains (p.1 / 1048576)
    coreRegs := s.addr.coreRegs.filter fun p => !l.contains p.1 } }

/-! ## SAC ways (R457 to R461) -/

/-- The scratch ways of a tenant, ascending: its partition (R457). -/
def Tenants.scratchWays (t : Tenants) (f : Nat) : List Nat :=
  (t.ways.filter fun p => decide (p.2.owner = some f) && p.2.scratch).map Prod.fst

/-- The ways of a tenant. -/
def Tenants.waysOf (t : Tenants) (f : Nat) : List Nat :=
  (t.ways.filter fun p => decide (p.2.owner = some f)).map Prod.fst

/-- Empty a list of ways: their data is zeroed; every line newer than LP5X is in LP5X already (R315, R461). -/
def State.emptyWays (s0 : State) (l : List Nat) : State :=
  let s := s0.emptyCache fun p => l.contains (p.1 / 32768)
  { s with
    addr := { s.addr with
      sac := s.addr.sac.filter fun p => !l.contains (p.1 / 2097152)
      sacPoison := s.addr.sacPoison.filter fun p => !l.contains (p.1 / 32768) }
    tenants := { s.tenants with ways := s.tenants.ways.filter fun p => !l.contains p.1 } }

/-- The unused scratch ways of a tenant above which it uses no scratch way (R460). -/
def Tenants.freeable (t : Tenants) (f : Nat) : List Nat :=
  (t.scratchWays f).filter fun v =>
    (Table.get {} t.ways v).unused
      && (t.scratchWays f).all fun u => decide (u ≤ v) || (Table.get {} t.ways u).unused

/-- Free the ways of a binding: its cache ways, and its scratch ways as far as R460 allows. -/
def State.freeWays (s : State) (k : Nat) : State :=
  let mine (w : Way) : Bool := w.owner.isSome && w.bind == k
  let cache := (s.tenants.ways.filter fun p => mine p.2 && !p.2.scratch).map Prod.fst
  let t := { s with tenants := { s.tenants with
    ways := s.tenants.ways.map fun (p : Nat × Way) => (p.1, if mine p.2 && p.2.scratch then { p.2 with unused := true } else p.2) } }
  (t.emptyWays cache).emptyWays (t.tenants.freeable (k / 64))

/-! ## Bindings (R105, R422) -/

/-- Drop a binding's bank reservations (R105). -/
def Nvm.unreserve (v : Nvm) (k : Nat) : Nvm :=
  { v with resv := (v.resv.map fun p => (p.1, p.2.filter fun x => x != k)).filter fun p => !p.2.isEmpty }

/-- What the messages of a ring job call it: the lead's binding, and its count of binds. -/
def State.jobId (s : State) (k : Nat) : Word := BitVec.ofNat 32 (k + 4096 * (s.bind k).count)

/-- The participants of a ring job release it too: their lead's firmware tells them (R372, R467). -/
def State.tellParts (s : State) (k : Nat) : State :=
  let b := s.bind k
  if b.lead.isSome then s
  else (b.holders.filter fun c => c != s.self).foldl (fun (t : State) c => t.sendCtrl c (.release (s.jobId k))) s

/-- A binding ends: cores zeroed and freed, ways freed, reservations dropped; the index keeps its count (R413, R422,
R456). -/
def State.freeBinding (s : State) (k : Nat) : State :=
  let b := s.bind k
  if !b.live then s
  else
    let t := ((s.tellParts k).zeroCores b.cores).freeWays k
    let t := { t with nvm := t.nvm.unreserve k }
    let t := t.updBind k fun x => { count := x.count }
    t.refreshDoms s

/-- End every binding of a function. -/
def State.freeBindings (s : State) (f : Nat) : State :=
  ((s.binds.filter fun p => p.1 / 64 == f).map Prod.fst).foldl State.freeBinding s

/-! ## Stream slots (R360) -/

/-- Free every slot of a function. -/
def State.dropSlots (s : State) (f : Nat) : State :=
  { s with slots := Table.mapVal {} (fun _ x => if x.isOpen ∧ x.fn = f then { overrun := x.overrun } else x) s.slots }

/-! ## A function ends its work (R331 steps 1 to 4, R333) -/

/-- Forget a function's commands: no completion, their reads are discarded on arrival, their NVM operations act as
CANCEL does (R103, R331). -/
def State.dropWork (s : State) (f : Nat) : State :=
  let mine (t : Nat) : Bool := match s.cmd? t with
    | some c => c.fn == f
    | none => false
  { s with
    reads := s.reads.map fun (q : ReadReq) => if q.fn = f then { q with orphan := true } else q
    comp := { s.comp with runs := s.comp.runs.filter fun p => !(p.2.fn == f) }
    nvm := s.nvm.orphan mine
    cmds := s.cmds.filter fun p => !(p.2.fn == f) }

/-- A function had commands in flight. -/
def State.hadWork (s : State) (f : Nat) : Bool := s.cmds.any fun p => p.2.fn == f

/-- Steps 1 to 4 of R331 for one function. -/
def State.endFunction (s : State) (f : Nat) : State :=
  let t := (((s.tearRuns fun x => x.fn == f).dropWork f).freeBindings f).dropSlots f
  let t := t.emptyWays (t.tenants.waysOf f)
  { t with rings := t.rings.filter fun p => !(p.1 / 256 == f) }

end Sys2Proof.Machine
end

