-- ==== Sys2Proof/Machine/Reset.lean ====
section
/-!
DEFINITION. The device-wide reset of classes P, W, E and S (R9, R104, R112, Table 19-7, Table 24-8), as one operation.
-/

namespace Sys2Proof.Machine

/-- A function across a reset of class S: its configuration space, MSI-X tables and trouble bits stay (R348, R513). -/
def FnSt.soft (x : FnSt) : FnSt :=
  { bme := x.bme, msixEn := x.msixEn, fnMask := x.fnMask, vecs := x.vecs, pba := x.pba, trb := x.trb
    aerUncorr := x.aerUncorr, aerCorr := x.aerCorr, aerFirst := x.aerFirst, aerHdr := x.aerHdr, devSta := x.devSta
    cfgStat := x.cfgStat, crsUntil := x.crsUntil, flrWaits := x.flrWaits }

/-- A function across a reset of class E: its trouble bits stay (R513). -/
def FnSt.hard (x : FnSt) : FnSt := { trb := x.trb }

/-- Functions across a reset. -/
def resetFns (c : ResetClass) (t : Table FnSt) : Table FnSt :=
  match c with
  | .S => Table.mapVal {} (fun _ x => x.soft) t
  | .E => Table.mapVal {} (fun _ x => x.hard) t
  | _ => []

/-- The endpoint across a reset (Tables 12-8, 19-7). -/
def resetPcie (c : ResetClass) (p : Pcie) : Pcie :=
  if c = .S then { p with evtCause := 0, evtMask := 0, recovCnt := 0, cplTo := 0 } else {}

/-- Windows, aperture and memories across a reset (R193, R295, Table 11-5). -/
def resetAddr (c : ResetClass) (a : Addr) : Addr :=
  if c = .S then
    { top := a.top, eccOn := a.eccOn, trained := a.trained, lp5x := a.lp5x, poison := a.poison, lpErr := a.lpErr }
  else {}

/-- The trouble registers and the log across a reset (R513, R520, R523, R525). -/
def resetTrouble (c : ResetClass) (t : Trouble) : Trouble :=
  match c with
  | .P => {}
  | .W => {}
  | _ => { trb := t.trb, next := t.next, oldest := t.oldest, ack := t.ack, log := t.log }

/-- The PACE block across a reset: tj_max, its throttle and the local supplies are live (Table 24-8). -/
def resetPace (p : Pace) : Pace := { sensor := p.sensor, tjMax := p.tjMax, throttle := p.throttle }

/-- The weight store across a reset, its engines having stopped: the arrays and the wear record stay; after a loss of
power the counts resume from the last checkpoint (R73, R104). -/
def resetNvm (c : ResetClass) (v : Nvm) : Nvm :=
  let keep : Nvm :=
    { words := v.words, blocks := v.blocks, map := v.map, gens := v.gens, instCnt := v.instCnt, ckpt := v.ckpt
      ckptInst := v.ckptInst, vppOk := v.vppOk }
  if c = .P then
    let keys := (v.blocks.map Prod.fst) ++ (v.ckpt.map Prod.fst)
    let back (t : Table NvmBlock) (k : Nat) : Table NvmBlock :=
      Table.upd {} t k fun x =>
        let y := Table.get {} v.ckpt k
        { x with rows := y.rows, erases := y.erases, due := y.due }
    { keep with vppOk := false, instCnt := v.ckptInst, blocks := keys.foldl back v.blocks }
  else keep

/-- The debug port across a reset (R573, R575, R633): the scope outlives class S, the failure count class E. -/
def resetDbg (c : ResetClass) (d : Debug) : Debug :=
  match c with
  | .S => { scope := d.scope, attached := d.attached, fails := d.fails, token := d.token, buffer := d.buffer, bsr := d.bsr }
  | .E => { fails := d.fails, bsr := d.bsr }
  | _ => { bsr := d.bsr }

/-- The watchdog restarts (R534); a thermal trip keeps it stopped (R547); `quiesced` is cleared by classes P and E only (Table 20-5). -/
def resetWd (c : ResetClass) (tripped : Bool) (w : Watchdog) : Watchdog :=
  { stopped := tripped, quiesced := w.quiesced && (decide (c = .W) || decide (c = .S)) }

/-- Functions with commands in flight, ascending. -/
def State.workFns (s : State) : List Nat := (List.range 64).filter s.hadWork

/-- The boot state across a reset: which functions are owed FN_TRB.lost_work (R526), which VFs an entry (R331). -/
def State.resetLife (s : State) (c : ResetClass) (cause : ResetCause) (ph : Phase) : Life :=
  let l := s.life
  let kept := decide (c = .E) || decide (c = .S)
  let vfs := (s.workFns.filter fun f => f != 0).map fun f => (f, s.ticketsHeld f)
  { phase := ph, cause := cause, bootStart := if kept then s.time else 0, tripped := l.tripped, chipId := l.chipId
    epoch := (if c = .P then 0 else l.epoch) + 1, failed := l.failed, powerCycle := l.powerCycle
    lostWork := if kept then l.lostWork ++ s.workFns.filter (fun f => !l.lostWork.contains f) else []
    vfEnded := if c = .E then l.vfEnded ++ vfs else if c = .S then l.vfEnded else [] }

/-- The engines stop: at a loss of power at once, at another reset after their code word or erase (R104, R112). -/
def State.stopEngines (s : State) (c : ResetClass) (ph : Phase) : State :=
  let t := { s with life := { s.life with phase := ph } }
  if c = .P then t.forOps State.cutOp else t.forOps State.finishOp

/-- The counters after a reset: clear_stamp is the time base at the reset, every other slot 0 (Table 24-6). -/
def freshStats (time : BitVec 64) : Table Nat := Table.set 0 [] 0 time.toNat

/-- Every function's counters and PERF after a reset of class E or S. -/
def State.stampStats (s : State) : State :=
  { s with
    perf := freshStats s.time
    fns := (List.range 64).foldl (fun (t : Table FnSt) f =>
      Table.upd {} t f fun (x : FnSt) => { x with stats := freshStats s.time }) s.fns }

/-- A reset of class P, W, E or S, ending in phase `ph` (Table 19-7). -/
def State.resetDev (s : State) (c : ResetClass) (cause : ResetCause) (ph : Phase) : State :=
  let e := (s.tearRuns fun _ => true).stopEngines c ph
  let kept := decide (c = .E) || decide (c = .S)
  let a : State :=
   { pending := s.pending, out := s.out, fresh := e.fresh
     time := if kept then s.time else 0
     pins := { s.pins with wdtOutN := s.pins.wdtOutN || decide (c = .P) }
     fuses := s.fuses
     life := s.resetLife c cause ph
     pcie := resetPcie c s.pcie
     fns := resetFns c s.fns
     addr := resetAddr c e.addr
     trouble := resetTrouble c s.trouble
     reads := if c = .S then s.reads.map fun (q : ReadReq) => { q with orphan := true } else []
     pace := resetPace s.pace
     power := { inL1 := s.power.inL1 && decide (c = .S), clkreqN := s.power.clkreqN && decide (c = .S) }
     wd := resetWd c s.life.tripped s.wd
     dbg := resetDbg c s.dbg
     nvm := resetNvm c e.nvm }
  (a.stampStats.paceReenter s).thermWarn

end Sys2Proof.Machine
end

