-- ==== Sys2Proof/Machine/Life.lean ====
section
/-!
DEFINITION. Supplies, PERST_N, the link, DSR and the not-ready timeout (R343, R347, R531, R641, R653, R654, R659).
BOOT itself is in Machine/Boot.lean.
-/

namespace Sys2Proof.Machine

/-- Enter POR (R653): the phase after it depends on the supplies. -/
def State.enterPor (s : State) : State :=
  if s.life.phase = .por then s
  else
    let t := s.resetDev .P s.life.cause .por
    { t with power := { t.power with clkreqN := true } }

/-- VDD_AON falls: a thermal trip and the temperature reading go with it (R659, Table 2-10). -/
def State.loseAon (s : State) : State :=
  { s with
    pins := { s.pins with vddAon := false, thermTripN := true }
    life := { s.life with tripped := false }
    pace := { s.pace with tjMax := 0, throttle := false } }

/-- POR: a monitored supply fails or PWROK goes low (R653). -/
def execPor (aonLost : Bool) (s : State) : Host.Outcome State Fault Refusal :=
  let t := if aonLost then s.loseAon else s
  ok { t.enterPor with pins := { t.enterPor.pins with supplies := false } }

/-- TEST_EN_HIGH holds the KC2 in POR (R641). -/
def execTestEnHigh (s : State) : Host.Outcome State Fault Refusal :=
  ok { s.enterPor with pins := { s.enterPor.pins with testEn := true } }

/-- Step 1 of a boot: the always-on island evaluates the levels that a thermal trip holds (R667). -/
def State.islandLevels (s : State) : State :=
  if s.life.tripped then (s.setTrb .thermTrip).setTrb .needsPowerCycle else s

/-- Start a boot, sampling CHIP_ID at classes P and E (R367, R654). -/
def State.startBoot (s : State) (c : ResetClass) : State :=
  ({ s.paceRestart with life := { s.life with
    phase := .boot c
    bootStart := s.time
    chipId := if c = .P ∨ c = .E then s.pins.chipId else s.life.chipId } } : State).thermWarn.islandLevels

/-- SUPPLIES_VALID: POR ends with the effects of class P; a boot begins once PERST_N is high (R653, R654). TEST_EN
high keeps the KC2 in POR (R641). -/
def execSuppliesValid (s : State) : Host.Outcome State Fault Refusal :=
  if s.life.phase ≠ .por then ok s
  else
    let t := { s with pins := { s.pins with supplies := true, vddAon := true } }
    if t.pins.testEn then ok t
    else
      let t := t.resetDev .P t.life.cause (.held .P)
      if t.pins.perstN then ok (t.startBoot .P) else ok t

/-- A reset of class E from an event outside (R343): it holds no device that POR holds already. -/
def State.resetE (s : State) (cause : ResetCause) : State :=
  if s.life.phase = .por ∨ s.life.phase = .held .P then s else s.resetDev .E cause (.held .E)

/-- PERST_N_ASSERT. -/
def execPerstNAssert (s : State) : Host.Outcome State Fault Refusal :=
  ok ({ s with pins := { s.pins with perstN := false } }.resetE .perstN)

/-- PERST_N_RELEASE: the boot of the class that is held begins (R654). -/
def execPerstNRelease (chip : BitVec 2) (s : State) : Host.Outcome State Fault Refusal :=
  let t := { s with pins := { s.pins with perstN := true, chipId := chip } }
  if s.pins.perstN then ok t
  else if t.life.phase = .held .P then ok (t.startBoot .P)
  else if t.life.phase = .held .E then ok (t.startBoot .E)
  else ok t

/-- The cause of a fall of the link, as a RESET entry codes it. -/
def fallCause : LinkFall → ResetCause
  | .hotReset => .hotReset
  | .linkDisable => .linkDisable
  | .linkLoss => .linkLoss

/-- LINK_DOWN: exactly as an assertion of PERST_N (R343). -/
def execLinkDown (cause : LinkFall) (s : State) : Host.Outcome State Fault Refusal :=
  if s.pcie.dlActive then ok (s.resetE (fallCause cause)) else ok s

/-- The link trains to 2.5, 5.0, 8.0 or 16.0 GT/s and to width x4, x2 or x1 only (R319). -/
def trainable (speed : BitVec 4) (width : BitVec 5) : Bool :=
  decide (1 ≤ speed.toNat) && decide (speed.toNat ≤ 4) && (width.toNat == 1 || width.toNat == 2 || width.toNat == 4)

/-- The link is up at a speed and width (Table 12-8). -/
def State.linkUp (s : State) (speed : BitVec 4) (width : BitVec 5) : State :=
  { s with pcie := { s.pcie with dlActive := true, speed := speed, width := width } }

/-- DL_ACTIVE: a reset of class E that a fall of the link began ends (R343). -/
def execDlActive (speed : BitVec 4) (width : BitVec 5) (s : State) : Host.Outcome State Fault Refusal :=
  if s.life.phase = .por ∨ !s.pins.perstN ∨ s.pcie.dlActive ∨ !trainable speed width then ok s
  else if s.life.phase = .held .E then ok ((s.linkUp speed width).startBoot .E)
  else ok (s.linkUp speed width)

/-- SOFT_RESET: a write of 1 to DEV_CTL.soft_reset (R531, R627). -/
def State.softReset (s : State) : State :=
  if s.barMode 0 = .normal then s.resetDev .S .hostDsr (.boot .S) else s

/-- SOFT_RESET. -/
def execSoftReset (s : State) : Host.Outcome State Fault Refusal := ok (s.barRow 0 State.softReset)

/-- FW_NOT_READY_TIMEOUT: 0.9 s after the start of the boot no firmware is ready: the boot ROM serves, the watchdog
stops, the bit is set (R347, R531, R548). -/
def execFwNotReadyTimeout (s : State) : Host.Outcome State Fault Refusal :=
  match s.life.phase with
  | .boot _ =>
    if s.usSince s.life.bootStart 900000 then
      ok (({ s with
        life := { s.life with phase := .romOnly }
        pcie := { s.pcie with crs := false }
        wd := { s.wd with stopped := true } } : State).setTrb .fwNotReady)
    else ok s
  | _ => ok s

end Sys2Proof.Machine
end

