-- ==== Sys2Proof/Machine/Windows.lean ====
section
/-!
DEFINITION. Chapters 11 and 16: committing host windows, device windows and quotas.
-/

namespace Sys2Proof.Machine

/-! ## Host and device windows (R305, R306) -/

/-- A write of HWIN_CTL commits the staged base and limit with the new control; a commit that enables a window whose
limit lies below its base leaves the window unchanged (R305). -/
def HWin.commit (w : HWin) (v : Word) : HWin :=
  if bitOf v 0 && decide (w.slimit < w.sbase) then w
  else { w with base := w.sbase, limit := w.slimit, en := bitOf v 0, rd := bitOf v 1, wr := bitOf v 2, ns := bitOf v 3 }

/-- HWIN_CTL. -/
def State.hwinCtlWrite (s : State) (f i : Nat) (v : Word) : State :=
  if s.barMode f ≠ .normal then s
  else s.updFn f fun x => { x with hwin := Table.upd {} x.hwin i fun w => w.commit v }

/-- HWIN_CTL: a function commits one of its own host windows. -/
def execHwinCtl (fn : FnId) (win : Fin 16) (value : Word) (s : State) : Host.Outcome State Fault Refusal :=
  ok (s.barRow fn.val fun s => s.hwinCtlWrite fn.val win.val value)

/-- A staged device window may be enabled: its limit is not below its base, and its last byte lies below `LP5X_TOP`
(R306). -/
def Addr.stagedOk (a : Addr) : Bool :=
  decide (a.stBase ≤ a.stLimit) && decide (4096 * (a.stLimit.toNat + 1) ≤ 1048576 * a.top.toNat)

/-- DWIN_WCTL: the PF commits the staged device window to the selected function (R306). -/
def State.dwinCommit (s : State) (v : Word) : State :=
  if s.barMode 0 ≠ .normal then s
  else if bitOf v 0 && !s.addr.stagedOk then s
  else
    let w : DWin :=
      { base := s.addr.stBase, limit := s.addr.stLimit, en := bitOf v 0, rd := bitOf v 1, wr := bitOf v 2 }
    s.updFn s.addr.selFn.toNat fun x => { x with dwin := Table.set {} x.dwin s.addr.selWin.toNat w }

/-- DWIN_WCTL. -/
def execDwinWctl (value : Word) (s : State) : Host.Outcome State Fault Refusal := ok (s.barRow 0 fun s => s.dwinCommit value)

/-! ## Quotas (R449 to R451) -/

/-- A quota as the words of QUOTA_A and QUOTA_B (Table 16-1). -/
def Quota.wordA (q : Quota) : Word := mkWord [(0, q.rings), (16, q.tickets)]
/-- QUOTA_B. -/
def Quota.wordB (q : Quota) : Word := mkWord [(0, q.ways), (8, q.groups), (16, q.slots), (24, q.weight)]

/-- The quota that two words spell. -/
def quotaOf (a b : Word) : Quota :=
  { rings := bitsOf a 8 0, tickets := bitsOf a 25 16, ways := bitsOf b 4 0, groups := bitsOf b 12 8
    slots := bitsOf b 20 16, weight := bitsOf b 27 24 }

/-- Every field lies in its range (Table 16-1). -/
def Quota.inRange (q : Quota) : Bool :=
  decide (1 ≤ q.rings) && decide (q.rings ≤ 256) && decide (1 ≤ q.tickets) && decide (q.tickets ≤ 768)
    && decide (q.ways ≤ 16) && decide (q.groups ≤ 16) && decide (q.slots ≤ 16)
    && decide (1 ≤ q.weight) && decide (q.weight ≤ 15)

/-- Sum of the ring counts of the functions that exist, other than `f`. -/
def State.otherRings (s : State) (f : Nat) : Nat :=
  ((s.fnList.filter (· != f)).map fun g => (s.fnSt g).ringsHeld).sum

/-- The words that a read of QUOTA_A or QUOTA_B returns: the staged value, or the selected function's quota before the
first staging write (R449). -/
def State.quotaWords (s : State) : Word × Word :=
  let q := (s.fnSt s.tenants.selFn.toNat).quota
  (s.tenants.stA.getD q.wordA, s.tenants.stB.getD q.wordB)

/-- A commit is refused: a field out of range, too many rings in all, or a ring in use at or above the new count
(R449). -/
def State.quotaRefused (s : State) (f : Nat) (q : Quota) : Bool :=
  !q.inRange
    || (s.fnExists f && decide (2048 < s.otherRings f + q.rings) && decide ((s.fnSt f).ringsHeld < q.rings))
    || s.rings.any fun p => p.1 / 256 == f && decide (q.rings ≤ p.1 % 256) && decide (p.2.state ≠ .disabled)

/-- The write of QUOTA_CTL.commit (R449). A ring that the new count takes away loses its configuration (R380). -/
def State.quotaCommit (s : State) : State :=
  if s.barMode 0 ≠ .normal then s
  else
    let f := s.tenants.selFn.toNat
    let q := quotaOf s.quotaWords.1 s.quotaWords.2
    if s.quotaRefused f q then
      { s with tenants := { s.tenants with refused := true, stA := none, stB := none } }
    else
      let t := s.updFn f fun x =>
        { x with quota := q, ringsHeld := if s.fnExists f then q.rings else x.ringsHeld }
      { t with
        tenants := { t.tenants with stA := none, stB := none }
        rings := t.rings.filter fun p => !(p.1 / 256 == f && decide (q.rings ≤ p.1 % 256)) }

/-- QUOTA_COMMIT. -/
def execQuotaCommit (s : State) : Host.Outcome State Fault Refusal := ok (s.barRow 0 State.quotaCommit)

end Sys2Proof.Machine
end

