-- ==== Sys2Proof/Machine/Diag.lean ====
section
/-!
DEFINITION. General and diagnostic commands (15.3, 15.7) with their registers: NOP, COUNTERS_READ, TROUBLE_READ,
TROUBLE_CLEAR, LOG_READ, EVLOG_ACK, FETCH_STOP, STATS_CLEAR, TRACE_MARK.
-/

namespace Sys2Proof.Machine

/-- NOP does nothing (R414, 15.3); a reserved dword that is not zero is BAD_PARAM (R415). -/
def execNop (t : Ticket) (s : State) : Host.Outcome State Fault Refusal :=
  ok <| s.onCmd t.val [0x00] fun c =>
    if Entry.paramsOk c.entry then s.endCmd t.val St.ok 0 0
    else s.endCmd t.val St.badParam 0 0

/-! ## Outputs of commands -/

/-! ## Counters (R438, R628 to R632) -/

/-- The value of a STATS slot as a read returns it. -/
def State.statsSlot (s : State) (f i : Nat) : Nat :=
  if i = 1 then s.time.toNat else Table.get 0 (s.fnSt f).stats i

/-- The value of a PERF slot as a read returns it. -/
def State.perfSlot (s : State) (i : Nat) : Nat := if i = 1 then s.time.toNat else Table.get 0 s.perf i

/-- Clear a function's STATS at one instant (R630). -/
def State.statsClear (s : State) (f : Nat) : State :=
  s.updFn f fun x => { x with
    stats := Table.set 0 (Table.set 0 [] 0 s.time.toNat) 24 (s.ticketsHeld f) }

/-- Clear PERF at one instant (R631). -/
def State.perfClear (s : State) : State :=
  { s with perf := Table.set 0 (Table.set 0 [] 0 s.time.toNat) 44 s.cmds.length }

/-- The image that COUNTERS_READ writes (R632). -/
def State.counterImage (s : State) (f : Nat) (perf : Bool) : Bytes :=
  if perf then (List.range 64).flatMap fun i => leBytes 8 (s.perfSlot i)
  else (List.range 32).flatMap fun i => leBytes 8 (s.statsSlot f i)

/-- Clear the block that COUNTERS_READ selected. -/
def State.counterClear (s : State) (f : Nat) (perf : Bool) : State := if perf then s.perfClear else s.statsClear f

/-- COUNTERS_READ (R438). -/
def execCountersRead (t : Ticket) (s : State) : Host.Outcome State Fault Refusal :=
  ok <| s.onCmd t.val [0x40] fun c =>
    let d := Entry.dw c.entry 2
    let perf := bitOf d 0
    let n := counterBytes c.entry
    if !Entry.paramsOk c.entry ∨ (perf ∧ c.fn ≠ 0) then s.endCmd t.val St.badParam 0 0
    else
      match c.output 3 (Entry.dw c.entry 5).toNat with
      | .error e => s.endCmd t.val e 0 0
      | .ok p =>
        let img := s.counterImage c.fn perf
        let s1 := if bitOf d 1 then s.counterClear c.fn perf else s
        (s1.writePlace c.fn p img false).endCmd t.val St.ok (BitVec.ofNat 32 n) 0

/-- STATS_CLEAR: a write of 1 to FN_CTL.stats_clear (R630). -/
def execStatsClear (fn : FnId) (s : State) : Host.Outcome State Fault Refusal :=
  ok (s.barRow fn.val fun s => if s.barMode fn.val ≠ .normal then s else s.statsClear fn.val)

/-- FETCH_STOP: a write of FN_CTL.fetch_stop (R626). -/
def execFetchStop (fn : FnId) (stop : Bool) (s : State) : Host.Outcome State Fault Refusal :=
  ok (s.barRow fn.val fun s =>
    if s.barMode fn.val ≠ .normal then s else s.updFn fn.val fun x => { x with fetchStop := stop })

/-! ## Trouble and the log (R439, R440, R524) -/

/-- A function's FN_TRB, and TRB for the PF, as the result words of R439. -/
def State.troubleWords (s : State) (f : Nat) : Word × Word :=
  ((s.fnSt f).trb.setWidth 32, if f = 0 then s.trouble.trb.setWidth 32 else 0)

/-- TROUBLE_READ (R439). -/
def execTroubleRead (t : Ticket) (s : State) : Host.Outcome State Fault Refusal :=
  ok <| s.onCmd t.val [0x41] fun c =>
    if !Entry.paramsOk c.entry then s.endCmd t.val St.badParam 0 0
    else s.endCmd t.val St.ok (s.troubleWords c.fn).1 (s.troubleWords c.fn).2

/-- TROUBLE_CLEAR acts exactly as the register writes (R439, R515). -/
def execTroubleClear (t : Ticket) (s : State) : Host.Outcome State Fault Refusal :=
  ok <| s.onCmd t.val [0x42] fun c =>
    let d := Entry.dw c.entry 3
    if !Entry.paramsOk c.entry ∨ (c.fn ≠ 0 ∧ d ≠ 0) then
      s.endCmd t.val St.badParam 0 0
    else
      let s1 := s.clearFnTrb c.fn (Entry.dw c.entry 2)
      let s2 := if c.fn = 0 then s1.clearTrb d else s1
      s2.endCmd t.val St.ok (s2.troubleWords c.fn).1 (s2.troubleWords c.fn).2

/-- The 32 bytes of a log entry (Table 19-4). -/
def LogEntry.bytes (e : LogEntry) (seq : Word) : Bytes :=
  let head := leBytes 4 seq.toNat ++ leBytes 8 e.stamp.toNat ++ leBytes 2 e.kind.toNat ++ leBytes 1 e.fn.toNat ++ [0]
  let p := e.payload.take 16
  head ++ p ++ zeroBytes (16 - p.length)

/-- The held entry of a sequence number (R520, R525). -/
def Trouble.entry (t : Trouble) (seq : Word) : Option LogEntry :=
  if (seq - t.oldest).toNat < (t.next - t.oldest).toNat then some (Table.get {} t.log (seq.toNat % 1024)) else none

/-- At most `n` held entries from number `seq` on that a function may see, as bytes: the PF every one, a VF those that
name it (R440, R469). -/
def Trouble.collect (t : Trouble) (f : Nat) : Nat → Word → Nat → List Bytes
  | 0, _, _ => []
  | fuel + 1, seq, n =>
    if n = 0 then []
    else
      match t.entry seq with
      | none => []
      | some e =>
        if f = 0 ∨ e.fn = fnByte f then e.bytes seq :: t.collect f fuel (seq + 1) (n - 1)
        else t.collect f fuel (seq + 1) n

/-- LOG_READ (R440): as many of the wanted entries as the output holds whole (log entry 20). -/
def execLogRead (t : Ticket) (s : State) : Host.Outcome State Fault Refusal :=
  ok <| s.onCmd t.val [0x43] fun c =>
    let m := bitsOf (Entry.dw c.entry 3) 10 0
    let len := (Entry.dw c.entry 6).toNat
    if !Entry.paramsOk c.entry then s.endCmd t.val St.badParam 0 0
    else
      match c.output 4 len with
      | .error e => s.endCmd t.val e 0 0
      | .ok p =>
        let want := Entry.dw c.entry 2
        let tr := s.trouble
        let start := if seqLater tr.oldest want then tr.oldest else want
        let l := tr.collect c.fn 1024 start (min m (len / 32))
        (s.writePlace c.fn p l.flatten false).endCmd t.val St.ok (BitVec.ofNat 32 l.length) tr.oldest

/-- A write of EVLOG_ACK: a value later than EVLOG_NEXT leaves it unchanged (R524). -/
def State.evlogAckWrite (s : State) (v : Word) : State :=
  if s.barMode 0 = .unsupported ∨ seqLater v s.trouble.next then s
  else { s with trouble := { s.trouble with ack := v } }

/-- EVLOG_ACK. -/
def execEvlogAck (value : Word) (s : State) : Host.Outcome State Fault Refusal := ok (s.barRow 0 fun s => s.evlogAckWrite value)

/-- A write of TRACE_MARK emits a MARKER packet (Table 22-7); it belongs to the PF (R585). -/
def State.traceMarkWrite (s : State) (v : Word) : State :=
  if s.barMode 0 = .unsupported then s else s.traceEmit 7 (some 0) false 0x08 0 0 v

/-- TRACE_MARK. -/
def execTraceMark (value : Word) (s : State) : Host.Outcome State Fault Refusal := ok (s.barRow 0 fun s => s.traceMarkWrite value)

end Sys2Proof.Machine
end

