-- ==== Sys2Proof/Machine/Wdog.lean ====
section
/-!
DEFINITION. Chapter 20: the watchdog's window, service, period, expiries, warning and action.
-/

namespace Sys2Proof.Machine

/-- Ticks of the present period. -/
def Watchdog.total (w : Watchdog) : Nat := 1024 * w.period.toNat

/-- Eighths of the period that elapse before the window opens (R535). -/
def Fuses.windowEighths (f : Fuses) : Nat :=
  if f.wdFraction = 0 then 2 else if f.wdFraction = 1 then 4 else if f.wdFraction = 2 then 6 else 7

/-- `WD_STAT.window_open` (R535). -/
def State.windowOpen (s : State) : Bool :=
  decide (8 * (s.wd.total - s.wd.count) ≥ s.fuses.windowEighths * s.wd.total)

/-- `WD_STAT.frozen`: the count is frozen by a halt, or held while the CP does not run (R545, R546). -/
def State.wdFrozen (s : State) : Bool := s.dbg.halted || decide (s.power.level ≥ 1)

/-- The watchdog counts: a boot or firmware runs under it and nothing stops, freezes or holds it. -/
def State.wdLive (s : State) : Bool :=
  !s.wd.stopped && !s.wdFrozen && (match s.life.phase with
    | .running => true
    | .boot _ => true
    | _ => false)

/-- The firmware can reach its watchdog registers (R536, R540). -/
def State.wdServable (s : State) : Bool := s.wdLive && !s.life.cpStopped

/-- The next challenge: the LFSR's next value, which is not zero (R536). -/
def Watchdog.nextChallenge (w : Watchdog) : Word :=
  if Config.lfsrStep w.lfsr = 0 then 1 else Config.lfsrStep w.lfsr

/-- The token for a challenge (R537). -/
def wdToken (c salt : Word) : Word := ((c <<< 7) ||| (c >>> 25)) ^^^ (c >>> 11) ^^^ salt

/-- WD_CHALLENGE: a firmware read of the register; in the window it steps the LFSR and arms (R536). -/
def execWdChallenge (s : State) : Host.Outcome State Fault Refusal :=
  if s.wdServable && s.windowOpen then
    let c := s.wd.nextChallenge
    ok { s with wd := { s.wd with lfsr := c, challenge := c, armLeft := some 1024 } }
  else ok s

/-- The payload of a WD_WARN entry (Table 20-2). -/
def Watchdog.warnPayload (w : Watchdog) (cause : Nat) : Bytes :=
  [BitVec.ofNat 8 cause, 0, 0, 0] ++ leBytes 4 w.period.toNat ++ leBytes 4 w.rate.toNat

/-- The first expiry: warned state, warning period, event, and the entry that the firmware owes (R541, R542). -/
def State.wdFirst (s : State) (cause : Nat) : State :=
  ({ s with wd := { s.wd.fresh with
    warned := true, expiries := satInc s.wd.expiries 1, warnDue := some (s.wd.warnPayload cause)
    warnLeft := some 4096 } }).raiseDevEvt 2

/-- The PIN action: WDT_OUT_N low and quiescence (R543, R544). -/
def State.quiesce (s : State) : State :=
  ({ s with
    life := { s.life with phase := .quiesced }
    pins := { s.pins with wdtOutN := false, wdtFrom := s.time }
    wd := { s.wd with quiesced := true } }).setTrb .wdQuiesced

/-- The second expiry (R543). -/
def State.wdSecond (s : State) : State :=
  if s.fuses.wdPin then s.quiesce else s.resetDev .W s.life.cause (.boot .W)

/-- An expiry, first or second (R541, R543). -/
def State.wdExpire (s : State) (cause : Nat) : State := if s.wd.warned then s.wdSecond else s.wdFirst cause

/-- A valid service: a new period, warned and period_refused cleared (R538, R540, R541). -/
def Watchdog.serve (w : Watchdog) : Watchdog := { w.fresh with warned := false, periodRefused := false }

/-- WD_RESPONSE: a firmware write of a token (R538); at the end of the period it is discarded (R539). -/
def execWdResponse (token : Word) (s : State) : Host.Outcome State Fault Refusal :=
  if !s.wdServable ∨ s.wd.count = 0 then ok s
  else
    match s.wd.armLeft with
    | none => ok (s.wdExpire 1)
    | some _ =>
      if token = wdToken s.wd.challenge s.fuses.salt then ok { s with wd := s.wd.serve } else ok (s.wdExpire 2)

/-- WD_PERIOD_SET: a firmware write of the next period (R540). -/
def execWdPeriodSet (value : BitVec 16) (s : State) : Host.Outcome State Fault Refusal :=
  if !s.wdServable then ok s
  else if s.windowOpen && decide (8 ≤ value.toNat) then ok { s with wd := { s.wd with staged := value } }
  else ok { s with wd := { s.wd with periodRefused := true } }

/-- WD_ARM_LAPSE: 1,024 ticks after the arming read it disarms (R536). -/
def execWdArmLapse (s : State) : Host.Outcome State Fault Refusal :=
  if s.wd.armLeft = some 0 then ok { s with wd := { s.wd with armLeft := none } } else ok s

/-- WD_FIRST_EXPIRY: the count reaches zero while not warned (R541). -/
def execWdFirstExpiry (s : State) : Host.Outcome State Fault Refusal :=
  if s.wdLive && decide (s.wd.count = 0) && !s.wd.warned then ok (s.wdFirst 0) else ok s

/-- WD_SECOND_EXPIRY: the count reaches zero while warned (R543). -/
def execWdSecondExpiry (s : State) : Host.Outcome State Fault Refusal :=
  if s.wdLive && decide (s.wd.count = 0) && s.wd.warned then ok s.wdSecond else ok s

/-- WD_WARN_ENTRY: the firmware writes the WD_WARN entry and the island sets the bit (R542, R516). -/
def execWdWarnEntry (s : State) : Host.Outcome State Fault Refusal :=
  match s.wd.warnDue with
  | none => ok s
  | some p =>
    if s.fwRuns then
      ok (({ s with wd := { s.wd with warnDue := none, warnLeft := none } }).logEvent 0x60 devByte p
        [.dev Trb.wdWarn.bit])
    else ok s

/-- WD_WARN_TIMEOUT: 4,096 ticks have passed with no entry: the bit is set without one (R542). -/
def execWdWarnTimeout (s : State) : Host.Outcome State Fault Refusal :=
  if s.wd.warnLeft = some 0 then
    ok (({ s with wd := { s.wd with warnLeft := none } }).setTrb .wdWarn)
  else ok s

/-- The fused length of the pulse, in microseconds: a field that was never fused acts as 200 ms (R543, R551). -/
def Fuses.pulseUs (f : Fuses) : Nat := if f.wdPulse = 0 then 50000 else if f.wdPulse = 1 then 100000 else 200000

/-- WDT_PULSE_END: the fused time after its start the pulse on WDT_OUT_N ends (R543). -/
def execWdtPulseEnd (s : State) : Host.Outcome State Fault Refusal :=
  if s.usSince s.pins.wdtFrom s.fuses.pulseUs then ok { s with pins := { s.pins with wdtOutN := true } } else ok s

end Sys2Proof.Machine
end

