-- ==== Sys2Proof/Machine/RegRead.lean ====
section
/-!
DEFINITION. Chapter 24, reading: the value of every dword of BAR 0, without side effects.
-/

namespace Sys2Proof.Machine

/-- One dword of a 64-bit value. -/
def half (x : BitVec 64) (hi : Bool) : Word := if hi then hiWord x else loWord x

/-- One dword of a 64-bit register that holds a granule number in [63:12]. -/
def granules (g : Nat) (hi : Bool) : Word := half (BitVec.ofNat 64 (4096 * g)) hi

/-! ## The function block (Table 24-1) -/

/-- The ID block (Table 24-4). -/
def State.readId (s : State) (f o : Nat) : Word :=
  let x := s.fnSt f
  if o = 0x00 then 0x0101C200
  else if o = 0x04 then mkWord [(0, f), (6, b2n (f == 0)), (8, s.life.chipId.toNat)]
  else if o = 0x08 then mkWord [(0, b2n s.life.ready), (8, s.life.epoch.toNat % 256)]
  else if o = 0x0C then s.fw.version
  else if o = 0x10 then mkWord [(0, x.ringsHeld), (16, x.quota.tickets)]
  else if o = 0x14 then x.quota.wordB
  else if o = 0x18 then loWord s.time
  else if o = 0x1C then hiWord s.time
  else 0

/-- `FN_CTL_STAT` (Table 24-5). -/
def State.fnCtlStat (s : State) (f : Nat) : Word :=
  let out := s.reads.any fun q => q.fn == f && !q.orphan && (match q.use with
    | .sq _ _ => true
    | .line _ _ _ _ _ _ => false)
  let wait := (s.rings.filter fun p => p.1 / 256 == f && decide (p.2.sqFetch ≠ p.2.sqTail)).length
  mkWord [(0, b2n ((s.fnSt f).fetchStop && !out)), (16, wait)]

/-- Function control, trouble, events and link (Tables 24-5, 19-2, 12-8). -/
def State.readFnCtl (s : State) (f o : Nat) : Word :=
  let x := s.fnSt f
  if o = 0x100 then mkWord [(0, b2n x.fetchStop)]
  else if o = 0x104 then s.fnCtlStat f
  else if o = 0x108 then x.scratch
  else if o = 0x200 then x.trb.setWidth 32
  else if o = 0x300 then x.evtCause.setWidth 32
  else if o = 0x304 then x.evtMask.setWidth 32
  else if o = 0x308 then mkWord [(0, s.pcie.speed.toNat), (4, s.pcie.width.toNat)]
  else 0

/-- Host windows: base and limit read as staged (log entry 29). -/
def State.readHwin (s : State) (f i o : Nat) : Word :=
  let w := Table.get {} (s.fnSt f).hwin i
  if o = 0x00 ∨ o = 0x04 then granules w.sbase.toNat (o == 0x04)
  else if o = 0x08 ∨ o = 0x0C then granules w.slimit.toNat (o == 0x0C)
  else if o = 0x10 then mkWord [(0, b2n w.en), (1, b2n w.rd), (2, b2n w.wr), (3, b2n w.ns)]
  else 0

/-- The dwords of a device window (Table 11-5). -/
def DWin.dword (w : DWin) (o : Nat) : Word :=
  if o = 0x00 ∨ o = 0x04 then granules w.base.toNat (o == 0x04)
  else if o = 0x08 ∨ o = 0x0C then granules w.limit.toNat (o == 0x0C)
  else if o = 0x10 then mkWord [(0, b2n w.en), (1, b2n w.rd), (2, b2n w.wr)]
  else 0

/-- Code of a ring state (Table 14-1). -/
def RingState.code : RingState → Nat
  | .disabled => 0
  | .active => 1
  | .draining => 2
  | .error => 3

/-- A ring's configuration block (Table 14-6). `RING_CTL.en` reads 1 while the ring is ACTIVE (log entry 30). -/
def Ring.dword (x : Ring) (o : Nat) : Word :=
  if o = 0x00 ∨ o = 0x04 then granules x.sqBase.toNat (o == 0x04)
  else if o = 0x08 ∨ o = 0x0C then granules x.cqBase.toNat (o == 0x0C)
  else if o = 0x10 then
    mkWord [(0, x.sqLog2.toNat), (8, x.cqLog2.toNat), (13, b2n x.rt), (14, b2n x.failFast), (16, x.vector.toNat)]
  else if o = 0x14 then mkWord [(0, x.modCount.toNat), (8, x.modTime.toNat)]
  else if o = 0x18 then mkWord [(0, b2n (decide (x.state = .active)))]
  else if o = 0x1C then mkWord [(0, x.state.code), (2, b2n x.badDb), (4, x.err.toNat)]
  else if o = 0x20 then mkWord [(0, x.sqHead), (16, x.cqTail)]
  else if o = 0x24 then x.seq
  else if o = 0x28 then mkWord [(0, x.accepted % 65536)]
  else 0

/-- A dword of a function block. -/
def State.readFn (s : State) (f o : Nat) : Word :=
  if o < 0x20 then s.readId f o
  else if o < 0x1000 then s.readFnCtl f o
  else if 0x2000 ≤ o ∧ o < 0x2200 then s.readHwin f ((o - 0x2000) / 32) ((o - 0x2000) % 32)
  else if 0x2200 ≤ o ∧ o < 0x2400 then (Table.get {} (s.fnSt f).dwin ((o - 0x2200) / 32)).dword ((o - 0x2200) % 32)
  else if 0x4000 ≤ o ∧ o < 0x8000 then
    (if s.ringExists f ((o - 0x4000) / 64) then (s.ring f ((o - 0x4000) / 64)).dword ((o - 0x4000) % 64) else 0)
  else if 0x8000 ≤ o ∧ o < 0x8100 then
    half (BitVec.ofNat 64 (s.statsSlot f ((o - 0x8000) / 8))) (o % 8 == 4)
  else 0

/-! ## The device block (Table 24-2) -/

/-- `QUOTA_STAT` (Table 16-1). -/
def State.quotaStat (s : State) : Word :=
  let groups := ((s.binds.filter fun p => p.2.live).map fun p => p.2.groups).sum
  let slots := (s.slots.filter fun p => p.2.isOpen).length
  mkWord [(0, b2n s.tenants.refused), (1, b2n s.tenants.short), (2, s.freeTickets), (12, 16 - s.tenants.ways.length),
    (17, 16 - groups), (22, 16 - slots)]

/-- Events, link, quotas, LP5X, device windows and aperture: 0x1_0040 to 0x1_00EF. -/
def State.readDev0 (s : State) (o : Nat) : Word :=
  let a := s.addr
  let p := s.pcie
  let w := Table.get {} (s.fnSt a.selFn.toNat).dwin a.selWin.toNat
  if o = 0x040 then p.evtCause.setWidth 32
  else if o = 0x044 then p.evtMask.setWidth 32
  else if o = 0x050 then mkWord [(0, p.speed.toNat), (4, p.width.toNat), (9, b2n p.dlActive)]
  else if o = 0x054 then p.recovCnt
  else if o = 0x058 then p.cplTo
  else if o = 0x060 then s.tenants.selFn.setWidth 32
  else if o = 0x064 then s.quotaWords.1
  else if o = 0x068 then s.quotaWords.2
  else if o = 0x070 then s.quotaStat
  else if o = 0x074 then s.tenants.rtReserve.setWidth 32
  else if o = 0x080 then mkWord [(0, a.top.toNat), (16, b2n a.eccOn), (17, b2n a.trained)]
  else if o = 0x084 then a.eccCnt
  else if o = 0x088 then a.uncorrCnt
  else if o = 0x0C0 then mkWord [(0, a.selFn.toNat), (8, a.selWin.toNat)]
  else if 0x0C8 ≤ o ∧ o ≤ 0x0D8 then w.dword (o - 0x0C8)
  else if o = 0x0E0 then half (BitVec.ofNat 64 (2 ^ 28 * a.aptBase.toNat)) false
  else if o = 0x0E4 then half (BitVec.ofNat 64 (2 ^ 28 * a.aptBase.toNat)) true
  else if o = 0x0E8 then mkWord [(0, b2n a.unmapped), (1, b2n a.denied)]
  else 0

/-- `FN_TRB_SUM` from a first function on (Table 19-3). -/
def State.trbSum (s : State) (first : Nat) : Word :=
  mkWord ((List.range 32).map fun i => (i, b2n ((s.fnSt (first + i)).trb != 0)))

/-- Trouble and the event log: 0x1_0100 to 0x1_023F. -/
def State.readTrouble (s : State) (o : Nat) : Word :=
  let t := s.trouble
  if o = 0x100 then t.trb.setWidth 32
  else if o = 0x110 then s.trbSum 0
  else if o = 0x114 then s.trbSum 32
  else if o = 0x118 then t.sel.setWidth 32
  else if o = 0x11C then (s.fnSt t.sel.toNat).trb.setWidth 32
  else if o = 0x200 then t.next
  else if o = 0x204 then t.oldest
  else if o = 0x208 then t.ack
  else if o = 0x20C then t.idx
  else if 0x220 ≤ o ∧ o < 0x240 then
    match t.entry t.idx with
    | none => 0
    | some e => BitVec.ofNat 32 (leAt (e.bytes t.idx) (o - 0x220) 4)
  else 0

/-- PWR: 0x1_0300 to 0x1_033F (Table 18-4). -/
def State.readPwr (s : State) (o : Nat) : Word :=
  let p := s.power
  if o = 0x300 then mkWord [(0, p.maxLevel), (3, b2n p.unboundGate)]
  else if o = 0x304 then
    mkWord [(0, p.level), (4, s.target), (8, s.limitCode), (12, if s.limitCode = 1 then s.tolFn else 0),
      (18, b2n p.linkL12)]
  else if o = 0x308 then p.dom.setWidth 32
  else if o = 0x30C then BitVec.ofNat 32 s.tolMin
  else if o = 0x310 then mkWord [(0, p.dwell1.toNat), (8, p.dwell2.toNat), (16, p.dwell3.toNat), (24, p.dwell4.toNat)]
  else if o = 0x314 then p.activeUs.setWidth 32
  else if o = 0x318 then p.ltrSent
  else if o = 0x31C then p.wake.setWidth 32
  else if 0x320 ≤ o ∧ o < 0x330 then BitVec.ofNat 32 (Table.get 0 p.entryCnt ((o - 0x320) / 4 + 1))
  else if 0x330 ≤ o ∧ o < 0x340 then BitVec.ofNat 32 (Table.get 0 p.resMs ((o - 0x330) / 4 + 1))
  else 0

/-- `PACE_STAT` (Table 2-5). -/
def State.paceStat (s : State) : Word :=
  mkWord [(0, s.admitField 0), (3, s.admitField 1), (6, s.admitField 2), (9, s.admitField 3),
    (12, if s.life.tripped then 2 else b2n s.pace.throttle), (14, b2n s.pace.targetUnmet)]

/-- PACE: 0x1_0400 to 0x1_044B. -/
def State.readPace (s : State) (o : Nat) : Word :=
  let p := s.pace
  if o = 0x400 then p.forceLevel.setWidth 32
  else if o = 0x404 then s.paceStat
  else if 0x410 ≤ o ∧ o < 0x420 then
    let r := Table.get (0, 0) p.rates ((o - 0x410) / 4)
    mkWord [(0, r.1.toNat), (16, r.2.toNat)]
  else if o = 0x420 then mkWord [(0, p.sensorEn.toNat), (8, b2n p.pinEn), (9, b2n p.pinLevel)]
  else if o = 0x424 then mkWord [(0, p.fired.toNat), (8, b2n p.pinFired)]
  else if o = 0x428 then p.cntL1
  else if o = 0x42C then p.cntL2
  else if o = 0x430 then p.tjMax.setWidth 32
  else if o = 0x434 then mkWord [(0, p.warnC.toNat), (8, b2n p.warnIrqEn)]
  else if o = 0x440 then mkWord [(0, p.targetRate.toNat), (11, b2n p.manual), (12, p.vMin.toNat), (22, p.vMax.toNat)]
  else if o = 0x444 then
    mkWord [(0, p.setMv.toNat), (10, p.readMv.toNat), (20, b2n p.settled), (21, b2n p.busFault), (24, p.currentA.toNat)]
  else if o = 0x448 then p.vset.setWidth 32
  else 0

/-- WD: 0x1_0500 to 0x1_0517 (Table 20-5). -/
def State.readWd (s : State) (o : Nat) : Word :=
  let w := s.wd
  if o = 0x500 then
    mkWord [(0, b2n s.windowOpen), (1, b2n w.armLeft.isSome), (2, b2n w.warned), (3, b2n s.wdFrozen),
      (4, b2n w.stopped), (5, b2n w.quiesced), (6, b2n w.periodRefused)]
  else if o = 0x504 then mkWord [(0, w.period.toNat), (16, w.staged.toNat)]
  else if o = 0x508 then BitVec.ofNat 32 w.count
  else if o = 0x50C then mkWord [(0, s.fuses.wdFraction.toNat), (2, b2n s.fuses.wdPin), (3, s.fuses.wdPulse.toNat)]
  else if o = 0x510 then w.rate.setWidth 32
  else if o = 0x514 then w.expiries.setWidth 32
  else 0

/-- A 32-bit map of the banks from `first` on that satisfy a condition. -/
def bankMap (p : Nat → Bool) (first : Nat) : Word := mkWord ((List.range 32).map fun i => (i, b2n (p (first + i))))

/-- `NVM_WEAR_DATA` (Table 3-11). -/
def Nvm.wearData (v : Nvm) : Word :=
  let blk := bitsOf v.wearSel 6 0
  let bank := bitsOf v.wearSel 12 7
  let code := bitOf v.wearSel 13
  let b := if code then 64 + bank else bank
  if code && (decide (bank > 1) || decide (blk > 63)) then 0
  else
    let x := v.block b blk
    mkWord [(0, x.units), (24, b2n x.due), (25, b2n (v.isSpare b blk))]

/-- NVM: 0x1_0600 to 0x1_0653 (Tables 3-11, 4-7). -/
def State.readNvm (s : State) (o : Nat) : Word :=
  let v := s.nvm
  if o = 0x600 then bankMap v.busy 0
  else if o = 0x604 then bankMap v.busy 32
  else if o = 0x608 then
    mkWord [(0, b2n (v.busy 64)), (1, b2n (v.busy 65)), (2, s.fw.running), (3, b2n (s.bankDue 64)), (4, b2n (s.bankDue 65))]
  else if o = 0x60C then v.opseq
  else if o = 0x610 then mkWord [(0, v.rdLimit.toNat), (24, v.eccLimit.toNat), (28, b2n v.autoEn)]
  else if o = 0x614 then bankMap s.bankDue 0
  else if o = 0x618 then bankMap s.bankDue 32
  else if o = 0x61C then v.eccCnt
  else if o = 0x620 then v.uncorrCnt
  else if o = 0x624 then v.wearSel.setWidth 32
  else if o = 0x628 then v.wearData
  else if o = 0x640 then v.maxPar.setWidth 32
  else if o = 0x644 then
    mkWord [(0, b2n v.vppOk), (1, b2n v.unlocked), (2, (v.charging.filter v.atWork).length)]
  else if o = 0x64C then bankMap s.bankReserved 0
  else if o = 0x650 then bankMap s.bankReserved 32
  else 0

/-- FW: 0x1_0700 to 0x1_0717 (Table 21-8). -/
def State.readFw (s : State) (o : Nat) : Word :=
  let w := s.fw
  let v := s.nvm
  if o = 0x700 then
    mkWord [(0, w.running), (1, v.slotState 0), (4, v.slotState 1), (7, b2n w.trial), (8, b2n w.defaulted),
      (9, b2n w.restarted), (16, v.marksUsed 0), (21, v.marksUsed 1)]
  else if o = 0x704 then w.version
  else if o = 0x708 then BitVec.ofNat 32 s.fuses.rollback
  else if o = 0x70C then mkWord [(0, recordVersion w.record), (16, w.found.toNat)]
  else if o = 0x710 then BitVec.ofNat 32 (recordSeq w.record)
  else if o = 0x714 then mkWord [(0, w.bootMs.toNat), (16, w.bootClass.toNat)]
  else 0

/-- WEFT: 0x1_0800 to 0x1_0817 (Table 13-6). -/
def State.readWeft (s : State) (o : Nat) : Word :=
  let w := s.weft
  let p (i : Nat) : Port := Table.get {} w.ports i
  if o = 0x800 then mkWord [(0, w.portEn.toNat), (2, b2n w.serve)]
  else if o = 0x804 then
    mkWord [(0, s.life.chipId.toNat), (2, b2n (p 0).up), (3, b2n (p 1).up), (4, s.liveMap), (8, b2n w.configErr)]
  else if o = 0x808 then s.life.epoch
  else if o = 0x810 then mkWord [(0, (p 0).errCrc.toNat), (16, (p 0).errResend.toNat)]
  else if o = 0x814 then mkWord [(0, (p 1).errCrc.toNat), (16, (p 1).errResend.toNat)]
  else 0

/-- A frame is open at a receiver. -/
def State.inFrame (s : State) (n : Nat) : Bool :=
  s.slots.any fun p => p.2.isOpen && p.2.csi && p.2.receiver == n && p.2.frame.isSome

/-- Unconsumed capture buffers of a slot. -/
def Slot.readyCount (x : Slot) : Nat := (x.bufs.filter fun p => decide (p.2.state = .unconsumed)).length

/-- `SLOT_STAT` (Table 13-6). -/
def Slot.statWord (x : Slot) : Word :=
  mkWord [(0, b2n x.isOpen), (1, b2n (x.isOpen && x.csi)), (2, if x.isOpen then x.fn else 0), (8, x.readyCount),
    (16, x.overrun.toNat)]

/-- The error registers of a receiver (Table 13-6). -/
def Csi.errWord (x : Csi) (o : Nat) : Word :=
  if o = 0 then mkWord [(0, x.ecc1.toNat), (16, x.ecc2.toNat)]
  else if o = 4 then mkWord [(0, x.crc.toNat), (16, x.len.toNat)]
  else if o = 8 then mkWord [(0, x.sync.toNat), (16, x.unbound.toNat)]
  else mkWord [(0, x.phy.toNat)]

/-- MEDIA: 0x1_0900 to 0x1_097F. -/
def State.readMedia (s : State) (o : Nat) : Word :=
  let c (i : Nat) : Csi := Table.get {} s.csi i
  if o = 0x900 ∨ o = 0x904 then mkWord [(0, b2n (c ((o - 0x900) / 4)).en), (1, (c ((o - 0x900) / 4)).lanes.toNat)]
  else if o = 0x908 ∨ o = 0x90C then
    mkWord [(0, b2n (c ((o - 0x908) / 4)).hsClock), (1, b2n (s.inFrame ((o - 0x908) / 4)))]
  else if 0x910 ≤ o ∧ o < 0x930 then (c ((o - 0x910) / 16)).errWord ((o - 0x910) % 16)
  else if 0x940 ≤ o ∧ o < 0x980 then (s.slot ((o - 0x940) / 4)).statWord
  else 0

/-- TRACE: 0x1_0A00 to 0x1_0A4F (Table 22-9). -/
def State.readTrace (s : State) (o : Nat) : Word :=
  let t := s.trace
  if o = 0xA00 then
    mkWord [(0, b2n t.en), (1, t.sink.toNat), (3, b2n t.stopMode), (4, b2n t.deep), (8, t.classes.toNat)]
  else if o = 0xA04 then mkWord [(0, b2n (s.traceOn && !t.stopped)), (1, b2n t.stopped), (2, b2n t.refused)]
  else if o = 0xA08 then t.fnLo
  else if o = 0xA0C then t.fnHi
  else if o = 0xA10 ∨ o = 0xA14 then granules t.base.toNat (o == 0xA14)
  else if o = 0xA18 then BitVec.ofNat 32 (4096 * t.size.toNat)
  else if o = 0xA1C then t.wptr
  else if o = 0xA20 then t.lost
  else if o = 0xA28 then t.idx.setWidth 32
  else if 0xA30 ≤ o ∧ o < 0xA40 then BitVec.ofNat 32 (leAt (Table.get [] t.buf t.idx.toNat) (o - 0xA30) 4)
  else if o = 0xA40 then
    mkWord [(0, b2n s.dbg.attached), (1, b2n s.dbg.halted), (2, s.dbg.scope.toNat), (4, s.dbg.fails.toNat)]
  else if o = 0xA48 then loWord s.fuses.uid
  else if o = 0xA4C then hiWord s.fuses.uid
  else 0

/-- A dword of the device block; `o` counts from 0x1_0000. -/
def State.readDev (s : State) (o : Nat) : Word :=
  if o < 0x100 then s.readDev0 o
  else if o < 0x300 then s.readTrouble o
  else if o < 0x400 then s.readPwr o
  else if o < 0x500 then s.readPace o
  else if o < 0x600 then s.readWd o
  else if o < 0x700 then s.readNvm o
  else if o < 0x800 then s.readFw o
  else if o < 0x900 then s.readWeft o
  else if o < 0xA00 then s.readMedia o
  else if o < 0xB00 then s.readTrace o
  else if 0x1000 ≤ o ∧ o < 0x1200 then half (BitVec.ofNat 64 (s.perfSlot ((o - 0x1000) / 8))) (o % 8 == 4)
  else 0

/-- The always-on set (24.3), by the offset in BAR 0. -/
def alwaysOnReg (o : Nat) : Bool :=
  (decide (0x10100 ≤ o) && decide (o < 0x10120)) || (decide (0x10200 ≤ o) && decide (o < 0x10240))
    || (decide (0x10400 ≤ o) && decide (o < 0x1044C)) || (decide (0x10500 ≤ o) && decide (o < 0x10518))
    || (decide (0x10A00 ≤ o) && decide (o < 0x10A50))

/-- BAR 0 of a function serves an offset (R621, Table 24-3). -/
def State.regServed (s : State) (f o : Nat) : Bool :=
  match s.barMode f with
  | .normal => true
  | .alwaysOn => f == 0 && alwaysOnReg o
  | .unsupported => false

/-- A dword of a function's BAR 0: the PF's goes on with the device block (R616, R621); what is not served reads 0. -/
def State.readReg (s : State) (f o : Nat) : Word :=
  if !s.regServed f o then 0
  else if o < 0x10000 then s.readFn f o
  else if f = 0 then s.readDev (o - 0x10000)
  else 0

/-- The low or high dword of a latching register (R618). -/
def State.latching (s : State) (f o : Nat) : Bool :=
  s.regServed f o && (o / 8 == 3 || (decide (0x8000 ≤ o) && decide (o < 0x8100))
    || (f == 0 && decide (0x11000 ≤ o) && decide (o < 0x11200)))

end Sys2Proof.Machine
end

