-- ==== Sys2Proof/Machine/RegWrite.lean ====
section
/-!
DEFINITION. Chapter 24, writing and reading with side effects: REGISTER_WRITE, RC_READ, the latching reads and
accesses of a size that R7 does not allow. A register with a command of its own acts through the same operation.
-/

namespace Sys2Proof.Machine

/-- One dword of a 64-bit register written (R617). -/
def withHalf (x : BitVec 64) (hi : Bool) (v : Word) : BitVec 64 := if hi then wide (loWord x) v else wide v (hiWord x)

/-- One dword of a granule field in [63:12] written: the new granule number. -/
def withGranule (g : Nat) (hi : Bool) (v : Word) : Nat := (withHalf (BitVec.ofNat 64 (4096 * g)) hi v).toNat / 4096

/-! ## The function block -/

/-- `FN_CTL`, `FN_SCRATCH`, `FN_TRB`, events (Tables 24-5, 19-2, 12-8). -/
def State.writeFnCtl (s : State) (f o : Nat) (v : Word) : State :=
  if o = 0x100 then
    let t := s.updFn f fun x => { x with fetchStop := bitOf v 0 }
    if bitOf v 1 then t.statsClear f else t
  else if o = 0x108 then s.updFn f fun x => { x with scratch := v }
  else if o = 0x200 then s.clearFnTrb f v
  else if o = 0x300 then s.updFn f fun x => { x with evtCause := x.evtCause &&& ~~~(v.setWidth 2) }
  else if o = 0x304 then s.updFn f fun x => { x with evtMask := v.setWidth 2 }
  else s

/-- Host windows: base and limit are staged, HWIN_CTL commits (R305). -/
def State.writeHwin (s : State) (f i o : Nat) (v : Word) : State :=
  let upd (g : HWin → HWin) : State := s.updFn f fun x => { x with hwin := Table.upd {} x.hwin i g }
  if o = 0x00 ∨ o = 0x04 then upd fun w => { w with sbase := BitVec.ofNat 52 (withGranule w.sbase.toNat (o == 0x04) v) }
  else if o = 0x08 ∨ o = 0x0C then
    upd fun w => { w with slimit := BitVec.ofNat 52 (withGranule w.slimit.toNat (o == 0x0C) v) }
  else if o = 0x10 then s.hwinCtlWrite f i v
  else s

/-- A write of RING_CFG: size, class and vector only while the ring is DISABLED, fail_fast in any state (R382). -/
def Ring.writeCfg (x : Ring) (v : Word) : Ring :=
  let y := { x with failFast := bitOf v 14 }
  if x.state = .disabled then
    { y with
      sqLog2 := BitVec.ofNat 5 (bitsOf v 4 0), cqLog2 := BitVec.ofNat 5 (bitsOf v 12 8), rt := bitOf v 13
      vector := BitVec.ofNat 6 (bitsOf v 21 16) }
  else y

/-- A write of a ring's configuration block; RING_CTL has commands of its own. -/
def Ring.write (x : Ring) (o : Nat) (v : Word) : Ring :=
  let off := decide (x.state = .disabled)
  if o = 0x00 ∨ o = 0x04 then
    (if off then { x with sqBase := BitVec.ofNat 52 (withGranule x.sqBase.toNat (o == 0x04) v) } else x)
  else if o = 0x08 ∨ o = 0x0C then
    (if off then { x with cqBase := BitVec.ofNat 52 (withGranule x.cqBase.toNat (o == 0x0C) v) } else x)
  else if o = 0x10 then x.writeCfg v
  else if o = 0x14 then { x with modCount := BitVec.ofNat 8 (bitsOf v 7 0), modTime := BitVec.ofNat 16 (bitsOf v 23 8) }
  else if o = 0x1C then { x with badDb := x.badDb && !bitOf v 2 }
  else x

/-- A write in the ring configurations. -/
def State.writeRing (s : State) (f r o : Nat) (v : Word) : State :=
  if !s.ringExists f r then s
  else if o = 0x18 then (if bitOf v 0 then s.ringEnable f r else s.ringDisable f r)
  else s.updRing f r fun x => x.write o v

/-- A write of a dword of a function block. -/
def State.writeFn (s : State) (f o : Nat) (v : Word) : State :=
  if o < 0x1000 then s.writeFnCtl f o v
  else if 0x1000 ≤ o ∧ o < 0x2000 then
    (if o % 16 = 0 then s.sqTailWrite f ((o - 0x1000) / 16) v
     else if o % 16 = 4 then s.cqHeadWrite f ((o - 0x1000) / 16) v
     else s)
  else if 0x2000 ≤ o ∧ o < 0x2200 then s.writeHwin f ((o - 0x2000) / 32) ((o - 0x2000) % 32) v
  else if 0x4000 ≤ o ∧ o < 0x8000 then s.writeRing f ((o - 0x4000) / 64) ((o - 0x4000) % 64) v
  else s

/-! ## The device block -/

/-- Staging a quota, selecting a function, the reserve (Table 16-1): a selection forgets what was staged (R449), and a
reserve above 256 is a reserved encoding (R6). -/
def Tenants.write (t : Tenants) (o : Nat) (v : Word) : Tenants :=
  if o = 0x060 then { t with selFn := v.setWidth 6, stA := none, stB := none }
  else if o = 0x064 then { t with stA := some (v &&& 0x03FF01FF) }
  else if o = 0x068 then { t with stB := some (v &&& 0x0F1F1F1F) }
  else if o = 0x070 then { t with refused := t.refused && !bitOf v 0, short := t.short && !bitOf v 1 }
  else if o = 0x074 then (if bitsOf v 9 0 ≤ 256 then { t with rtReserve := v.setWidth 10 } else t)
  else t

/-- The device-window selector and staging, the aperture (Table 11-5). -/
def Addr.write (a : Addr) (o : Nat) (v : Word) : Addr :=
  if o = 0x0C0 then { a with selFn := BitVec.ofNat 6 (bitsOf v 5 0), selWin := BitVec.ofNat 4 (bitsOf v 11 8) }
  else if o = 0x0C8 ∨ o = 0x0CC then
    { a with stBase := BitVec.ofNat 28 (withGranule a.stBase.toNat (o == 0x0CC) v) }
  else if o = 0x0D0 ∨ o = 0x0D4 then
    { a with stLimit := BitVec.ofNat 28 (withGranule a.stLimit.toNat (o == 0x0D4) v) }
  else if o = 0x0E0 ∨ o = 0x0E4 then
    let x := withHalf (BitVec.ofNat 64 (2 ^ 28 * a.aptBase.toNat)) (o == 0x0E4) v
    { a with aptBase := BitVec.ofNat 12 (x.toNat / 2 ^ 28) }
  else if o = 0x0E8 then { a with unmapped := a.unmapped && !bitOf v 0, denied := a.denied && !bitOf v 1 }
  else a

/-- 0x1_0000 to 0x1_00FF. -/
def State.writeDev0 (s : State) (o : Nat) (v : Word) : State :=
  if o = 0x000 then (if bitOf v 0 then s.softReset else s)
  else if o = 0x040 then { s with pcie := { s.pcie with evtCause := s.pcie.evtCause &&& ~~~(v.setWidth 5) } }
  else if o = 0x044 then { s with pcie := { s.pcie with evtMask := v.setWidth 5 } }
  else if o = 0x06C then (if bitOf v 0 then s.quotaCommit else s)
  else if 0x060 ≤ o ∧ o < 0x080 then { s with tenants := s.tenants.write o v }
  else if o = 0x0D8 then s.dwinCommit v
  else { s with addr := s.addr.write o v }

/-- Trouble and the event log. -/
def State.writeTrouble (s : State) (o : Nat) (v : Word) : State :=
  if o = 0x100 then s.clearTrb v
  else if o = 0x118 then { s with trouble := { s.trouble with sel := v.setWidth 6 } }
  else if o = 0x11C then s.clearFnTrb s.trouble.sel.toNat v
  else if o = 0x208 then s.evlogAckWrite v
  else if o = 0x20C then { s with trouble := { s.trouble with idx := v } }
  else s

/-- PWR fields (Table 18-4): a reserved max_level and a zero dwell time change nothing (R512). -/
def Power.write (p : Power) (o : Nat) (v : Word) : Power :=
  if o = 0x300 then
    { p with maxLevel := if bitsOf v 2 0 ≤ 4 then bitsOf v 2 0 else p.maxLevel, unboundGate := bitOf v 3 }
  else if o = 0x310 then
    if bitsOf v 7 0 = 0 ∨ bitsOf v 15 8 = 0 ∨ bitsOf v 23 16 = 0 ∨ bitsOf v 31 24 = 0 then p
    else
      { p with dwell1 := BitVec.ofNat 8 (bitsOf v 7 0), dwell2 := BitVec.ofNat 8 (bitsOf v 15 8)
               dwell3 := BitVec.ofNat 8 (bitsOf v 23 16), dwell4 := BitVec.ofNat 8 (bitsOf v 31 24) }
  else if o = 0x314 then { p with activeUs := v.setWidth 10 }
  else if o = 0x31C then { p with wake := p.wake &&& ~~~(v.setWidth 7) }
  else p

/-- PWR: a change of its controls acts on the domains, the target and the LTR at once (R493, R502, R510). -/
def State.writePwr (s : State) (o : Nat) (v : Word) : State :=
  (({ s with power := s.power.write o v }).refreshDoms s).retarget

/-- `AVS_CTL`: out of range, the register keeps its value (R51). -/
def Pace.writeAvsCtl (p : Pace) (v : Word) : Pace :=
  let rate := bitsOf v 10 0
  let lo := bitsOf v 21 12
  let hi := bitsOf v 31 22
  if 650 ≤ rate ∧ rate ≤ 1450 ∧ 650 ≤ lo ∧ hi ≤ 850 ∧ lo ≤ hi then
    { p with targetRate := BitVec.ofNat 11 rate, manual := bitOf v 11, vMin := BitVec.ofNat 10 lo
             vMax := BitVec.ofNat 10 hi }
  else p

/-- A force_level with a reserved quadrant level is a reserved encoding (R6). -/
def forceOk (v : Word) : Bool := (List.range 4).all fun q => decide (bitsOf v (2 * q + 1) (2 * q) ≠ 3)

/-- PACE fields (Tables 2-4 to 2-11). -/
def Pace.write (p : Pace) (o : Nat) (v : Word) : Pace :=
  if o = 0x400 then (if forceOk v then { p with forceLevel := v.setWidth 8 } else p)
  else if o = 0x420 then { p with sensorEn := v.setWidth 8, pinEn := bitOf v 8, pinLevel := bitOf v 9 }
  else if o = 0x424 then
    { p with fired := p.fired &&& ~~~(v.setWidth 8), pinFired := p.pinFired && !bitOf v 8 }
  else if o = 0x434 then
    { p with
      warnC := if 60 ≤ bitsOf v 7 0 ∧ bitsOf v 7 0 ≤ 120 then v.setWidth 8 else p.warnC
      warnIrqEn := bitOf v 8 }
  else if o = 0x440 then p.writeAvsCtl v
  else if o = 0x444 then { p with busFault := p.busFault && !bitOf v 21 }
  else if o = 0x448 then { p with vset := v.setWidth 10 }
  else p

/-- In manual mode a write of the voltage registers sets the voltage (R46), as far as R45 allows, while the regulator answers
(R48). -/
def State.manualAvs (s : State) : State :=
  if s.pace.manual && decide (s.life.phase = .running) && !s.pace.failing && decide (s.pace.tj < 412) then
    s.avsWrite (s.pace.thermalMv s.pace.baseMv (s.pace.clampMv s.pace.vset.toNat))
  else s

/-- PACE: demands act at once (R33, R34), the warning compares continuously (R41). -/
def State.writePace (s : State) (o : Nat) (v : Word) : State :=
  let t := { s with pace := s.pace.write o v }
  let t := (t.paceControl s (if o = 0x400 then 2 else 0)).thermWarn
  if o = 0x440 ∨ o = 0x448 then t.manualAvs else t

/-- A write of `NVM_UNLOCK` (R89). -/
def Nvm.key (v : Nvm) (key : Word) : Nvm :=
  if v.unlocked then
    if key = 0x5A2C then v
    else { v with unlocked := false, unlockLeft := if key = 0xC2A5 then some 1024 else none }
  else
    match v.unlockLeft with
    | none => if key = 0xC2A5 then { v with unlockLeft := some 1024 } else v
    | some n => { v with unlocked := decide (key = 0x5A2C) && decide (0 < n), unlockLeft := none }

/-- NVM fields (Tables 3-11, 4-7). -/
def Nvm.write (x : Nvm) (o : Nat) (v : Word) : Nvm :=
  if o = 0x610 then
    { x with
      rdLimit := if 0x10000 ≤ bitsOf v 23 0 then v.setWidth 24 else x.rdLimit
      eccLimit := if 3 ≤ bitsOf v 27 24 ∧ bitsOf v 27 24 ≤ 11 then BitVec.ofNat 4 (bitsOf v 27 24) else x.eccLimit
      autoEn := bitOf v 28 }
  else if o = 0x624 then { x with wearSel := v.setWidth 14 }
  else if o = 0x640 then
    (if 1 ≤ bitsOf v 4 0 ∧ bitsOf v 4 0 ≤ 16 then ({ x with maxPar := v.setWidth 5 } : Nvm).recount else x)
  else if o = 0x648 then x.key v
  else x

/-- A Weft port that is disabled is down at once; its error counts stay. -/
def Port.off (p : Port) : Port := { errCrc := p.errCrc, errResend := p.errResend, rxBuf := p.rxBuf }

/-- WEFT fields (Table 13-6). -/
def State.writeWeft (s : State) (o : Nat) (v : Word) : State :=
  if o = 0x800 then
    let off (i : Nat) (p : Port) : Port := if bitOf v i then p else p.off
    ({ s with weft := { s.weft with
      portEn := v.setWidth 2, serve := bitOf v 2
      ports := Table.mapVal {} off s.weft.ports
      peers := Table.mapVal {} (fun _ (x : Peer) => { x with ports := x.ports &&& v.setWidth 2 }) s.weft.peers } }).refreshDoms s
  else if o = 0x804 then { s with weft := { s.weft with configErr := s.weft.configErr && !bitOf v 8 } }
  else s

/-- MEDIA fields (Table 13-6): 3 lanes is a reserved encoding. A receiver that is disabled discards its open frames. -/
def State.writeMedia (s : State) (o : Nat) (v : Word) : State :=
  if o = 0x900 ∨ o = 0x904 then
    let n := (o - 0x900) / 4
    let lanes := bitsOf v 2 1
    let t := { s with csi := Table.upd {} s.csi n fun c =>
      { c with en := bitOf v 0, hsClock := c.hsClock && bitOf v 0, lanes := if lanes = 3 then c.lanes else BitVec.ofNat 2 lanes } }
    let t := if bitOf v 0 then t
      else { t with slots := Table.mapVal {} (fun _ x =>
        if x.csi ∧ x.receiver = n then { x with frame := none } else x) t.slots }
    t.refreshDoms s
  else s

/-- The LP5X region of the trace sink lies below `LP5X_TOP` (R587). -/
def State.traceRegionOk (s : State) : Bool :=
  decide (4096 * (s.trace.base.toNat + s.trace.size.toNat) ≤ s.lpTop)

/-- A write of `TRACE_CTL` (Table 22-9): an enable starts capture, or is refused (R587). A reserved sink keeps the
field (R6). When PD13 leaves ON, the internal buffer is lost (R589). -/
def State.traceCtlWrite (s : State) (v : Word) : State :=
  let k := bitsOf v 2 1
  let t0 := { s with trace := { s.trace with
    sink := if k = 3 then s.trace.sink else BitVec.ofNat 2 k
    stopMode := bitOf v 3, deep := bitOf v 4, classes := BitVec.ofNat 8 (bitsOf v 15 8) } }
  let t1 :=
    if bitOf v 0 && !s.trace.en then
      if decide (t0.trace.sink = 1) && !t0.traceRegionOk then { t0 with trace := { t0.trace with refused := true } }
      else { t0 with trace := { t0.trace with en := true, wptr := 0, stopped := false } }
    else { t0 with trace := { t0.trace with en := bitOf v 0 } }
  let t2 := if t1.domState 13 ≠ 0 then { t1 with trace := { t1.trace with buf := [] } } else t1
  { t2 with power := { t2.power with dom := t2.domsOn } }

/-- TRACE fields (Table 22-9). -/
def Trace.write (t : Trace) (o : Nat) (v : Word) : Trace :=
  if o = 0xA04 then { t with refused := t.refused && !bitOf v 2 }
  else if o = 0xA08 then { t with fnLo := v }
  else if o = 0xA0C then { t with fnHi := v }
  else if o = 0xA10 ∨ o = 0xA14 then
    { t with base := BitVec.ofNat 28 (withGranule t.base.toNat (o == 0xA14) v) }
  else if o = 0xA18 then
    (if 1 ≤ bitsOf v 30 12 ∧ bitsOf v 30 12 ≤ 262144 then { t with size := BitVec.ofNat 19 (bitsOf v 30 12) } else t)
  else if o = 0xA28 then { t with idx := v.setWidth 12 }
  else t

/-- TRACE. -/
def State.writeTrace (s : State) (o : Nat) (v : Word) : State :=
  if o = 0xA00 then s.traceCtlWrite v
  else if o = 0xA24 then s.traceMarkWrite v
  else { s with trace := s.trace.write o v }

/-- A write of a dword of the device block; `o` counts from 0x1_0000. -/
def State.writeDev (s : State) (o : Nat) (v : Word) : State :=
  if o < 0x100 then s.writeDev0 o v
  else if o < 0x300 then s.writeTrouble o v
  else if o < 0x400 then s.writePwr o v
  else if o < 0x500 then s.writePace o v
  else if o < 0x600 then s
  else if o < 0x700 then { s with nvm := s.nvm.write o v }
  else if o < 0x800 then s
  else if o < 0x900 then s.writeWeft o v
  else if o < 0xA00 then s.writeMedia o v
  else if o < 0xB00 then s.writeTrace o v
  else s

/-- A write of a dword of a function's BAR 0; what is not served is discarded (R616, R621, Table 24-3). -/
def State.writeReg (s : State) (f o : Nat) (v : Word) : State :=
  if !s.regServed f o then s
  else if o < 0x10000 then s.writeFn f o v
  else if f = 0 then s.writeDev (o - 0x10000) v
  else s

/-! ## BAR 4 (R323, R339, 12.3) -/

/-- Vectors of a function (Table 12-3). -/
def vecCount (f : Nat) : Nat := if f = 0 then 64 else 33

/-- Send once the message of a vector whose PBA bit is set and that nothing masks any longer (R339); until the firmware is ready it
stays pending. -/
def State.flushPba (s : State) (f vec : Nat) : State :=
  let x := s.fnSt f
  let v := Table.get {} x.vecs vec
  if x.msixEn && !x.fnMask && !v.mask && bitOf x.pba vec && decide (s.life.phase = .running) then
    (s.updFn f fun y => { y with pba := y.pba &&& ~~~((1 : BitVec 64) <<< vec) }).sendMsi f vec
  else s

/-- A write of a dword of the MSI-X table; the PBA is read-only. -/
def State.writeMsix (s : State) (f o : Nat) (v : Word) : State :=
  let i := o / 16
  if i ≥ vecCount f then s
  else
    let upd (g : MsixVec → MsixVec) : State :=
      s.updFn f fun x => { x with vecs := Table.upd {} x.vecs i g }
    if o % 16 = 0 then upd fun m => { m with addr := wide (v &&& 0xFFFFFFFC) (hiWord m.addr) }
    else if o % 16 = 4 then upd fun m => { m with addr := wide (loWord m.addr) v }
    else if o % 16 = 8 then upd fun m => { m with data := v }
    else (upd fun m => { m with mask := bitOf v 0 }).flushPba f i

/-- A dword of BAR 4: the MSI-X table, or the PBA at 0x1000 (R324, R339). -/
def State.readMsix (s : State) (f o : Nat) : Word :=
  let i := o / 16
  if o = 0x1000 then loWord (s.fnSt f).pba
  else if o = 0x1004 then hiWord (s.fnSt f).pba
  else if i ≥ vecCount f then 0
  else
    let m := Table.get {} (s.fnSt f).vecs i
    if o % 16 = 0 then loWord m.addr
    else if o % 16 = 4 then hiWord m.addr
    else if o % 16 = 8 then m.data
    else BitVec.ofNat 32 (b2n m.mask)

/-- BAR 4 answers: memory space is enabled and no POR or reset of class E holds the device. -/
def State.bar4Served (s : State) (f : Nat) : Bool := decide (s.barMode f ≠ .unsupported)

/-! ## Which BAR an address lies in (R324 to R326) -/

/-- The System Page Size in bytes (R325). -/
def Pcie.pageBytes (p : Pcie) : Nat := 4096 * p.sysPage.toNat

/-- Bytes of one function's region of a BAR: the PF's BAR, or a VF's 64 KiB or 8 KiB, at least one page (R324, R325). -/
def State.barSpan (s : State) (bar : BarId) (f : Nat) : Nat :=
  match bar with
  | .bar0 => if f = 0 then 0x20000 else max 0x10000 s.pcie.pageBytes
  | .bar4 => if f = 0 then 0x2000 else max 0x2000 s.pcie.pageBytes

/-- Where a function's region of a BAR starts: VF `n` at VF BAR + (n - 1) * max(size, page) (R326). -/
def State.barBase (s : State) (bar : BarId) (f : Nat) : Nat :=
  match bar with
  | .bar0 => if f = 0 then s.pcie.bar0.toNat else s.pcie.vfBar0.toNat + (f - 1) * s.barSpan .bar0 f
  | .bar4 => if f = 0 then s.pcie.bar4.toNat else s.pcie.vfBar4.toNat + (f - 1) * s.barSpan .bar4 f

/-- What a memory request reaches. -/
inductive BarHit where
  | at (bar : BarId) (fn offset : Nat)
  /-- The PF's aperture, which has rows of its own. -/
  | other
  | unclaimed
  deriving DecidableEq, Repr

/-- The region that claims an address. -/
def State.decodeBar (s : State) (a : Nat) : BarHit :=
  let hits := s.fnList.flatMap fun f => [(BarId.bar0, f), (BarId.bar4, f)]
  match hits.find? fun h => decide (s.barBase h.1 h.2 ≤ a) && decide (a < s.barBase h.1 h.2 + s.barSpan h.1 h.2) with
  | some h => .at h.1 h.2 (a - s.barBase h.1 h.2)
  | none => if s.pcie.bar2.toNat ≤ a ∧ a < s.pcie.bar2.toNat + 0x10000000 then .other else .unclaimed

/-- The target of an access. -/
def State.barTarget (s : State) (r : BarRef) : BarHit :=
  match r with
  | .bar0 f o => .at .bar0 f.val o.toNat
  | .bar4 f o => .at .bar4 f.val o.toNat
  | .address a => s.decodeBar a.toNat

/-- The target that a command names. -/
def barRefOf (bar : BarSel) (fn : FnId) (offset : BitVec 17) : BarRef :=
  match bar with
  | .bar0 => .bar0 fn offset
  | .bar4 => .bar4 fn offset
  | .address a => .address a

/-! ## Commands -/

/-- A write of one or two dwords of BAR 0 as one access, the low dword first (R617). -/
def State.barWrite (s : State) (f o : Nat) (is64 : Bool) (v : BitVec 64) : State :=
  let t := s.writeReg f o (loWord v)
  if is64 then t.writeReg f (o + 4) (hiWord v) else t

/-- A write of BAR 4. -/
def State.bar4Write (s : State) (f o : Nat) (is64 : Bool) (v : BitVec 64) : State :=
  let t := s.writeMsix f o (loWord v)
  if is64 then t.writeMsix f (o + 4) (hiWord v) else t

/-- REGISTER_WRITE (R8, R617, R621, R622, R336): an access that is not aligned is BAR_MISALIGNED_ACCESS, not this; an address that no
BAR claims is an Unsupported Request, and one in BAR 2 is BAR2_WRITE. -/
def execRegisterWrite (bar : BarSel) (fn : FnId) (offset : BitVec 17) (is64 : Bool) (value : BitVec 64) (s : State) :
    Host.Outcome State Fault Refusal :=
  match s.barTarget (barRefOf bar fn offset) with
  | .other => ok s
  | .unclaimed => ok (s.logUr 64 true)
  | .at b f o =>
    if s.barMode f = .unsupported then ok (s.logUr f true)
    else if o % (if is64 then 8 else 4) ≠ 0 then ok s
    else
      match b with
      | .bar0 => ok (s.barWrite f o is64 value)
      | .bar4 => ok (s.bar4Write f o is64 value)

/-- The RC fields: reading clears them (Table 0-3). Offsets of the device block from 0x1_0000. -/
def State.readClear (s : State) (o : Nat) : State :=
  if o = 0x054 then { s with pcie := { s.pcie with recovCnt := 0 } }
  else if o = 0x058 then { s with pcie := { s.pcie with cplTo := 0 } }
  else if o = 0x084 then { s with addr := { s.addr with eccCnt := 0 } }
  else if o = 0x088 then { s with addr := { s.addr with uncorrCnt := 0 } }
  else if 0x320 ≤ o ∧ o < 0x330 then
    { s with power := { s.power with entryCnt := Table.set 0 s.power.entryCnt ((o - 0x320) / 4 + 1) 0 } }
  else if 0x330 ≤ o ∧ o < 0x340 then
    { s with power := { s.power with resMs := Table.set 0 s.power.resMs ((o - 0x330) / 4 + 1) 0 } }
  else if o = 0x428 then { s with pace := { s.pace with cntL1 := 0 } }
  else if o = 0x42C then { s with pace := { s.pace with cntL2 := 0 } }
  else if o = 0x61C then { s with nvm := { s.nvm with eccCnt := 0 } }
  else if o = 0x620 then { s with nvm := { s.nvm with uncorrCnt := 0 } }
  else if o = 0x810 ∨ o = 0x814 then
    { s with weft := { s.weft with
      ports := Table.upd {} s.weft.ports ((o - 0x810) / 4) fun p => { p with errCrc := 0, errResend := 0 } } }
  else if 0x910 ≤ o ∧ o < 0x930 then
    let k := (o - 0x910) % 16
    { s with csi := Table.upd {} s.csi ((o - 0x910) / 16) fun c =>
      if k = 0 then { c with ecc1 := 0, ecc2 := 0 }
      else if k = 4 then { c with crc := 0, len := 0 }
      else if k = 8 then { c with sync := 0, unbound := 0 }
      else { c with phy := 0 } }
  else if 0x940 ≤ o ∧ o < 0x980 then s.updSlot ((o - 0x940) / 4) fun x => { x with overrun := 0 }
  else if o = 0xA20 then { s with trace := { s.trace with lost := 0 } }
  else s

/-- The side effects of a read of one dword. -/
def State.readEffect (s : State) (f o : Nat) : State :=
  if s.regServed f o && f == 0 && decide (0x10000 ≤ o) then s.readClear (o - 0x10000) else s

/-- The value of a 32-bit read, with the latch shadow of R618. -/
def State.latchValue (s : State) (f o : Nat) : Word :=
  let x := s.fnSt f
  if s.latching f o && o % 8 == 4 && decide (x.shadowFor = some (o - 4)) then x.shadow else s.readReg f o

/-- The shadow after a 32-bit read (R618): the low dword of a latching register pairs, any other read ends a pair. -/
def State.latchAfter (s : State) (f o : Nat) : State :=
  if s.latching f o && o % 8 == 0 then
    s.updFn f fun x => { x with shadow := s.readReg f (o + 4), shadowFor := some o }
  else s.updFn f fun x => { x with shadowFor := none }

/-- A 32-bit read of BAR 0: value, shadow, side effects, completion. -/
def State.barRead32 (s : State) (f o : Nat) : State :=
  ((s.latchAfter f o).readEffect f o).emit (.barCpl false [(leBytes 4 (s.latchValue f o).toNat, false)])

/-- A 64-bit read of BAR 0: both dwords of one instant; the shadow itself stays (R617, R618). -/
def State.barRead64 (s : State) (f o : Nat) : State :=
  let b := leBytes 4 (s.readReg f o).toNat ++ leBytes 4 (s.readReg f (o + 4)).toNat
  (((s.updFn f fun x => { x with shadowFor := none }).readEffect f o).readEffect f (o + 4)).emit (.barCpl false [(b, false)])

/-- A read that finds memory space disabled or the device held (R336, Table 24-3). -/
def State.barUr (s : State) (f : Nat) : State := (s.logUr f false).emit (.barCpl true [])

/-- A read of BAR 0. -/
def State.barRead (s : State) (f o : Nat) (is64 : Bool) : State :=
  if s.barMode f = .unsupported then s.barUr f
  else if o % (if is64 then 8 else 4) ≠ 0 then s
  else if is64 then s.barRead64 f o
  else s.barRead32 f o

/-- An aligned read of BAR 4. -/
def State.bar4Read (s : State) (f o : Nat) (is64 : Bool) : State :=
  if !s.bar4Served f then s.barUr f
  else if o % (if is64 then 8 else 4) ≠ 0 then s
  else
    let hi := if is64 then leBytes 4 (s.readMsix f (o + 4)).toNat else []
    s.emit (.barCpl false [(leBytes 4 (s.readMsix f o).toNat ++ hi, false)])

/-- RC_READ, and every other aligned read of BAR 0 or BAR 4 (R8, R324 to R326). -/
def execRcRead (bar : BarSel) (fn : FnId) (offset : BitVec 17) (is64 : Bool) (s : State) : Host.Outcome State Fault Refusal :=
  match s.barTarget (barRefOf bar fn offset) with
  | .other => ok s
  | .unclaimed => ok (s.barUr 64)
  | .at .bar0 f o => ok (s.barRead f o is64)
  | .at .bar4 f o => ok (s.bar4Read f o is64)

/-- LATCH_LOW_READ (R618). -/
def execLatchLowRead (fn : FnId) (offset : BitVec 17) (s : State) : Host.Outcome State Fault Refusal :=
  ok (s.barRead fn.val offset.toNat false)

/-- LATCH_HIGH_READ (R618). -/
def execLatchHighRead (fn : FnId) (offset : BitVec 17) (s : State) : Host.Outcome State Fault Refusal :=
  ok (s.barRead fn.val offset.toNat false)

/-- BAR_MISALIGNED_ACCESS: a write is discarded, a read answers 0xFF in every byte (R7). -/
def execBarMisalignedAccess (bar : BarSel) (fn : FnId) (isWrite : Bool) (len : Nat) (s : State) :
    Host.Outcome State Fault Refusal :=
  match s.barTarget (barRefOf bar fn 0) with
  | .other => ok s
  | .unclaimed => ok (if isWrite then s.logUr 64 true else s.barUr 64)
  | .at _ f _ =>
    if s.barMode f = .unsupported then ok (if isWrite then s.logUr f true else s.barUr f)
    else if isWrite then ok s
    else ok (s.emit (.barCpl false [(List.replicate len 0xFF, false)]))

/-- NVM_UNLOCK: a write of a key (R89). -/
def execNvmUnlock (key : Word) (s : State) : Host.Outcome State Fault Refusal :=
  ok (s.barRow 0 fun s => if s.barMode 0 ≠ .normal then s else { s with nvm := s.nvm.key key })

/-- UNLOCK_TIMEOUT: 1,024 WDO ticks after the first key the sequence is aborted (R89). -/
def execUnlockTimeout (s : State) : Host.Outcome State Fault Refusal :=
  if s.nvm.unlockLeft = some 0 then ok { s with nvm := { s.nvm with unlockLeft := none } } else ok s

/-- TRACE_ENABLE: a write of TRACE_CTL (R587). -/
def execTraceEnable (value : Word) (s : State) : Host.Outcome State Fault Refusal :=
  ok (s.barRow 0 fun s => s.traceCtlWrite value)

end Sys2Proof.Machine
end

