-- ==== Sys2Proof/Machine/Pcie.lean ====
section
/-!
DEFINITION. Chapter 12: configuration space, VFs, FLR, Bus Master Enable, D3hot, link events, the unmasking of MSI-X
vectors and link errors. The offsets inside a PCI Express capability and the bits of its registers are those of the PCIe
Base Specification, to which R319 and R323 refer (log entry 11).
-/

namespace Sys2Proof.Machine

/-! ## Requests held by Bus Master Enable or D3hot (R335, R508) -/

/-- Issue a function's held requests in their original order, once it may send. -/
def State.releaseHeld (s : State) (f : Nat) : State :=
  if s.canSend f then
    let a := if (s.fnSt f).heldOut.isEmpty then s else s.leaveL1
    { (a.updFn f fun x => { x with heldOut := [] }) with
      out := s.out ++ (s.fnSt f).heldOut
      reads := s.reads.map fun (q : ReadReq) => if q.fn = f ∧ !q.sent then { q with sent := true, issued := s.time } else q }
  else s

/-- Set or clear a function's Bus Master Enable. -/
def State.setBme (s : State) (f : Nat) (v : Bool) : State := (s.updFn f fun x => { x with bme := v }).releaseHeld f

/-- BUS_MASTER_ENABLE (R335). -/
def execBusMasterEnable (fn : FnId) (value : Bool) (s : State) : Host.Outcome State Fault Refusal :=
  if s.fnExists fn.val then ok (s.setBme fn.val value) else ok s

/-- The PF enters D3hot: requests and messages are held, tol_min is no limit (R500, R508). -/
def State.d3 (s : State) : State := ({ s with pcie := { s.pcie with d3hot := true } }).retarget

/-- The PF returns to D0: every function's held requests issue, and the device wakes (R504, R508). -/
def State.d0 (s : State) : State :=
  if s.pcie.d3hot then
    ((List.range 64).foldl State.releaseHeld { s with pcie := { s.pcie with d3hot := false } }).wake 6
  else s

/-- D3HOT_ENTRY. -/
def execD3hotEntry (s : State) : Host.Outcome State Fault Refusal := ok s.d3

/-- D0_ENTRY. -/
def execD0Entry (s : State) : Host.Outcome State Fault Refusal := ok s.d0

/-! ## Functions reset (R331 to R334) -/

/-- A function after FLR: device windows, quota, rings held and sticky bits stay; everything else is at reset (R310,
R333, R526). -/
def FnSt.flr (x : FnSt) (time : BitVec 64) : FnSt :=
  { trb := x.trb, dwin := x.dwin, quota := x.quota, ringsHeld := x.ringsHeld, aerUncorr := x.aerUncorr
    aerCorr := x.aerCorr, aerFirst := x.aerFirst, aerHdr := x.aerHdr, stats := freshStats time }

/-- A disabled VF: its trouble bits stay, and the quota that `QUOTA_A` and `QUOTA_B` show for it (R310, R331, R332, R449). -/
def FnSt.gone (x : FnSt) (time : BitVec 64) : FnSt := { trb := x.trb, quota := x.quota, stats := freshStats time }

/-- What an FLR of the PF clears of its configuration space beside VF Enable: every field but Max_Payload_Size
(PCIe Base Specification, log entry 26). -/
def Pcie.flr (p : Pcie) : Pcie :=
  { p with
    mse := false, numVfs := 0, vfEnable := false, vfMse := false, ari := false, sysPage := 1, bar0 := 0, bar2 := 0
    bar4 := 0, vfBar0 := 0, vfBar4 := 0, mrrs := 2, devCtl := 0x910, perr := false, serr := false, cfgRw := [], tag10 := false, cto := 0, ctoDis := false, ltrEn := false
    d3hot := false }

/-- Disable one VF (R331): its work ends, and its entry names how many commands ended (step 6). -/
def State.disableVf (s : State) (f : Nat) : State :=
  let n := s.ticketsHeld f
  let t := (s.endFunction f).updFn f fun x => x.gone s.time
  let t := { t with owners := t.owners.filter fun p => p.2 != f }
  if n = 0 then t else t.logEvent 0x40 (fnByte f) (leBytes 2 n) [.fn f FnTrb.lostWork.bit]

/-- The VFs that exist. -/
def State.vfList (s : State) : List Nat := s.fnList.filter fun f => f != 0

/-- VF Enable changes from 1 to 0 (R331). -/
def State.vfDisable (s : State) : State :=
  if s.pcie.vfEnable then
    let t := s.vfList.foldl State.disableVf s
    ({ t with pcie := { t.pcie with vfEnable := false } }.refreshDoms s).retarget
  else s

/-- VF_DISABLE. -/
def execVfDisable (s : State) : Host.Outcome State Fault Refusal := ok s.vfDisable

/-- Initiate FLR (R333, R334, R348): of the PF, every VF is disabled first; started in a reset of class S, it waits for
its end. -/
def State.flr (s : State) (f : Nat) : State :=
  match s.life.phase with
  | .boot _ => s.updFn f fun x => { x with flrWaits := true }
  | _ =>
    let a := if f = 0 then s.vfDisable else s
    let work := a.hadWork f
    let b := (a.endFunction f).updFn f fun x => x.flr s.time
    let c := if f = 0 then { b with pcie := b.pcie.flr } else b
    let d := (c.refreshDoms a).retarget
    if work then d.setFnTrb f .lostWork else d

/-- FLR. -/
def execFlr (fn : FnId) (s : State) : Host.Outcome State Fault Refusal :=
  if s.fnExists fn.val ∧ s.pcie.dlActive then ok (s.flr fn.val) else ok s

/-! ## VFs (R328, R330, R451) -/

/-- Rings of the functions below `f`, from VF 1 on, as they have been assigned. -/
def State.ringsBelow (s : State) (f : Nat) : Nat :=
  ((List.range f).map fun g => if s.fnExists g then (s.fnSt g).ringsHeld else 0).sum

/-- One VF comes into existence: the state a reset of class F leaves, with the device windows that the PF has committed for it, the
default quota (Table 16-1, log entry 82), and rings as far as the 2,048 of the device go, in ascending order (R306, R330, R451). -/
def State.enableVf (s : State) (f : Nat) : State :=
  let q : Quota := {}
  let n := min q.rings (2048 - s.ringsBelow f)
  let t := s.updFn f fun x =>
    { trb := x.trb, dwin := x.dwin, quota := q, ringsHeld := n, stats := freshStats s.time
      crsUntil := some (s.time + 38400) }
  { t with tenants := { t.tenants with short := t.tenants.short || decide (n < q.rings) } }

/-- VF Enable changes from 0 to 1 (R330). -/
def State.vfEnable (s : State) : State :=
  if s.pcie.vfEnable then s
  else
    let t := { s with
      pcie := { s.pcie with vfEnable := true }
      tenants := { s.tenants with short := false } }
    ((List.range' 1 63).filter fun f => t.fnExists f).foldl State.enableVf t

/-- VF_ENABLE. -/
def execVfEnable (s : State) : Host.Outcome State Fault Refusal := ok s.vfEnable

/-- A write of NumVFs (R328). -/
def State.setNumVfs (s : State) (v : BitVec 16) : State :=
  if s.pcie.vfEnable ∨ v.toNat > 63 then s else { s with pcie := { s.pcie with numVfs := v } }

/-- NUMVFS_WRITE. -/
def execNumvfsWrite (value : BitVec 16) (s : State) : Host.Outcome State Fault Refusal := ok (s.setNumVfs value)

/-! ## MSI-X masks (R339) -/

/-- Send the messages that a function's masks no longer hold. -/
def State.flushVecs (s : State) (f : Nat) : State := (List.range (vecCount f)).foldl (fun t v => t.flushPba f v) s

/-- MSIX_UNMASK: a vector's mask, or the Function Mask, is cleared. -/
def execMsixUnmask (fn : FnId) (vec : Option (Fin 64)) (s : State) : Host.Outcome State Fault Refusal :=
  let f := fn.val
  if !s.fnExists f then ok s
  else
    match vec with
    | none => ok ((s.updFn f fun x => { x with fnMask := false }).flushVecs f)
    | some v =>
      if v.val < vecCount f then
        ok ((s.updFn f fun x => { x with vecs := Table.upd {} x.vecs v.val fun m => { m with mask := false } }).flushPba
          f v.val)
      else ok s

/-! ## Link events (R342, R344) -/

/-- LINK_RETRAIN: a retrain that changes speed or width. -/
def execLinkRetrain (speed : BitVec 4) (width : BitVec 5) (s : State) : Host.Outcome State Fault Refusal :=
  if !s.pcie.dlActive ∨ (s.pcie.speed = speed ∧ s.pcie.width = width) ∨ !trainable speed width then ok s
  else
    let t := s.linkUp speed width
    let t := t.fnList.foldl (fun (t : State) f => t.raiseFnEvt f 1) t
    ok (t.logEvent 3 devByte [speed.setWidth 8, width.setWidth 8] [])

/-- RECOVERY_ENTRY (R344). -/
def execRecoveryEntry (s : State) : Host.Outcome State Fault Refusal :=
  ok { s with pcie := { s.pcie with recovCnt := satInc s.pcie.recovCnt 1 } }

/-- BAD_TLP: a link error is logged in AER (R342, Table 12-7). -/
def execBadTlp (err : LinkError) (s : State) : Host.Outcome State Fault Refusal :=
  match err with
  | .receiver => ok (s.aer 0 0 0x1)
  | .badTlp => ok (s.aer 0 0 0x40)
  | .badDllp => ok (s.aer 0 0 0x80)
  | .replayRollover => ok (s.aer 0 0 0x100)
  | .replayTimeout => ok (s.aer 0 0 0x1000)
  | .dlProtocol => ok (s.aer 0 0x10 0)
  | .fcProtocol => ok (s.aer 0 0x2000 0)
  | .rxOverflow => ok (s.aer 0 0x20000 0)
  | .malformed => ok (s.aer 0 0x40000 0)
  | .poisonedWrite dst =>
    let f := match s.barTarget dst with
      | .at _ f _ => if s.fnExists f then f else 0
      | _ => 0
    ok ((s.aer f 0x1000 0x2000).parity f false)
  | .unsupported fn => ok (s.logUr ((fn.map Fin.val).getD 64) true)

/-! ## Configuration space (R322 to R328) -/

/-- The low dword of a 64-bit BAR of `size` bytes. -/
def barLow (x : BitVec 64) (kind : Nat) : Word := loWord x ||| BitVec.ofNat 32 kind

/-- The PF's configuration registers that hold what software writes and nothing else: offset, mask of the fields that may be written,
reset value (PCIe Base Specification, log entry 143): Cache Line Size, Link Control 2, LTR Max Latency, L1 PM Substates Control 1 and
2, and the four lanes' Margining Control. -/
def cfgRwDefs : List (Nat × Word × Word) :=
  [(0x00C, 0xFF, 0), (0x080, 0xFFBF, 4), (0x19C, 0x1FFF1FFF, 0), (0x1A8, 0xE3FF0000, 0), (0x1AC, 0xFB, 0x28),
   (0x1F8, 0xFF7F, 0x9C38), (0x1FC, 0xFF7F, 0x9C38), (0x200, 0xFF7F, 0x9C38), (0x204, 0xFF7F, 0x9C38)]

/-- The value of such a register. -/
def Pcie.readRw (p : Pcie) (r : Nat) : Word :=
  match cfgRwDefs.find? fun d => d.1 == r with
  | none => 0
  | some d => (Table.find p.cfgRw r).getD d.2.2

/-- A write of such a register. -/
def Pcie.writeRw (p : Pcie) (r : Nat) (v : Word) : Pcie :=
  match cfgRwDefs.find? fun d => d.1 == r with
  | none => p
  | some d => { p with cfgRw := Table.insert p.cfgRw r ((p.readRw r &&& ~~~d.2.1) ||| (v &&& d.2.1)) }

/-- The header registers of a function (Table 12-2). -/
def State.cfgHeader (s : State) (f r : Nat) : Word :=
  let p := s.pcie
  if r = 0x00 then (if f = 0 then 0xC2001FA7 else 0xFFFFFFFF)
  else if r = 0x04 then
    mkWord [(1, b2n (p.mse && f == 0)), (2, b2n (s.fnSt f).bme), (6, b2n (p.perr && f == 0)), (8, b2n (p.serr && f == 0)), (20, 1)]
      ||| (s.fnSt f).cfgStat
  else if r = 0x08 then 0x12000001
  else if r = 0x10 then (if f = 0 then barLow p.bar0 4 else 0)
  else if r = 0x14 then (if f = 0 then hiWord p.bar0 else 0)
  else if r = 0x18 then (if f = 0 then barLow p.bar2 12 else 0)
  else if r = 0x1C then (if f = 0 then hiWord p.bar2 else 0)
  else if r = 0x20 then (if f = 0 then barLow p.bar4 4 else 0)
  else if r = 0x24 then (if f = 0 then hiWord p.bar4 else 0)
  else if r = 0x2C then p.subsys
  else if r = 0x34 then (if f = 0 then 0x40 else 0x50)
  else 0

/-- The PCI Express, MSI-X, AER and ARI capabilities, which every function has (Table 12-3). -/
def State.cfgCaps (s : State) (f r : Nat) : Word :=
  let p := s.pcie
  let x := s.fnSt f
  let pf := f == 0
  if r = 0x50 then 0x00029010
  else if r = 0x54 then 0x10008022
  else if r = 0x58 then
    (if pf then p.devCtl ||| mkWord [(5, p.mps.toNat), (12, p.mrrs.toNat), (16, x.devSta.toNat)]
     else mkWord [(16, x.devSta.toNat)])
  else if r = 0x5C then mkWord [(0, 4), (4, 4), (10, 2), (15, 3)]
  else if r = 0x60 then
    (if pf then mkWord [(0, p.aspm.toNat), (3, b2n p.rcb128), (16, p.speed.toNat), (20, p.width.toNat)]
     else mkWord [(16, p.speed.toNat), (20, p.width.toNat)])
  else if r = 0x74 then 0x0003081F
  else if r = 0x78 then
    (if pf then mkWord [(0, p.cto.toNat), (4, b2n p.ctoDis), (10, b2n p.ltrEn), (12, b2n p.tag10)] else 0)
  else if r = 0x90 then
    mkWord [(0, 0x11), (16, vecCount f - 1), (30, b2n x.fnMask), (31, b2n x.msixEn)]
  else if r = 0x94 then 4
  else if r = 0x98 then 0x1004
  else if r = 0x100 then 0x14820001
  else if r = 0x104 then x.aerUncorr
  else if r = 0x110 then x.aerCorr
  else if r = 0x118 then x.aerFirst.setWidth 32
  else if 0x11C ≤ r ∧ r ≤ 0x128 then x.aerHdr.getD ((r - 0x11C) / 4) 0
  else if r = 0x7C then 0x1E
  else if r = 0x148 then (if pf then 0x1581000E else 0x0001000E)
  else 0

/-- The capabilities that only the PF has (Table 12-3, R328). -/
def State.cfgPf (s : State) (r : Nat) : Word :=
  let p := s.pcie
  if r = 0x40 then 0x00035001
  else if r = 0x44 then mkWord [(0, if p.d3hot then 3 else 0), (3, 1)]
  else if r = 0x158 then 0x19810010
  else if r = 0x160 then mkWord [(0, b2n p.vfEnable), (3, b2n p.vfMse), (4, b2n p.ari)]
  else if r = 0x164 then 0x003F003F
  else if r = 0x168 then mkWord [(0, p.numVfs.toNat)]
  else if r = 0x16C then 0x00010001
  else if r = 0x170 then 0xC2010000
  else if r = 0x174 then 0x1F
  else if r = 0x178 then p.sysPage
  else if r = 0x17C then barLow p.vfBar0 4
  else if r = 0x180 then hiWord p.vfBar0
  else if r = 0x18C then barLow p.vfBar4 4
  else if r = 0x190 then hiWord p.vfBar4
  else if r = 0x198 then 0x1A010018
  else if r = 0x1A0 then 0x1B01001E
  else if r = 0x1A4 then mkWord [(0, 0x1F), (8, 30), (16, 1), (19, 6)]
  else if r = 0x108 then p.aerUncMask
  else if r = 0x10C then p.aerSev
  else if r = 0x114 then p.aerCorMask
  else if r = 0x1A8 then mkWord [(0, p.l1ss.toNat)] ||| p.readRw r
  else if r = 0x1B0 then 0x1C010019
  else if r = 0x1C0 then 0x1F010026
  else if r = 0x1F0 then 0x00010027
  else p.readRw r

/-- A configuration register of a function; a register without a meaning here reads 0. -/
def State.cfgRead (s : State) (f r : Nat) : Word :=
  if r < 0x40 then (if f = 0 ∧ r = 0x0C then s.pcie.readRw r else s.cfgHeader f r)
  else
    let v := s.cfgCaps f r
    if v = 0 ∧ f = 0 then s.cfgPf r else v

/-- A BAR after a write of one of its dwords; its low bits, below its size, stay 0. -/
def barWith (x : BitVec 64) (hi : Bool) (v : Word) (size : Nat) : BitVec 64 :=
  BitVec.ofNat 64 ((withHalf x hi v).toNat / size * size)

/-- A write of Device Control 2; a reserved Completion Timeout encoding keeps the previous value (R340). -/
def Pcie.writeCtl2 (p : Pcie) (v : Word) : Pcie :=
  { p with
    cto := if bitsOf v 3 0 ∈ [0, 1, 2, 5, 6, 9, 10, 13, 14] then v.setWidth 4 else p.cto
    ctoDis := bitOf v 4, ltrEn := bitOf v 10, tag10 := bitOf v 12 }

/-- The uncorrectable errors that the KC2 detects (Table 12-7), as AER numbers them. -/
def aerUncBits : Word := 0x177010

/-- The PF's BARs, Device Control, Link Control, page size, AER masks and L1 PM Substates fields; a reserved encoding keeps its
field (R6). -/
def Pcie.write (p : Pcie) (r : Nat) (v : Word) : Pcie :=
  if r = 0x10 ∨ r = 0x14 then { p with bar0 := barWith p.bar0 (r == 0x14) v 0x20000 }
  else if r = 0x18 ∨ r = 0x1C then { p with bar2 := barWith p.bar2 (r == 0x1C) v 0x10000000 }
  else if r = 0x20 ∨ r = 0x24 then { p with bar4 := barWith p.bar4 (r == 0x24) v 0x2000 }
  else if r = 0x58 then
    { p with
      mps := if bitsOf v 7 5 ≤ 2 then (v >>> 5).setWidth 3 else p.mps
      mrrs := if bitsOf v 14 12 ≤ 5 then (v >>> 12).setWidth 3 else p.mrrs
      devCtl := v &&& 0x91F }
  else if r = 0x108 then { p with aerUncMask := v &&& aerUncBits }
  else if r = 0x10C then { p with aerSev := v &&& aerUncBits }
  else if r = 0x114 then { p with aerCorMask := v &&& 0x31C1 }
  else if r = 0x60 then { p with aspm := v.setWidth 2, rcb128 := bitOf v 3 }
  else if r = 0x78 then p.writeCtl2 v
  else if r = 0x178 then (if v ∈ [1, 2, 4, 8, 16] ∧ !p.vfEnable then { p with sysPage := v } else p)
  else if r = 0x17C ∨ r = 0x180 then { p with vfBar0 := barWith p.vfBar0 (r == 0x180) v (max 0x10000 p.pageBytes) }
  else if r = 0x18C ∨ r = 0x190 then { p with vfBar4 := barWith p.vfBar4 (r == 0x190) v (max 0x2000 p.pageBytes) }
  else if r = 0x1A8 then ({ p with l1ss := v.setWidth 4 } : Pcie).writeRw r v
  else p.writeRw r v

/-- A write of a function's MSI-X Message Control: clearing Function Mask sends what waits (R339). -/
def State.cfgMsix (s : State) (f : Nat) (v : Word) : State :=
  (s.updFn f fun x => { x with msixEn := bitOf v 31, fnMask := bitOf v 30 }).flushVecs f

/-- A write of SR-IOV Control (R329 to R331). -/
def State.cfgSriov (s : State) (v : Word) : State :=
  let t := { s with pcie := { s.pcie with vfMse := bitOf v 3, ari := bitOf v 4 } }
  if bitOf v 0 then t.vfEnable else t.vfDisable

/-- A configuration write to a register that every function has. -/
def State.cfgWriteFn (s : State) (f r : Nat) (v : Word) : State :=
  if r = 0x04 then
    ((if f = 0 then { s with pcie := { s.pcie with mse := bitOf v 1, perr := bitOf v 6, serr := bitOf v 8 } } else s).updFn f
      fun x => { x with cfgStat := x.cfgStat &&& ~~~v }).setBme f (bitOf v 2)
  else if r = 0x58 then
    let t := s.updFn f fun x => { x with devSta := x.devSta &&& ~~~((v >>> 16).setWidth 4) }
    (if bitOf v 15 then t.flr f else t)
  else if r = 0x90 then s.cfgMsix f v
  else if r = 0x104 then s.updFn f fun x => { x with aerUncorr := x.aerUncorr &&& ~~~v }
  else if r = 0x110 then s.updFn f fun x => { x with aerCorr := x.aerCorr &&& ~~~v }
  else s

/-- A configuration write to a function; a register that nothing here names ignores it. -/
def State.cfgWrite (s : State) (f r : Nat) (v : Word) : State :=
  if f ≠ 0 then s.cfgWriteFn f r v
  else if r = 0x44 then (if bitsOf v 1 0 = 3 then s.d3 else if bitsOf v 1 0 = 0 then s.d0 else s)
  else if r = 0x160 then s.cfgSriov v
  else if r = 0x168 then s.setNumVfs (v.setWidth 16)
  else
    let t := ({ s with pcie := s.pcie.write r v }).cfgWriteFn 0 r v
    if r = 0x78 then t.ltrUpdate else t

/-- A newly enabled VF still answers with CRS: for at most 1 ms, how long is the device's (R330, log entry 6). -/
def State.vfCrs (s : State) (f : Nat) : Bool :=
  match (s.fnSt f).crsUntil with
  | none => false
  | some t => decide (s.time < t) && Config.freeBit s.fresh

/-- CONFIG_REQUEST (R330, R331, R346 to R348): nothing answers while the link is down; a function that does not exist
is an Unsupported Request; before the firmware is ready, CRS. -/
def execConfigRequest (fn : FnId) (req : CfgReq) (s : State) : Host.Outcome State Fault Refusal :=
  let f := fn.val
  match s.life.phase with
  | .por => ok s
  | .held _ => ok s
  | _ =>
    if !s.fnExists f then ok ((s.aer 0 0x100000 0).emit (.cfgCpl .ur 0xFFFFFFFF))
    else if s.pcie.crs || (s.fnSt f).flrWaits then ok (s.emit (.cfgCpl .crs 0xFFFF0001))
    else if s.vfCrs f then ok (s.tick.emit (.cfgCpl .crs 0xFFFF0001))
    else
      let t := s.updFn f fun x => { x with crsUntil := if x.crsUntil.isSome then none else x.crsUntil }
      match req with
      | .read reg => ok (t.emit (.cfgCpl .sc (t.cfgRead f (reg.toNat / 4 * 4))))
      | .write reg value => ok ((t.cfgWrite f (reg.toNat / 4 * 4) value).emit (.cfgCpl .sc 0))

end Sys2Proof.Machine
end

