-- ==== Sys2Proof/Machine/Boot.lean ====
section
/-!
DEFINITION. BOOT: the steps of Table 21-1 as one command (R552 to R569, R79, R293 to R296, R624). What the boot measures
is the command's operands: the densities of the two LP5X channels, whether training succeeds, the cores that fail the
core test, and the speed and width to which the link trains.
-/

namespace Sys2Proof.Machine

/-! ## Block maps (R79) -/

/-- `a` is a later generation than `b`. -/
def genLater (a b : BitVec 16) : Bool := decide (a ≠ b) && decide ((a - b).toNat < 2 ^ 15)

/-- The origin of a code word names a bank or plane (Table 3-1). -/
def NvmWord.ofBank (x : NvmWord) (b : Nat) : Bool :=
  if b < 64 then !x.code && x.bank == b else x.code && x.bank % 2 == b - 64

/-- What the origin fields of the first readable word of each physical block claim: its key, logical block and
generation. -/
def Nvm.claims (v : Nvm) : List (Nat × Nat × BitVec 16) :=
  v.words.foldl (fun acc x =>
    let k := x.1 / 1024
    if flagOf x.2.flag = .written ∧ x.2.errs ≤ 12 ∧ x.2.ofBank (k / 128) ∧ x.2.lblock < nvmLogical (k / 128)
        ∧ !(acc.any fun c => c.1 == k) then
      acc ++ [(k, x.2.lblock, x.2.gen)]
    else acc) []

/-- Map a logical block to a physical one; a logical block that held it takes the other's place. -/
def Nvm.switchMap (v : Nvm) (b l p : Nat) : Nvm :=
  let q := v.physOf b l
  if q = p then v
  else
    match v.logicalOf b p with
    | none => v.remap b l p
    | some m => (v.remap b l p).remap b m q

/-- Of two claims to a logical block, whether the second is kept (R79): the later generation only if its block-complete
flag reads written. -/
def Nvm.keepNew (v : Nvm) (old new : Nat × BitVec 16) : Bool :=
  if genLater new.2 old.2 then decide (flagOf (Table.get {} v.blocks new.1).complete = .written)
  else !decide (flagOf (Table.get {} v.blocks old.1).complete = .written)

/-- The winners of the claims, by bank * 128 + logical block, and the losers. -/
def Nvm.settleClaims (v : Nvm) (l : List (Nat × Nat × BitVec 16)) : List (Nat × (Nat × BitVec 16)) × List Nat :=
  l.foldl (fun (acc : List (Nat × (Nat × BitVec 16)) × List Nat) c =>
    let key := blockKey (c.1 / 128) c.2.1
    match Table.find acc.1 key with
    | none => (Table.insert acc.1 key (c.1, c.2.2), acc.2)
    | some o =>
      if v.keepNew o (c.1, c.2.2) then (Table.insert acc.1 key (c.1, c.2.2), acc.2 ++ [o.1])
      else (acc.1, acc.2 ++ [c.1])) ([], [])

/-- Rebuild every block map from the origin fields; a discarded block waits for an erase (R79). A logical block that
nothing claims keeps its block. -/
def Nvm.rebuild (v : Nvm) : Nvm :=
  let r := v.settleClaims v.claims
  let w := r.1.foldl (fun (w : Nvm) x => w.switchMap (x.1 / 128) (x.1 % 128) (x.2.1 % 128)) v
  { w with
    gens := r.1.foldl (fun t x => Table.set 0 t x.1 x.2.2) w.gens
    blocks := r.2.foldl (fun t k => Table.upd {} t k fun (y : NvmBlock) => { y with stale := true }) w.blocks }

/-! ## The choice of firmware (R558 to R561, R567, R568) -/

/-- A FW_FALLBACK entry that is due: slot, reason, settings version, firmware version (Table 21-7). -/
def fallbackPayload (slot reason found ver : Nat) : Bytes :=
  [BitVec.ofNat 8 slot, BitVec.ofNat 8 reason] ++ leBytes 2 found ++ leBytes 4 ver

/-- Version of the stored record, 0 when none is good. -/
def State.foundVersion (s : State) : Nat := (s.nvm.storedRecord.map recordVersion).getD 0

/-- fw_version of a slot's header. -/
def Nvm.slotVersion (v : Nvm) (slot : Nat) : Nat := leAt (v.slotHead slot) 8 4

/-- The slot that a boot finds wrong: abandoned in a trial (reason 1), or PENDING with an image that fails its check
(reason 2). -/
def State.slotFailed (s : State) (i : Nat) : Option Nat :=
  if s.nvm.slotState i = 2 then some 1
  else if s.nvm.slotState i = 1 ∧ !s.slotValid i then some 2
  else none

/-- The firmware of slot `run` marks a failed other slot UNFIT (R561, Table 21-7); its entry's payload. -/
def State.markFailed (s : State) (run : Nat) : State × List Bytes :=
  let i := 1 - run
  match s.slotFailed i with
  | none => (s, [])
  | some why => (s.fwMark i 4, [fallbackPayload i why s.foundVersion (s.nvm.slotVersion i)])

/-- The firmware of a slot can read the stored record (R567). -/
def Nvm.canRead (v : Nvm) (slot : Nat) : Bool :=
  match v.storedRecord with
  | none => false
  | some r => decide (leAt (v.slotHead slot) 22 2 ≤ recordVersion r) && decide (recordVersion r ≤ leAt (v.slotHead slot) 20 2)

/-- A trial firmware gives up for unreadable settings (Table 21-6, second case). -/
def State.givesUp (s : State) (slot : Nat) (trial : Bool) : Bool :=
  match s.nvm.storedRecord with
  | none => false
  | some r => !s.nvm.canRead slot && trial && !bitOf (r.getD 12 0) 0 && s.slotConfirmed (1 - slot)

/-- A mark of the boot itself: programmed now, or kept until VPP_NVM is present (R560). -/
def State.bootMark (s : State) (slot kind : Nat) : State :=
  if s.nvm.vppOk then s.programMark slot kind else s.markLater slot kind

/-- The internal restart (R568): the trial slot is marked UNFIT if VPP_NVM allows. -/
def State.restartMark (s : State) (slot : Nat) : State :=
  let t := if s.nvm.vppOk then s.programMark slot 4 else s
  { t with fw := { t.fw with
    marksDue := t.fw.marksDue.filter fun m => m.1 != slot
    fallback := some (slot, s.foundVersion, s.nvm.slotVersion slot) } }

/-- The firmware that runs, after at most one restart: its slot, whether this is a trial, and the payloads of the
FW_FALLBACK entries that it owes. None when no slot is runnable. -/
def State.chooseFw (s : State) : State × Option (Nat × Bool × List Bytes) :=
  match s.bootChoice none with
  | none => (s, none)
  | some (i, trial) =>
    let a := s.markFailed i
    let b := if trial then a.1.bootMark i 2 else a.1
    if b.givesUp i trial then
      let c := b.restartMark i
      ({ c with fw := { c.fw with restarted := true } },
        some (1 - i, false, a.2 ++ [fallbackPayload i 0 s.foundVersion (s.nvm.slotVersion i)]))
    else (b, some (i, trial, a.2))

/-! ## Steps 5 to 7 -/

/-- The settings in force (R567, R569): the stored record, or factory values with its seq. -/
def State.loadSettings (s : State) (slot : Nat) : State :=
  let found := s.foundVersion
  if s.nvm.canRead slot then
    { s with fw := { s.fw with record := s.nvm.storedRecord.getD [], found := BitVec.ofNat 16 found } }
  else
    { s with fw := { s.fw with
      record := factoryRecord ((s.nvm.storedRecord.map recordSeq).getD 1)
      defaulted := true, found := BitVec.ofNat 16 found } }

/-- What the running image's header tells (Table 21-2). -/
def State.loadHead (s : State) (slot : Nat) (trial : Bool) : State :=
  let h := s.nvm.slotHead slot
  { s with fw := { s.fw with
    running := slot, trial := trial, version := BitVec.ofNat 32 (leAt h 8 4), setOwn := leAt h 20 2
    setLo := leAt h 22 2, migLo := leAt h 24 2, rollVer := leAt h 12 4 } }

/-- LP5X is trained, or is treated as untrained (R293, R294, R296): LP5X_TOP in MiB. -/
def State.trainLp5x (s : State) (gibA gibB : Nat) (trained : Bool) : State :=
  let ecc := bitOf (s.fw.record.getD 24 0) 0
  let good := trained && gibA == gibB && (gibA ∈ [2, 4, 6, 8])
  let mib := 1024 * (gibA + gibB)
  { s with addr := { s.addr with
    top := if good then BitVec.ofNat 16 (if ecc then mib * 7 / 8 else mib * 511 / 512) else 0
    eccOn := ecc, trained := good } }

/-- Fields of the record that act at this boot (R255, R296, R565). -/
def State.applySettings (s : State) (c : ResetClass) : State :=
  { s with
    fw := { s.fw with wheelMap := BitVec.ofNat 32 (leAt s.fw.record 20 4) }
    pcie := if c = .S then s.pcie else { s.pcie with subsys := BitVec.ofNat 32 (leAt s.fw.record 16 4) } }

/-- The core test's outcome (R562). -/
def State.coreTest (s : State) (c : ResetClass) (bad : List Nat) : State :=
  let again := bad.any fun n => Table.get false s.life.failed n
  { s with life := { s.life with
    failed := bad.foldl (fun t n => Table.set false t n true) []
    powerCycle := (decide (c = .E) || decide (c = .S)) && again } }

/-! ## Step 8 -/

/-- The class code of a RESET entry and of FW_BOOT. -/
def classCode (c : ResetClass) : Nat :=
  match c with
  | .P => 0 | .W => 0 | .E => 2 | .S => 3 | .F => 0

/-- The cause code of a RESET entry (Table 19-5). -/
def causeCode (c : ResetCause) : Nat :=
  match c with
  | .perstN => 0 | .hotReset => 1 | .linkDisable => 2 | .linkLoss => 3 | .hostDsr => 4

/-- The first entry of a boot (Table 19-5). -/
def State.startEntry (s : State) (c : ResetClass) : State :=
  if c = .E ∨ c = .S then
    s.logEvent 2 devByte [BitVec.ofNat 8 (classCode c), BitVec.ofNat 8 (causeCode s.life.cause)] []
  else s.logEvent 1 devByte (leBytes 4 s.fw.version.toNat ++ [BitVec.ofNat 8 s.fw.running]) []

/-- Trouble bits that are held while their condition holds (Table 19-1). -/
def State.raiseLevels (s : State) : State :=
  let b := s.trouble.trb ||| s.levelBits
  if b = s.trouble.trb then s
  else { s with trouble := { s.trouble with trb := b } }.raiseDevEvt 0

/-- The entries a boot owes after the first (R331, R561, R562, R567). -/
def State.bootEntries (s : State) (falls : List Bytes) : State :=
  let a := s.life.vfEnded.foldl (fun (t : State) (p : Nat × Nat) => t.logEvent 0x40 (fnByte p.1) (leBytes 2 p.2) []) s
  let b := s.life.failed.foldl (fun (t : State) (p : Nat × Bool) =>
    t.logEvent 0x33 devByte (BitVec.ofNat 8 p.1 :: zeroBytes 4) [.dev Trb.coreFault.bit]) a
  let d := falls.foldl (fun (t : State) p => t.logEvent 0x70 devByte p [.dev Trb.fwFallback.bit]) b
  if s.fw.defaulted then
    d.logEvent 0x71 devByte
      ([if s.nvm.storedRecord.isSome then 0 else 1, 0] ++ leBytes 2 s.fw.found.toNat ++ leBytes 4 s.fw.version.toNat)
      [.dev Trb.settingsDefaulted.bit]
  else d

/-- Functions whose commands the reset ended learn of it (R526). -/
def State.lostWorkBits (s : State) : State :=
  let t := s.life.lostWork.foldl (fun (t : State) f => t.setFnTrb f .lostWork) s
  { t with life := { t.life with lostWork := [], vfEnded := [] } }

/-- FLRs that a reset of class S held are completed (R348). -/
def State.finishFlrs (s : State) : State :=
  ((List.range 64).filter fun f => (s.fnSt f).flrWaits && s.fnExists f).foldl (fun (t : State) f => t.flr f) s

/-- The anti-rollback counter rises after the CONFIRM mark of a trial (R560). -/
def State.raiseRollback (s : State) : State :=
  if s.fw.rollDue then
    { s with
      fw := { s.fw with rollDue := false }
      fuses := { s.fuses with rollback := max s.fuses.rollback s.fw.rollVer } }
  else s

/-- A trial that has become ready confirms itself; the counter rises once the mark is programmed (R560). -/
def State.confirm (s : State) : State :=
  if s.fw.trial then { s.fwMark s.fw.running 3 with fw := { (s.fwMark s.fw.running 3).fw with rollDue := true } } else s

/-! ## What a boot reads of the weight store (R70, R72) -/

/-- A slot's image is read for its checks: its rows, and the code words that its length covers. -/
def State.imageReads (s : State) (slot : Nat) : State :=
  let h := s.nvm.slotHead slot
  let n := if headFormat h then headLen h else 512
  (s.slotRows (64 + slot) n).readStored fun b l w => b == 64 + slot && decide (262144 * l + 256 * w < n)

/-- The physical blocks in which something is stored: bank * 128 + block. -/
def Nvm.storedBlocks (v : Nvm) : List Nat := (v.words.map fun x => x.1 / 1024).eraseDups

/-- The boot's own reads: the images that it judges, the mark rows, the settings copies, both copies of the directory and of the wear
record, and the origin of every block in which something is stored, each row once (log entry 137). -/
def State.bootReads (s : State) : State :=
  let a := ([0, 1].filter fun i => s.nvm.slotState i == 1 || s.nvm.slotState i == 3).foldl State.imageReads s
  let b := [64, 65].foldl (fun (t : State) p =>
    (List.range' 48 12).foldl (fun (t : State) l => t.countReads p (t.nvm.physOf p l) 64)
      (t.countReads p (t.nvm.physOf p 47) 1)) a
  let c := a.nvm.storedBlocks.foldl (fun (t : State) k => t.countReads (k / 128) (k % 128) 1) b
  c.readStored fun p l w =>
    decide (64 ≤ p) && ((decide (48 ≤ l) && decide (l < 60)) || (l == 47 && decide (1008 ≤ w)))

/-- The firmware signals ready (R552 step 8, R624); messages that a reset of class S kept pending are sent (R339). -/
def State.signalReady (s : State) (c : ResetClass) (speed : BitVec 4) (width : BitVec 5) : State :=
  let a := if c = .S ∨ s.pcie.dlActive ∨ !trainable speed width then s else s.linkUp speed width
  let b := { a with
    life := { a.life with phase := .running, ready := true }
    pcie := { a.pcie with crs := false } }
  let d := b.startEntry c
  if c = .S then (d.fnList.foldl State.flushVecs d).raiseDevEvt 4 else d

/-- How long the boot took, in ms of the time base (Table 21-8). -/
def State.bootTime (s : State) : BitVec 16 :=
  BitVec.ofNat 16 (satNat 0xFFFF ((s.time - s.life.bootStart).toNat / 38400))

/-- The boot of a class, a runnable slot having been chosen. -/
def State.bootRun (s : State) (c : ResetClass) (slot : Nat) (trial : Bool) (falls : List Bytes) (gibA gibB : Nat)
    (trained : Bool) (bad : List Nat) (speed : BitVec 4) (width : BitVec 5) : State :=
  let a := ((s.loadHead slot trial).coreTest c bad).loadSettings slot
  let a := { a with nvm := a.nvm.rebuild }
  let a := if c = .S then a else a.trainLp5x gibA gibB trained
  let a := a.applySettings c
  let a := { a with fw := { a.fw with bootMs := a.bootTime, bootClass := BitVec.ofNat 2 (classCode c) } }
  let b := ((a.signalReady c speed width).bootReads.bootEntries falls).lostWorkBits
  ((b.raiseLevels.confirm).finishFlrs.refreshDoms s).ltrUpdate

/-- BOOT: every step of Table 21-1. With no runnable slot the boot ROM stops the watchdog, and the boot waits for its
0.9 s (R558). -/
def execBoot (gibA gibB : Nat) (trained : Bool) (bad : List (Fin 64)) (speed : BitVec 4) (width : BitVec 5)
    (s : State) : Host.Outcome State Fault Refusal :=
  match s.life.phase with
  | .boot c =>
    if s.life.noFw then ok s
    else
      let r := s.chooseFw
      match r.2 with
      | none => ok { s with life := { s.life with noFw := true }, wd := { s.wd with stopped := true } }
      | some (slot, trial, falls) =>
        ok (r.1.bootRun c slot trial falls gibA gibB trained (bad.map Fin.val) speed width)
  | _ => ok s

end Sys2Proof.Machine
end

