-- ==== Sys2Proof/Machine/Engine.lean ====
section
/-!
DEFINITION. The program and erase engines (chapters 3 and 4): how a queued operation starts, advances and ends, whatever
started it (R66, R76 to R79, R88, R90 to R104), and the wear-record checkpoint (R73).
-/

namespace Sys2Proof.Machine

/-! ## The queue by bank -/

/-- Change the first operation of a bank: the running one, or else the one that starts next (R100). -/
def headOp (b : Nat) (g : NvmOp → NvmOp) : List NvmOp → List NvmOp
  | [] => []
  | o :: t => if o.bank = b then g o :: t else o :: headOp b g t

/-- Put operations in the place of the first one of a bank. -/
def splitHead (b : Nat) (l : List NvmOp) : List NvmOp → List NvmOp
  | [] => []
  | o :: t => if o.bank = b then l ++ t else o :: splitHead b l t

/-- Remove the first operation of a bank. -/
def dropHeadOp (b : Nat) : List NvmOp → List NvmOp
  | [] => []
  | o :: t => if o.bank = b then t else o :: dropHeadOp b t

/-- Change the first operation of a bank. -/
def State.updHead (s : State) (b : Nat) (g : NvmOp → NvmOp) : State :=
  { s with nvm := ({ s.nvm with ops := headOp b g s.nvm.ops } : Nvm).recount }

/-- An operation belongs to a command. -/
def NvmOp.ofCmd (o : NvmOp) (t : Nat) : Bool :=
  match o.owner with
  | .cmd u => u == t
  | _ => false

/-- An operation programs a mark; marks of both slots share one sequence, so they are programmed one at a time (21.3). -/
def NvmOp.isMark (o : NvmOp) : Bool :=
  match o.act with
  | .program _ _ _ (.mark _ _) => true
  | _ => false

/-- An operation of the firmware's own wear-record checkpoint. -/
def NvmOp.isWear (o : NvmOp) : Bool := decide (o.owner = .wear)

/-- The first operation of a bank, if none that must precede it waits: one of the same command, another mark, the other copy of
the same checkpoint. -/
def Nvm.nextOp (v : Nvm) (b : Nat) : Option NvmOp :=
  match v.ops.find? fun o => o.bank == b with
  | none => none
  | some o =>
    let first (p : NvmOp → Bool) : Bool := !p o || decide (v.ops.find? p = some o)
    match o.owner with
    | .cmd t => if first (fun x => x.ofCmd t) && first NvmOp.isMark then some o else none
    | _ => if first NvmOp.isWear && first NvmOp.isMark then some o else none

/-- Queue a list of operations for a command, with its plan. -/
def State.queueCmd (s : State) (t : Nat) (l : List (Nat × NvmAct)) (p : NvmPlan) : State :=
  let ops := l.map fun x => ({ bank := x.1, act := x.2, owner := .cmd t } : NvmOp)
  let a := { s with nvm := { s.nvm with ops := s.nvm.ops ++ ops, plans := Table.insert s.nvm.plans t p } }
  (a.updCmd t fun c => { c with phase := .busy }).refreshDoms s

/-! ## Commands in flight on a reserved bank (R66, R77) -/

/-- The binding that a command uses, by its key. -/
def State.cmdBind (s : State) (c : Cmd) : Option Nat :=
  let o := Entry.opcode c.entry
  if o = 0x13 ∨ o = 0x14 ∨ o = 0x15 then some (c.fn * 64 + bitsOf (Entry.handle c.entry) 5 0)
  else if o = 0x22 ∧ (s.slot (bitsOf (Entry.handle c.entry) 3 0)).fn = c.fn then some (s.slot (bitsOf (Entry.handle c.entry) 3 0)).bind
  else none

/-- A command in flight, or a frame that runs here for another chip, uses a pattern that reserves a bank (R66). -/
def State.bankInUse (s : State) (b : Nat) : Bool :=
  (s.cmds.any fun p => decide (p.2.phase = .busy) &&
    match s.cmdBind p.2 with
    | none => false
    | some k => (Table.get [] s.nvm.resv b).contains k)
  || s.comp.runs.any fun p => p.2.lead.isSome && (Table.get [] s.nvm.resv b).contains p.2.bind

/-- NVM_SCRUB runs or is queued on a bank that a binding reserves: the dispatch of its commands is held (R77). -/
def State.scrubHolds (s : State) (k : Nat) : Bool :=
  s.nvm.ops.any fun o => (Table.get [] s.nvm.resv o.bank).contains k &&
    match o.act with
    | .relocate _ => true
    | _ => false

/-! ## The wear record (R73, R222) -/

/-- Code words of one checkpoint's record: at most a whole copy (log entry 134). -/
def wearLen : Nat := Config.wearWords % 2048 + 1

/-- The code words of a plane's copy of the wear record, blocks 58 and 59, up to the highest that is not erased. -/
def Nvm.wearUsed (v : Nvm) (plane : Nat) : Nat :=
  match highest (fun i => decide (flagOf (v.word (64 + plane) (58 + i / 1024) (i % 1024)).flag ≠ .erased)) 2048 with
  | none => 0
  | some i => i + 1

/-- The 256 bytes of a word of a checkpoint's record (log entry 134). -/
def wearWord (counts : Table NvmBlock) (map inst : Table Nat) (i : Nat) : Bytes :=
  (List.range 256).map fun j =>
    Config.wearByte (counts.map fun p => (p.1, [p.2.units, p.2.erases.toNat, b2n p.2.due])) map inst (256 * i + j)

/-- The program of a checkpoint into a plane's copy, its place and contents being found when it starts. -/
def wearAct : NvmAct := .program 58 0 wearLen (.wear [] [] [])

/-- The operations of a checkpoint: the copy of the inactive plane, then that of the active one (log entry 134). -/
def State.wearOps (s : State) : List (Nat × NvmAct) := [(65 - s.fw.running, wearAct), (64 + s.fw.running, wearAct)]

/-- The firmware queues a checkpoint, unless one is queued or runs. -/
def State.queueWear (s : State) : State :=
  if s.nvm.ops.any NvmOp.isWear then s
  else
    let ops := s.wearOps.map fun x => ({ bank := x.1, act := x.2, owner := .wear } : NvmOp)
    ({ s with nvm := { s.nvm with ops := s.nvm.ops ++ ops } }).refreshDoms s

/-- A program has ended with success: a checkpoint's record is the one that the counts resume from (R73). -/
def State.recorded (s : State) (o : NvmOp) : State :=
  match o.act with
  | .program _ _ _ (.wear counts _ inst) => { s with nvm := { s.nvm with ckpt := counts, ckptInst := inst } }
  | _ => s

/-- The checkpoint that precedes RL4 has been made (R497). -/
def State.wearDone (s : State) : State :=
  if s.nvm.ops.any NvmOp.isWear then s
  else { s with power := { s.power with ckptDone := decide (s.power.level = 3) } }

/-! ## The source of a program (R94, R95, R418) -/

/-- The pieces of an extent's contents, from byte `o` on, `n` bytes: each with the package offset it comes from. -/
def partBytes : List NvmPart → Nat → Nat → List NvmPart
  | [], _, _ => []
  | p :: t, o, n =>
    if p.len ≤ o then partBytes t (o - p.len) n
    else
      let k := min n (p.len - o)
      let q : NvmPart := { len := k, src := p.src.map fun x => x + o, lit := (p.lit.drop o).take k }
      if n ≤ k then [q] else q :: partBytes t 0 (n - k)

/-- Gather the pieces of one code word. -/
def State.gather (s : State) (view : HostView) (p0 : Place) (fn : Nat) : List NvmPart → State × Except ReadFail Bytes
  | [] => (s, .ok [])
  | p :: t =>
    let r : State × Except ReadFail Bytes := match p.src with
      | none => (s, .ok p.lit)
      | some x => s.readPlace view fn (p0.plus x) p.len
    match r.2 with
    | .error e => (r.1, .error e)
    | .ok d =>
      let q := r.1.gather view p0 fn t
      (q.1, q.2.map fun b => d ++ b)

/-- The 256 bytes of code word `i` of a program; bytes between and after items are zero (R223). -/
def State.sourceWord (s : State) (view : HostView) (src : NvmSrc) (i : Nat) : State × Except ReadFail Bytes :=
  match src with
  | .mem p fn => s.readPlace view fn (p.plus (256 * i)) 256
  | .bytes b => (s, .ok ((((b.drop (256 * i)).take 256) ++ zeroBytes 256).take 256))
  | .layout p fn parts =>
    let r := s.gather view p fn (partBytes parts (256 * i) 256)
    (r.1, r.2.map fun b => (b ++ zeroBytes 256).take 256)
  | .mark slot kind => (s, .ok (s.nvm.nextMark slot kind))
  | .wear counts map inst => (s, .ok (wearWord counts map inst i))

/-! ## The end of an operation -/

/-- The result words of a command whose operations have ended (R96, R99, R418, R437, R441, R442). -/
def nvmResults (op : Nat) (status : BitVec 16) (p : NvmPlan) (index : Nat) : Word × Word :=
  if op = 0x31 ∨ op = 0x52 then
    (BitVec.ofNat 32 p.count, if status = St.doubleProgram then BitVec.ofNat 32 index else 0)
  else if op = 0x34 then (BitVec.ofNat 32 p.count, 0)
  else if status = St.ok then (p.res0, p.res1)
  else (0, 0)

/-- What a command's success brings about (R226, R565). -/
def State.reachGoal (s : State) (c : Cmd) (p : NvmPlan) : State :=
  match p.goal with
  | .plain => s
  | .settings record ends =>
    let a := { s with fw := { s.fw with
      record := record
      found := BitVec.ofNat 16 (recordVersion record)
      defaulted := s.fw.defaulted && !ends } }
    a
  | .install map =>
    if bitOf (Entry.dw c.entry 7) 0 then
      match c.output 5 512 with
      | .error _ => s
      | .ok pl => s.writePlace c.fn pl map false
    else s

/-- A command ends with its last operation, or with the first that fails. -/
def State.finishPlan (s : State) (t : Nat) (status : BitVec 16) (index : Nat) : State :=
  match s.cmd? t with
  | none => s
  | some c =>
    let p := s.nvm.plan t
    let a := { s with nvm := { s.nvm with
      ops := s.nvm.ops.filter fun o => !o.ofCmd t
      plans := Table.erase s.nvm.plans t
      setLock := if Entry.opcode c.entry = 0x51 then none else s.nvm.setLock } }
    let b := if status = St.ok then a.reachGoal c p else a
    let r := nvmResults (Entry.opcode c.entry) status p index
    b.endCmd t status r.1 r.2

/-- How many units an operation adds to its command's count: code words of its source, or one relocated block. -/
def NvmOp.units (o : NvmOp) (status : BitVec 16) : Nat :=
  match o.act with
  | .program _ _ _ (.mark _ _) => 0
  | .program _ _ _ (.wear _ _ _) => 0
  | .program _ _ _ _ => o.done
  | .relocate _ => if status = St.ok then 1 else 0
  | .erase _ => 0
  | .erasePhys _ => 0

/-- A mark of the firmware's own has ended: cut off by VPP_NVM, it is programmed again when VPP_NVM returns; the counter rises
after CONFIRM (R560). -/
def State.markEnds (s : State) (slot kind : Nat) (status : BitVec 16) : State :=
  if status = St.vppLow then s.markLater slot kind
  else if status = St.ok ∧ kind = 3 then s.raiseRollback
  else s

/-- The first operation of a bank ends with a status; its command goes on with its next operation, or ends. -/
def State.opEnd (s : State) (o : NvmOp) (status : BitVec 16) (index : Nat) : State :=
  let a := { s with nvm := ({ s.nvm with ops := dropHeadOp o.bank s.nvm.ops } : Nvm).recount }
  let a := if status = St.ok then a.recorded o else a
  let b : State := match o.owner with
    | .cmd t =>
      let a := { a with nvm := { a.nvm with plans := (match Table.find a.nvm.plans t with
        | none => a.nvm.plans
        | some p => Table.insert a.nvm.plans t { p with count := p.count + o.units status, begun := true }) } }
      if status = St.ok ∧ (a.nvm.ops.any fun x => x.ofCmd t) then a else a.finishPlan t status index
    | .restore =>
      if status = St.ok ∧ (a.nvm.ops.any fun x => decide (x.owner = .restore)) then a
      else
        { a with
          nvm := { a.nvm with ops := a.nvm.ops.filter fun x => !decide (x.owner = .restore) }
          dbg := { a.dbg with result := { done := true, denied := decide (status ≠ St.ok) } } }
    | .mark slot kind => a.markEnds slot kind status
    | .wear =>
      if status = St.ok then a.wearDone
      else { a with nvm := { a.nvm with ops := a.nvm.ops.filter fun x => !x.isWear } }
    | _ => a
  b.refreshDoms s

/-- An operation that VPP_NVM refuses or cuts off (R90, R91). -/
def State.vppEnd (s : State) (o : NvmOp) : State := (s.opEnd o St.vppLow 0).setTrb .vppLow

/-! ## Start and progress -/

/-- A bank enters PROGRAM, ERASE or RELOCATE: NVM_OPSEQ rises and the prefetch buffer is emptied, in the active plane the
branch cache too (R63, R65, R67). -/
def State.enterOp (s : State) (b : Nat) : State :=
  ({ s with nvm := { s.nvm with
    opseq := s.nvm.opseq + 1
    prefetch := Table.set [] s.nvm.prefetch b []
    branch := if b = 64 + s.fw.running then [] else s.nvm.branch } }).updHead b fun o => { o with running := true }

/-- Stage the code word that a program charges next; a failing read ends it (R94, R95), one that cannot be issued leaves the
program without a staged word. -/
def State.stageWord (s : State) (view : HostView) (o : NvmOp) (src : NvmSrc) : State :=
  let r := s.sourceWord view src o.done
  if r.1.blocked then s.updHead o.bank fun x => { x with staged := [] }
  else match r.2 with
  | .error _ => r.1.opEnd o St.hostAbort 0
  | .ok d => r.1.updHead o.bank fun x => { x with staged := d }

/-- A directory slot is programmed: its install count is kept in the wear record (R222), and the slot of a new pattern
belongs to its installer (R229). -/
def State.noteSlot (s : State) (o : NvmOp) (l first : Nat) (b : Bytes) : State :=
  if o.bank < 64 ∨ l < 50 ∨ 57 < l ∨ first % 32 ≠ 0 then s
  else
    let slot := (l - 50) * 32 + first / 32
    let h := leAt b 72 4
    match o.owner with
    | .cmd t =>
      let mine := (s.nvm.plan t).res0.toNat == h
      { s with
        nvm := { s.nvm with instCnt := Table.set 0 s.nvm.instCnt slot (h / 256) }
        owners := if mine then Table.set 0 s.owners slot (leAt b 68 1 % 64) else s.owners }
    | _ => s

/-- The next code word of a relocation, from word `w` on; after the last, the spare is complete, the map switches, and
the old block's erase begins (R76). -/
def State.relocateFrom (s : State) (o : NvmOp) (l w : Nat) : State :=
  match (List.range' w (1024 - w)).find? fun i => decide (flagOf (s.nvm.word o.bank l i).flag ≠ .erased) with
  | some i =>
    let r := (s.scanRow o.bank (l * 64 + i / 16)).readWord o.bank l i
    r.1.updHead o.bank fun x => { x with word := i, staged := r.2.data }
  | none =>
    let old := s.nvm.physOf o.bank l
    let a := s.updBlock o.bank o.spare fun x => { x with complete := 8 }
    let v := a.nvm.remap o.bank l o.spare
    let v := { v with gens := Table.set 0 v.gens (blockKey o.bank l) (v.gen o.bank l + 1) }
    ({ a with nvm := v }).updHead o.bank fun x => { x with erasing := true, before := false, spare := old, done := 0 }

/-- A relocation starts (R76, R78): with no erased spare, a spare is erased first. -/
def State.relocateStart (s : State) (o : NvmOp) (l : Nat) : State :=
  match (s.nvm.erasedSpares o.bank).head? with
  | some p =>
    (s.updHead o.bank fun x => { x with spare := p }).relocateFrom { o with spare := p } l 0
  | none =>
    match lowest (fun p => (s.nvm.logicalOf o.bank p).isNone) (nvmPhys o.bank) with
    | none => s
    | some p => s.updHead o.bank fun x => { x with spare := p, erasing := true, before := true }

/-- The flag scan of a program: the rows of its range are read (R93); the first code word that is not erased. -/
def State.flagScan (s : State) (b l first n : Nat) : State × Option Nat :=
  let rows := List.range' ((1024 * l + first) / 16) ((first + n - 1) / 16 - first / 16 + 1)
  (rows.foldl (fun (t : State) r => t.scanRow b r) s,
    lowest (fun i =>
      let p := wordAt l first i
      decide (flagOf (s.nvm.word b p.1 p.2).flag ≠ .erased)) n)

/-- The index that DOUBLE_PROGRAM reports: within the block of a weight bank, within the slot of a plane (R93, R442). -/
def scanIndex (b l first i : Nat) : Nat := if b < 64 then (first + i) % 1024 else 1024 * l + first + i

/-- An operation whose place is found when it starts: a mark's next word, a checkpoint's next place in the copy, or the erases of a
full copy before it (R73, 21.3). -/
def State.placeOp (s : State) (o : NvmOp) : State × NvmOp :=
  let put (l : List NvmOp) : State := { s with nvm := { s.nvm with ops := splitHead o.bank l s.nvm.ops } }
  match o.act with
  | .program _ _ _ (.mark slot kind) =>
    let p := { o with act := .program 47 (1008 + s.nvm.marksUsed slot) 1 (.mark slot kind) }
    (put [p], p)
  | .program _ _ _ (.wear _ _ _) =>
    let i := s.nvm.wearUsed (o.bank - 64)
    if i + wearLen ≤ 2048 then
      let p := { o with
        act := .program (58 + i / 1024) (i % 1024) wearLen (.wear s.nvm.blocks s.nvm.map s.nvm.instCnt) }
      (put [p], p)
    else
      let e := { o with act := .erase 58 }
      (put [e, { o with act := .erase 59 }, o], e)
  | _ => (s, o)

/-- A mark for which its slot's mark area has no room (R559). -/
def Nvm.markFull (v : Nvm) (o : NvmOp) : Bool :=
  match o.act with
  | .program _ _ _ (.mark slot _) => decide (16 ≤ v.marksUsed slot)
  | _ => false

/-- An operation whose place is known starts (R92 to R94). -/
def State.opGo (s : State) (o : NvmOp) (view : HostView) : State :=
  match o.act with
  | .program l first n src =>
    let r := s.flagScan o.bank l first n
    match r.2 with
    | some i => (r.1.opEnd o St.doubleProgram (scanIndex o.bank l first i)).setTrb .doubleProgram
    | none =>
      let a := (r.1.enterOp o.bank)
      let a := match src with
        | .bytes b => a.noteSlot o l first b
        | _ => a
      a.stageWord view o src
  | .erase _ => s.enterOp o.bank
  | .erasePhys _ => s.enterOp o.bank
  | .relocate l => (s.enterOp o.bank).relocateStart o l

/-- The first operation of a bank starts; without VPP_NVM it ends with VPP_LOW, but the firmware's own marks and checkpoints wait
(R73, R90, R560). -/
def State.opStart (s : State) (o : NvmOp) (view : HostView) : State :=
  if !s.nvm.vppOk then
    (match o.owner with
     | .mark _ _ => s
     | .wear => s
     | _ => s.vppEnd o)
  else if s.nvm.markFull o then s.opEnd o St.noResource 0
  else (s.placeOp o).1.opGo (s.placeOp o).2 view

/-- A program's code word has been charged (R94, R96, R103). -/
def State.programmed (s : State) (o : NvmOp) (l first n : Nat) (src : NvmSrc) (view : HostView) : State :=
  let p := wordAt l first o.done
  let a := s.charge o.bank (s.nvm.physOf o.bank p.1) p.1 p.2 (s.nvm.gen o.bank p.1) false o.staged
  let q := { o with done := o.done + 1 }
  let a := a.updHead o.bank fun _ => q
  match o.stop with
  | some st => a.opEnd q st 0
  | none => if q.done ≥ n then a.opEnd q St.ok 0 else a.stageWord view q src

/-- A relocation's code word has been charged; an abandoned relocation leaves its spare partly written (R76, R78). -/
def State.copied (s : State) (o : NvmOp) (l : Nat) : State :=
  let a := s.charge o.bank o.spare l o.word (s.nvm.gen o.bank l + 1) true o.staged
  let q := { o with done := o.done + 1 }
  let a := a.updHead o.bank fun _ => q
  match o.stop with
  | some st => (a.updBlock o.bank o.spare fun x => { x with stale := true }).opEnd q st 0
  | none => a.relocateFrom q l (o.word + 1)

/-- The physical block that an operation erases, while it erases one. -/
def Nvm.eraseTarget (v : Nvm) (o : NvmOp) : Option Nat :=
  match o.act with
  | .erase l => some (v.physOf o.bank l)
  | .erasePhys p => some p
  | .relocate _ => if o.erasing then some o.spare else none
  | .program _ _ _ _ => none

/-- An erase has ended with success: a relocation that erased its spare begins to copy; any other operation ends
(R98). A stopped command ends with its own status (R419). -/
def State.erased (s : State) (o : NvmOp) (p : Nat) : State :=
  let a := s.eraseOk o.bank p
  match o.act with
  | .relocate l =>
    if o.before then
      let q := { o with erasing := false, before := false, done := 0 }
      (a.updHead o.bank fun _ => q).relocateFrom q l 0
    else a.opEnd o St.ok 0
  | _ => a.opEnd o (o.stop.getD St.ok) 0

/-- A block that an erase left indeterminate while it is mapped to nothing waits for another erase. -/
def State.staleIfFree (s : State) (b p : Nat) : State :=
  if (s.nvm.logicalOf b p).isNone then s.updBlock b p fun x => { x with stale := true } else s

/-- One erase pulse has been applied: the check runs after the sixth and every later one (R97, R99). -/
def State.pulse (s : State) (o : NvmOp) (p : Nat) (passed : Bool) : State :=
  let n := o.done + 1
  let q := { o with done := n }
  if n ≥ 6 ∧ passed then s.erased q p
  else if n ≥ 16 then ((s.eraseBad o.bank p).staleIfFree o.bank p).opEnd q St.eraseFail 0
  else s.updHead o.bank fun _ => q

end Sys2Proof.Machine
end

