-- ==== Sys2Proof/Machine/Nvm.lean ====
section
/-!
DEFINITION. The weight-store rows: NVM_READ, NVM_PROGRAM, NVM_ERASE, NVM_STATUS, NVM_SCRUB, the engines' events, VPP_NVM,
patrol reads, automatic relocation, erases of stale blocks and the wear checkpoint.
-/

namespace Sys2Proof.Machine

/-! ## Order of dispatch (R100, R415) -/

/-- The kind within which commands start and end in acceptance order (R415): settings, plane, pattern. -/
def orderKind (o : Nat) : Option Nat :=
  if o = 0x50 ∨ o = 0x51 then some 0
  else if o = 0x52 ∨ o = 0x53 then some 1
  else if o = 0x10 ∨ o = 0x11 then some 2
  else none

/-- Whether the operations of a command may touch a bank or plane: an install's, any; a remove's and a settings, staging or commit
command's, the planes. -/
def mayTouch (e : Entry) (b : Nat) : Bool :=
  let o := Entry.opcode e
  if o = 0x31 ∨ o = 0x32 ∨ o = 0x34 then (Entry.handle e).toNat == b
  else if o = 0x10 then true
  else if o = 0x11 ∨ o = 0x51 ∨ o = 0x52 ∨ o = 0x53 then decide (64 ≤ b)
  else false

/-- Two commands may touch one bank or plane. -/
def mayMeet (x y : Entry) : Bool := (List.range 66).any fun b => mayTouch x b && mayTouch y b

/-- Opcodes that compete for banks and slots in acceptance order (R107, R452). -/
def raceOpcode (o : Nat) : Bool := o == 0x10 || o == 0x12 || o == 0x20 || o == 0x31 || o == 0x32 || o == 0x34

/-- An earlier-accepted command goes first: one of the same kind until it has ended (R415), one of the same bank until its
operations are queued (R100), and one that competes for banks or slots until its own step (R107, R452). -/
def goesFirst (p c : Cmd) : Bool :=
  decide (p.order < c.order) &&
    ((decide (p.phase ≠ .ended) && (orderKind (Entry.opcode p.entry)).isSome
        && orderKind (Entry.opcode p.entry) == orderKind (Entry.opcode c.entry))
     || ((decide (p.phase = .held) || decide (p.phase = .ready)) && mayMeet p.entry c.entry)
     || (decide (p.phase = .ready) && raceOpcode (Entry.opcode p.entry) && raceOpcode (Entry.opcode c.entry)))

/-- A command's turn has come: no earlier-accepted command goes first (R100, R107, R415, R452). -/
def State.myTurn (s : State) (c : Cmd) : Bool := !(s.cmds.any fun p => goesFirst p.2 c)

/-- Run an ordered command's step when its turn has come. -/
def State.onTurn (s : State) (t : Nat) (ops : List Nat) (f : Cmd → State) : State :=
  s.onCmd t ops fun c => if s.myTurn c then f c else s

/-! ## Reading (R434, R436) -/

/-- The report byte of a code word (Table 4-4). -/
def WordRead.report (r : WordRead) : Byte :=
  BitVec.ofNat 8 (r.corrected + 16 * r.flag.code + 64 * b2n r.uncorr)

/-- A command's output as data and, after it, one report byte for each code word (R111). -/
def reported (words : List WordRead) (report : Bool) : Bytes :=
  words.flatMap (fun r => r.data) ++ (if report then words.map WordRead.report else [])

/-- What NVM_READ of a busy bank writes: status words (R68). -/
def busyWords (status n : Nat) (report : Bool) : Bytes :=
  (List.replicate (64 * n) (leBytes 4 status)).flatten ++ (if report then List.replicate n 0x80 else [])

/-- NVM_READ (R434). -/
def execNvmRead (t : Ticket) (s : State) : Host.Outcome State Fault Refusal :=
  ok <| s.onCmd t.val [0x30] fun c =>
    let b := (Entry.handle c.entry).toNat
    let (l, w, n) := nvmRange c.entry
    let rep := bitOf (Entry.dw c.entry 3) 0
    let len := (Entry.dw c.entry 6).toNat
    if !Entry.paramsOk c.entry then
      s.endCmd t.val St.badParam 0 0
    else
      match c.output 4 len with
      | .error e => s.endCmd t.val e 0 0
      | .ok p =>
        match s.nvm.running b with
        | some o =>
          (s.writePlace c.fn p (busyWords (s.nvm.statusWord o) n rep) false).endCmd t.val St.ok
            (BitVec.ofNat 32 n) (BitVec.ofNat 32 n)
        | none =>
          let r := (s.pd4Read b).readWords b l w n
          let bad := (r.2.filter fun x => x.uncorr).length
          let fixed := (r.2.filter fun x => decide (0 < x.corrected)).length
          (r.1.writePlace c.fn p (reported r.2 rep) false).endCmd t.val
            (if bad = 0 then St.ok else St.nvmUncorrectable) (BitVec.ofNat 32 (n + 65536 * bad))
            (BitVec.ofNat 32 (65536 * fixed))

/-- One block entry of NVM_STATUS (Table 4-5). -/
def Nvm.blockEntry (v : Nvm) (b p : Nat) : Bytes :=
  let x := v.block b p
  leBytes 2 x.erases.toNat ++ leBytes 3 x.units
    ++ (match v.logicalOf b p with
      | none => [BitVec.ofNat 8 (0x7F + 128 * b2n x.due), 0, 0]
      | some l => BitVec.ofNat 8 (l + 128 * b2n x.due) :: leBytes 2 (v.gen b l).toNat)

/-- Result word 0 of NVM_STATUS (R114). -/
def State.bankWord (s : State) (b : Nat) : Word :=
  mkWord [(0, s.bankState b),
    (4, satNat 15 (s.nvm.ops.filter fun o => o.bank == b && !o.running).length),
    (8, match s.nvm.running b with
      | none => 0
      | some o => s.nvm.progress o),
    (16, min 3 (s.nvm.erasedSpares b).length), (18, b2n (s.bankReserved b))]

/-- NVM_STATUS (R114, R436). -/
def execNvmStatus (t : Ticket) (s : State) : Host.Outcome State Fault Refusal :=
  ok <| s.onCmd t.val [0x33] fun c =>
    let b := (Entry.handle c.entry).toNat
    let en := bitOf (Entry.dw c.entry 4) 0
    if !Entry.paramsOk c.entry then s.endCmd t.val St.badParam 0 0
    else if en then
      match c.output 2 (8 * nvmPhys b) with
      | .error e => s.endCmd t.val e 0 0
      | .ok p =>
        (s.writePlace c.fn p ((List.range (nvmPhys b)).flatMap fun k => s.nvm.blockEntry b k) false).endCmd t.val St.ok
          (s.bankWord b) s.nvm.opseq
    else s.endCmd t.val St.ok (s.bankWord b) s.nvm.opseq

/-! ## Programming, erasing, scrubbing (R92, R106, R437) -/

/-- NVM_PROGRAM (R92, R435): checks 2 to 5 of Table 4-1 were made at its acceptance (`nvmCheck`); it is queued. -/
def execNvmProgram (t : Ticket) (s : State) : Host.Outcome State Fault Refusal :=
  ok <| s.onTurn t.val [0x31] fun c =>
    let (l, w, n) := nvmRange c.entry
    if !Entry.paramsOk c.entry then s.endCmd t.val St.badParam 0 0
    else
      match c.input 3 (256 * n) with
      | .error e => s.endCmd t.val e 0 0
      | .ok p => s.queueCmd t.val [((Entry.handle c.entry).toNat, .program l w n (.mem p c.fn))] {}

/-- NVM_ERASE (R92, R97): checks 2 to 4 of Table 4-1 were made at its acceptance (`nvmCheck`); it is queued. -/
def execNvmErase (t : Ticket) (s : State) : Host.Outcome State Fault Refusal :=
  ok <| s.onTurn t.val [0x32] fun c =>
    if !Entry.paramsOk c.entry then s.endCmd t.val St.badParam 0 0
    else s.queueCmd t.val [((Entry.handle c.entry).toNat, .erase (Entry.dw c.entry 2).toNat)] {}

/-- NVM_SCRUB_BLOCK: relocate one logical block, scrub-due or not (R437). -/
def execNvmScrubBlock (t : Ticket) (s : State) : Host.Outcome State Fault Refusal :=
  ok <| s.onTurn t.val [0x34] fun c =>
    let b := (Entry.handle c.entry).toNat
    let l := bitsOf (Entry.dw c.entry 2) 6 0
    if bitOf (Entry.dw c.entry 2) 7 then s
    else if !Entry.paramsOk c.entry then s.endCmd t.val St.badParam 0 0
    else s.queueCmd t.val [(b, .relocate l)] {}

/-- The scrub-due logical blocks of a bank, ascending. -/
def Nvm.dueBlocks (v : Nvm) (b : Nat) : List Nat :=
  (List.range (nvmLogical b)).filter fun l => (v.block b (v.physOf b l)).due

/-- NVM_SCRUB_DUE: relocate every scrub-due block of the bank (R437). -/
def execNvmScrubDue (t : Ticket) (s : State) : Host.Outcome State Fault Refusal :=
  ok <| s.onTurn t.val [0x34] fun c =>
    let b := (Entry.handle c.entry).toNat
    if !bitOf (Entry.dw c.entry 2) 7 then s
    else if !Entry.paramsOk c.entry then s.endCmd t.val St.badParam 0 0
    else
      match s.nvm.dueBlocks b with
      | [] => s.endCmd t.val St.ok 0 0
      | l => s.queueCmd t.val (l.map fun x => (b, .relocate x)) {}

/-! ## The engines' events -/

/-- An operation may start on a bank now: nothing runs on it, no command in flight uses a pattern that reserves it
(R66), and the settings-commit lock does not hold its plane for another (R582). -/
def State.mayStart (s : State) (o : NvmOp) : Bool :=
  !s.nvm.busy o.bank && !s.bankInUse o.bank && (s.fwRuns || decide (o.owner = .restore))
    && (decide (o.bank < 64) || s.nvm.setLock.isNone || (match o.owner with
      | .cmd t => (match s.cmd? t with
        | some c => Entry.opcode c.entry == 0x51
        | none => false)
      | _ => false))

/-- A settings record's first program takes the settings-commit lock (R581). -/
def State.takeLock (s : State) (o : NvmOp) : State :=
  match o.owner, o.act with
  | .cmd t, .program _ _ _ _ =>
    match s.cmd? t with
    | some c =>
      if Entry.opcode c.entry = 0x51 ∧ o.bank = 65 - s.fw.running ∧ s.nvm.busy o.bank then
        { s with nvm := { s.nvm with setLock := some 262144 } }
      else s
    | none => s
  | _, _ => s

/-- NVM_OP_START (R90, R92, R93, R100). -/
def execNvmOpStart (bank : Fin 66) (view : HostView) (s : State) : Host.Outcome State Fault Refusal :=
  match s.nvm.nextOp bank.val with
  | none => ok s
  | some o => if s.mayStart o then ok ((s.opStart o view).takeLock o) else ok s

/-- CODE_WORD_PROGRAMMED (R94 to R96, R76, R101). -/
def execCodeWordProgrammed (bank : Fin 66) (view : HostView) (s : State) : Host.Outcome State Fault Refusal :=
  match s.nvm.running bank.val, s.unitEnds bank.val with
  | some o, some a =>
    match o.act with
    | .program l first n src =>
      if o.staged.isEmpty then (match o.stop with
        | some st => ok (s.opEnd o st 0)
        | none => ok (s.stageWord view o src))
      else ok (a.programmed o l first n src view)
    | .relocate l => if o.erasing then ok s else ok (a.copied o l)
    | .erase _ => ok s
    | .erasePhys _ => ok s
  | _, _ => ok s

/-- ERASE_PULSE_DONE (R97 to R99, R101): `passed` is what the check of the block finds. -/
def execErasePulseDone (bank : Fin 66) (passed : Bool) (s : State) : Host.Outcome State Fault Refusal :=
  match s.nvm.running bank.val, s.unitEnds bank.val with
  | some o, some a =>
    match s.nvm.eraseTarget o with
    | none => ok s
    | some p => ok (a.pulse o p passed)
  | _, _ => ok s

/-! ## VPP_NVM (R90, R91, R560) -/

/-- Queue the programs of the marks that waited for VPP_NVM (R560). -/
def State.dueMarks (s : State) : State :=
  s.fw.marksDue.foldl (fun (t : State) m => t.fwMark m.1 m.2) { s with fw := { s.fw with marksDue := [] } }

/-- VPP_OK_SET: VPP_NVM has stayed at or above 2.40 V for 100 µs. -/
def execVppOkSet (s : State) : Host.Outcome State Fault Refusal :=
  if s.life.phase = .por ∨ s.nvm.vppOk then ok s
  else
    let a := { s with nvm := { s.nvm with vppOk := true } }
    ok ((if a.fwRuns then a.dueMarks else a).retarget)

/-- One operation ends at a collapse of VPP_NVM (R91). -/
def State.vppCut (s : State) (o : NvmOp) : State :=
  let a := s.cutOp o
  let b := match a.nvm.eraseTarget o with
    | some p => a.staleIfFree o.bank p
    | none => a
  b.vppEnd o

/-- VPP_LOSS: VPP_NVM falls below 2.30 V. -/
def execVppLoss (s : State) : Host.Outcome State Fault Refusal :=
  let a := (s.nvm.ops.filter fun o => o.running).foldl State.vppCut s
  ok ({ a with nvm := { a.nvm with vppOk := false } }).retarget

/-! ## Patrol, relocation, stale blocks, wear (R73, R75, R77 to R79) -/

/-- What automatic operations of a bank wait for (R77, R102, R582). -/
def State.autoFree (s : State) (b : Nat) : Bool :=
  s.fwRuns && s.nvm.vppOk && !s.bankReserved b && !s.nvm.hostOp b && !s.nvm.busy b
    && (decide (b < 64) || s.nvm.setLock.isNone)

/-- PATROL_READ: a logical row is read, and each of its code words meets its ECC outcome (R75, R102). -/
def execPatrolRead (bank : Fin 66) (row : BitVec 13) (s : State) : Host.Outcome State Fault Refusal :=
  let b := bank.val
  let r := row.toNat
  if !s.fwRuns || s.nvm.hostOp b || s.nvm.busy b || decide (s.bankState b = 0) || decide (nvmLogical b * 64 ≤ r) then ok s
  else
    ok ((List.range 16).foldl (fun (t : State) i => (t.readWord b (r / 64) (r % 64 * 16 + i)).1) (s.scanRow b r))

/-- Start an automatic operation on a bank at once. -/
def State.startAuto (s : State) (b : Nat) (a : NvmAct) (w : NvmOwner) : State :=
  let o : NvmOp := { bank := b, act := a, owner := w }
  ((s.queueOp o).opStart o []).refreshDoms s

/-- AUTO_RELOCATION_START: the lowest scrub-due block of a bank (R77), into an erased spare. -/
def execAutoRelocationStart (bank : Fin 66) (s : State) : Host.Outcome State Fault Refusal :=
  let b := bank.val
  match s.nvm.dueBlocks b, (s.nvm.erasedSpares b).head? with
  | l :: _, some _ => if s.autoFree b && s.nvm.autoEn then ok (s.startAuto b (.relocate l) .auto) else ok s
  | _, _ => ok s

/-- The lowest block of a bank that waits for an erase. -/
def Nvm.staleBlock (v : Nvm) (b : Nat) : Option Nat := lowest (fun p => (v.block b p).stale) (nvmPhys b)

/-- Erase the lowest block of a bank that waits for it (R78, R79). -/
def State.staleErase (s : State) (b : Nat) : State :=
  match s.nvm.staleBlock b with
  | none => s
  | some p => if s.autoFree b then s.startAuto b (.erasePhys p) .stale else s

/-- SPARE_ERASE (R78). -/
def execSpareErase (bank : Fin 66) (s : State) : Host.Outcome State Fault Refusal := ok (s.staleErase bank.val)

/-- STALE_BLOCK_ERASE (R79). -/
def execStaleBlockErase (bank : Fin 66) (s : State) : Host.Outcome State Fault Refusal := ok (s.staleErase bank.val)

/-- WEAR_CHECKPOINT (R73): its programs are queued; it waits while VPP_NVM is absent. At RL3, with RL4 next, it belongs to that
entry (R497); at any other rest level it wakes the device (Table 18-3). -/
def execWearCheckpoint (s : State) : Host.Outcome State Fault Refusal :=
  if !(s.fwRuns && s.nvm.vppOk) then ok s
  else if s.power.level = 0 ∨ (s.power.level = 3 ∧ s.mayRest) then ok s.queueWear
  else ok (s.wake 3).queueWear

end Sys2Proof.Machine
end

