-- ==== Sys2Proof/Machine/DirOps.lean ====
section
/-!
DEFINITION. Installed patterns (R221 to R229): the entries of a slot, placement maps, and where the items of an extent lie.
-/

namespace Sys2Proof.Machine

open LayerRec PieceRec

/-! ## The entries of a slot (Table 8-10) -/

namespace Pattern
/-- DYN entry `d`. -/
def dyn (b : Bytes) (d : Nat) : DynRec := (b.drop (640 + 32 * d)).take 32
/-- PIECE entry `p`. -/
def piece (b : Bytes) (p : Nat) : PieceRec := (b.drop (768 + 64 * p)).take 64
/-- Every PIECE entry, in order. -/
def pieces (b : Bytes) : List PieceRec := (List.range (pieceCount b)).map (piece b)
/-- The cores that any piece names, in every variant (R455). -/
def cores (b : Bytes) : List Nat := (List.range 64).filter fun n => (pieces b).any fun p => (PieceRec.cores p).contains n
/-- The index of the CHIPS dimension, if there is one. -/
def chipsDim (b : Bytes) : Option Nat := (List.range (dynCount b)).find? fun d => (dyn b d).isChips
end Pattern

/-! ## Extents (R223) -/

/-- Bytes of a piece's control section: records, nest records, tables, each from a multiple of 256 bytes. -/
def controlBytes (p : PieceRec) : Nat := roundUp (128 * nLayers p) 256 + roundUp (32 * nNest p) 256 + tableLen p

/-- The stripe of piece `i` in a bank's extent: its byte offset. -/
def stripeAt (ps : List PieceRec) (bank i : Nat) : Nat :=
  ((ps.take i).map fun p => if (PieceRec.cores p).contains bank then stripeLen p else 0).sum

/-- The control section of piece `i` in its origin's extent: its byte offset. -/
def controlAt (ps : List PieceRec) (bank i : Nat) : Nat :=
  stripeAt ps bank ps.length + ((ps.take i).map fun p => if origin p = bank then controlBytes p else 0).sum

/-- Data bytes of a bank's extent. -/
def extentBytes (ps : List PieceRec) (bank : Nat) : Nat := controlAt ps bank ps.length

/-- Logical blocks of an extent of `n` data bytes, its tag included. -/
def extentBlocks (n : Nat) : Nat := ceilDiv (n / 256 + 1) 1024

/-- The blocks of a bank that installed patterns use. -/
def usedBlocks (l : List (Nat × Bytes)) (bank : Nat) : List Nat :=
  l.flatMap fun p => (List.range (Pattern.blocks p.2 bank)).map fun i => Pattern.first p.2 bank + i

/-- The lowest free run of `n` logical blocks of a weight bank (R223). -/
def freeRun (used : List Nat) (n : Nat) : Option Nat :=
  (List.range 126).find? fun a => decide (a + n ≤ 126) && (List.range n).all fun i => !used.contains (a + i)

/-- A byte range of an extent, as stored. -/
def State.extentRange (s : State) (pat : Bytes) (bank o len : Nat) : Bytes :=
  s.nvm.logicalBytes bank (262144 * Pattern.first pat bank + o) len

/-- An extent's tag word: block and word in the bank. -/
def Pattern.tagAt (pat : Bytes) (bank : Nat) : Nat × Nat := wordAt (Pattern.first pat bank) 0 (Pattern.words pat bank)

/-- The layer records, nest records and tables of piece `i`: their byte offsets in its origin's extent. -/
def layerAt (ps : List PieceRec) (i layer : Nat) : Nat := controlAt ps (origin (ps.getD i [])) i + 128 * layer
/-- Nest records. -/
def nestAt (ps : List PieceRec) (i n : Nat) : Nat :=
  let p := ps.getD i []
  controlAt ps (origin p) i + roundUp (128 * nLayers p) 256 + 32 * n
/-- Tables. -/
def tablesAt (ps : List PieceRec) (i o : Nat) : Nat :=
  let p := ps.getD i []
  controlAt ps (origin p) i + roundUp (128 * nLayers p) 256 + roundUp (32 * nNest p) 256 + o

end Sys2Proof.Machine
end

