-- ==== Sys2Proof/Machine/Package.lean ====
section
/-!
DEFINITION. The checks that PATTERN_INSTALL makes of a package (R208 to R217, R224, Table 8-8 checks 2 to 6) and the
zero-point corrections that it computes (R136).
-/

namespace Sys2Proof.Machine

open LayerRec PieceRec

/-! ## Check 2: header and sections (R208, R209) -/

/-- Field `i` (0 type, 1 offset, 2 length, 3 CRC) of section-table entry `n`. -/
def secField (p : Bytes) (n i : Nat) : Nat := leAt p (0x40 + 16 * n + 4 * i) 4

/-- The section of a type: offset and length; (0, 0) where there is none. -/
def sectAt (p : Bytes) (type : Nat) : Nat × Nat :=
  match (List.range 8).find? fun n => secField p n 0 == type with
  | some n => (secField p n 1, secField p n 2)
  | none => (0, 0)

/-- The bytes of a section. -/
def sectionBytes (p : Bytes) (type : Nat) : Bytes := (p.drop (sectAt p type).1).take (sectAt p type).2

/-- How many entries have a type. -/
def typeCount (p : Bytes) (type : Nat) : Nat := ((List.range 8).filter fun n => secField p n 0 == type).length

/-- The header's own fields (Table 8-1); what its reserved fields hold is ignored (R5). -/
def headerOk (p : Bytes) : Bool :=
  leAt p 0 4 == 0x5441504B && leAt p 4 2 == 0x0100 && leAt p 16 4 == p.length
    && p.length % 64 == 0 && decide (1 ≤ leAt p 20 2) && decide (leAt p 20 2 ≤ 64) && decide (1 ≤ leAt p 22 1)
    && decide (leAt p 22 1 ≤ 8) && decide (leAt p 23 1 ≤ 4)
    && leAt p 60 4 == (crc32 (p.take 60)).toNat

/-- One section-table entry (R208, R209). -/
def entryOk (p : Bytes) (n : Nat) : Bool :=
  let o := secField p n 1
  let l := secField p n 2
  if secField p n 0 = 0 then o == 0 && l == 0 && secField p n 3 == 0
  else
    decide (secField p n 0 ≤ 6) && o % 64 == 0 && decide (0xC0 ≤ o) && decide (o + l ≤ p.length)
      && secField p n 3 == (if l = 0 then 0 else (crc32 ((p.drop o).take l)).toNat)
      && (List.range 8).all fun m =>
        m == n || secField p m 0 == 0 || decide (secField p m 1 + secField p m 2 ≤ o) || decide (o + l ≤ secField p m 1)

/-- The section table (R209), with the lengths that the header's counts give. -/
def sectionsOk (p : Bytes) : Bool :=
  (List.range 8).all (entryOk p) && typeCount p 1 == 1 && typeCount p 2 == 1 && typeCount p 3 == 1
    && decide (typeCount p 4 ≤ 1) && decide (typeCount p 5 ≤ 1) && decide (typeCount p 6 ≤ 1)
    && (sectAt p 1).2 == 32 * Pattern.dynCount p && (sectAt p 2).2 == 64 * Pattern.pieceCount p
    && (sectAt p 3).2 % 128 == 0 && (sectAt p 4).2 % 32 == 0

/-- Check 2 of Table 8-8. -/
def check2 (p : Bytes) : Bool := headerOk p && sectionsOk p

/-! ## The tables of a package -/

/-- DYN entry `d`. -/
def pkgDyn (p : Bytes) (d : Nat) : DynRec := ((sectionBytes p 1).drop (32 * d)).take 32

/-- The DYN entries. -/
def pkgDyns (p : Bytes) : List DynRec := (List.range (Pattern.dynCount p)).map (pkgDyn p)

/-- The PIECE entries. -/
def pkgPieces (p : Bytes) : List PieceRec :=
  (List.range (Pattern.pieceCount p)).map fun i => ((sectionBytes p 2).drop (64 * i)).take 64

/-- The number of layer records. -/
def pkgLayerCount (p : Bytes) : Nat := (sectAt p 3).2 / 128

/-- Layer record `i` of the LAYER section. -/
def pkgLayer (p : Bytes) (i : Nat) : LayerRec := ((sectionBytes p 3).drop (128 * i)).take 128

/-- Nest record `i` of the NEST section. -/
def pkgNest (p : Bytes) (i : Nat) : NestRec := ((sectionBytes p 4).drop (32 * i)).take 32

/-- The records of a piece. -/
def pieceLayers (p : Bytes) (x : PieceRec) : List LayerRec := (List.range (nLayers x)).map fun i => pkgLayer p (layerIdx x + i)

/-! ## Check 3: dimensions and keys (R210, R211, Table 8-2) -/

/-- One DYN entry (Table 8-2). -/
def dynOk (d : DynRec) : Bool :=
  let m := DynRec.mode d
  let n := DynRec.nBuckets d
  let l := (List.range 8).map (DynRec.bucket d)
  leAt d 2 2 == 0 && leAt d 24 8 == 0
    && (if m = 1 then n == 0 && decide (1 ≤ DynRec.maxLen d) && decide (DynRec.maxLen d ≤ 65536) && l.all (· == 0)
        else
          (m == 0 || m == 2) && decide (1 ≤ n) && decide (n ≤ 8) && DynRec.maxLen d == 0
            && (List.range 8).all fun i =>
              if i < n then
                decide (1 ≤ DynRec.bucket d i) && (i == 0 || decide (DynRec.bucket d (i - 1) < DynRec.bucket d i))
                  && (m == 0 || decide (DynRec.bucket d i ≤ 4))
              else DynRec.bucket d i == 0)

/-- A nibble of a key obeys R211. -/
def nibbleOk (ds : List DynRec) (key d : Nat) : Bool :=
  let n := key / 16 ^ d % 16
  n == 15 || (match ds[d]? with
    | none => false
    | some x => !x.isSkip && decide (n < x.nBuckets))

/-- Every combination of bucket indices; none for a SKIP dimension. -/
def combos : List DynRec → List (List (Option Nat))
  | [] => [[]]
  | d :: t =>
    let rest := combos t
    if d.isSkip then rest.map fun l => none :: l
    else (List.range d.nBuckets).flatMap fun i => rest.map fun l => some i :: l

/-- The pieces of a stage that a combination selects, by index. -/
def selected (ps : List PieceRec) (combo : List (Option Nat)) (st : Nat) : List Nat :=
  (List.range ps.length).filter fun i =>
    let x := ps.getD i []
    stage x == st && keyMatches (key x) combo

/-- Check 3 of Table 8-8. -/
def check3 (p : Bytes) : Bool :=
  let ds := pkgDyns p
  let ps := pkgPieces p
  ds.all dynOk && decide ((ds.filter fun d => d.isChips).length ≤ 1)
    && ps.all (fun x => (List.range 4).all fun d => nibbleOk ds (key x) d)
    && (combos ds).all fun c => (List.range (Pattern.stageCount p)).all fun st => (selected ps c st).length == 1

/-! ## Check 4: pieces (R182, R212) -/

/-- One PIECE entry with its records. -/
def pieceOk (p : Bytes) (x : PieceRec) : Bool :=
  inGrid x && decide (stage x < Pattern.stageCount p) && decide (1 ≤ nLayers x) && decide (nLayers x ≤ 4096)
    && stripeLen x % 256 == 0 && tableLen x % 256 == 0
    && decide (layerIdx x + nLayers x ≤ pkgLayerCount p)
    && decide ((nestIdx x + nNest x) * 32 ≤ (sectAt p 4).2)
    && decide (stripeOff x + gh x * gw x * stripeLen x ≤ (sectAt p 6).2)
    && decide (tableOff x + tableLen x ≤ (sectAt p 5).2)
    && (List.range (nLayers x)).all (fun i => LayerRec.last (pkgLayer p (layerIdx x + i)) == (i + 1 == nLayers x))
    && ((pieceLayers p x).any (fun r => modeN r) || (nNest x == 0 && nestIdx x == 0))

/-- The pieces that one variant selects have disjoint groups (R212). -/
def variantDisjoint (ps : List PieceRec) (c : List (Option Nat)) (stages : Nat) : Bool :=
  let l := ((List.range stages).flatMap fun st => (selected ps c st).take 1).flatMap fun i => PieceRec.cores (ps.getD i [])
  (List.range 64).all fun n => decide ((l.filter fun m => m == n).length ≤ 1)

/-- Check 4 of Table 8-8. -/
def check4 (p : Bytes) : Bool :=
  (pkgPieces p).all (pieceOk p) && (combos (pkgDyns p)).all fun c => variantDisjoint (pkgPieces p) c (Pattern.stageCount p)

/-! ## Check 5: layer records -/

/-- A buffer reference is not a reserved value (R215). -/
def bufRefOk (b : Nat) : Bool := decide (b ≤ 0x12) || b == 0xFF

/-- Operator kinds (Table 8-5). -/
def opKindOk (k : Nat) : Bool := decide (k ≤ 1) || (decide (0x10 ≤ k) && decide (k ≤ 0x17))

/-- Formats in their roles and pairs (R117, R118, R141). -/
def formatsOk (r : LayerRec) : Bool :=
  decide (4 ≤ inFmt r) && decide (inFmt r ≤ 11) && decide (4 ≤ outFmt r) && decide (outFmt r ≤ 11)
    && decide (4 ≤ actFmt r) && decide (actFmt r ≤ 11)
    && (if isArray r then
          decide (cpbOf (wFmt r) (actFmt r) ≠ 0) && (opKind r == 0 || decide (4 ≤ wFmt r))
        else wFmt r == 0)

/-- Tile fields (Table 7-3). -/
def tileOk (r : LayerRec) : Bool :=
  decide (1 ≤ tileH r) && decide (tileH r ≤ 4096) && decide (1 ≤ tileW r) && decide (tileW r ≤ 4096)
    && decide (tileH r * tileW r ≤ 4096) && decide (1 ≤ kTile r) && decide (kTile r ≤ 512) && decide (1 ≤ cTile r)
    && decide (cTile r ≤ 2048) && decide (1 ≤ winH r) && decide (1 ≤ winW r) && decide (padTop r ≤ 6)
    && decide (padLeft r ≤ 6)

/-- The rotor's conditions (R143, R144); they bind a vector operator's record too, in which the rotor does nothing. -/
def rotorOk (r : LayerRec) : Bool :=
  rotBlock r == 0 || (decide (rotBlock r ≤ 4) && decide (actFmt r ≤ 8) && inC r % (16 * 2 ^ rotBlock r) == 0)

/-- The bytes that a tensor of rows spans in its buffer (R158, R668). -/
def tensorSpan (h w c e pitch : Nat) : Nat := (h - 1) * pitch + w * c * e

/-- A positive finite FP32 value. -/
def f32Pos (w : F32) : Bool :=
  match f32v w with
  | .num false m _ => m != 0
  | _ => false

/-- The input and output regions overlap where install can tell (R158). -/
def overlaps (r : LayerRec) : Bool :=
  srcBuf r == dstBuf r && decide (srcBuf r ≤ 0x10)
    && decide (srcOff r < dstOff r + tensorSpan (outH r) (outW r) (outC r) (fmtBytes (outFmt r)) (dstPitch r))
    && decide (dstOff r < srcOff r + tensorSpan (inH r) (inW r) (inC r) (fmtBytes (inFmt r)) (srcPitch r))

/-- WIDEN is legal (R158). -/
def widenOk (r : LayerRec) : Bool :=
  !widen r || (isArray r && decide (wFmt r ≤ 4) && actFmt r != 6 && !overlaps r && f32Pos (wideRatio r) && f32Pos (wideRecip r))

/-- Loop orders (R188, R216). -/
def ordersOk (r : LayerRec) : Bool :=
  decide (loLp r ≤ 5) && decide (loSac r ≤ 5) && decide (loCore r ≤ 5) && loMac r == 0
    && (modeN r || (loLp r == 0 && loSac r == 0 && nestOff r == 0))
    && (if isArray r then
          (decide (inC r ≤ cTile r) || loCore r == 2 || loCore r == 3) && (wGran r == 0 || decide (inC r ≤ cTile r))
        else loLp r == 0 && loSac r == 0 && loCore r == 0)

/-- Gather layers (R202, R214, Table 8-8 check 5). -/
def gatherOk (r : LayerRec) : Bool :=
  !gather r || (winH r == 1 && winW r == 1 && strideH r == 1 && strideW r == 1 && opKind r != 1 && opKind r != 0x15
    && inW r == 1 && outH r == 1)

/-- Reserved fields of the record and of its dynamic dimension (R210, R670). -/
def reservedOk (ds : List DynRec) (r : LayerRec) : Bool :=
  opKindOk (opKind r) && recBits r 4 31 22 == 0 && recBits r 12 31 30 == 0 && recBits r 16 15 6 == 0
    && leAt r 0x3F 1 == 0 && bufRefOk (srcBuf r) && bufRefOk (dstBuf r) && bufRefOk (auxBuf r)
    && (segOp r == 0 || (opKind r == 0x15 && decide (segOp r ≤ 2)))
    && (dynAxis r != 3 || gather r) && (dynAxis r != 2 || opKind r == 1)
    && (!dynEn r || (match ds[dynDim r]? with
      | none => false
      | some d => !d.isChips))

/-- One layer record (check 5 of Table 8-8). -/
def recordOk (ds : List DynRec) (r : LayerRec) : Bool :=
  reservedOk ds r && formatsOk r && tileOk r && rotorOk r && widenOk r && ordersOk r && gatherOk r

/-- A nest record obeys R217: each level is at most the level above, and the core-store tile at most the SAC tile. -/
def nestOk (r : LayerRec) (n : NestRec) : Bool :=
  (List.range 4).all (fun i => decide (nestDim n 1 i ≤ nestDim n 0 i))
    && decide (tileH r ≤ nestDim n 1 0) && decide (tileW r ≤ nestDim n 1 1)
    && (!isArray r || decide (kTile r ≤ nestDim n 1 2)) && decide (cTile r ≤ nestDim n 1 3)

/-- A piece's records have one tiling mode (R188), and its mode-N records a good nest record (R217). -/
def pieceRecordsOk (p : Bytes) (x : PieceRec) : Bool :=
  let l := pieceLayers p x
  (l.all (fun r => modeN r) && l.all fun r => decide (nestOff r < nNest x) && nestOk r (pkgNest p (nestIdx x + nestOff r)))
    || l.all fun r => !modeN r

/-- Check 5 of Table 8-8. -/
def check5 (p : Bytes) : Bool :=
  (List.range (pkgLayerCount p)).all (fun i => recordOk (pkgDyns p) (pkgLayer p i)) && (pkgPieces p).all (pieceRecordsOk p)

/-! ## Check 6: ranges, grids, parameter blocks -/

/-- A user grid holds only finite entries of magnitude at most 1.0 (R124). -/
def gridOk (r : LayerRec) (tab : Bytes) : Bool :=
  !userGrid r || decide (2 < wFmt r) || !isArray r ||
    (List.range (2 ^ fmtBits (wFmt r))).all fun i =>
      match fmtFp16.decode (leAt tab (2 * i) 2) with
      | .num _ m e => !(Fp.lt (.num false 1 0) (.num false m e))
      | _ => false

/-- A vector parameter block obeys R670. -/
def vecBlockOk (r : LayerRec) (b : Bytes) : Bool :=
  let k := opKind r
  let fn := leAt b 0 1
  let var := leAt b 1 1
  isArray r || (leAt b 2 2 == 0 && leAt b 24 8 == 0
    && (if k = 0x12 then decide (fn ≤ 5) else fn == 0)
    && (if k = 0x13 ∨ k = 0x14 then decide (var ≤ 1) else if k = 0x17 then decide (2 ≤ var) && decide (var ≤ 4) else var == 0)
    && (k == 0x13 || leAt b 4 4 == 0) && ((k == 0x12 && fn == 5) || leAt b 8 8 == 0))

/-- One referenced record of a piece (check 6). -/
def tableOk (p : Bytes) (x : PieceRec) (r : LayerRec) : Bool :=
  let tab := ((sectionBytes p 5).drop (tableOff x + tabOff r)).take (tableBytes r)
  decide (tabOff r + tableBytes r ≤ tableLen x) && gridOk r tab && vecBlockOk r (tab.drop (requantOff r))
    && (opKind r != 0 || (List.range (gw x)).all fun j =>
      decide (wOff r + stripeUse r (pkgNest p (nestIdx x + nestOff r)) (gh x) j ≤ stripeLen x))

/-- Check 6 of Table 8-8. -/
def check6 (p : Bytes) : Bool := (pkgPieces p).all fun x => (pieceLayers p x).all (tableOk p x)

/-! ## Zero-point corrections (R136) -/

/-- Byte `o` of the stripe of core (`i`, `j`). -/
def pkgStripeByte (p : Bytes) (x : PieceRec) (i j o : Nat) : Byte :=
  (p.drop ((sectAt p 6).1 + stripeOff x + (i * gw x + j) * stripeLen x + o)).headD 0

/-- A byte of a weight tile's image, from its shares (R219). -/
def pkgImageByte (p : Bytes) (x : PieceRec) (r : LayerRec) (nest : NestRec) (j : Nat) (b : Box) (o : Nat) : Byte :=
  let sh := shareBytes (b.imageBytes r) (gh x)
  pkgStripeByte p x (o / sh) j (shareOff r (gh x) (weightTiles r nest j) b + o % sh)

/-- The weight code of output channel `k`, tap and input channel `c` of a layer. -/
def pkgCode (p : Bytes) (x : PieceRec) (r : LayerRec) (nest : NestRec) (k tap c : Nat) : Nat :=
  let j := k / blkK r
  match (weightTiles r nest j).find? fun b => decide (b.k0 ≤ k) && decide (k < b.k0 + b.kn) && decide (b.c0 ≤ c)
      && decide (c < b.c0 + b.cn) with
  | none => 0
  | some b =>
    let cpb := cpbOf (wFmt r) (actFmt r)
    let o := imageOff r b (k - b.k0) tap ((c - b.c0) / cpb)
    unpackCode (fmtBits (wFmt r)) ((List.range (blockCodes r)).map fun q => pkgImageByte p x r nest j b (o + q))
      ((c - b.c0) % cpb)

/-- The sum of the LUT entries of a run of input channels at one tap. -/
def lutSum (p : Bytes) (x : PieceRec) (r : LayerRec) (nest : NestRec) (tab : Bytes) (k tap c0 n : Nat) : Int :=
  ((List.range n).map fun i => lutValue (wFmt r) (userTable r tab) (pkgCode p x r nest k tap (c0 + i))).sum

/-- The correction of a channel (R136): eight bytes. The second operand of MATMUL_AA is not known at the install: its layers keep
zero there (log entry 141). -/
def correction (p : Bytes) (x : PieceRec) (r : LayerRec) (nest : NestRec) (tab : Bytes) (k : Nat) : Bytes :=
  if actFmt r ≠ 5 ∨ opKind r ≠ 0 then zeroBytes 8
  else if wGran r = 0 then
    let sum := ((List.range (taps r)).map fun tap => lutSum p x r nest tab k tap 0 (inC r)).sum
    leBytes 8 (rawInt 64 ((zA r : Int) * sum))
  else
    let steps := (List.range (taps r)).flatMap fun tap => (List.range (groups r)).map fun g => (tap, g)
    let f := steps.foldl (fun (acc : F32) (q : Nat × Nat) =>
      let c0 := q.2 * group r
      let sum := lutSum p x r nest tab k q.1 c0 (min (group r) (inC r - c0))
      let sc := fmtFp16.decode (leAt tab (scaleOff r + 2 * ((k * taps r + q.1) * groups r + q.2)) 2)
      rne32 ((f32v acc).add (sc.mul (Fp.ofInt ((zA r : Int) * sum))))) 0
    leBytes 4 f.toNat ++ zeroBytes 4

/-- A piece's tables with one layer's corrections in place. -/
def completeLayer (p : Bytes) (x : PieceRec) (tabs : Bytes) (r : LayerRec) : Bytes :=
  if !isArray r then tabs
  else
    let nest := pkgNest p (nestIdx x + nestOff r)
    let tab := (tabs.drop (tabOff r)).take (tableBytes r)
    (List.range (outC r)).foldl (fun (b : Bytes) k =>
      spliceBytes b (tabOff r + requantOff r + 16 * k + 8) (correction p x r nest tab k)) tabs

/-- The completed tables of a piece (R220). -/
def completeTables (p : Bytes) (x : PieceRec) : Bytes :=
  (pieceLayers p x).foldl (completeLayer p x) (((sectionBytes p 5).drop (tableOff x)).take (tableLen x))

end Sys2Proof.Machine
end

