-- ==== Sys2Proof/Machine/Aperture.lean ====
section
/-!
DEFINITION. BAR 2, the movable aperture, and the device address map behind it (R81, R82, R291, R299 to R304, R316, R317).
-/

namespace Sys2Proof.Machine

/-! ## The device address map (Table 11-1, Table 3-9, R303) -/

/-- Where a device address lies. -/
inductive Region where
  | lp5x
  /-- A bank or plane and the offset in its range. -/
  | nvm (bank off : Nat)
  /-- A SAC way and its byte. -/
  | sac (way off : Nat)
  /-- A core and the byte of its core store. -/
  | core (core off : Nat)
  | unmapped
  deriving DecidableEq, Repr

/-- The region of a device address. -/
def State.region (s : State) (a : Nat) : Region :=
  if a < s.lpTop then .lp5x
  else if 0x1000000000 ≤ a ∧ a < 0x1080000000 then .nvm ((a - 0x1000000000) / 0x2000000) (a % 0x2000000)
  else if 0x1080000000 ≤ a ∧ a < 0x1082000000 then .nvm (64 + (a - 0x1080000000) / 0x1000000) (a % 0x1000000)
  else if 0x2000000000 ≤ a ∧ a < 0x2002000000 then .sac ((a - 0x2000000000) / 0x200000) (a % 0x200000)
  else if 0x3000000000 ≤ a ∧ a < 0x3004000000 then .core ((a - 0x3000000000) / 0x100000) (a % 0x100000)
  else .unmapped

/-- A core is allocated to the PF (R304). -/
def State.coreOfPf (s : State) (n : Nat) : Bool :=
  s.binds.any fun p => decide (p.1 < 64) && p.2.live && p.2.cores.contains n

/-- A SAC way is allocated to the PF (R304). -/
def State.wayOfPf (s : State) (v : Nat) : Bool := decide ((Table.get {} s.tenants.ways v).owner = some 0)

/-- Set `APT_STAT.unmapped` or `APT_STAT.denied`. -/
def State.aptUnmapped (s : State) : State := { s with addr := { s.addr with unmapped := true } }
/-- Set `APT_STAT.denied`. -/
def State.aptDenied (s : State) : State := { s with addr := { s.addr with denied := true } }

/-- A piece of a device read: its bytes, each with whether its line is poisoned. -/
abbrev Marked := List (Byte × Bool)

/-- Bytes that no poison reaches. -/
def clean (b : Bytes) : Marked := b.map fun x => (x, false)

/-- Status words in place of a busy bank's data, by byte offset (R65, R82). -/
def statusBytes (word off n : Nat) : Bytes :=
  (List.range n).map fun i => (leBytes 4 word).getD ((off + i) % 4) 0

/-- Read a piece of the NVM aperture inside one code word (R60, R69, R81, R82); the last 512 KiB of a range read
zero. -/
def State.nvmPiece (s : State) (b o n : Nat) : State × Marked :=
  if 262144 * nvmLogical b ≤ o then (s, clean (zeroBytes n))
  else
    match s.nvm.running b with
    | some op => (s, clean (statusBytes (s.nvm.statusWord op) o n))
    | none =>
      let l := o / 262144
      let w := o % 262144 / 256
      let r := ((s.pd4Read b).readRow b (l * 64 + w / 16)).readWord b l w
      (r.1, (((r.2.data.drop (o % 256)).take n).map fun x => (x, r.2.uncorr)))

/-- Read a piece of LP5X (R299, R300). -/
def State.lpPiece (s : State) (a n : Nat) : State × Marked :=
  let r := s.lpTouchAll (a / 64) (lineCount a n)
  (r.1.perfAdd 33 (lineCount a n),
    (List.range n).map fun i => (Table.get 0 s.addr.lp5x (a + i), r.2.contains ((a + i) / 64)))

/-- A byte of a cache way, if a line that the way holds has it. -/
def State.cacheWayByte (s : State) (v o : Nat) : Option Byte :=
  (Table.find s.comp.cache (32768 * v + o / 64)).bind fun c => if c.addr % 64 ≤ o % 64 then c.data[o % 64 - c.addr % 64]? else none

/-- The bytes of a SAC way from an offset on: a scratch way's, or the lines that a cache way holds; what a cache way reads as where
it holds no line is free (R304, log entry 39). -/
def State.wayBytes (s : State) (v o n : Nat) : State × Bytes :=
  if (Table.get {} s.tenants.ways v).owner.isNone ∨ (Table.get {} s.tenants.ways v).scratch then
    (s, readBytes 0 s.addr.sac (2097152 * v + o) n)
  else (s.tick, (List.range n).map fun i => (s.cacheWayByte v (o + i)).getD (Config.freeByte s.fresh i))

/-- Read a piece of the SAC view. -/
def State.sacPiece (s : State) (v o n : Nat) : State × Marked := ((s.wayBytes v o n).1, clean (s.wayBytes v o n).2)

/-- Read a piece of the device address map that lies inside one 256-byte unit, as BAR 2 does. -/
def State.devPiece (s : State) (a n : Nat) : State × Marked :=
  match s.region a with
  | .lp5x => s.lpPiece a n
  | .nvm b o => s.nvmPiece b o n
  | .sac v o => if s.wayOfPf v then s.sacPiece v o n else (s.aptDenied, clean (List.replicate n 0xFF))
  | .core c o =>
    if s.coreOfPf c then (s, clean (readBytes 0 s.addr.cores (1048576 * c + o) n))
    else (s.aptDenied, clean (List.replicate n 0xFF))
  | .unmapped => (s.aptUnmapped, clean (List.replicate n 0xFF))

/-- Read the device address map, unit by unit in address order. -/
def State.devRead (s : State) : Nat → Nat → Nat → State × Marked
  | 0, _, _ => (s, [])
  | fuel + 1, a, n =>
    if n = 0 then (s, [])
    else
      let k := min n (256 - a % 256)
      let r := s.devPiece a k
      let q := r.1.devRead fuel (a + k) (n - k)
      (q.1, r.2 ++ q.2)

/-! ## Completions (R317) -/

/-- Cut marked bytes at the Read Completion Boundary. -/
def rcbCut (rcb : Nat) : Nat → Nat → Marked → List Marked
  | 0, _, _ => []
  | fuel + 1, a, b =>
    if b.isEmpty then []
    else
      let k := rcb - a % rcb
      b.take k :: rcbCut rcb fuel (a + k) (b.drop k)

/-- Join neighbouring completions with the same EP bit. -/
def joinParts : List (Bytes × Bool) → List (Bytes × Bool)
  | [] => []
  | p :: t =>
    match joinParts t with
    | [] => [p]
    | q :: u => if p.2 = q.2 then (p.1 ++ q.1, p.2) :: u else p :: q :: u

/-- The completions of a read: split, where needed, at the Read Completion Boundary, with EP on each that carries a
byte of a poisoned line and on no other. -/
def completions (rcb a : Nat) (b : Marked) : List (Bytes × Bool) :=
  joinParts ((rcbCut rcb (b.length + 1) a b).map fun (p : Marked) => (p.map Prod.fst, p.any fun x => x.2))

/-- The Read Completion Boundary in force. -/
def State.rcb (s : State) : Nat := if s.pcie.rcb128 then 128 else 64

/-- The device address of a BAR 2 offset (R316). -/
def State.aptAddr (s : State) (o : Nat) : Nat := 268435456 * s.addr.aptBase.toNat + o

/-- A BAR 2 read (R317, R506): it wakes the device; before the firmware is ready it returns zero (R348). -/
def State.bar2Read (s : State) (o n : Nat) : State :=
  match s.barMode 0 with
  | .unsupported => (s.logUr 0 false).emit (.barCpl true [])
  | .alwaysOn => s.emit (.barCpl false [(zeroBytes n, false)])
  | .normal =>
    let a := s.aptAddr o
    let r := (s.wake 1).devRead (n + 1) a n
    r.1.emit (.barCpl false (completions s.rcb a r.2))

/-- BAR2_READ. -/
def execBar2Read (offset : BitVec 28) (len : Nat) (s : State) : Host.Outcome State Fault Refusal :=
  ok (s.bar2Read offset.toNat len)

/-! ## Writes -/

/-- Write a piece of a SAC scratch way: a line written whole is clean, a part of a poisoned line keeps its tag (R301). -/
def State.sacWrite (s : State) (v o : Nat) (d : Bytes) : State :=
  let k := 2097152 * v + o
  let whole := decide (k % 64 = 0) && decide (d.length = 64)
  { s with addr := { s.addr with
    sac := writeBytes 0 s.addr.sac k d
    sacPoison := if whole then Table.set false s.addr.sacPoison (k / 64) false else s.addr.sacPoison } }

/-- Write a piece inside one 64-byte line of the device address map (R81, R291, R299, R301, R304). -/
def State.devPut (s : State) (a : Nat) (d : Bytes) (free : Bool) : State :=
  match s.region a with
  | .lp5x => s.lpWrite a d false
  | .nvm _ _ => s
  | .sac v o =>
    if !free ∧ !s.wayOfPf v then s.aptDenied
    else if (Table.get {} s.tenants.ways v).scratch then s.sacWrite v o d
    else s
  | .core c o =>
    if !free ∧ !s.coreOfPf c then s.aptDenied
    else { s with addr := { s.addr with cores := writeBytes 0 s.addr.cores (1048576 * c + o) d } }
  | .unmapped => s.aptUnmapped

/-- Write the device address map, line by line in address order; `free` lifts the limits of R304 (R577). -/
def State.devWrite (s : State) (free : Bool) : Nat → Nat → Bytes → State
  | 0, _, _ => s
  | fuel + 1, a, d =>
    if d.isEmpty then s
    else
      let k := 64 - a % 64
      (s.devPut a (d.take k) free).devWrite free fuel (a + k) (d.drop k)

/-- A BAR 2 write (R317). -/
def State.bar2Write (s : State) (o : Nat) (d : Bytes) : State :=
  match s.barMode 0 with
  | .unsupported => s.logUr 0 true
  | .alwaysOn => s
  | .normal => (s.wake 1).devWrite false (d.length + 1) (s.aptAddr o) d

/-- BAR2_WRITE. -/
def execBar2Write (offset : BitVec 28) (data : Bytes) (s : State) : Host.Outcome State Fault Refusal :=
  ok (s.bar2Write offset.toNat data)

end Sys2Proof.Machine
end

