-- ==== Sys2Proof/Machine/Fetch.lean ====
section
/-!
DEFINITION. How a command's data moves (chapters 9 and 10): block lists and descriptor bursts (R233 to R237), block checks
(R238), lines in and out (R265, R266, R270 to R272), buffer references (R215) and the SAC partition (R302).
-/

namespace Sys2Proof.Machine

/-! ## Running commands -/

/-- A running command. -/
def State.run? (s : State) (k : Nat) : Option Run := Table.find s.comp.runs k

/-- Put a running command back. -/
def State.setRun (s : State) (k : Nat) (r : Run) : State :=
  { s with comp := { s.comp with runs := Table.insert s.comp.runs k r } }

/-- Change a running command. -/
def State.updRun (s : State) (k : Nat) (g : Run → Run) : State :=
  match s.run? k with
  | none => s
  | some r => s.setRun k (g r)

/-- A stage of a running command. -/
def Run.stage (r : Run) (n : Nat) : StageSt := Table.get {} r.stages n

/-- Change a stage. -/
def Run.updStage (r : Run) (n : Nat) (g : StageSt → StageSt) : Run := { r with stages := Table.upd {} r.stages n g }

/-- The key of a byte of a buffer's logical space. -/
def lineKey (buf off : Nat) : Nat := 2 ^ 48 * buf + off

/-- A buffer of a command. -/
def Run.buf (r : Run) (b : Nat) : Buf := Table.get {} r.bufs b

/-- Change a buffer. -/
def Run.updBuf (r : Run) (b : Nat) (g : Buf → Buf) : Run := { r with bufs := Table.upd {} r.bufs b g }

/-! ## Block descriptors (R234, R235) -/

/-- A block descriptor from its 32 bytes. -/
def parseBlock (b : Bytes) : Block :=
  let sp := leAt b 20 4 % 4
  let win := leAt b 20 4 / 4 % 16
  let rb := leAt b 8 4
  let rows := leAt b 12 4
  let pitch := leAt b 16 4
  let base := leAt b 0 8
  let good := decide (1 ≤ rb) && decide (rb ≤ 16777216) && decide (1 ≤ rows) && decide (rows ≤ 65536)
    && (rows == 1 || decide (rb ≤ pitch)) && leAt b 20 4 / 64 == 0 && leAt b 24 8 == 0
    && (decide (sp < 2) || win == 0) && (sp != 2 || decide (base < 2 ^ 40))
  { base := base, rowBytes := rb, rows := rows, pitch := pitch, space := sp, win := win, malformed := !good }

/-- The logical bytes of a block (R233). -/
def Block.len (b : Block) : Nat := b.rowBytes * b.rows

/-- The bytes from a block's first to its last (R238). -/
def Block.span (b : Block) : Nat := (b.rows - 1) * b.pitch + b.rowBytes

/-- Where a logical offset lies. -/
inductive Found where
  /-- In a block, at its number, with the logical start of the block. -/
  | at (n : Nat) (b : Block) (start : Nat)
  /-- A descriptor burst is needed to tell. -/
  | need (burst : Nat)
  /-- Beyond the last block. -/
  | past
  deriving DecidableEq, Repr

/-- Find an offset among blocks `n`, `n + 1`, …, the first of which starts at `start`. -/
def findBlock (o : Nat) : Nat → Nat → List Block → Option Found
  | _, _, [] => none
  | n, start, b :: t => if o < start + b.len then some (.at n b start) else findBlock o (n + 1) (start + b.len) t

/-- Where a logical offset of a buffer lies (R233), with the bursts at hand. -/
def Buf.locate (b : Buf) (o : Nat) : Found :=
  let i := ((b.starts.filter fun x => decide (x ≤ o)).length) - 1
  if ceilDiv b.count 8 ≤ i then .past
  else match b.bursts.find? fun x => x.1 == i with
  | none => .need i
  | some (_, l) =>
    match findBlock o (8 * i) (b.starts.getD i 0) l with
    | some f => f
    | none => if b.count ≤ 8 * (i + 1) then .past else .need (i + 1)

/-- A malformed block that holds no byte and that the stream has passed on its way to an offset (R235). -/
def Buf.badBefore (b : Buf) (o : Nat) : Option Nat :=
  (b.bursts.flatMap fun x => (List.range x.2.length).filterMap fun i =>
    let k := x.2.getD i {}
    let start := b.starts.getD x.1 0 + ((x.2.take i).map Block.len).sum
    if k.malformed ∧ k.len = 0 ∧ start ≤ o then some (8 * x.1 + i) else none).head?

/-- Keep a fetched burst: at most two per buffer (R237). -/
def Buf.keep (b : Buf) (i : Nat) (l : List Block) : Buf :=
  let e := b.starts.getD i 0 + (l.map Block.len).sum
  { b with
    bursts := ((i, l) :: b.bursts.filter fun x => x.1 != i).take 2
    starts := if b.starts.length = i + 1 then b.starts ++ [e] else b.starts }

/-- A buffer given whole: a list of blocks that needs no fetch. -/
def Buf.whole (l : List Block) : Buf :=
  { list := none, count := l.length, bursts := [(0, l)], starts := [0] }

/-! ## Failing lines (R265, R270, R274, R275) -/

/-- Kinds of failure, for the status of an abort (R277). -/
inductive FailKind where
  | window | malformed | other
  deriving DecidableEq, Repr

/-- The status of an abort (R277). -/
def FailKind.status : FailKind → BitVec 16
  | .window => St.windowFault
  | .malformed => St.badParam
  | .other => St.hostAbort

/-- Remember the first failing line (R274, R277). -/
def Run.noteFail (r : Run) (l : FailLoc) : Run := { r with fail := some (r.fail.getD l) }

/-- Count lines that came in failing or poisoned, in the stage's present layer run (R166, Table 10-3). -/
def Run.countIn (r : Run) (stage n : Nat) : Run :=
  if r.kind = .copy then { r with inPoison := r.inPoison + n } else r.updStage stage fun x => { x with inCount := x.inCount + n }

/-- Outputs that a column still holds are drained when a command stops (R275 steps 3 and 4); columns in a load phase give
it up. What is drained is decided by the caller. -/
def StageSt.giveUp (x : StageSt) : StageSt :=
  { x with cols := Table.mapVal {} (fun _ (c : ColSt) => if c.phase = .load then { c with phase := .idle } else c) x.cols }

/-- A command meets a failing line in ABORT: it stops (R275). -/
def Run.abortAt (r : Run) (l : FailLoc) (k : FailKind) : Run :=
  match r.stop with
  | some _ => r
  | none =>
    { r with
      fail := some l, stop := some { status := k.status, located := true }
      writes := r.writes }

/-- A failing line in a read: delivered as zeros and poisoned, or the end of the command. `fetched` tells whether a read was
issued for it (R257, R270). -/
def Run.failLine (r : Run) (l : FailLoc) (key len : Nat) (k : FailKind) (fetched : Bool := false) : Run :=
  if r.abort then r.abortAt l k
  else
    let z : Line := { len := len, slot := true, data := some (zeroBytes len), poison := true, fetched := fetched, blk := l.block }
    let x := (r.noteFail l).countIn l.stage 1
    { x with lines := Table.insert x.lines key z }

/-! ## Bursts and checks -/

/-- Where a burst of a block list lies. -/
def burstPlace (p : Place) (i : Nat) : Place := p.plus (256 * i)

/-- The descriptors of a burst that lie in 64-byte lines which failed are zeros, which are malformed (R234, R270): two
descriptors share an aligned line, and a list is aligned to 32 bytes (R236). -/
def burstBlocks (n : Nat) (get : Nat → Option Bytes) : List Block :=
  (List.range n).map fun i => parseBlock ((get i).getD (zeroBytes 32))

/-- The number of lines of a burst that failed, `line` giving the line that a descriptor lies in. -/
def badLines (n : Nat) (line : Nat → Nat) (get : Nat → Option Bytes) : Nat :=
  ((((List.range n).filter fun i => (get i).isNone).map line).eraseDups).length

/-- What a read of a burst gave: its descriptors one by one, none for one in a failing line, and whether the read has to
wait. -/
structure BurstRead where
  get : List (Option Bytes)
  waits : Bool
  deriving DecidableEq, Repr

/-- Read a burst, each descriptor by the fate of its own line: a read request that host memory answers with UR or CA or not at
all fails whole (R266), a poisoned completion or LP5X line only where it lies. -/
def State.readBurst (s : State) (view : HostView) (f : Nat) (p : Place) (n : Nat) : State × BurstRead :=
  match p with
  | .host a _ =>
    let q := s.readPlace view f p (32 * n)
    let whole : Bool := match q.2 with
      | .ok _ => false
      | .error e => e != .ep
    (q.1, { get := (List.range n).map fun i =>
              if whole then none else ((hostBytes view 33 (a + 32 * i) 32).toOption)
            waits := q.1.blocked })
  | .lp5x a =>
    let q := s.lpRead a (32 * n)
    (q.1.stat f 19 (lineCount a (32 * n)),
      { get := (List.range n).map fun i => if q.2.2.contains ((a + 32 * i) / 64) then none else some ((q.2.1.drop (32 * i)).take 32)
        waits := false })
  | .sac _ => (s, { get := [], waits := false })

/-- The memory line of a descriptor of a burst. -/
def Place.lineOf (p : Place) (i : Nat) : Nat :=
  match p with
  | .host a _ => (a + 32 * i) / 64
  | .lp5x a => (a + 32 * i) / 64
  | .sac a => (a + 32 * i) / 64

/-- Fetch a descriptor burst of a buffer (R237). Descriptors of failing lines are zeros, which are malformed; the others are
processed normally (R270). A burst read again is checked again (R238); one whose read cannot be issued is left for later. -/
def State.loadBurst (s : State) (view : HostView) (r : Run) (stage buf i : Nat) : State × Run :=
  let b := r.buf buf
  match b.list with
  | none => (s, r.updBuf buf fun x => x.keep i [])
  | some pl =>
    let n := min 8 (b.count - 8 * i)
    let at' := burstPlace pl i
    let q := s.readBurst view r.fn at' n
    let get (k : Nat) : Option Bytes := q.2.get.getD k none
    let bad := badLines n at'.lineOf get
    let fresh : Run := { r with checked := r.checked.filter fun p => !(decide (checkKey buf (8 * i) false ≤ p.1) && decide (p.1 < checkKey buf (8 * i + n) false)) }
    let l : FailLoc := { block := 8 * i, buf := buf, stage := stage, write := false, line := 0 }
    let r1 := if bad = 0 then fresh else if r.abort then fresh.abortAt l .other else (fresh.noteFail l).countIn stage bad
    if q.2.waits then (s, r) else (q.1, r1.updBuf buf fun x => x.keep i (burstBlocks n get))

/-- The capacity of a tenant's SAC partition (R302, R457). -/
def State.sacCapacity (s : State) (f : Nat) : Nat := 2097152 * (s.tenants.scratchWays f).length

/-- Check a whole block against its window or the partition as it stands (R238, R302, R308). -/
def State.checkBlock (s : State) (f : Nat) (b : Block) (wr : Bool) : Option Place :=
  if b.malformed then none
  else if b.space = 3 then (if b.base + b.span ≤ s.sacCapacity f then some (.sac b.base) else none)
  else
    let x := s.fnSt f
    checkRange x.hwin x.dwin { off := b.base, win := b.win, space := b.space } b.span wr

/-- A block's check: made before its first read or write, and kept for the same fetch (R238). -/
def State.ensureCheck (s : State) (r : Run) (buf n : Nat) (b : Block) (wr : Bool) : Run × Option Place :=
  match Table.find r.checked (checkKey buf n wr) with
  | some p => (r, p)
  | none =>
    let p := s.checkBlock r.fn b wr
    ({ r with checked := Table.insert r.checked (checkKey buf n wr) p }, p)

/-- Where byte `d` of a block's logical bytes lies. -/
def Block.place (b : Block) (p : Place) (d : Nat) : Place := p.plus (d / b.rowBytes * b.pitch + d % b.rowBytes)

/-- The bytes of one row and one 64-byte line around an offset: its first offset, and the one after its last. -/
def Block.piece (b : Block) (start o : Nat) : Nat × Nat :=
  let row := o - (o - start) % b.rowBytes
  (max row (o / 64 * 64), min (row + b.rowBytes) (o / 64 * 64 + 64))

/-- The location of an offset of a block (Table 10-4). -/
def failAt (buf n start o stage : Nat) (wr : Bool) : FailLoc :=
  { block := n, buf := buf, stage := stage, write := wr, line := satNat 0xFFFFFFFF ((o - start) / 64) }

/-! ## The SAC partition (R302, R272) -/

/-- The slice and the set of a line within a way (R302). -/
def sacSlice (line : Nat) : Nat := line % 16
/-- The set. -/
def sacSet (line : Nat) : Nat := line / 16

/-- The SAC byte address (way * 2 MiB + byte) of an offset of a tenant's partition. -/
def State.sacAddr (s : State) (f o : Nat) : Option Nat :=
  ((s.tenants.scratchWays f)[o / 2097152]?).map fun w => 2097152 * w + o % 2097152

/-- A byte of the partition, with its line's poison tag. -/
def State.sacRead (s : State) (f o : Nat) : Option (Byte × Bool) :=
  (s.sacAddr f o).map fun a => (Table.get 0 s.addr.sac a, Table.get false s.addr.sacPoison (a / 64))

/-- Write a byte string of the partition at an offset, within one 64-byte line. -/
def State.sacLine (s : State) (f o : Nat) (d : Bytes) (poison : Bool) : State :=
  match s.sacAddr f o with
  | none => s
  | some a =>
    let old := Table.get false s.addr.sacPoison (a / 64)
    { s with addr := { s.addr with
      sac := writeBytes 0 s.addr.sac a d
      sacPoison := Table.set false s.addr.sacPoison (a / 64) (poison || (old && decide (d.length < 64))) } }

/-- Write a byte string of the partition. -/
def State.partWrite (s : State) (f o : Nat) (d : Bytes) (poison : Bool) : State :=
  (cut64 (d.length + 1) o d).foldl (fun (t : State) x => t.sacLine f x.1 x.2 poison) s

/-! ## Buffer references (R215, R259) -/

/-- What a buffer reference names for a stage. -/
inductive Ref where
  | cmd (buf : Nat)
  /-- The SAC partition from an offset on. -/
  | sac (base : Nat)
  | none
  deriving DecidableEq, Repr

/-- The offset of a hand-over slot in the partition (R420). -/
def Binding.slotOff (b : Binding) (h slot : Nat) : Nat := 4096 * (b.hoBase + (2 * h + slot) * b.hoSize)

/-- Resolve a buffer reference of a stage (R215, R424). -/
def State.resolve (s : State) (r : Run) (stage ref : Nat) : Ref :=
  let b := s.bind r.bind
  if ref ≤ 0x0F then .cmd ref
  else if ref = 0x10 then .sac 0
  else if ref = 0x11 then (if stage = 0 then .none else .sac (b.slotOff (stage - 1) (if stage = r.first then r.inPar else r.par)))
  else if ref = 0x12 then .sac (b.slotOff stage r.par)
  else .none

/-! ## Lines in -/

/-- The line of a buffer that holds an offset, if its data has come. -/
def Run.lineAt (r : Run) (buf o : Nat) : Option (Nat × Line) :=
  let k := lineKey buf o
  r.lines.find? fun p => decide (p.1 ≤ k) && decide (k < p.1 + p.2.len) && p.2.slot && p.2.data.isSome

/-- A byte of a command buffer as the SAC holds it: what the command wrote, or the line that was fetched. -/
def Run.byteAt (r : Run) (buf o : Nat) : Option (Byte × Bool) :=
  match Table.find r.wrote (lineKey buf o) with
  | some b => some (b, !(Table.get [] r.wroteBad (lineKey buf o / 64)).isEmpty)
  | none =>
    match r.lineAt buf o with
    | some (k, l) => some ((l.data.getD []).getD (lineKey buf o - k) 0, l.poison)
    | none => none

/-- Where in the partition a byte of a command buffer lies, once the block that holds it has passed its check: what is in the
partition is not fetched (R243). -/
def Run.sacOffset (r : Run) (buf o : Nat) : Option Nat :=
  match (r.buf buf).locate o with
  | .at n b start =>
    match Table.find r.checked (checkKey buf n false) with
    | some (some (.sac p)) => some (p + (o - start) / b.rowBytes * b.pitch + (o - start) % b.rowBytes)
    | _ => none
  | _ => none

/-- A byte of a command buffer: as the SAC holds it for the command, or in the partition itself. -/
def State.cmdByte (s : State) (r : Run) (buf o : Nat) : Option (Byte × Bool) :=
  match r.byteAt buf o with
  | some b => some b
  | none => (r.sacOffset buf o).map fun a => (s.sacRead r.fn a).getD (0, true)

/-- A byte at an offset of a reference. -/
def State.refByte (s : State) (r : Run) (x : Ref) (o : Nat) : Option (Byte × Bool) :=
  match x with
  | .cmd b => s.cmdByte r b o
  | .sac base => some ((s.sacRead r.fn (base + o)).getD (0, true))
  | .none => some (0, false)

/-- The next offset of a range whose line no read slot has moved yet, that the command has not written itself, and that lies in
no block of the partition. -/
def Run.missing (r : Run) (buf : Nat) : Nat → Nat → Nat → Option Nat
  | 0, _, _ => none
  | fuel + 1, o, e =>
    if e ≤ o then none
    else if (Table.find r.wrote (lineKey buf o)).isSome then r.missing buf fuel (o + 1) e
    else
      match r.lines.find? fun p => decide (p.1 ≤ lineKey buf o) && decide (lineKey buf o < p.1 + p.2.len) with
      | some (k, l) => if l.slot then r.missing buf fuel (k + l.len - lineKey buf 0) e else some o
      | none => if (r.sacOffset buf o).isSome then r.missing buf fuel (o + 1) e else some o

/-- How far a request for a piece may reach: to the end of the row, the request limit, and the end of the wanted range. -/
def reqEnd (lim addr lo rowEnd want : Nat) : Nat := min (min rowEnd want) (lo + (lim - addr % lim))

/-- Move the line at an offset in a read slot: request it from the host, or read it from LP5X; what lies in the partition is read
there (R243). `want` is where the range that the stream needs ends. A host line that a request may not reach across is moved in two pieces
(R266, R320). -/
def State.moveLine (s : State) (k : Nat) (r : Run) (stage buf n start : Nat) (b : Block) (p : Place) (o want : Nat) : State × Run :=
  let q := b.piece start o
  let key := lineKey buf q.1
  match b.place p (q.1 - start) with
  | .lp5x a =>
    let x := s.lpRead a (q.2 - q.1)
    let s1 := x.1.stat r.fn 19 1
    if x.2.2.isEmpty then
      let z : Line := { len := q.2 - q.1, slot := true, data := some x.2.1, came := s.time, src := some (.lp5x a), fetched := true, blk := n }
      (s1, { r with lines := Table.insert r.lines key z })
    else (s1, r.failLine (failAt buf n start q.1 stage false) key (q.2 - q.1) .other true)
  | .sac _ => (s, r)
  | .host a0 ns =>
    let lim := s.readLimit
    let within := (a0 + (o - q.1)) % lim
    let lo := max q.1 (o - within)
    let hi := min q.2 (o + (lim - within))
    let a := a0 + (lo - q.1)
    let hostKey := lineKey buf lo
    match Table.find r.lines hostKey with
    | some l => (s, { r with lines := Table.insert r.lines hostKey { l with slot := true } })
    | none =>
      match s.freeTag with
      | none => (s, r)
      | some tag =>
        let row := o - (o - start) % b.rowBytes
        let e := reqEnd lim a lo (row + b.rowBytes) (max want hi)
        let cuts := (cut64 (e - lo + 1) lo (zeroBytes (e - lo))).map fun x =>
          (lineKey buf x.1, ({ len := x.2.length, host := true, src := some (.host (a + (x.1 - lo)) ns), fetched := true, blk := n } : Line))
        let l1 := cuts.foldl (fun (t : Table Line) x => if (Table.find t x.1).isSome then t else Table.insert t x.1 x.2) r.lines
        let s1 := s.issueRead r.fn tag a (e - lo) ns (.line k buf lo stage n start)
        let s2 := (s1.stat r.fn 17 (lineCount a (e - lo))).perfAdd 31 (lineCount a (e - lo))
        (s2, { r with lines := Table.insert l1 hostKey { len := hi - lo, slot := true, host := true, src := some (.host a ns), fetched := true, blk := n } })

/-! ## Lines out (R238, R270, R272) -/

/-- What marks a line that the present layer run of a stage poisons (R166). -/
def Run.marker (r : Run) (stage : Nat) : Nat := stage * 65536 + (r.stage stage).layer

/-- Put a layer run's mark on a line. -/
def addMark (m : Nat) (t : Table (List Nat)) (k : Nat) : Table (List Nat) :=
  Table.upd [] t k fun l => if l.contains m then l else m :: l

/-- Take a layer run's marks off every line. -/
def dropMark (m : Nat) (t : Table (List Nat)) : Table (List Nat) := Table.mapVal [] (fun _ l => l.filter fun x => x != m) t

/-- Mark output lines as poisoned (R273). -/
def Run.markOut (r : Run) (stage : Nat) (keys : List Nat) : Run :=
  { r with outBad := keys.foldl (addMark (r.marker stage)) r.outBad }

/-- Every 64-byte line of a block's logical bytes (R270). -/
def blockLines (buf start len : Nat) : List Nat :=
  (List.range (lineCount start len)).map fun i => lineKey buf 0 / 64 + start / 64 + i

/-- Put a byte string where it belongs: host memory, LP5X, or the partition (R272). -/
def State.putAt (s : State) (f : Nat) (p : Place) (d : Bytes) (poison : Bool) : State :=
  match p with
  | .host a ns => s.hostWrite f a ns d poison
  | .lp5x a => (s.lpWrite a d poison).stat f 20 (lineCount a d.length)
  | .sac a => s.partWrite f a d poison

/-- A command's own copies after a write of its own, which has left the state `s` (R314, R315). -/
def Run.patched (r : Run) (s : State) (p : Place) (d : Bytes) (poison : Bool) : Run :=
  match p with
  | .host a _ => r.patch { lp := false, addr := a, data := d, poison := poison, marks := [] }
  | .lp5x a => r.patch { lp := true, addr := a, data := d, poison := poison, marks := s.addr.poison }
  | .sac _ => r

/-- An output lies in LP5X from now on: a later write there replaces the command's copy too (R315). -/
def Run.noteIssued (r : Run) (p : Place) (key len : Nat) : Run :=
  match p with
  | .lp5x a => { r with issued := (key, len, a) :: r.issued.filter fun q => q.1 != key }
  | _ => r

/-- A malformed block that the stream of a buffer passes on its way to an offset ends an aborting command (R235). -/
def Run.badBlock (x : Run) (buf off : Nat) : Option Nat := if x.abort then (x.buf buf).badBefore off else none

/-- A line that lies in no block that passes fails: under POISON the given lines are poisoned outputs (R270). -/
def Run.failOut (r : Run) (stage : Nat) (l : FailLoc) (k : FailKind) (keys : List Nat) : Run :=
  if r.abort then r.abortAt l k else (r.noteFail l).markOut stage keys

/-- Issue one queued output, as far as it lies in one row; what is left of it stays. Outside the partition nothing is written,
and no line fails, at positions beyond the actual length (R196). Answers nothing where a descriptor burst is needed first. -/
def State.issueOut (s : State) (r : Run) (x : OutLine) : Option (State × Run × Option OutLine) :=
  match r.badBlock x.buf x.off with
  | some n => some (s, r.abortAt (failAt x.buf n 0 0 x.stage true) .malformed, none)
  | none =>
    match (r.buf x.buf).locate x.off with
    | .need _ => none
    | .past =>
      if x.beyond then some (s, r, none)
      else some (s, r.failOut x.stage (failAt x.buf (r.buf x.buf).count 0 0 x.stage true) .window [lineKey x.buf x.off / 64], none)
    | .at n b start =>
      let len := min x.data.length (b.rowBytes - (x.off - start) % b.rowBytes)
      let rest : Option OutLine := if len = x.data.length then none else some { x with off := x.off + len, data := x.data.drop len }
      if x.beyond && b.space != 3 then some (s, r, rest)
      else
        let c := s.ensureCheck r x.buf n b true
        match c.2 with
        | some p =>
          let q := b.place p (x.off - start)
          let d := x.data.take len
          let y := if x.beyond && x.poison then c.1.markOut x.stage [lineKey x.buf x.off / 64] else c.1
          let t := s.putAt r.fn q d x.poison
          some (t, (y.patched t q d x.poison).noteIssued q (lineKey x.buf x.off) len, rest)
        | none =>
          some (s, c.1.failOut x.stage (failAt x.buf n start x.off x.stage true) (if b.malformed then .malformed else .window)
            (blockLines x.buf start b.len), rest)

/-- A command writes bytes of a buffer: the SAC copy at once, the write to the buffer's memory in a write slot (R252). -/
def Run.putOut (r : Run) (stage buf off : Nat) (d : Bytes) (poison beyond : Bool) : Run :=
  let parts := cut64 (d.length + 1) off d
  let r1 := { r with
    wrote := writeBytesAll r.wrote (lineKey buf off) d
    issued := r.issued.filter fun q => !rangesMeet q.1 q.2.1 (lineKey buf off) d.length
    wroteBad := parts.foldl (fun (t : Table (List Nat)) x =>
      let k := lineKey buf x.1 / 64
      if poison then addMark (r.marker stage) t k else if x.2.length < 64 then t else Table.set [] t k []) r.wroteBad
    writes := r.writes ++ parts.map fun x => { buf := buf, off := x.1, data := x.2, poison := poison, stage := stage, beyond := beyond } }
  if poison && !beyond then r1.markOut stage (parts.map fun x => lineKey buf x.1 / 64) else r1
where
  /-- Every byte is kept, zeros too: a key that is absent has not been written. -/
  writeBytesAll (t : Table Byte) (k : Nat) : Bytes → Table Byte
    | [] => t
    | b :: l => writeBytesAll (Table.insert t k b) (k + 1) l

end Sys2Proof.Machine
end

