-- ==== Sys2Proof/Machine/PeerOps.lean ====
section
/-!
DEFINITION. Peers that come and go, and what a loss does to ring jobs (R371, R373, R375 to R378).
-/

namespace Sys2Proof.Machine

/-- The chip count of a pattern for a number of live chips (R373); 1 where the pattern has no CHIPS dimension. -/
def chipCount (pat : Bytes) (live : Nat) : Option Nat :=
  match Pattern.chipsDim pat with
  | none => some 1
  | some d => (DynRec.pickChips (Pattern.dyn pat d) live).map fun i => DynRec.bucket (Pattern.dyn pat d) i

/-- A run of a ring job stops because its chip is lost (R375 step 1): nothing more comes from there. -/
def Run.peerLost (r : Run) : Run :=
  { r with
    stop := some (r.stop.getD { status := St.peerLost })
    upLines := []
    report := some (r.report.getD { status := St.peerLost, kept := false, w0 := 0, w1 := 0, inBad := 0, outBad := 0, halt := 0 }) }

/-- A participant is lost to a ring job of this chip (R375): its frames end; the job goes on with the participants that
remain, or not at all (R376). -/
def State.partLost (s : State) (k c : Nat) : State :=
  let b := s.bind k
  let a := { s with comp := { s.comp with runs := s.comp.runs.map fun (p : Nat × Run) =>
    (p.1, if p.2.bind = k ∧ p.2.chip = some c ∧ !p.2.waitCap then p.2.peerLost else p.2) } }
  let rest := b.parts.filter fun x => x != c
  let g := b.holders.filter fun x => x != c
  match chipCount (s.bindPattern b) rest.length with
  | some n => a.updBind k fun x => { x with parts := rest.take n, holders := g, chips := n, frames := 0 }
  | none => a.updBind k fun x => { x with holders := g, dead := true }

/-- Release what a bind of a ring job has taken, and end it (R372, R421). -/
def State.bindFails (s : State) (k : Nat) (status : BitVec 16) : State :=
  match (s.bind k).binder with
  | none => s
  | some t => (s.freeBinding k).endCmd t status 0 0

/-- A participant answers a bind (R372), or is lost to the job (R375, R467). -/
def State.partAnswer (s : State) (k c : Nat) (status : BitVec 16) : State :=
  let b := s.bind k
  match b.binder with
  | some t =>
    if status ≠ 0 then (s.updBind k fun x => { x with holders := x.holders.filter fun y => y != c }).bindFails k status
    else
      let left := b.awaits.filter fun x => x != c
      let a := s.updBind k fun x => { x with awaits := left }
      if left.isEmpty then
        (a.updBind k fun x => { x with binder := none }).endCmd t St.ok
          (BitVec.ofNat 32 (k % 64 + 64 * (b.count % 2 ^ 26))) (BitVec.ofNat 32 b.chips)
      else a
  | none => if status ≠ 0 ∧ b.parts.contains c then s.partLost k c else s

/-- The lead of served jobs is lost: their frames stop, their outputs are discarded, and the jobs are released (R378). -/
def State.leadLost (s : State) (c : Nat) : State :=
  let ks := (s.binds.filter fun p => p.2.live && decide (p.2.lead = some c)).map Prod.fst
  ks.foldl (fun (t : State) k =>
    ({ t with comp := { t.comp with runs := t.comp.runs.filter fun p => !(p.2.bind == k) } }).freeBinding k) s

/-- Log that a peer became live or was lost, and tell the host (R371). -/
def State.peerEvent (s : State) (c : Nat) (live : Bool) (epoch : Word) : State :=
  (s.logEvent 0x52 devByte (leBytes 1 c ++ leBytes 1 (b2n live) ++ zeroBytes 2 ++ leBytes 4 epoch.toNat) []).raiseDevEvt 3

/-- A peer stops being live (R371), with what follows for ring jobs. -/
def State.peerDown (s : State) (c : Nat) : State :=
  if !(s.peer c).live then s
  else
    let a := (s.updPeer c fun p => { p with live := false, known := false, ports := 0 }).peerEvent c false (s.peer c).epoch
    let a := { a with weft := { a.weft with chans := a.weft.chans.filter fun x => !(x.peer == c) } }
    let ks := (a.binds.filter fun p => p.2.live && p.2.lead.isNone && (p.2.parts.contains c || p.2.awaits.contains c)).map Prod.fst
    (ks.foldl (fun (t : State) k => t.partAnswer k c St.peerLost) a).leadLost c

/-- A peer is named by a HELLO that came in on a port (R369, R371). -/
def State.peerSeen (s : State) (c i : Nat) : State :=
  let a := s.updPeer c fun p => { p with live := true, last := s.time, ports := p.ports ||| (1 <<< i) }
  if (s.peer c).live then a else a.peerEvent c true (s.peer c).epoch

/-- Peers that were named through a port are no longer reached through it; those without a path are lost (R371). -/
def State.pathLost (s : State) (i : Nat) : State :=
  let b := { s with weft := { s.weft with
    peers := Table.mapVal {} (fun _ (p : Peer) => { p with ports := p.ports &&& ~~~(1#2 <<< i) }) s.weft.peers } }
  (List.range 4).foldl (fun (t : State) c => if (t.peer c).live ∧ (t.peer c).ports = 0 then t.peerDown c else t) b

/-- A port goes down for a reason of Table 19-5 (R365, R371). -/
def State.portDown (s : State) (i reason : Nat) : State := if (s.port i).up then (s.portOff i reason).pathLost i else s

end Sys2Proof.Machine
end

