-- ==== Sys2Proof/Machine/Bind.lean ====
section
/-!
DEFINITION. QUERY, PATTERN_BIND and its release (R416, R420 to R422, R229, R230, R452 to R459), and the bind of a ring job on a
participant (R372).
-/

namespace Sys2Proof.Machine

/-- The binding that a command may use: its release, if any, was accepted later (R422). -/
def State.boundFor (s : State) (c : Cmd) (h : Word) : Option Nat :=
  match s.byHandle c.fn h with
  | none => none
  | some k =>
    let b := s.bind k
    if !b.releasing then some k
    else
      match b.releaser.bind s.cmd? with
      | some r => if c.order < r.order then some k else none
      | none => none

/-! ## Holdings (R454, R455) -/

/-- Core groups that a function's bindings count as. -/
def State.groupsHeld (s : State) (f : Nat) : Nat :=
  ((s.binds.filter fun p => p.2.live && p.1 / 64 == f).map fun p => p.2.groups).sum

/-- Core groups held on the device. -/
def State.groupsAll (s : State) : Nat := ((s.binds.filter fun p => p.2.live).map fun p => p.2.groups).sum

/-- Free SAC ways, ascending. -/
def State.freeWayList (s : State) : List Nat :=
  (List.range 16).filter fun w => (Table.get ({} : Way) s.tenants.ways w).owner.isNone

/-! ## QUERY (R416) -/

/-- The result words of an item; none where the item or its object is not valid. -/
def State.queryItem (s : State) (f item : Nat) (h : Word) : Option (Word × Word) :=
  if item = 0 then (if h = 0 then some (s.fw.version, BitVec.ofNat 32 s.fuses.rollback) else none)
  else if item = 1 then
    (if h = 0 then
      some (mkWord [(0, (s.fnSt f).quota.tickets), (16, s.ticketsHeld f)],
        mkWord [(0, (s.fnSt f).ringsHeld), (16, (s.tenants.waysOf f).length), (24, s.groupsHeld f)])
    else none)
  else if item = 2 then
    match s.patternOf h with
    | none => none
    | some (i, b) =>
      some (mkWord [(0, Pattern.pieceCount b), (8, Pattern.stageCount b), (12, Pattern.dynCount b), (15, b2n (Pattern.shared b)),
          (16, b2n (Pattern.chipsDim b).isSome)],
        mkWord [(0, s.owner i), (16, b2n (s.mayBind f i b))])
  else if item = 3 then
    match s.byHandle f h with
    | none => none
    | some k =>
      let b := s.bind k
      some (b.pattern,
        mkWord [(0, b.chips), (4, (s.slots.filter fun p => p.2.isOpen && p.2.bind == k).length), (9, b2n b.releasing)])
  else none

/-- QUERY. -/
def execQuery (t : Ticket) (s : State) : Host.Outcome State Fault Refusal :=
  ok <| s.onCmd t.val [0x01] fun c =>
    if !Entry.paramsOk c.entry then s.endCmd t.val St.badParam 0 0
    else
      match s.queryItem c.fn (Entry.dw c.entry 2).toNat (Entry.handle c.entry) with
      | none => s.endCmd t.val St.badParam 0 0
      | some (a, b) => s.endCmd t.val St.ok a b

/-! ## The parts of a bind -/

/-- What a bind asks for. -/
structure BindReq where
  fn : Nat
  slot : Nat
  pat : Bytes
  scratch : Nat
  cache : Nat
  hoBase : Nat
  hoSize : Nat
  cores : List Nat
  dw2 : Word
  dw3 : Word
  /-- When the bind was accepted. -/
  order : Nat
  deriving DecidableEq, Repr

/-- The scratch ways that a function holds. -/
def State.scratchHeld (s : State) (f : Nat) : Nat := (s.tenants.scratchWays f).length

/-- Every hand-over slot lies within the scratch ways that the bind allocates (R420, R459). -/
def State.handOverOk (s : State) (q : BindReq) : Bool :=
  let n := Pattern.stageCount q.pat
  decide (n ≤ 1) || (decide (s.scratchHeld q.fn * 512 ≤ q.hoBase)
    && decide (q.hoBase + 2 * (n - 1) * q.hoSize ≤ (s.scratchHeld q.fn + q.scratch) * 512))

/-- The operations of a list of banks stop after their code word (R78). -/
def stopOps (banks : List Nat) (l : List NvmOp) : List NvmOp :=
  l.map fun o => if banks.contains o.bank then { o with stop := some (o.stop.getD St.cancelled) } else o

/-- The relocations that the KC2 itself started on the needed banks are abandoned (R78). One that has begun its last erase, and the
erase of a spare or of a discarded block, run to their end, and the bind waits for it (log entry 139). -/
def State.abandonAuto (s : State) (banks : List Nat) : State :=
  { s with nvm := { s.nvm with ops := stopOps banks s.nvm.ops } }

/-- The extent tag of a bank matches the pattern, and the first code word of every block reads written (R230). -/
def State.extentIntact (s : State) (pat : Bytes) (bank : Nat) : Bool :=
  let p := Pattern.tagAt pat bank
  let want := leBytes 8 (Pattern.id pat) ++ leBytes 4 (Pattern.handle pat).toNat ++ leBytes 4 bank
  (match s.nvm.goodWord bank p.1 p.2 with
   | some d => d.take 16 == want
   | none => false)
  && (List.range (Pattern.blocks pat bank)).all fun i =>
      decide (flagOf (s.nvm.word bank (Pattern.first pat bank + i) 0).flag = .written)

/-- The row reads of the extent checks: the tag's row, and the first of every block (R72, R230). -/
def State.extentReads (s : State) (pat : Bytes) (bank : Nat) : State :=
  let p := Pattern.tagAt pat bank
  let rows := (List.range (Pattern.blocks pat bank)).map fun i => (Pattern.first pat bank + i) * 64
  let tag := p.1 * 64 + p.2 / 16
  ((if rows.contains tag then rows else tag :: rows).foldl (fun (t : State) r => t.scanRow bank r) s).readWord bank p.1 p.2 |>.1

/-- The ways of a bind: scratch ways above those the tenant holds, lowest first, cache ways from the highest free ones
(R458). -/
def State.pickWays (s : State) (f scratch cache : Nat) : Option (List Nat × List Nat) :=
  let top := (s.tenants.scratchWays f).foldl (fun m w => max m (w + 1)) 0
  let free := s.freeWayList
  let a := (free.filter fun w => decide (top ≤ w)).take scratch
  let b := ((free.filter fun w => !a.contains w).reverse).take cache
  if a.length = scratch ∧ b.length = cache ∧ (s.tenants.waysOf f).length + scratch + cache ≤ (s.fnSt f).quota.ways then some (a, b)
  else none

/-- The lowest binding index of a function that holds nothing (R413). -/
def State.freeIndex (s : State) (f : Nat) : Option Nat :=
  if 256 ≤ (s.binds.filter fun p => p.2.live).length then none
  else (lowest (fun i => !(s.bind (f * 64 + i)).live) 64).map fun i => f * 64 + i

/-- The cores and groups of a bind are free (R455). -/
def State.coresFree (s : State) (q : BindReq) : Bool :=
  let n := Pattern.stageCount q.pat
  decide (s.groupsHeld q.fn + n ≤ (s.fnSt q.fn).quota.groups) && decide (s.groupsAll + n ≤ 16)
    && !(s.binds.any fun p => p.2.live && p.2.cores.any fun c => q.cores.contains c)

/-- Take the ways of a binding. -/
def takeWays (t : Table Way) (f k : Nat) (scratch : Bool) (l : List Nat) : Table Way :=
  l.foldl (fun (m : Table Way) w => Table.insert m w { owner := some f, bind := k, scratch := scratch }) t

/-- Allocate index, cores and ways, and reserve the pattern's banks (R421, R105). -/
def State.allocate (s : State) (q : BindReq) : Option (State × Nat) :=
  match s.freeIndex q.fn, s.pickWays q.fn q.scratch q.cache with
  | some k, some (a, b) =>
    if !s.coresFree q then none
    else
      let w := takeWays (takeWays s.tenants.ways q.fn k true a) q.fn k false b
      let r := (Pattern.banks q.pat).foldl (fun (t : Table (List Nat)) n => Table.set [] t n (k :: Table.get [] t n)) s.nvm.resv
      let x := s.bind k
      let nb : Binding :=
        { live := true, count := x.count + 1, pattern := Pattern.handle q.pat, cores := q.cores
          groups := Pattern.stageCount q.pat, hoBase := q.hoBase, hoSize := q.hoSize, dw2 := q.dw2, dw3 := q.dw3 }
      let u := { s with tenants := { s.tenants with ways := w }, nvm := { s.nvm with resv := r }, binds := Table.set {} s.binds k nb }
      some (u.refreshDoms s, k)
  | _, _ => none

/-- How far a bind has come: refused, waiting for an automatic relocation to stop, or done. -/
inductive BindStep where
  | refuse (s : State) (status : BitVec 16)
  | wait (s : State)
  | done (s : State) (key : Nat)

/-- A program or erase that was accepted earlier waits behind a fence for a bank: it wins (R107). -/
def State.hostWaits (s : State) (order b : Nat) : Bool :=
  s.cmds.any fun p => decide (p.2.order < order) && decide (p.2.phase = .held)
    && (Entry.opcode p.2.entry == 0x31 || Entry.opcode p.2.entry == 0x32 || Entry.opcode p.2.entry == 0x34)
    && (Entry.handle p.2.entry).toNat == b

/-- The checks and effects of a bind up to its allocation, in the order of R421. -/
def State.bindCore (s : State) (q : BindReq) : BindStep :=
  let banks := Pattern.banks q.pat
  if banks.any fun b => s.nvm.hostOp b || s.hostWaits q.order b then .refuse s St.bankBusy
  else if banks.any s.nvm.busy then .wait (s.abandonAuto banks)
  else
    let a := banks.foldl (fun (t : State) n => t.extentReads q.pat n) s
    if !(banks.all fun n => a.extentIntact q.pat n) then .refuse (a.setTrb .patternDamaged) St.patternDamaged
    else
      match a.allocate q with
      | none => .refuse a St.noResource
      | some (b, k) => .done b k

/-! ## PATTERN_BIND (R420, R421) -/

/-- The parameters of a bind. -/
def bindReqOf (f slot : Nat) (pat : Bytes) (d2 d3 : Word) (order : Nat) : BindReq :=
  { fn := f, slot := slot, pat := pat, scratch := bitsOf d2 4 0, cache := bitsOf d2 12 8
    hoBase := bitsOf d3 15 0, hoSize := bitsOf d3 31 16, cores := Pattern.cores pat, dw2 := d2, dw3 := d3
    order := order }

/-- A ring job's bind goes to its participants (R372, R373); the hand-over base travels relative to the scratch ways that
the bind takes (log entry 47). -/
def State.bindParts (s : State) (t k : Nat) (q : BindReq) (held : Nat) : State :=
  match chipCount q.pat (1 + s.livePeers.length) with
  | none => (s.freeBinding k).endCmd t St.peerLost 0 0
  | some n =>
    let others := s.livePeers.take (n - 1)
    let a := s.updBind k fun x => { x with chips := n, parts := s.self :: others, holders := others }
    if others.isEmpty then a.endCmd t St.ok (a.handleAt k) (BitVec.ofNat 32 n)
    else
      let b := (a.updBind k fun x => { x with awaits := others, binder := some t }).updCmd t fun c => { c with phase := .busy }
      let d3 := BitVec.ofNat 32 (q.hoBase - 512 * held + 65536 * q.hoSize)
      others.foldl (fun (u : State) c => u.sendCtrl c (.bind (u.jobId k) (Pattern.id q.pat) n q.dw2 d3)) b

/-- A bind of a pattern that may be bound. -/
def State.bindGo (s : State) (t : Nat) (q : BindReq) : State :=
  if !s.handOverOk q then s.endCmd t St.badParam 0 0
  else
    match s.bindCore q with
    | .refuse a st => a.endCmd t st 0 0
    | .wait a => a
    | .done a k => a.bindParts t k q (s.scratchHeld q.fn)

/-- PATTERN_BIND with DW2[31] = 0. -/
def execPatternBind (t : Ticket) (s : State) : Host.Outcome State Fault Refusal :=
  ok <| s.onTurn t.val [0x12] fun c =>
    let d2 := Entry.dw c.entry 2
    if bitOf d2 31 then s
    else if !Entry.paramsOk c.entry then s.endCmd t.val St.badParam 0 0
    else
      match s.patternOf (Entry.handle c.entry) with
      | none => s.endCmd t.val St.badParam 0 0
      | some (i, b) =>
        if !s.mayBind c.fn i b then s.endCmd t.val St.badParam 0 0
        else s.bindGo t.val (bindReqOf c.fn i b d2 (Entry.dw c.entry 3) c.order)

/-! ## The bind on a participant (R372, R448) -/

/-- The pieces that a participant runs: those of the variants for its lead's chip count (R455). -/
def variantCores (pat : Bytes) (chips : Nat) : List Nat :=
  match Pattern.chipsDim pat with
  | none => Pattern.cores pat
  | some d =>
    match DynRec.pickChips (Pattern.dyn pat d) chips with
    | none => []
    | some i =>
      (List.range 64).filter fun n => (Pattern.pieces pat).any fun p =>
        (PieceRec.cores p).contains n && (PieceRec.key p / 16 ^ d % 16 == 15 || PieceRec.key p / 16 ^ d % 16 == i)

/-- A status other than OK that the spec does not name. -/
def freeStatus (n : Nat) : BitVec 16 :=
  let w := (Config.freeWord n).setWidth 16
  if w = 0 then St.noResource else w

/-- A lead asks this chip to take part in a ring job: it answers with OK or with the status that refuses the bind; or the bind waits
for an automatic relocation to end, as this chip's own would (R78). -/
def State.serveBind (s : State) (lead : Nat) (h : Word) (id chips : Nat) (d2 d3 : Word) : State × Bool :=
  if !s.weft.serve then (s.tick.sendCtrl lead (.bound h (freeStatus s.fresh)), false)
  else
    match s.patterns.find? fun p => Pattern.id p.2 == id with
    | none => (s.tick.sendCtrl lead (.bound h (freeStatus s.fresh)), false)
    | some (i, b) =>
      let q0 := bindReqOf 0 i b d2 d3 s.order
      let q := { q0 with hoBase := q0.hoBase + s.scratchHeld 0 * 512, cores := variantCores b chips }
      if !s.handOverOk q then (s.sendCtrl lead (.bound h St.badParam), false)
      else
        match s.bindCore q with
        | .refuse a st => (a.sendCtrl lead (.bound h st), false)
        | .wait a => (a, true)
        | .done a k =>
          ((a.updBind k fun x => { x with lead := some lead, leadHandle := h, chips := chips }).sendCtrl lead (.bound h St.ok), false)

/-- The binding that this chip serves for a lead's job. -/
def State.servedFor (s : State) (lead : Nat) (h : Word) : Option Nat :=
  (s.binds.find? fun p => p.2.live && decide (p.2.lead = some lead) && p.2.leadHandle == h).map Prod.fst

/-- The binding of this chip that a job's name denotes. -/
def State.jobBind (s : State) (h : Word) : Option Nat :=
  (s.binds.find? fun p => p.2.live && p.2.lead.isNone && s.jobId p.1 == h).map Prod.fst

/-! ## Release (R422, R456) -/

/-- PATTERN_RELEASE: PATTERN_BIND with DW2[31] = 1. -/
def execPatternRelease (t : Ticket) (s : State) : Host.Outcome State Fault Refusal :=
  ok <| s.onCmd t.val [0x12] fun c =>
    let d2 := Entry.dw c.entry 2
    if !bitOf d2 31 then s
    else if !Entry.paramsOk c.entry then s.endCmd t.val St.badParam 0 0
    else
      match s.byHandle c.fn (Entry.handle c.entry) with
      | none => s.endCmd t.val St.badParam 0 0
      | some k =>
        if (s.bind k).releasing ∨ (s.slots.any fun p => p.2.isOpen && p.2.bind == k) then s.endCmd t.val St.badParam 0 0
        else
          (s.updBind k fun x => { x with releasing := true, releaser := some t.val }).updCmd t.val fun x => { x with phase := .busy }

/-- A command of a binding that was accepted before its release has not completed (R422). -/
def State.bindBusy (s : State) (k order : Nat) : Bool :=
  s.cmds.any fun p => decide (s.cmdBind p.2 = some k) && decide (p.2.order < order)

/-- BINDING_RELEASE_DONE: a held release may proceed; the cores are zeroed, the ways flushed and freed, the reservations
dropped (R193, R422, R456, R460, R461). -/
def execBindingReleaseDone (fn : FnId) (index : Fin 64) (s : State) : Host.Outcome State Fault Refusal :=
  let k := fn.val * 64 + index.val
  let b := s.bind k
  match b.releaser with
  | none => ok s
  | some t =>
    match s.cmd? t with
    | none => ok s
    | some c =>
      if !b.live ∨ !b.releasing ∨ s.bindBusy k c.order ∨ !s.fwRuns then ok s
      else ok ((s.freeBinding k).endCmd t St.ok 0 0).retarget

end Sys2Proof.Machine
end

