-- ==== Sys2Proof/Machine/CoreOps.lean ====
section
/-!
DEFINITION. What a core does with a tile (chapters 5 to 7): loading activations through rotor and quantiser (R128, R137, R145,
R176), the weight half (R173, R189), the loops of R179 over core store (R172, R190), accumulation (R129 to R134),
requantisation (R138 to R140), adapters (R597, R598), the saturation counters (R150 to R152) and poison (R271).
-/

namespace Sys2Proof.Machine

open LayerRec PieceRec

/-! ## Core store (R172) -/

/-- The key of an offset of a core's store. -/
def cAddr (core off : Nat) : Nat := 1048576 * core + off % 1048576

/-- The little-endian number in `n` bytes of a core's store. -/
def cGet (m : Table Byte) (core off : Nat) : Nat → Nat
  | 0 => 0
  | n + 1 => (Table.get 0 m (cAddr core off)).toNat + 256 * cGet m core (off + 1) n

/-- Store a byte string in a core's store. -/
def cPut (m : Table Byte) (core off : Nat) : Bytes → Table Byte
  | [] => m
  | b :: t => cPut (Table.set 0 m (cAddr core off) b) core (off + 1) t

/-- A partition's bytes for a size field in units of 4 KiB (R171). -/
def partSize (v : Nat) : Nat := 4096 * (if v = 0 then 256 else v)

/-! ## A layer run -/

/-- An adapter of the layer (Table 23-2): rank, scale, out_recip, and where A and B lie in LP5X. -/
structure AdCtx where
  rank : Nat
  scale : F32
  recip : F32
  aAt : Nat
  bAt : Nat
  deriving DecidableEq, Repr

/-- What a layer run is made of: its record, nest record and tables, the dynamic length it follows, whether it is a widened
re-run, its group's shape, its weight half, its adapter. -/
structure Ctx where
  r : LayerRec
  nest : NestRec
  tab : Bytes
  tabBad : Bool
  dyn : Option Dyn
  wide : Bool
  gh : Nat
  gw : Nat
  half : Nat
  ad : Option AdCtx
  deriving DecidableEq, Repr

namespace Ctx

/-- The array activation format of the run (R157). -/
def act (c : Ctx) : Nat := if c.wide then 6 else actFmt c.r
/-- The activation zero point (R118, R157). -/
def za (c : Ctx) : Nat := if c.wide then 0 else if actFmt c.r = 5 then zA c.r else 0
/-- The reciprocal activation scale (R127, R157). -/
def ra (c : Ctx) : F32 := if c.wide then wideRecip c.r else rA c.r
/-- The activation scale; the widened one is the narrow one times ω (R597, log entry 52). -/
def sa (c : Ctx) : F32 := if c.wide then f32mul (sA c.r) (wideRatio c.r) else sA c.r
/-- Input channels per beat of the run (Table 5-5). -/
def cpb (c : Ctx) : Nat := cpbOf (wFmt c.r) c.act
/-- Input channels per weight block as the image holds it (R219). -/
def imgCpb (c : Ctx) : Nat := cpbOf (wFmt c.r) (actFmt c.r)
/-- The integer paths (Table 5-4). -/
def isInt (c : Ctx) : Bool := decide (c.act ≤ 6)
/-- Weights carry per-group scales (R126, R134). -/
def perGroup (c : Ctx) : Bool := decide (wGran c.r ≠ 0) && hasScales c.r
/-- Bytes of an accumulator cell (Table 7-4); of a vector result. -/
def cell (c : Ctx) : Nat := if isArray c.r && (c.perGroup || c.act == 6) then 8 else 4
/-- Bytes of an activation element in core store. -/
def actBytes (c : Ctx) : Nat := if isArray c.r then fmtBytes c.act else fmtBytes (inFmt c.r)
/-- Input channels within the actual length: SKIP masks aux rows beyond it (R198, R669). -/
def cLimit (c : Ctx) : Nat :=
  match c.dyn with
  | some d => if d.skip ∧ dynAxis c.r = 2 then min (inC c.r) d.len else inC c.r
  | none => inC c.r
/-- Input rows and columns that do not read as padding (R196, R197, R207). -/
def rowsIn (c : Ctx) : Nat :=
  if gather c.r then 1
  else
    match c.dyn with
    | some d => if dynAxis c.r = 0 then min (inH c.r) d.len else inH c.r
    | none => inH c.r
/-- Input columns; in a gather layer, entries of the index list. -/
def colsIn (c : Ctx) : Nat :=
  let n := if gather c.r then outW c.r else inW c.r
  match c.dyn with
  | some d => if dynAxis c.r = 1 ∨ dynAxis c.r = 3 then min n d.len else n
  | none => n
/-- The lanes of a tile: its channels within the limit. -/
def lanes (c : Ctx) (b : Box) : Nat := min (b.c0 + b.cn) c.cLimit - b.c0
/-- Channels of a tile rounded up (R177). -/
def cPad (c : Ctx) (b : Box) : Nat := if isArray c.r then roundUp b.cn c.cpb else b.cn

/-! Where things lie in core store (R171 to R173, R189, Table 7-4, R598). -/

/-- The weight half in use. -/
def wAt (c : Ctx) : Nat := 4096 * wBase c.r + c.half * (partSize (wSize c.r) / 2)
/-- The weight half of the other index. -/
def shadowAt (r : LayerRec) (half : Nat) : Nat := 4096 * wBase r + half * (partSize (wSize r) / 2)
/-- Weight-scale groups of a tile per tap. -/
def groupsOf (c : Ctx) (b : Box) : Nat := if c.perGroup then ceilDiv (c.cPad b) (group c.r) else 1
/-- Whether the layer has weight scales. -/
def scaled (c : Ctx) : Bool := hasScales c.r
/-- Bytes of the tile's scales. -/
def scaleLen (c : Ctx) (b : Box) : Nat :=
  if !c.scaled then 0 else if c.perGroup then 2 * b.kPad * taps c.r * c.groupsOf b else 2 * b.kPad
/-- The scales, the adapter's A block and its B block follow the image. -/
def scalesAt (c : Ctx) (b : Box) : Nat := c.wAt + b.imageBytes c.r
/-- Start of the A block. -/
def adAAt (c : Ctx) (b : Box) : Nat := c.scalesAt b + c.scaleLen b
/-- Start of the B block. -/
def adBAt (c : Ctx) (b : Box) (rank : Nat) : Nat := c.adAAt b + 2 * rank * c.cPad b
/-- An activation element: row and column of the tile's span, channel of the tile. -/
def actAt (c : Ctx) (b : Box) (iy ix ch : Nat) : Nat :=
  4096 * aBase c.r + ((iy * spanW c.r b.w + ix) * c.cPad b + ch) * c.actBytes
/-- The cell of output position `p` and channel `k` of the tile (R189); a vector operator's channels are its tile's. -/
def outAt (c : Ctx) (b : Box) (p k : Nat) : Nat :=
  if isArray c.r then 4096 * oBase c.r + (k / 32 * b.positions * 32 + p * 32 + k % 32) * c.cell
  else 4096 * oBase c.r + (p * b.cn + k) * c.cell
/-- The cell of the adapter's vector h, element `j` (R598). -/
def hAt (c : Ctx) (b : Box) (p j rank : Nat) : Nat :=
  4096 * oBase c.r + b.positions * b.kPad * c.cell + (p * rank + j) * 4

end Ctx

/-! ## Reading inputs (R668, R202) -/

/-- Buffers of a layer as the stage resolves them. -/
structure Refs where
  src : Ref
  aux : Ref
  dst : Ref
  deriving DecidableEq, Repr

/-- The references of a layer. -/
def State.refsOf (s : State) (x : Run) (stage : Nat) (r : LayerRec) : Refs :=
  { src := s.resolve x stage (srcBuf r), aux := s.resolve x stage (auxBuf r), dst := s.resolve x stage (dstBuf r) }

/-- The little-endian number in `n` bytes of a reference, and whether any byte of it is poisoned. -/
def State.refNat (s : State) (x : Run) (f : Ref) (o : Nat) : Nat → Nat × Bool
  | 0 => (0, false)
  | n + 1 =>
    let t := s.refNat x f (o + 1) n
    let b := (s.refByte x f o).getD (0, true)
    (b.1.toNat + 256 * t.1, b.2 || t.2)

/-- Where input element (y, x, c) lies in the logical space of its buffer (R668). -/
def inOff (r : LayerRec) (y x ch : Nat) : Nat := srcOff r + y * srcPitch r + (x * inC r + ch) * fmtBytes (inFmt r)

/-- Where output element (y, x, k) lies (R668). -/
def outOff (r : LayerRec) (y x k : Nat) : Nat := dstOff r + y * dstPitch r + (x * outC r + k) * fmtBytes (outFmt r)

/-- Where element (t, c, k) of the second operand of MATMUL_AA lies (R669). -/
def auxElem (r : LayerRec) (t ch k : Nat) : Nat := auxOff r + ((t * inC r + ch) * outC r + k) * fmtBytes (wFmt r)

/-- What input position (iy, ix) of a tile reads: a row and a column of the input, padding, or padding that stands for a
failing or overflowing index. -/
inductive InPos where
  | at (y x : Nat)
  | pad
  /-- A null index: `beyond` the source (R203), `bad` from a poisoned line. -/
  | null (beyond bad : Bool)
  deriving DecidableEq, Repr

/-- The row and column that a tile's input position names, before padding (R176). -/
def Ctx.rawPos (c : Ctx) (b : Box) (iy ix : Nat) : Option (Nat × Nat) :=
  let y : Int := (b.y0 * strideH c.r + iy : Nat) - (padTop c.r : Nat)
  let x : Int := (b.x0 * strideW c.r + ix : Nat) - (padLeft c.r : Nat)
  if 0 ≤ y ∧ y < c.rowsIn ∧ 0 ≤ x ∧ x < c.colsIn then some (y.toNat, x.toNat) else none

/-- What entry `n` of the index list names (R202, R203). -/
def State.gatherPos (s : State) (x : Run) (f : Refs) (c : Ctx) (n : Nat) : InPos :=
  let e := s.refNat x f.aux (auxOff c.r + 4 * n) 4
  if e.2 then .null false true
  else if e.1 = 0xFFFFFFFF then .null false false
  else if inH c.r ≤ e.1 then .null true false
  else .at e.1 0

/-- What an input position reads; a gather layer looks its row up in the index list (R202, R203). -/
def State.inPos (s : State) (x : Run) (f : Refs) (c : Ctx) (b : Box) (iy ix : Nat) : InPos :=
  match c.rawPos b iy ix with
  | none => .pad
  | some (y, n) => if LayerRec.gather c.r then s.gatherPos x f c n else .at y n

/-- The FP32 value of a stored element (R121). -/
def toF32 (f raw : Nat) : F32 := if f = 11 then BitVec.ofNat 32 raw else rne32 (fmtVal f raw)

/-- The stored elements of channels `c0` to `c0 + n - 1` at a place of the input. -/
def State.inElems (s : State) (x : Run) (f : Ref) (r : LayerRec) (y col c0 n : Nat) : List (Nat × Bool) :=
  (List.range n).map fun i => s.refNat x f (inOff r y col (c0 + i)) (fmtBytes (inFmt r))

/-- The layer quantises its inputs (R128, R157). -/
def Ctx.quantises (c : Ctx) : Bool := c.wide || inFmt c.r != actFmt c.r || rotBlock c.r != 0

/-- What loading one input position gives: raw activation codes of the tile's lanes, whether a poisoned line took part, and
how many values clipped. -/
structure PosLoad where
  raws : List Nat
  bad : Bool
  clips : Nat
  /-- Which lanes clipped, poisoned ones too (R606). -/
  clipped : List Bool := []
  deriving DecidableEq, Repr

/-- Quantise FP32 values (R128); values of poisoned lines are not counted (R152). -/
def Ctx.quantise (c : Ctx) (l : List (F32 × Bool)) : PosLoad :=
  let q := l.map fun v => (fmtStore c.act c.za (f32mul v.1 c.ra), v.2)
  { raws := q.map fun v => v.1.1, bad := l.any fun v => v.2, clips := (q.filter fun v => v.1.2 && !v.2).length
    clipped := q.map fun v => v.1.2 }

/-- The rotated values of the tile's lanes: whole blocks are rotated (R145). Masked lanes take no part (R149): they are not read
and enter a block as zeros (log entry 125). -/
def Ctx.rotated (c : Ctx) (b : Box) (get : Nat → Nat → List (Nat × Bool)) : List (F32 × Bool) :=
  let n := 16 * 2 ^ rotBlock c.r
  let lo := b.c0 / n
  let hi := ceilDiv (b.c0 + c.lanes b) n
  let all := (List.range (hi - lo)).flatMap fun k =>
    let c0 := (lo + k) * n
    let live := min n (c.cLimit - c0)
    let e := get c0 live
    let bad := e.any fun v => v.2
    let x := (e.map fun v => toF32 (inFmt c.r) v.1) ++ List.replicate (n - live) 0
    (rotate (rotBlock c.r) (signs c.r) x).map fun v => (v, bad)
  (all.drop (b.c0 - lo * n)).take (c.lanes b)

/-- Load one input position of an array operator. -/
def State.loadPos (s : State) (x : Run) (f : Refs) (c : Ctx) (b : Box) (iy ix : Nat) : PosLoad :=
  let zero : List Nat := List.replicate (c.lanes b) (padRaw c.act c.za)
  match s.inPos x f c b iy ix with
  | .pad => { raws := zero, bad := false, clips := 0 }
  | .null _ bad => { raws := zero, bad := bad, clips := 0 }
  | .at y col =>
    let get (c0 n : Nat) : List (Nat × Bool) := s.inElems x f.src c.r y col c0 n
    if !c.quantises then
      let e := get b.c0 (c.lanes b)
      { raws := e.map Prod.fst, bad := e.any Prod.snd, clips := 0 }
    else if rotBlock c.r ≠ 0 then c.quantise (c.rotated b get)
    else c.quantise ((get b.c0 (c.lanes b)).map fun v => (toF32 (inFmt c.r) v.1, v.2))

/-- A 16-bit counter that saturates (R150). -/
def clip16 (a n : Nat) : Nat := satNat 0xFFFF (a + n)

/-! ## Loading a tile into a core (R245) -/

/-- A core's store, counters and registers while it loads or computes. -/
structure CoreRun where
  m : Table Byte
  st : CoreSt
  regs : CoreRegs := {}
  deriving DecidableEq, Repr

/-- What a transfer brings into core store: offsets and bytes, in ascending order. -/
abbrev Puts := List (Nat × Bytes)

/-- The positions of a tile's input span. -/
def spanList (r : LayerRec) (b : Box) : List (Nat × Nat) :=
  if b.positions = 0 then []
  else (List.range (spanH r b.h)).flatMap fun iy => (List.range (spanW r b.w)).map fun ix => (iy, ix)

/-- The activations of an array tile as they enter core store, and the core's counters after them. -/
def State.loadActs (s : State) (x : Run) (f : Refs) (c : Ctx) (b : Box) (a : CoreSt) : Puts × CoreSt :=
  (spanList c.r b).foldl (fun (u : Puts × CoreSt) p =>
    let v := s.loadPos x f c b p.1 p.2
    (u.1 ++ [(c.actAt b p.1 p.2 0, v.raws.flatMap fun w => leBytes c.actBytes w)],
      { u.2 with
        actClip := clip16 u.2.actClip v.clips
        badIn := if v.bad then u.2.badIn ++ [p.1 * spanW c.r b.w + p.2] else u.2.badIn }))
    ([], { a with badIn := [] })

/-- The output channels of a tile with their numbers in the layer. -/
def Box.ks (b : Box) : List Nat := (List.range b.kn).map fun k => b.k0 + k

/-- The weight scales of a tile from the layer's tables (R220, R231). -/
def Ctx.loadScales (c : Ctx) (b : Box) : Puts :=
  if !c.scaled then []
  else if c.perGroup then
    let g := groups c.r
    (List.range b.kn).flatMap fun k => (List.range (taps c.r)).map fun t =>
      (c.scalesAt b + 2 * ((k * taps c.r + t) * c.groupsOf b),
        (c.tab.drop (scaleOff c.r + 2 * (((b.k0 + k) * taps c.r + t) * g))).take (2 * g))
  else [(c.scalesAt b, (c.tab.drop (scaleOff c.r + 2 * b.k0)).take (2 * b.kn))]

/-- The image of a tile of MATMUL_AA's second operand, laid out as weight blocks are (R189, R669), and the blocks that a
poisoned line touches. Under BUCKET the aux rows beyond the length read as zero. -/
def State.auxImage (s : State) (x : Run) (f : Refs) (c : Ctx) (b : Box) : Bytes × List Nat :=
  let n := c.imgCpb
  let e := fmtBytes (wFmt c.r)
  let live : Nat := match c.dyn with
    | some d => if dynAxis c.r = 2 then min (inC c.r) d.len else inC c.r
    | none => inC c.r
  let blocks := (List.range (b.kPad / 32)).flatMap fun kb => (List.range (taps c.r)).flatMap fun t =>
    (List.range (b.cBlocks c.r)).map fun cb => (kb, t, cb)
  let parts := blocks.map fun q =>
    (List.range 32).map fun k => (List.range n).map fun l =>
      let kk := q.1 * 32 + k
      let ch := q.2.2 * n + l
      if kk < b.kn ∧ ch < c.lanes b ∧ b.c0 + ch < live then s.refNat x f.aux (auxElem c.r q.2.1 (b.c0 + ch) (b.k0 + kk)) e
      else (0, false)
  (parts.flatMap fun p => p.flatMap fun k => k.flatMap fun v => leBytes e v.1,
    (List.range parts.length).filter fun i => (parts.getD i []).any fun k => k.any Prod.snd)

/-- The A and B blocks of an adapter for a tile: BF16 rows of A over the tile's channels, rows of B of its output channels
(R595, R598). -/
def State.loadAdapter (s : State) (c : Ctx) (b : Box) : Puts :=
  match c.ad with
  | none => []
  | some d =>
    ((List.range d.rank).map fun j =>
      (c.adAAt b + 2 * j * c.cPad b, readBytes 0 s.addr.lp5x (d.aAt + 2 * (j * inC c.r + b.c0)) (2 * c.lanes b)))
      ++ [(c.adBAt b d.rank, readBytes 0 s.addr.lp5x (d.bAt + 2 * b.k0 * d.rank) (2 * b.kn * d.rank))]

/-! ## Computing an array tile (R179) -/

/-- A weight of the image in core store: its raw code. -/
def Ctx.codeAt (c : Ctx) (m : Table Byte) (core : Nat) (b : Box) (k t ch : Nat) : Nat :=
  let bits := fmtBits (wFmt c.r)
  let bit := ch % c.imgCpb * bits
  cGet m core (c.wAt + imageOff c.r b k t (ch / c.imgCpb) + bit / 8) 3 / 2 ^ (bit % 8) % 2 ^ bits

/-- A weight scale of a tile (R126). -/
def Ctx.scaleAt (c : Ctx) (m : Table Byte) (core : Nat) (b : Box) (k t g : Nat) : Fp :=
  fmtFp16.decode (cGet m core (c.scalesAt b + 2 * ((k * taps c.r + t) * c.groupsOf b + g)) 2)

/-- The activation code under tap `t` of output position `p`. -/
def Ctx.actUnder (c : Ctx) (m : Table Byte) (core : Nat) (b : Box) (p t ch : Nat) : Nat :=
  let iy := p / b.w * strideH c.r + t / winW c.r * dilH c.r
  let ix := p % b.w * strideW c.r + t % winW c.r * dilW c.r
  cGet m core (c.actAt b iy ix ch) c.actBytes

/-- The input position under tap `t` of output position `p`, by number. -/
def Ctx.under (c : Ctx) (b : Box) (p t : Nat) : Nat :=
  (p / b.w * strideH c.r + t / winW c.r * dilH c.r) * spanW c.r b.w + p % b.w * strideW c.r + t % winW c.r * dilW c.r

/-- The weight block that the array holds while it serves every position of a tile (R179): its codes, channel by channel and
lane by lane, as they lay in core store when it was loaded; and the LUT entries of the layer run (R130). -/
structure WBlock where
  lanes : Nat
  codes : List Nat
  lut : List Int
  deriving DecidableEq, Repr

/-- load_weight_block(kb, tap, cb). -/
def Ctx.loadBlock (c : Ctx) (m : Table Byte) (core : Nat) (b : Box) (kb t cb : Nat) (lut : List Int) : WBlock :=
  { lanes := c.cpb
    codes := (List.range' (32 * kb) 32).flatMap fun k => (List.range' (cb * c.cpb) c.cpb).map fun ch => c.codeAt m core b k t ch
    lut := lut }

/-- The code of a channel and a lane of the block. -/
def WBlock.code (w : WBlock) (k ch : Nat) : Nat := w.codes.getD (k % 32 * w.lanes + ch % w.lanes) 0

/-- What a code stands for on the integer paths: its LUT entry, or the code itself (R123). -/
def WBlock.value (w : WBlock) (f code : Nat) : Int := if f = 3 ∨ f = 4 then fmtInt f code else w.lut.getD code 0

/-- The LUT entries of a layer: from its grid table, or the default grid (R123 to R125). -/
def lutOf (r : LayerRec) (tab : Bytes) : List Int :=
  if wFmt r ≤ 2 then (List.range (2 ^ fmtBits (wFmt r))).map (lutValue (wFmt r) (userTable r tab)) else []

/-- The exact sum of a beat's products over lanes `lo` to `hi - 1` on the integer paths (R129, R131). -/
def Ctx.intSum (c : Ctx) (w : WBlock) (m : Table Byte) (core : Nat) (b : Box) (k p t lo hi : Nat) : Int :=
  ((List.range' lo (hi - lo)).map fun ch =>
    w.value (wFmt c.r) (w.code k ch) * fmtInt c.act (c.actUnder m core b p t ch)).sum

/-- The exact sum of a beat's products on the floating paths (R133). -/
def Ctx.fpSum (c : Ctx) (w : WBlock) (m : Table Byte) (core : Nat) (b : Box) (k p t lo hi : Nat) : Fp :=
  (List.range' lo (hi - lo)).foldl (fun (v : Fp) ch =>
    v.add ((fmtVal (wFmt c.r) (w.code k ch)).mul (fmtVal c.act (c.actUnder m core b p t ch)))) (.num false 0 0)

/-- The limits of the integer accumulator (R131, R132). -/
def Ctx.accRange (c : Ctx) : Int × Int :=
  if c.act = 6 then (-(2 ^ 47), 2 ^ 47 - 1) else (-(2 ^ 31), 2 ^ 31 - 1)

/-- What a compute phase carries beside core store: saturated accumulators by position and channel, and of the present
output block the group accumulators and those of them that are saturated. -/
structure Acc where
  m : Table Byte
  sat : List Nat
  grp : Table Int
  gsat : List Nat
  deriving DecidableEq, Repr

/-- The number of an output of a tile. -/
def outKey (p k : Nat) : Nat := 4096 * p + k

/-- Read a signed accumulator. -/
def Ctx.readAcc (c : Ctx) (m : Table Byte) (core : Nat) (b : Box) (p k : Nat) : Int :=
  toSigned (8 * c.cell) (cGet m core (c.outAt b p k) c.cell)

/-- Flush a group's accumulator into its FP32 accumulator (R134). -/
def Ctx.flush (c : Ctx) (core : Nat) (b : Box) (k p t g : Nat) (a : Acc) : Acc :=
  let v := Table.get 0 a.grp (outKey p k)
  let f := f32v (BitVec.ofNat 32 (cGet a.m core (c.outAt b p k) 4))
  let n := rne32 (f.add ((Fp.ofInt v).mul (c.scaleAt a.m core b k t g)))
  { a with m := cPut a.m core (c.outAt b p k) (leBytes 4 n.toNat), grp := Table.set 0 a.grp (outKey p k) 0
           gsat := a.gsat.filter fun x => x != outKey p k }

/-- The pieces of lanes `lo` to `hi - 1` by weight-scale group, each with the end of its group. -/
def Ctx.segments (c : Ctx) (lo hi top : Nat) : List (Nat × Nat × Nat × Bool) :=
  let g := group c.r
  (List.range (ceilDiv hi g - lo / g)).filterMap fun i =>
    let n := lo / g + i
    let x := max lo (n * g)
    let y := min hi (n * g + g)
    if x < y then some (n, x, y, decide (y = n * g + g) || decide (y = top)) else none

/-- One lane group of a beat with per-group scales. -/
def Ctx.groupBeat (c : Ctx) (w : WBlock) (core : Nat) (b : Box) (k p t : Nat) (a : Acc) (q : Nat × Nat × Nat × Bool) : Acc :=
  let v := satInt c.accRange.1 c.accRange.2
    (Table.get 0 a.grp (outKey p k) + c.intSum w a.m core b k p t q.2.1 q.2.2.1)
  let a1 :=
    if a.gsat.contains (outKey p k) then a
    else if v.2 then
      { a with grp := Table.set 0 a.grp (outKey p k) v.1, sat := outKey p k :: a.sat, gsat := outKey p k :: a.gsat }
    else { a with grp := Table.set 0 a.grp (outKey p k) v.1 }
  if q.2.2.2 then c.flush core b k p t q.1 a1 else a1

/-- One beat of one output channel: accumulate(kb, p, tap, cb). -/
def Ctx.beat (c : Ctx) (w : WBlock) (core : Nat) (b : Box) (k t cb p : Nat) (a : Acc) : Acc :=
  let lo := cb * c.cpb
  let hi := min (lo + c.cpb) (c.lanes b)
  if !c.isInt then
    let v := rne32 ((f32v (BitVec.ofNat 32 (cGet a.m core (c.outAt b p k) 4))).add (c.fpSum w a.m core b k p t lo hi))
    { a with m := cPut a.m core (c.outAt b p k) (leBytes 4 v.toNat) }
  else if c.perGroup then (c.segments lo hi (c.lanes b)).foldl (c.groupBeat w core b k p t) a
  else if a.sat.contains (outKey p k) then a
  else
    let v := satInt c.accRange.1 c.accRange.2 (c.readAcc a.m core b p k + c.intSum w a.m core b k p t lo hi)
    { a with
      m := cPut a.m core (c.outAt b p k) (leBytes c.cell (rawInt (8 * c.cell) v.1))
      sat := if v.2 then outKey p k :: a.sat else a.sat }

/-- Clear the accumulators of an output block, on the first C tile of an output tile (R179, R232). -/
def Ctx.clear (c : Ctx) (core : Nat) (b : Box) (kb : Nat) (m : Table Byte) : Table Byte :=
  (List.range b.positions).foldl (fun (m : Table Byte) p =>
    (List.range' (32 * kb) (min 32 (b.kn - 32 * kb))).foldl (fun (m : Table Byte) k =>
      cPut m core (c.outAt b p k) (zeroBytes c.cell)) m) m

/-- The channels of an output block. -/
def Box.blockKs (b : Box) (kb : Nat) : List Nat := List.range' (32 * kb) (min 32 (b.kn - 32 * kb))

/-- The loops of R179 over taps, input blocks, positions and channels of one output block; and the block loaded last. -/
def Ctx.blockLoops (c : Ctx) (core : Nat) (b : Box) (kb : Nat) (lut : List Int) (a : Acc × List Nat) : Acc × List Nat :=
  (List.range (taps c.r)).foldl (fun (a : Acc × List Nat) t =>
    (List.range (ceilDiv (c.cPad b) c.cpb)).foldl (fun (a : Acc × List Nat) cb =>
      let w := c.loadBlock a.1.m core b kb t cb lut
      ((List.range b.positions).foldl (fun (a : Acc) p =>
        (b.blockKs kb).foldl (fun (a : Acc) k => c.beat w core b k t cb p a) a) a.1, w.codes)) a) a

/-! ## Requantisation (R138 to R140) -/

/-- A requantisation entry of an output channel: m, b, K. -/
def Ctx.mulOf (c : Ctx) (k : Nat) : F32 :=
  let m := BitVec.ofNat 32 (leAt c.tab (requantOff c.r + 16 * k) 4)
  if c.wide then f32mul m (wideRatio c.r) else m
/-- The offset b. -/
def Ctx.bk (c : Ctx) (k : Nat) : F32 := BitVec.ofNat 32 (leAt c.tab (requantOff c.r + 16 * k + 4) 4)
/-- The integer correction K. -/
def Ctx.kInt (c : Ctx) (k : Nat) : Int := if c.wide then 0 else toSigned 64 (leAt c.tab (requantOff c.r + 16 * k + 8) 8)
/-- The FP32 correction K. -/
def Ctx.kFp (c : Ctx) (k : Nat) : F32 := if c.wide then 0 else BitVec.ofNat 32 (leAt c.tab (requantOff c.r + 16 * k + 8) 4)

/-- The value v of an output (R139), `k` within the tile. -/
def Ctx.value (c : Ctx) (m : Table Byte) (core : Nat) (b : Box) (p k : Nat) : F32 :=
  let kk := b.k0 + k
  if !c.isInt then f32fma (BitVec.ofNat 32 (cGet m core (c.outAt b p k) 4)) (c.mulOf kk) (c.bk kk)
  else if c.perGroup then
    f32fma (f32sub (BitVec.ofNat 32 (cGet m core (c.outAt b p k) 4)) (c.kFp kk)) (c.mulOf kk) (c.bk kk)
  else rne32 (((Fp.ofInt (c.readAcc m core b p k - c.kInt kk)).mul (f32v (c.mulOf kk))).add (f32v (c.bk kk)))

/-- The contribution of the adapter to an output (R597): h enters the array as BF16 (log entry 53). -/
def Ctx.adapted (c : Ctx) (m : Table Byte) (core : Nat) (b : Box) (p k : Nat) (v : F32) : F32 :=
  match c.ad with
  | none => v
  | some d =>
    let term (j : Nat) : Fp :=
      (fmtBf16.decode (cGet m core (c.adBAt b d.rank + 2 * (k * d.rank + j)) 2)).mul
        (fmtBf16.decode (fmtBf16.convert (f32v (BitVec.ofNat 32 (cGet m core (c.hAt b p j d.rank) 4)))).1)
    let sum := (List.range (ceilDiv d.rank 8)).foldl (fun (acc : F32) n =>
      rne32 ((List.range' (8 * n) (min 8 (d.rank - 8 * n))).foldl (fun (u : Fp) j => u.add (term j)) (.num false 0 0) |>.add (f32v acc))) 0
    f32fma (f32mul d.scale sum) d.recip v

/-- Form h over the tile's channels for one position and row of A (R597), eight channels a beat. -/
def Ctx.hStep (c : Ctx) (core : Nat) (b : Box) (rank p j : Nat) (m : Table Byte) : Table Byte :=
  let x (ch : Nat) : Fp :=
    let q := c.actUnder m core b p 0 ch
    let z : Fp := if fmtIsInt c.act then Fp.ofInt (fmtInt c.act q - c.za) else fmtVal c.act q
    fmtBf16.decode (fmtBf16.convert (f32v (rne32 ((f32v c.sa).mul z)))).1
  let w (ch : Nat) : Fp := fmtBf16.decode (cGet m core (c.adAAt b + 2 * (j * c.cPad b + ch)) 2)
  let v := (List.range (ceilDiv (c.lanes b) 8)).foldl (fun (acc : F32) n =>
    rne32 ((List.range' (8 * n) (min 8 (c.lanes b - 8 * n))).foldl (fun (u : Fp) ch => u.add ((x ch).mul (w ch))) (.num false 0 0)
      |>.add (f32v acc))) (BitVec.ofNat 32 (if b.c0 = 0 then 0 else cGet m core (c.hAt b p j rank) 4))
  cPut m core (c.hAt b p j rank) (leBytes 4 v.toNat)

/-- Form h for every position of a tile. -/
def Ctx.hTile (c : Ctx) (core : Nat) (b : Box) (m : Table Byte) : Table Byte :=
  match c.ad with
  | none => m
  | some d => (List.range b.positions).foldl (fun (m : Table Byte) p =>
      (List.range d.rank).foldl (fun (m : Table Byte) j => c.hStep core b d.rank p j m) m) m

/-- Poison of an output position's block of channels (R271). -/
def Ctx.blockBad (c : Ctx) (b : Box) (st : CoreSt) (badW : List Nat) (p kb : Nat) : Bool :=
  c.tabBad
    || (List.range (taps c.r)).any (fun t => st.badIn.contains (c.under b p t))
    || badW.any fun w => w / (taps c.r * b.cBlocks c.r) == kb
    || (List.range' (32 * kb) 32).any fun k => st.badOut.contains (outKey p k)

/-- The poisoned outputs of an output block. -/
def Ctx.badOfBlock (c : Ctx) (b : Box) (st : CoreSt) (badW : List Nat) (kb : Nat) : List Nat :=
  ((List.range b.positions).filter fun p => c.blockBad b st badW p kb).flatMap fun p => (b.blockKs kb).map fun k => outKey p k

/-- Requantise one output in place: its element at the start of its cell; and whether it clipped (R132, R140). -/
def Ctx.requantOne (c : Ctx) (core : Nat) (b : Box) (u : Table Byte × Nat) (sat bad : List Nat) (p k : Nat) : Table Byte × Nat :=
  let v := c.adapted u.1 core b p k (c.value u.1 core b p k)
  let q := fmtStore (outFmt c.r) (zO c.r) v
  let clipped := (q.2 || sat.contains (outKey p k)) && !bad.contains (outKey p k)
  (cPut u.1 core (c.outAt b p k) (leBytes (fmtBytes (outFmt c.r)) q.1), u.2 + b2n clipped)

/-- requantise_in_place(kb). -/
def Ctx.requant (c : Ctx) (core : Nat) (b : Box) (kb : Nat) (sat bad : List Nat) (m : Table Byte) : Table Byte × Nat :=
  (List.range b.positions).foldl (fun (u : Table Byte × Nat) p =>
    (b.blockKs kb).foldl (fun (u : Table Byte × Nat) k => c.requantOne core b u sat bad p k) u) (m, 0)

/-- The last C tile of an output tile (R232). -/
def Ctx.lastC (c : Ctx) (b : Box) : Bool := decide (inC c.r ≤ b.c0 + b.cn)

/-- One output block of a compute phase. -/
def Ctx.computeBlock (c : Ctx) (core : Nat) (b : Box) (badW : List Nat) (a : CoreRun) (kb : Nat) : CoreRun :=
  let m0 := if b.c0 = 0 then c.clear core b kb a.m else a.m
  let x0 : Acc := { m := m0, sat := a.st.sat, grp := [], gsat := [] }
  let l := c.blockLoops core b kb a.regs.lut (x0, a.regs.block)
  let x := l.1
  let regs := { a.regs with block := l.2 }
  let bad := c.badOfBlock b a.st badW kb
  if !c.lastC b then { m := x.m, st := { a.st with sat := x.sat, badOut := a.st.badOut ++ bad }, regs := regs }
  else
    let q := c.requant core b kb x.sat bad x.m
    let st := { a.st with sat := x.sat, badOut := a.st.badOut ++ bad, outClip := clip16 a.st.outClip q.2 }
    { m := q.1, st := st, regs := regs }

/-- Compute an array tile in a core (R179, R598). -/
def Ctx.computeArray (c : Ctx) (core : Nat) (b : Box) (badW : List Nat) (a : CoreRun) : CoreRun :=
  let a0 := if b.c0 = 0 then { a with st := { a.st with sat := [], badOut := [] } } else a
  let a1 := { a0 with m := c.hTile core b a0.m }
  (List.range (b.kPad / 32)).foldl (c.computeBlock core b badW) a1

end Sys2Proof.Machine
end

