-- ==== Sys2Proof/Machine/CoreVec.lean ====
section
/-!
DEFINITION. The vector unit's operators in a core (R200, R201, R206, R142, Table 8-7).
-/

namespace Sys2Proof.Machine

open LayerRec PieceRec

namespace Ctx

/-- The parameter block of a vector operator (Table 8-7). -/
def par (c : Ctx) (o n : Nat) : Nat := leAt c.tab (requantOff c.r + o) n
/-- fn, variant, eps, lo, hi, m, b. -/
def fnCode (c : Ctx) : Nat := c.par 0 1
def variant (c : Ctx) : Nat := c.par 1 1
def eps (c : Ctx) : F32 := BitVec.ofNat 32 (c.par 4 4)
def lo (c : Ctx) : F32 := BitVec.ofNat 32 (c.par 8 4)
def hi (c : Ctx) : F32 := BitVec.ofNat 32 (c.par 12 4)
def outM (c : Ctx) : F32 := BitVec.ofNat 32 (c.par 16 4)
def outB (c : Ctx) : F32 := BitVec.ofNat 32 (c.par 20 4)
/-- gamma and beta of a channel. -/
def gammaBeta (c : Ctx) (ch : Nat) : F32 × F32 := (BitVec.ofNat 32 (c.par (32 + 8 * ch) 4), BitVec.ofNat 32 (c.par (36 + 8 * ch) 4))
/-- The operator has a second input of the first one's shape. -/
def twoInputs (c : Ctx) : Bool := opKind c.r == 0x10 || opKind c.r == 0x11 || opKind c.r == 0x16

end Ctx

/-! ## Inputs -/

/-- Where an input element of a vector tile lies: in src_buf, in aux_buf, or nowhere (padding), `bad` where a poisoned index
named it. -/
inductive VecIn where
  | src (off : Nat)
  | aux (off : Nat)
  | zero (bad : Bool)
  deriving DecidableEq, Repr

/-- Row and column of output position `p` of a tile. -/
def Box.posAt (b : Box) (p : Nat) : Nat × Nat := (b.y0 + p / b.w, b.x0 + p % b.w)

/-- Entry `n` of a segment list: a start position, and whether its line is poisoned (R206). -/
def State.segStart (s : State) (x : Run) (f : Refs) (c : Ctx) (n : Nat) : Nat × Bool := s.refNat x f.aux (auxOff c.r + 4 * n) 4

/-- The starts of a tile's segments and the end of the last: the next start, or the end of the input (log entry 54). -/
def State.segBounds (s : State) (x : Run) (f : Refs) (c : Ctx) (b : Box) : List (Nat × Bool) :=
  let out := outH c.r * outW c.r
  let nth (p : Nat) : Nat := (b.posAt p).1 * outW c.r + (b.posAt p).2
  (List.range b.positions).flatMap fun p =>
    [s.segStart x f c (nth p),
     if nth p + 1 < out then s.segStart x f c (nth p + 1) else (inH c.r * inW c.r, false)]

/-- Where channel `ch` of input position (y, x) of a vector operator lies: at once, or by the index list (R202). -/
def State.vecAt (s : State) (x : Run) (f : Refs) (c : Ctx) (y q ch : Nat) : VecIn :=
  if y < c.rowsIn ∧ q < c.colsIn then
    (if LayerRec.gather c.r then
      match s.gatherPos x f c q with
      | .at r z => .src (inOff c.r r z ch)
      | .null _ bad => .zero bad
      | .pad => .zero false
     else .src (inOff c.r y q ch))
  else .zero false

/-- Channel `ch` of a position of the second input, laid out as the first (log entry 57). -/
def Ctx.vecAux (c : Ctx) (y q ch : Nat) : VecIn :=
  if y < c.rowsIn ∧ q < c.colsIn then .aux (auxOff c.r + y * srcPitch c.r + (q * inC c.r + ch) * fmtBytes (inFmt c.r)) else .zero false

/-- The input elements of a vector tile, in the order in which core store holds them. The stride, window, dilation and padding
fields of a vector record, which Table 7-3 admits and the spec gives no effect, are not used: position (y, x) of the input goes
with position (y, x) of the output (log entry 127). -/
def State.vecIns (s : State) (x : Run) (f : Refs) (c : Ctx) (b : Box) : List VecIn :=
  let chs := List.range b.cn
  let ps := (List.range b.positions).map b.posAt
  if opKind c.r = 0x15 then
    let l := s.segBounds x f c b
    (List.range b.positions).flatMap fun p =>
      let a := (l.getD (2 * p) (0, false)).1
      let z := (l.getD (2 * p + 1) (0, false)).1
      (List.range' a (z - a)).flatMap fun q => chs.map fun ch => s.vecAt x f c (q / inW c.r) (q % inW c.r) (b.c0 + ch)
  else if opKind c.r = 0x17 then
    let n := c.variant
    ps.flatMap fun q => chs.map fun ch =>
      s.vecAt x f c (q.1 / n) (q.2 / n) (Config.shuffleChan n (inC c.r) (b.c0 + ch) (q.1 % n) (q.2 % n) % inC c.r)
  else
    let one := ps.flatMap fun q => chs.map fun ch => s.vecAt x f c q.1 q.2 (b.c0 + ch)
    if c.twoInputs then one ++ ps.flatMap fun q => chs.map fun ch => c.vecAux q.1 q.2 (b.c0 + ch) else one

/-- The inputs of a vector tile as they enter the activation buffer, as stored. -/
def State.loadVec (s : State) (x : Run) (f : Refs) (c : Ctx) (b : Box) (a : CoreSt) : Puts × CoreSt :=
  let e := fmtBytes (inFmt c.r)
  let vals := (s.vecIns x f c b).map fun v =>
    match v with
    | .src o => s.refNat x f.src o e
    | .aux o => s.refNat x f.aux o e
    | .zero bad => (padRaw (inFmt c.r) (zA c.r), bad)
  ([(4096 * aBase c.r, vals.flatMap fun v => leBytes e v.1)],
    { a with badIn := (List.range vals.length).filter fun i => (vals.getD i (0, false)).2 })

/-! ## Values -/

/-- Input element `i` of a vector tile, as FP32. -/
def Ctx.vecIn (c : Ctx) (m : Table Byte) (core i : Nat) : F32 :=
  let e := fmtBytes (inFmt c.r)
  toF32 (inFmt c.r) (cGet m core (4096 * aBase c.r + i * e) e)

/-- A NaN. -/
def isNan32 (x : F32) : Bool := (f32v x).isNan

/-- The result of an FP32 operation whose value the spec leaves open: a NaN is the canonical one (R666). -/
def canonNan (x : F32) : F32 := if isNan32 x then 0x7FC00000 else x

/-- The sum of a list in ascending order, one rounding for each addition (R201, R666). -/
def sum32 (l : List F32) : F32 := l.foldl f32add 0

/-- The mean of a list. -/
def mean32 (l : List F32) : F32 := f32div (sum32 l) (rne32 (Fp.ofInt (l.length : Nat)))

/-- The largest of a list, in ascending order. -/
def max32 : List F32 → F32
  | [] => 0
  | x :: t => t.foldl (fun (a : F32) v => if (f32v a).lt (f32v v) then v else a) x

/-- One element of a normalisation: both reductions in ascending order; the evaluation of each element is open (R201, log entry
55). -/
def Ctx.normOf (c : Ctx) (l : List F32) (g : F32 × F32) (i : Nat) : F32 :=
  let m := mean32 l
  let v := mean32 (l.map fun x => canonNan (Config.vecNormTerm c.variant m x))
  canonNan (Config.vecNorm c.variant c.eps m v (l.getD i 0) g.1 g.2)

/-- One element of a softmax: the denominator in ascending order; the exponential is open (R201, log entry 55). -/
def softmaxOf (l : List F32) (i : Nat) : F32 :=
  let e := l.map fun x => canonNan (Config.vecExp (max32 l) x)
  f32div (e.getD i 0) (sum32 e)

/-- One element of COMBINE: the partials in ascending order; how they combine is open (R201, log entry 55). -/
def combineOf (l partials : List F32) (i : Nat) : F32 :=
  canonNan (Config.vecCombine (l.getD i 0) (partials.foldl (fun a x => canonNan (Config.vecFold a x)) 0))

/-- An activation function (Table 8-7). -/
def Ctx.actOf (c : Ctx) (x : F32) : F32 :=
  if c.fnCode = 0 then (if isNan32 x then canonNan (Config.vecAct 0 x) else if (Fp.num false 0 0).lt (f32v x) then x else 0)
  else if c.fnCode = 5 then
    (if isNan32 x then canonNan (Config.vecAct 5 x)
     else if (f32v x).lt (f32v c.lo) then c.lo else if (f32v c.hi).lt (f32v x) then c.hi else x)
  else canonNan (Config.vecAct c.fnCode x)

/-- The most negative finite value of an output format (R206). -/
def lowestOf (f z : Nat) : F32 :=
  if fmtIsInt f then rne32 (Fp.ofInt ((fmtRange f).1 - if f = 5 then z else 0))
  else rne32 ((fpOf f).decode ((fpOf f).signBit + (fpOf f).maxBits))

/-- A segment reduction in ascending order (R206). A NaN is no number that another is greater than: a maximum keeps the value it
has unless that is less than the next one, so that a NaN at a segment's start stays and a later one is passed over (log entry
126). -/
def Ctx.segOf (c : Ctx) (l : List F32) : F32 :=
  match l with
  | [] => if segOp c.r = 2 then lowestOf (outFmt c.r) (zO c.r) else 0
  | x :: t =>
    if segOp c.r = 2 then max32 (x :: t) else if segOp c.r = 1 then mean32 (x :: t) else sum32 (x :: t)

/-- The value of an output element of a vector tile before the output multiplier, and the inputs that it reduces. -/
def Ctx.vecValue (c : Ctx) (m : Table Byte) (core : Nat) (b : Box) (segs : List (Nat × Nat)) (p ch : Nat) : F32 × List Nat :=
  let i := p * b.cn + ch
  let n := b.positions * b.cn
  let k := opKind c.r
  if k = 0x10 then (f32add (c.vecIn m core i) (c.vecIn m core (n + i)), [i, n + i])
  else if k = 0x11 then (f32mul (c.vecIn m core i) (c.vecIn m core (n + i)), [i, n + i])
  else if k = 0x12 then (c.actOf (c.vecIn m core i), [i])
  else if k = 0x13 then
    let l := (List.range b.cn).map fun q => p * b.cn + q
    (c.normOf (l.map (c.vecIn m core)) (c.gammaBeta (b.c0 + ch)) ch, l)
  else if k = 0x14 then
    if c.variant = 0 then
      let l := (List.range b.cn).map fun q => p * b.cn + q
      (softmaxOf (l.map (c.vecIn m core)) ch, l)
    else
      let l := (List.range b.positions).map fun q => q * b.cn + ch
      (softmaxOf (l.map (c.vecIn m core)) p, l)
  else if k = 0x15 then
    let q := segs.getD p (0, 0)
    let l := (List.range q.2).map fun j => (q.1 + j) * b.cn + ch
    (c.segOf (l.map (c.vecIn m core)), l)
  else if k = 0x16 then
    let l := (List.range b.cn).map fun q => p * b.cn + q
    (combineOf (l.map (c.vecIn m core)) (l.map fun q => c.vecIn m core (n + q)) ch, l ++ l.map fun q => n + q)
  else (c.vecIn m core i, [i])

/-- The segments of a tile as they lie in core store: first input and count, and whether a bound is out of order or from a
poisoned line. -/
def segPlaces : Nat → List (Nat × Bool) → List (Nat × Nat × Bool × Bool)
  | n, a :: z :: t => (n, z.1 - a.1, decide (z.1 < a.1), a.2 || z.2) :: segPlaces (n + (z.1 - a.1)) t
  | _, _ => []

/-- Compute a vector tile in a core: results to the output buffer (R142, R200). A segment whose bounds do not ascend gives
a free value (R206). -/
def State.computeVec (s : State) (x : Run) (f : Refs) (c : Ctx) (core : Nat) (b : Box) (a : CoreRun) : CoreRun :=
  let places := if opKind c.r = 0x15 then segPlaces 0 (s.segBounds x f c b) else []
  let segs := places.map fun q => (q.1, q.2.1)
  (List.range (b.positions * b.cn)).foldl (fun (u : CoreRun) i =>
    let p := i / b.cn
    let ch := i % b.cn
    let pl := places.getD p (0, 0, false, false)
    let v := c.vecValue u.m core b segs p ch
    let empty := opKind c.r == 0x15 && pl.2.1 == 0
    let w := if pl.2.2.1 then Config.freeWord (s.fresh + i) else if empty then v.1 else f32fma v.1 c.outM c.outB
    let bad := c.tabBad || pl.2.2.2 || v.2.any fun j => u.st.badIn.contains j
    let q := fmtStore (outFmt c.r) (zO c.r) w
    { u with
      m := cPut u.m core (c.outAt b p ch) (leBytes (fmtBytes (outFmt c.r)) q.1)
      st := { u.st with
        outClip := if q.2 && !bad then clip16 u.st.outClip 1 else u.st.outClip
        badOut := if bad then u.st.badOut ++ [outKey p ch] else u.st.badOut } })
    { a with st := { a.st with badOut := [], sat := [] } }

/-- Compute a tile. -/
def State.computeTile (s : State) (x : Run) (f : Refs) (c : Ctx) (core : Nat) (b : Box) (badW : List Nat) (a : CoreRun) : CoreRun :=
  if isArray c.r then c.computeArray core b badW a else s.computeVec x f c core b a

/-! ## What a tile reads (R242) -/

/-- A range of a reference: the buffer reference byte, offset and length. -/
abbrev Need := Nat × Nat × Nat

/-- The ranges that an input position of an array tile reads. -/
def State.posNeeds (s : State) (x : Run) (f : Refs) (c : Ctx) (b : Box) (iy ix : Nat) : List Need :=
  match c.rawPos b iy ix with
  | none => []
  | some (_, n) =>
    let idx : List Need := if LayerRec.gather c.r then [(auxBuf c.r, auxOff c.r + 4 * n, 4)] else []
    let row : List Need :=
      match s.inPos x f c b iy ix with
      | .at y col =>
        let blk := if rotBlock c.r = 0 then 1 else 16 * 2 ^ rotBlock c.r
        let lo := b.c0 / blk * blk
        let hi := min (roundUp (b.c0 + c.lanes b) blk) c.cLimit
        [(srcBuf c.r, inOff c.r y col lo, (hi - lo) * fmtBytes (inFmt c.r))]
      | _ => []
    if LayerRec.gather c.r && ((List.range 4).any fun i => (s.refByte x f.aux (auxOff c.r + 4 * n + i)).isNone) then idx else idx ++ row

/-- The ranges of the second operand of MATMUL_AA. -/
def Ctx.auxNeeds (c : Ctx) (b : Box) : List Need :=
  if opKind c.r ≠ 1 then []
  else
    let live : Nat := match c.dyn with
      | some d => if dynAxis c.r = 2 then min (inC c.r) d.len else inC c.r
      | none => inC c.r
    (List.range (taps c.r)).flatMap fun t => (List.range (min (c.lanes b) (live - b.c0))).map fun ch =>
      (auxBuf c.r, auxElem c.r t (b.c0 + ch) b.k0, b.kn * fmtBytes (wFmt c.r))

/-- The entries of an index list or a segment list that a vector tile reads. -/
def Ctx.listNeeds (c : Ctx) (b : Box) : List Need :=
  if LayerRec.gather c.r then
    ((List.range b.w).map fun i => b.x0 + i).filterMap fun n =>
      if n < c.colsIn then some (auxBuf c.r, auxOff c.r + 4 * n, 4) else none
  else if opKind c.r = 0x15 then
    let n := (b.posAt 0).1 * outW c.r + (b.posAt 0).2
    let l := (b.posAt (b.positions - 1)).1 * outW c.r + (b.posAt (b.positions - 1)).2
    [(auxBuf c.r, auxOff c.r + 4 * n, 4 * (min (l + 2) (outH c.r * outW c.r) - n))]
  else []

/-- Every range that a core's part of a tile reads, in the order of its loads. -/
def State.needs (s : State) (x : Run) (f : Refs) (c : Ctx) (b : Box) : List Need :=
  if isArray c.r then (spanList c.r b).flatMap (fun p => s.posNeeds x f c b p.1 p.2) ++ c.auxNeeds b
  else if b.positions = 0 then []
  else
    let list := c.listNeeds b
    if list.any fun q => (List.range q.2.2).any fun i => (s.refByte x f.aux (q.2.1 + i)).isNone then list
    else
      list ++ (s.vecIns x f c b).filterMap fun v =>
        match v with
        | .src o => some (srcBuf c.r, o, fmtBytes (inFmt c.r))
        | .aux o => some (auxBuf c.r, o, fmtBytes (inFmt c.r))
        | .zero _ => none

/-- Every byte of a list of ranges is at hand. -/
def State.ready (s : State) (x : Run) (stage : Nat) (l : List Need) : Bool :=
  l.all fun q => (List.range q.2.2).all fun i => (s.refByte x (s.resolve x stage q.1) (q.2.1 + i)).isSome

/-- A list of ranges is complete: no index or segment list stands in for what it names. -/
def State.complete (s : State) (x : Run) (stage : Nat) (f : Refs) (c : Ctx) (b : Box) : Bool := s.ready x stage (s.needs x f c b)

end Sys2Proof.Machine
end

