-- ==== Sys2Proof/Machine/LayerRun.lean ====
section
/-!
DEFINITION. What a layer run of a command reads and writes beside its streams (chapters 7 to 10, 23): the run's context, its
weights and tables in the home banks (R218 to R220, R231, R247, R269), the hand-over tokens (R259 to R262) and the drain of a
column (R245, R252).
-/

namespace Sys2Proof.Machine

open LayerRec PieceRec

/-! ## The stage's piece and layer -/

/-- The pattern of a run. -/
def State.runPat (s : State) (x : Run) : Bytes := s.bindPattern (s.bind x.bind)

/-- The index of the piece that a stage runs, and the piece. -/
def Run.pieceIdx (x : Run) (stage : Nat) : Nat := x.pieces.getD stage 0
/-- The piece that a stage runs. -/
def State.pieceOf (s : State) (x : Run) (stage : Nat) : PieceRec := Pattern.piece (s.runPat x) (x.pieceIdx stage)

/-- A layer's record as it is stored. -/
def State.recAt (s : State) (x : Run) (stage layer : Nat) : LayerRec :=
  let pat := s.runPat x
  let p := s.pieceOf x stage
  s.extentRange pat (origin p) (layerAt (Pattern.pieces pat) (x.pieceIdx stage) layer) 128

/-- The number of stages of a run's pattern. -/
def State.stagesOf (s : State) (x : Run) : Nat := Pattern.stageCount (s.runPat x)

/-- The stages that a command runs. -/
def Run.stageList (x : Run) : List Nat := List.range' x.first (x.last + 1 - x.first)

/-- The dynamic dimension that a layer follows (R196, R210). -/
def dynOf (pat : Bytes) (r : LayerRec) (lens : List Nat) : Option Dyn :=
  if !dynEn r then none
  else
    let d := Pattern.dyn pat (dynDim r)
    if DynRec.isChips d then none else some { skip := DynRec.isSkip d, len := lens.getD (dynDim r) 0 }

/-! ## Adapters (R595, R597) -/

namespace Region
/-- Attachment entries. -/
def count (s : State) (a : Nat) : Nat := u s a 6 2
/-- The device address of an entry of the attachment table. -/
def entry (s : State) (a j : Nat) : Nat := a + u s a 36 4 + 64 * j
end Region

/-- The attachment entry of a layer of a piece, by its device address. -/
def State.entryOf (s : State) (base piece layer : Nat) : Option Nat :=
  ((List.range (Region.count s base)).map (Region.entry s base)).find? fun e =>
    Region.u s e 0 2 == piece && Region.u s e 2 2 == layer

/-- The adapter that a layer run applies (R597, R599). -/
def State.adapterOf (s : State) (x : Run) (stage layer : Nat) (r : LayerRec) : Option AdCtx :=
  match x.adapter with
  | none => none
  | some (base, _) =>
    if opKind r ≠ 0 then none
    else
      (s.entryOf base (x.pieceIdx stage) layer).map fun e =>
        { rank := Region.u s e 4 1, scale := BitVec.ofNat 32 (Region.u s e 8 4), recip := BitVec.ofNat 32 (Region.u s e 12 4)
          aAt := base + Region.u s e 16 4, bAt := base + Region.u s e 20 4 }

/-- What the present layer run of a stage is made of. -/
def State.ctxOf (s : State) (x : Run) (stage : Nat) : Ctx :=
  let t := x.stage stage
  let p := s.pieceOf x stage
  { r := t.record, nest := t.nest, tab := t.tab, tabBad := t.tabBad, dyn := dynOf (s.runPat x) t.record x.lens
    wide := t.rerun, gh := gh p, gw := gw p, half := t.half, ad := s.adapterOf x stage t.layer t.record }

/-- The tiles of a column of the present layer run. -/
def Ctx.tiles (c : Ctx) (col : Nat) : List Box := columnTiles c.r c.nest c.dyn c.gh col

/-- The part of a column's tile that a group row computes. -/
def Ctx.part (c : Ctx) (row : Nat) (b : Box) : Box := coreBox c.r c.dyn row b

/-! ## Reading the home banks (R69, R231, R247) -/

/-- Read `n` code words of an extent that begins at logical block `first` of a bank, from word `w` on. -/
def State.extentWords (s : State) (bank first w : Nat) : Nat → State × List WordRead
  | 0 => (s, [])
  | n + 1 =>
    let q := wordAt first 0 w
    let a := (s.readRow bank (q.1 * 64 + q.2 / 16)).readWord bank q.1 q.2
    let t := a.1.extentWords bank first (w + 1) n
    (t.1, a.2 :: t.2)

/-- Read a byte range of an extent: the bytes, and the code words of the extent that were uncorrectable. -/
def State.extentRead (s : State) (pat : Bytes) (bank o len : Nat) : State × Bytes × List Nat :=
  if len = 0 then (s, [], [])
  else
    let w := o / 256
    let n := (o + len - 1) / 256 - w + 1
    let a := s.extentWords bank (Pattern.first pat bank) w n
    (a.1, ((a.2.flatMap fun x => x.data).drop (o % 256)).take len,
      (List.range n).filterMap fun i => if (a.2.getD i { data := [], flag := .erased, corrected := 0, uncorr := false }).uncorr then some (w + i) else none)

/-- A weight tile as the home banks give it: its image, and which of its bytes came from uncorrectable code words, as
half-open ranges. -/
structure TileRead where
  image : Bytes := []
  bad : List (Nat × Nat) := []
  deriving DecidableEq, Repr

/-- Read the shares of a weight tile from the home banks of rows `k` on (R219, R247). -/
def State.readShares (s : State) (pat : Bytes) (i col off share k : Nat) : Nat → State × TileRead
  | 0 => (s, {})
  | n + 1 =>
    let p := Pattern.piece pat i
    let bank := core p k col
    let o := stripeAt (Pattern.pieces pat) bank i + off
    let a := s.extentRead pat bank o share
    let t := a.1.readShares pat i col off share (k + 1) n
    let mine := a.2.2.map fun w => (k * share + (w * 256 - o), k * share + min share (w * 256 + 256 - o))
    (t.1, { image := a.2.1 ++ t.2.image, bad := mine ++ t.2.bad })

/-- Read the weight tile of a column's box. -/
def State.readTile (s : State) (pat : Bytes) (i : Nat) (r : LayerRec) (nest : NestRec) (col : Nat) (b : Box) : State × TileRead :=
  let p := Pattern.piece pat i
  let w : Box := { b with y0 := 0, h := 0, x0 := 0, w := 0 }
  let off := shareOff r (gh p) (weightTiles r nest col) w
  let a := s.readShares pat i col off (shareBytes (b.imageBytes r) (gh p)) 0 (gh p)
  (a.1, { a.2 with image := a.2.image.take (b.imageBytes r) })

/-- The weight blocks of an image that a poisoned line touches (R271). -/
def TileRead.blocks (t : TileRead) (r : LayerRec) : List Nat :=
  let n := 32 * blockCodes r
  (List.range (ceilDiv t.image.length n)).filter fun k => t.bad.any fun q => decide (q.1 < k * n + n) && decide (k * n < q.2)

/-- The poisoned 64-byte lines of an image. -/
def TileRead.lines (t : TileRead) : Nat := (t.bad.map fun q => ceilDiv (q.2 - q.1) 64).sum

/-- Poisoned or failing lines of the SAC that no stream moves: they count, and poison the command, but end none (R264, R302, log
entry 78). -/
def Run.sacLines (x : Run) (stage n : Nat) (l : FailLoc) : Run :=
  if n = 0 then x
  else
    let y := { x.countIn stage n with weightBad := true }
    if x.abort then y else y.noteFail l

/-- A weight, table or region line came in poisoned (R269, R599). -/
def Run.weightLines (x : Run) (stage n : Nat) : Run := if n = 0 then x else { x.countIn stage n with weightBad := true }

/-! ## Hand-over tokens (R259 to R262, R275) -/

/-- The key of a token: hand-over * 2 + slot. -/
def tokenKey (h slot : Nat) : Nat := h * 2 + slot

/-- A token of a binding. -/
def State.token (s : State) (k key : Nat) : Token := Table.get .free (s.bind k).tokens key

/-- Set a token. -/
def State.setToken (s : State) (k key : Nat) (v : Token) : State :=
  s.updBind k fun b => { b with tokens := Table.set .free b.tokens key v }

/-- The token that a layer of a stage needs to read, if it reads a hand-over slot. -/
def Run.readToken (x : Run) (stage : Nat) (r : LayerRec) : Option Nat :=
  if stage ≠ 0 ∧ (srcBuf r = 0x11 ∨ auxBuf r = 0x11) then some (tokenKey (stage - 1) (if stage = x.first then x.inPar else x.par))
  else none

/-- The token that a layer of a stage needs to write, if it writes a hand-over slot. -/
def State.writeToken (s : State) (x : Run) (stage : Nat) (r : LayerRec) : Option Nat :=
  if dstBuf r = 0x12 ∧ stage + 1 < s.stagesOf x then some (tokenKey stage x.par) else none

/-- Every layer of a stage after the present one, as stored. -/
def State.laterLayers (s : State) (x : Run) (stage : Nat) : List LayerRec :=
  let n := nLayers (s.pieceOf x stage)
  (List.range' ((x.stage stage).layer + 1) (n - 1 - (x.stage stage).layer)).map (s.recAt x stage)

/-- The slot that a CHAIN's first stage has still to read, once its producer has filled it. -/
def State.dueSlot (s : State) (x : Run) : Option Nat :=
  let p := s.pieceOf x x.first
  let n := (x.stage x.first).layer
  let due := (List.range' n (nLayers p - n)).findSome? fun l => x.readToken x.first (s.recAt x x.first l)
  if x.kind = .pattern ∧ x.chip.isNone ∧ !x.light ∧ decide ((x.stage x.first).phase ≠ .done) then
    due.filter fun k => decide (s.token x.bind k = .ready)
  else none

/-- The tokens of a command return to FREE: of the slots that it holds, and of the one that it has still to read (R275 step 6,
R283 step 4, R428). -/
def State.freeTokens (s : State) (x : Run) : State :=
  ((s.dueSlot x).toList ++ x.holds).foldl (fun (t : State) k => t.setToken x.bind k .free) s

/-- A stage of a command has finished with its group: a TRAIN step keeps every stage until it ends (R262, R603). -/
def Run.stageDone (x : Run) (n : Nat) : Bool := decide ((x.stage n).phase = .done) && x.train.isNone

/-- Another command of the binding, accepted earlier, still has a stage to run on this chip (R262). -/
def State.stageBusy (s : State) (k : Nat) (x : Run) (n : Nat) : Bool :=
  s.comp.runs.any fun p =>
    p.1 != k && p.2.bind == x.bind && p.2.kind == .pattern && p.2.chip.isNone && decide (p.2.order < x.order)
      && decide (p.2.first ≤ n) && decide (n ≤ p.2.last) && !p.2.stageDone n

/-! ## Draining a column (R245, R252) -/

/-- A reference's pseudo buffer number, for marks of lines that no command buffer holds. -/
def refKey (ref stage : Nat) : Nat := if ref < 16 then ref else 32 + stage * 4 + (ref - 16)

/-- Write a piece of at most one line at an offset of the SAC partition; beyond the tenant's capacity it fails (R302). -/
def State.putSac (s : State) (x : Run) (stage ref base off : Nat) (d : Bytes) (bad : Bool) : State × Run :=
  if base + off + d.length ≤ s.sacCapacity x.fn then (s.partWrite x.fn (base + off) d bad, x)
  else
    let l : FailLoc := { block := 0, buf := ref, stage := stage, write := true, line := off / 64 }
    (s, if x.abort then x.abortAt l .window else (x.noteFail l).markOut stage [lineKey (refKey ref stage) off / 64])

/-- Write bytes of an output through a buffer reference (R272). -/
def State.putRef (s : State) (x : Run) (stage : Nat) (f : Ref) (ref off : Nat) (d : Bytes) (bad beyond : Bool) : State × Run :=
  match f with
  | .cmd b => (s, x.putOut stage b off d bad beyond)
  | .sac base => (cut64 (d.length + 1) off d).foldl (fun (u : State × Run) q => u.1.putSac u.2 stage ref base q.1 q.2 bad) (s, x)
  | .none => (s, x)

/-- An output position lies beyond the actual length under BUCKET (R196). -/
def Ctx.beyondAt (c : Ctx) (y q : Nat) : Bool :=
  match c.dyn with
  | some d => !d.skip && (decide (rowLimit c.r c.dyn ≤ y) || decide (colLimit c.r c.dyn ≤ q))
  | none => false

/-- The channels of an output position that drain as one piece: blocks of 32, or single channels of a vector tile. -/
def Ctx.drainGroups (c : Ctx) (b : Box) : List (List Nat) :=
  if isArray c.r then (List.range (b.kPad / 32)).map b.blockKs else (List.range b.cn).map fun k => [k]

/-- The first output channel of a tile. -/
def Ctx.chBase (c : Ctx) (b : Box) : Nat := if isArray c.r then b.k0 else b.c0

/-- A run of output bytes that lie together in their buffer, each with whether it is poisoned. -/
structure OutRun where
  off : Nat
  data : List (Byte × Bool)
  beyond : Bool
  deriving DecidableEq, Repr

/-- One group of channels of one position, as core store holds it. -/
def Ctx.groupOut (c : Ctx) (m : Table Byte) (core : Nat) (b : Box) (st : CoreSt) (p : Nat) (ks : List Nat) : OutRun :=
  let e := fmtBytes (outFmt c.r)
  let q := b.posAt p
  { off := outOff c.r q.1 q.2 (c.chBase b + ks.headD 0)
    data := ks.flatMap fun k => (leBytes e (cGet m core (c.outAt b p k) e)).map fun v => (v, st.badOut.contains (outKey p k))
    beyond := c.beyondAt q.1 q.2 }

/-- The positions and groups of channels of a tile, in the order in which it drains. -/
def Ctx.drainOrder (c : Ctx) (b : Box) : List (Nat × List Nat) :=
  (List.range b.positions).flatMap fun p => (c.drainGroups b).map fun ks => (p, ks)

/-- Runs that follow each other are one: a line that a tile writes whole is written whole (R271, R301). -/
def joinRuns : List OutRun → List OutRun
  | [] => []
  | a :: t =>
    match joinRuns t with
    | [] => [a]
    | b :: u =>
      if a.off + a.data.length = b.off ∧ a.beyond = b.beyond then { a with data := a.data ++ b.data } :: u else a :: b :: u

/-- Write drained runs through a layer's destination, line by line: a line is poisoned if any byte of it is (R271). -/
def State.putRuns (s : State) (x : Run) (stage : Nat) (f : Refs) (r : LayerRec) (l : List OutRun) : State × Run :=
  ((joinRuns l).flatMap fun a => (cut64 (a.data.length + 1) a.off a.data).map fun q => (q.1, q.2, a.beyond)).foldl
    (fun (u : State × Run) q =>
      u.1.putRef u.2 stage f.dst (dstBuf r) q.1 (q.2.1.map Prod.fst) (q.2.1.any Prod.snd) q.2.2) (s, x)

/-- Drain a core's requantised outputs. -/
def State.drainCore (s : State) (x : Run) (stage : Nat) (f : Refs) (c : Ctx) (core : Nat) (b : Box) : State × Run :=
  let st := Table.get {} (x.stage stage).cores core
  s.putRuns x stage f c.r ((c.drainOrder b).map fun q => c.groupOut s.addr.cores core b st q.1 q.2)

/-- Change a column of a stage. -/
def Run.updCol (x : Run) (stage col : Nat) (g : ColSt → ColSt) : Run :=
  x.updStage stage fun t => { t with cols := Table.upd {} t.cols col g }

/-- A column of a stage. -/
def Run.col (x : Run) (stage col : Nat) : ColSt := Table.get {} (x.stage stage).cols col

/-- Drain the tile that a column holds: the one before its present tile. -/
def State.drainColumn (s : State) (x : Run) (stage col : Nat) : State × Run :=
  if !(x.col stage col).held then (s, x)
  else
    let c := s.ctxOf x stage
    let f := s.refsOf x stage c.r
    let p := s.pieceOf x stage
    match (c.tiles col)[(x.col stage col).tile - 1]? with
    | none => (s, x)
    | some b =>
      let u := (List.range c.gh).foldl (fun (u : State × Run) i =>
        if (c.part i b).positions = 0 then u else u.1.drainCore u.2 stage f c (core p i col) (c.part i b)) (s, x)
      (u.1, u.2.updCol stage col fun y => { y with held := false })

/-! ## Drift (R154, R155) -/

/-- The largest of a list of (core, count), the lowest core first. -/
def maxCore (l : List (Nat × Nat)) : Nat × Nat := l.foldl (fun a b => if a.2 < b.2 then b else a) (0, 0)

/-- The largest act_clip and out_clip of a group, and the core with the larger of the two; of equal ones the core of act_clip, of
several cores the first (R155, log entry 128). -/
def StageSt.clips (t : StageSt) : Nat × Nat × Nat :=
  let a := maxCore (t.cores.map fun p => (p.1, p.2.actClip))
  let o := maxCore (t.cores.map fun p => (p.1, p.2.outClip))
  (a.2, o.2, if a.2 < o.2 then o.1 else a.1)

/-- A layer run has drifted (R154). -/
def StageSt.drifted (t : StageSt) : Bool :=
  t.cores.any fun p => decide (satLimit t.record < p.2.actClip) || decide (satLimit t.record < p.2.outClip)

end Sys2Proof.Machine
end

