-- ==== Sys2Proof/Machine/Tape.lean ====
section
/-!
DEFINITION. The tape of a TRAIN step (R604): which layers it holds, where each layer's copy lies, and the copying of what the
forward pass reads.
-/

namespace Sys2Proof.Machine

open LayerRec PieceRec

/-- A layer's record in a pattern, as stored. -/
def State.patLayer (s : State) (pat : Bytes) (i layer : Nat) : LayerRec :=
  s.extentRange pat (origin (Pattern.piece pat i)) (layerAt (Pattern.pieces pat) i layer) 128

/-- The ranges of a layer's input, each as a buffer reference byte, an offset and a length, in the order in which the tape
holds them: the rows of the first input within the length, then what aux_buf holds. -/
def tapeRanges (r : LayerRec) (d : Option Dyn) : List (Nat × Nat × Nat) :=
  let c : Ctx := { r := r, nest := [], tab := [], tabBad := false, dyn := d, wide := false, gh := 1, gw := 1, half := 0, ad := none }
  let e := fmtBytes (inFmt r)
  let rows (ref at' : Nat) : List (Nat × Nat × Nat) :=
    (List.range c.rowsIn).map fun y => (ref, at' + y * srcPitch r, c.colsIn * inC r * e)
  let aux : List (Nat × Nat × Nat) :=
    if LayerRec.gather r then [(auxBuf r, auxOff r, 4 * c.colsIn)]
    else if opKind r = 1 then [(auxBuf r, auxOff r, taps r * inC r * outC r * fmtBytes (wFmt r))]
    else if opKind r = 0x15 then [(auxBuf r, auxOff r, 4 * outH r * outW r)]
    else if opKind r = 0x10 ∨ opKind r = 0x11 ∨ opKind r = 0x16 then rows (auxBuf r) (auxOff r)
    else []
  (if LayerRec.gather r then (List.range (inH r)).map fun y => (srcBuf r, srcOff r + y * srcPitch r, inC r * e)
   else rows (srcBuf r) (srcOff r)) ++ aux

/-- Bytes of a layer's copy in the tape. -/
def tapeBytes (r : LayerRec) (d : Option Dyn) : Nat := ((tapeRanges r d).map fun q => q.2.2).sum

/-- The layers of a list of pieces, by stage: stage, layer and record. -/
def State.layersOf (s : State) (pat : Bytes) (pieces : List Nat) : List (Nat × Nat × LayerRec) :=
  (List.range pieces.length).flatMap fun n =>
    let i := pieces.getD n 0
    (List.range (nLayers (Pattern.piece pat i))).map fun l => (n, l, s.patLayer pat i l)

/-- The taped layers: from the first one with an adapter on (R604). -/
def State.taped (s : State) (pat : Bytes) (pieces : List Nat) (a : Nat) : List (Nat × Nat × LayerRec) :=
  (s.layersOf pat pieces).dropWhile fun q => (s.entryOf a (pieces.getD q.1 0) q.2.1).isNone

/-- Where each taped layer's copy begins, and the bytes needed. -/
def tapeStarts (pat : Bytes) (lens : List Nat) : Nat → List (Nat × Nat × LayerRec) → List ((Nat × Nat) × Nat) × Nat
  | o, [] => ([], o)
  | o, q :: t =>
    let n := roundUp (tapeBytes q.2.2 (dynOf pat q.2.2 lens)) 64
    let u := tapeStarts pat lens (o + n) t
    (((q.1, q.2.1), o) :: u.1, u.2)

/-- The bytes of tape that a step needs. -/
def State.tapeNeed (s : State) (pat : Bytes) (pieces lens : List Nat) (a : Nat) : Nat :=
  (tapeStarts pat lens 0 (s.taped pat pieces a)).2

/-- Where the tape holds the byte at an offset of a reference, among the ranges of a layer from an offset of the tape on. -/
def tapePos (ref o : Nat) : Nat → List (Nat × Nat × Nat) → Option Nat
  | _, [] => none
  | at', q :: t =>
    if q.1 = ref ∧ q.2.1 ≤ o ∧ o < q.2.1 + q.2.2 then some (at' + (o - q.2.1)) else tapePos ref o (at' + q.2.2) t

/-- Cut a range into pieces that the tape holds together, as the offset in the range, the offset in the tape, and a length. -/
def tapeCuts (rs : List (Nat × Nat × Nat)) (at' ref : Nat) : Nat → Nat → Nat → List (Nat × Nat × Nat)
  | 0, _, _ => []
  | fuel + 1, o, e =>
    if e ≤ o then []
    else
      match rs.find? fun q => q.1 == ref && decide (q.2.1 ≤ o) && decide (o < q.2.1 + q.2.2), tapePos ref o at' rs with
      | some q, some p =>
        let n := min (min e (q.2.1 + q.2.2) - o) (64 - p % 64)
        (o, p, n) :: tapeCuts rs at' ref fuel (o + n) e
      | _, _ => tapeCuts rs at' ref fuel (o + 1) e

/-- Where the tape of the present layer of a stage begins in the region, and the layer's ranges; none where the layer is not
taped. -/
def State.tapeAt (s : State) (x : Run) (n : Nat) : Option (Nat × List (Nat × Nat × Nat)) :=
  match x.train, x.adapter with
  | some _, some (a, _) =>
    let pat := s.runPat x
    let starts := (tapeStarts pat x.lens 0 (s.taped pat x.pieces a)).1
    ((starts.find? fun p => p.1 == (n, (x.stage n).layer)).map fun p =>
      let r := (x.stage n).record
      (Region.u s a 40 4 + p.2, tapeRanges r (dynOf pat r x.lens)))
  | _, _ => none

/-- Copy what a tile's loads read to the tape, with its poison marks, for write slots to move (R604). Buffer 257 is the
region. -/
def State.tapeLoads (s : State) (x : Run) (n : Nat) (f : Refs) (l : List Need) : Run :=
  match s.tapeAt x n with
  | none => x
  | some (at', rs) =>
    let r := (x.stage n).record
    let lines := l.flatMap fun q =>
      let ref : Ref := if q.1 = srcBuf r then f.src else f.aux
      (tapeCuts rs at' q.1 (q.2.2 + 1) q.2.1 (q.2.1 + q.2.2)).map fun c =>
        let d := (List.range c.2.2).map fun i => (s.refByte x ref (c.1 + i)).getD (0, true)
        ({ buf := 257, off := c.2.1, data := d.map Prod.fst, poison := d.any Prod.snd, stage := n } : OutLine)
    { x with writes := x.writes ++ lines }

end Sys2Proof.Machine
end

