-- ==== Sys2Proof/Machine/Region.lean ====
section
/-!
DEFINITION. Adapter regions (R595, R596, R602, R604): the header and its attachment entries, and the check of a region.
-/

namespace Sys2Proof.Machine

open LayerRec PieceRec

/-! ## Fields (Tables 23-1, 23-2) -/

/-- Elements of a layer's A and B: rank by input channels, output channels by rank. -/
structure AdShape where
  c : Nat
  k : Nat
  rank : Nat
  deriving DecidableEq, Repr

namespace Region

/-- The loss code and the target buffer. -/
def loss (s : State) (a : Nat) : Nat := u s a 9 1
/-- The command buffer that holds the target. -/
def target (s : State) (a : Nat) : Nat := u s a 10 1
/-- Every byte of a range is zero. -/
def zero (s : State) (a o n : Nat) : Bool := (readBytes 0 s.addr.lp5x (a + o) n).all fun b => b == 0

end Region

/-- 0 ≤ v. -/
def f32NonNeg (v : F32) : Bool := !(f32v v).isNan && !((f32v v).lt (.num false 0 0))
/-- 0 < v. -/
def f32Above (v : F32) : Bool := (Fp.num false 0 0).lt (f32v v)
/-- 0 ≤ v < 1. -/
def f32Unit (v : F32) : Bool := f32NonNeg v && (f32v v).lt (.num false 1 0)

namespace Region

/-- The header's fields lie in their ranges; the loss, target and tape fields where a step trains (R596, R601). -/
def headerOk (s : State) (a : Nat) (train : Bool) : Bool :=
  u s a 0 4 == 0x5041444B && u s a 4 2 == 0x0100 && decide (1 ≤ count s a) && decide (count s a ≤ 256) && decide (u s a 8 1 ≤ 1)
    && u s a 11 1 == 0 && f32Above (f32 s a 12) && f32Unit (f32 s a 16)
    && (if adam s a then f32Unit (f32 s a 20) && f32Above (f32 s a 24) else u s a 20 8 == 0)
    && f32NonNeg (f32 s a 28) && u s a 36 4 % 64 == 0 && zero s a 60 196
    && (!train || (decide (loss s a ≤ 2) && decide (target s a ≤ 15) && u s a 40 4 % 4096 == 0))

/-- The piece and the layer of an entry. -/
def pieceNo (s : State) (e : Nat) : Nat := u s e 0 2
/-- The layer index within the piece. -/
def layerNo (s : State) (e : Nat) : Nat := u s e 2 2
/-- The rank. -/
def rank (s : State) (e : Nat) : Nat := u s e 4 1

/-- Bytes of the eight ranges' sizes of an entry: weights, gradients and state of A and of B. -/
def tensors (s : State) (a e : Nat) (h : AdShape) : List (Nat × Nat) :=
  let n := if adam s a then 2 else 1
  let sizes := [2 * h.rank * h.c, 2 * h.k * h.rank, 2 * h.rank * h.c, 2 * h.k * h.rank, 4 * n * h.rank * h.c, 4 * n * h.k * h.rank]
  (List.range 6).map fun i => (u s e (16 + 4 * i) 4, sizes.getD i 0)

end Region

/-! ## The check (R596) -/

/-- An adapter may attach to the layer: a CONV with a 1×1 window. -/
def adEligible (r : LayerRec) : Bool := opKind r == 0 && winH r == 1 && winW r == 1

/-- The shape that an entry's layer and rank give. -/
def State.adShape (s : State) (pat : Bytes) (e : Nat) : AdShape :=
  let r := s.patLayer pat (Region.pieceNo s e) (Region.layerNo s e)
  { c := inC r, k := outC r, rank := Region.rank s e }

/-- One attachment entry is in range and names an eligible layer. -/
def State.entryOk (s : State) (pat : Bytes) (a e : Nat) : Bool :=
  decide (Region.pieceNo s e < Pattern.pieceCount pat)
    && decide (Region.layerNo s e < nLayers (Pattern.piece pat (Region.pieceNo s e)))
    && adEligible (s.patLayer pat (Region.pieceNo s e) (Region.layerNo s e))
    && decide (4 ≤ Region.rank s e) && decide (Region.rank s e ≤ 64) && decide (Region.u s e 5 1 ≤ 3)
    && Region.u s e 6 2 == 0 && Region.zero s e 48 16
    && (Region.tensors s a e (s.adShape pat e)).all fun p => p.1 % 64 == 0

/-- Two pieces may run in one command: they are the same, or their stages differ and no dimension selects between them. -/
def together (p q : PieceRec) (same : Bool) : Bool :=
  same || (PieceRec.stage p != PieceRec.stage q && (List.range 4).all fun d =>
    let a := key p / 16 ^ d % 16
    let b := key q / 16 ^ d % 16
    a == b || a == 15 || b == 15)

/-- Two ranges, as offset and length, overlap. -/
def meets (p q : Nat × Nat) : Bool := decide (p.1 < q.1 + q.2) && decide (q.1 < p.1 + p.2)

/-- The ranges of a list lie apart from one another. -/
def apart : List (Nat × Nat) → Bool
  | [] => true
  | p :: t => !(t.any (meets p)) && apart t

/-- Two entries are compatible: not the same layer, and tensors apart where both their pieces may run. -/
def State.pairOk (s : State) (pat : Bytes) (a e f : Nat) : Bool :=
  let i := Region.pieceNo s e
  let j := Region.pieceNo s f
  let x := Region.tensors s a e (s.adShape pat e)
  let y := Region.tensors s a f (s.adShape pat f)
  !(i == j && Region.layerNo s e == Region.layerNo s f)
    && (!together (Pattern.piece pat i) (Pattern.piece pat j) (i == j) || !(x.any fun p => y.any (meets p)))

/-- Every pair of a list of entries is compatible. -/
def State.pairsOk (s : State) (pat : Bytes) (a : Nat) : List Nat → Bool
  | [] => true
  | e :: t => t.all (s.pairOk pat a e) && s.pairsOk pat a t

/-- A region of `len` bytes at a device address passes the check of R596 for a pattern. -/
def State.regionOk (s : State) (pat : Bytes) (a len : Nat) (train : Bool) : Bool :=
  let es := (List.range (Region.count s a)).map (Region.entry s a)
  let fixed := [(0, 256), (Region.u s a 36 4, 64 * Region.count s a)]
    ++ if train then [(Region.u s a 40 4, Region.u s a 44 4)] else []
  decide (256 ≤ len) && Region.headerOk s a train && decide (Region.u s a 36 4 + 64 * Region.count s a ≤ len)
    && es.all (s.entryOk pat a) && apart fixed
    && es.all (fun e =>
      let ts := Region.tensors s a e (s.adShape pat e)
      apart ts && ts.all fun p => decide (p.1 + p.2 ≤ len) && !(fixed.any (meets p)))
    && fixed.all (fun p => decide (p.1 + p.2 ≤ len))
    && s.pairsOk pat a es

/-- A region still passes the windows of a tenant whole (R599, Table 11-4). -/
def regionSeen (dw : Table DWin) (r : Option (Nat × Nat)) (wr : Bool) : Bool :=
  match r with
  | none => true
  | some (a, len) => dw.any fun p => p.2.pass false a len && (!wr || p.2.pass true a len)

/-! ## The limit (R602) -/

/-- Bytes of adapter regions that a tenant holds: attached ones, and those of running TRAIN steps. -/
def State.regionHeld (s : State) (f except : Nat) : Nat :=
  ((s.binds.filter fun p => p.2.live && p.1 / 64 == f && p.1 != except).map fun p => match p.2.adapter with
      | some (_, n) => n
      | none => 0).sum
    + ((s.comp.runs.filter fun p => p.2.fn == f && p.2.train.isSome).map fun p => match p.2.adapter with
      | some (_, n) => n
      | none => 0).sum

end Sys2Proof.Machine
end

