-- ==== Sys2Proof/Machine/Backprop.lean ====
section
/-!
DEFINITION. The backward pass of a TRAIN step (R483, R605 to R609): the loss, the gradient through each taped layer, the gradients
of the adapters, and what the cores count of it. Every forward value is computed again from the tape (R604). The spec does not give
the order of the sums within a core, so they follow an open order (log entry 58).
-/

namespace Sys2Proof.Machine

open LayerRec PieceRec

/-! ## Sums (R609, R612) -/

/-- A list in an open order, a function of a seed. -/
def openOrder {α : Type} (seed : Nat) : Nat → List α → List α
  | 0, _ => []
  | n + 1, l =>
    let i := Config.sumOrder seed n % l.length
    match l[i]? with
    | some a => a :: openOrder seed n (l.eraseIdx i)
    | none => []

/-- A sum within a core: the same open order in every step. -/
def coreSum (l : List F32) : F32 := sum32 (openOrder 0 l.length l)

/-- Products accumulated in FP32 within a core, in the same way. -/
def coreProducts (l : List (F32 × F32)) : F32 := (openOrder 0 l.length l).foldl (fun a p => f32fma p.1 p.2 a) 0

/-- A sum of the cores' partials: in the order given with DETERMINISTIC, of which the seed is 0, else as they arrive. -/
def partialSum (seed : Nat) (l : List F32) : F32 := sum32 (if seed = 0 then l else openOrder seed l.length l)

/-! ## Values -/

/-- A value as it enters a product at the BF16 rate. -/
def asBf16 (v : F32) : F32 := bf16Up (bf16Down v)

/-- The magnitude. -/
def f32abs (v : F32) : F32 := v &&& 0x7FFFFFFF

/-- A count as FP32. -/
def f32nat (n : Nat) : F32 := rne32 (Fp.ofInt (n : Nat))

/-- The rotor's transpose on one block: butterflies, constant, then the signs (R606). -/
def unrotate (block : Nat) (signs : Option (BitVec 256)) (x : List F32) : List F32 :=
  let y := (butterflies (4 + block) 1 x).map fun a => f32mul a (rotorConst block)
  match signs with
  | none => y
  | some v => (List.range y.length).map fun i => if v.getLsbD i then y.getD i 0 ^^^ 0x80000000 else y.getD i 0

/-! ## Gradients between layers and stages (R606) -/

/-- Where a byte of a reference lies, as a key. -/
def placeKey (f : Ref) (o : Nat) : Nat :=
  match f with
  | .cmd b => lineKey b o
  | .sac base => 2 ^ 60 + base + o
  | .none => 2 ^ 61 + o

/-- The gradients of the elements that later layers have read, as BF16 by the place of the element. -/
abbrev Grads := Table Nat

/-- What a layer adds to them: places and FP32 values, in the order in which they are added. -/
abbrev Adds := List (Nat × F32)

/-- Add the values of one layer in FP32 (R483). -/
def Adds.total (l : Adds) : Table F32 :=
  l.foldl (fun (t : Table F32) p => Table.insert t p.1 (match Table.find t p.1 with
    | some v => f32add v p.2
    | none => p.2)) []

/-- Store them as BF16; how many overflowed (R607). -/
def Grads.store (g : Grads) (l : Adds) : Grads × Nat :=
  l.total.foldl (fun (u : Grads × Nat) p =>
    let v := match Table.find u.1 p.1 with
      | some w => f32add (bf16Up w) p.2
      | none => p.2
    let w := fmtBf16.convert (f32v v)
    (Table.insert u.1 p.1 w.1, u.2 + b2n w.2)) (g, 0)

/-! ## A layer of the backward pass -/

/-- A taped layer: where it stands, its context, what the home banks gave of its weights by column and tile, and the command as it
reads the tape. -/
structure BackLayer where
  stage : Nat
  layer : Nat
  origin : Nat
  c : Ctx
  weights : List (Nat × Box × Bytes)
  x : Run
  dst : Ref
  src : Ref
  aux : Ref
  deriving DecidableEq, Repr

namespace BackLayer

/-- The first input and what aux_buf holds, as the tape gives them. -/
def refs (_ : BackLayer) : Refs := { src := .cmd 0, aux := .cmd 1, dst := .cmd 2 }

/-- The block of a core of the group. -/
def block (b : BackLayer) (i j : Nat) : Box := b.c.part i (columnBlock b.c.r j)

/-- The whole input, as one tile. -/
def whole (b : BackLayer) : Box :=
  { k0 := 0, kn := outC b.c.r, y0 := 0, h := outH b.c.r, x0 := 0, w := outW b.c.r, c0 := 0, cn := inC b.c.r }

/-- The number of an output element. -/
def outNo (b : BackLayer) (y x k : Nat) : Nat := (y * outW b.c.r + x) * outC b.c.r + k

/-- The code of a frozen weight. -/
def code (b : BackLayer) (j k t ch : Nat) : Nat :=
  match b.weights.find? fun q =>
    q.1 == j && decide (q.2.1.k0 ≤ k) && decide (k < q.2.1.k0 + q.2.1.kn) && decide (q.2.1.c0 ≤ ch) && decide (ch < q.2.1.c0 + q.2.1.cn) with
  | some (_, w, img) =>
    let bits := fmtBits (wFmt b.c.r)
    let bit := (ch - w.c0) % b.c.imgCpb * bits
    leAt img (imageOff b.c.r w (k - w.k0) t ((ch - w.c0) / b.c.imgCpb) + bit / 8) 3 / 2 ^ (bit % 8) % 2 ^ bits
  | none => 0

end BackLayer

/-! ## The forward values again (R604) -/

/-- A record with FP32 outputs: the values as they stand before they are written in the layer's format (R140). -/
def asFp32 (r : LayerRec) : LayerRec := r.take 2 ++ [BitVec.ofNat 8 (leAt r 2 1 % 16 + 16 * 11)] ++ r.drop 3

/-- What a core's part of a layer gives again: which outputs clipped, the adapter's h by output position and rank, and what a vector
operator's inputs take of the gradient. -/
structure Again where
  clipped : List Nat := []
  h : Table F32 := []
  adds : Adds := []
  deriving DecidableEq, Repr

/-- Put transfers into core store. -/
def putAll (m : Table Byte) (core : Nat) (l : Puts) : Table Byte := l.foldl (fun m p => cPut m core p.1 p.2) m

/-- A tile's part loaded into a core. -/
def State.loadAgain (s : State) (b : BackLayer) (core j : Nat) (w : Box) (a : CoreRun) : CoreRun :=
  let u := if isArray b.c.r then s.loadActs b.x b.refs b.c w a.st else s.loadVec b.x b.refs b.c w a.st
  let image : Bytes :=
    if opKind b.c.r = 1 then (s.auxImage b.x b.refs b.c w).1
    else match b.weights.find? fun q => q.1 == j && q.2.1.k0 == w.k0 && q.2.1.c0 == w.c0 with
      | some q => q.2.2
      | none => []
  let l := if isArray b.c.r then u.1 ++ [(b.c.wAt, image)] ++ b.c.loadScales w ++ s.loadAdapter b.c w else u.1
  { a with m := putAll a.m core l, st := u.2 }

/-- The outputs of a tile that clipped, the last one of its output tile having been computed (R150). -/
def BackLayer.clippedIn (b : BackLayer) (m : Table Byte) (core : Nat) (w : Box) (sat : List Nat) : List Nat :=
  (List.range w.positions).flatMap fun p =>
    ((List.range (if isArray b.c.r then w.kn else w.cn)).filter fun k =>
      (fmtStore (outFmt b.c.r) (zO b.c.r) (BitVec.ofNat 32 (cGet m core (b.c.outAt w p k) 4))).2 || sat.contains (outKey p k)).map fun k =>
        b.outNo (w.posAt p).1 (w.posAt p).2 (b.c.chBase w + k)

/-- The gradient of an input element of a vector tile (Table 23-5), `x` the inputs, `y` the outputs and `g` their gradients, by
number within the tile; the derivatives that the spec names but does not evaluate are open (log entry 58). -/
def Ctx.vecBack (c : Ctx) (w : Box) (segs : List (Nat × Nat)) (x y g : Nat → F32) (i : Nat) : F32 :=
  let n := w.positions * w.cn
  let k := opKind c.r
  let row := (List.range w.cn).map fun q => i % n / w.cn * w.cn + q
  if k = 0x11 then f32mul (g (i % n)) (x ((i + n) % (2 * n)))
  else if k = 0x12 then
    if c.fnCode = 0 then (if (Fp.num false 0 0).lt (f32v (x i)) then g i else 0)
    else if c.fnCode = 5 then (if (f32v c.lo).lt (f32v (x i)) && (f32v (x i)).lt (f32v c.hi) then g i else 0)
    else f32mul (g i) (canonNan (Config.vecActGrad c.fnCode (x i)))
  else if k = 0x13 then
    let gs := row.map fun q => f32mul (g q) (c.gammaBeta (w.c0 + q % w.cn)).1
    canonNan (Config.vecNormGrad c.variant c.eps (row.map x) gs (i % w.cn))
  else if k = 0x14 then
    let l := if c.variant = 0 then row else (List.range w.positions).map fun q => q * w.cn + i % w.cn
    f32mul (y i) (f32sub (g i) (sum32 (l.map fun q => f32mul (y q) (g q))))
  else if k = 0x15 then
    let q := i / w.cn
    match (List.range segs.length).find? fun p => decide ((segs.getD p (0, 0)).1 ≤ q) && decide (q < (segs.getD p (0, 0)).1 + (segs.getD p (0, 0)).2) with
    | none => 0
    | some p =>
      let e := segs.getD p (0, 0)
      let v := g (p * w.cn + i % w.cn)
      let l := (List.range e.2).map fun m => x ((e.1 + m) * w.cn + i % w.cn)
      if segOp c.r = 2 then (if l.findIdx? (fun a => !(f32v a).lt (f32v (max32 l)) && !(f32v (max32 l)).lt (f32v a)) = some (q - e.1) then v else 0)
      else if segOp c.r = 1 then f32div v (f32nat e.2)
      else v
  else if k = 0x16 ∧ n ≤ i then coreSum (row.map g)
  else g (i % n)

/-- What a vector tile's inputs take of the gradient, by place (R606, R608). -/
def State.vecAdds (s : State) (b : BackLayer) (core : Nat) (w : Box) (before after : Table Byte) (g : Nat → F32) : Adds :=
  let ins := s.vecIns b.x b.refs b.c w
  let segs := if opKind b.c.r = 0x15 then (segPlaces 0 (s.segBounds b.x b.refs b.c w)).map fun q => (q.1, q.2.1) else []
  let y (i : Nat) : F32 := BitVec.ofNat 32 (cGet after core (b.c.outAt w (i / w.cn) (i % w.cn)) 4)
  let gw (i : Nat) : F32 := g (b.outNo (w.posAt (i / w.cn)).1 (w.posAt (i / w.cn)).2 (w.c0 + i % w.cn))
  (List.range ins.length).filterMap fun i =>
    let v := b.c.vecBack w segs (b.c.vecIn before core) y gw i
    match ins.getD i (.zero false) with
    | .src o => some (placeKey b.src o, v)
    | .aux o => some (placeKey b.aux o, v)
    | .zero _ => none

/-- One tile of a core's part again; `g` are the gradients of the layer's outputs. -/
def State.tileAgain (s : State) (b : BackLayer) (core i j : Nat) (g : Nat → F32) (u : CoreRun × Again) (t : Box) : CoreRun × Again :=
  let w := b.c.part i t
  if w.positions = 0 then u
  else
    let a := s.loadAgain b core j w u.1
    let c : Ctx := { b.c with r := asFp32 b.c.r }
    let e := s.computeTile b.x b.refs c core w [] a
    let bad := if isArray b.c.r && !b.c.lastC w then [] else b.clippedIn e.m core w e.st.sat
    let rank := (b.c.ad.map fun d => d.rank).getD 0
    let h : List (Nat × F32) := if b.c.lastC w then (List.range w.positions).flatMap fun p => (List.range rank).map fun q =>
      (b.outNo (w.posAt p).1 (w.posAt p).2 0 * 64 + q, BitVec.ofNat 32 (cGet e.m core (b.c.hAt w p q rank) 4)) else []
    let live (n : Nat) : F32 := if bad.contains n then 0 else g n
    let adds := if isArray b.c.r then [] else s.vecAdds b core w a.m e.m live
    (e, { clipped := u.2.clipped ++ bad, h := h.foldl (fun (t : Table F32) p => Table.insert t p.1 p.2) u.2.h, adds := u.2.adds ++ adds })

/-- A core's part of a layer again. -/
def State.coreAgain (s : State) (b : BackLayer) (i j : Nat) (g : Nat → F32) : Again :=
  let core := b.origin + 8 * i + j
  let start : CoreRun := { m := [], st := {}, regs := { lut := lutOf b.c.r b.c.tab } }
  ((b.c.tiles j).foldl (s.tileAgain b core i j g) (start, {})).2

/-! ## The frozen weights of an array layer (R607) -/

/-- The scale of a weight: of its channel, or of its group under a tap (R126). -/
def BackLayer.scaleOf (b : BackLayer) (k t ch : Nat) : F32 :=
  let i := if b.c.perGroup then (k * taps b.c.r + t) * groups b.c.r + ch / group b.c.r else k
  rne32 (fmtFp16.decode (leAt b.c.tab (scaleOff b.c.r + 2 * i) 2))

/-- Steps 1 and 2: σ, the INT8 codes, and how many clipped. -/
def quantGrads (l : List F32) : F32 × List Int × Nat :=
  let top := l.foldl (fun (a : F32) v => if (f32v a).lt (f32v (f32abs v)) then f32abs v else a) 0
  let sigma := f32div top 0x42FE0000
  let q := l.map fun v => if sigma = 0 then (0, false) else toIntSat (-128) 127 0 ((f32v v).div (f32v sigma))
  (sigma, q.map Prod.fst, q.countP fun v => v.2)

/-- What a core's channels give of Wᵀg to input channel `ch` under tap `t` of an output position; `g` by channel. The second
operand of MATMUL_AA stands in the place of the weights (Table 23-5). -/
def State.coreInput (s : State) (b : BackLayer) (j t ch : Nat) (ks : List Nat) (g : Nat → F32) : F32 :=
  if opKind b.c.r = 1 then
    coreProducts (ks.map fun k => (g k, toF32 (wFmt b.c.r) (s.refNat b.x b.refs.aux (auxElem b.c.r t ch k) (fmtBytes (wFmt b.c.r))).1))
  else if 4 < wFmt b.c.r then coreProducts (ks.map fun k => (g k, rne32 (fmtVal (wFmt b.c.r) (b.code j k t ch))))
  else
    let q := quantGrads (ks.map fun k => f32mul (g k) (b.scaleOf k t ch))
    let w : WBlock := { lanes := 1, codes := [], lut := lutOf b.c.r b.c.tab }
    let sum := ((ks.zip q.2.1).map fun p => p.2 * w.value (wFmt b.c.r) (b.code j p.1 t ch)).sum
    rne32 (((Fp.ofInt (satInt (-(2 ^ 31)) (2 ^ 31 - 1) sum).1).mul (f32v q.1)).mul (.num false 1 (-(entryExp (wFmt b.c.r) : Nat))))

/-- Gradient codes that clip at an output position, over its taps and groups where the scales differ there. -/
def BackLayer.codeClips (b : BackLayer) (ks : List Nat) (g : Nat → F32) : Nat :=
  if opKind b.c.r = 1 ∨ 4 < wFmt b.c.r then 0
  else
    let one (t ch : Nat) : Nat := (quantGrads (ks.map fun k => f32mul (g k) (b.scaleOf k t ch))).2.2
    if b.c.perGroup then
      ((List.range (taps b.c.r)).map fun t => ((List.range (groups b.c.r)).map fun n => one t (n * group b.c.r)).sum).sum
    else one 0 0

/-! ## An adapter (R608, R609) -/

/-- The real value of an activation code at the BF16 rate (R597). -/
def Ctx.realAct (c : Ctx) (q : Nat) : F32 :=
  let z : Fp := if fmtIsInt c.act then Fp.ofInt (fmtInt c.act q - c.za) else fmtVal c.act q
  asBf16 (rne32 ((f32v c.sa).mul z))

/-- An element of A or B as the region holds it. -/
def State.adElem (s : State) (a i : Nat) : F32 := bf16Up (leNat (readBytes 0 s.addr.lp5x (a + 2 * i) 2))

/-- A core's partial of u at an output position, element `q`. -/
def State.corePartU (s : State) (d : AdCtx) (ks : List Nat) (g : Nat → F32) (q : Nat) : F32 :=
  f32mul d.scale (coreProducts (ks.map fun k => (s.adElem d.bAt (k * d.rank + q), asBf16 (g k))))

/-! ## A layer (R606 to R609) -/

/-- What a layer of the backward pass gives: what its inputs take, the gradients of A and of B by element, and what each core of the
group counted (R150, R607). -/
structure BackOut where
  adds : Adds := []
  dA : List F32 := []
  dB : List F32 := []
  counts : Table (Nat × Nat) := []
  deriving DecidableEq, Repr

/-- What an array layer works on: its output gradients by number, the clipped ones zero; the adapter's h by output number and
element; the seed of the combination. -/
structure ArrayBack where
  g : Nat → F32
  h : Nat → Nat → F32
  seed : Nat

/-- The activations of an input position of the whole layer. -/
def State.actsAt (s : State) (b : BackLayer) (iy ix : Nat) : PosLoad := s.loadPos b.x b.refs b.c b.whole iy ix

/-- u at an output position (R608): the partials of a row's cores added across its columns. -/
def State.uAt (s : State) (b : BackLayer) (a : ArrayBack) (d : AdCtx) (i y x q : Nat) : F32 :=
  partialSum a.seed ((List.range b.c.gw).map fun j => s.corePartU d (b.block i j).ks (fun k => a.g (b.outNo y x k)) q)

/-- What the cores of row `i` give to channel `ch` of input position (iy, ix): Wᵀg across the columns, and Aᵀu. -/
def State.rowInput (s : State) (b : BackLayer) (a : ArrayBack) (i iy ix ch : Nat) : List F32 :=
  let r := b.c.r
  let hits := ((List.range (b.block i 0).positions).map (b.block i 0).posAt).flatMap fun p => (List.range (taps r)).filterMap fun t =>
    if p.1 * strideH r + t / winW r * dilH r = iy ∧ p.2 * strideW r + t % winW r * dilW r = ix then some (p.1, p.2, t) else none
  if hits.isEmpty then []
  else
    let w := partialSum a.seed ((List.range b.c.gw).map fun j =>
      coreSum (hits.map fun q => s.coreInput b j q.2.2 ch (b.block i j).ks fun k => a.g (b.outNo q.1 q.2.1 k)))
    match b.c.ad, hits with
    | some d, q :: _ =>
      [f32add w (coreProducts ((List.range d.rank).map fun n =>
        (s.adElem d.aAt (n * inC r + ch), asBf16 (s.uAt b a d i q.1 q.2.1 n))))]
    | _, _ => [w]

/-- The gradient of an input position: the rows' sums, zero where the code clipped, through the rotor's transpose (R606). -/
def State.posGrad (s : State) (b : BackLayer) (a : ArrayBack) (iy ix : Nat) : List F32 :=
  let v := s.actsAt b iy ix
  let r := b.c.r
  let l := (List.range b.c.cLimit).map fun ch =>
    if v.clipped.getD ch false then 0 else partialSum a.seed ((List.range b.c.gh).flatMap fun i => s.rowInput b a i iy ix ch)
  if rotBlock r = 0 then l
  else
    let n := 16 * 2 ^ rotBlock r
    ((List.range (ceilDiv l.length n)).flatMap fun k =>
      let part := (l.drop (k * n)).take n
      unrotate (rotBlock r) (signs r) (part ++ List.replicate (n - part.length) 0)).take l.length

/-- What the first input of an array layer takes, position by position: of a gather layer, what each entry's row takes, in list
order (R483). -/
def State.arrayAdds (s : State) (b : BackLayer) (a : ArrayBack) : Adds :=
  (spanList b.c.r b.whole).flatMap fun p =>
    match s.inPos b.x b.refs b.c b.whole p.1 p.2 with
    | .at y col =>
      let l := s.posGrad b a p.1 p.2
      (List.range l.length).map fun ch => (placeKey b.src (inOff b.c.r y col ch), l.getD ch 0)
    | _ => []

/-- The gradient of an element of the second operand of MATMUL_AA: X₁ᵀg, the rows of the group added (Table 23-5). -/
def State.auxGrad (s : State) (b : BackLayer) (a : ArrayBack) (t ch k : Nat) : F32 :=
  let r := b.c.r
  partialSum a.seed ((List.range b.c.gh).map fun i =>
    coreProducts (((List.range (b.block i 0).positions).map (b.block i 0).posAt).map fun p =>
      let v := s.actsAt b (p.1 * strideH r + t / winW r * dilH r) (p.2 * strideW r + t % winW r * dilW r)
      (b.c.realAct (v.raws.getD ch 0), a.g (b.outNo p.1 p.2 k))))

/-- What the second operand of MATMUL_AA takes. -/
def State.auxAdds (s : State) (b : BackLayer) (a : ArrayBack) : Adds :=
  if opKind b.c.r ≠ 1 then []
  else
    (List.range (taps b.c.r)).flatMap fun t => (List.range b.c.cLimit).flatMap fun ch => (List.range (outC b.c.r)).map fun k =>
      (placeKey b.aux (auxElem b.c.r t ch k), s.auxGrad b a t ch k)

/-- dA and dB of an adapted layer: partials over each core's positions, added across the rows (R608, R609). -/
def State.adGrads (s : State) (b : BackLayer) (a : ArrayBack) (d : AdCtx) : List F32 × List F32 :=
  let pos (i : Nat) : List (Nat × Nat) := (List.range (b.block i 0).positions).map (b.block i 0).posAt
  let rows (f : Nat → F32) : F32 := partialSum a.seed ((List.range b.c.gh).map f)
  let x (p : Nat × Nat) (ch : Nat) : F32 :=
    b.c.realAct ((s.actsAt b (p.1 * strideH b.c.r) (p.2 * strideW b.c.r)).raws.getD ch (padRaw b.c.act b.c.za))
  ((List.range d.rank).flatMap fun q => (List.range (inC b.c.r)).map fun ch =>
      rows fun i => coreProducts ((pos i).map fun p => (asBf16 (s.uAt b a d i p.1 p.2 q), x p ch)),
   (List.range (outC b.c.r)).flatMap fun k => (List.range d.rank).map fun q =>
      rows fun i => f32mul d.scale (coreProducts ((pos i).map fun p => (asBf16 (a.g (b.outNo p.1 p.2 k)), asBf16 (a.h (b.outNo p.1 p.2 0) q)))))

/-- The gradient codes that each core clips (R607). -/
def BackLayer.clipCounts (b : BackLayer) (g : Nat → F32) : Table (Nat × Nat) :=
  (List.range b.c.gh).flatMap fun i => (List.range b.c.gw).map fun j =>
    (b.origin + 8 * i + j,
      satNat 0xFFFF (((List.range (b.block i j).positions).map (b.block i j).posAt).map fun p =>
        b.codeClips (b.block i j).ks fun k => g (b.outNo p.1 p.2 k)).sum, 0)

/-- A layer of the backward pass, from the gradients of its outputs. -/
def State.layerBack (s : State) (b : BackLayer) (seed : Nat) (g : Nat → F32) : BackOut :=
  let l := (List.range b.c.gh).flatMap fun i => (List.range b.c.gw).map fun j => s.coreAgain b i j g
  if !isArray b.c.r then { adds := l.flatMap fun u => u.adds }
  else
    let clipped := l.flatMap fun u => u.clipped
    let h := l.flatMap fun u => u.h
    let a : ArrayBack := { g := fun n => if clipped.contains n then 0 else g n, h := fun n q => Table.get 0 h (n * 64 + q), seed := seed }
    let w := match b.c.ad with
      | some d => s.adGrads b a d
      | none => ([], [])
    { adds := s.arrayAdds b a ++ s.auxAdds b a, dA := w.1, dB := w.2, counts := b.clipCounts a.g }

/-! ## The backward pass -/

/-- What the layers give, last layer first: by stage and layer, and the BF16 overflows of each, which the group's origin core counts
(log entry 58). -/
def State.backFrom (s : State) (seed : Nat) (g : Grads) : List BackLayer → List (BackLayer × BackOut)
  | [] => []
  | b :: t =>
    let place (n : Nat) : Nat :=
      let k := n % outC b.c.r
      let p := n / outC b.c.r
      placeKey b.dst (outOff b.c.r (p / outW b.c.r) (p % outW b.c.r) k)
    let o := s.layerBack b seed fun n => bf16Up (Table.get 0 g (place n))
    let mine := (List.range (outH b.c.r * outW b.c.r * outC b.c.r)).map place
    let u := Grads.store (g.filter fun p => !mine.contains p.1) o.adds
    let counts := Table.upd (0, 0) o.counts b.origin fun n => (n.1, satNat 0xFFFF u.2)
    (b, { o with counts := counts }) :: s.backFrom seed u.1 t

/-! ## The loss (R605) -/

/-- The real value of an element of the step's output or target. -/
def realOut (r : LayerRec) (scale : F32) (raw : Nat) : F32 :=
  let z : Fp := if fmtIsInt (outFmt r) then Fp.ofInt (fmtInt (outFmt r) raw - zO r) else fmtVal (outFmt r) raw
  rne32 (z.mul (f32v scale))

/-- What the loss works on: code and scale of the loss, the last layer, and the elements within the length, by number: raw output
and raw target (BF16 with external gradients). -/
structure LossIn where
  kind : Nat
  scale : F32
  r : LayerRec
  elems : List (Nat × Nat × Nat)
  deriving DecidableEq, Repr

/-- The core of the group that holds an output element, by its place in the group. -/
def LossIn.core (l : LossIn) (n : Nat) : Nat :=
  n / (outC l.r * outW l.r) / blkRows l.r * 8 + n % outC l.r / blkK l.r

/-- y − t of an element. -/
def LossIn.diff (l : LossIn) (e : Nat × Nat × Nat) : F32 := f32sub (realOut l.r l.scale e.2.1) (realOut l.r l.scale e.2.2)

/-- The loss: each core's sum, then the cores' sums in ascending order, or as they arrive (R609). -/
def LossIn.loss (l : LossIn) (seed : Nat) : F32 :=
  if l.kind = 2 then 0x7FC00000
  else
    let term (e : Nat × Nat × Nat) : F32 := if l.kind = 0 then f32mul (l.diff e) (l.diff e) else f32abs (l.diff e)
    let cores := (List.range 64).filter fun n => l.elems.any fun e => l.core e.1 == n
    f32div (partialSum seed (cores.map fun n => coreSum ((l.elems.filter fun e => l.core e.1 == n).map term))) (f32nat l.elems.length)

/-- The gradient of an output element. -/
def LossIn.grad (l : LossIn) (e : Nat × Nat × Nat) : F32 :=
  let d := l.diff e
  let n := f32nat l.elems.length
  if l.kind = 2 then bf16Up e.2.2
  else if l.kind = 0 then f32div (f32mul 0x40000000 d) n
  else if f32abs d = 0 then 0
  else f32div (if (f32v d).isNan then d else if (Fp.num false 0 0).lt (f32v d) then 0x3F800000 else 0xBF800000) n

/-- The gradients with which the backward pass begins. -/
def LossIn.grads (l : LossIn) (dst : Ref) : Grads :=
  (Grads.store [] (l.elems.map fun e =>
    let k := e.1 % outC l.r
    let p := e.1 / outC l.r
    (placeKey dst (outOff l.r (p / outW l.r) (p % outW l.r) k), l.grad e))).1

end Sys2Proof.Machine
end

