-- ==== Sys2Proof/Machine/Train.lean ====
section
/-!
DEFINITION. What a TRAIN step does after its forward pass (R605 to R613, R481): what the loss and the backward pass work on, the
gradient area, the optimisers, the header, and the drift of the backward pass.
-/

namespace Sys2Proof.Machine

open LayerRec PieceRec

/-! ## Tensors -/

/-- The tensors of the entries whose pieces run in a command. -/
def State.tensorsOf (s : State) (x : Run) (a : Nat) : List Tensor :=
  let pat := s.runPat x
  (List.range (Region.count s a)).flatMap fun j =>
    let e := Region.entry s a j
    if x.pieces.contains (Region.pieceNo s e) then
      let h := s.adShape pat e
      [{ entry := j, at' := e, which := 0, n := h.rank * h.c }, { entry := j, at' := e, which := 1, n := h.k * h.rank }]
    else []

/-- Read the weights of every tensor; how many poisoned lines they hold. -/
def State.readTensors (s : State) (f a : Nat) : List Tensor → State × List Bytes × Nat
  | [] => (s, [], 0)
  | t :: l =>
    let q := s.trainRead f (s.tensorAt a t).1 (2 * t.n)
    let v := q.1.readTensors f a l
    (v.1, q.2.1 :: v.2.1, q.2.2 + v.2.2)

/-! ## What the backward pass reads (R604, R605, R607) -/

/-- The home banks give the frozen weights of a layer again: every weight tile of every column, by column and tile, and how many
poisoned lines they hold (R15, R607). -/
def State.backWeights (s : State) (x : Run) (n layer : Nat) (r : LayerRec) : State × List (Nat × Box × Bytes) × Nat :=
  let pat := s.runPat x
  let i := x.pieceIdx n
  let p := Pattern.piece pat i
  let nest := if modeN r then s.extentRange pat (origin p) (nestAt (Pattern.pieces pat) i (nestOff r)) 32 else []
  if opKind r ≠ 0 ∨ nLayers p ≤ layer then (s, [], 0)
  else
    (List.range (gw p)).foldl (fun (u : State × List (Nat × Box × Bytes) × Nat) j =>
      (weightTiles r nest j).foldl (fun (v : State × List (Nat × Box × Bytes) × Nat) b =>
        let q := v.1.readTile pat i r nest j b
        (q.1, v.2.1 ++ [(j, b, q.2.image)], v.2.2 + q.2.lines)) u) (s, [], 0)

/-- What a layer's ranges hold, from a position of the tape on, as bytes that the command has written to its buffers 0 and 1: the
first input and what aux_buf holds. -/
def tapeBytesAt (r : LayerRec) (tape : Bytes) : Nat → List (Nat × Nat × Nat) → Table Byte
  | _, [] => []
  | p, q :: l =>
    let d := (tape.drop p).take q.2.2
    let put (b : Nat) (t : Table Byte) : Table Byte :=
      (List.range d.length).foldl (fun t i => Table.insert t (lineKey b (q.2.1 + i)) (d.getD i 0)) t
    let t := tapeBytesAt r tape (p + q.2.2) l
    let u := if q.1 = auxBuf r then put 1 t else t
    if q.1 = srcBuf r then put 0 u else u

/-- A taped layer as the backward pass works on it. -/
def State.backLayer (s : State) (x : Run) (tape : Bytes) (start : Nat) (q : Nat × Nat × LayerRec) (ws : List (Nat × Box × Bytes)) :
    BackLayer :=
  let pat := s.runPat x
  let i := x.pieceIdx q.1
  let p := Pattern.piece pat i
  let r := q.2.2
  let ps := Pattern.pieces pat
  let d := dynOf pat r x.lens
  let f := s.refsOf x q.1 r
  let c : Ctx :=
    { r := r, nest := if modeN r then s.extentRange pat (origin p) (nestAt ps i (nestOff r)) 32 else []
      tab := s.extentRange pat (origin p) (tablesAt ps i (tabOff r)) (tableBytes r), tabBad := false, dyn := d
      wide := x.wideRuns.contains (q.1 * 65536 + q.2.1), gh := gh p, gw := gw p, half := 0, ad := s.adapterOf x q.1 q.2.1 r }
  { stage := q.1, layer := q.2.1, origin := origin p, c := c, weights := ws
    x := { x with wrote := tapeBytesAt r tape start (tapeRanges r d), wroteBad := [], lines := [], bufs := [] }
    dst := f.dst, src := f.src, aux := f.aux }

/-- The taped layers, with what the home banks give of their weights, and the poisoned lines of it. -/
def State.backLayers (s : State) (x : Run) (tape : Bytes) : List ((Nat × Nat × LayerRec) × Nat) → State × List BackLayer × Nat
  | [] => (s, [], 0)
  | q :: t =>
    let u := s.backWeights x q.1.1 q.1.2.1 q.1.2.2
    let v := u.1.backLayers x tape t
    (v.1, s.backLayer x tape q.2 q.1 u.2.1 :: v.2.1, u.2.2 + v.2.2)

/-- The bytes that a range of a reference holds, and whether any of them is poisoned. -/
def State.refBytes (s : State) (x : Run) (f : Ref) (o n : Nat) : Bytes × Bool :=
  let l := (List.range n).map fun i => (s.refByte x f (o + i)).getD (0, true)
  (l.map Prod.fst, l.any Prod.snd)

/-- The last layer of the last stage. -/
def State.finalLayer (s : State) (x : Run) : LayerRec := s.recAt x x.last (nLayers (s.pieceOf x x.last) - 1)

/-- The step's output, row by row within the actual length (R605). -/
def State.outputBytes (s : State) (x : Run) : Bytes × Bool :=
  let r := s.finalLayer x
  let f := s.resolve x x.last (dstBuf r)
  let d := dynOf (s.runPat x) r x.lens
  let l := (List.range (min (outH r) (rowLimit r d))).map fun y =>
    s.refBytes x f (dstOff r + y * dstPitch r) (min (outW r) (colLimit r d) * outC r * fmtBytes (outFmt r))
  (l.flatMap Prod.fst, l.any Prod.snd)

/-- The command buffer that holds the target of a TRAIN step. -/
def State.targetBuf (s : State) (x : Run) : Option Nat :=
  match x.train, x.adapter with
  | some _, some (a, _) => some (Region.target s a)
  | _, _ => none

/-- The target buffer's bytes. -/
def State.targetBytes (s : State) (x : Run) (len : Nat) : Bytes × Bool :=
  match s.targetBuf x with
  | none => ([], false)
  | some b => s.refBytes x (.cmd b) 0 len

/-- The output elements within the length and their targets (R605): the target's layout is the output's, from the start of its
buffer; an external gradient has BF16 elements there. -/
def State.lossIn (s : State) (x : Run) (a : Nat) : LossIn :=
  let r := s.finalLayer x
  let f := s.resolve x x.last (dstBuf r)
  let d := dynOf (s.runPat x) r x.lens
  let kind := Region.loss s a
  let e := fmtBytes (outFmt r)
  let n := if kind = 2 then 2 else e
  let tgt : Ref := .cmd (Region.target s a)
  { kind := kind, scale := Region.f32 s a 32, r := r
    elems := (List.range (min (outH r) (rowLimit r d))).flatMap fun y => (List.range (min (outW r) (colLimit r d))).flatMap fun q =>
      (List.range (outC r)).map fun k =>
        ((y * outW r + q) * outC r + k, (s.refNat x f (outOff r y q k) e).1, (s.refNat x tgt (y * dstPitch r + (q * outC r + k) * n) n).1) }

/-- What a step works on, and whether any of it came in poisoned. -/
structure TrainIn where
  seed : Nat
  loss : LossIn
  layers : List BackLayer
  bad : Bool
  deriving DecidableEq, Repr

/-- Gather what the loss and the backward pass work on (R604, R606, R612); the seed of the combination is 0 with DETERMINISTIC. -/
def State.trainIn (s : State) (x : Run) (t : Train) (a targetLen : Nat) : State × Run × TrainIn :=
  let pat := s.runPat x
  let ls := s.taped pat x.pieces a
  let starts := (tapeStarts pat x.lens 0 ls).1.map Prod.snd
  let w := s.trainRead x.fn (a + Region.u s a 40 4) (s.tapeNeed pat x.pieces x.lens a)
  let u := w.1.backLayers x w.2.1 (ls.zip starts)
  let v := u.1.readTensors x.fn a (u.1.tensorsOf x a)
  let y := s.outputBytes x
  let g := s.targetBytes x targetLen
  let n := u.2.2 + v.2.2 + w.2.2
  let z := if n = 0 then x else { x with weightBad := true, inPoison := x.inPoison + n }
  (v.1.tick, z,
    { seed := if t.deterministic then 0 else s.fresh + 1, loss := s.lossIn x a, layers := u.2.1
      bad := decide (n ≠ 0) || y.2 || g.2 || x.fail.isSome || x.weightBad })

/-- What the backward pass gives of each layer, the last layer first (R606). -/
def State.backPass (s : State) (i : TrainIn) : List (BackLayer × BackOut) :=
  match i.layers.reverse with
  | [] => []
  | b :: t => s.backFrom i.seed (i.loss.grads b.dst) (b :: t)

/-! ## Gradients (R608, R609, R612) -/

/-- A gradient element as it is written: BF16, added to the one that stands there with accumulate (R609). -/
def gradWord (acc : Bool) (old : Nat) (g : F32) : Nat :=
  if acc then (fmtBf16.convert ((f32v (bf16Up old)).add (f32v g))).1 else bf16Down g

/-- The gradient of a tensor's elements. -/
def State.tensorGrad (s : State) (x : Run) (o : List (BackLayer × BackOut)) (p : Tensor) : List F32 :=
  match o.find? fun q => x.pieceIdx q.1.stage == Region.pieceNo s p.at' && q.1.layer == Region.layerNo s p.at' with
  | some q => if p.which = 0 then q.2.dA else q.2.dB
  | none => []

/-- Write the gradient area of a tensor. -/
def State.putGrad (s : State) (x : Run) (t : Train) (a : Nat) (bad : Bool) (p : Tensor) (g : List F32) : State :=
  let at' := (s.tensorAt a p).2.1
  let q := if t.accumulate then s.trainRead x.fn at' (2 * p.n) else (s, zeroBytes (2 * p.n), 0)
  let d := (List.range p.n).flatMap fun e => leBytes 2 (gradWord t.accumulate (leAt q.2.1 (2 * e) 2) (g.getD e 0))
  q.1.trainWrite x.fn at' d (bad || decide (q.2.2 ≠ 0))

/-! ## The update phase (R600, R610) -/

/-- The update phase begins with the tensors whose train bit is set; with no_update there is none (R600, R610). -/
def State.beginUpdate (s : State) (x : Run) (t : Train) (a : Nat) (ps : List Tensor) : State × Run :=
  if t.noUpdate then (s, { x with copied := true })
  else
    let l := ps.filter s.trained
    if l.isEmpty then s.endUpdate x a {} else (s, { x with updating := some { left := l } })

/-! ## Drift of the backward pass (R168, R607) -/

/-- The counters of a group after a layer of the backward pass. -/
def BackOut.stage (o : BackOut) (r : LayerRec) : StageSt :=
  { record := r, cores := o.counts.map fun p => (p.1, ({ actClip := p.2.1, outClip := p.2.2 } : CoreSt)) }

/-- Layers of the backward pass that drift: each is handled as EVENT (R155, R168). -/
def State.backDrift (s : State) (x : Run) : List (BackLayer × BackOut) → State × Run
  | [] => (s, x)
  | q :: t =>
    let g := q.2.stage q.1.c.r
    if !g.drifted then s.backDrift x t
    else
      let m := g.clips
      let a := s.logEvent 0x30 (fnByte x.fn)
        (leBytes 4 (s.bind x.bind).pattern.toNat ++ leBytes 1 (x.pieceIdx q.1.stage) ++ leBytes 2 q.1.layer ++ leBytes 2 m.1
          ++ leBytes 2 m.2.1 ++ leBytes 1 m.2.2 ++ leBytes 1 0) [.fn x.fn FnTrb.drift.bit]
      (a.stat x.fn 11 1).backDrift { x with drift := true } t

/-! ## The step -/

/-- Loss, backward pass, gradient area, update and header of a TRAIN step whose forward pass has ended (Table 23-4). -/
def State.trainEnd (s : State) (x : Run) (targetLen : Nat) : State × Run :=
  match x.train, x.adapter with
  | some t, some (a, _) =>
    let u := s.trainIn x t a targetLen
    let i := u.2.2
    let o := u.1.backPass i
    let d := u.1.backDrift u.2.1 o
    let g := (u.1.tensorsOf x a).foldl (fun (b : State) p => b.putGrad x t a i.bad p (u.1.tensorGrad x o p)) d.1
    (g.trainWrite x.fn (a + 48) (leBytes 4 (i.loss.loss i.seed).toNat) false).beginUpdate d.2 t a (u.1.tensorsOf x a)
  | _, _ => (s, x)

end Sys2Proof.Machine
end

