-- ==== Sys2Proof/Machine/Settle.lean ====
section
/-!
DEFINITION. How a running command ends (chapters 10, 13, 17): what a stop does (R275, R279, R283, R287), the hold copy and the
repeat (R284, R309), the poison map (R273), the capture record (R359), result words (R289, R376), notes (R160, R274), and the
counters and components that its completion needs (R257, R285).
-/

namespace Sys2Proof.Machine

open LayerRec PieceRec

/-! ## Counts, notes and words -/

/-- Failing and poisoned lines that came in. -/
def Run.inTotal (x : Run) : Nat := x.inPoison + (x.stages.map fun p => p.2.inCount).sum

/-- Poisoned output lines: those of the command's buffers, and those that another chip reports of its own partition. -/
def Run.outCount (x : Run) : Nat := x.outBad.length + (x.report.map fun r => r.outBad).getD 0

/-- Poisoned output lines that lie in no command buffer. -/
def Run.outElsewhere (x : Run) : Nat := (x.outBad.filter fun p => decide (16 ≤ p.1 / 2 ^ 42)).length

/-- Lines fetched that no core has consumed (R257). -/
def Run.wasted (x : Run) : Nat := x.aheadCount fun _ => true

/-- The command has met a failing line or a poisoned weight line, here or on the chip that ran it (R274). -/
def Run.poisoned (x : Run) : Bool :=
  x.fail.isSome || x.weightBad || (match x.report with
    | some r => decide (bitsOf r.status 15 8 = 1) && bitOf r.status 0
    | none => false)

/-- The notes of a completion (Table 14-5); DEADLINE_MISS is added as the completion is written. -/
def Run.status (x : Run) (demoted : Bool) : BitVec 16 :=
  let n := b2n x.poisoned + 2 * b2n x.widened + 4 * b2n x.drift + 16 * b2n demoted
  if n = 0 then St.ok else BitVec.ofNat 16 (0x0100 + n)

/-- Word 0 of Table 10-3. -/
def Run.countWord (x : Run) : Word := mkWord [(0, satNat 0xFFFF x.outCount), (16, satNat 0xFFFF x.inTotal)]

/-- The words of Table 10-4 for a located failing line. -/
def FailLoc.words (l : FailLoc) : Word × Word :=
  (mkWord [(0, l.block), (12, l.buf), (20, l.stage), (23, b2n l.write), (31, 1)], BitVec.ofNat 32 (satNat 0xFFFFFFFF l.line))

/-- The words that locate a command's first failing line, which another chip may have met; zero where there is none. -/
def Run.failWords (x : Run) : Word × Word :=
  match x.fail with
  | some l => l.words
  | none =>
    match x.report with
    | some r => (r.w0, r.w1)
    | none => (0, 0)

/-! ## Poison map (R273) -/

/-- The logical bytes of a buffer, once every descriptor burst of it is known. -/
def Run.bufLen (x : Run) (b : Nat) : Option Nat :=
  let u := x.buf b
  match u.list with
  | none => some ((u.bursts.headD (0, [])).2.map Block.len).sum
  | some _ => if u.starts.length = ceilDiv u.count 8 + 1 then some (u.starts.getLastD 0) else none

/-- The buffer in which a mode-N layer stages its LP5X-level tiles (R187). -/
def State.stageBuf (s : State) (x : Run) (n : Nat) (r : LayerRec) : Option Nat :=
  let pat := s.runPat x
  if modeN r && !x.light && decide (srcBuf r < 16) then
    some (leAt (s.extentRange pat (origin (s.pieceOf x n)) (nestAt (Pattern.pieces pat) (x.pieceIdx n) (nestOff r)) 32) 20 4 / 2 ^ 28)
  else none

/-- The command buffers that a command's layers write, ascending: their destinations, and where they stage. -/
def State.dstBufs (s : State) (x : Run) : List Nat :=
  (List.range 16).filter fun b => x.stageList.any fun n =>
    (List.range (nLayers (s.pieceOf x n))).any fun l => dstBuf (s.recAt x n l) == b || s.stageBuf x n (s.recAt x n l) == some b

/-- The map of one buffer of a length: a bit for each line. -/
def Run.mapOf (x : Run) (b len : Nat) : Bytes :=
  (List.range (ceilDiv (ceilDiv len 64) 8)).map fun j =>
    BitVec.ofNat 8 ((List.range 8).map fun i => 2 ^ i * b2n (!(Table.get [] x.outBad (lineKey b 0 / 64 + 8 * j + i)).isEmpty)).sum

/-- A buffer's map after those before it: it starts on an 8-byte boundary, zero bytes lie between. -/
def appendMap (m next : Bytes) : Bytes := m ++ zeroBytes (roundUp m.length 8 - m.length) ++ next

/-- Write the poison map where one is due; none while a buffer's length is not known yet. -/
def State.writeMap (s : State) (x : Run) : Option State :=
  match x.map with
  | none => some s
  | some (p, len) =>
    if x.outCount = 0 then some s
    else
      match (s.dstBufs x).mapM fun b => (x.bufLen b).map fun n => (b, n) with
      | none => none
      | some l =>
        let m := l.foldl (fun m q => appendMap m (x.mapOf q.1 q.2)) []
        if len < m.length then some s else some (s.writePlace x.fn p m false)

/-! ## The hold buffer (R284, R309) -/

/-- The hold buffer of a slot, checked again; none where it is absent or fails. -/
def State.holdPlace (s : State) (sl : Slot) : Option Nat :=
  let x := s.fnSt sl.fn
  let r : RangeRef := { off := sl.holdOff, win := sl.holdWin, space := 1 }
  match checkRange x.hwin x.dwin r sl.holdLen true, checkRange x.hwin x.dwin r sl.holdLen false with
  | some (.lp5x a), some _ => some a
  | _, _ => none

/-- For each command buffer that a frame has written, how many bytes from its start on. -/
def Run.extents (x : Run) : List (Nat × Nat) :=
  (List.range 16).filterMap fun b =>
    let l := (x.wrote.filter fun p => p.1 / 2 ^ 48 == b).map fun p => p.1 % 2 ^ 48 + 1
    if l.isEmpty then none else some (b, l.foldl max 0)

/-- Where each buffer's bytes begin in the hold buffer. -/
def holdBases : Nat → List (Nat × Nat) → List (Nat × Nat × Nat)
  | _, [] => []
  | o, (b, n) :: t => (b, n, o) :: holdBases (o + roundUp n 64) t

/-- The lines of a hold copy. -/
def Run.holdLines (x : Run) (limit : Nat) (l : List (Nat × Nat)) : List OutLine :=
  (holdBases 0 l).flatMap fun q =>
    ((cut64 (q.2.1 + 1) q.2.2 ((List.range q.2.1).map fun i => Table.get 0 x.wrote (lineKey q.1 i))).filter fun y =>
      decide (y.1 + y.2.length ≤ limit)).map fun y => { buf := 256, off := y.1, data := y.2, poison := false }

/-- A clean frame of a stream is also written to the hold buffer, before its completion. -/
def State.holdCopy (s : State) (x : Run) (i : Nat) : State × Run :=
  let sl := s.slot i
  if !sl.hold ∨ x.outCount ≠ 0 then (s, { x with copied := true })
  else
    match s.holdPlace sl with
    | none => (s.setFnTrb sl.fn .streamFault, { x with copied := true })
    | some a =>
      (s.updSlot i fun y => { y with holdFull := true, holdExt := x.extents },
        { x with copied := true, holdAt := a, writes := x.writes ++ x.holdLines sl.holdLen x.extents })

/-- Read the hold buffer for a repeat: lines for the dropped frame's buffers. -/
def State.repeatLines (s : State) (a : Nat) : List (Nat × Nat × Nat) → State × List OutLine
  | [] => (s, [])
  | (b, n, o) :: t =>
    let parts := cut64 (n + 1) 0 (zeroBytes n)
    let u := parts.foldl (fun (u : State × List OutLine) q =>
      let r := u.1.lpRead (a + o + q.1) q.2.length
      (r.1.stat 0 19 0, u.2 ++ [{ buf := b, off := q.1, data := r.2.1, poison := !r.2.2.isEmpty }])) (s, [])
    let v := u.1.repeatLines a t
    (v.1, u.2 ++ v.2)

/-- A dropped frame repeats the last clean one, or sets no_repeat. -/
def State.holdRepeat (s : State) (x : Run) (i : Nat) : State × Run :=
  let sl := s.slot i
  if !sl.hold ∨ !sl.holdFull then (s, { x with copied := true, noRepeat := true })
  else
    match s.holdPlace sl with
    | none => (s.setFnTrb sl.fn .streamFault, { x with copied := true, noRepeat := true })
    | some a =>
      let u := s.repeatLines a (holdBases 0 sl.holdExt)
      (u.1, { x with copied := true, writes := x.writes ++ u.2 })

/-! ## Stream slots (R353, R359, R360) -/

/-- The capture record (Table 13-4). -/
def State.captureRecord (s : State) (i b : Nat) : Bytes :=
  let sl := s.slot i
  let c := Table.get {} sl.bufs b
  leBytes 8 c.stamp.toNat ++ leBytes 2 c.frameNo.toNat ++ leBytes 2 (b % 8 + 8 * b2n c.short + 16 * b2n c.poisoned)
    ++ leBytes 4 sl.overruns.toNat

/-- Write the capture record of a frame (R359). -/
def State.leaveCapture (s : State) (x : Run) : State :=
  match x.slot, x.cap, x.capRec with
  | some i, some b, some p => s.writePlace x.fn p (s.captureRecord i b) false
  | _, _, _ => s

/-! ## The end -/

/-- Log a command's failing lines (R274, R518). -/
def State.reportFault (s : State) (c : Cmd) (x : Run) : State :=
  if x.abort then (if x.failWords.1 ≠ 0 then s.setFnTrb c.fn .streamFault else s)
  else if !x.poisoned then s
  else
    s.logEvent 0x31 (fnByte c.fn)
      (leBytes 4 x.failWords.1.toNat ++ leBytes 4 x.failWords.2.toNat ++ leBytes 1 c.ring ++ leBytes 4 c.seq.toNat)
      [.fn c.fn FnTrb.streamFault.bit]

/-- What the completion of a deadline-carrying command needs (R281, R285, R286). -/
def Run.missInfo (x : Run) : Option MissInfo :=
  x.deadline.map fun d =>
    { deadline := d, widen := x.reran || x.kept, halt := x.halt, pace := x.pace, input := x.input
      contention := x.contention, kept := x.kept, haltDrop := x.haltDrop, stage := x.missStage.getD 0, slot := x.slot, cap := x.cap }

/-- A command that runs here ends with a status and result words. -/
def State.endRun (s : State) (k : Nat) (x : Run) (status : BitVec 16) (r0 r1 : Word) : State :=
  match s.cmd? k with
  | none => s
  | some c =>
    let a := ((s.reportFault c x).leaveCapture x).stat c.fn 16 x.wasted
    let b := (a.stat c.fn 13 x.inTotal).stat c.fn 14 x.outCount
    let d := { b with comp := { b.comp with runs := Table.erase b.comp.runs k } }
    let e := (d.updCmd k fun y => { y with miss := x.missInfo }).endCmd k status r0 r1
    match x.slot with
    | some i => e.slotDone i
    | none => e

/-- The ring class of a command's ring, for CLASS_DEMOTED (R426). -/
def State.demoted (s : State) (k : Nat) (x : Run) : Bool :=
  x.train.isSome && (match s.cmd? k with
    | some c => s.cmdRt c
    | none => false)

/-- A frame served for a lead chip ends: the lead is told (R374, R485). -/
def State.endServed (s : State) (k : Nat) (x : Run) (status : BitVec 16) : State :=
  match x.lead with
  | none => s
  | some (c, key) =>
    let a := { s with comp := { s.comp with runs := Table.erase s.comp.runs k } }
    a.sendCtrl c (.done key status x.kept x.failWords.1 x.failWords.2 x.inTotal x.outElsewhere (s.haltNow - x.halt) x.pace x.input
      x.contention)

/-- The words of a completed command: Table 10-3, or R432 for a copy. -/
def Run.okWords (x : Run) : Word × Word :=
  (x.countWord, if x.kind = .copy then BitVec.ofNat 32 (ceilDiv x.pos 64) else 0)

/-- What another chip reported of a frame counts with what this chip has met (R374, R485). -/
def Run.remoteStatus (x : Run) (own : BitVec 16) : BitVec 16 :=
  match x.report with
  | some r => if bitsOf r.status 15 8 ≤ 1 then r.status ||| own else r.status
  | none => own

/-- A command has come to its end with everything written. -/
def State.finishOk (s : State) (k : Nat) (x : Run) : State :=
  if x.lead.isSome then s.endServed k x (x.status false)
  else
    let st := x.remoteStatus (x.status (s.demoted k x))
    if 1 < bitsOf st 15 8 then s.endRun k x st (if st = St.peerLost then x.countWord else x.failWords.1) x.failWords.2
    else s.endRun k x st x.okWords.1 x.okWords.2

/-- The chip that runs a frame is told once that the frame stops: a dropped frame's outputs are discarded there (R484), those of
another are finished tile by tile (R275, R279). -/
def State.tellDrop (s : State) (k : Nat) (x : Run) (st : Stop) : State × Run :=
  match x.chip with
  | some c =>
    if x.told || x.report.isSome then (s, x)
    else (s.sendCtrl c (.drop k st.drop), { x with told := true, upLines := if st.drop then [] else x.upLines })
  | none => (s, x)

/-- A stopped frame waits for the chip that runs it: the tiles that it has begun are still written (R275 step 3, R276). -/
def Run.awaits (x : Run) (st : Stop) : Bool := x.chip.isSome && x.report.isNone && !st.drop

/-- A stopped command has come to its end (R277, R279, R283, R376, R428). -/
def State.finishStop (s : State) (k : Nat) (x : Run) (st : Stop) : State :=
  if x.lead.isSome then s.endServed k x st.status
  else if st.drop then
    let a := (s.stat x.fn 10 1).endRun k { x with outBad := [], inPoison := 0, stages := [] } (x.status false) 0
      (mkWord [(6, 1), (7, b2n x.noRepeat)])
    a
  else if st.status = St.peerLost then
    s.endRun k x st.status x.countWord (mkWord [(6, b2n (x.lateDrop && !x.noRepeat)), (7, b2n (x.lateDrop && x.noRepeat))])
  else if st.located then s.endRun k x st.status x.failWords.1 x.failWords.2
  else s.endRun k x st.status 0 0

/-! ## Stops (R275, R283) -/

/-- A column of a stopped command: a load phase is abandoned, and what an earlier tile left is drained. -/
def State.quenchCol (u : State × Run) (stage col : Nat) : State × Run :=
  let x := u.2.updCol stage col fun c => if c.phase = .load then { c with phase := .idle } else c
  if (x.col stage col).phase = .compute then (u.1, x) else u.1.drainColumn x stage col

/-- Every column of a stopped command. -/
def State.quench (s : State) (x : Run) : State × Run :=
  x.stageList.foldl (fun (u : State × Run) n =>
    (List.range 8).foldl (fun (v : State × Run) j => State.quenchCol v n j) u) (s, x)

/-- Some core of a command computes. -/
def Run.computing (x : Run) : Bool := x.stages.any fun p => p.2.cols.any fun q => decide (q.2.phase = .compute)

/-- Writes of a dropped frame to host memory and LP5X that have not been issued are suppressed (R283 step 3). -/
def Run.suppress (x : Run) (st : Stop) : Run :=
  if st.drop && !x.copied then { x with writes := x.writes.map fun (o : OutLine) => { o with beyond := true } } else x

/-- A frame that repeats the last clean one when it stops (R284, R375). -/
def Run.repeats (x : Run) (st : Stop) : Bool := st.drop || (decide (st.status = St.peerLost) && x.lateDrop)

/-- A stopped command goes on to its end as far as it can. -/
def State.settleStop (s0 : State) (k : Nat) (x0 : Run) (st : Stop) : State :=
  let c := s0.closeUpdate x0
  let d := c.1.tellDrop k c.2 st
  let u := d.1.quench (d.2.suppress st)
  let a := u.1.freeTokens u.2
  let y : Run := { u.2.suppress st with holds := [] }
  if y.computing || y.awaits st then a.setRun k y
  else
    let v := match y.slot with
      | some i => if y.repeats st && !y.copied then a.holdRepeat y i else (a, y)
      | none => (a, y)
    if v.2.writes.isEmpty then (v.1.setRun k v.2).finishStop k v.2 st else v.1.setRun k v.2

/-- Every stage has drained, or the chip that ran the frame has reported. -/
def Run.allDone (x : Run) : Bool :=
  match x.kind with
  | .copy => x.asked == 1
  | .pattern =>
    if x.chip.isSome then x.report.isSome
    else x.stageList.all fun n => decide ((x.stage n).phase = .done)

/-- A TRAIN step has its target whole, and how long it is (R605). -/
def State.targetLen (s : State) (x : Run) : Option Nat :=
  match s.targetBuf x with
  | none => some 0
  | some b =>
    match x.bufLen b with
    | none => none
    | some n => if (x.missing b (n + 1) 0 n).isNone && (List.range n).all fun i => (s.cmdByte x b i).isSome then some n else none

/-- What precedes the end of a command: a TRAIN step's later phases; none while its target is not at hand. -/
def State.beforeEnd (s : State) (x : Run) : Option (State × Run) :=
  if x.train.isNone ∨ x.copied ∨ x.updating.isSome then some (s, x) else (s.targetLen x).map fun n => s.trainEnd x n

/-- A drop whose moment passed during a halt waits for the resume (R287). -/
def Run.dropWaits (x : Run) : Bool := x.lateDrop && x.missStage.isSome && x.lead.isNone

/-- A command that nothing has stopped ends when every stage has drained and every write has been issued (R263). -/
def State.settleDone (s : State) (k : Nat) (x : Run) : State :=
  if x.waitCap || x.dropWaits || !x.allDone || !x.writes.isEmpty then s
  else
    match s.beforeEnd x with
    | none => s
    | some t =>
      let u := match t.2.slot with
        | some i => if t.2.copied then t else t.1.holdCopy t.2 i
        | none => t
      if u.2.updating.isSome || !u.2.writes.isEmpty then u.1.setRun k u.2
      else
        match u.1.writeMap u.2 with
        | none => u.1.setRun k u.2
        | some a => a.finishOk k u.2

/-- Outputs to blocks of the tenant's partition take no write slot: the cores have written them (R252). What is left of a write
whose block is elsewhere, or not known yet, stays in the queue. -/
def State.flushLine (s : State) (x : Run) : Nat → OutLine → State × Run
  | 0, o => (s, { x with writes := x.writes ++ [o] })
  | fuel + 1, o =>
    let inSac : Bool := o.buf < 16 && (match (x.buf o.buf).locate o.off with
      | .at _ b _ => b.space == 3
      | _ => false)
    match (if inSac then s.issueOut x o else none) with
    | some (t, y, some rest) => t.flushLine y fuel rest
    | some (t, y, none) => (t, y)
    | none => (s, { x with writes := x.writes ++ [o] })

/-- The outputs of a command that lie in the partition are there. -/
def State.flushSac (s : State) (k : Nat) (x : Run) : State × Run :=
  if x.writes.isEmpty || x.light || x.lead.isSome then (s, x)
  else
    let u := x.writes.foldl (fun (u : State × Run) o => u.1.flushLine u.2 (o.data.length + 1) o) (s, { x with writes := [] })
    (u.1.setRun k u.2, u.2)

/-- Carry a command on to its end as far as it can go. -/
def State.settle (s : State) (k : Nat) : State :=
  match s.run? k with
  | none => s
  | some x =>
    let u := s.flushSac k x
    match u.2.stop with
    | some st => u.1.settleStop k u.2 st
    | none => u.1.settleDone k u.2

/-- Stop a command, unless it has been stopped already. -/
def State.stopRun (s : State) (k : Nat) (st : Stop) : State :=
  (s.updRun k fun x => { x with stop := some (x.stop.getD st) }).settle k

/-- Settle every running command, in ticket order. -/
def State.settleAll (s : State) : State := (s.comp.runs.map Prod.fst).foldl State.settle s

end Sys2Proof.Machine
end

