-- ==== Sys2Proof/Machine/Stages.lean ====
section
/-!
DEFINITION. The sequencers (chapters 6, 7, 9, 10): a stage passes its gate (R259 to R262), a layer run starts (R148, R173, R183,
R231), tiles are granted, loaded and computed (R242 to R251), columns drain (R252), drift is checked and a layer re-run (R154 to
R168).
-/

namespace Sys2Proof.Machine

open LayerRec PieceRec

/-! ## Which stages may act -/

/-- A stage of a command that runs on this chip and that nothing has stopped, while the fabric runs (R33, R42). -/
def State.liveStage (s : State) (k n : Nat) : Option Run :=
  match s.run? k with
  | none => none
  | some x =>
    if s.fabricRuns && x.stop.isNone && decide (x.kind = .pattern) && x.chip.isNone && !x.waitCap && x.stageList.contains n then some x
    else none

/-- A LAYER trace packet: 0 start, 1 end, 2 drift, 3 re-run start (Table 22-7). -/
def State.layerTrace (s : State) (x : Run) (n aux : Nat) : State :=
  s.traceEmit 3 (some x.fn) false 0x12 (origin (s.pieceOf x n)) aux
    (BitVec.ofNat 32 ((x.stage n).layer % 65536 + 65536 * x.pieceIdx n))

/-! ## STAGE_START (R260 to R262) -/

/-- A token is in one of two states. -/
def State.tokenIs (s : State) (k : Nat) (q : Option Nat) (a b : Token) : Bool :=
  match q with
  | none => true
  | some key => decide (s.token k key = a) || decide (s.token k key = b)

/-- The next layer of a stage may start: the stage's turn has come and its slots hold the tokens that the layer needs. -/
def State.gateOpen (s : State) (k : Nat) (x : Run) (n : Nat) : Bool :=
  let r := s.recAt x n (x.stage n).layer
  !s.stageBusy k x n && s.tokenIs x.bind (x.readToken n r) .ready .reading && s.tokenIs x.bind (s.writeToken x n r) .free .filling

/-- Set a token where there is one. -/
def State.setTokenOf (s : State) (k : Nat) (q : Option Nat) (v : Token) : State :=
  match q with
  | none => s
  | some key => s.setToken k key v

/-- Add keys to the slots that a command holds. -/
def Run.hold (x : Run) (l : List Nat) : Run :=
  { x with holds := l.foldl (fun (h : List Nat) k => if h.contains k then h else h ++ [k]) x.holds }

/-- Ticks for which a stage has waited, but for those of a halt (R285). -/
def State.waitTicks (s : State) (t : StageSt) : Nat :=
  match t.waits with
  | some w => (s.time - w).toNat - (s.haltNow - t.waitHalt)
  | none => 0

/-- A stage passes its gate. The wait of the first stage before its first layer is counted with the first grant (R285). -/
def State.passGate (s : State) (k : Nat) (x : Run) (n : Nat) : State :=
  let r := s.recAt x n (x.stage n).layer
  let rd := x.readToken n r
  let wr := s.writeToken x n r
  let a := (s.setTokenOf x.bind rd .reading).setTokenOf x.bind wr .filling
  let w := (List.range 4).map fun q => Table.get 0 s.pace.withheld q
  let y := (x.hold (rd.toList ++ wr.toList)).updStage n fun t =>
    { t with phase := .open, waits := none, withheld := if t.layer = 0 then w else t.withheld }
  let wait := if n = x.first ∧ (x.stage n).layer = 0 then 0 else s.waitTicks (x.stage n)
  a.setRun k { y with contention := x.contention + wait }

/-- A stage's group includes a core that has failed (R27). -/
def State.groupFailed (s : State) (x : Run) (n : Nat) : Bool :=
  (PieceRec.cores (s.pieceOf x n)).any fun c => Table.get false s.life.failed c

/-- A stage begins to wait, unless it waits already (R285). -/
def State.beginWait (s : State) (t : StageSt) : StageSt := if t.waits.isSome then t else { t with waits := some s.time, waitHalt := s.haltNow }

/-- STAGE_START: a stage whose group includes a failed core ends its command (R27); any other passes its gate; a stage that may
not yet pass begins to wait (R285). -/
def execStageStart (t : RunId) (stage : Fin 8) (s : State) : Host.Outcome State Fault Refusal :=
  match s.liveStage t.val stage.val with
  | none => ok s
  | some x =>
    if (x.stage stage.val).phase ≠ .gate then ok s
    else if s.groupFailed x stage.val ∧ !s.stageBusy t.val x stage.val then ok (s.stopRun t.val { status := St.coreFault })
    else if s.gateOpen t.val x stage.val then ok (s.passGate t.val x stage.val)
    else ok (s.setRun t.val (x.updStage stage.val s.beginWait))

/-! ## Prefetch of the successor (R173, R250, R251) -/

/-- The successor of the present layer in its piece, where it has weights to prefetch: its record and nest record. -/
def State.successor (s : State) (x : Run) (n : Nat) : Option (LayerRec × NestRec) :=
  let pat := s.runPat x
  let p := s.pieceOf x n
  let l := (x.stage n).layer + 1
  let r := s.recAt x n l
  if l < nLayers p ∧ opKind r = 0 then
    some (r, if modeN r then s.extentRange pat (origin p) (nestAt (Pattern.pieces pat) (x.pieceIdx n) (nestOff r)) 32 else [])
  else none

/-- The successor's first weight tile for a column. -/
def State.nextTile (s : State) (x : Run) (n col : Nat) : Option (LayerRec × NestRec × Box) :=
  match s.successor x n with
  | none => none
  | some (r, nest) =>
    ((columnTiles r nest (dynOf (s.runPat x) r x.lens) (gh (s.pieceOf x n)) col).head?).map fun b => (r, nest, b)

/-- The home banks of a column read the successor's first weight tile, once for each layer run. -/
def State.fetchNext (s : State) (x : Run) (n col : Nat) : State × Run :=
  if (x.col n col).next.isSome then (s, x)
  else
    match s.nextTile x n col with
    | none => (s, x)
    | some (r, nest, b) =>
      let q := s.readTile (s.runPat x) (x.pieceIdx n) r nest col b
      (q.1, (x.updCol n col fun y => { y with next := some q.2.image, nextBad := q.2.blocks r }).weightLines n q.2.lines)

/-- It lands in the shadow half of a core. -/
def State.landNext (s : State) (x : Run) (n col core : Nat) : State :=
  match (x.col n col).next, s.successor x n with
  | some img, some (r, _) =>
    { s with addr := { s.addr with cores := cPut s.addr.cores core (Ctx.shadowAt r (1 - (x.stage n).half)) img } }
  | _, _ => s

/-! ## LAYER_START (R148, R173, R183, R231) -/

/-- What LAYER_START reads from the home bank of the group's origin core, and how many lines of it came in poisoned. -/
structure LayerRead where
  record : Bytes
  nest : Bytes
  tab : Bytes
  lines : Nat
  deriving DecidableEq, Repr

/-- The 64-byte lines of an extent's range that lie in given code words. -/
def linesIn (o len : Nat) (words : List Nat) : Nat :=
  ((List.range (lineCount o len)).filter fun i => words.contains ((o / 64 + i) / 4)).length

/-- Read a layer's record, its nest record and its tables. -/
def State.readLayer (s : State) (x : Run) (n : Nat) : State × LayerRead :=
  let pat := s.runPat x
  let i := x.pieceIdx n
  let ps := Pattern.pieces pat
  let bank := origin (s.pieceOf x n)
  let o := layerAt ps i (x.stage n).layer
  let a := s.extentRead pat bank o 128
  let r : LayerRec := a.2.1
  let on := nestAt ps i (nestOff r)
  let b := a.1.extentRead pat bank on (if modeN r then 32 else 0)
  let ot := tablesAt ps i (tabOff r)
  let c := b.1.extentRead pat bank ot (tableBytes r)
  (c.1, { record := r, nest := b.2.1, tab := c.2.1
          lines := linesIn o 128 a.2.2 + linesIn on 32 b.2.2 + linesIn ot (tableBytes r) c.2.2 })

/-- Every buffer that a layer names is in the command's table (R411); the staging buffer of a nest record counts too. -/
def Run.namesOk (x : Run) (q : LayerRead) : Bool :=
  ([srcBuf q.record, dstBuf q.record, auxBuf q.record]
    ++ (if modeN q.record && !x.light then [leAt q.nest 20 4 / 2 ^ 28] else [])).all fun b => decide (16 ≤ b) || decide (b < x.nbuf)

/-- The state of a stage at the start of a layer run; counters are reset (R150), a column's first weight tile may stand in
the half already. -/
def StageSt.begin (t : StageSt) (q : LayerRead) : StageSt :=
  { t with
    phase := .running
    half := if t.layer = 0 then 0 else 1 - t.half
    rerun := false
    record := q.record
    nest := q.nest
    tab := q.tab
    tabBad := decide (q.lines ≠ 0)
    cols := t.cols.map fun p => (p.1, ({ badW := p.2.nextBad } : ColSt))
    cores := []
    granted := false
    inCount := 0
    baseIn := 0
    seen := []
    overIdx := [] }

/-- Set the columns of a layer run: one without tiles is done at once (R183). -/
def State.setCols (s : State) (x : Run) (n : Nat) : Run :=
  let c := s.ctxOf x n
  (List.range c.gw).foldl (fun (y : Run) j =>
    y.updCol n j fun z => { z with tile := 0, phase := if (c.tiles j).isEmpty then .done else .idle, held := false, loaded := false }) x

/-- The last tile of a column in which a group row has positions. -/
def Ctx.lastTile (c : Ctx) (row col : Nat) : Option Nat :=
  let l := c.tiles col
  (List.range l.length).reverse.find? fun i =>
    match l[i]? with
    | some b => decide ((c.part row b).positions ≠ 0)
    | none => false

/-- Cores without a tile in a layer run receive the prefetch as soon as their block is found empty (R250). -/
def State.landEmpty (s : State) (x : Run) (n : Nat) : State × Run :=
  let c := s.ctxOf x n
  let p := s.pieceOf x n
  (List.range c.gw).foldl (fun (u : State × Run) j =>
    let rows := (List.range c.gh).filter fun i => (c.lastTile i j).isNone
    if rows.isEmpty then u
    else
      let v := u.1.fetchNext u.2 n j
      (rows.foldl (fun (a : State) i => a.landNext v.2 n j (core p i j)) v.1, v.2)) (s, x)

/-- Every input line of a light command is at hand (R240). -/
def State.lightReady (s : State) (x : Run) : Bool :=
  !x.light || (List.range ((x.bufLen 0).getD 0)).all fun i => (s.cmdByte x 0 i).isSome

/-- The cores of a group take the registers of a layer run: LUT entries (R130), sign vector (R145), the parameters of a vector
operator (Table 8-7). -/
def State.setRegs (s : State) (l : List Nat) (r : LayerRec) (tab : Bytes) : State :=
  let g (q : CoreRegs) : CoreRegs :=
    { q with
      lut := if opKind r = 0 then lutOf r tab else []
      signs := if signEn r then (r.drop 0x60).take 32 else []
      par := if isArray r then [] else (tab.drop (requantOff r)).take 32 }
  { s with addr := { s.addr with coreRegs := l.foldl (fun (t : Table CoreRegs) c => Table.upd {} t c g) s.addr.coreRegs } }

/-- The lines of a layer's tables that the cores take through the SAC: the user grid and the scales (R16). -/
def gridLines (r : LayerRec) : Nat := lineCount 0 (if userGrid r then 32 else 0) + lineCount (scaleOff r) (scaleBytes r)

/-- A layer run starts. -/
def State.startLayer (s : State) (k : Nat) (x : Run) (n : Nat) : State :=
  let q := s.readLayer x n
  let a := (x.updStage n fun t => t.begin q.2).weightLines n q.2.lines
  let y := a.updStage n fun t => { t with baseIn := t.inCount }
  if !x.namesOk q.2 then
    (q.1.setRun k { y with stop := some { status := St.badParam } }).settle k
  else
    let r : LayerRec := q.2.record
    let b := (q.1.setRegs (PieceRec.cores (s.pieceOf x n)) r q.2.tab).perfAdd 37 (if isArray r then gridLines r else 0)
    let z := b.setCols y n
    let v := b.landEmpty z n
    (v.1.setRun k v.2).layerTrace v.2 n 0

/-- LAYER_START. -/
def execLayerStart (t : RunId) (stage : Fin 8) (s : State) : Host.Outcome State Fault Refusal :=
  match s.liveStage t.val stage.val with
  | none => ok s
  | some x => if (x.stage stage.val).phase = .open ∧ s.lightReady x then ok (s.startLayer t.val x stage.val) else ok s

/-! ## What a tile reads (R187, R242, R243) -/

/-- What every core of a column reads for a tile. -/
def State.columnNeeds (s : State) (x : Run) (f : Refs) (c : Ctx) (b : Box) : List Need :=
  (List.range c.gh).flatMap fun i => s.needs x f c (c.part i b)

/-- The staging of a column's tile in mode N: the SAC-level and the LP5X-level tile that it is a part of, by number and as
boxes. -/
structure Staging where
  sac : Nat
  lp : Nat
  sacBox : Box
  lpBox : Box
  deriving DecidableEq, Repr

/-- How a column's tile is staged. A source that lies in the SAC is not: the cores read it there (R243). -/
def Ctx.stagingOf (c : Ctx) (col tile : Nat) : Option Staging :=
  if !modeN c.r ∨ 16 ≤ srcBuf c.r then none
  else
    match (taggedTiles c.r c.nest c.dyn c.gh col)[tile]? with
    | none => none
    | some (i, _) =>
      let b := columnBlock c.r col
      let q := (outerPairs c.r c.nest b).getD i (0, b)
      some { sac := i, lp := q.1, sacBox := q.2, lpBox := (lpBoxes c.r c.nest b).getD q.1 b }

/-- The tile begins an LP5X-level tile: `old` is the SAC-level tile that was staged last. -/
def Staging.newLp (g : Staging) (c : Ctx) (col : Nat) (old : Option Nat) : Bool :=
  match old with
  | none => true
  | some i => ((outerPairs c.r c.nest (columnBlock c.r col)).map Prod.fst)[i]? != some g.lp

/-- The rows of a gather layer's source, which an LP5X-level tile holds whole (R204). -/
def sourceRows (r : LayerRec) : List Need := (List.range (inH r)).map fun y => (srcBuf r, inOff r y 0 0, inC r * fmtBytes (inFmt r))

/-- What a column reads to stage the tiles that its next tile is the first one of. -/
def State.stageNeeds (s : State) (x : Run) (n : Nat) (f : Refs) (c : Ctx) (col tile : Nat) : List Need :=
  match c.stagingOf col tile with
  | none => []
  | some g =>
    let old := (x.col n col).staged
    (if x.light || !g.newLp c col old then []
     else if LayerRec.gather c.r then sourceRows c.r else s.columnNeeds x f c g.lpBox)
      ++ (if old = some g.sac then [] else s.columnNeeds x f c g.sacBox)

/-- Everything that a column's load phase of a tile reads. -/
def State.tileNeeds (s : State) (x : Run) (n : Nat) (f : Refs) (c : Ctx) (col tile : Nat) (b : Box) : List Need :=
  s.stageNeeds x n f c col tile ++ s.columnNeeds x f c b

/-- A line of a command has a byte in one of a list of ranges. -/
def inNeeds (l : List Need) (p : Nat × Line) : Bool :=
  l.any fun q => decide (q.1 < 16) && decide (p.1 < lineKey q.1 q.2.1 + q.2.2) && decide (lineKey q.1 q.2.1 < p.1 + p.2.len)

/-- The lines of a command that a list of ranges touches. -/
def Run.linesOf (x : Run) (l : List Need) : List (Nat × Line) := x.lines.filter (inNeeds l)

/-- What the load phases in progress of a command read. -/
def State.loadNeeds (s : State) (x : Run) : List Need :=
  x.stageList.flatMap fun n =>
    if (x.stage n).phase ≠ .running then []
    else
      let c := s.ctxOf x n
      (List.range c.gw).flatMap fun j =>
        match (c.tiles j)[(x.col n j).tile]? with
        | some b => if (x.col n j).phase = .load then s.tileNeeds x n (s.refsOf x n c.r) c j (x.col n j).tile b else []
        | none => []

/-- A core reads a line in its present load phase: what evicts it from the ways does not take it from the core. -/
def State.pinned (s : State) (k : Nat) (p : Nat × Line) : Bool :=
  match s.run? k with
  | some x => inNeeds (s.loadNeeds x) p
  | none => false

/-- Count SAC hits (Table 24-7). -/
def State.sacHits (s : State) (n : Nat) : State :=
  let h := s.comp.sacHits + n
  { s with comp := { s.comp with sacHits := h % 1024 } }.perfAdd 36 (h / 1024)

/-! ## TILE_GRANT (R242, R245 to R250) -/

/-- A column's turn: odd columns start when the even ones' first load phase has ended (R246). -/
def Run.columnTurn (x : Run) (n col gw : Nat) : Bool :=
  col % 2 == 0 || decide ((x.col n col).tile ≠ 0) || (List.range gw).all fun j =>
    j % 2 == 1 || (x.col n j).loaded || decide ((x.col n j).phase = .done)

/-- The present tile's weights come from the home banks: not those of the second operand of MATMUL_AA, nor a first tile that
the predecessor's layer run prefetched (R181, R250, R251). -/
def Run.readsWeights (x : Run) (n col : Nat) (r : LayerRec) : Bool :=
  let t := x.stage n
  opKind r == 0 && (decide ((x.col n col).tile ≠ 0) || decide (t.layer = 0) || t.rerun)

/-- The home banks read a column's weight tile (R247, R248, R269). -/
def State.grantWeights (s : State) (x : Run) (n col : Nat) (c : Ctx) (b : Box) : State × Run :=
  if x.readsWeights n col c.r then
    let q := s.readTile (s.runPat x) (x.pieceIdx n) c.r c.nest col b
    (q.1, (x.updCol n col fun y => { y with image := q.2.image, badW := q.2.blocks c.r }).weightLines n q.2.lines)
  else
    (s, x.updCol n col fun y => { y with image := [], badW := if opKind c.r = 0 then y.badW else [] })

/-- The lines of an adapter's A and B blocks for a tile, as device ranges (R595). -/
def AdCtx.ranges (d : AdCtx) (r : LayerRec) (b : Box) : List (Nat × Nat) :=
  ((List.range d.rank).map fun j => (d.aAt + 2 * (j * inC r + b.c0), 2 * b.cn)) ++ [(d.bAt + 2 * b.k0 * d.rank, 2 * b.kn * d.rank)]

/-- Read one line of LP5X through a tenant's ways: a hit, or a miss that fetches it; whether it is poisoned. -/
def State.cachedLine (s : State) (f line : Nat) : State × Bool :=
  match s.cacheFind f false line with
  | some (_, c) => (s.sacHits 1, c.poison)
  | none =>
    let q := s.lpRead (64 * line) 64
    let t := (q.1.stat f 19 1).perfAdd 37 1
    (t.cachePut t.pinned f false (64 * line) q.2.1 (!q.2.2.isEmpty), !q.2.2.isEmpty)

/-- Read device ranges for a command, line by line; how many poisoned lines they hold. -/
def State.readRanges (s : State) (f : Nat) (l : List (Nat × Nat)) : State × Nat :=
  (l.flatMap fun q => (List.range (lineCount q.1 q.2)).map fun i => q.1 / 64 + i).foldl (fun (u : State × Nat) n =>
    let v := u.1.cachedLine f n
    (v.1, u.2 + b2n v.2)) (s, 0)

/-- Every weight block of a tile is poisoned by a poisoned line of the adapter region (R599). -/
def allBlocks (c : Ctx) (b : Box) : List Nat := List.range (b.kPad / 32 * taps c.r * b.cBlocks c.r)

/-- A column's adapter lines come through the SAC (R16, R599). -/
def State.grantAdapter (s : State) (k : Nat) (x : Run) (n col : Nat) (c : Ctx) (b : Box) : State × Run :=
  match c.ad with
  | none => (s, x)
  | some d =>
    let q := (s.setRun k x).readRanges x.fn (d.ranges c.r b)
    let y := (q.1.run? k).getD x
    (q.1, if q.2 = 0 then y else (y.updCol n col fun z => { z with badW := allBlocks c b }).weightLines n q.2)

/-- A tile that is some core's last: the successor's first weight tile is read (R250). -/
def State.grantNext (s : State) (x : Run) (n col : Nat) (c : Ctx) : State × Run :=
  if (List.range c.gh).any fun i => c.lastTile i col == some (x.col n col).tile then s.fetchNext x n col else (s, x)

/-- The first grant of a layer run is noted; a command's first counts its wait (R285). -/
def State.stampGrant (s : State) (k : Nat) (x : Run) (n : Nat) : Run :=
  let t := x.stage n
  let y := if t.granted then x else x.updStage n fun z => { z with granted := true }
  if t.granted ∨ t.rerun ∨ n ≠ x.first ∨ t.layer ≠ 0 then y
  else
    match s.cmd? k with
    | some c => { y with contention := y.contention + ((s.time - c.time).toNat - (s.haltNow - c.haltBase)) }
    | none => y

/-- Grant a column its next tile. -/
def State.grantTile (s : State) (k : Nat) (x : Run) (n col : Nat) (c : Ctx) (b : Box) : State :=
  let w := s.grantWeights x n col c b
  let d := w.1.grantAdapter k w.2 n col c b
  let p := d.1.grantNext d.2 n col c
  let y := p.1.stampGrant k p.2 n
  p.1.setRun k (y.updCol n col fun z => { z with phase := .load, since := s.time })

/-- TILE_GRANT. -/
def execTileGrant (t : RunId) (stage col : Fin 8) (s : State) : Host.Outcome State Fault Refusal :=
  match s.liveStage t.val stage.val with
  | none => ok s
  | some x =>
    let c := s.ctxOf x stage.val
    let y := x.col stage.val col.val
    if (x.stage stage.val).phase ≠ .running ∨ c.gw ≤ col.val ∨ y.phase ≠ .idle ∨ !x.columnTurn stage.val col.val c.gw then ok s
    else
      match (c.tiles col.val)[y.tile]? with
      | none => ok s
      | some b => ok (s.grantTile t.val x stage.val col.val c b)

/-! ## LOAD_PHASE_END (R187, R245, R250) -/

/-- Lines are consumed (R257). -/
def Run.useLines (x : Run) (l : List (Nat × Line)) : Run :=
  { x with lines := l.foldl (fun (t : Table Line) p => Table.insert t p.1 { p.2 with used := true }) x.lines }

/-- A load phase that waited for lines from an external source: the wait counts as input (R285). -/
def Run.countInput (x : Run) (since : BitVec 64) (l : List (Nat × Line)) : Run :=
  let last := (l.map fun p => p.2.came.toNat).foldl max 0
  let from' := max since.toNat x.waited.toNat
  if from' < last then { x with input := x.input + (last - from'), waited := BitVec.ofNat 64 last } else x

/-- A core's part of a column's tile in a load phase. -/
structure LoadJob where
  stage : Nat
  col : Nat
  row : Nat
  core : Nat
  box : Box
  full : Box
  lastTile : Bool
  deriving DecidableEq, Repr

/-- The cores of a column in a tile: also those that compute nothing of it, which take part in the rotation (R248). -/
def Ctx.jobs (c : Ctx) (p : PieceRec) (n col tile : Nat) (b : Box) : List LoadJob :=
  (List.range c.gh).map fun i =>
    { stage := n, col := col, row := i, core := core p i col, box := c.part i b, full := b
      lastTile := c.lastTile i col == some tile }

/-- A core computes its part of a tile. -/
def LoadJob.active (j : LoadJob) : Bool := decide (j.box.positions ≠ 0)

/-! ### Transfers -/

/-- A step of a transfer: bytes that enter core store, or a group of outputs that leaves it. -/
inductive CoreStep where
  | put (at' : Nat) (d : Bytes)
  | drain (p : Nat) (ks : List Nat)
  deriving DecidableEq, Repr

/-- The first `n` bytes of a transfer into core store, and the rest. -/
def takePuts : Nat → Puts → Puts × Puts
  | _, [] => ([], [])
  | n, (o, d) :: t =>
    if d.length ≤ n then
      let r := takePuts (n - d.length) t
      ((o, d) :: r.1, r.2)
    else ([(o, d.take n)], (o + n, d.drop n) :: t)

/-- A transfer into core store, in units of 512 bytes. -/
def packPuts : Nat → Puts → List (List CoreStep)
  | 0, _ => []
  | fuel + 1, l =>
    if l.all fun q => q.2.isEmpty then []
    else
      let q := takePuts 512 l
      (q.1.map fun v => .put v.1 v.2) :: packPuts fuel q.2

/-- A transfer into core store. -/
def putStream (l : Puts) : List (List CoreStep) := packPuts ((l.map fun q => q.2.length).sum / 512 + 1) l

/-- The drain of a core's part of a tile, in units of 512 bytes, in ascending order of core store. -/
def Ctx.drainStream (c : Ctx) (b : Box) : List (List CoreStep) :=
  let l : List (Nat × List Nat) :=
    if isArray c.r then (c.drainGroups b).flatMap fun ks => (List.range b.positions).map fun p => (p, ks) else c.drainOrder b
  let n := max 1 (512 / (fmtBytes (outFmt c.r) * if isArray c.r then 32 else 1))
  (List.range (ceilDiv l.length n)).map fun i => ((l.drop (n * i)).take n).map fun q => CoreStep.drain q.1 q.2

/-- Transfers share the core-store port by turns, 512 bytes at a time (R245); whose bytes have arrived when its turn comes is
open (log entry 62). -/
def mergeFree {α : Type} : Nat → Nat → List (List α) → List α
  | 0, _, _ => []
  | fuel + 1, i, l =>
    match l.filter fun q => !q.isEmpty with
    | [] => []
    | [q] => q
    | m =>
      let k := Config.freeNat i % m.length
      match m.getD k [] with
      | [] => []
      | a :: t => a :: mergeFree fuel (i + 1) (m.set k t)

/-- What the transfers of a load phase leave: core store, and what has drained of the tile before. -/
structure LoadRun where
  m : Table Byte
  outs : List ((Nat × List Nat) × OutRun)
  deriving DecidableEq, Repr

/-- One step of a transfer at a core; `old` is the core's part of the tile before. -/
def Ctx.loadStep (c : Ctx) (core : Nat) (old : Box) (st : CoreSt) (u : LoadRun) (a : CoreStep) : LoadRun :=
  match a with
  | .put o d => { u with m := cPut u.m core o d }
  | .drain p ks => { u with outs := u.outs ++ [((p, ks), c.groupOut u.m core old st p ks)] }

/-- What a core's registers of a tile bring in: activations or a vector operator's inputs, and the core's counters. -/
def State.jobActs (s : State) (x : Run) (f : Refs) (c : Ctx) (j : LoadJob) (st : CoreSt) : Puts × CoreSt :=
  if !j.active then ([], st) else if isArray c.r then s.loadActs x f c j.box st else s.loadVec x f c j.box st

/-- The weight tile, of which every core of the column has the whole (R247, R248), with its scales and adapter blocks. -/
def State.jobWeights (s : State) (x : Run) (f : Refs) (c : Ctx) (j : LoadJob) : Puts :=
  if !isArray c.r then []
  else
    let img := if opKind c.r = 1 then (if j.active then (s.auxImage x f c j.full).1 else []) else (x.col j.stage j.col).image
    (c.wAt, img) :: if j.active then c.loadScales j.full ++ s.loadAdapter c j.full else []

/-- The successor's first weight tile, in the core's last tile (R250). -/
def State.jobNext (s : State) (x : Run) (j : LoadJob) : Puts :=
  match (x.col j.stage j.col).next, s.successor x j.stage with
  | some img, some (r, _) => if j.lastTile then [(Ctx.shadowAt r (1 - (x.stage j.stage).half), img)] else []
  | _, _ => []

/-- The loads of a core in a load phase, with the drain of its part `old` of the tile before, if the column holds one. -/
def State.jobLoad (s : State) (x : Run) (f : Refs) (c : Ctx) (old : Option Box) (j : LoadJob) : State × Run :=
  let st := Table.get {} (x.stage j.stage).cores j.core
  let prev : Box := (old.map (c.part j.row)).getD j.box
  let acts := s.jobActs x f c j st
  let l := [if old.isSome then c.drainStream prev else [], putStream acts.1, putStream (s.jobWeights x f c j), putStream (s.jobNext x j)]
  let n := (l.map List.length).sum
  let u := (mergeFree n s.fresh l).flatten.foldl (c.loadStep j.core prev st) { m := s.addr.cores, outs := [] }
  let y := x.updStage j.stage fun t => { t with cores := Table.set {} t.cores j.core acts.2 }
  let runs := if old.isSome then (c.drainOrder prev).filterMap fun q => (u.outs.find? fun o => o.1 == q).map Prod.snd else []
  { s with addr := { s.addr with cores := u.m }, fresh := s.fresh + n }.putRuns y j.stage f c.r runs

/-! ### Gather overflows, lines of the SAC -/

/-- Entries of the index list that a core's tile reads and that lie beyond the source (R203). -/
def State.overIdx (s : State) (x : Run) (f : Refs) (c : Ctx) (b : Box) : List Nat :=
  if !LayerRec.gather c.r then []
  else
    (((if isArray c.r then spanList c.r b else (List.range b.positions).map fun p => (0, p)).map fun p => b.x0 + p.2).filter fun n =>
      decide (n < c.colsIn) && decide (s.gatherPos x f c n = .null true false)).eraseDups

/-- Count gather overflows: each entry once in a layer run, and again in a re-run (R203, R478, log entry 48). -/
def State.countOver (s : State) (x : Run) (n : Nat) (f : Refs) (c : Ctx) (b : Box) : State × Run :=
  let seen := (x.stage n).overIdx
  let l := ((List.range c.gh).flatMap fun i => s.overIdx x f c (c.part i b)).eraseDups.filter fun i => !seen.contains i
  if l.isEmpty then (s, x)
  else ((s.stat x.fn 15 l.length).setFnTrb x.fn .gatherOverflow, x.updStage n fun t => { t with overIdx := seen ++ l })

/-- A line of the tenant's partition that a tile reads: the buffer reference, the line within it, the line of the partition. -/
abbrev SacLine := Nat × Nat × Nat

/-- The lines of the partition that a list of ranges reads (R243). -/
def State.partLines (s : State) (x : Run) (stage : Nat) (l : List Need) : List SacLine :=
  (l.flatMap fun q => (List.range q.2.2).filterMap fun i =>
    match s.resolve x stage q.1 with
    | .sac base => some (q.1, (q.2.1 + i) / 64, (base + q.2.1 + i) / 64)
    | .cmd b => if (x.byteAt b (q.2.1 + i)).isSome then none else (x.sacOffset b (q.2.1 + i)).map fun a => (q.1, (q.2.1 + i) / 64, a / 64)
    | .none => none).eraseDups

/-- Lines of the partition that are poisoned, or lie beyond the tenant's capacity, count once in a layer run (R264, R289); the
latter fail as a window failure does (R302). -/
def State.meetSac (s : State) (x : Run) (n : Nat) (l : List SacLine) : Run :=
  let seen := (x.stage n).seen
  let new := l.filter fun q => !seen.contains q.2.2
  let bad := new.filter fun q => ((s.sacRead x.fn (64 * q.2.2)).map Prod.snd).getD true
  let out := new.filter fun q => (s.sacRead x.fn (64 * q.2.2)).isNone
  let loc (q : SacLine) : FailLoc := { block := 0, buf := q.1, stage := n, write := false, line := q.2.1 }
  let y := x.updStage n fun t => { t with seen := seen ++ bad.map fun q => q.2.2 }
  match out with
  | q :: _ => if x.abort then y.abortAt (loc q) .window else y.sacLines n bad.length (loc q)
  | [] => y.sacLines n bad.length (loc (bad.headD (0, 0, 0)))

/-! ### Staging in mode N (R187, R204) -/

/-- Stage a piece of a source at an offset of a level's tile: in the tenant's partition (1), or in its device window (0). -/
def State.stagePiece (s : State) (x : Run) (n core : Nat) (nest : NestRec) (level off : Nat) (l : List (Byte × Bool)) : State × Run :=
  (cut64 (l.length + 1) off l).foldl (fun (u : State × Run) q =>
    let d := q.2.map Prod.fst
    let bad := q.2.any Prod.snd
    if level = 1 then u.1.putSac u.2 n 0x10 (leAt nest 16 4) (Config.stagePlace 1 core q.1) d bad
    else (u.1, u.2.putOut n (leAt nest 20 4 / 2 ^ 28) (leAt nest 20 4 % 2 ^ 28 + Config.stagePlace 0 core q.1) d bad false)) (s, x)

/-- The bytes of a range of a reference, each with its tag. -/
def State.rangeBytes (s : State) (x : Run) (f : Ref) (o n : Nat) : List (Byte × Bool) :=
  (List.range n).map fun i => (s.refByte x f (o + i)).getD (0, true)

/-- The rows of a gather layer's tile, assembled from the index list into a dense tile: its offset in the tile, and its bytes. -/
def State.denseRows (s : State) (x : Run) (f : Refs) (c : Ctx) (b : Box) : List (Nat × List (Byte × Bool)) :=
  let len := inC c.r * fmtBytes (inFmt c.r)
  ((List.range b.w).map fun i => b.x0 + i).filterMap fun n =>
    if c.colsIn ≤ n then none
    else
      match s.gatherPos x f c n with
      | .at y q => some (n * len, s.rangeBytes x f.src (inOff c.r y q 0) len)
      | _ => none

/-- The pieces of a SAC-level tile for one core: a dense tile of a gather layer, else the ranges that the core's tiles read. -/
def State.sacPieces (s : State) (x : Run) (f : Refs) (c : Ctx) (b : Box) : List (Nat × List (Byte × Bool)) :=
  if LayerRec.gather c.r then s.denseRows x f c b
  else ((s.needs x f c b).filter fun q => q.1 == srcBuf c.r).map fun q => (q.2.1, s.rangeBytes x f.src q.2.1 q.2.2)

/-- The pieces of an LP5X-level tile for one core: of a gather layer the whole source. -/
def State.lpPieces (s : State) (x : Run) (f : Refs) (c : Ctx) (b : Box) : List (Nat × List (Byte × Bool)) :=
  if LayerRec.gather c.r then (sourceRows c.r).map fun q => (q.2.1, s.rangeBytes x f.src q.2.1 q.2.2)
  else ((s.needs x f c b).filter fun q => q.1 == srcBuf c.r).map fun q => (q.2.1, s.rangeBytes x f.src q.2.1 q.2.2)

/-- Stage the pieces of a level's tile for every core of a column. -/
def State.stageLevel (s : State) (x : Run) (p : PieceRec) (n col : Nat) (c : Ctx) (level : Nat)
    (g : Box → List (Nat × List (Byte × Bool))) (b : Box) : State × Run :=
  (List.range c.gh).foldl (fun (u : State × Run) i =>
    (g (c.part i b)).foldl (fun (v : State × Run) q => v.1.stagePiece v.2 n (core p i col) c.nest level q.1 q.2) u) (s, x)

/-- Stage the LP5X-level and the SAC-level tile that a column's tile is the first one of, before the tile is loaded. A light
buffer has no LP5X level (R476). -/
def State.stageTile (s : State) (x : Run) (n col tile : Nat) (f : Refs) (c : Ctx) : State × Run :=
  match c.stagingOf col tile with
  | none => (s, x)
  | some g =>
    let old := (x.col n col).staged
    let p := s.pieceOf x n
    let u := if x.light || !g.newLp c col old then (s, x) else s.stageLevel x p n col c 0 (s.lpPieces x f c) g.lpBox
    let v := if old = some g.sac then u else u.1.stageLevel u.2 p n col c 1 (s.sacPieces x f c) g.sacBox
    (v.1, v.2.updCol n col fun y => { y with staged := some g.sac })

/-! ### The end of a load phase -/

/-- A tenant without cache ways keeps no line that has served the load which fetched it (R462); a SAC-level tile of mode N stays
until its last core tile has been loaded. -/
def State.dropUsed (s : State) (x : Run) (n col : Nat) (c : Ctx) (l : List Need) : Run :=
  let tags := (taggedTiles c.r c.nest c.dyn c.gh col).map Prod.fst
  let t := (x.col n col).tile
  if !(s.tenants.cacheWays x.fn).isEmpty ∨ x.light ∨ (modeN c.r ∧ tags[t + 1]? = tags[t]?) then x
  else
    let mine := (x.linesOf l).map Prod.fst
    x.forget fun q => mine.contains q.1 && q.2.fetched && q.2.used

/-- The transfers of a load phase end. -/
def State.endLoad (s : State) (k : Nat) (x : Run) (n col : Nat) (c : Ctx) (b : Box) (l : List Need) : State :=
  let f := s.refsOf x n c.r
  let t := (x.col n col).tile
  let js := c.jobs (s.pieceOf x n) n col t b
  let lines := x.linesOf l
  let x1 := (x.countInput (x.col n col).since lines).useLines lines
  let u1 := (s.sacHits (lines.length + if isArray c.r then gridLines c.r else 0)).countOver x1 n f c b
  let x2 := u1.1.meetSac u1.2 n (s.partLines x1 n l)
  let aux := if opKind c.r = 1 then (u1.1.auxImage x2 f c b).2 else (x.col n col).badW
  let x3 := x2.updCol n col fun y => { y with badW := aux }
  let x4 := if isArray c.r && col != 0 then x3 else u1.1.tapeLoads x3 n f l
  let g := u1.1.stageTile x4 n col t f c
  let old := if (x.col n col).held then (c.tiles col)[t - 1]? else none
  let d := js.foldl (fun (v : State × Run) j => v.1.jobLoad v.2 f c old j) g
  let y := d.2.updCol n col fun z => { z with phase := .compute, loaded := true, held := false }
  d.1.setRun k (d.1.dropUsed y n col c l)

/-- LOAD_PHASE_END: every line that the column's tile reads is at hand. -/
def execLoadPhaseEnd (t : RunId) (stage col : Fin 8) (s : State) : Host.Outcome State Fault Refusal :=
  match s.liveStage t.val stage.val with
  | none => ok s
  | some x =>
    let c := s.ctxOf x stage.val
    let y := x.col stage.val col.val
    if (x.stage stage.val).phase ≠ .running ∨ y.phase ≠ .load then ok s
    else
      match (c.tiles col.val)[y.tile]? with
      | none => ok s
      | some b =>
        let l := s.tileNeeds x stage.val (s.refsOf x stage.val c.r) c col.val y.tile b
        if s.ready x stage.val l then ok ((s.endLoad t.val x stage.val col.val c b l).settle t.val) else ok s

/-! ## COMPUTE_PHASE_END (R179, R200) -/

/-- A core computes its part of a tile. -/
def State.jobCompute (s : State) (x : Run) (f : Refs) (c : Ctx) (badW : List Nat) (j : LoadJob) : State × Run :=
  let a : CoreRun :=
    { m := s.addr.cores, st := Table.get {} (x.stage j.stage).cores j.core, regs := Table.get {} s.addr.coreRegs j.core }
  let r := s.computeTile x f c j.core j.box badW a
  let n := if opKind c.r = 0x15 then j.box.positions * j.box.cn else 0
  ({ s with
      addr := { s.addr with cores := r.m, coreRegs := Table.set {} s.addr.coreRegs j.core r.regs }
      fresh := s.fresh + n },
    x.updStage j.stage fun t => { t with cores := Table.set {} t.cores j.core r.st })

/-- The last tile of a column, or a tile of a stopped command, is drained at once. -/
def State.afterTile (s : State) (x : Run) (n col : Nat) (c : Ctx) : State × Run :=
  let y := x.col n col
  let last := decide ((c.tiles col).length ≤ y.tile)
  let u := if last || x.stop.isSome then s.drainColumn x n col else (s, x)
  (u.1, u.2.updCol n col fun z => { z with phase := if last then .done else .idle })

/-- A column's compute phase ends. -/
def State.endCompute (s : State) (k : Nat) (x : Run) (n col : Nat) (c : Ctx) (b : Box) : State :=
  let f := s.refsOf x n c.r
  let y := x.col n col
  let u := ((c.jobs (s.pieceOf x n) n col y.tile b).filter LoadJob.active).foldl (fun (v : State × Run) j => v.1.jobCompute v.2 f c y.badW j) (s, x)
  let v := u.2.updCol n col fun z => { z with tile := z.tile + 1, held := !isArray c.r || c.lastC b }
  let w := u.1.afterTile v n col c
  (w.1.setRun k w.2).settle k

/-- COMPUTE_PHASE_END: also of a stopped command, whose tiles in their compute phase complete (R275, R283). -/
def execComputePhaseEnd (t : RunId) (stage col : Fin 8) (s : State) : Host.Outcome State Fault Refusal :=
  match s.run? t.val with
  | none => ok s
  | some x =>
    let c := s.ctxOf x stage.val
    let y := x.col stage.val col.val
    if !s.fabricRuns ∨ (x.stage stage.val).phase ≠ .running ∨ y.phase ≠ .compute then ok s
    else
      match (c.tiles col.val)[y.tile]? with
      | none => ok s
      | some b => ok (s.endCompute t.val x stage.val col.val c b)

/-! ## LAYER_DRAIN_END (R154 to R168, R252) -/

/-- The compute factor of Table 6-3. -/
def widenFactor (r : LayerRec) : Nat := if wFmt r ≤ 3 then 4 else 2

/-- The lowest admitted rate of the quadrants of a group, in M beats/s (R163). -/
def State.groupRate (s : State) (p : PieceRec) : Nat :=
  ((PieceRec.cores p).map fun c => (Table.get ((0, 0) : BitVec 16 × BitVec 16) s.pace.rates (coreQuad c)).2.toNat).foldl min 65535

/-- The sequencer records the admitted beats of a narrow layer run that has drained (R163). No command tells how many beats passed
meanwhile: a free value (log entry 130). -/
def State.recordBeats (s : State) (x : Run) (n : Nat) : Run :=
  if (x.stage n).rerun then x else x.updStage n fun t => { t with beats := Config.freeNat s.fresh }

/-- The re-run estimate of a layer run fits the time left: the recorded beats times the compute factor, at the admitted rate,
against ticks of 38.4 MHz (R163, R164). -/
def State.timeFor (s : State) (p : PieceRec) (t : StageSt) (deadline : BitVec 64) : Bool :=
  s.time.toNat ≤ deadline.toNat &&
    decide (t.beats * widenFactor t.record * 384 ≤ (deadline - s.time).toNat * s.groupRate p * 10)

/-- What follows a drift: keep the results, keep them for want of time (R164), or re-run (R157). -/
inductive DriftStep where
  | keep | late | rerun
  deriving DecidableEq, Repr

/-- The response to a drift. -/
def State.driftStep (s : State) (x : Run) (n : Nat) : DriftStep :=
  let t := x.stage n
  if !widen t.record ∨ t.rerun ∨ !isArray t.record then .keep
  else
    match x.lateDrop, x.deadline with
    | true, some d => if s.timeFor (s.pieceOf x n) t d then .rerun else .late
    | _, _ => .rerun

/-- A layer has drifted: the count, the log entry and the trace packet (R155). -/
def State.reportDrift (s : State) (x : Run) (n : Nat) (rerun : Bool) : State :=
  let t := x.stage n
  let m := t.clips
  let a := s.logEvent 0x30 (fnByte x.fn)
    (leBytes 4 (s.bind x.bind).pattern.toNat ++ leBytes 1 (x.pieceIdx n) ++ leBytes 2 t.layer ++ leBytes 2 m.1 ++ leBytes 2 m.2.1
      ++ leBytes 1 m.2.2 ++ leBytes 1 (b2n rerun + 2 * b2n t.rerun)) [.fn x.fn FnTrb.drift.bit]
  (a.stat x.fn 11 1).layerTrace x n 2

/-- Lines of the command buffers that a layer reads, and the checks of their blocks, are forgotten: a re-run fetches them
afresh (R162, R238). -/
def Run.refetch (x : Run) (r : LayerRec) : Run :=
  let mine (b : Nat) : Bool := decide (b < 16) && (b == srcBuf r || b == auxBuf r)
  if x.light then x
  else
    let y := x.forget fun p => mine (p.1 / 2 ^ 48)
    { y with checked := y.checked.filter fun p => !(mine (p.1 / 2 ^ 14) && p.1 % 2 == 0) }

/-- The lines that a re-run fetches afresh leave the tenant's ways too, so that no older copy serves it (R162). -/
def State.dropCopies (s : State) (x : Run) (r : LayerRec) : State :=
  let mine (p : Nat × Line) : Bool := p.2.fetched && (p.1 / 2 ^ 48 == srcBuf r || p.1 / 2 ^ 48 == auxBuf r)
  let l := x.lines.filter mine
  if x.light then s
  else s.emptyCache fun c => c.2.fn == x.fn && l.any fun p => p.2.copies c.2.host (c.2.addr / 64)

/-- A widened re-run starts: marks and counts describe it alone (R157, R166). It keeps the record, the tables and the LUT entries
that LAYER_START read (R130, log entry 129). -/
def State.startRerun (s0 : State) (k : Nat) (x : Run) (n : Nat) : State :=
  let t := x.stage n
  let s := s0.dropCopies x t.record
  let w := x.refetch t.record
  let m := x.marker n
  let y : Run := { w with reran := true, outBad := dropMark m w.outBad, wroteBad := dropMark m w.wroteBad }
  let z := y.updStage n fun u =>
    { u with rerun := true, cols := [], cores := [], granted := false, inCount := u.baseIn, seen := [], overIdx := [] }
  let v := s.setCols z n
  ((s.setRun k v).stat x.fn 12 1).layerTrace v n 3

/-- Ticks for which the governors withheld beats from a stage, in the slowest quadrant of its group (R285): the beats at the
quadrant's unthrottled rate. -/
def State.stagePace (s : State) (x : Run) (n : Nat) : Nat :=
  let qs := (PieceRec.cores (s.pieceOf x n)).map coreQuad
  (qs.map fun q =>
    let d := Table.get 0 s.pace.withheld q - (x.stage n).withheld.getD q 0
    let r := (Table.get ((0, 0) : BitVec 16 × BitVec 16) s.pace.rates q).1.toNat
    if r = 0 then 0 else d * 384 / (r * 10)).foldl max 0

/-- Since when some column of a stage waits for lines; none where every load phase has its lines. -/
def State.loadSince (s : State) (x : Run) (n : Nat) : List (BitVec 64) :=
  if (x.stage n).phase ≠ .running then []
  else
    let c := s.ctxOf x n
    let f := s.refsOf x n c.r
    (List.range c.gw).filterMap fun j =>
      match (c.tiles j)[(x.col n j).tile]? with
      | some b =>
        if (x.col n j).phase = .load ∧ !s.ready x n (s.tileNeeds x n f c j (x.col n j).tile b) then some (x.col n j).since else none
      | none => none

/-- The components of R285 of the stages that a drop finds at work: beats withheld from them, waits for a token or a group, and
waits for lines. -/
def State.closeStages (s : State) (k : Nat) (x : Run) : Run :=
  let begun (n : Nat) : Bool := decide ((x.stage n).phase ≠ .done) && (decide ((x.stage n).phase ≠ .gate) || (x.stage n).layer != 0)
  let pace := ((x.stageList.filter begun).map fun n => s.stagePace x n).sum
  let t := x.stage x.first
  let granted := decide (t.layer ≠ 0) || t.granted || decide (t.phase = .done)
  let waits := (x.stageList.filter fun n => granted || n != x.first).map fun n =>
    if (x.stage n).phase = .gate then s.waitTicks (x.stage n) else 0
  let first := match s.cmd? k with
    | some c => if granted || x.waitCap then 0 else (s.time - c.time).toNat - (s.haltNow - c.haltBase)
    | none => 0
  let from' := (x.stageList.flatMap (s.loadSince x)).foldl (fun m v => min m v.toNat) s.time.toNat
  if x.chip.isSome || x.kind == .copy then x
  else
    { x with
      pace := x.pace + pace
      contention := x.contention + waits.sum + first
      input := x.input + (s.time.toNat - max from' x.waited.toNat) }

/-- No later layer of the stage reads, or writes, a slot. -/
def State.lastRead (s : State) (x : Run) (n : Nat) : Bool := (s.laterLayers x n).all fun r => (x.readToken n r).isNone
/-- The last layer that writes the stage's output hand-over. -/
def State.lastWrite (s : State) (x : Run) (n : Nat) : Bool := (s.laterLayers x n).all fun r => (s.writeToken x n r).isNone

/-- The tokens after a layer's drift check (R260, R261). -/
def State.passTokens (s : State) (x : Run) (n : Nat) : State × Run :=
  let r := (x.stage n).record
  let wr := if s.lastWrite x n then s.writeToken x n r else none
  let rd := if s.lastRead x n then x.readToken n r else none
  let a := (s.setTokenOf x.bind wr .ready).setTokenOf x.bind rd .free
  (a, { x with holds := x.holds.filter fun q => rd != some q })

/-- A layer has passed its drift check for good: the next layer waits at the gate, or the stage is done. -/
def State.passLayer (s : State) (k : Nat) (x : Run) (n : Nat) : State :=
  let u := s.passTokens x n
  let t := u.2.stage n
  let y : Run := { u.2 with
    inPoison := u.2.inPoison + t.inCount
    widened := u.2.widened || t.rerun
    wideRuns := if t.rerun then x.marker n :: u.2.wideRuns else u.2.wideRuns }
  let last := decide (nLayers (s.pieceOf x n) ≤ t.layer + 1)
  let z := y.updStage n fun v => { v with inCount := 0, baseIn := 0, layer := v.layer + 1, phase := if last then .done else .gate }
  let w := if last then { z with pace := z.pace + s.stagePace x n } else z
  (u.1.setRun k w).settle k

/-- The end of a layer's drain: the drift check and what it leads to. -/
def State.endLayer (s : State) (k : Nat) (x0 : Run) (n : Nat) : State :=
  let x := s.recordBeats x0 n
  let a := s.tick.layerTrace x n 1
  if !(x.stage n).drifted then a.passLayer k x n
  else
    match a.driftStep x n with
    | .rerun => (a.tick.reportDrift x n true).startRerun k x n
    | .late => (a.tick.reportDrift x n false).passLayer k { x with drift := true, kept := true } n
    | .keep => (a.tick.reportDrift x n false).passLayer k { x with drift := true } n

/-- The layer has drained (R252): every column is done, and every write of the stage to LP5X or host memory has been issued;
a light command writes its outputs after its last layer (R240). -/
def State.layerDrained (s : State) (x : Run) (n : Nat) : Bool :=
  let c := s.ctxOf x n
  ((List.range c.gw).all fun j => decide ((x.col n j).phase = .done)) && (x.light || x.writes.all fun o => o.stage != n || o.buf == 256)

/-- LAYER_DRAIN_END. -/
def execLayerDrainEnd (t : RunId) (stage : Fin 8) (s : State) : Host.Outcome State Fault Refusal :=
  match s.liveStage t.val stage.val with
  | none => ok s
  | some x =>
    if (x.stage stage.val).phase = .running ∧ s.layerDrained x stage.val then ok (s.endLayer t.val x stage.val) else ok s

end Sys2Proof.Machine
end

