-- ==== Sys2Proof/Machine/Wheel.lean ====
section
/-!
DEFINITION. The stream engines' wheels (R241 to R244, R253, R254, R465): what each class of slot may move, in which order, and
the move itself, with descriptor bursts and block checks (R237, R238); COPY (R432); the remote slots of ring jobs (R374).
-/

namespace Sys2Proof.Machine

open LayerRec PieceRec

/-! ## What a slot may move -/

/-- A move that a command has ready for a slot. -/
inductive Move where
  /-- A line of a command buffer that a stage reads: buffer, offset, end of the wanted range. -/
  | read (stage buf off want : Nat)
  /-- A descriptor burst of a buffer that nothing else needs. -/
  | burst (buf i : Nat)
  /-- The write at a place of the queue. -/
  | out (i : Nat)
  /-- The next piece of a COPY. -/
  | copy
  /-- The next input piece of a frame that another chip runs. -/
  | send
  /-- A range of an input buffer that a served frame asks its lead for: buffer, offset, end. -/
  | ask (buf off want : Nat)
  /-- A DATA flit that a port holds. -/
  | recv (port : Nat)
  deriving DecidableEq, Repr

/-- The stream engine that serves a stage of a command: that of its group's origin core (R244); a COPY's by its function
(R432). -/
def State.engineOf (s : State) (x : Run) (n : Nat) : Nat :=
  if x.kind = .copy then x.fn % 4 else coreQuad (origin (s.pieceOf x n))

/-! ## The run-ahead (R242, R243) -/

/-- The tiles of a column that may be fetched now, by number: the one in its load phase and the next two, in mode N those of the
present SAC-level tile and the next two. A tenant without cache ways keeps nothing ahead (R462). -/
def Ctx.ahead (c : Ctx) (col : Nat) (y : ColSt) (only : Bool) : List (Nat × Box) :=
  let l := taggedTiles c.r c.nest c.dyn c.gh col
  let all := ((List.range l.length).zip l).drop y.tile
  let n := if y.phase = .idle then 2 else 3
  if y.phase = .done ∨ (y.phase = .idle ∧ y.tile = 0) then []
  else if only then (if y.phase = .load then (all.take 1).map fun p => (p.1, p.2.2) else [])
  else if modeN c.r then
    let tags := (all.map fun p => p.2.1).eraseDups
    (all.filter fun p => (tags.take n).contains p.2.1).map fun p => (p.1, p.2.2)
  else (all.take n).map fun p => (p.1, p.2.2)

/-- The first line that a list of ranges lacks. -/
def Run.firstMissing (x : Run) (stage : Nat) : List Need → Option Move
  | [] => none
  | q :: t =>
    match (if q.1 < 16 then x.missing q.1 (q.2.2 + 1) q.2.1 (q.2.1 + q.2.2) else none) with
    | some o => some (.read stage q.1 o (q.2.1 + q.2.2))
    | none => x.firstMissing stage t

/-- What the run-ahead of a stage lacks: nearest tiles first. -/
def State.stageWants (s : State) (x : Run) (n : Nat) : Option Move :=
  if (x.stage n).phase ≠ .running then none
  else
    let c := s.ctxOf x n
    let f := s.refsOf x n c.r
    let only := (s.tenants.cacheWays x.fn).isEmpty
    let tiles := (List.range c.gw).map fun j => (j, c.ahead j (x.col n j) only)
    let depth := (tiles.map fun l => l.2.length).foldl max 0
    (List.range depth).findSome? fun d =>
      tiles.findSome? fun l =>
        match l.2[d]? with
        | some b => x.firstMissing n (s.tileNeeds x n f c l.1 b.1 b.2)
        | none => none

/-! ## Copies and frames of other chips: whole buffers in ascending order -/

/-- The next line that a whole buffer lacks from an offset on, or its next burst. -/
def Run.bufferWants (x : Run) (buf o : Nat) : Option Move :=
  let b := x.buf buf
  let e := match x.bufLen buf with
    | some n => n
    | none => b.starts.getLastD 0
  match x.missing buf (e + 1 - o) o e with
  | some q => some (.read (if x.kind = .copy then 0 else x.first) buf q e)
  | none => if (x.bufLen buf).isSome then none else some (.burst buf (b.starts.length - 1))

/-- The bytes of a buffer that are at hand from an offset on, at most to the end of its 64-byte line. -/
def State.atHand (s : State) (x : Run) (buf o : Nat) : List (Byte × Bool) :=
  ((List.range (64 - o % 64)).map fun i => s.cmdByte x buf (o + i)).takeWhile Option.isSome |>.filterMap id

/-- A COPY ends at the end of the shorter buffer (R432). -/
def Run.copyEnd (x : Run) : Run :=
  let past (b : Nat) : Bool := match x.bufLen b with
    | some n => decide (n ≤ x.pos)
    | none => false
  if x.kind = .copy ∧ (past 0 ∨ past 1) then { x with asked := 1 } else x

/-! ## Offers -/

/-- The poison map of an ended command waits for the length of a buffer (R273). -/
def State.mapWants (s : State) (x : Run) : Option Move :=
  if x.stop.isNone && x.allDone && x.writes.isEmpty && x.map.isSome && x.outCount != 0 then
    ((s.dstBufs x).find? fun b => (x.bufLen b).isNone).map fun b => .burst b ((x.buf b).starts.length - 1)
  else none

/-- A TRAIN step whose forward pass has ended reads its target buffer whole (R605). -/
def State.targetWants (s : State) (x : Run) : Option Move :=
  if x.allDone then (s.targetBuf x).bind fun b => x.bufferWants b 0 else none

/-- What a command has ready for a read slot of an engine. -/
def State.offerRead (s : State) (e : Nat) (x : Run) : Option Move :=
  if x.light ∨ x.lead.isSome ∨ x.waitCap then none
  else if x.stop.isSome then none
  else if x.kind = .copy then (if s.engineOf x 0 = e then x.bufferWants 0 x.pos else none)
  else if x.chip.isSome then
    (if s.engineOf x x.first ≠ e then none
     else
      match x.asks.head? with
      | some (b, o, len) => ((x.missing b (len + 1) o (o + len)).map fun q => .read x.first b q (o + len)).or (s.mapWants x)
      | none => s.mapWants x)
  else
    match x.stageList.findSome? fun n => if s.engineOf x n = e then s.stageWants x n else none with
    | some m => some m
    | none =>
      if s.engineOf x x.first ≠ e then none
      else
        match s.targetWants x with
        | some m => some m
        | none => s.mapWants x

/-- The first write in a command's queue that an engine serves. -/
def State.firstOut (s : State) (e : Nat) (x : Run) : Option Move :=
  ((List.range x.writes.length).find? fun i =>
    match x.writes[i]? with
    | some o => s.engineOf x (if o.buf = 256 then x.first else max o.stage x.first) == e
    | none => false).map Move.out

/-- What a command has ready for a write slot of an engine. -/
def State.offerWrite (s : State) (e : Nat) (x : Run) : Option Move :=
  if x.light ∨ x.lead.isSome then none
  else if x.kind = .copy then
    (if s.engineOf x 0 = e ∧ x.stop.isNone ∧ x.asked = 0 ∧ !(s.atHand x 0 x.pos).isEmpty then some .copy else none)
  else s.firstOut e x

/-- The command for which a DATA flit that a port holds comes: its channel's. -/
def State.chanRun (s : State) (f : Bytes) : Option (Chan × Nat × Run) :=
  match s.weft.chans.find? fun c => c.peer == Flit.src f && c.num == Flit.chan f with
  | none => none
  | some c =>
    if c.up then
      match s.run? c.key with
      | some x => if x.chip = some c.peer then some (c, c.key, x) else none
      | none => none
    else (s.comp.runs.find? fun p => decide (p.2.lead = some (c.peer, c.key))).map fun p => (c, p.1, p.2)

/-- The first flit of a port's buffer that is for this chip. -/
def State.rxHead (s : State) (port : Nat) : Option Bytes := (s.port port).rxBuf.find? fun f => Flit.dst f == s.self

/-- What a served frame has to ask its lead for: the run-ahead of its stages is as any other's (R242, R374). -/
def State.offerAsk (s : State) (e : Nat) (x : Run) : Option Move :=
  if x.stop.isSome then none
  else
    match x.stageList.findSome? fun n => if s.engineOf x n = e then s.stageWants x n else none with
    | some (.read _ b o w) => some (.ask b o w)
    | _ => none

/-- What a command has ready for a remote slot of an engine (R374). -/
def State.offerRemote (s : State) (e k : Nat) (x : Run) : Option Move :=
  let recv := (List.range 2).find? fun p =>
    match s.rxHead p with
    | some f => (match s.chanRun f with
      | some (_, j, _) => j == k
      | none => false)
    | none => false
  match recv with
  | some p => if s.engineOf x (if x.chip.isSome then x.last else x.first) = e then some (.recv p) else none
  | none =>
    if x.lead.isSome then (s.offerAsk e x).or (s.firstOut e x)
    else if x.chip.isSome ∧ x.stop.isNone ∧ s.engineOf x x.first = e then
      (match x.asks.head? with
       | some (b, o, _) => if (s.atHand x b o).isEmpty then none else some .send
       | none => none)
    else none

/-- What the light path has ready of a command (R240, R241): inputs, and outputs after the last layer. -/
def State.offerLight (x : Run) : Option Move :=
  if !x.light then none
  else
    let n := (x.bufLen 0).getD 0
    match (if x.stop.isNone then x.missing 0 (n + 1) 0 n else none) with
    | some o => some (.read 0 0 o n)
    | none =>
      if x.kind = .copy then (if x.stop.isNone ∧ x.asked = 0 then some .copy else none)
      else if (x.allDone || x.stop.isSome) && !x.writes.isEmpty then some (.out 0)
      else none

/-! ## The order (R465) -/

/-- An offer: the command's key, the command, the move. -/
abbrev Offer := Nat × Run × Move

/-- One offer goes before another: the earlier deadline, no deadline counting as the latest; then acceptance order. -/
def offerBefore (a b : Offer) : Bool :=
  match a.2.1.deadline, b.2.1.deadline with
  | some d, some e => decide (d < e) || (decide (d = e) && decide (a.2.1.order < b.2.1.order))
  | some _, none => true
  | none, some _ => false
  | none, none => decide (a.2.1.order < b.2.1.order)

/-- The offer that goes before every other. -/
def bestOffer : List Offer → Option Offer
  | [] => none
  | a :: t =>
    match bestOffer t with
    | none => some a
    | some b => if offerBefore b a then some b else some a

/-- The best-effort offer whose turn it is: weighted round robin over functions (R464, R465); and the turns after it. -/
def State.beOffer (s : State) (e : Nat) (l : List Offer) : Option (Offer × Table (Nat × Nat)) :=
  match weightedTurn (fun f => (s.fnSt f).quota.weight) (Table.get (0, 0) s.comp.beTurns e) (l.map fun o => o.2.1.fn) with
  | none => none
  | some u => (bestOffer (l.filter fun o => o.2.1.fn == u.1)).map fun o => (o, Table.set (0, 0) s.comp.beTurns e u)

/-- The offer that a slot takes, and the turns of the round robin after it. -/
def State.pickOffer (s : State) (e : Nat) (l : List Offer) : Option (Offer × Table (Nat × Nat)) :=
  match bestOffer (l.filter fun o => o.2.1.rt) with
  | some o => some (o, s.comp.beTurns)
  | none => s.beOffer e l

/-- The offers of the running commands. -/
def State.offers (s : State) (g : Nat → Run → Option Move) : List Offer :=
  s.comp.runs.filterMap fun p => (g p.1 p.2).map fun m => (p.1, p.2, m)

/-! ## Moves -/

/-- A line lies beyond the last block of its buffer: it fails as a window failure does. -/
def Run.pastLine (x : Run) (stage buf o want : Nat) : Run :=
  let len := min (want - o) (64 - o % 64)
  x.failLine (failAt buf (x.buf buf).count o o stage false) (lineKey buf o) len .window

/-- A line that a command has just read from LP5X goes into its tenant's ways (R457). -/
def State.cacheNew (s : State) (k key : Nat) : State :=
  match s.run? k with
  | none => s
  | some x =>
    match (Table.find x.lines key).bind fun l => if l.fetched && l.data.isSome && !l.poison then l.src.map fun p => (p, l.len) else none with
    | some (.lp5x a, len) =>
      (List.range (lineCount a len)).foldl (fun (t : State) i =>
        let n := a / 64 + i
        t.cachePut t.pinned x.fn false (64 * n) (readBytes 0 t.addr.lp5x (64 * n) 64) false) s
    | _ => s

/-- Move one line in (R238, R266, R270). -/
def State.readMove (s : State) (view : HostView) (k : Nat) (x : Run) (stage buf o want : Nat) : State × Run :=
  match x.badBlock buf o with
  | some n => (s, x.abortAt (failAt buf n 0 0 stage false) .malformed)
  | none =>
    match (x.buf buf).locate o with
    | .need i => s.loadBurst view x stage buf i
    | .past => (s, x.pastLine stage buf o want)
    | .at n b start =>
      let c := s.ensureCheck x buf n b false
      match c.2 with
      | some p =>
        let u := (s.perfAdd 37 1).moveLine k c.1 stage buf n start b p o want
        let t := (u.1.setRun k u.2).cacheNew k (lineKey buf (b.piece start o).1)
        (t, (t.run? k).getD u.2)
      | none =>
        let q := b.piece start o
        (s, c.1.failLine (failAt buf n start q.1 stage false) (lineKey buf q.1) (q.2 - q.1) (if b.malformed then .malformed else .window))

/-- Replace the write at a place of the queue by what is left of it. -/
def replaceOut (l : List OutLine) (i : Nat) (rest : Option OutLine) : List OutLine := l.take i ++ rest.toList ++ l.drop (i + 1)

/-- Move one line out (R238, R252, R272): of a command buffer, of the hold buffer (256, R284), of the tape (257, R604). -/
def State.outMove (s : State) (view : HostView) (x : Run) (i : Nat) : State × Run :=
  match x.writes[i]? with
  | none => (s, x)
  | some o =>
    if 256 ≤ o.buf then
      let a := (if o.buf = 256 then x.holdAt else (x.adapter.getD (0, 0)).1) + o.off
      let t := (s.lpWrite a o.data o.poison).stat x.fn 20 (lineCount a o.data.length)
      let y := x.patched t (.lp5x a) o.data o.poison
      (t, { y with writes := replaceOut x.writes i none })
    else
      match s.issueOut x o with
      | some (t, y, rest) => (t, { y with writes := replaceOut y.writes i rest })
      | none =>
        match (x.buf o.buf).locate o.off with
        | .need b => s.loadBurst view x o.stage o.buf b
        | _ => (s, x)

/-- Send a piece of a frame's buffer to another chip, on a channel of its own (R361, R374). -/
def State.sendPiece (s : State) (dst key buf off : Nat) (d : Bytes) (poison up : Bool) : State :=
  let n := (s.weft.chanNum + 1) % 128
  let a := { s with weft := { s.weft with chanNum := n } }
  (a.sendCtrl dst (.chan n key buf off d.length up)).sendLine dst n d poison

/-- A participant sends an output to its lead; outputs beyond the actual length stay (R196). -/
def State.upMove (s : State) (x : Run) (i : Nat) : State × Run :=
  match x.writes[i]?, x.lead with
  | some o, some (c, key) =>
    (if o.beyond then s else s.sendPiece c key o.buf o.off o.data o.poison true, { x with writes := replaceOut x.writes i none })
  | _, _ => (s, x)

/-- What is left of the ranges that a participant has asked for after `n` bytes of the first. -/
def restAsks (l : List (Nat × Nat × Nat)) (n : Nat) : List (Nat × Nat × Nat) :=
  match l with
  | [] => []
  | (b, o, len) :: t => if len ≤ n then t else (b, o + n, len - n) :: t

/-- A lead sends an input piece that the chip which runs the frame has asked for; asked for again, it is fetched again (R162). A
poisoned line of the lead's partition counts as received here, like those that the lead has fetched (log entry 73). -/
def State.sendMove (s : State) (k : Nat) (x : Run) : State × Run :=
  match x.asks.head?, x.chip with
  | some (b, o, len), some c =>
    let d := (s.atHand x b o).take len
    let bad := d.any Prod.snd
    let t := s.sendPiece c k b o (d.map Prod.fst) bad false
    let l := x.linesOf [(b, o, d.length)]
    let y := if bad && l.isEmpty then x.countIn x.first 1 else x
    (t, { (y.useLines l).forget fun p => inNeeds [(b, o, d.length)] p with asks := restAsks x.asks d.length })
  | _, _ => (s, x)

/-- A served frame asks its lead for a range of an input buffer; its lines are on their way from then on. -/
def State.askMove (s : State) (x : Run) (buf o want : Nat) : State × Run :=
  match x.lead with
  | some (c, key) =>
    let cuts := cut64 (want - o + 1) o (zeroBytes (want - o))
    let new (t : Table Line) (q : Nat × Bytes) : Table Line :=
      if (Table.find t (lineKey buf q.1)).isSome then t
      else Table.insert t (lineKey buf q.1) { len := q.2.length, slot := true, fetched := true }
    (s.sendCtrl c (.want key buf o (want - o)), { x with lines := cuts.foldl new x.lines })
  | none => (s, x)

/-- The next piece of a COPY: from its source to a row of its destination (R432). -/
def State.copyMove (s : State) (view : HostView) (x : Run) : State × Run :=
  match x.badBlock 1 x.pos with
  | some n => (s, x.abortAt (failAt 1 n 0 0 0 true) .malformed)
  | none =>
    match (x.buf 1).locate x.pos with
    | .need i => s.loadBurst view x 0 1 i
    | .past => (s, { x with asked := 1 })
    | .at n b start =>
      let q := b.piece start x.pos
      let d := (s.atHand x 0 x.pos).take (q.2 - x.pos)
      let bad := d.any Prod.snd
      let c := s.ensureCheck x 1 n b true
      let l := c.1.linesOf [(0, x.pos, d.length)]
      let w := if bad && l.isEmpty then c.1.countIn 0 1 else c.1
      let y := { w.useLines l with pos := x.pos + d.length }
      match c.2 with
      | some p =>
        let at' := b.place p (x.pos - start)
        let t := s.putAt x.fn at' (d.map Prod.fst) bad
        let z := y.patched t at' (d.map Prod.fst) bad
        (t, if bad then z.markOut 0 [lineKey 1 x.pos / 64] else z)
      | none =>
        let g := failAt 1 n start x.pos 0 true
        (s, if x.abort then x.abortAt g (if b.malformed then .malformed else .window)
            else (y.noteFail g).markOut 0 (blockLines 1 start b.len))

/-- One move of a command. -/
def State.makeMove (s : State) (view : HostView) (k : Nat) (x : Run) (m : Move) : State × Run :=
  match m with
  | .read stage buf off want => s.readMove view k x stage buf off want
  | .burst buf i => s.loadBurst view x (if x.kind = .copy then 0 else x.first) buf i
  | .out i => if x.lead.isSome then s.upMove x i else s.outMove view x i
  | .copy => s.copyMove view x
  | .send => s.sendMove k x
  | .ask buf o want => s.askMove x buf o want
  | .recv _ => (s, x)

/-! ## What needs no fetch (R243, R256, R457) -/

/-- A line that a stream wants and that needs no read slot: it lies in the tenant's partition, or the tenant's ways hold it. -/
def State.pullOne (s : State) (x : Run) (stage buf o : Nat) : Option (State × Run) :=
  match (x.buf buf).locate o with
  | .at n b start =>
    let c := s.ensureCheck x buf n b false
    let q := b.piece start o
    let key := lineKey buf q.1
    let take (host : Bool) (a : Nat) (src : Place) : Option (State × Run) :=
      if x.lines.any fun p => decide (p.1 ≤ lineKey buf o) && decide (lineKey buf o < p.1 + p.2.len) then none
      else
        (s.cacheBytes x.fn host a (q.2 - q.1)).map fun d =>
          let l : Line := { len := q.2 - q.1, slot := true, data := some d.1, host := host, src := some src, blk := n }
          (s, if d.2 then c.1.failLine (failAt buf n start q.1 stage false) key (q.2 - q.1) .other
              else { c.1 with lines := Table.insert c.1.lines key l })
    match c.2 with
    | none => none
    | some p =>
      match b.place p (q.1 - start) with
      | .sac _ => some (s, c.1)
      | .lp5x a => take false a (.lp5x a)
      | .host a ns => take true a (.host a ns)
  | _ => none

/-- Take what needs no fetch for a command, in the order in which its streams want it. -/
def State.pullRun (s : State) (e k : Nat) : Nat → State
  | 0 => s
  | fuel + 1 =>
    match s.run? k with
    | none => s
    | some x =>
      match s.offerRead e x with
      | some (.read stage buf o _) =>
        match s.pullOne x stage buf o with
        | some (t, y) => ((t.setRun k y).settle k).pullRun e k fuel
        | none => s
      | _ => s

/-- Take what needs no fetch for every command that an engine serves. -/
def State.pullAll (s : State) (e : Nat) : State :=
  (s.comp.runs.map Prod.fst).foldl (fun (t : State) k => t.pullRun e k 65536) s

/-! ## Lines that come from another chip (R361, R366, R374) -/

/-- An input line of a served frame reaches its buffer. A poisoned one is a failing line (R265): zeros, or the end of the frame
(R270, R275); the lead has counted it (log entry 73). -/
def Run.takeIn (x : Run) (now : BitVec 64) (c : Chan) (d : Bytes) (poison : Bool) : Run :=
  let l : Line := { len := d.length, slot := true, data := some (if poison then zeroBytes d.length else d), poison := poison
                    fetched := true, came := now }
  let g : FailLoc := { block := 0, buf := c.buf, stage := x.first, write := false, line := satNat 0xFFFFFFFF (c.off / 64) }
  let y := if !poison then x else if x.abort then x.abortAt g .other else x.noteFail g
  { y with lines := Table.insert x.lines (lineKey c.buf c.off) l }

/-- An output of a frame that another chip runs reaches this chip's SAC, where it stays until the frame has ended there (R276,
R374); of a dropped frame it is discarded (R484). -/
def Run.takeUp (x : Run) (c : Chan) (d : Bytes) (poison : Bool) : Run :=
  if (x.stop.map Stop.drop).getD false then x
  else { x with upLines := x.upLines ++ [{ buf := c.buf, off := c.off, data := d, poison := poison, stage := x.last }] }

/-- A DATA flit's line reaches its buffer: an input line of a served frame, or an output of a frame that another chip runs. -/
def Run.takeLine (x : Run) (now : BitVec 64) (c : Chan) (d : Bytes) (poison : Bool) : Run :=
  if c.up then x.takeUp c d poison else x.takeIn now c d poison

/-- What is left of a channel after a flit. -/
def State.useChan (s : State) (c : Chan) (n : Nat) : State :=
  let rest := s.weft.chans.filter fun x => !(x.peer == c.peer && x.num == c.num)
  let l := if c.left ≤ n then rest else { c with off := c.off + n, left := c.left - n } :: rest
  { s with weft := { s.weft with chans := l } }

/-- Deliver a DATA flit to its command. -/
def State.deliver (s : State) (f : Bytes) : State :=
  match s.chanRun f with
  | none => s
  | some (c, k, x) =>
    let n := min 64 c.left
    ((s.useChan c n).setRun k (x.takeLine s.time c ((Flit.payload f).take n) (Flit.poison f))).settle k

/-- A buffered flit leaves a port's buffer; its credit is returned (R364). -/
def State.dropRx (s : State) (port : Nat) (f : Bytes) : State :=
  (s.updPort port fun p => { p with rxBuf := p.rxBuf.erase f }).sendBare port 5 0 []

end Sys2Proof.Machine
end

