-- ==== Sys2Proof/Machine/RunCmd.lean ====
section
/-!
DEFINITION. RUN, RUN with LIGHT and CHAIN (R195 to R199, R211, R236, R239, R240, R258 to R262, R309, R372 to R376, R411, R412,
R423 to R425, R473): the checks at acceptance, in one shared form that STREAM_FRAME and ADAPT_STEP use too, and the start of the
command.
-/

namespace Sys2Proof.Machine

open LayerRec PieceRec

/-! ## Preparing a running command -/

/-- How far a command's preparation has come: refused with a status, or a command to run. -/
inductive Prep where
  | bad (s : State) (status : BitVec 16)
  | good (s : State) (x : Run)

/-- The next check, where none has refused the command yet. -/
def Prep.then (p : Prep) (f : State → Run → Prep) : Prep :=
  match p with
  | .bad s st => .bad s st
  | .good s x => f s x

/-- A check without an effect. -/
def Prep.check (p : Prep) (g : State → Run → Bool) (st : BitVec 16) : Prep :=
  p.then fun s x => if g s x then .good s x else .bad s st

/-- The checks of a list, in its order. -/
def Prep.each {α : Type} (p : Prep) (l : List α) (f : α → State → Run → Prep) : Prep :=
  l.foldl (fun (q : Prep) a => q.then (f a)) p

/-! ## Order within a binding (R262, R415) -/

/-- No earlier-accepted command of the binding still waits for its own step, and no relocation holds the binding's dispatch
(R77, R262). -/
def State.bindTurn (s : State) (c : Cmd) : Bool :=
  let k := s.cmdBind c
  !(s.cmds.any fun p => decide (p.2.order < c.order) && (decide (p.2.phase = .ready) || decide (p.2.phase = .held))
      && decide (s.cmdBind p.2 = k))
    && !(match k with
      | some b => s.scrubHolds b
      | none => false)

/-- A command that names a binding and was accepted after its release (R422): it waits for nothing. -/
def State.afterRelease (s : State) (c : Cmd) : Bool :=
  match s.cmdBind c with
  | none => false
  | some k =>
    match (s.bind k).releaser.bind s.cmd? with
    | some r => (s.bind k).releasing && decide (r.order < c.order)
    | none => false

/-- Run a step of a command of a binding when its turn has come. -/
def State.onBind (s : State) (t : Nat) (ops : List Nat) (f : Cmd → State) : State :=
  s.onCmd t ops fun c => if s.bindTurn c || s.afterRelease c then f c else s

/-! ## Dimensions and pieces (R195, R197, R199, R211) -/

/-- The bucket that a length chooses in a dimension; an inner none stands for SKIP, an outer one refuses the length. -/
def pickDim (d : DynRec) (chips len : Nat) : Option (Option Nat) :=
  if DynRec.isChips d then (if len = 0 then (DynRec.pickChips d chips).map some else none)
  else if DynRec.isSkip d then (if len ≤ DynRec.maxLen d then some none else none)
  else if len = 0 then some (some 0)
  else (DynRec.pick d len).map some

/-- The buckets of a pattern's dimensions for a command's lengths. -/
def pickDims (pat : Bytes) (chips : Nat) (lens : List Nat) : Option (List (Option Nat)) :=
  (List.range (Pattern.dynCount pat)).mapM fun d => pickDim (Pattern.dyn pat d) chips (lens.getD d 0)

/-- The piece that each stage runs for a choice of buckets. -/
def piecesFor (pat : Bytes) (combo : List (Option Nat)) : List Nat :=
  (List.range (Pattern.stageCount pat)).map fun st => ((selected (Pattern.pieces pat) combo st).head?).getD 0

/-- The layers of the stages that a command runs: stage, layer and record. -/
def State.runLayers (s : State) (pat : Bytes) (x : Run) : List (Nat × Nat × LayerRec) :=
  (s.layersOf pat x.pieces).filter fun q => decide (x.first ≤ q.1) && decide (q.1 ≤ x.last)

/-- A length is given for exactly the dimensions that some layer of the chosen pieces follows (Table 15-3). -/
def State.lensFit (s : State) (pat : Bytes) (x : Run) : Bool :=
  let used (d : Nat) : Bool := (s.runLayers pat x).any fun q => dynEn q.2.2 && dynDim q.2.2 == d
  (List.range 4).all fun d =>
    let len := x.lens.getD d 0
    if Pattern.dynCount pat ≤ d ∨ DynRec.isChips (Pattern.dyn pat d) then len == 0
    else decide (len ≤ 65536) && (decide (len ≠ 0) == used d)

/-- Choose the pieces of a command. -/
def State.prepPieces (s : State) (x : Run) : Prep :=
  let b := s.bind x.bind
  let pat := s.bindPattern b
  match pickDims pat b.chips x.lens with
  | none => .bad s St.badParam
  | some combo =>
    let y := { x with pieces := piecesFor pat combo }
    if s.lensFit pat y then .good s y else .bad s St.badParam

/-! ## Buffers (R236, R411) -/

/-- A block list of a command: its range reference and count, checked whole against the windows at acceptance (R236). -/
def Cmd.blockList (c : Cmd) (lo hi : Word) (count : Nat) : Except (BitVec 16) Buf :=
  let r := rangeRef lo hi
  if !rangeRefOk hi ∨ r.space > 1 ∨ count = 0 ∨ 4096 < count ∨ r.off % 32 ≠ 0 then .error St.badParam
  else
    match checkRange c.hwin c.dwin r (32 * count) false with
    | none => .error St.windowFault
    | some p => .ok { list := some p, count := count }

/-- Dword `j` of entry `i` of a buffer table. -/
def tabWord (t : Bytes) (i j : Nat) : Word := BitVec.ofNat 32 (leAt t (16 * i + 4 * j) 4)

/-- Take one entry of a buffer table. -/
def Cmd.tabBuffer (c : Cmd) (t : Bytes) (i : Nat) (s : State) (x : Run) : Prep :=
  if leAt t (16 * i + 10) 6 ≠ 0 then .bad s St.badParam
  else
    match c.blockList (tabWord t i 0) (tabWord t i 1) (leAt t (16 * i + 8) 2) with
    | .error e => .bad s e
    | .ok b => .good s { x with bufs := Table.set {} x.bufs i b }

/-- Read a command's buffer table whole and take its entries from `from'` on. -/
def State.prepTable (s : State) (view : HostView) (c : Cmd) (lo from' : Nat) (x : Run) : Prep :=
  if x.nbuf = 0 then .good s x
  else
    match c.input lo (16 * x.nbuf) with
    | .error e => .bad s e
    | .ok p =>
      let q := s.readPlace view c.fn p (16 * x.nbuf)
      match q.2 with
      | .error _ => .bad q.1 St.hostAbort
      | .ok t => (Prep.good q.1 x).each (List.range' from' (x.nbuf - from')) (c.tabBuffer t)

/-- The poison-map buffer, checked at acceptance; one that fails its window is not written (R273, Table 11-4). -/
def Cmd.prepMap (c : Cmd) (lo : Nat) (s : State) (x : Run) : Prep :=
  let hi := Entry.dw c.entry (lo + 1)
  let len := (Entry.dw c.entry (lo + 2)).toNat
  let r := rangeRef (Entry.dw c.entry lo) hi
  if !rangeRefOk hi then .bad s St.badParam
  else if len = 0 then .good s x
  else if r.space > 2 then .bad s St.badParam
  else .good s { x with map := (checkRange c.hwin c.dwin r len true).map fun p => (p, len) }

/-! ## Index and segment lists (R309) -/

/-- The index list or segment list of a layer in a command buffer, as buffer, offset and length. -/
def listRange (r : LayerRec) (d : Option Dyn) : Option (Nat × Nat × Nat) :=
  if 16 ≤ auxBuf r then none
  else if LayerRec.gather r then
    let n := match d with
      | some x => if dynAxis r = 1 ∨ dynAxis r = 3 then min (outW r) x.len else outW r
      | none => outW r
    some (auxBuf r, auxOff r, 4 * n)
  else if opKind r = 0x15 then some (auxBuf r, auxOff r, 4 * outH r * outW r)
  else none

/-- Check a block against the windows as they stood at acceptance. -/
def State.blockAtAccept (s : State) (c : Cmd) (b : Block) (wr : Bool) : Option Place :=
  if b.space = 3 then (if b.base + b.span ≤ s.sacCapacity c.fn then some (.sac b.base) else none)
  else checkRange c.hwin c.dwin { off := b.base, win := b.win, space := b.space } b.span wr

/-- Fetch a descriptor burst at acceptance; none where the read fails. -/
def State.burstNow (s : State) (view : HostView) (x : Run) (buf i : Nat) : Option (State × Run) :=
  let b := x.buf buf
  match b.list with
  | none => none
  | some pl =>
    let n := min 8 (b.count - 8 * i)
    let q := s.readPlace view x.fn (pl.plus (256 * i)) (32 * n)
    match q.2 with
    | .ok d => some (q.1, x.updBuf buf fun y => y.keep i ((chunksOf 32 n d).map parseBlock))
    | .error _ => none

/-- Check every block that holds a part of a list, from an offset to an end. -/
def checkSpan (view : HostView) (c : Cmd) (buf : Nat) : Nat → Nat → Nat → State → Run → Prep
  | 0, _, _, s, x => .good s x
  | fuel + 1, o, e, s, x =>
    if e ≤ o then .good s x
    else
      match (x.buf buf).locate o with
      | .past => .bad s St.windowFault
      | .need i =>
        match s.burstNow view x buf i with
        | none => .bad s St.hostAbort
        | some (t, y) => checkSpan view c buf fuel o e t y
      | .at n b start =>
        if b.malformed then .bad s St.badParam
        else
          match s.blockAtAccept c b false with
          | none => .bad s St.windowFault
          | some p =>
            checkSpan view c buf fuel (start + b.len) e s
              { x with checked := Table.insert x.checked (checkKey buf n false) (some p) }

/-- Check the index and segment lists of a command's layers whole; a buffer beyond the table is left to the layer's start
(R411). -/
def State.prepLists (s : State) (view : HostView) (c : Cmd) (x : Run) : Prep :=
  let pat := s.runPat x
  let l := (s.runLayers pat x).filterMap fun q => listRange q.2.2 (dynOf pat q.2.2 x.lens)
  (Prep.good s x).each (l.filter fun q => decide (q.1 < x.nbuf)) fun q t y =>
    checkSpan view c q.1 8200 q.2.1 (q.2.1 + q.2.2) t y

/-! ## Adapters, failed cores, ring jobs -/

/-- An attached region is checked whole at the acceptance of every command that applies it (R596, R599). -/
def Cmd.prepAdapter (c : Cmd) (s : State) (x : Run) : Prep :=
  let b := s.bind x.bind
  match b.adapter with
  | none => .good s x
  | some (a, len) =>
    if !regionSeen c.dwin (some (a, len)) false then .bad s St.windowFault
    else if !s.regionOk (s.bindPattern b) a len false then .bad s St.badParam
    else .good s { x with adapter := some (a, len) }

/-- A group of the command includes a core that has failed (R27). -/
def State.coreFailed (s : State) (x : Run) : Bool :=
  x.stageList.any (s.groupFailed x)

/-- The participant that the next frame of a job goes to; none for this chip (R374). -/
def State.nextChip (s : State) (k : Nat) : Option Nat :=
  let b := s.bind k
  let n := b.parts.length
  if n ≤ 1 then none
  else (b.parts[b.frames % n]?).bind fun c => if c = s.self then none else some c

/-! ## The start (R259, R280, R285, R374, R424, R484) -/

/-- Ticks of 38.4 MHz in the 2 µs that R484 takes off. -/
def frameMargin : Nat := 77

/-- A ring job's frame is assigned to a participant, and sent there. -/
def State.assignFrame (s : State) (k : Nat) (x : Run) : State × Run :=
  let b := s.bind x.bind
  match s.nextChip x.bind with
  | none => (s.updBind x.bind fun y => { y with frames := y.frames + 1 }, x)
  | some c =>
    let left := x.deadline.map fun d => (d.toNat - s.time.toNat) - frameMargin
    let a := s.updBind x.bind fun y => { y with frames := y.frames + 1 }
    (a.sendCtrl c (.frame (s.jobId x.bind) k b.chips x.first x.last x.abort x.lens left x.lateDrop), { x with chip := some c })

/-- Take the hand-over slots of a command: its own by turns, and for a later first stage the one that the command before it
filled (R259, R424). -/
def State.takeSlots (s : State) (x : Run) : State × Run :=
  let b := s.bind x.bind
  let par := b.turn % 2
  (s.updBind x.bind fun y =>
    { y with
      turn := y.turn + 1
      filled := if x.last + 1 < s.stagesOf x then Table.insert y.filled x.last par else y.filled },
    { x with par := par, inPar := Table.get 0 b.filled (x.first - 1) })

/-- The time that passed before acceptance, as R285 counts it. -/
def Run.countArrival (x : Run) (c : Cmd) : Run :=
  let late := match x.deadline with
    | some d => if d < c.bell then (c.bell - d).toNat else 0
    | none => 0
  { x with contention := x.contention + (c.time - c.bell).toNat, input := x.input + late }

/-- A command ends before its work begins; a capture buffer that it has taken is free once its completion is written (R353). -/
def State.endUnstarted (s : State) (t : Nat) (x : Run) (status : BitVec 16) : State :=
  (s.updCmd t fun y => { y with miss := x.missInfo }).endCmd t status 0 0

/-- A command's work begins. -/
def State.beginRun (s : State) (t : Nat) (c : Cmd) (x : Run) : State :=
  let a := s.takeSlots x
  let b := if a.2.waitCap then a else a.1.assignFrame t a.2
  if b.2.chip.isNone && !b.2.waitCap && b.1.coreFailed b.2 then s.endUnstarted t x St.coreFault
  else (b.1.setRun t (b.2.countArrival c)).updCmd t fun y => { y with phase := .busy }

/-- A prepared command begins, or ends with the status that refuses it. -/
def State.launch (s0 : State) (t : Nat) (c : Cmd) (p : Prep) : State :=
  match p with
  | .bad s st => s.endCmd t st 0 0
  | .good s x => if (s0.bind x.bind).dead then s.endUnstarted t x St.peerLost else s.beginRun t c x

/-! ## RUN and CHAIN (R423, R424) -/

/-- The stages that an entry names, where its fields are in range (Table 15-3). -/
def runStages (e : Entry) (n : Nat) : Option (Nat × Nat) :=
  let d := Entry.dw e 15
  if Entry.opcode e = 0x13 then some (0, n - 1)
  else if bitsOf d 2 0 ≤ bitsOf d 5 3 ∧ bitsOf d 5 3 < n then some (bitsOf d 2 0, bitsOf d 5 3)
  else none

/-- The dynamic lengths of DW10 to DW13. -/
def runLens (e : Entry) : List Nat := [10, 11, 12, 13].map fun i => (Entry.dw e i).toNat

/-- The deadline of DW3 and DW4 on a real-time ring (R280). -/
def runDeadline (e : Entry) (rt : Bool) : Option (BitVec 64) :=
  let d := wide (Entry.dw e 3) (Entry.dw e 4)
  if rt && d != 0 then some d else none

/-- The command that a RUN or CHAIN entry describes, before its lists are read. -/
def State.runBase (s : State) (c : Cmd) (k first last : Nat) : Run :=
  let d2 := Entry.dw c.entry 2
  { fn := c.fn, bind := k, order := c.order, rt := s.cmdRt c, first := first, last := last, abort := bitOf d2 0
    nbuf := bitsOf d2 8 4, lens := runLens c.entry, deadline := runDeadline c.entry (s.cmdRt c) }

/-- The checks of a RUN or CHAIN without LIGHT. -/
def State.prepRun (s : State) (view : HostView) (c : Cmd) (k : Nat) : Prep :=
  let e := c.entry
  match runStages e (Pattern.stageCount (s.bindPattern (s.bind k))) with
  | none => .bad s St.badParam
  | some (f, l) =>
    if !Entry.paramsOk e then .bad s St.badParam
    else
      (((((s.prepPieces (s.runBase c k f l)).then (c.prepMap 7)).then fun a x => a.prepTable view c 5 0 x).then
        c.prepAdapter).then fun a x => a.prepLists view c x)

/-- Run a pattern-running command's step on the binding that it names. -/
def State.runOn (s : State) (t : Nat) (c : Cmd) (p : Nat → Prep) : State :=
  match s.boundFor c (Entry.handle c.entry) with
  | none => s.endCmd t St.badParam 0 0
  | some k => s.launch t c (p k)

/-- RUN without LIGHT. -/
def execRun (t : Ticket) (view : HostView) (s : State) : Host.Outcome State Fault Refusal :=
  ok <| s.orWait <| s.onBind t.val [0x13] fun c => if Entry.light c.entry then s else s.runOn t.val c (s.prepRun view c)

/-- CHAIN. -/
def execChain (t : Ticket) (view : HostView) (s : State) : Host.Outcome State Fault Refusal :=
  ok <| s.orWait <| s.onBind t.val [0x14] fun c => s.runOn t.val c (s.prepRun view c)

/-- The input buffer of a LIGHT command: a block checked at acceptance, or bytes that are at hand. -/
def Cmd.lightInput (c : Cmd) (a : LightArgs) (s : State) (x : Run) : Prep :=
  match a.inp with
  | some b =>
    (match s.blockAtAccept c b false with
     | none => .bad s St.windowFault
     | some p =>
       .good s { x with
         bufs := Table.set {} x.bufs 0 (Buf.whole [b])
         checked := Table.insert x.checked (checkKey 0 0 false) (some p) })
  | none =>
    let b : Block := { rowBytes := a.bytes.length, rows := 1, pitch := a.bytes.length }
    let l : Line := { len := a.bytes.length, slot := true, data := some a.bytes, came := s.time }
    .good s { x with bufs := Table.set {} x.bufs 0 (Buf.whole [b]), lines := [(0, l)] }

/-- The output buffer of a LIGHT command. -/
def Cmd.lightOutput (c : Cmd) (a : LightArgs) (s : State) (x : Run) : Prep :=
  match s.blockAtAccept c a.out true with
  | none => .bad s St.windowFault
  | some p =>
    .good s { x with
      bufs := Table.set {} x.bufs 1 (Buf.whole [a.out])
      checked := Table.insert x.checked (checkKey 1 0 true) (some p) }

/-- The lengths of a LIGHT RUN: the largest bucket or the SKIP length of each dimension (R425). -/
def lightLens (pat : Bytes) : List Nat :=
  (List.range (Pattern.dynCount pat)).map fun d =>
    let x := Pattern.dyn pat d
    if DynRec.isChips x then 0
    else if DynRec.isSkip x then DynRec.maxLen x
    else DynRec.bucket x (DynRec.nBuckets x - 1)

/-- The pieces of a LIGHT RUN. -/
def State.lightPieces (s : State) (x : Run) : Prep :=
  let b := s.bind x.bind
  match pickDims (s.bindPattern b) b.chips x.lens with
  | none => .bad s St.badParam
  | some combo => .good s { x with pieces := piecesFor (s.bindPattern b) combo }

/-- No record of the pieces names a command buffer above 1 (R425). -/
def State.lightBufs (s : State) (x : Run) : Bool :=
  (s.runLayers (s.runPat x) x).all fun q => [srcBuf q.2.2, dstBuf q.2.2, auxBuf q.2.2].all fun b => decide (b ≤ 1) || decide (16 ≤ b)

/-- The checks of a RUN with LIGHT (R412, R425, R473). -/
def State.prepLight (s : State) (c : Cmd) (k : Nat) : Prep :=
  let b := s.bind k
  let pat := s.bindPattern b
  match lightArgs c.entry with
  | none => .bad s St.badParam
  | some a =>
    if 1 < b.chips ∨ Pattern.stageCount pat ≠ 1 then .bad s St.badParam
    else
      let x : Run :=
        { fn := c.fn, bind := k, order := c.order, rt := s.cmdRt c, light := true, nbuf := 2, lens := lightLens pat }
      ((((s.lightPieces x).check State.lightBufs St.badParam).then (c.lightInput a)).then (c.lightOutput a)).then c.prepAdapter

/-- RUN with LIGHT. -/
def execRunLight (t : Ticket) (s : State) : Host.Outcome State Fault Refusal :=
  ok <| s.onBind t.val [0x13] fun c => if Entry.light c.entry then s.runOn t.val c (s.prepLight c) else s

end Sys2Proof.Machine
end

