-- ==== Sys2Proof/Machine/Adapt.lean ====
section
/-!
DEFINITION. ADAPT_STEP: ATTACH, DETACH and TRAIN (R426, R473, R595, R596, R599 to R604).
-/

namespace Sys2Proof.Machine

/-- The status of an ADAPT_STEP that succeeds without running: OK, or the note CLASS_DEMOTED on a real-time ring (R426). -/
def State.adaptOk (s : State) (c : Cmd) : BitVec 16 := if s.cmdRt c then 0x0110 else St.ok

/-- 256 MiB, the limit of R426 and R602. -/
def regionLimit : Nat := 268435456

/-- The region that an entry names in DW3 to DW5: a device window, checked whole at acceptance (Table 11-4). -/
def Cmd.region (c : Cmd) (wr : Bool) : Except (BitVec 16) (Nat × Nat) :=
  let hi := Entry.dw c.entry 4
  let r := rangeRef (Entry.dw c.entry 3) hi
  let len := (Entry.dw c.entry 5).toNat
  if !rangeRefOk hi ∨ r.space ≠ 1 ∨ regionLimit < len then .error St.badParam
  else if wr ∧ (checkRange c.hwin c.dwin r len true).isNone then .error St.windowFault
  else
    match checkRange c.hwin c.dwin r len false with
    | some (.lp5x a) => .ok (a, len)
    | _ => .error St.windowFault

/-! ## ATTACH and DETACH (R601) -/

/-- An ATTACH or DETACH on the binding that it names: one chip only (R473). -/
def State.onAdapter (s : State) (t : Nat) (act : Nat) (f : Cmd → Nat → State) : State :=
  s.onBind t [0x15] fun c =>
    if adaptAction c.entry ≠ act then s
    else if !Entry.paramsOk c.entry then s.endCmd t St.badParam 0 0
    else
      match s.boundFor c (Entry.handle c.entry) with
      | none => s.endCmd t St.badParam 0 0
      | some k => if 1 < (s.bind k).chips then s.endCmd t St.badParam 0 0 else f c k

/-- ADAPT_STEP with ATTACH. -/
def execAdaptAttach (t : Ticket) (s : State) : Host.Outcome State Fault Refusal :=
  ok <| s.onAdapter t.val 1 fun c k =>
    match c.region false with
    | .error e => s.endCmd t.val e 0 0
    | .ok (a, len) =>
      if !s.regionOk (s.bindPattern (s.bind k)) a len false then s.endCmd t.val St.badParam 0 0
      else if regionLimit < s.regionHeld c.fn k + len then s.endCmd t.val St.noResource 0 0
      else (s.updBind k fun b => { b with adapter := some (a, len) }).endCmd t.val (s.adaptOk c) 0 0

/-- ADAPT_STEP with DETACH. -/
def execAdaptDetach (t : Ticket) (s : State) : Host.Outcome State Fault Refusal :=
  ok <| s.onAdapter t.val 2 fun c k => (s.updBind k fun b => { b with adapter := none }).endCmd t.val (s.adaptOk c) 0 0

/-! ## TRAIN (R603, R604) -/

/-- A command is a TRAIN step. -/
def isTrain (e : Entry) : Bool := Entry.opcode e == 0x15 && adaptAction e == 0

/-- No earlier-accepted TRAIN step of the tenant is still under way (R603). -/
def State.trainTurn (s : State) (c : Cmd) : Bool :=
  !(s.cmds.any fun p => decide (p.2.order < c.order) && p.2.fn == c.fn && isTrain p.2.entry && decide (p.2.phase ≠ .ended))

/-- The command that a TRAIN entry describes. -/
def State.trainBase (s : State) (c : Cmd) (k : Nat) : Run :=
  let d2 := Entry.dw c.entry 2
  let d14 := Entry.dw c.entry 14
  { fn := c.fn, bind := k, order := c.order, last := Pattern.stageCount (s.bindPattern (s.bind k)) - 1, abort := bitOf d2 0
    nbuf := bitsOf d2 8 4, lens := runLens c.entry
    train := some { deterministic := bitOf d2 1, noUpdate := bitOf d14 4, accumulate := bitOf d14 5, lr := Entry.dw c.entry 15 } }

/-- The step's region: readable and writable whole, in good form for training, its target in the buffer table, the tape large
enough, the tenant within its limit (R596, R602, R604, R411). -/
def Cmd.prepRegion (c : Cmd) (s : State) (x : Run) : Prep :=
  match c.region true with
  | .error e => .bad s e
  | .ok (a, len) =>
    let pat := s.runPat x
    if !s.regionOk pat a len true ∨ x.nbuf ≤ Region.target s a ∨ Region.u s a 44 4 < s.tapeNeed pat x.pieces x.lens a then
      .bad s St.badParam
    else if regionLimit < s.regionHeld c.fn noRegion + len then .bad s St.noResource
    else .good s { x with adapter := some (a, len) }
where
  /-- No binding's region is left out of the count. -/
  noRegion : Nat := 65535

/-- The checks of a TRAIN step. -/
def State.prepTrain (s : State) (view : HostView) (c : Cmd) (k : Nat) : Prep :=
  if !Entry.paramsOk c.entry ∨ 1 < (s.bind k).chips then .bad s St.badParam
  else
    (((s.prepPieces (s.trainBase c k)).then c.prepRegion).then fun a x => a.prepTable view c 6 0 x).then fun a x =>
      a.prepLists view c x

/-- ADAPT_STEP with TRAIN, or with a reserved action, which is refused. -/
def execAdaptStepTrain (t : Ticket) (view : HostView) (s : State) : Host.Outcome State Fault Refusal :=
  ok <| s.orWait <| s.onBind t.val [0x15] fun c =>
    if adaptAction c.entry = 1 ∨ adaptAction c.entry = 2 ∨ !s.trainTurn c then s else s.runOn t.val c (s.prepTrain view c)

end Sys2Proof.Machine
end

