-- ==== Sys2Proof/Machine/Stream.lean ====
section
/-!
DEFINITION. Stream slots and copies: STREAM_OPEN, STREAM_CLOSE, STREAM_FRAME (R280, R284, R356 to R360, R429 to R431) and COPY
(R412, R432).
-/

namespace Sys2Proof.Machine

/-- Slots that a function has open. -/
def State.slotsHeld (s : State) (f : Nat) : Nat := (s.slots.filter fun p => p.2.isOpen && p.2.fn == f).length

/-- Another open slot binds the same receiver, channel and data type (R356). -/
def State.channelTaken (s : State) (sl : Slot) : Bool :=
  sl.csi && s.slots.any fun p =>
    p.2.isOpen && p.2.csi && p.2.receiver == sl.receiver && p.2.vc == sl.vc && p.2.dtype == sl.dtype

/-- A free slot for a function, the lowest one; none past its quota. -/
def State.slotFor (s : State) (f : Nat) : Option Nat :=
  if (s.fnSt f).quota.slots ≤ s.slotsHeld f then none else lowest (fun i => !(s.slot i).isOpen) 16

/-- STREAM_OPEN. -/
def execStreamOpen (t : Ticket) (s : State) : Host.Outcome State Fault Refusal :=
  ok <| s.onTurn t.val [0x20] fun c =>
    match s.boundFor c (Entry.handle c.entry) with
    | none => s.endCmd t.val St.badParam 0 0
    | some k =>
      let sl := openSlot c.entry c.fn k
      if !Entry.paramsOk c.entry then s.endCmd t.val St.badParam 0 0
      else if !c.openRanges sl then s.endCmd t.val St.windowFault 0 0
      else if s.channelTaken sl then s.endCmd t.val St.noResource 0 0
      else
        match s.slotFor c.fn with
        | none => s.endCmd t.val St.noResource 0 0
        | some i =>
          let a := s.updSlot i fun old => { sl with overrun := old.overrun }
          (a.endCmd t.val St.ok (BitVec.ofNat 32 i) 0).retarget

/-! ## STREAM_CLOSE (R360, R431) -/

/-- No frame of the slot that was accepted earlier still waits for its own step (R415, R431). -/
def State.closeTurn (s : State) (c : Cmd) : Bool :=
  !(s.cmds.any fun p => decide (p.2.order < c.order) && (decide (p.2.phase = .ready) || decide (p.2.phase = .held))
      && p.2.fn == c.fn && Entry.opcode p.2.entry == 0x22 && Entry.handle p.2.entry == Entry.handle c.entry)

/-- A waiting frame's wait for its capture counts as input (R285, R358). -/
def Run.countCapture (x : Run) (now : BitVec 64) : Run :=
  if x.waitCap then { x with input := x.input + (now - x.waited).toNat, waited := now } else x

/-- The frames of a slot that wait for a capture end with a status (R360, R467). -/
def State.endWaiting (s : State) (i : Nat) (status : BitVec 16) : State :=
  ((s.comp.runs.filter fun p => p.2.slot == some i && p.2.waitCap).map Prod.fst).foldl (fun (a : State) k =>
    (a.updRun k fun x => x.countCapture a.time).stopRun k { status := status }) s

/-- STREAM_CLOSE. -/
def execStreamClose (t : Ticket) (s : State) : Host.Outcome State Fault Refusal :=
  ok <| s.onCmd t.val [0x21] fun c =>
    if !s.closeTurn c then s
    else if !Entry.paramsOk c.entry then s.endCmd t.val St.badParam 0 0
    else
      match s.slotOf c with
      | none => s.endCmd t.val St.badParam 0 0
      | some i =>
        let a := s.updSlot i fun y => { y with closing := true, frame := none, closer := some t.val }
        ((a.updCmd t.val fun y => { y with phase := .busy }).endWaiting i St.cancelled).slotDone i

/-! ## STREAM_FRAME (R357 to R359, R430) -/

/-- The oldest unconsumed capture buffer of a slot (R358). -/
def Slot.oldest (sl : Slot) : Option Nat :=
  let l := (List.range sl.nbuf).filter fun b => decide ((Table.get {} sl.bufs b).state = .unconsumed)
  l.find? fun b => l.all fun q => decide ((Table.get {} sl.bufs b).order ≤ (Table.get {} sl.bufs q).order)

/-- A capture buffer as a block in space 1 (R358). -/
def Slot.block (sl : Slot) (b : Nat) : Block :=
  { base := sl.off + b * sl.bufBytes, rowBytes := sl.rowBytes, rows := sl.height, pitch := sl.pitch, space := 1, win := sl.win }

/-- A frame takes a capture buffer as its command buffer 0; a deadline that its entry does not give follows the Frame Start
(R353, R357, R358). -/
def State.takeCapture (s : State) (x : Run) (i b : Nat) : State × Run :=
  let sl := s.slot i
  let cb := Table.get {} sl.bufs b
  let y := x.countCapture s.time
  (s.updSlot i fun z => { z with bufs := Table.set {} z.bufs b { cb with state := .inUse } },
    { y with
      cap := some b
      waitCap := false
      deadline := some (y.deadline.getD (cb.stamp + BitVec.ofNat 64 sl.budget))
      bufs := Table.set {} y.bufs 0 (Buf.whole [sl.block b]) })

/-- Entry 0 of the buffer table of a frame on a CSI-2 slot: where the capture record goes (R359, R430). -/
def State.prepRecord (s : State) (view : HostView) (c : Cmd) (x : Run) : Prep :=
  if x.nbuf = 0 then .good s x
  else
    match c.input 5 (16 * x.nbuf) with
    | .error e => .bad s e
    | .ok p =>
      let q := s.readPlace view c.fn p 16
      match q.2 with
      | .error _ => .bad q.1 St.hostAbort
      | .ok t =>
        let hi := tabWord t 0 1
        let r := rangeRef (tabWord t 0 0) hi
        if leAt t 8 8 ≠ 0 ∨ !rangeRefOk hi ∨ r.space > 1 then .bad q.1 St.badParam
        else if leAt t 0 8 = 0 then .good q.1 x
        else
          match checkRange c.hwin c.dwin r 16 true with
          | none => .bad q.1 St.windowFault
          | some w => .good q.1 { x with capRec := some w }

/-- A frame on a CSI-2 slot takes the oldest unconsumed capture, or waits for the next Frame End (R358). -/
def State.prepCapture (s : State) (i : Nat) (x : Run) : Prep :=
  match (s.slot i).oldest with
  | some b => (fun u : State × Run => Prep.good u.1 u.2) (s.takeCapture x i b)
  | none => .good s { x with waitCap := true, waited := s.time }

/-- The command that a STREAM_FRAME entry describes. -/
def State.frameBase (s : State) (c : Cmd) (i : Nat) : Run :=
  let sl := s.slot i
  let d := wide (Entry.dw c.entry 3) (Entry.dw c.entry 4)
  { fn := c.fn, bind := sl.bind, order := c.order, rt := true
    last := Pattern.stageCount (s.bindPattern (s.bind sl.bind)) - 1
    abort := sl.abort, nbuf := bitsOf (Entry.dw c.entry 2) 8 4, lens := runLens c.entry, lateDrop := sl.lateDrop, slot := some i
    deadline := if d ≠ 0 then some d else if sl.csi then none else some (c.time + BitVec.ofNat 64 sl.budget) }

/-- The checks of a STREAM_FRAME. -/
def State.prepFrame (s : State) (view : HostView) (c : Cmd) (i : Nat) : Prep :=
  let e := c.entry
  let sl := s.slot i
  if !Entry.paramsOk e then .bad s St.badParam
  else
    let p := ((s.prepPieces (s.frameBase c i)).then (c.prepMap 7)).then fun a x => if sl.csi then a.prepRecord view c x else .good a x
    let q := ((p.then fun a x => a.prepTable view c 5 (b2n sl.csi) x).then c.prepAdapter).then fun a x => a.prepLists view c x
    q.then fun a x => if sl.csi then a.prepCapture i x else .good a x

/-- The lowest stage of a command that is not complete (Table 10-3). -/
def Run.openStage (x : Run) : Nat :=
  if x.chip.isSome ∨ x.waitCap then x.first
  else (x.stageList.find? fun n => decide ((x.stage n).phase ≠ .done)).getD x.last

/-- A frame passes its deadline: its lowest incomplete stage is kept for the report of the miss (R289). -/
def Run.passDeadline (x : Run) (now : BitVec 64) : Run :=
  { x.countCapture now with missStage := some (x.missStage.getD x.openStage) }

/-- A frame is dropped (R283), the components of its running stages counted until now (R285). -/
def State.dropFrame (s : State) (k : Nat) : State :=
  (s.updRun k fun x => (s.closeStages k x).passDeadline s.time).stopRun k { status := St.ok, drop := true }

/-- A frame whose entry was accepted after its deadline is dropped at once under LATE_DROP (R283). -/
def State.dropIfLate (s : State) (t : Nat) (c : Cmd) : State :=
  match s.run? t with
  | none => s
  | some x =>
    match x.deadline with
    | some d => if x.lateDrop ∧ d < c.time then s.dropFrame t else s
    | none => s

/-- STREAM_FRAME. -/
def execStreamFrame (t : Ticket) (view : HostView) (s : State) : Host.Outcome State Fault Refusal :=
  ok <| s.orWait <| s.onBind t.val [0x22] fun c =>
    match s.slotOf c with
    | none => s.endCmd t.val St.badParam 0 0
    | some i => (s.launch t.val c (s.prepFrame view c i)).dropIfLate t.val c

/-- A capture has come for a slot: the frame that has waited longest takes it (R358). -/
def State.feedFrame (s : State) (i : Nat) : State :=
  let waiting := s.comp.runs.filter fun p => p.2.slot == some i && p.2.waitCap && p.2.stop.isNone
  match waiting.find? (fun p => waiting.all fun q => decide (p.2.order ≤ q.2.order)), (s.slot i).oldest with
  | some (k, x), some b =>
    let u := s.takeCapture x i b
    let v := u.1.assignFrame k u.2
    let a := v.1.setRun k v.2
    if v.2.chip.isNone && v.1.coreFailed v.2 then a.stopRun k { status := St.coreFault } else a
  | _, _ => s

/-! ## COPY (R432) -/

/-- A binding key that no binding has, for commands without one. -/
def noBind : Nat := 65535

/-- A COPY begins. -/
def Prep.beginCopy (p : Prep) (t : Nat) : State :=
  match p with
  | .bad a st => a.endCmd t st 0 0
  | .good a x => (a.setRun t x).updCmd t fun y => { y with phase := .busy }

/-- The command that a COPY entry describes. -/
def State.copyBase (s : State) (c : Cmd) (light : Bool) : Run :=
  { kind := .copy, fn := c.fn, bind := noBind, order := c.order, rt := s.cmdRt c, nbuf := 2, light := light
    abort := !light && bitOf (Entry.dw c.entry 2) 0 }

/-- A block list of a COPY as one of its two buffers. -/
def Cmd.copyBuffer (c : Cmd) (i lo : Nat) (s : State) (x : Run) : Prep :=
  match c.blockList (Entry.dw c.entry lo) (Entry.dw c.entry (lo + 1)) (Entry.dw c.entry (lo + 2)).toNat with
  | .error e => .bad s e
  | .ok b => .good s { x with bufs := Table.set {} x.bufs i b }

/-- COPY without LIGHT. -/
def execCopy (t : Ticket) (s : State) : Host.Outcome State Fault Refusal :=
  ok <| s.onCmd t.val [0x23] fun c =>
    if Entry.light c.entry then s
    else if !Entry.paramsOk c.entry then s.endCmd t.val St.badParam 0 0
    else (((Prep.good s (s.copyBase c false)).then (c.copyBuffer 0 3)).then (c.copyBuffer 1 6)).beginCopy t.val

/-- COPY with LIGHT. -/
def execCopyLight (t : Ticket) (s : State) : Host.Outcome State Fault Refusal :=
  ok <| s.onCmd t.val [0x23] fun c =>
    if !Entry.light c.entry then s
    else
      match lightArgs c.entry with
      | none => s.endCmd t.val St.badParam 0 0
      | some a =>
        if !Entry.paramsOk c.entry then s.endCmd t.val St.badParam 0 0
        else (((Prep.good s (s.copyBase c true)).then (c.lightInput a)).then (c.lightOutput a)).beginCopy t.val

end Sys2Proof.Machine
end

