-- ==== Sys2Proof/Machine/Csi.lean ====
section
/-!
DEFINITION. The CSI-2 receivers (R350 to R355): Frame Start, captured packets, Frame End and the 100 ms timeout, with the errors of
Table 13-2.
-/

namespace Sys2Proof.Machine

/-! ## Receivers and slots -/

/-- A receiver. -/
def State.rx (s : State) (n : Nat) : Csi := Table.get {} s.csi n

/-- Change a receiver's state. -/
def State.updRx (s : State) (n : Nat) (g : Csi → Csi) : State := { s with csi := Table.upd {} s.csi n g }

/-- A receiver takes packets: it is enabled and the device runs. -/
def State.rxRuns (s : State) (n : Nat) : Bool := (s.rx n).en && decide (s.life.phase = .running)

/-- A slot captures on a receiver and a channel (R356, R360). -/
def Slot.captures (sl : Slot) (n vc : Nat) : Bool :=
  sl.isOpen && sl.csi && !sl.closing && sl.receiver == n && sl.vc == vc

/-- The slot that captures a data type of a channel. -/
def State.slotAt (s : State) (n vc dtype : Nat) : Option Nat :=
  lowest (fun i => (s.slot i).captures n vc && (s.slot i).dtype == dtype) 16

/-- The slots that capture on a channel. -/
def State.slotsAt (s : State) (n vc : Nat) : List Nat := (List.range 16).filter fun i => (s.slot i).captures n vc

/-- The clock lane is in high-speed mode while a packet comes. -/
def State.clockHigh (s : State) (n : Nat) : State := s.updRx n fun x => { x with hsClock := true }

/-- After a frame the clock lane may have left high-speed mode: a free value (R350). -/
def State.clockFree (s : State) (n : Nat) : State := s.tick.updRx n fun x => { x with hsClock := Config.freeBit s.fresh }

/-- A packet for a channel or data type with no open slot (Table 13-2). -/
def Csi.countUnbound (x : Csi) : Csi := { x with unbound := satInc x.unbound 1 }
/-- The other counts of Table 13-2. -/
def Csi.countSync (x : Csi) : Csi := { x with sync := satInc x.sync 1 }
def Csi.countLen (x : Csi) : Csi := { x with len := satInc x.len 1 }
def Csi.countCrc (x : Csi) : Csi := { x with crc := satInc x.crc 1 }

/-! ## The end of a frame (R353, R355) -/

/-- The lines that a frame lacks are written as zero bytes and poisoned. -/
def State.fillMissing (s : State) (sl : Slot) (f : OpenFrame) : State :=
  (List.range' f.line (sl.height - f.line)).foldl (fun (a : State) i =>
    a.lpWrite (f.base + i * sl.pitch) (zeroBytes sl.pitch) true) s

/-- A closed frame's capture buffer. -/
def OpenFrame.closed (f : OpenFrame) (sl : Slot) : CapBuf :=
  let missing := decide (f.line < sl.height)
  { state := .unconsumed, stamp := f.stamp, frameNo := f.frameNo, short := missing, poisoned := f.poisoned || missing, order := sl.ends }

/-- The open frame of a slot closes: its buffer becomes unconsumed, and a frame that waits for it takes it. -/
def State.closeFrame (s : State) (i : Nat) : State :=
  let sl := s.slot i
  match sl.frame with
  | none => s
  | some f =>
    if f.discard then s.updSlot i fun y => { y with frame := none }
    else
      let a := if f.line < sl.height then (s.fillMissing sl f).updRx sl.receiver Csi.countSync else s
      let b := a.updSlot i fun y => { y with frame := none, ends := sl.ends + 1, bufs := Table.set {} y.bufs f.buf (f.closed sl) }
      (b.stat sl.fn 22 1).feedFrame i

/-! ## Frame Start (R353, R354) -/

/-- A slot counts an overrun. -/
def State.countOverrun (s : State) (i : Nat) : State :=
  let a := s.updSlot i fun y => { y with overrun := satInc y.overrun 1, overruns := satInc y.overruns 1 }
  (a.stat (s.slot i).fn 23 1).setFnTrb (s.slot i).fn .captureOverrun

/-- The next capture buffer in ring order that is neither unconsumed nor in use. -/
def Slot.nextFree (sl : Slot) : Option Nat :=
  ((List.range sl.nbuf).map fun j => (sl.nextBuf + j) % sl.nbuf).find? fun b =>
    decide ((Table.get {} sl.bufs b).state = .free)

/-- The buffer for a new frame, and whether it holds an unconsumed one. -/
def Slot.choose (sl : Slot) : Option (Nat × Bool) :=
  match sl.nextFree with
  | some b => some (b, false)
  | none => sl.oldest.map fun b => (b, true)

/-- The device address of a capture buffer, by the window as it now stands (R238, R354). -/
def State.capturePlace (s : State) (sl : Slot) (b : Nat) : Option Nat :=
  let x := s.fnSt sl.fn
  match checkRange x.hwin x.dwin { off := sl.off + b * sl.bufBytes, win := sl.win, space := 1 } sl.bufBytes true with
  | some (.lp5x a) => some a
  | _ => none

/-- An arriving frame is discarded whole. -/
def State.discardFrame (s : State) (i : Nat) (no : BitVec 16) : State :=
  (s.updSlot i fun y => { y with frame := some { discard := true, stamp := s.time, frameNo := no, last := s.time } }).countOverrun i

/-- A new frame takes a buffer. -/
def State.takeBuffer (s : State) (i : Nat) (b base : Nat) (no : BitVec 16) : State :=
  s.updSlot i fun y =>
    { y with
      frame := some { buf := b, base := base, stamp := s.time, frameNo := no, last := s.time }
      bufs := Table.set {} y.bufs b {}
      nextBuf := (b + 1) % y.nbuf }

/-- A frame begins on a slot. -/
def State.startFrame (s : State) (i : Nat) (no : BitVec 16) : State :=
  let sl := s.slot i
  match sl.choose with
  | none => s.discardFrame i no
  | some (b, full) =>
    match s.capturePlace sl b with
    | none => (s.discardFrame i no).setFnTrb sl.fn .streamFault
    | some a => if full then (s.takeBuffer i b a no).countOverrun i else s.takeBuffer i b a no

/-- A packet's header as it was received: a corrected one-bit error counts (R355). -/
def State.headerFixed (s : State) (n : Nat) (fixed : Bool) : State :=
  if fixed then s.updRx n fun x => { x with ecc1 := satInc x.ecc1 1 } else s

/-- CSI_FRAME_START. -/
def execCsiFrameStart (rx : Fin 2) (hdr : CsiHeader) (dtype : BitVec 6) (frameNo : BitVec 16) (s : State) :
    Host.Outcome State Fault Refusal :=
  if !s.rxRuns rx.val then ok s
  else
    let a := (s.clockHigh rx.val).headerFixed rx.val hdr.fixed
    match a.slotAt rx.val hdr.vc.val dtype.toNat with
    | none => ok (a.updRx rx.val Csi.countUnbound)
    | some i =>
      if (a.slot i).frame.isSome then ok (((a.updRx rx.val Csi.countSync).closeFrame i).startFrame i frameNo)
      else ok (a.startFrame i frameNo)

/-! ## Lines (R351, R355) -/

/-- Two stored bytes of an unpacked pixel. -/
def pixelBytes (hi lo bits : Nat) : Bytes := leBytes 2 (hi * 2 ^ bits + lo % 2 ^ bits)

/-- RAW10: four bytes of high bits, then one byte of the four pairs of low bits. -/
def unpack10 : Bytes → Bytes
  | a :: b :: c :: d :: e :: t =>
    pixelBytes a.toNat e.toNat 2 ++ pixelBytes b.toNat (e.toNat / 4) 2 ++ pixelBytes c.toNat (e.toNat / 16) 2
      ++ pixelBytes d.toNat (e.toNat / 64) 2 ++ unpack10 t
  | _ => []

/-- RAW12: two bytes of high bits, then one byte of the two pairs of low bits. -/
def unpack12 : Bytes → Bytes
  | a :: b :: c :: t => pixelBytes a.toNat c.toNat 4 ++ pixelBytes b.toNat (c.toNat / 16) 4 ++ unpack12 t
  | _ => []

/-- A payload in its stored form (Table 13-1). -/
def storedForm (dtype : Nat) (p : Bytes) : Bytes := if dtype = 0x2B then unpack10 p else if dtype = 0x2C then unpack12 p else p

/-- The errors of a line's length. -/
def State.countLength (s : State) (n got want : Nat) : State := if got = want then s else s.updRx n Csi.countLen

/-- Store a line of an open frame. -/
def State.storeLine (s : State) (i : Nat) (f : OpenFrame) (crcBad : Bool) (d : Bytes) : State :=
  let sl := s.slot i
  let bad := crcBad || decide (d.length < sl.rowBytes)
  let row := (d.take sl.rowBytes ++ zeroBytes sl.pitch).take sl.pitch
  let a := (if crcBad then s.updRx sl.receiver Csi.countCrc else s).countLength sl.receiver d.length sl.rowBytes
  (a.lpWrite (f.base + f.line * sl.pitch) row bad).updSlot i fun y =>
    { y with frame := some { f with line := f.line + 1, poisoned := f.poisoned || bad } }

/-- A captured line reaches its slot. -/
def State.slotLine (s : State) (i : Nat) (crcBad : Bool) (p : Bytes) : State :=
  let sl := s.slot i
  match sl.frame with
  | none => s
  | some f0 =>
    let f := { f0 with last := s.time }
    if f.discard then s.updSlot i fun y => { y with frame := some f }
    else if sl.height ≤ f.line then (s.updSlot i fun y => { y with frame := some f }).updRx sl.receiver Csi.countLen
    else s.storeLine i f crcBad (storedForm sl.dtype p)

/-- CSI_LINE. -/
def execCsiLine (rx : Fin 2) (vc : Fin 16) (packet : CsiPacket) (s : State) : Host.Outcome State Fault Refusal :=
  if !s.rxRuns rx.val then ok s
  else
    let a := s.clockHigh rx.val
    match packet with
    | .badHeader => ok (a.updRx rx.val fun x => { x with ecc2 := satInc x.ecc2 1 })
    | .phyError => ok (a.updRx rx.val fun x => { x with phy := satInc x.phy 1 })
    | .line dtype fixed crcBad p =>
      let b := a.headerFixed rx.val fixed
      match b.slotAt rx.val vc.val dtype.toNat with
      | none => ok (b.updRx rx.val Csi.countUnbound)
      | some i => ok (b.slotLine i crcBad p)

/-! ## Frame End and the timeout -/

/-- CSI_FRAME_END: the open frames of the channel close. -/
def execCsiFrameEnd (rx : Fin 2) (hdr : CsiHeader) (s : State) : Host.Outcome State Fault Refusal :=
  if !s.rxRuns rx.val then ok s
  else
    let a := (s.clockFree rx.val).headerFixed rx.val hdr.fixed
    match a.slotsAt rx.val hdr.vc.val with
    | [] => ok (a.updRx rx.val Csi.countUnbound)
    | l => ok (l.foldl State.closeFrame a)

/-- CSI_FRAME_TIMEOUT: 100 ms without a packet for an open frame. -/
def execCsiFrameTimeout (slot : Fin 16) (s : State) : Host.Outcome State Fault Refusal :=
  match (s.slot slot.val).frame with
  | none => ok s
  | some f =>
    let n := (s.slot slot.val).receiver
    if decide (s.life.phase = .running) && s.usSince f.last 100000 then ok (((s.clockFree n).updRx n Csi.countSync).closeFrame slot.val) else ok s

end Sys2Proof.Machine
end

