-- ==== Sys2Proof/Machine/Weft.lean ====
section
/-!
DEFINITION. The Weft link's receiving side (R361 to R373): flits that arrive, retry and credits, HELLO and liveness, and the
messages of ring jobs (R372, R374, R375, R378, R484, R485).
-/

namespace Sys2Proof.Machine

/-- The Weft ports work: the device runs (log entry 60). -/
def State.weftRuns (s : State) : Bool := decide (s.life.phase = .running)

/-- A port that works and is up. -/
def State.portOn (s : State) (i : Nat) : Bool := s.weftRuns && (s.port i).up

/-! ## Frames served for a lead (R374, R378, R484) -/

/-- A key for a served frame, from 768 on. -/
def State.servedKey (s : State) : Option Nat := (lowest (fun i => (s.run? (768 + i)).isNone) 256).map (768 + ·)

/-- A frame that a lead asks for: binding, frame key, stages, lengths, time left. -/
structure FrameReq where
  lead : Nat
  key : Nat
  chips : Nat
  first : Nat
  last : Nat
  abort : Bool
  lens : List Nat
  left : Option Nat
  lateDrop : Bool
  deriving DecidableEq, Repr

/-- The run of a served frame. -/
def State.servedRun (s : State) (k : Nat) (q : FrameReq) (combo : List (Option Nat)) : Run :=
  { fn := 0, bind := k, order := s.order, rt := q.left.isSome, first := q.first, last := q.last, abort := q.abort, lens := q.lens
    pieces := piecesFor (s.bindPattern (s.bind k)) combo, nbuf := 16, lateDrop := q.lateDrop
    deadline := q.left.map fun d => s.time + BitVec.ofNat 64 d
    lead := some (q.lead, q.key), halt := s.haltNow }

/-- A frame that ends on a participant before it has begun. -/
def State.frameEnds (s : State) (q : FrameReq) (status : BitVec 16) : State :=
  s.sendCtrl q.lead (.done q.key status false 0 0 0 0 0 0 0 0)

/-- Begin a served frame; a failed core of its groups ends it at once (R27). -/
def State.serveFrame (s : State) (k : Nat) (q : FrameReq) : State :=
  match s.servedKey, pickDims (s.bindPattern (s.bind k)) q.chips q.lens with
  | some n, some combo =>
    let x := s.servedRun k q combo
    let u := { s with order := s.order + 1 }.takeSlots x
    let a := u.1.setRun n u.2
    if a.coreFailed u.2 then a.stopRun n { status := St.coreFault } else a
  | _, _ => s.frameEnds q St.badParam

/-- A lead releases a job: the frames served for it stop, and the binding goes (R378, R422, R467). -/
def State.dropServed (s : State) (k : Nat) : State :=
  ({ s with comp := { s.comp with runs := s.comp.runs.filter fun p => !(p.2.bind == k) } }.freeBinding k).retarget

/-- The outputs that a frame has sent back are written, now that it has ended there (R276, R374). -/
def Run.landUp (x : Run) : Run :=
  x.upLines.foldl (fun (y : Run) o => y.putOut o.stage o.buf o.off o.data o.poison false) { x with upLines := [] }

/-- A participant reports the end of a frame (R164, R165, R374, R485). -/
def Run.takeReport (x : Run) (r : Report) (pace input contention : Nat) : Run :=
  let y : Run := { x with
    report := some r
    kept := x.kept || r.kept
    reran := x.reran || (decide (bitsOf r.status 15 8 = 1) && bitOf r.status 1)
    inPoison := x.inPoison + r.inBad
    halt := x.halt + r.halt
    pace := x.pace + pace
    input := x.input + input
    contention := x.contention + contention }
  y.landUp

/-- A participant asks for a range of an input buffer of a frame (R242, R374). -/
def Run.takeAsk (x : Run) (q : Nat × Nat × Nat) : Run := if x.stop.isSome then x else { x with asks := x.asks ++ [q] }

/-- A message about a frame of this chip comes from the participant that runs it. -/
def State.frameNews (s : State) (c key : Nat) (f : Run → Run) : State :=
  match s.run? key with
  | some x => if x.chip = some c then (s.setRun key (f x)).settle key else s
  | none => s

/-- A lead stops a frame that this chip serves: a dropped frame's outputs are discarded (R484), another is finished as R275 says. -/
def State.frameStopped (s : State) (c key : Nat) (discard : Bool) : State :=
  match (s.comp.runs.find? fun p => decide (p.2.lead = some (c, key))).map Prod.fst with
  | some n => s.stopRun n (if discard then { status := St.ok, drop := true } else { status := St.cancelled })
  | none => s

/-- A transfer channel opens; an older one of the same sender and number ends. -/
def State.openChan (s : State) (c : Chan) : State :=
  { s with weft := { s.weft with chans := c :: s.weft.chans.filter fun x => !(x.peer == c.peer && x.num == c.num) } }

/-- A message of the firmware of chip `c` (R361, R372, R374). -/
def State.ctrlIn (s : State) (c : Nat) (m : CtrlMsg) : State :=
  match m with
  | .bind h pat chips d2 d3 => (s.serveBind c h pat chips d2 d3).1.retarget
  | .bound h st =>
    (match s.jobBind h with
     | some k => s.partAnswer k c st
     | none => s)
  | .frame h key chips first last abort lens left late =>
    (match s.servedFor c h with
     | some k =>
       s.serveFrame k { lead := c, key := key, chips := chips, first := first, last := last, abort := abort, lens := lens, left := left, lateDrop := late }
     | none => s)
  | .chan num key buf off len up => s.openChan { peer := c, num := num, key := key, buf := buf, off := off, left := len, up := up }
  | .want key buf off len => s.frameNews c key fun x => x.takeAsk (buf, off, len)
  | .done key st kept w0 w1 i o h p n q =>
    s.frameNews c key fun x =>
      x.takeReport { status := st, kept := kept, w0 := w0, w1 := w1, inBad := i, outBad := o, halt := h } p n q
  | .drop key discard => s.frameStopped c key discard
  | .release h =>
    (match s.servedFor c h with
     | some k => s.dropServed k
     | none => s)
  | .other => s

/-- A message that waits: a bind while an automatic relocation of one of its banks still runs, which it has abandoned (R78,
R372); a frame while NVM_SCRUB holds a bank that its binding reserves (R77). -/
def State.ctrlWaits (s : State) (c : Nat) (m : CtrlMsg) : State × Bool :=
  match m with
  | .bind h pat chips d2 d3 =>
    let r := s.serveBind c h pat chips d2 d3
    if r.2 then (r.1, true) else (s, false)
  | .frame h _ _ _ _ _ _ _ _ => (s, ((s.servedFor c h).map s.scrubHolds).getD false)
  | _ => (s, false)

/-! ## Draining a port's buffer (R364, R370, R374) -/

/-- Forward a flit to the other port, once its 64-flit buffer has room (R370). -/
def State.forward (s : State) (i : Nat) (f : Bytes) : State :=
  let j := if (s.port (1 - i)).up then 1 - i else i
  if 64 ≤ (s.port j).waiting.length then s else (s.sendOn j (f.take 68)).dropRx i f

/-- Go through the flits of a port's buffer, oldest first: foreign ones go on, messages are carried out, lines wait for a
remote slot and hold back what follows them for this chip. -/
def State.drainList (s : State) (i : Nat) (held : Bool) : List Bytes → State
  | [] => s
  | f :: t =>
    if Flit.dst f ≠ s.self then (s.forward i f).drainList i held t
    else if held then s.drainList i true t
    else if Flit.kind f = 2 then
      (let w := s.ctrlWaits (Flit.src f) (Config.ctrlMessage (Flit.payload f))
       if s.fwRuns && !w.2 then ((s.dropRx i f).ctrlIn (Flit.src f) (Config.ctrlMessage (Flit.payload f))).drainList i false t
       else (if s.fwRuns then w.1 else s).drainList i true t)
    else if (s.chanRun f).isNone then (s.dropRx i f).drainList i false t
    else s.drainList i true t

/-- Drain a port's buffer as far as it goes. -/
def State.drain (s : State) (i : Nat) : State := s.drainList i false (s.port i).rxBuf

/-- Drain both ports. -/
def State.drainAll (s : State) : State := (s.drain 0).drain 1

/-! ## Sequenced flits (R363, R364) -/

/-- Send a cumulative ACK. -/
def State.sendAck (s : State) (i : Nat) : State :=
  let p := s.port i
  (s.updPort i fun x => { x with unackedRx := 0 }).sendBare i 3 (p.rxSeq.toNat + 4095) []

/-- A flit with a bad CRC is counted (Table 13-6). -/
def State.countCrc (s : State) (i : Nat) : State := s.updPort i fun x => { x with errCrc := satInc x.errCrc 1 }

/-- A sequenced flit is discarded: its credit is returned, and the first one brings a NAK. -/
def State.discardFlit (s : State) (i : Nat) : State :=
  let a := s.sendBare i 5 0 []
  if (s.port i).nakSent then a else (a.updPort i fun x => { x with nakSent := true }).sendBare i 4 (s.port i).rxSeq.toNat []

/-- A good flit of the expected number is accepted. -/
def State.acceptFlit (s : State) (i : Nat) (f : Bytes) : State :=
  let a := if 32 ≤ (s.port i).unackedRx then s.sendAck i else s
  let b := a.updPort i fun x =>
    { x with
      rxSeq := x.rxSeq + 1, nakSent := false, rxBuf := x.rxBuf ++ [f], unackedRx := x.unackedRx + 1
      rxSince := if x.unackedRx = 0 then s.time else x.rxSince }
  ((if Flit.dst f = s.self then b.wake 2 else b).perfAdd (40 + i) 1).drain i

/-- A good flit has come on a port. -/
def State.sawGood (s : State) (i : Nat) : State := s.updPort i fun x => { x with lastGood := s.time }

/-- A sequenced flit of a kind arrives (R363). A good flit of another kind, an IDLE, only shows that the port lives (R365). -/
def State.sequenced (s : State) (kind i : Nat) (f : Bytes) : State :=
  if !s.portOn i then s
  else if !Flit.good f then (s.countCrc i).discardFlit i
  else if Flit.kind f ≠ kind then s.sawGood i
  else
    let a := s.sawGood i
    if Flit.seq f = (s.port i).rxSeq.toNat ∧ (s.port i).rxBuf.length < 512 then a.acceptFlit i f else a.discardFlit i

/-- WEFT_DATA_FLIT. -/
def execWeftDataFlit (port : Fin 2) (flit : Bytes) (s : State) : Host.Outcome State Fault Refusal := ok (s.sequenced 1 port.val flit)

/-- WEFT_CTRL_FLIT. -/
def execWeftCtrlFlit (port : Fin 2) (flit : Bytes) (s : State) : Host.Outcome State Fault Refusal := ok (s.sequenced 2 port.val flit)

/-- WEFT_ACK_DUE: 1 µs or 32 flits after the last ACK (R363). -/
def execWeftAckDue (port : Fin 2) (s : State) : Host.Outcome State Fault Refusal :=
  let p := s.port port.val
  if s.portOn port.val ∧ (32 ≤ p.unackedRx ∨ (p.unackedRx ≠ 0 ∧ s.usSince p.rxSince 1)) then ok (s.sendAck port.val) else ok s

/-! ## Unsequenced flits -/

/-- Run the effect of an unsequenced flit of a kind; one with a bad CRC is only counted, another good one, an IDLE, only shows that
the port lives (R365). -/
def State.bareFlit (s : State) (kind i : Nat) (f : Bytes) (g : State → State) : State :=
  if !s.portOn i then s
  else if !Flit.good f then s.countCrc i
  else if Flit.kind f ≠ kind then s.sawGood i
  else g (s.sawGood i)

/-- An ACK frees what it covers. -/
def Port.ack (p : Port) (a : Nat) (now : BitVec 64) : Port :=
  let n := (a + 1 + 4096 - p.txSeq.toNat) % 4096
  if n = 0 ∨ p.unacked.length < n then p
  else
    { p with txSeq := p.txSeq + BitVec.ofNat 12 n, unacked := p.unacked.drop n, cur := p.cur - n, resends := 0, lastAck := now }

/-- WEFT_ACK (R363). -/
def execWeftAck (port : Fin 2) (flit : Bytes) (s : State) : Host.Outcome State Fault Refusal :=
  ok <| s.bareFlit 3 port.val flit fun a => ((a.updPort port.val fun p => p.ack (Flit.seq flit) s.time).pump port.val).drain (1 - port.val)

/-- Resend from the `n`th unacknowledged flit; after sixteen resends in a row without progress the port goes down instead (R363,
R365). -/
def State.resend (s : State) (i n : Nat) : State :=
  if 16 ≤ (s.port i).resends then (s.portDown i 1).settleAll.retarget
  else
    (s.updPort i fun p =>
      { p with cur := n, resends := p.resends + 1, errResend := satInc p.errResend 1, lastAck := s.time }).pump i

/-- WEFT_NAK (R363). -/
def execWeftNak (port : Fin 2) (flit : Bytes) (s : State) : Host.Outcome State Fault Refusal :=
  ok <| s.bareFlit 4 port.val flit fun a =>
    let p := a.port port.val
    let n := (Flit.seq flit + 4096 - p.txSeq.toNat) % 4096
    if n < p.unacked.length then a.resend port.val n else a

/-- WEFT_RESEND_TIMEOUT: 8 µs without an ACK that advances (R363). -/
def execWeftResendTimeout (port : Fin 2) (s : State) : Host.Outcome State Fault Refusal :=
  let p := s.port port.val
  if s.portOn port.val ∧ !p.unacked.isEmpty ∧ s.usSince p.lastAck 8 then ok (s.resend port.val 0) else ok s

/-- WEFT_CREDIT (R364). -/
def execWeftCredit (port : Fin 2) (flit : Bytes) (s : State) : Host.Outcome State Fault Refusal :=
  ok <| s.bareFlit 5 port.val flit fun a =>
    ((a.updPort port.val fun p => { p with credits := min 512 (p.credits + 1) }).pump port.val).drain (1 - port.val)

/-! ## HELLO (R368, R369, R371) -/

/-- The payload of a HELLO on a port. -/
def State.hello (s : State) (i : Nat) : Bytes :=
  leBytes 1 s.self ++ leBytes 1 i ++ zeroBytes 2 ++ leBytes 4 s.life.epoch.toNat ++ leBytes 1 s.liveMap

/-- WEFT_HELLO_SEND. -/
def execWeftHelloSend (s : State) : Host.Outcome State Fault Refusal :=
  ok <| (List.range 2).foldl (fun (t : State) i => if t.portOn i then t.sendBare i 6 0 (t.hello i) else t) s

/-- Chips in a live map. -/
def mapCount (m : Nat) : Nat := (List.range 4).countP fun c => m / 2 ^ c % 2 == 1

/-- A HELLO shows a ring that is not wired as R367 asks. -/
def State.helloWrong (s : State) (i chip port map : Nat) : Bool :=
  chip == s.self || port == i
    || ((s.port (1 - i)).neighbour == some chip && decide (2 < mapCount (s.liveMap ||| map ||| 2 ^ chip)))

/-- A port is held down for a configuration error (R369). -/
def State.holdPort (s : State) (i chip port : Nat) : State :=
  let a := ((s.portCut i).updPort i fun p => { p with heldDown := true }).pathLost i
  let b := { a with weft := { a.weft with configErr := true } }
  (b.logEvent 0x51 devByte (leBytes 1 i ++ leBytes 1 chip ++ leBytes 1 port) [.dev Trb.weftConfig.bit]).tick.traceEmit 5 none false 0x40 i 0
    (Config.freeWord s.fresh)

/-- The neighbour names itself; a new epoch means that it was lost. -/
def State.helloNeighbour (s : State) (i chip : Nat) (epoch : Word) : State :=
  let p := s.peer chip
  let a := if p.live && p.known && p.epoch != epoch then s.peerDown chip else s
  ((a.updPeer chip fun x => { x with epoch := epoch, known := true }).updPort i fun x => { x with neighbour := some chip }).peerSeen chip i

/-- Peers that the neighbour's live map names. -/
def State.helloMap (s : State) (i chip map : Nat) : State :=
  ((List.range 4).filter fun c => c != s.self && c != chip && map / 2 ^ c % 2 == 1).foldl (fun (t : State) c => t.peerSeen c i) s

/-- WEFT_HELLO. -/
def execWeftHello (port : Fin 2) (flit : Bytes) (s : State) : Host.Outcome State Fault Refusal :=
  ok <| s.bareFlit 6 port.val flit fun a =>
    let d := Flit.payload flit
    let chip := leAt d 0 1 % 4
    let map := leAt d 8 1
    if a.helloWrong port.val (leAt d 0 1) (leAt d 1 1) map then (a.holdPort port.val (leAt d 0 1) (leAt d 1 1)).settleAll.retarget
    else ((a.helloNeighbour port.val chip (BitVec.ofNat 32 (leAt d 4 4))).helloMap port.val chip map).settleAll.retarget

/-! ## Ports and peers (R365, R371) -/

/-- WEFT_LANE_LOCK_LOSS. -/
def execWeftLaneLockLoss (port : Fin 2) (s : State) : Host.Outcome State Fault Refusal := ok (s.portDown port.val 0).settleAll.retarget

/-- WEFT_SILENCE_TIMEOUT: 100 µs without a good flit. -/
def execWeftSilenceTimeout (port : Fin 2) (s : State) : Host.Outcome State Fault Refusal :=
  if s.portOn port.val ∧ s.usSince (s.port port.val).lastGood 100 then ok (s.portDown port.val 2).settleAll.retarget else ok s

/-- WEFT_PORT_UP: the port has trained; it comes up with sequence number 0 and full credits. -/
def execWeftPortUp (port : Fin 2) (s : State) : Host.Outcome State Fault Refusal :=
  let p := s.port port.val
  if !s.weftRuns || p.up || p.heldDown || !bitOf s.weft.portEn port.val then ok s
  else ok ((s.updPort port.val fun x => { x.cut with up := true, lastGood := s.time }).pump port.val
    |>.traceEmit 5 none false 0x40 port.val 1 0)

/-- PEER_TIMEOUT: 1 ms without a HELLO that names a peer, or no path left to it. -/
def execPeerTimeout (chip : Fin 4) (s : State) : Host.Outcome State Fault Refusal :=
  let p := s.peer chip.val
  if p.live ∧ (p.ports = 0 ∨ s.usSince p.last 1000) then ok ((s.peerDown chip.val).settleAll.retarget) else ok s

end Sys2Proof.Machine
end

