-- ==== Sys2Proof/Machine/WheelSlot.lean ====
section
/-!
DEFINITION. One slot of a stream engine's wheel (R241, R253 to R255, R465).
-/

namespace Sys2Proof.Machine

/-- The classes of a slot (R253). -/
inductive SlotClass where
  | read | write | remote | reserved
  deriving DecidableEq, Repr

/-- The class that a wheel map gives a slot. -/
def slotClass (map : Word) (i : Nat) : SlotClass :=
  match bitsOf map (2 * i + 1) (2 * i) with
  | 0 => .read
  | 1 => .write
  | 2 => .remote
  | _ => .reserved

/-- A slot stays idle (R254, Table 24-7). -/
def State.slotIdle (s : State) (e : Nat) : State := s.perfAdd (26 + e) 1

/-- A command makes its move, and goes on to its end if that was its last. -/
def State.moveOf (s : State) (view : HostView) (o : Offer) : State :=
  let u := s.makeMove view o.1 o.2.1 o.2.2
  (u.1.setRun o.1 u.2.copyEnd).settle o.1

/-- The light path moves a line in a read slot of the engine whose turn it is (R241). -/
def State.lightSlot (s : State) (view : HostView) (e : Nat) (o : Offer) : State :=
  let a := { s with comp := { s.comp with lightTurn := (s.comp.lightTurn + 1) % 4 } }
  ((a.perfAdd (14 + e) 1).perfAdd 30 1).moveOf view o

/-- A line of a class is issued, by the order of R465; without one the slot stays idle. -/
def State.classSlot (s : State) (view : HostView) (e count : Nat) (g : Nat → Run → Option Move) : State :=
  match s.pickOffer e (s.offers g) with
  | none => s.slotIdle e
  | some (o, used) => ({ s with comp := { s.comp with beTurns := used } }.perfAdd (count + e) 1).moveOf view o

/-- A read slot: the light path first, then the streams. -/
def State.readSlot (s : State) (view : HostView) (e : Nat) : State :=
  let light := if s.comp.lightTurn = e then bestOffer (s.offers fun _ x => State.offerLight x) else none
  match light with
  | some o => s.lightSlot view e o
  | none => s.classSlot view e 14 fun _ x => s.offerRead e x

/-- A remote slot takes a line that a port holds. -/
def State.takeRemote (s : State) (port : Nat) : State :=
  match s.rxHead port with
  | some f => (s.dropRx port f).deliver f
  | none => s

/-- A remote slot (R374). -/
def State.remoteSlot (s : State) (view : HostView) (e : Nat) : State :=
  let a := match s.pickOffer e (s.offers fun k x => s.offerRemote e k x) with
    | none => s.slotIdle e
    | some (o, used) =>
      let b := { s with comp := { s.comp with beTurns := used } }.perfAdd (22 + e) 1
      match o.2.2 with
      | .recv p => b.takeRemote p
      | _ => b.moveOf view o
  a.drainAll

/-- The wheel of an engine advances by one slot. -/
def State.advanceWheel (s : State) (e : Nat) : State :=
  { s with comp := { s.comp with wheel := Table.upd 0 s.comp.wheel e fun i => (i + 1) % 16 } }

/-- The slot at which an engine's wheel stands. -/
def State.runSlot (s : State) (view : HostView) (e i : Nat) : State :=
  match slotClass s.fw.wheelMap i with
  | .read => s.readSlot view e
  | .write => s.classSlot view e 18 fun _ x => s.offerWrite e x
  | .remote => s.remoteSlot view e
  | .reserved => s.slotIdle e

/-- The stage whose group updates the tensor in progress of a TRAIN step. -/
def State.updateStage (s : State) (x : Run) : Option Nat :=
  x.updating.map fun u => (x.stageList.find? fun n => u.left.any fun p => x.pieceIdx n == Region.pieceNo s p.at').getD x.first

/-- The TRAIN steps whose tensor in progress moves through an engine end that tensor (R610, R611, log entry 58). -/
def State.updateSlot (s : State) (e : Nat) : State :=
  s.comp.runs.foldl (fun (t : State) p =>
    match t.updateStage p.2 with
    | none => t
    | some n =>
      if t.engineOf p.2 n = e then
        let u := t.stepUpdate p.2
        (u.1.setRun p.1 u.2).settle p.1
      else t) s

/-- WHEEL_SLOT: while the fabric runs at RL0. -/
def execWheelSlot (engine : Fin 4) (view : HostView) (s : State) : Host.Outcome State Fault Refusal :=
  if !s.fabricRuns || s.power.level != 0 then ok s
  else ok ((((s.pullAll engine.val).updateSlot engine.val).advanceWheel engine.val).runSlot view engine.val (Table.get 0 s.comp.wheel engine.val % 16))

end Sys2Proof.Machine
end

