-- ==== Sys2Proof/Machine/Cancel.lean ====
section
/-!
DEFINITION. CANCEL (R427, R428, R103, R419, R614), TENANT_RESET (R444, R467, R468), PEER_QUERY (R445) and SENSOR_CALIBRATE
(R446).
-/

namespace Sys2Proof.Machine

/-! ## Stopping a command -/

/-- Some of a command's work has run: a line was requested or read, a stage has begun, or another chip has it. -/
def Run.hasWorked (x : Run) : Bool :=
  !x.waitCap && (x.chip.isSome || x.pos != 0 || (x.stages.any fun p => decide (p.2.phase ≠ .gate) || p.2.layer != 0)
    || x.lines.any fun p => p.2.host || p.2.src.isSome)

/-- A directory slot of an install is being programmed, or its block compacted (R226, R419). -/
def NvmOp.slotWork (o : NvmOp) : Bool := decide (64 ≤ o.bank)

/-- The running operation of a command. -/
def Nvm.runningOf (v : Nvm) (t : Nat) : Option NvmOp := v.ops.find? fun o => o.ofCmd t && o.running

/-- A running operation that runs to its end whatever is cancelled: an erase or a relocation, unless an install made it
(R427, R419). -/
def NvmOp.uncancellable (o : NvmOp) (install : Bool) : Bool :=
  match o.act with
  | .program _ _ _ _ => install && o.slotWork
  | .erase _ => !install || o.slotWork
  | .erasePhys _ => true
  | .relocate _ => true

/-- The running operation of a command ends after its code word, or its erase, with a status (R103). -/
def State.stopOp (s : State) (t : Nat) (st : BitVec 16) : State :=
  { s with nvm := { s.nvm with ops := s.nvm.ops.map fun (o : NvmOp) => if o.ofCmd t && o.running then { o with stop := some st } else o } }

/-- Stop a command whose operations are in the weight store's queues. -/
def State.cancelNvm (s : State) (t : Nat) (c : Cmd) (st : BitVec 16) : State × Nat :=
  let install := Entry.opcode c.entry == 0x10
  let begun := (s.nvm.plan t).begun
  match s.nvm.runningOf t with
  | some o => if o.uncancellable install then (s, 3) else (s.stopOp t st, 2)
  | none =>
    if install && begun && (s.nvm.ops.all fun o => !o.ofCmd t || o.slotWork) then (s, 3)
    else (s.finishPlan t st 0, if begun then 2 else 1)

/-- The binding whose bind a command waits for. -/
def State.bindingOf (s : State) (t : Nat) : Option Nat := (s.binds.find? fun p => p.2.binder == some t).map Prod.fst

/-- A STREAM_CLOSE that is stopped no longer waits for its slot. -/
def State.dropCloser (s : State) (t : Nat) : State :=
  { s with slots := Table.mapVal {} (fun _ (x : Slot) => if x.closer = some t then { x with closer := none } else x) s.slots }

/-- A release of a binding (R422). -/
def Cmd.isRelease (c : Cmd) : Bool := Entry.opcode c.entry == 0x12 && bitOf (Entry.dw c.entry 2) 31

/-- Stop a command that runs. -/
def State.cancelBusy (s : State) (t : Nat) (c : Cmd) (st : BitVec 16) : State × Nat :=
  match s.run? t with
  | some x => if x.stop.isSome then (s, 0) else (s.stopRun t { status := st }, if x.hasWorked then 2 else 1)
  | none =>
    if (Table.find s.nvm.plans t).isSome then s.cancelNvm t c st
    else if c.isRelease then (s, 3)
    else
      match s.bindingOf t with
      | some k => (s.bindFails k st, 2)
      | none => ((s.dropCloser t).endCmd t st 0 0, 2)

/-- Stop a command with a status, and the outcome of Table 15-4. -/
def State.cancelCmd (s : State) (t : Nat) (c : Cmd) (st : BitVec 16) : State × Nat :=
  let o := Entry.opcode c.entry
  match c.phase with
  | .ended => (s, 0)
  | .held => if o = 0x60 ∨ o = 0x53 then (s, 3) else (s.endCmd t st 0 0, 1)
  | .ready => if o = 0x60 ∨ o = 0x53 then (s, 3) else (s.endCmd t st 0 0, 1)
  | .busy => if o = 0x53 then (s, 3) else s.cancelBusy t c st

/-! ## CANCEL -/

/-- The command that a CANCEL names: it holds the ticket, and is of the same function, of that ring and number; never a
CANCEL. -/
def State.cancelTarget (s : State) (c : Cmd) : Option (Nat × Cmd) :=
  let t := (Entry.dw c.entry 1).toNat
  match s.cmd? t with
  | none => none
  | some d =>
    if d.fn = c.fn ∧ d.ring = bitsOf (Entry.dw c.entry 2) 7 0 ∧ d.seq = Entry.dw c.entry 3 ∧ Entry.opcode d.entry ≠ 0x16 then some (t, d)
    else none

/-- CANCEL. -/
def execCancel (t : Ticket) (s : State) : Host.Outcome State Fault Refusal :=
  ok <| s.onCmd t.val [0x16] fun c =>
    if !Entry.paramsOk c.entry then
      s.endCmd t.val St.badParam 0 0
    else
      match s.cancelTarget c with
      | none => s.endCmd t.val St.ok 0 0
      | some (u, d) =>
        let r := s.cancelCmd u d St.cancelled
        r.1.endCmd t.val St.ok (BitVec.ofNat 32 r.2) 0

/-! ## TENANT_RESET -/

/-- End a command with ABORTED_BY_RESET as far as it can be ended (R444, R467). -/
def State.abortCmd (s : State) (t : Nat) : State :=
  match s.cmd? t with
  | none => s
  | some c =>
    match c.phase with
    | .ended => s
    | .held => s.endCmd t St.abortedByReset 0 0
    | .ready => s.endCmd t St.abortedByReset 0 0
    | .busy => if c.isRelease then s.endCmd t St.abortedByReset 0 0 else (s.cancelCmd t c St.abortedByReset).1

/-- The commands of a function that were accepted before a position and have not ended. -/
def State.earlier (s : State) (f order : Nat) : List Nat :=
  s.ticketsWhere fun d => d.fn == f && decide (d.order < order) && decide (d.phase ≠ .ended)

/-- Close every slot of a function (R360, R467). -/
def State.closeSlots (s : State) (f : Nat) : State :=
  ((List.range 16).filter fun i => (s.slot i).isOpen && (s.slot i).fn == f).foldl (fun (a : State) i =>
    ((a.updSlot i fun y => { y with closing := true, frame := none }).endWaiting i St.abortedByReset).slotDone i) s

/-- A PF that is reset leaves the ring jobs that it serves: their leads hear that it is lost to them (R467). -/
def State.leaveServed (s : State) : State :=
  (s.binds.filter fun p => p.2.live && p.2.lead.isSome).foldl (fun (a : State) p =>
    match p.2.lead with
    | some c =>
      let b := { a with comp := { a.comp with runs := a.comp.runs.filter fun q => !(q.2.bind == p.1) } }
      b.sendCtrl c (.bound p.2.leadHandle St.peerLost)
    | none => a) s

/-- What a tenant holds goes back: bindings, ways, latency tolerance (R467). -/
def State.freeTenant (s : State) (f : Nat) : State :=
  let a := (if f = 0 then s.leaveServed else s).freeBindings f
  let b := a.emptyWays (a.tenants.waysOf f)
  b.updFn f fun x => { x with tol := 0xFFFFFFFF }

/-- Resets of the same target that were accepted meanwhile end with the first one, and what was held goes on (R444). -/
def State.endResets (s : State) (t f : Nat) : State :=
  let l := s.ticketsWhere fun d => Entry.opcode d.entry == 0x60 && resetTarget d.entry == f && (d.fn == 0 || d.fn == f) && decide (d.phase ≠ .ended)
  let a := (l.filter fun u => u != t).foldl (fun (b : State) u => b.endCmd u St.ok 0 0) (s.endCmd t St.ok 0 0)
  { a with cmds := a.cmds.map fun (p : Nat × Cmd) => (p.1, if p.2.fn = f then a.unhold p.2 else p.2) }

/-- Another reset of the same target is in progress. -/
def State.resetBefore (s : State) (c : Cmd) : Bool :=
  s.cmds.any fun p => Entry.opcode p.2.entry == 0x60 && resetTarget p.2.entry == resetTarget c.entry && decide (p.2.order < c.order)
    && decide (p.2.phase ≠ .ended)

/-- The reset of a tenant: it completes once every command that it ends has ended; until then the step comes again. -/
def State.tenantReset (s : State) (t : Nat) (c : Cmd) : State :=
  let f := resetTarget c.entry
  let a := ((s.earlier f c.order).foldl State.abortCmd s).closeSlots f
  if (a.earlier f c.order).isEmpty then ((a.freeTenant f).endResets t f).retarget else a

/-- TENANT_RESET. -/
def execTenantReset (t : Ticket) (s : State) : Host.Outcome State Fault Refusal :=
  ok <| s.onCmd t.val [0x60] fun c =>
    let f := resetTarget c.entry
    if !Entry.paramsOk c.entry ∨ (c.fn ≠ 0 ∧ f ≠ c.fn) ∨ !s.fnExists f then s.endCmd t.val St.badParam 0 0
    else if s.resetBefore c then s
    else s.tenantReset t.val c

/-! ## PEER_QUERY -/

/-- Hops to a chip on a port's way round the ring. -/
def State.hops (s : State) (c i : Nat) : Nat :=
  let l := if i = 0 then s.ringOrder else s.ringOrder.reverse
  (lowest (fun n => l[n]? == some c) 3).map (· + 1) |>.getD 0

/-- Result word 0 of PEER_QUERY. -/
def State.peerWord (s : State) (c : Nat) : Word :=
  let way := if c = s.self ∨ !(s.peer c).live then none else s.route c
  mkWord [(0, b2n (c == s.self || (s.peer c).live)), (1, b2n (way == some 0)), (2, b2n (way == some 1)), (4, s.liveMap),
    (8, match way with
      | some i => s.hops c i
      | none => 0)]

/-- PEER_QUERY. -/
def execPeerQuery (t : Ticket) (s : State) : Host.Outcome State Fault Refusal :=
  ok <| s.onCmd t.val [0x61] fun c =>
    let n := bitsOf (Entry.dw c.entry 2) 1 0
    if !Entry.paramsOk c.entry then
      s.endCmd t.val St.badParam 0 0
    else s.endCmd t.val St.ok (s.peerWord n) (if n = s.self then s.life.epoch else (s.peer n).epoch)

/-! ## SENSOR_CALIBRATE -/

/-- SENSOR_CALIBRATE: one AVSBus Voltage read for each selected sensor, whose read-back is the regulator's (a free value, log
entry 6); the change of offset is the silicon's. -/
def execSensorCalibrate (t : Ticket) (delta : BitVec 8) (s : State) : Host.Outcome State Fault Refusal :=
  ok <| s.onCmd t.val [0x62] fun c =>
    let m := bitsOf (Entry.dw c.entry 2) 7 0
    if !Entry.paramsOk c.entry then
      s.endCmd t.val St.badParam 0 0
    else if s.pace.busFault then s.endCmd t.val St.noResource 0 0
    else
      let a := ((List.range 8).filter fun i => m / 2 ^ i % 2 == 1).foldl
        (fun (b : State) _ => ((b.emit (.avs 1 0)).avsRead (BitVec.ofNat 10 (Config.freeNat b.fresh))).tick) s
      a.endCmd t.val St.ok (BitVec.ofNat 32 m) (if m = 0 then 0 else delta.setWidth 32)

end Sys2Proof.Machine
end

