-- ==== Sys2Proof/Machine/Answer.lean ====
section
/-!
DEFINITION. Read completions and their timeout (R265, R270, R331, R340 to R342, R388).
-/

namespace Sys2Proof.Machine

/-! ## Lines that arrive (R265, R270) -/

/-- The bytes of a line out of the data of a request that starts at `from'`. -/
def lineData (data : Bytes) (from' key len : Nat) : Bytes := (data.drop (key - from')).take len

/-- A line is covered by a request. -/
def covered (lo len : Nat) (p : Nat × Line) : Bool := decide (lo ≤ p.1) && decide (p.1 < lo + len) && p.2.data.isNone

/-- A line has a byte in one of the ranges of a request that starts at `lo`. -/
def hits (lo : Nat) (bad : List (Nat × Nat)) (p : Nat × Line) : Bool :=
  bad.any fun (r : Nat × Nat) => decide (lo + r.1 < p.1 + p.2.len) && decide (p.1 < lo + r.1 + r.2)

/-- The lines of a request get their data. -/
def Run.fillLines (x : Run) (now : BitVec 64) (lo : Nat) (data : Bytes) : Run :=
  { x with lines := x.lines.map fun (p : Nat × Line) =>
    (p.1, if covered lo data.length p then { p.2 with data := some (lineData data lo p.1 p.2.len), came := now } else p.2) }

/-- The failing lines of a request are delivered as zeros and poisoned (R270). -/
def Run.failLines (x : Run) (now : BitVec 64) (lo len : Nat) (bad : List (Nat × Nat)) (l : FailLoc) : Run :=
  let failing (p : Nat × Line) : Bool := covered lo len p && hits lo bad p
  let y := (x.noteFail l).countIn l.stage (x.lines.filter failing).length
  { y with lines := y.lines.map fun (p : Nat × Line) =>
    (p.1, if failing p then { p.2 with data := some (zeroBytes p.2.len), poison := true, came := now } else p.2) }

/-- What a request brought: under ABORT a failing line ends the command (R275), under POISON the others are delivered. -/
def Run.arrive (x : Run) (now : BitVec 64) (lo len : Nat) (bad : List (Nat × Nat)) (l : FailLoc) (data : Bytes) : Run :=
  if bad.isEmpty then x.fillLines now lo data
  else if x.abort then x.abortAt l .other
  else (x.failLines now lo len bad l).fillLines now lo data

/-- What a request brought reaches the command that it was made for; `bad` are its poisoned ranges. -/
def State.lineArrive (s : State) (k buf off stage block start len : Nat) (bad : List (Nat × Nat)) (data : Bytes) : State :=
  match s.run? k with
  | none => s
  | some x =>
    let at' := off + (bad.map Prod.fst).headD 0 - start
    let l : FailLoc := { block := block, buf := buf, stage := stage, write := false, line := satNat 0xFFFFFFFF (at' / 64) }
    (s.setRun k (x.arrive s.time (lineKey buf off) len bad l data)).settle k

/-- The lines that a request brought go into the tenant's ways (R256, R457); those with a poisoned byte do not, nor what the light
path moves (R241). -/
def State.cacheHost (s : State) (q : ReadReq) (k : Nat) : State :=
  if ((s.run? k).map Run.light).getD false then s
  else
    ((cut64 (q.got.length + 1) q.addr q.got).filter fun p =>
      !q.bad.any fun r => rangesMeet (q.addr + r.1) r.2 p.1 p.2.length).foldl
      (fun (t : State) p => t.cachePut t.pinned q.fn true p.1 p.2 false) s

/-- A request ends: with all its data, of which some ranges came poisoned, or without (R266: all of it fails). -/
def State.readEnds (s : State) (q : ReadReq) (good : Bool) : State :=
  let a := { s with reads := s.reads.erase q }
  if q.orphan then a
  else
    match q.use with
    | .sq r _ => a.sqArrive q.fn r (good && q.bad.isEmpty) q.got
    | .line k b o st n start =>
      let t := a.lineArrive k b o st n start q.len (if good then q.bad else [(0, q.len)]) (if good then q.got else [])
      if good then t.cacheHost q k else t

/-- The outstanding request under a tag. -/
def State.readAt (s : State) (tag : Nat) : Option ReadReq := s.reads.find? fun q => q.tag == tag

/-! ## PCIE_COMPLETION -/

/-- A request with what one more completion brought. -/
def ReadReq.take (q : ReadReq) (ep : Bool) (data : Bytes) : ReadReq :=
  { q with
    got := q.got ++ data
    bad := if ep then q.bad ++ [(q.got.length, data.length)] else q.bad }

/-- PCIE_COMPLETION: a completion of a request, or an unexpected one, which is logged (Table 12-7). Completions of one
request bring its bytes in ascending order, and the one with its last byte delivers all of its lines; a status other than
successful, or more bytes than were asked for, fails it whole (R265, R266). -/
def execPcieCompletion (tag : Nat) (status : CplStatus) (ep : Bool) (data : Bytes) (s : State) : Host.Outcome State Fault Refusal :=
  match s.readAt tag with
  | none => ok (s.aer 0 0x10000 0x2000)
  | some q =>
    let a := if ep && !q.orphan then (s.aer q.fn 0x1000 0x2000).parity q.fn true else s
    let t := q.take ep data
    if status ≠ .sc ∨ q.len < t.got.length then ok (a.readEnds q false)
    else
      let b := { a with reads := a.reads.map fun (o : ReadReq) => if o.tag = tag then t else o }
      if t.got.length = q.len then ok (b.readEnds t true) else ok b

/-! ## COMPLETION_TIMEOUT (R340, R341) -/

/-- The completion timer in microseconds (Table 12-6). -/
def timeoutUs (v : BitVec 4) : Nat :=
  match v.toNat with
  | 1 => 80
  | 2 => 8000
  | 5 => 40000
  | 6 => 150000
  | 9 => 600000
  | 10 => 2500000
  | 13 => 10000000
  | 14 => 50000000
  | _ => 24000

/-- COMPLETION_TIMEOUT. -/
def execCompletionTimeout (tag : Nat) (s : State) : Host.Outcome State Fault Refusal :=
  match s.readAt tag with
  | none => ok s
  | some q =>
    if s.pcie.ctoDis || !q.sent || !s.usSince q.issued (timeoutUs s.pcie.cto) then ok s
    else
      let a := { (s.aer q.fn 0x4000 0) with pcie := { s.pcie with cplTo := satInc s.pcie.cplTo 1 } }
      ok (a.readEnds q false)

end Sys2Proof.Machine
end

