-- ==== Sys2Proof/Machine/Debug.lean ====
section
/-!
DEFINITION. The debug port (R571 to R583) and the LOST packet of the trace (R588). RESUME is in Machine/Deadline.lean.
-/

namespace Sys2Proof.Machine

/-! ## The TAP (R571) -/

/-- IDCODE. -/
def execIdcode (s : State) : Host.Outcome State Fault Refusal := ok (s.emit (.tdo 32 0x1C200A6B))

/-- A restore command is in progress. -/
def State.restoring (s : State) : Bool := s.nvm.ops.any fun o => decide (o.owner = .restore)

/-- DBG_STATUS. -/
def execDbgStatus (s : State) : Host.Outcome State Fault Refusal :=
  ok (s.emit (.tdo 96 (s.fuses.uid.toNat + 2 ^ 64 * s.dbg.scope.toNat + 2 ^ 66 * b2n s.dbg.halted
    + 2 ^ 67 * b2n s.restoring + 2 ^ 68 * s.dbg.fails.toNat)))

/-- EXTEST: the boundary-scan register is shifted, and drives the pins. -/
def execExtest (scan : Nat) (s : State) : Host.Outcome State Fault Refusal :=
  ok ({ s with dbg := { s.dbg with bsr := scan % 2 ^ Config.bsrLen } }.emit (.tdo Config.bsrLen s.dbg.bsr))

/-- SAMPLE_PRELOAD: what the pins hold is shifted out; which bit is which pin the spec leaves open (log entry 40). -/
def execSamplePreload (scan : Nat) (s : State) : Host.Outcome State Fault Refusal :=
  ok ({ s.tick with dbg := { s.dbg with bsr := scan % 2 ^ Config.bsrLen } }.emit
    (.tdo Config.bsrLen (Config.freeNat s.fresh % 2 ^ Config.bsrLen)))

/-- BYPASS, and every code that Table 22-1 does not list: one bit of delay. -/
def execBypass (code : BitVec 8) (len scan : Nat) (s : State) : Host.Outcome State Fault Refusal :=
  if code.toNat ∈ [0x00, 0x01, 0x02, 0x20, 0x21] then ok s else ok (s.emit (.tdo len (2 * scan % 2 ^ len)))

/-! ## The debug access register (R572, R573) -/

/-- Answer an access. -/
def State.dbgAnswer (s : State) (r : DbgResult) : State := { s with dbg := { s.dbg with result := r } }

/-- A scan of DBG_ACCESS attaches the debugger; while an access has not ended it starts nothing (R572). Below a scope,
the access is denied (R573). -/
def State.dbgAccess (s : State) (scope : Nat) (f : State → State) : State :=
  let a := { s with dbg := { s.dbg with attached := true } }.refreshDoms s
  if a.restoring then a.dbgAnswer { busy := true }
  else if a.dbg.scope.toNat < scope then a.dbgAnswer { done := true, denied := true }
  else f a

/-! ## Peek (R577, R578) -/

/-- Offsets of the device block that hold an RC field. -/
def rcOffset (o : Nat) : Bool :=
  o ∈ [0x054, 0x058, 0x084, 0x088, 0x428, 0x42C, 0x61C, 0x620, 0x810, 0x814, 0xA20]
    || (decide (0x320 ≤ o) && decide (o < 0x340)) || (decide (0x910 ≤ o) && decide (o < 0x930))
    || (decide (0x940 ≤ o) && decide (o < 0x980))

/-- An ordinary read of a dword of BAR 0 would have a side effect. -/
def State.readHasEffect (s : State) (f o : Nat) : Bool :=
  s.latching f o || (s.regServed f o && f == 0 && decide (0x10000 ≤ o) && rcOffset (o - 0x10000))

/-- A peek of BAR 0. -/
def State.peekBar0 (s : State) (f a : Nat) : State :=
  s.dbgAnswer { done := true, se := s.readHasEffect f a, addr := BitVec.ofNat 40 a, data := s.latchValue f a }

/-- A peek of a word of the NVM aperture of a ready bank is a row read (R578). -/
def State.peekNvm (s : State) (b o : Nat) : State × Bytes × Bool :=
  if 262144 * nvmLogical b ≤ o then (s, zeroBytes 4, false)
  else
    match s.nvm.running b with
    | some op => (s, leBytes 4 (s.nvm.statusWord op), false)
    | none =>
      let l := o / 262144
      let w := o % 262144 / 256
      let r := (s.nvm.word b l w).read s.fresh
      ((if r.uncorr then s.tick else s).pd4Read b |>.readRow b (l * 64 + w / 16), (r.data.drop (o % 256)).take 4, r.uncorr)

/-- A word of the device address map as a peek reads it, without the limits of R304 (R577). -/
def State.peekDevice (s : State) (a : Nat) : State × Bytes × Bool :=
  match s.region a with
  | .lp5x =>
    (s, readBytes 0 s.addr.lp5x a 4,
      Table.get false s.addr.poison (a / 64) || (s.addr.eccOn && decide (Table.get 0 s.addr.lpErr (dramLine (a / 64)) ≥ 2)))
  | .nvm b o => s.peekNvm b o
  | .sac v o =>
    ((s.wayBytes v o 4).1, (s.wayBytes v o 4).2, Table.get false s.addr.sacPoison ((2097152 * v + o) / 64))
  | .core c o => (s, readBytes 0 s.addr.cores (1048576 * c + o) 4, false)
  | .unmapped => (s, List.replicate 4 0xFF, false)

/-- The firmware's watchdog registers (R550): WD_RESPONSE is write-only. -/
def State.peekAon (s : State) (a : Nat) : Word :=
  if a = 0 then s.wd.challenge else if a = 8 then s.wd.staged.setWidth 32 else 0

/-- A peek of a space; space 3 is reserved and denied. -/
def State.peek (s : State) (space : DbgSpace) (f a : Nat) : State :=
  match space with
  | .bar0 => s.peekBar0 f a
  | .device =>
    let r := s.peekDevice a
    r.1.dbgAnswer { done := true, poisoned := r.2.2, addr := BitVec.ofNat 40 a, data := BitVec.ofNat 32 (leNat r.2.1) }
  | .aon => s.dbgAnswer { done := true, se := a == 0, addr := BitVec.ofNat 40 a, data := s.peekAon a }
  | .reserved => s.dbgAnswer { done := true, denied := true, addr := BitVec.ofNat 40 a }

/-- DBG_PEEK: the address is 32-bit aligned (R572). -/
def execDbgPeek (space : DbgSpace) (fn : FnId) (addr : BitVec 40) (s : State) : Host.Outcome State Fault Refusal :=
  ok (s.dbgAccess 1 fun a => a.peek space fn.val (addr.toNat / 4 * 4))

/-! ## Poke (R579) -/

/-- The scope that a poke needs: OBSERVE for the TRACE block, FULL for every other target (Table 22-2). -/
def pokeScope (space : DbgSpace) (f a : Nat) : Nat :=
  match space with
  | .bar0 => if f = 0 ∧ 0x10A00 ≤ a ∧ a < 0x10A40 then 1 else 2
  | _ => 2

/-- A poke of a space. -/
def State.poke (s : State) (space : DbgSpace) (f a : Nat) (v : Word) : State :=
  let done : DbgResult := { done := true, addr := BitVec.ofNat 40 a, data := v }
  match space with
  | .bar0 => (s.writeReg f a v).dbgAnswer done
  | .device => (s.devWrite true 5 a (leBytes 4 v.toNat)).dbgAnswer done
  | .aon => s.dbgAnswer (if a = 4 ∨ a = 8 then { done with denied := true } else done)
  | .reserved => s.dbgAnswer { done with denied := true }

/-- DBG_POKE. -/
def execDbgPoke (space : DbgSpace) (fn : FnId) (addr : BitVec 40) (data : Word) (s : State) :
    Host.Outcome State Fault Refusal :=
  let a := addr.toNat / 4 * 4
  ok (s.dbgAccess (pokeScope space fn.val a) fun t => t.poke space fn.val a data)

/-! ## Commands (Table 22-4) -/

/-- An access that ended without data. -/
def State.dbgDone (s : State) (good : Bool) : State := s.dbgAnswer { done := true, denied := !good }

/-- A CP trace packet: 0 halt, 1 resume, 2 step (Table 22-7). -/
def State.traceCp (s : State) (aux : Nat) : State := s.traceEmit 6 none false 0x50 0 aux 0

/-- The CP stops, if it has not been stopped. -/
def State.stopCp (s : State) : State :=
  if s.dbg.halted then s else { s with dbg := { s.dbg with halted := true, haltStart := s.time } }.traceCp 0

/-- HALT (R580): the CP stops and the device wakes (R504); its target level is RL0 (R501). A CP that is held in reset
does not halt. -/
def State.haltCp (s : State) : State :=
  match s.life.phase with
  | .running => (s.stopCp.wake 5).dbgDone true
  | .boot _ => s.stopCp.dbgDone true
  | .romOnly => s.stopCp.dbgDone true
  | _ => s.dbgDone true

/-- HALT. -/
def execHalt (s : State) : Host.Outcome State Fault Refusal := ok (s.dbgAccess 1 State.haltCp)

/-- STEP: one CP instruction; what the CP's instructions do is not part of the KC2's interface (R11, R572). -/
def execStep (s : State) : Host.Outcome State Fault Refusal :=
  ok (s.dbgAccess 1 fun a => (if a.dbg.halted then a.traceCp 2 else a).dbgDone true)

/-- LOCK: the scope ends (R573). -/
def execLock (s : State) : Host.Outcome State Fault Refusal :=
  ok (s.dbgAccess 0 fun a => { a with dbg := { a.dbg with scope := 0 } }.dbgDone true)

/-- UNLOCK_LOAD: one word of the token; an index above 39 is denied. -/
def execUnlockLoad (index : BitVec 16) (word : Word) (s : State) : Host.Outcome State Fault Refusal :=
  ok (s.dbgAccess 0 fun a =>
    if index.toNat < 40 then
      { a with dbg := { a.dbg with token := Table.set 0 a.dbg.token index.toNat word } }.dbgDone true
    else a.dbgDone false)

/-- The 160 bytes of the token that is loaded. -/
def Debug.tokenBytes (d : Debug) : Bytes := (List.range 40).flatMap fun i => leBytes 4 (Table.get 0 d.token i).toNat

/-- The token's checks (R574): its key and signature are a function of its bytes (log entry 7). -/
def tokenOk (uid : BitVec 64) (b : Bytes) : Bool :=
  leAt b 0 4 == 0x4B444254 && leAt b 4 2 == 0x0100 && leAt b 8 8 == uid.toNat && (leAt b 6 1 ∈ [1, 2])
    && Config.tokenSigned b

/-- UNLOCK_CHECK (R574, R575). -/
def execUnlockCheck (s : State) : Host.Outcome State Fault Refusal :=
  ok (s.dbgAccess 0 fun a =>
    let b := a.dbg.tokenBytes
    if a.dbg.fails.toNat ≥ 8 then a.dbgDone false
    else if tokenOk a.fuses.uid b then
      { a with dbg := { a.dbg with scope := BitVec.ofNat 2 (leAt b 6 1) } }.dbgDone true
    else { a with dbg := { a.dbg with fails := satInc a.dbg.fails 1 } }.dbgDone true)

/-! ## The restore service (R583) -/

/-- No firmware runs, the boot ROM serves BAR 0, and VPP_NVM is present. -/
def State.restoreOn (s : State) : Bool :=
  s.nvm.vppOk && (match s.life.phase with
    | .romOnly => true
    | .boot _ => s.life.noFw
    | _ => false)

/-- Queue operations of the restore service; the access shows busy until they end. -/
def State.restoreOps (s : State) (l : List (Nat × NvmAct)) : State :=
  let ops := l.map fun x => ({ bank := x.1, act := x.2, owner := .restore } : NvmOp)
  ({ s with nvm := { s.nvm with ops := s.nvm.ops ++ ops } }.refreshDoms s).dbgAnswer { busy := true }

/-- RESTORE_ERASE: logical blocks 0 to 47 of a plane. -/
def execRestoreErase (plane : BitVec 16) (s : State) : Host.Outcome State Fault Refusal :=
  ok (s.dbgAccess 2 fun a =>
    if a.restoreOn ∧ plane.toNat < 2 then
      a.restoreOps ((List.range 48).map fun l => (64 + plane.toNat, .erase l))
    else a.dbgDone false)

/-- RESTORE_LOAD: one word of the 256-byte buffer. -/
def execRestoreLoad (index : BitVec 16) (word : Word) (s : State) : Host.Outcome State Fault Refusal :=
  ok (s.dbgAccess 2 fun a =>
    if a.restoreOn ∧ index.toNat < 64 then
      { a with dbg := { a.dbg with buffer := Table.set 0 a.dbg.buffer index.toNat word } }.dbgDone true
    else a.dbgDone false)

/-- The bytes of the restore buffer. -/
def Debug.bufferBytes (d : Debug) : Bytes := (List.range 64).flatMap fun i => leBytes 4 (Table.get 0 d.buffer i).toNat

/-- RESTORE_PROGRAM: the buffer into one code word of the slot, under R93 to R95. -/
def execRestoreProgram (word : BitVec 16) (plane : Word) (s : State) : Host.Outcome State Fault Refusal :=
  ok (s.dbgAccess 2 fun a =>
    if a.restoreOn ∧ word.toNat < 49152 then
      a.restoreOps [(64 + bitsOf plane 0 0,
        .program (word.toNat / 1024) (word.toNat % 1024) 1 (.bytes a.dbg.bufferBytes))]
    else a.dbgDone false)

/-- RESTORE_COMMIT: a COMMIT mark, as FW_COMMIT programs it (R559, R583). -/
def execRestoreCommit (plane : BitVec 16) (s : State) : Host.Outcome State Fault Refusal :=
  ok (s.dbgAccess 2 fun a =>
    let slot := plane.toNat
    if !a.restoreOn ∨ slot ≥ 2 then a.dbgDone false
    else if a.nvm.slotState slot = 1 then a.dbgDone true
    else
      let r := a.imageReads slot
      if a.nvm.imageCheck slot a.fuses.rollback ≠ 0 ∨ a.nvm.slotState slot = 2 ∨ a.nvm.marksUsed slot ≥ 16 then
        r.dbgDone false
      else r.restoreOps [(64 + slot, markAct slot 1)])

/-! ## Trace (R588) -/

/-- TRACE_LOST_EMIT: room has returned in the FIFO after drops: one LOST packet with their number, aux 0. -/
def execTraceLostEmit (s : State) : Host.Outcome State Fault Refusal :=
  if s.trace.dropped = 0 ∨ s.trace.fifo.length ≥ 256 ∨ !s.trace.en then ok s
  else
    let p := tracePacket s.time 0x03 0 0 0 (BitVec.ofNat 32 (satNat 0xFFFFFFFF s.trace.dropped))
    ok { s with trace := { s.trace with fifo := s.trace.fifo ++ [p], dropped := 0 } }

end Sys2Proof.Machine
end

