-- ==== Sys2Proof/Machine/Deadline.lean ====
section
/-!
DEFINITION. Deadlines that pass (R283, R287, R490), cores that fail (R27) and the CP's resume (R287, R523, R580).
-/

namespace Sys2Proof.Machine

/-! ## DEADLINE_PASS -/

/-- A command's deadline has passed while some stage of it is incomplete, and it has not been stopped. -/
def Run.passed (x : Run) (now : BitVec 64) : Bool :=
  x.stop.isNone && !x.allDone && (match x.deadline with
    | some d => decide (d < now)
    | none => false)

/-- The time base passes the deadline of a command: what is incomplete is kept for its report, and under LATE_DROP the frame
is dropped, at once or when the CP resumes (R283, R287). -/
def State.deadlinePass (s : State) (t : Nat) : State :=
  match s.run? t with
  | none => s
  | some x =>
    if !x.passed s.time || x.missStage.isSome then s
    else if x.lateDrop && !s.dbg.halted then s.dropFrame t
    else s.updRun t fun y => y.passDeadline s.time

/-- DEADLINE_PASS. -/
def execDeadlinePass (t : Ticket) (s : State) : Host.Outcome State Fault Refusal := ok (s.deadlinePass t.val)

/-! ## CORE_FAULT (R27) -/

/-- A stage of a command has its group: from its start to its end, also between two layers and while it waits for a token
(R261) once its turn has come; a TRAIN step keeps every stage until it ends (R262, R603). -/
def State.holdsGroup (s : State) (k : Nat) (x : Run) (n : Nat) : Bool :=
  match (x.stage n).phase with
  | .gate => decide ((x.stage n).layer ≠ 0) || ((x.stage n).waits.isSome && !s.stageBusy k x n)
  | .open => true
  | .running => true
  | .done => x.train.isSome

/-- A command owns a core: a stage of it has a group with that core. -/
def State.ownsCore (s : State) (k : Nat) (x : Run) (core : Nat) : Bool :=
  x.kind == .pattern && x.chip.isNone && x.stageList.any fun n => s.holdsGroup k x n && (PieceRec.cores (s.pieceOf x n)).contains core

/-- The command that owns a core. -/
def State.coreOwner (s : State) (core : Nat) : Option (Nat × Run) := s.comp.runs.find? fun p => s.ownsCore p.1 p.2 core

/-- Mark a core as failed. -/
def State.markCore (s : State) (core : Nat) : State :=
  { s with life := { s.life with failed := Table.set false s.life.failed core true } }

/-- CORE_FAULT: the entry and its bits, and the end of the command that owns the core. -/
def execCoreFault (core : Fin 64) (s : State) : Host.Outcome State Fault Refusal :=
  if !s.fabricRuns then ok s
  else
    let a := s.markCore core.val
    match s.coreOwner core.val with
    | none => ok (a.logEvent 0x33 devByte (leBytes 1 core.val ++ zeroBytes 4) [.dev Trb.coreFault.bit])
    | some (k, x) =>
      let b := a.logEvent 0x33 (fnByte x.fn) (leBytes 1 core.val ++ leBytes 4 (s.handleAt x.bind).toNat)
        [.dev Trb.coreFault.bit, .fn x.fn FnTrb.coreFault.bit]
      ok (b.stopRun k { status := St.coreFault })

/-! ## RESUME (R287, R523, R580) -/

/-- The CP runs again: entries and bits that waited are written, then the completions of the commands that ended. -/
def State.startCp (s : State) : State :=
  let a := { s with dbg := { s.dbg with
    halted := false, haltSum := s.dbg.haltSum + (s.time - s.dbg.haltStart).toNat, haltEnds := [] } }.traceCp 1
  let b := if a.fwRuns then a.flushWaiting a.trouble.waiting else a
  s.dbg.haltEnds.foldl State.completionWrite b

/-- Put a frame among others before those with a later deadline. -/
def byDeadline (a : Nat × Run) : List (Nat × Run) → List (Nat × Run)
  | [] => [a]
  | b :: t => if b.2.deadline.getD 0 ≤ a.2.deadline.getD 0 then b :: byDeadline a t else a :: b :: t

/-- The frames whose drop waits, by deadline. -/
def State.dropsDue (s : State) : List Nat :=
  let l := s.comp.runs.filter fun p => p.2.lateDrop && p.2.lead.isNone && p.2.stop.isNone && (p.2.missStage.isSome || p.2.passed s.time)
  (l.foldl (fun (m : List (Nat × Run)) a => byDeadline a m) []).map Prod.fst

/-- A drop whose moment passed during the halt is made (R287). -/
def State.dropAfterHalt (s : State) (k : Nat) : State := (s.updRun k fun x => { x with haltDrop := true }).dropFrame k

/-- The CP resumes. -/
def State.resumeCp (s : State) : State :=
  if !s.dbg.halted then s
  else
    let a := s.startCp
    (a.dropsDue.foldl State.dropAfterHalt a).retarget

/-- RESUME. -/
def execResume (s : State) : Host.Outcome State Fault Refusal := ok (s.dbgAccess 1 fun a => a.resumeCp.dbgDone true)

end Sys2Proof.Machine
end

