-- ==== Sys2Proof/Machine/Firmware.lean ====
section
/-!
DEFINITION. The settings and firmware commands (R441 to R443, R559, R564, R565, R581, R582) and QUERY items that need no
pattern.
-/

namespace Sys2Proof.Machine

/-! ## Settings (R441, R563 to R565) -/

/-- SETTINGS_GET (R565, R569). -/
def execSettingsGet (t : Ticket) (s : State) : Host.Outcome State Fault Refusal :=
  ok <| s.onTurn t.val [0x50] fun c =>
    let len := (Entry.dw c.entry 4).toNat
    if !Entry.paramsOk c.entry then s.endCmd t.val St.badParam 0 0
    else
      match c.output 2 len with
      | .error e => s.endCmd t.val e 0 0
      | .ok p =>
        (s.writePlace c.fn p s.fw.record false).endCmd t.val St.ok
          (mkWord [(0, recordVersion s.fw.record), (16, b2n s.fw.defaulted)])
          (BitVec.ofNat 32 (leAt s.fw.record 4092 4))

/-- The fields that the KC2 knows hold values they may hold (R255, R441, Table 21-4). -/
def recordFieldsOk (b : Bytes) : Bool :=
  (b.getD 12 0).toNat < 2 && zerosAt b 13 3 && wheelMapOk (leAt b 20 4) && (b.getD 24 0).toNat < 2 && zerosAt b 25 231

/-- A source record is accepted in a mode (Table 21-5): 0 UPDATE, 1 MIGRATE, 2 REPLACE. -/
def State.settingsOk (s : State) (mode : Nat) (b : Bytes) : Bool :=
  recordGood b && recordFieldsOk b &&
    (if mode = 0 then
      !s.fw.defaulted && recordVersion b == s.fw.setOwn && recordSeq b == recordSeq s.fw.record
     else if mode = 1 then decide (s.fw.migLo ≤ recordVersion b) && decide (recordVersion b ≤ s.fw.setOwn)
     else recordVersion b == s.fw.setOwn)

/-- The record that is stored: the own version, and the seq in force plus 1 (Table 21-5). -/
def State.newRecord (s : State) (b : Bytes) : Bytes :=
  recordWith (spliceBytes b 4 (leBytes 2 s.fw.setOwn)) ((recordSeq s.fw.record + 1) % 2 ^ 32)

/-- The operations that write a record into the copy of a plane (R564): at its next erased position, or at position 0
after an erase of its two blocks. -/
def Nvm.recordOps (v : Nvm) (plane : Nat) (b : Bytes) : List (Nat × NvmAct) :=
  let n := v.recordNext plane
  if n < 128 then [(64 + plane, .program (48 + n / 64) (n % 64 * 16) 16 (.bytes b))]
  else [(64 + plane, .erase 48), (64 + plane, .erase 49), (64 + plane, .program 48 0 16 (.bytes b))]

/-- SETTINGS_SET in a mode, its parameters being in range. -/
def State.settingsWrite (s : State) (t : Nat) (c : Cmd) (mode : Nat) (view : HostView) : State :=
  match c.input 3 4096 with
  | .error e => s.endCmd t e 0 0
  | .ok p =>
    let r := s.readPlace view c.fn p 4096
    match r.2 with
    | .error _ => r.1.endCmd t St.hostAbort 0 0
    | .ok b =>
      if !s.settingsOk mode b then r.1.endCmd t St.badParam 0 0
      else
        let n := s.newRecord b
        let idle := 1 - s.fw.running
        r.1.queueCmd t (s.nvm.recordOps idle n ++ s.nvm.recordOps s.fw.running n)
          { res1 := BitVec.ofNat 32 (leAt n 4092 4), goal := .settings n (mode != 0) }

/-- SETTINGS_SET, for a command whose mode is the row's; mode 3 is reserved (R441). -/
def State.settingsSet (s : State) (t : Nat) (mode : Nat) (view : HostView) : State :=
  s.onTurn t [0x51] fun c =>
    let m := bitsOf (Entry.dw c.entry 2) 1 0
    if m ≠ mode ∧ ¬(m = 3 ∧ mode = 0) then s
    else if !Entry.paramsOk c.entry then s.endCmd t St.badParam 0 0
    else s.settingsWrite t c mode view

/-- SETTINGS_SET_UPDATE. -/
def execSettingsSetUpdate (t : Ticket) (view : HostView) (s : State) : Host.Outcome State Fault Refusal :=
  ok (s.orWait (s.settingsSet t.val 0 view))

/-- SETTINGS_SET_MIGRATE. -/
def execSettingsSetMigrate (t : Ticket) (view : HostView) (s : State) : Host.Outcome State Fault Refusal :=
  ok (s.orWait (s.settingsSet t.val 1 view))

/-- SETTINGS_SET_REPLACE. -/
def execSettingsSetReplace (t : Ticket) (view : HostView) (s : State) : Host.Outcome State Fault Refusal :=
  ok (s.orWait (s.settingsSet t.val 2 view))

/-- An operation of a settings command. -/
def State.ofSettings (s : State) (o : NvmOp) : Bool :=
  match o.owner with
  | .cmd t => (match s.cmd? t with
    | some c => Entry.opcode c.entry == 0x51
    | none => false)
  | _ => false

/-- A settings program that the lapse of the lock finds under way: its code word is finished, and the firmware programs
the copy afresh when it resumes (R582). -/
def State.restartCopy (s : State) (o : NvmOp) (n : Nat) (src : NvmSrc) (t : Nat) : State :=
  let a := s.finishOp o
  let b := match src with
    | .bytes b => b
    | _ => []
  let fresh := (a.nvm.recordOps (o.bank - 64) b).map fun x => ({ bank := x.1, act := x.2, owner := .cmd t } : NvmOp)
  if n = 16 then
    { a with nvm := ({ a.nvm with ops := dropHeadOp o.bank a.nvm.ops ++ fresh } : Nvm).recount }
  else a

/-- SETTINGS_LOCK_LAPSE: 262,144 WDO ticks have passed; the lock is released, and nothing is written (R582). -/
def execSettingsLockLapse (s : State) : Host.Outcome State Fault Refusal :=
  if s.nvm.setLock = some 0 then
    let a := { s with nvm := { s.nvm with setLock := none } }
    match a.nvm.running (64 + s.fw.running) with
    | none => ok a
    | some o =>
      match o.owner, o.act with
      | .cmd t, .program _ _ n src => if a.ofSettings o then ok (a.restartCopy o n src t) else ok a
      | _, _ => ok a
  else ok s

/-! ## Firmware slots (R442, R443, R559) -/

/-- The slot that is not running. -/
def State.otherSlot (s : State) : Nat := 1 - s.fw.running

/-- FW_STAGE (R442, R559): a PENDING slot that is not erased is withdrawn first, by a mark like any other program (R90). -/
def execFwStage (t : Ticket) (s : State) : Host.Outcome State Fault Refusal :=
  ok <| s.onTurn t.val [0x52] fun c =>
    let erase := bitOf (Entry.dw c.entry 2) 0
    let len := (Entry.dw c.entry 5).toNat
    let off := (Entry.dw c.entry 6).toNat
    if !Entry.paramsOk c.entry then s.endCmd t.val St.badParam 0 0
    else
      match c.input 3 len with
      | .error e => s.endCmd t.val e 0 0
      | .ok p =>
        let slot := s.otherSlot
        let marks := if !erase ∧ s.nvm.slotState slot = 1 ∧ s.nvm.marksUsed slot < 16 then [(64 + slot, markAct slot 5)] else []
        let erases := if erase then (List.range 48).map fun l => (64 + slot, NvmAct.erase l) else []
        let n := len / 256
        let w := off / 256
        let prog := if n = 0 then [] else [(64 + slot, NvmAct.program (w / 1024) (w % 1024) n (.mem p c.fn))]
        match marks ++ erases ++ prog with
        | [] => s.endCmd t.val St.ok 0 0
        | l => s.queueCmd t.val l {}

/-- A mark that a command programs on the inactive slot (R559): it needs room; VPP_NVM is checked when it starts (R90). -/
def State.commandMark (s : State) (t slot kind : Nat) : State :=
  if s.nvm.marksUsed slot ≥ 16 then s.endCmd t St.noResource 0 0
  else s.queueCmd t [(64 + slot, markAct slot kind)] {}

/-- The plane of the inactive slot can take a mark now: nothing runs or is queued on it, no settings commit holds it
(R100, R582). -/
def State.planeFree (s : State) : Bool :=
  s.nvm.setLock.isNone && !(s.nvm.ops.any fun o => o.bank == 64 + s.otherSlot)

/-- FW_COMMIT with DW2[0] = 1 (R443, R559). -/
def execFwCommit (t : Ticket) (s : State) : Host.Outcome State Fault Refusal :=
  ok <| s.onTurn t.val [0x53] fun c =>
    if !bitOf (Entry.dw c.entry 2) 0 ∨ !s.planeFree then s
    else if !Entry.paramsOk c.entry then s.endCmd t.val St.badParam 0 0
    else
      let slot := s.otherSlot
      let st := s.nvm.slotState slot
      let chk := s.nvm.imageCheck slot s.fuses.rollback
      if st = 1 then s.endCmd t.val St.ok 0 0
      else
        let s := s.imageReads slot
        if chk ≠ 0 then s.endCmd t.val St.badParam (BitVec.ofNat 32 chk) 0
        else if st = 2 then s.endCmd t.val St.badParam 0 0
        else s.commandMark t.val slot 1

/-- FW_COMMIT with DW2[0] = 0: a pending commit is withdrawn (R443, R559). -/
def execFwWithdraw (t : Ticket) (s : State) : Host.Outcome State Fault Refusal :=
  ok <| s.onTurn t.val [0x53] fun c =>
    if bitOf (Entry.dw c.entry 2) 0 ∨ !s.planeFree then s
    else if !Entry.paramsOk c.entry then s.endCmd t.val St.badParam 0 0
    else if s.nvm.slotState s.otherSlot = 1 then s.commandMark t.val s.otherSlot 5
    else s.endCmd t.val St.ok 0 0

end Sys2Proof.Machine
end

