-- ==== Sys2Proof/Machine/Install.lean ====
section
/-!
DEFINITION. PATTERN_INSTALL and PATTERN_REMOVE (R218, R221 to R228, R418, R419, R671): the placement of extents, the
operations on banks and planes, the directory slot.
-/

namespace Sys2Proof.Machine

open LayerRec PieceRec

/-! ## Placement (R223) -/

/-- Pad a string with zeros to a multiple of 256 bytes. -/
def pad256 (b : Bytes) : Bytes := b ++ zeroBytes (roundUp b.length 256 - b.length)

/-- A piece of an extent that comes from the package. -/
def fromPkg (o len : Nat) : NvmPart := { len := len, src := some o }

/-- A piece of an extent that the KC2 composed. -/
def literal (b : Bytes) : NvmPart := { len := b.length, lit := b }

/-- The control section of a piece, as parts (R223). -/
def controlParts (p : Bytes) (x : PieceRec) : List NvmPart :=
  [fromPkg ((sectAt p 3).1 + 128 * layerIdx x) (128 * nLayers x),
   literal (zeroBytes (roundUp (128 * nLayers x) 256 - 128 * nLayers x)),
   fromPkg ((sectAt p 4).1 + 32 * nestIdx x) (32 * nNest x),
   literal (zeroBytes (roundUp (32 * nNest x) 256 - 32 * nNest x)),
   literal (completeTables p x)]

/-- The stripe of a piece in a bank, if the bank's core is in its group. -/
def stripePart (p : Bytes) (x : PieceRec) (bank : Nat) : List NvmPart :=
  match (PieceRec.cores x).idxOf? bank with
  | none => []
  | some n => [fromPkg ((sectAt p 6).1 + stripeOff x + n * stripeLen x) (stripeLen x)]

/-- A bank's extent, as parts: stripes in piece order, then control sections (R223). -/
def extentParts (p : Bytes) (bank : Nat) : List NvmPart :=
  let ps := pkgPieces p
  (ps.flatMap fun x => stripePart p x bank) ++ (ps.filter fun x => origin x == bank).flatMap (controlParts p)

/-- The bytes of parts, with the package at hand. -/
def partsData (p : Bytes) (l : List NvmPart) : Bytes :=
  l.flatMap fun q => match q.src with
    | none => q.lit
    | some o => (p.drop o).take q.len

/-- A planned extent. -/
structure Extent where
  bank : Nat
  first : Nat
  blocks : Nat
  parts : List NvmPart
  data : Bytes
  deriving DecidableEq, Repr

/-- The banks that a package uses: every bank in which it has an item (R223). -/
def pkgBanks (p : Bytes) : List Nat := (List.range 64).filter fun n => extentBytes (pkgPieces p) n != 0

/-- Place every extent at the lowest free run of its bank; none where a bank has no room (R223). -/
def placeExtents (used : List (Nat × Bytes)) (p : Bytes) : Option (List Extent) :=
  (pkgBanks p).mapM fun n =>
    let k := extentBlocks (extentBytes (pkgPieces p) n)
    match freeRun (usedBlocks used n) k with
    | none => none
    | some a => some { bank := n, first := a, blocks := k, parts := extentParts p n, data := partsData p (extentParts p n) }

/-- The placement map (R223). -/
def placementMap (l : List Extent) : Bytes :=
  (List.range 64).flatMap fun n =>
    match l.find? fun e => e.bank == n with
    | none => zeroBytes 8
    | some e => leBytes 4 (e.first + 128 * e.blocks + 16384 * (e.data.length / 256)) ++ leBytes 4 (crc32 e.data).toNat

/-- An extent tag (R223). -/
def extentTag (p : Bytes) (handle : Nat) (e : Extent) : Bytes :=
  (leBytes 8 (Pattern.id p) ++ leBytes 4 handle ++ leBytes 4 e.bank ++ leBytes 4 (crc32 e.data).toNat ++ zeroBytes 256).take 256

/-! ## The directory slot (R221, R222, R671) -/

/-- The slot for a new install, and whether its directory block is compacted first (R671). -/
def State.chooseSlot (s : State) : Option (Nat × Bool) :=
  match lowest (fun i => s.nvm.slotClean i) 256 with
  | some i => some (i, false)
  | none => (lowest (fun i => (s.nvm.slotTaken s.fw.running i).isNone) 256).map fun i => (i, true)

/-- The handle that an install into a slot gives (R222). -/
def State.newHandle (s : State) (i : Nat) : Nat := i + 256 * ((Table.get 0 s.nvm.instCnt i + 1) % 2 ^ 24)

/-- The commit sequence of a new install: later than that of the slot's present copy. -/
def State.newCommit (s : State) (i : Nat) : Word :=
  match s.nvm.slotBest s.fw.running i with
  | none => 1
  | some b => slotCommit b + 1

/-- The 7,936 bytes of a slot before its tombstone (Table 8-10). -/
def slotImage (p : Bytes) (commit : Word) (fn handle : Nat) (map : Bytes) : Bytes :=
  let body := p.take 64 ++ leBytes 4 commit.toNat ++ leBytes 4 fn ++ leBytes 4 handle ++ leBytes 4 (sectAt p 1).2
    ++ leBytes 4 (sectAt p 2).2 ++ zeroBytes 44 ++ map ++ (sectionBytes p 1 ++ zeroBytes 128).take 128
    ++ (sectionBytes p 2 ++ zeroBytes 4096).take 4096 ++ zeroBytes 3068
  body ++ leBytes 4 (crc32 body).toNat

/-- Program a slot's 31 code words in a plane. -/
def slotOp (plane i : Nat) (b : Bytes) : Nat × NvmAct := (64 + plane, .program (slotBlock i) (slotFirst i) 31 (.bytes b))

/-- Compaction of a slot's directory block in a plane: erase it and program its installed slots back (R671). -/
def State.compactOps (s : State) (plane i : Nat) : List (Nat × NvmAct) :=
  (64 + plane, .erase (slotBlock i)) :: (List.range 32).filterMap fun n =>
    let k := i / 32 * 32 + n
    (s.nvm.slotTaken s.fw.running k).map fun b => slotOp plane k b

/-- The operations on one plane for a new slot. -/
def State.planeOps (s : State) (plane i : Nat) (compact : Bool) (b : Bytes) : List (Nat × NvmAct) :=
  (if compact then s.compactOps plane i else []) ++ [slotOp plane i b]

/-! ## PATTERN_INSTALL -/

/-- Every operation of an install, in the order of R226. -/
def State.installOps (s : State) (p : Bytes) (pl : Place) (fn handle slot : Nat) (compact : Bool) (l : List Extent) :
    List (Nat × NvmAct) :=
  let img := slotImage p (s.newCommit slot) fn handle (placementMap l)
  (l.flatMap fun e => (List.range e.blocks).map fun i => (e.bank, NvmAct.erase (e.first + i)))
    ++ (l.map fun e => (e.bank, NvmAct.program e.first 0 (e.data.length / 256) (.layout pl fn e.parts)))
    ++ (l.map fun e =>
      let w := wordAt e.first 0 (e.data.length / 256)
      (e.bank, NvmAct.program w.1 w.2 1 (.bytes (extentTag p handle e))))
    ++ (if compact then s.wearOps else [])
    ++ s.planeOps (1 - s.fw.running) slot compact img ++ s.planeOps s.fw.running slot compact img

/-- Checks 2 to 6 of Table 8-8. -/
def pkgOk (p : Bytes) : Bool := check2 p && check3 p && check4 p && check5 p && check6 p

/-- Checks 7 to 9, then the install. -/
def State.installGo (s : State) (t : Nat) (c : Cmd) (pl : Place) (p : Bytes) : State :=
  match s.chooseSlot, placeExtents s.patterns p with
  | some (slot, compact), some l =>
    if l.any fun e => s.reservedFor c e.bank then s.endCmd t St.bankReserved 0 0
    else if !s.nvm.vppOk then (s.endCmd t St.vppLow 0 0).setTrb .vppLow
    else
      let h := s.newHandle slot
      s.queueCmd t (s.installOps p pl c.fn h slot compact l)
        { res0 := BitVec.ofNat 32 h, res1 := BitVec.ofNat 32 (l.map fun e => e.blocks).sum
          goal := .install (placementMap l) }
  | _, _ => s.endCmd t St.noResource 0 0

/-- PATTERN_INSTALL (R224, R226, R418, R419). -/
def execPatternInstall (t : Ticket) (view : HostView) (s : State) : Host.Outcome State Fault Refusal :=
  ok <| s.orWait <| s.onTurn t.val [0x10] fun c =>
    let len := (Entry.dw c.entry 4).toNat
    let en := bitOf (Entry.dw c.entry 7) 0
    if !Entry.paramsOk c.entry then
      s.endCmd t.val St.badParam 0 0
    else
      match c.input 2 len, (if en then c.output 5 512 else .ok (.sac 0)) with
      | .error e, _ => s.endCmd t.val e 0 0
      | .ok _, .error e => s.endCmd t.val e 0 0
      | .ok pl, .ok _ =>
        let r := s.readPlace view c.fn pl len
        match r.2 with
        | .error _ => r.1.endCmd t.val St.hostAbort 0 0
        | .ok p => if pkgOk p then r.1.installGo t.val c pl p else r.1.endCmd t.val St.badParam 0 0

/-! ## PATTERN_REMOVE (R228) -/

/-- The program of a slot's tombstone in a plane. -/
def tombOp (plane i : Nat) : Nat × NvmAct :=
  (64 + plane, .program (slotBlock i) (slotFirst i + 31) 1 (.bytes (zeroBytes 256)))

/-- The tombstones that are still to be programmed, active plane last. -/
def State.tombOps (s : State) (i : Nat) : List (Nat × NvmAct) :=
  ([1 - s.fw.running, s.fw.running].filter fun pl => !s.nvm.tombed pl i).map fun pl => tombOp pl i

/-- A slot whose remove was cut off after its first tombstone, named by the same handle: one tombstone remains (R228). -/
def State.halfRemoved (s : State) (i : Nat) (h : Word) : Bool :=
  (s.nvm.tombed 0 i != s.nvm.tombed 1 i) && (match s.nvm.slotBest s.fw.running i with
    | none => false
    | some b => Pattern.handle b == h)

/-- PATTERN_REMOVE (R228). -/
def execPatternRemove (t : Ticket) (s : State) : Host.Outcome State Fault Refusal :=
  ok <| s.onTurn t.val [0x11] fun c =>
    let h := Entry.handle c.entry
    let i := bitsOf h 7 0
    let mine := c.fn == 0 || c.fn == s.owner i
    if !Entry.paramsOk c.entry ∨ !mine
        ∨ ((s.patternOf h).isNone ∧ !s.halfRemoved i h) then s.endCmd t.val St.badParam 0 0
    else if s.isBound h then s.endCmd t.val St.bankReserved 0 0
    else
      match s.tombOps i with
      | [] => s.endCmd t.val St.ok 0 0
      | l => if s.nvm.vppOk then s.queueCmd t.val l {} else (s.endCmd t.val St.vppLow 0 0).setTrb .vppLow

end Sys2Proof.Machine
end

