-- ==== Sys2Proof/Machine/Power.lean ====
section
/-!
DEFINITION. Chapter 18: entering rest levels, waking, PD1-alone exits, the link's L1 states and SET_LATENCY.
-/

namespace Sys2Proof.Machine

/-- REST_ENTER: idle without a break for the dwell time of the next level, no deeper than the target (R496). RL4 is
entered only after the wear-record checkpoint (R497). -/
def execRestEnter (s : State) : Host.Outcome State Fault Refusal :=
  let l := s.power.level + 1
  if s.mayRest && (decide (l < 4) || s.power.ckptDone) then
    let t := { s with power := { s.power with
      level := l, resTicks := 0
      entryCnt := Table.upd 0 s.power.entryCnt l fun v => satNat 0xFFFFFFFF (v + 1) } }
    let u := t.refreshDoms s
    ok (if l = 2 then u.flushTrace else u).ltrUpdate
  else ok s

/-- WAKE: a wake event of Table 18-3 reaches the device. -/
def execWake (source : Fin 7) (s : State) : Host.Outcome State Fault Refusal := ok (s.wake source.val)

/-- PD1_ALONE_EXIT: at RL4 an access or a message brings PD1 alone out of retention (R505). -/
def execPd1AloneExit (s : State) : Host.Outcome State Fault Refusal :=
  if s.power.level = 4 then
    let t := { s.leaveL1 with power := { s.leaveL1.power with pd1Alone := true, linkL12 := false } }
    ok (t.refreshDoms s)
  else ok s

/-- L12_TIMEOUT: the link has stayed out of L1.2 for 10 ms after a PD1-alone exit: the target becomes RL3 (R505). -/
def execL12Timeout (s : State) : Host.Outcome State Fault Refusal :=
  if s.power.level = 4 ∧ s.power.pd1Alone ∧ !s.power.linkL12 then
    ok ({ s with power := { s.power with l12Late := true } }).retarget
  else ok s

/-- L1_2_ENTRY: the platform moves the link into L1.2 (R501, R505); the link needs REFCLK no longer (R652). -/
def execL12Entry (s : State) : Host.Outcome State Fault Refusal :=
  if !s.pcie.dlActive then ok s
  else
    let t := { s with
      power := { s.power with linkL12 := true, inL1 := true, clkreqN := true, pd1Alone := false, l12Late := false } }
    ok ((t.refreshDoms s).retarget)

/-- L1_EXIT: the link partner starts an exit from L1; the KC2 follows and leaves L1.2 (R509). -/
def execL1Exit (s : State) : Host.Outcome State Fault Refusal :=
  let t := { s with
    power := { s.power with
      linkL12 := false, inL1 := false, clkreqN := false, pd1Alone := s.power.pd1Alone || decide (s.power.level = 4) } }
  ok ((t.refreshDoms s).retarget)

/-- L1_ENTRY_REQUEST: 10 µs with nothing to transmit and no non-posted request outstanding, with ASPM L1 enabled
(R345, R509). -/
def execL1EntryRequest (s : State) : Host.Outcome State Fault Refusal :=
  if s.pcie.dlActive && bitOf s.pcie.aspm 1 && s.reads.isEmpty then
    ok { s with power := { s.power with inL1 := true } }
  else ok s

/-- SET_LATENCY (R417): the tolerance is replaced, and the target follows (R502). -/
def execSetLatency (t : Ticket) (s : State) : Host.Outcome State Fault Refusal :=
  ok <| s.onCmd t.val [0x02] fun c =>
    if !Entry.paramsOk c.entry then s.endCmd t.val St.badParam 0 0
    else
      let s := (s.updFn c.fn fun x => { x with tol := Entry.dw c.entry 2 }).retarget
      s.endCmd t.val St.ok (mkWord [(0, s.target), (4, tolLevel s.tolMin)]) 0

end Sys2Proof.Machine
end

