-- ==== Sys2Proof/Machine/Dispatch.lean ====
section
/-!
DEFINITION. One arm for each command: the meaning that Machine/<Family>.lean gives it.
-/

namespace Sys2Proof.Machine

def exec (i : Instr) (s : State) : Host.Outcome State Fault Refusal :=
  match i with
  | .nop t => Sys2Proof.Machine.execNop t s
  | .query t => Sys2Proof.Machine.execQuery t s
  | .setLatency t => Sys2Proof.Machine.execSetLatency t s
  | .patternInstall t view => Sys2Proof.Machine.execPatternInstall t view s
  | .patternRemove t => Sys2Proof.Machine.execPatternRemove t s
  | .patternBind t => Sys2Proof.Machine.execPatternBind t s
  | .patternRelease t => Sys2Proof.Machine.execPatternRelease t s
  | .bindingReleaseDone fn index => Sys2Proof.Machine.execBindingReleaseDone fn index s
  | .run t view => Sys2Proof.Machine.execRun t view s
  | .runLight t => Sys2Proof.Machine.execRunLight t s
  | .chain t view => Sys2Proof.Machine.execChain t view s
  | .adaptStepTrain t view => Sys2Proof.Machine.execAdaptStepTrain t view s
  | .adaptAttach t => Sys2Proof.Machine.execAdaptAttach t s
  | .adaptDetach t => Sys2Proof.Machine.execAdaptDetach t s
  | .cancel t => Sys2Proof.Machine.execCancel t s
  | .streamOpen t => Sys2Proof.Machine.execStreamOpen t s
  | .streamClose t => Sys2Proof.Machine.execStreamClose t s
  | .streamFrame t view => Sys2Proof.Machine.execStreamFrame t view s
  | .copy t => Sys2Proof.Machine.execCopy t s
  | .copyLight t => Sys2Proof.Machine.execCopyLight t s
  | .nvmRead t => Sys2Proof.Machine.execNvmRead t s
  | .nvmProgram t => Sys2Proof.Machine.execNvmProgram t s
  | .nvmErase t => Sys2Proof.Machine.execNvmErase t s
  | .nvmStatus t => Sys2Proof.Machine.execNvmStatus t s
  | .nvmScrubBlock t => Sys2Proof.Machine.execNvmScrubBlock t s
  | .nvmScrubDue t => Sys2Proof.Machine.execNvmScrubDue t s
  | .countersRead t => Sys2Proof.Machine.execCountersRead t s
  | .troubleRead t => Sys2Proof.Machine.execTroubleRead t s
  | .troubleClear t => Sys2Proof.Machine.execTroubleClear t s
  | .logRead t => Sys2Proof.Machine.execLogRead t s
  | .settingsGet t => Sys2Proof.Machine.execSettingsGet t s
  | .settingsSetUpdate t view => Sys2Proof.Machine.execSettingsSetUpdate t view s
  | .settingsSetMigrate t view => Sys2Proof.Machine.execSettingsSetMigrate t view s
  | .settingsSetReplace t view => Sys2Proof.Machine.execSettingsSetReplace t view s
  | .fwStage t => Sys2Proof.Machine.execFwStage t s
  | .fwCommit t => Sys2Proof.Machine.execFwCommit t s
  | .fwWithdraw t => Sys2Proof.Machine.execFwWithdraw t s
  | .tenantReset t => Sys2Proof.Machine.execTenantReset t s
  | .peerQuery t => Sys2Proof.Machine.execPeerQuery t s
  | .sensorCalibrate t delta => Sys2Proof.Machine.execSensorCalibrate t delta s
  | .sqTail fn ring value => Sys2Proof.Machine.execSqTail fn ring value s
  | .cqHead fn ring value => Sys2Proof.Machine.execCqHead fn ring value s
  | .ringEnable fn ring => Sys2Proof.Machine.execRingEnable fn ring s
  | .ringDisable fn ring => Sys2Proof.Machine.execRingDisable fn ring s
  | .hwinCtl fn win value => Sys2Proof.Machine.execHwinCtl fn win value s
  | .dwinWctl value => Sys2Proof.Machine.execDwinWctl value s
  | .quotaCommit => Sys2Proof.Machine.execQuotaCommit s
  | .nvmUnlock key => Sys2Proof.Machine.execNvmUnlock key s
  | .unlockTimeout => Sys2Proof.Machine.execUnlockTimeout s
  | .softReset => Sys2Proof.Machine.execSoftReset s
  | .fetchStop fn stop => Sys2Proof.Machine.execFetchStop fn stop s
  | .statsClear fn => Sys2Proof.Machine.execStatsClear fn s
  | .evlogAck value => Sys2Proof.Machine.execEvlogAck value s
  | .traceMark value => Sys2Proof.Machine.execTraceMark value s
  | .traceEnable value => Sys2Proof.Machine.execTraceEnable value s
  | .registerWrite bar fn offset is64 value => Sys2Proof.Machine.execRegisterWrite bar fn offset is64 value s
  | .rcRead bar fn offset is64 => Sys2Proof.Machine.execRcRead bar fn offset is64 s
  | .latchLowRead fn offset => Sys2Proof.Machine.execLatchLowRead fn offset s
  | .latchHighRead fn offset => Sys2Proof.Machine.execLatchHighRead fn offset s
  | .barMisalignedAccess bar fn isWrite len => Sys2Proof.Machine.execBarMisalignedAccess bar fn isWrite len s
  | .bar2Read offset len => Sys2Proof.Machine.execBar2Read offset len s
  | .bar2Write offset data => Sys2Proof.Machine.execBar2Write offset data s
  | .wdChallenge => Sys2Proof.Machine.execWdChallenge s
  | .wdResponse token => Sys2Proof.Machine.execWdResponse token s
  | .wdPeriodSet value => Sys2Proof.Machine.execWdPeriodSet value s
  | .wdArmLapse => Sys2Proof.Machine.execWdArmLapse s
  | .wdFirstExpiry => Sys2Proof.Machine.execWdFirstExpiry s
  | .wdWarnEntry => Sys2Proof.Machine.execWdWarnEntry s
  | .wdWarnTimeout => Sys2Proof.Machine.execWdWarnTimeout s
  | .wdSecondExpiry => Sys2Proof.Machine.execWdSecondExpiry s
  | .wdtPulseEnd => Sys2Proof.Machine.execWdtPulseEnd s
  | .por aonLost => Sys2Proof.Machine.execPor aonLost s
  | .suppliesValid => Sys2Proof.Machine.execSuppliesValid s
  | .testEnHigh => Sys2Proof.Machine.execTestEnHigh s
  | .perstNAssert => Sys2Proof.Machine.execPerstNAssert s
  | .perstNRelease chip => Sys2Proof.Machine.execPerstNRelease chip s
  | .linkDown cause => Sys2Proof.Machine.execLinkDown cause s
  | .boot gibA gibB trained bad speed width => Sys2Proof.Machine.execBoot gibA gibB trained bad speed width s
  | .fwNotReadyTimeout => Sys2Proof.Machine.execFwNotReadyTimeout s
  | .configRequest fn req => Sys2Proof.Machine.execConfigRequest fn req s
  | .flr fn => Sys2Proof.Machine.execFlr fn s
  | .vfEnable => Sys2Proof.Machine.execVfEnable s
  | .vfDisable => Sys2Proof.Machine.execVfDisable s
  | .numvfsWrite value => Sys2Proof.Machine.execNumvfsWrite value s
  | .busMasterEnable fn value => Sys2Proof.Machine.execBusMasterEnable fn value s
  | .d3hotEntry => Sys2Proof.Machine.execD3hotEntry s
  | .d0Entry => Sys2Proof.Machine.execD0Entry s
  | .linkRetrain speed width => Sys2Proof.Machine.execLinkRetrain speed width s
  | .msixUnmask fn vec => Sys2Proof.Machine.execMsixUnmask fn vec s
  | .pcieCompletion tag status ep data => Sys2Proof.Machine.execPcieCompletion tag status ep data s
  | .completionTimeout tag => Sys2Proof.Machine.execCompletionTimeout tag s
  | .l1EntryRequest => Sys2Proof.Machine.execL1EntryRequest s
  | .sqFetch fn ring => Sys2Proof.Machine.execSqFetch fn ring s
  | .entryAccept fn ring => Sys2Proof.Machine.execEntryAccept fn ring s
  | .fenceRelease fn ring => Sys2Proof.Machine.execFenceRelease fn ring s
  | .completionWrite t => Sys2Proof.Machine.execCompletionWrite t s
  | .moderationTimeout fn ring => Sys2Proof.Machine.execModerationTimeout fn ring s
  | .stageStart t stage => Sys2Proof.Machine.execStageStart t stage s
  | .layerStart t stage => Sys2Proof.Machine.execLayerStart t stage s
  | .tileGrant t stage col => Sys2Proof.Machine.execTileGrant t stage col s
  | .loadPhaseEnd t stage col => Sys2Proof.Machine.execLoadPhaseEnd t stage col s
  | .computePhaseEnd t stage col => Sys2Proof.Machine.execComputePhaseEnd t stage col s
  | .layerDrainEnd t stage => Sys2Proof.Machine.execLayerDrainEnd t stage s
  | .wheelSlot engine view => Sys2Proof.Machine.execWheelSlot engine view s
  | .deadlinePass t => Sys2Proof.Machine.execDeadlinePass t s
  | .coreFault core => Sys2Proof.Machine.execCoreFault core s
  | .nvmOpStart bank view => Sys2Proof.Machine.execNvmOpStart bank view s
  | .codeWordProgrammed bank view => Sys2Proof.Machine.execCodeWordProgrammed bank view s
  | .erasePulseDone bank passed => Sys2Proof.Machine.execErasePulseDone bank passed s
  | .vppOkSet => Sys2Proof.Machine.execVppOkSet s
  | .vppLoss => Sys2Proof.Machine.execVppLoss s
  | .patrolRead bank row => Sys2Proof.Machine.execPatrolRead bank row s
  | .autoRelocationStart bank => Sys2Proof.Machine.execAutoRelocationStart bank s
  | .spareErase bank => Sys2Proof.Machine.execSpareErase bank s
  | .staleBlockErase bank => Sys2Proof.Machine.execStaleBlockErase bank s
  | .wearCheckpoint => Sys2Proof.Machine.execWearCheckpoint s
  | .settingsLockLapse => Sys2Proof.Machine.execSettingsLockLapse s
  | .beatRateWindow q0 q1 q2 q3 wdoKhz avs => Sys2Proof.Machine.execBeatRateWindow q0 q1 q2 q3 wdoKhz avs s
  | .avsSettle readMv => Sys2Proof.Machine.execAvsSettle readMv s
  | .paceHoldEnd quad => Sys2Proof.Machine.execPaceHoldEnd quad s
  | .paceRampStep quad => Sys2Proof.Machine.execPaceRampStep quad s
  | .droopSensorTrip sensor level2 => Sys2Proof.Machine.execDroopSensorTrip sensor level2 s
  | .droopSensorRelease sensor toLevel1 => Sys2Proof.Machine.execDroopSensorRelease sensor toLevel1 s
  | .droopInFall short => Sys2Proof.Machine.execDroopInFall short s
  | .droopInRise => Sys2Proof.Machine.execDroopInRise s
  | .thermReading tj => Sys2Proof.Machine.execThermReading tj s
  | .restEnter => Sys2Proof.Machine.execRestEnter s
  | .wake source => Sys2Proof.Machine.execWake source s
  | .pd1AloneExit => Sys2Proof.Machine.execPd1AloneExit s
  | .l12Timeout => Sys2Proof.Machine.execL12Timeout s
  | .csiFrameStart rx hdr dtype frameNo => Sys2Proof.Machine.execCsiFrameStart rx hdr dtype frameNo s
  | .csiLine rx vc packet => Sys2Proof.Machine.execCsiLine rx vc packet s
  | .csiFrameEnd rx hdr => Sys2Proof.Machine.execCsiFrameEnd rx hdr s
  | .csiFrameTimeout slot => Sys2Proof.Machine.execCsiFrameTimeout slot s
  | .weftDataFlit port flit => Sys2Proof.Machine.execWeftDataFlit port flit s
  | .weftCtrlFlit port flit => Sys2Proof.Machine.execWeftCtrlFlit port flit s
  | .weftAck port flit => Sys2Proof.Machine.execWeftAck port flit s
  | .weftNak port flit => Sys2Proof.Machine.execWeftNak port flit s
  | .weftCredit port flit => Sys2Proof.Machine.execWeftCredit port flit s
  | .weftHello port flit => Sys2Proof.Machine.execWeftHello port flit s
  | .weftAckDue port => Sys2Proof.Machine.execWeftAckDue port s
  | .weftResendTimeout port => Sys2Proof.Machine.execWeftResendTimeout port s
  | .weftHelloSend => Sys2Proof.Machine.execWeftHelloSend s
  | .weftLaneLockLoss port => Sys2Proof.Machine.execWeftLaneLockLoss port s
  | .weftSilenceTimeout port => Sys2Proof.Machine.execWeftSilenceTimeout port s
  | .weftPortUp port => Sys2Proof.Machine.execWeftPortUp port s
  | .peerTimeout chip => Sys2Proof.Machine.execPeerTimeout chip s
  | .traceLostEmit => Sys2Proof.Machine.execTraceLostEmit s
  | .dbgPeek space fn addr => Sys2Proof.Machine.execDbgPeek space fn addr s
  | .dbgPoke space fn addr data => Sys2Proof.Machine.execDbgPoke space fn addr data s
  | .halt => Sys2Proof.Machine.execHalt s
  | .resume => Sys2Proof.Machine.execResume s
  | .step => Sys2Proof.Machine.execStep s
  | .unlockLoad index word => Sys2Proof.Machine.execUnlockLoad index word s
  | .unlockCheck => Sys2Proof.Machine.execUnlockCheck s
  | .lock => Sys2Proof.Machine.execLock s
  | .restoreErase plane => Sys2Proof.Machine.execRestoreErase plane s
  | .restoreLoad index word => Sys2Proof.Machine.execRestoreLoad index word s
  | .restoreProgram word plane => Sys2Proof.Machine.execRestoreProgram word plane s
  | .restoreCommit plane => Sys2Proof.Machine.execRestoreCommit plane s
  | .dbgStatus => Sys2Proof.Machine.execDbgStatus s
  | .idcode => Sys2Proof.Machine.execIdcode s
  | .extest scan => Sys2Proof.Machine.execExtest scan s
  | .samplePreload scan => Sys2Proof.Machine.execSamplePreload scan s
  | .bypass code len scan => Sys2Proof.Machine.execBypass code len scan s
  | .dlActive speed width => Sys2Proof.Machine.execDlActive speed width s
  | .l12Entry => Sys2Proof.Machine.execL12Entry s
  | .l1Exit => Sys2Proof.Machine.execL1Exit s
  | .recoveryEntry => Sys2Proof.Machine.execRecoveryEntry s
  | .badTlp err => Sys2Proof.Machine.execBadTlp err s

end Sys2Proof.Machine
end

