-- ==== Sys2Proof/Machine/Tick.lean ====
section
/-!
DEFINITION. One tick of the 38.4 MHz time base, which an empty queue leaves the device to (log entry 10): the WDO counts, the
residency and busy counters, the idle time, the CP's fetches, and the trace FIFO's way to its sink (R586).
-/

namespace Sys2Proof.Machine

/-! ## WDO ticks (R89, R534, R536, R542, R581) -/

/-- One tick off a count that may run. -/
def downOne (n : Option Nat) : Option Nat := n.map fun k => k - 1

/-- The watchdog's counts at a WDO tick: those that run under it, and the wait for its entry. -/
def State.wdTick (s : State) : State :=
  let w := s.wd
  let x := if s.wdLive then { w with count := w.count - 1, armLeft := downOne w.armLeft } else w
  { s with wd := { x with warnLeft := downOne x.warnLeft } }

/-- The locked sequences freeze while the CP is halted (R581). -/
def State.lockTick (s : State) : State :=
  if s.dbg.halted then s
  else { s with nvm := { s.nvm with unlockLeft := downOne s.nvm.unlockLeft, setLock := downOne s.nvm.setLock } }

/-- The WDO may tick within a tick of the time base; which ticks those are is the oscillator's (log entry 4). -/
def State.wdoTick (s : State) : State := if Config.wdoTicks s.fresh then s.tick.wdTick.lockTick else s.tick

/-! ## Counters (R496, R511, R628) -/

/-- Time spent at a rest level, in milliseconds. -/
def Power.stay (p : Power) : Power :=
  if p.level = 0 then p
  else if p.resTicks + 1 < 38400 then { p with resTicks := p.resTicks + 1 }
  else { p with resTicks := 0, resMs := Table.upd 0 p.resMs p.level fun n => satNat 0xFFFFFFFF (n + 1) }

/-- Idle time without a break. -/
def State.idleTick (s : State) : State :=
  { s with power := { s.power.stay with idleTicks := if s.idle then s.power.idleTicks + 1 else 0 } }

/-- A function's busy time: one tick is 5/192 of a microsecond. -/
def State.busyTick (s : State) (f : Nat) : State :=
  if s.ticketsHeld f = 0 then s
  else
    let n := (s.fnSt f).busyTicks + 5
    if n < 192 then s.updFn f fun x => { x with busyTicks := n }
    else (s.updFn f fun x => { x with busyTicks := n - 192 }).stat f 21 1

/-! ## The CP's fetches (R60, R62, R64, R70, R71) -/

/-- A line of the running slot comes from the plane: its code word is read, an uncorrectable one once more, and the
firmware stops if that read fails too (R70, R71). The second read is of the row that the plane still delivers: no row read is
counted for it (log entry 140). -/
def State.codeLine (s : State) (l : Nat) : State :=
  let b := 64 + s.fw.running
  let r := s.readWord b (l / 4 / 1024) (l / 4 % 1024)
  if !r.2.uncorr then r.1
  else
    let q := (r.1.readWord b (l / 4 / 1024) (l / 4 % 1024)).1.setTrb .codeUncorr
    { q with life := { q.life with cpStopped := true } }

/-- The CP fetches a line: a sequential one through the prefetch buffer, any other through the branch cache (R62). -/
def State.fetchLine (s : State) (l : Nat) : State :=
  let b := 64 + s.fw.running
  let next := match s.nvm.lastFetch with
    | some k => k + 1 == l
    | none => false
  let a := { s with nvm := { s.nvm with lastFetch := some l } }
  if next then (a.readRow b (l / 64)).codeLine l
  else if s.nvm.branch.contains l then { a with nvm := { a.nvm with branch := l :: s.nvm.branch.erase l } }
  else
    let r := a.readRow b (l / 64)
    ({ r with nvm := { r.nvm with branch := (l :: r.nvm.branch).take 64 } }).codeLine l

/-- Within a tick the CP may fetch a 64-byte line of the slot that it runs; whether, and which one, the model does not say
(log entry 61). It never fetches from a busy plane (R64). -/
def State.cpFetch (s : State) : State :=
  if !(s.fwRuns && !s.nvm.busy (64 + s.fw.running) && Config.freeBit s.fresh) then s
  else s.tick.fetchLine (Config.freeNat s.fresh % 196608)

/-! ## The tick -/

/-- LP5X loses bits at times that the model does not say: of one line, with ECC on so many wrong bits in its worst code, with ECC off
a line of other data (R300, log entry 124). -/
def State.dramUpset (s : State) : State :=
  if !s.addr.trained || !Config.freeBit s.fresh then s
  else
    let n := Config.freeNat s.fresh
    let line := n / 4 % (s.lpTop / 64)
    if s.addr.eccOn then s.tick.lpSetErr line (min 3 (Table.get 0 s.addr.lpErr (dramLine line) + n % 4)) else s.lpGarble line

/-- A port that is up and has nothing to send sends IDLE (R365). -/
def State.idleFlits (s : State) : State := (List.range 2).foldl (fun (t : State) i => if t.weftRuns then t.sendIdle i else t) s

/-- One tick of the time base: it runs while VDD_AON is valid. -/
def State.timeTick (s : State) : State :=
  if !s.pins.vddAon then s
  else
    let a := ({ s with time := s.time + 1 }.wdoTick).dramUpset.cpFetch.idleTick.idleFlits
    (((a.cmds.map fun p => p.2.fn).eraseDups).foldl State.busyTick a).drainTrace

end Sys2Proof.Machine
end

