-- ==== Sys2Proof/Safety.lean ====
section
/-!
DEFINITION. The terms that claims use: the canonical form of the memories, and what it means that a command of a ring
waits for its own step.
-/

namespace Sys2Proof.Machine

/-- The canonical form of a memory: addresses strictly rising, no entry equal to what an unlisted address reads as
(0, log entry 8). -/
def Memory.wf (m : Table Byte) : Bool := Table.wf 0 m

/-- LP5X, the SAC and the core stores are in canonical form. -/
def State.memWf (s : State) : Bool := Memory.wf s.addr.lp5x && Memory.wf s.addr.sac && Memory.wf s.addr.cores

/-- The command `c`, whose entry has opcode `op`, holds ticket `t` and is dispatched, and the firmware may run its own
step (R389, R391, R580, R622). -/
abbrev State.Waits (s : State) (t op : Nat) (c : Cmd) : Prop :=
  s.cmd? t = some c ∧ c.phase = .ready ∧ Entry.opcode c.entry = op ∧ s.fwRuns = true ∧ s.life.tripped = false

end Sys2Proof.Machine
end

