-- ==== Sys2Proof/Certificates/Slice0/Obligations.lean ====
section
/-!
DEFINITION. The statements for the provers, in the terms of Safety.lean. `exec i s = .next t` says that the command
completes from `s`, and that every part of the state that `t` does not name is as in `s`.
-/

open Sys2Proof Sys2Proof.Machine

/-- For every command c, state s and rest of the queue: a step of s with c at the front of its queue is exec of c on s
with the queue's rest. (95_what_each_step_holds.md) -/
def Obligations.StepRunsTheFrontCommand : Prop :=
  ∀ (c : Instr) (rest : List Instr) (s : State), step { s with pending := c :: rest } = exec c { s with pending := rest }

/-- The model's choice (log entry 10): with an empty queue a step is one tick of the 38.4 MHz time base. While VDD_AON
is valid the time base rises by one and the queue stays empty; without VDD_AON nothing changes. (20_watchdog.md) -/
def Obligations.AnEmptyQueueLetsTheTimeBaseTick : Prop :=
  ∀ (s : State), s.pending = [] →
    (s.pins.vddAon = false → step s = .next s)
    ∧ (s.pins.vddAon = true → ∃ t, step s = .next t ∧ t.time = s.time + 1 ∧ t.pending = [])

/-- No row of the table of operations and events has bits: the decoder answers no command for any word, and placing a
word leaves the state as it is (log entry 1). (98_reader.md) -/
def Obligations.NoWordSpellsACommand : Prop :=
  ∀ (s : State) (nbits w : Nat), decodeTableWord nbits w = none ∧ s.withFetchWord nbits w = s

/-- The spec gives every command an effect in every state, so exec answers a next state for every command and every
state: no fault and no refusal. (95_what_each_step_holds.md) -/
def Obligations.EveryCommandAnswersANextState : Prop :=
  ∀ (c : Instr) (s : State), ∃ t, exec c s = .next t

/-- When exec of a command answers a next state, the queue of waiting commands is unchanged, and everything the device
had sent at its boundary is still there, in the same order, before anything it sends now. (95_what_each_step_holds.md)
-/
def Obligations.CommandsLeaveTheQueueAndKeepWhatWasSent : Prop :=
  ∀ (c : Instr) (s t : State), exec c s = .next t → t.pending = s.pending ∧ ∃ more, t.out = s.out ++ more

/-- Invariant of the model: LP5X, the SAC and the core stores hold their bytes under strictly rising addresses with no
entry equal to what an unlisted byte reads as (log entry 8). Every step that answers a next state keeps this form.
(11_address_map.md) -/
def Obligations.StepsKeepTheMemoriesCanonical : Prop :=
  ∀ (s t : State), s.memWf = true → step s = .next t → t.memWf = true

/-- Over every step that answers a next state, the unique ID, the salt and the fused watchdog values stay as they are,
and the anti-rollback counter is not lowered. (R556, 21_startup_and_firmware.md) -/
def Obligations.StepsBlowNoFuseButTheRollbackCounters : Prop :=
  ∀ (s t : State), step s = .next t →
    t.fuses.uid = s.fuses.uid ∧ t.fuses.salt = s.fuses.salt ∧ t.fuses.wdFraction = s.fuses.wdFraction
    ∧ t.fuses.wdPin = s.fuses.wdPin ∧ t.fuses.wdPulse = s.fuses.wdPulse ∧ s.fuses.rollback ≤ t.fuses.rollback

/-- After reset: every ring is DISABLED with message vector 1 and moderation count 1, no command is held, every window
is disabled, every quota is the default of Table 16-1, both trouble registers and the event log are empty,
configuration requests are answered with CRS, the Weft ports are enabled and no stream slot is open, every governor
admits 8/8, the droop sensors are enabled, the warning temperature is 100, the target rate is 1100, the watchdog
period is 2000 ms, the store is locked, tracing is off, the debug scope is 0, and no byte of LP5X or of the SAC is
listed. (R381, R513, R520, R525, R349, R379, 11_address_map.md, 16_tenants.md, 20_watchdog.md,
02_self_timed_fabric.md) -/
def Obligations.ResetLeavesTheRegistersAtTheirResetValues : Prop :=
  (∀ f r, State.reset.ring f r = { vector := 1, modCount := 1, state := .disabled })
  ∧ State.reset.cmds = [] ∧ State.reset.pending = [] ∧ State.reset.out = []
  ∧ (∀ f i, Table.get {} (State.reset.fnSt f).hwin i = ({ en := false } : HWin)
      ∧ Table.get {} (State.reset.fnSt f).dwin i = ({ en := false } : DWin))
  ∧ (∀ f, (State.reset.fnSt f).quota = { rings := 32, tickets := 64, ways := 16, groups := 16, slots := 16, weight := 4 }
      ∧ (State.reset.fnSt f).trb = 0)
  ∧ State.reset.trouble.trb = 0 ∧ State.reset.trouble.next = 0 ∧ State.reset.trouble.oldest = 0 ∧ State.reset.trouble.ack = 0
  ∧ State.reset.pcie.crs = true ∧ State.reset.pcie.evtCause = 0 ∧ State.reset.pcie.evtMask = 0
  ∧ State.reset.weft.portEn = 3 ∧ State.reset.weft.serve = false
  ∧ (∀ i, (State.reset.slot i).isOpen = false)
  ∧ (∀ q, Table.get {} State.reset.pace.gov q = ({ k := 8, phase := .steady } : Governor))
  ∧ State.reset.pace.sensorEn = 0xFF ∧ State.reset.pace.warnC = 100 ∧ State.reset.pace.targetRate = 1100
  ∧ State.reset.wd.period = 2000 ∧ State.reset.nvm.unlocked = false ∧ State.reset.trace.en = false
  ∧ State.reset.dbg.scope = 0 ∧ State.reset.addr.lp5x = [] ∧ State.reset.addr.sac = []

/-- LP5X, the SAC and the core stores of the reset state are in canonical form. (11_address_map.md) -/
def Obligations.ResetMemoriesAreCanonical : Prop :=
  State.reset.memWf = true

/-- A command that ends with a status other than CORE_FAULT and PEER_LOST takes phase ended, that status and those
result words; the commands of every other ticket are unchanged; and the state differs from before in nothing but the
list of commands and, while the CP is halted, the order in which commands ended. (R396, R580, 14_rings_and_packets.md)
-/
def Obligations.AnEndedCommandKeepsItsStatusUntilItsCompletion : Prop :=
  ∀ (s : State) (t : Nat) (c : Cmd) (st : BitVec 16) (r0 r1 : Word),
    s.cmd? t = some c → st ≠ St.coreFault → st ≠ St.peerLost →
    (s.endCmd t st r0 r1).cmd? t = some { c with phase := .ended, status := st, res0 := r0, res1 := r1 }
    ∧ (∀ u, u ≠ t → (s.endCmd t st r0 r1).cmd? u = s.cmd? u)
    ∧ s.endCmd t st r0 r1 = { s with
        cmds := (s.endCmd t st r0 r1).cmds
        dbg := { s.dbg with haltEnds := if s.dbg.halted then s.dbg.haltEnds ++ [t] else s.dbg.haltEnds } }

/-- After a write of bytes d at LP5X address a: byte a + i reads as byte i of d; every byte outside a to a + d.length
- 1 reads as before (with ECC on, while no code holds three wrong bits or more: what a merge with such a line finds is
open, log entry 124); a line that the write covers whole is marked exactly when the write is poisoned; and a line that
the write does not touch keeps its mark. (R299, R301, 11_address_map.md) -/
def Obligations.AnLp5xWriteReadsBackAndLeavesTheOtherBytes : Prop :=
  ∀ (s : State) (a : Nat) (d : Bytes) (p : Bool),
    (∀ i, i < d.length → Table.get 0 (s.lpWrite a d p).addr.lp5x (a + i) = d.getD i 0)
    ∧ (s.addr.eccOn = false ∨ (∀ l, Table.get 0 s.addr.lpErr l ≤ 2) →
        ∀ x, x < a ∨ a + d.length ≤ x → Table.get 0 (s.lpWrite a d p).addr.lp5x x = Table.get 0 s.addr.lp5x x)
    ∧ (∀ l, a ≤ 64 * l → 64 * l + 64 ≤ a + d.length → Table.get false (s.lpWrite a d p).addr.poison l = p)
    ∧ (∀ l, 64 * l + 64 ≤ a ∨ a + d.length ≤ 64 * l →
        Table.get false (s.lpWrite a d p).addr.poison l = Table.get false s.addr.poison l)

/-- A range of space 0 passes exactly when its host window is enabled, grants the permission, no address wraps past
2^64 and every byte lies from base to limit; its address is the base plus the offset. The same for space 1 with a
device window and 2^40. A range of space 2 passes exactly when it lies wholly in at least one enabled device window of
the tenant that grants the permission; its address is its offset. Nothing else passes. (R308) -/
def Obligations.ARangePassesExactlyUnderItsWindow : Prop :=
  ∀ (hw : Table HWin) (dw : Table DWin) (r : RangeRef) (len : Nat) (wr : Bool) (p : Place),
    checkRange hw dw r len wr = some p ↔
      (r.space = 0 ∧ ∃ w, w = Table.get {} hw r.win ∧ p = .host (4096 * w.base.toNat + r.off) w.ns
        ∧ w.en = true ∧ (if wr then w.wr else w.rd) = true
        ∧ 4096 * w.base.toNat + r.off + len ≤ 4096 * (w.limit.toNat + 1) ∧ 4096 * w.base.toNat + r.off + len ≤ 2 ^ 64)
      ∨ (r.space = 1 ∧ ∃ w, w = Table.get {} dw r.win ∧ p = .lp5x (4096 * w.base.toNat + r.off)
        ∧ w.en = true ∧ (if wr then w.wr else w.rd) = true
        ∧ 4096 * w.base.toNat + r.off + len ≤ 4096 * (w.limit.toNat + 1) ∧ 4096 * w.base.toNat + r.off + len ≤ 2 ^ 40)
      ∨ (r.space = 2 ∧ p = .lp5x r.off ∧ ∃ q ∈ dw, q.2.en = true ∧ (if wr then q.2.wr else q.2.rd) = true
        ∧ 4096 * q.2.base.toNat ≤ r.off ∧ r.off + len ≤ 4096 * (q.2.limit.toNat + 1) ∧ r.off + len ≤ 2 ^ 40)

/-- A device event whose cause bit is already 1 changes nothing. One whose bit is 0 sets it. With its mask bit 1
nothing more happens. With its mask bit 0 and MSI-X enabled: while the vector is masked its PBA bit is set and nothing
is sent; unmasked, with the firmware ready, Bus Master Enable 1 and the PF in D0 at a level above RL4, the link leaves
L1 if it is there, and exactly one message, the PF's vector 1, is sent. Setting a bit of TRB that is 0 raises the
event trouble; setting one that is 1 changes nothing. (R338, R339, R509, R513, 12_pcie_and_functions.md,
19_trouble_and_recovery.md) -/
def Obligations.AnEventIsSentOnceUntilTheHostClearsIt : Prop :=
  (∀ (s : State) (b : Nat), bitOf s.pcie.evtCause b = true → s.raiseDevEvt b = s)
  ∧ (∀ (s : State) (b : Nat), bitOf s.pcie.evtCause b = false → bitOf s.pcie.evtMask b = true →
      s.raiseDevEvt b = { s with pcie := { s.pcie with evtCause := s.pcie.evtCause ||| (1 <<< b) } })
  ∧ (∀ (s : State) (b : Nat), bitOf s.pcie.evtCause b = false → bitOf s.pcie.evtMask b = false →
      (s.fnSt 0).msixEn = true → (s.fnSt 0).fnMask = true ∨ (Table.get {} (s.fnSt 0).vecs 1).mask = true →
      s.raiseDevEvt b = { s with pcie := { s.pcie with evtCause := s.pcie.evtCause ||| (1 <<< b) } }.updFn 0 fun x =>
        { x with pba := x.pba ||| (1 <<< 1) })
  ∧ (∀ (s : State) (b : Nat) (v : MsixVec), bitOf s.pcie.evtCause b = false → bitOf s.pcie.evtMask b = false →
      (s.fnSt 0).msixEn = true → (s.fnSt 0).fnMask = false → Table.get {} (s.fnSt 0).vecs 1 = v → v.mask = false →
      s.power.level ≠ 4 → s.life.phase = .running → s.canSend 0 = true →
      s.raiseDevEvt b = { s.leaveL1 with
        pcie := { s.pcie with evtCause := s.pcie.evtCause ||| (1 <<< b) }
        out := s.out ++ [.msix 0 1 v.addr v.data] })
  ∧ (∀ (s : State) (b : Trb), bitOf s.trouble.trb b.bit = true → s.setTrb b = s)
  ∧ (∀ (s : State) (b : Trb), bitOf s.trouble.trb b.bit = false →
      s.setTrb b = { s with trouble := { s.trouble with trb := s.trouble.trb ||| (1 <<< b.bit) } }.raiseDevEvt 0)

/-- A dispatched NOP with zero parameter dwords ends with OK and result words 0; a QUERY of a valid item ends with OK
and the item's two words, and of any other item with BAD_PARAM; a TROUBLE_READ ends with OK, FN_TRB of the issuing
function, and TRB for the PF or 0 for a VF. A non-zero reserved field of any of the three ends it with BAD_PARAM.
Nothing but the end of the command happens. (R414, R415, R416, R439, 15_command_reference.md) -/
def Obligations.InformationCommandsEndWithTheirWords : Prop :=
  ∀ (s : State) (t : Ticket) (c : Cmd),
    (s.Waits t.val 0x00 c →
      exec (.nop t) s = .next (s.endCmd t.val (if Entry.zeros c.entry [1, 2, 3, 4, 5, 6, 7, 8, 9, 10, 11, 12, 13, 14, 15]
        then St.ok else St.badParam) 0 0))
    ∧ (s.Waits t.val 0x01 c →
        bitsOf (Entry.dw c.entry 2) 31 8 = 0 → Entry.zeros c.entry [3, 4, 5, 6, 7, 8, 9, 10, 11, 12, 13, 14, 15] = true →
        (∀ a b, s.queryItem c.fn (bitsOf (Entry.dw c.entry 2) 7 0) (Entry.handle c.entry) = some (a, b) →
          exec (.query t) s = .next (s.endCmd t.val St.ok a b))
        ∧ (s.queryItem c.fn (bitsOf (Entry.dw c.entry 2) 7 0) (Entry.handle c.entry) = none →
          exec (.query t) s = .next (s.endCmd t.val St.badParam 0 0)))
    ∧ (s.Waits t.val 0x01 c →
        bitsOf (Entry.dw c.entry 2) 31 8 ≠ 0 ∨ Entry.zeros c.entry [3, 4, 5, 6, 7, 8, 9, 10, 11, 12, 13, 14, 15] = false →
        exec (.query t) s = .next (s.endCmd t.val St.badParam 0 0))
    ∧ (s.Waits t.val 0x41 c → Entry.zeros c.entry [1, 2, 3, 4, 5, 6, 7, 8, 9, 10, 11, 12, 13, 14, 15] = true →
        exec (.troubleRead t) s = .next (s.endCmd t.val St.ok ((s.fnSt c.fn).trb.setWidth 32)
          (if c.fn = 0 then s.trouble.trb.setWidth 32 else 0)))
    ∧ (s.Waits t.val 0x41 c → Entry.zeros c.entry [1, 2, 3, 4, 5, 6, 7, 8, 9, 10, 11, 12, 13, 14, 15] = false →
        exec (.troubleRead t) s = .next (s.endCmd t.val St.badParam 0 0))

/-- With their parameters in range: COUNTERS_READ writes the block's image, taken before the clear if one is asked
for, and ends with the bytes written; TROUBLE_CLEAR clears the FN_TRB bits of DW2 and, from the PF, the TRB bits of
DW3, and ends with both registers as they then stand; LOG_READ writes as many of the wanted entries as the output
holds whole and ends with their number and the oldest number held; SET_LATENCY replaces the function's tolerance,
follows the new target, and ends with the target and the level that fits the tolerance. (R438, R439, R440, R417, R502,
15_command_reference.md) -/
def Obligations.RecordCommandsWriteTheirOutputAndEnd : Prop :=
  ∀ (s : State) (t : Ticket) (c : Cmd) (p : Place),
    (s.Waits t.val 0x40 c → bitsOf (Entry.dw c.entry 2) 31 2 = 0 →
      Entry.zeros c.entry [1, 6, 7, 8, 9, 10, 11, 12, 13, 14, 15] = true →
      (bitOf (Entry.dw c.entry 2) 0 = true → c.fn = 0) →
      (if bitOf (Entry.dw c.entry 2) 0 then 512 else 256) ≤ (Entry.dw c.entry 5).toNat →
      c.output 3 (Entry.dw c.entry 5).toNat = .ok p →
      exec (.countersRead t) s = .next (((if bitOf (Entry.dw c.entry 2) 1
          then s.counterClear c.fn (bitOf (Entry.dw c.entry 2) 0) else s).writePlace c.fn p
            (s.counterImage c.fn (bitOf (Entry.dw c.entry 2) 0)) false).endCmd t.val St.ok
        (if bitOf (Entry.dw c.entry 2) 0 then 512 else 256) 0))
    ∧ (s.Waits t.val 0x42 c → Entry.zeros c.entry [1, 4, 5, 6, 7, 8, 9, 10, 11, 12, 13, 14, 15] = true →
        (c.fn ≠ 0 → Entry.dw c.entry 3 = 0) →
        ∃ u, u = (if c.fn = 0 then (s.clearFnTrb c.fn (Entry.dw c.entry 2)).clearTrb (Entry.dw c.entry 3)
            else s.clearFnTrb c.fn (Entry.dw c.entry 2))
          ∧ exec (.troubleClear t) s = .next (u.endCmd t.val St.ok ((u.fnSt c.fn).trb.setWidth 32)
            (if c.fn = 0 then u.trouble.trb.setWidth 32 else 0)))
    ∧ (s.Waits t.val 0x43 c → Entry.zeros c.entry [1, 7, 8, 9, 10, 11, 12, 13, 14, 15] = true →
        1 ≤ bitsOf (Entry.dw c.entry 3) 10 0 → bitsOf (Entry.dw c.entry 3) 10 0 ≤ 1024 → bitsOf (Entry.dw c.entry 3) 31 11 = 0 →
        c.output 4 (Entry.dw c.entry 6).toNat = .ok p →
        ∃ l, l = s.trouble.collect c.fn 1024
              (if seqLater s.trouble.oldest (Entry.dw c.entry 2) then s.trouble.oldest else Entry.dw c.entry 2)
              (min (bitsOf (Entry.dw c.entry 3) 10 0) ((Entry.dw c.entry 6).toNat / 32))
          ∧ exec (.logRead t) s = .next ((s.writePlace c.fn p l.flatten false).endCmd t.val St.ok
            (BitVec.ofNat 32 l.length) s.trouble.oldest))
    ∧ (s.Waits t.val 0x02 c → Entry.zeros c.entry [1, 3, 4, 5, 6, 7, 8, 9, 10, 11, 12, 13, 14, 15] = true →
        ∃ u, u = (s.updFn c.fn fun x => { x with tol := Entry.dw c.entry 2 }).retarget
          ∧ exec (.setLatency t) s = .next (u.endCmd t.val St.ok (mkWord [(0, u.target), (4, tolLevel u.tolMin)]) 0))

/-- While BAR 0 serves the PF, EVLOG_ACK sets the register to any value not later than EVLOG_NEXT and leaves it for a
later one, and TRACE_MARK emits a MARKER packet of the PF with the value. While BAR 0 of a function is served by the
firmware, FETCH_STOP sets that function's fetch_stop and STATS_CLEAR sets every counter of its STATS to 0 but
clear_stamp, which takes the time base, and tickets_peak, which takes the tickets held; while only the always-on
registers are served, both are discarded. Each of the four is an Unsupported Request of its function, logged and
discarded, while BAR 0 answers nothing. (R336, R524, R584, R585, R621, R626, R630, 24_register_reference.md) -/
def Obligations.DeviceRecordWritesTakeEffect : Prop :=
  ∀ (s : State) (v : Word) (f : FnId) (b : Bool),
    (s.barMode 0 ≠ .unsupported → seqLater v s.trouble.next = false →
      exec (.evlogAck v) s = .next { s with trouble := { s.trouble with ack := v } })
    ∧ (s.barMode 0 ≠ .unsupported → seqLater v s.trouble.next = true → exec (.evlogAck v) s = .next s)
    ∧ (s.barMode 0 ≠ .unsupported → exec (.traceMark v) s = .next (s.traceEmit 7 (some 0) false 0x08 0 0 v))
    ∧ (s.barMode 0 = .unsupported →
        exec (.evlogAck v) s = .next (s.logUr 0 true) ∧ exec (.traceMark v) s = .next (s.logUr 0 true))
    ∧ (s.barMode f.val = .normal →
        exec (.fetchStop f b) s = .next (s.updFn f.val fun x => { x with fetchStop := b })
        ∧ ∃ u, exec (.statsClear f) s = .next u
          ∧ ((∀ g, g ≠ f.val → u.fnSt g = s.fnSt g)
            ∧ ∀ i, Table.get 0 (u.fnSt f.val).stats i
                = if i = 0 then s.time.toNat else if i = 24 then s.ticketsHeld f.val else 0)
          ∧ u = { s with fns := u.fns })
    ∧ (s.barMode f.val = .alwaysOn → exec (.fetchStop f b) s = .next s ∧ exec (.statsClear f) s = .next s)
    ∧ (s.barMode f.val = .unsupported →
        exec (.fetchStop f b) s = .next (s.logUr f.val true) ∧ exec (.statsClear f) s = .next (s.logUr f.val true))

/-- While BAR 0 of the function answers nothing, a doorbell write is an Unsupported Request, logged and discarded;
while the firmware does not serve it, or of a ring that does not exist, it changes nothing. Any other begins a new
host generation of the function. SQ_TAIL below the SQ size on an ACTIVE ring then sets the tail, notes the time of
each entry it submits, and wakes the device if it submits any; CQ_HEAD between head and tail on an ACTIVE or DRAINING
ring sets the head. A value out of range sets bad_db and FN_TRB.bad_doorbell; a write in another state sets the bit
only. (R336, R385, R386, R314, 14_rings_and_packets.md) -/
def Obligations.SubmissionDoorbellsMoveTheTail : Prop :=
  ∀ (s g : State) (f : FnId) (r : RingId) (v : Word) (x : Ring),
    (s.barMode f.val = .unsupported →
      exec (.sqTail f r v) s = .next (s.logUr f.val true) ∧ exec (.cqHead f r v) s = .next (s.logUr f.val true))
    ∧ (s.barMode f.val = .alwaysOn ∨ (s.barMode f.val = .normal ∧ s.ringExists f.val r.val = false) →
      exec (.sqTail f r v) s = .next s ∧ exec (.cqHead f r v) s = .next s)
    ∧ (s.barMode f.val = .normal → s.ringExists f.val r.val = true → g = s.newGeneration f.val → x = g.ring f.val r.val →
        (x.state = .active → bitsOf v 15 0 < x.sqSize →
          ∃ u, u = (g.updRing f.val r.val fun y => { y with
                sqTail := bitsOf v 15 0
                bells := y.bells ++ List.replicate ((bitsOf v 15 0 + x.sqSize - x.sqTail) % x.sqSize) g.time })
            ∧ exec (.sqTail f r v) s = .next (if bitsOf v 15 0 = x.sqTail then u else u.wake 0))
        ∧ (x.state = .active → x.sqSize ≤ bitsOf v 15 0 →
            exec (.sqTail f r v) s = .next ((g.updRing f.val r.val fun y => { y with badDb := true }).setFnTrb f.val .badDoorbell))
        ∧ (x.state = .active ∨ x.state = .draining → x.headOk (bitsOf v 15 0) = true →
            exec (.cqHead f r v) s = .next (g.updRing f.val r.val fun y => { y with cqHead := bitsOf v 15 0 }))
        ∧ (x.state = .active ∨ x.state = .draining → x.headOk (bitsOf v 15 0) = false →
            exec (.cqHead f r v) s = .next ((g.updRing f.val r.val fun y => { y with badDb := true }).setFnTrb f.val .badDoorbell))
        ∧ (x.state ≠ .active → exec (.sqTail f r v) s = .next (g.badDoorbell f.val r.val false))
        ∧ (x.state = .disabled ∨ x.state = .error → exec (.cqHead f r v) s = .next (g.badDoorbell f.val r.val false)))

/-- While the firmware serves BAR 0 of the function: RING_ENABLE of an existing DISABLED ring whose checks pass makes
it ACTIVE with heads and tails, sequence number and counts at 0 and phase 1, and its configuration as it was; where a
check fails, the ring stays DISABLED and err names the first failing check in the order sizes (1), SQ window (2), CQ
window (3), vector (4). It acts on no other ring and in no other state. RING_DISABLE of an ACTIVE ring stops its
fetching and makes it DRAINING, or DISABLED at once when no accepted command is left. While BAR 0 answers nothing,
either write is an Unsupported Request, logged and discarded; while the firmware does not serve it, or of a ring that
does not exist, it changes nothing. (R336, R381, R383, R399, 14_rings_and_packets.md) -/
def Obligations.RingsAreEnabledAfterTheirChecks : Prop :=
  ∀ (s : State) (f : FnId) (r : RingId) (x : Ring),
    (s.barMode f.val = .unsupported →
      exec (.ringEnable f r) s = .next (s.logUr f.val true) ∧ exec (.ringDisable f r) s = .next (s.logUr f.val true))
    ∧ (s.barMode f.val = .alwaysOn ∨ (s.barMode f.val = .normal ∧ s.ringExists f.val r.val = false) →
      exec (.ringEnable f r) s = .next s ∧ exec (.ringDisable f r) s = .next s)
    ∧ (s.barMode f.val = .normal → s.ringExists f.val r.val = true → x = s.ring f.val r.val →
    (x.state = .disabled → s.enableErr f.val x = 0 →
      exec (.ringEnable f r) s = .next ((s.updRing f.val r.val fun y => { y with
        state := .active, err := 0, sqHead := 0, sqTail := 0, sqFetch := 0, cqHead := 0, cqTail := 0
        seq := 0, phase := true, fetched := [], pend := 0, accepted := 0, bells := [] }).retarget))
    ∧ (x.state = .disabled → s.enableErr f.val x ≠ 0 →
        exec (.ringEnable f r) s = .next (s.updRing f.val r.val fun y => { y with err := BitVec.ofNat 4 (s.enableErr f.val x) }))
    ∧ (x.state ≠ .disabled → exec (.ringEnable f r) s = .next s)
    ∧ (x.state = .active → exec (.ringDisable f r) s
        = .next (((s.dropFetches f.val r.val).updRing f.val r.val fun y =>
            if y.accepted = 0 then { y with state := .disabled } else { y with state := .draining }).retarget))
    ∧ (x.state ≠ .active → exec (.ringDisable f r) s = .next s)
    ∧ (s.enableErr f.val x = 0 ↔ 4 ≤ x.sqLog2.toNat ∧ x.sqLog2.toNat ≤ 16 ∧ 4 ≤ x.cqLog2.toNat ∧ x.cqLog2.toNat ≤ 16
        ∧ (hostWindow (s.fnSt f.val).hwin (4096 * x.sqBase.toNat) (64 * 2 ^ x.sqLog2.toNat) false).isSome = true
        ∧ (hostWindow (s.fnSt f.val).hwin (4096 * x.cqBase.toNat) (16 * 2 ^ x.cqLog2.toNat) true).isSome = true
        ∧ completionVector f.val x.vector.toNat = true))

/-- While the firmware serves the rings and a ring has entries to fetch, no read of it is out and nothing fetched
waits: SQ_FETCH reads fetchCount entries, at most 8 and not past the end of the SQ, from the next index on, at the
base plus 64 bytes an index, under the lowest free tag, and moves the fetch index on; where the read's range passes no
host window, the ring enters ERROR with err 5 and nothing is read. (R387, R388, 14_rings_and_packets.md) -/
def Obligations.EntriesAreFetchedUnderTheRingsConditions : Prop :=
  ∀ (s : State) (f : FnId) (r : RingId) (x : Ring) (n a : Nat),
    s.serves = true → s.fetchable f.val r.val = true → x = s.ring f.val r.val → x.fetched = [] →
    (s.reads.any fun q => q.fn == f.val && !q.orphan && q.use.isSq r.val) = false →
    n = s.fetchCount f.val r.val → n ≠ 0 → a = 4096 * x.sqBase.toNat + 64 * x.sqFetch →
    (hostWindow (s.fnSt f.val).hwin a (64 * n) false = none → exec (.sqFetch f r) s = .next (s.ringError f.val r.val 5))
    ∧ (∀ ns tag, hostWindow (s.fnSt f.val).hwin a (64 * n) false = some ns → s.freeTag = some tag →
        n ≤ 8
        ∧ exec (.sqFetch f r) s = .next (((s.updRing f.val r.val fun y => { y with sqFetch := (y.sqFetch + n) % y.sqSize }).issueRead
            f.val tag a (64 * n) ns (.sq r.val n)).perfAdd 31 n))

/-- When it is the ring's turn, an entry has been fetched, a ticket is free for the function and the firmware serves
the rings: after ENTRY_ACCEPT the lowest free ticket (log entry 16) holds a command with the entry, the function, the
ring, the ring's sequence number and the time base; it is ended with the status of the first check that fails, of
every entry's checks and then of its opcode's own, and held or ready where none fails; tickets held before keep their
commands. (R389, R391, R393, R414, R415, R463, 14_rings_and_packets.md) -/
def Obligations.AnAcceptedEntryTakesTheLowestFreeTicket : Prop :=
  ∀ (s : State) (f : FnId) (r : RingId) (e : Entry) (rest : List Entry) (ten : Tenants) (t : Nat),
    s.serves = true → s.turn = some (ringKey f.val r.val, ten) → (s.ring f.val r.val).fetched = e :: rest →
    s.ticketFree f.val (s.ring f.val r.val).rt = true → lowest (fun k => (s.cmd? k).isNone) 768 = some t →
    ∃ u c, exec (.entryAccept f r) s = .next u ∧ u.cmd? t = some c ∧ (∀ k, k ≠ t → u.cmd? k = s.cmd? k)
      ∧ c.entry = e ∧ c.fn = f.val ∧ c.ring = r.val ∧ c.seq = (s.ring f.val r.val).seq ∧ c.time = s.time
      ∧ (match (acceptStatus e f.val (s.ring f.val r.val).rt).or (s.ownCheck c) with
          | some st => c.phase = .ended ∧ c.status = st
          | none => c.phase = .held ∨ c.phase = .ready)

/-- While the firmware serves the rings, FENCE_RELEASE of a ring makes each held command of that ring ready that
neither a fence nor a TENANT_RESET holds, and changes nothing else. MODERATION_TIMEOUT of a ring with pending
completions whose time_us, as the last completion found it, has passed sends one message on the ring's vector and
leaves none pending; before that time, or with the field 0, it changes nothing. (R401, R406, R444,
14_rings_and_packets.md) -/
def Obligations.FencedCommandsAreDispatchedWhenNothingHoldsThem : Prop :=
  ∀ (s : State) (f : FnId) (r : RingId) (x : Ring),
    (s.serves = true → ∃ l, exec (.fenceRelease f r) s = .next { s with cmds := l }
      ∧ l.map Prod.fst = s.cmds.map Prod.fst
      ∧ ∀ k c, Table.find s.cmds k = some c → ∃ c', Table.find l k = some c'
          ∧ c' = if c.fn = f.val ∧ c.ring = r.val ∧ c.phase = .held ∧ s.fenceBlocks c = false ∧ s.resetBlocks c = false
              then { c with phase := .ready } else c)
    ∧ (x = s.ring f.val r.val → x.pend ≠ 0 → x.pendLimit ≠ 0 → s.usSince x.pendSince x.pendLimit.toNat = true →
        exec (.moderationTimeout f r) s = .next ((s.updRing f.val r.val fun y => { y with pend := 0 }).sendMsi f.val x.vector.toNat))
    ∧ (x = s.ring f.val r.val → x.pendLimit = 0 ∨ x.pend = 0 ∨ s.usSince x.pendSince x.pendLimit.toNat = false →
        exec (.moderationTimeout f r) s = .next s)

/-- A completion entry is 16 bytes: result words 0 and 1, the host tag and the status, then bits [20:0] of the
sequence number, the ticket in [30:21] and the phase in bit 31, all little-endian. After the last entry of the CQ the
tail wraps to 0 and the phase inverts; otherwise the tail rises by one and the phase stays. (R396,
14_rings_and_packets.md) -/
def Obligations.ACompletionEntryHasTheLayoutOfItsTable : Prop :=
  (∀ (r0 r1 : Word) (tag status seq ticket : Nat) (ph : Bool), tag < 65536 → status < 65536 → ticket < 1024 →
    (cqEntry r0 r1 tag status seq ticket ph).length = 16
    ∧ leAt (cqEntry r0 r1 tag status seq ticket ph) 0 4 = r0.toNat
    ∧ leAt (cqEntry r0 r1 tag status seq ticket ph) 4 4 = r1.toNat
    ∧ leAt (cqEntry r0 r1 tag status seq ticket ph) 8 2 = tag
    ∧ leAt (cqEntry r0 r1 tag status seq ticket ph) 10 2 = status
    ∧ leAt (cqEntry r0 r1 tag status seq ticket ph) 12 4 % 2 ^ 21 = seq % 2 ^ 21
    ∧ leAt (cqEntry r0 r1 tag status seq ticket ph) 12 4 / 2 ^ 21 % 2 ^ 10 = ticket
    ∧ leAt (cqEntry r0 r1 tag status seq ticket ph) 12 4 / 2 ^ 31 = if ph then 1 else 0)
  ∧ (∀ (x : Ring) (now : BitVec 64),
    (x.cqTail + 1 = x.cqSize → (x.wrote now).cqTail = 0 ∧ (x.wrote now).phase = !x.phase)
    ∧ (x.cqTail + 1 ≠ x.cqSize → (x.wrote now).cqTail = x.cqTail + 1 ∧ (x.wrote now).phase = x.phase))

/-- While the firmware serves the rings, COMPLETION_WRITE of an ended command without a deadline whose function may
send and, if it is ORDERED, whose ring has no earlier command left: the completion entry is written under its ticket,
the ticket is freed, the ring's accepted count falls by one and a DRAINING or ERROR ring with none left becomes
DISABLED; a closing slot may then be freed and the power target follows. A command that may not complete yet stays as
it is. (R393, R396, R400, 14_rings_and_packets.md) -/
def Obligations.AWrittenCompletionFreesItsTicket : Prop :=
  ∀ (s w : State) (t : Ticket) (c : Cmd), s.cmd? t.val = some c →
    (s.serves = true → s.mayComplete c = true → c.miss = none →
      w = s.writeCqe c.fn c.ring c.entry c.seq t.val c.status c.res0 c.res1 →
      exec (.completionWrite t) s = .next (({ w with cmds := Table.erase w.cmds t.val }.updRing c.fn c.ring
        fun x => ({ x with accepted := x.accepted - 1 } : Ring).settle).retarget))
    ∧ (s.mayComplete c = false → exec (.completionWrite t) s = .next s)
    ∧ (s.serves = false → exec (.completionWrite t) s = .next s)

/-- HWIN_CTL replaces base, limit, enables and attribute of the function's window by the staged base and limit and the
value's bits, unless it enables a window whose staged limit lies below its staged base, which leaves everything as it
is. DWIN_WCTL does the same for the window of the selected function with the staged device base and limit, and is also
refused where the window's last byte lies at or beyond LP5X_TOP. No other window changes. While BAR 0 answers nothing,
either write is an Unsupported Request, logged and discarded; while only the always-on registers are served it is
discarded. (R305, R306, R336, R621, 11_address_map.md) -/
def Obligations.WindowCommitsReplaceOneWindow : Prop :=
  ∀ (s : State) (f : FnId) (i : Fin 16) (v : Word),
    (s.barMode f.val = .unsupported → exec (.hwinCtl f i v) s = .next (s.logUr f.val true))
    ∧ (s.barMode f.val = .alwaysOn → exec (.hwinCtl f i v) s = .next s)
    ∧ (s.barMode 0 = .unsupported → exec (.dwinWctl v) s = .next (s.logUr 0 true))
    ∧ (s.barMode 0 = .alwaysOn → exec (.dwinWctl v) s = .next s)
    ∧ (s.barMode f.val = .normal → ∃ u, exec (.hwinCtl f i v) s = .next u ∧ u = { s with fns := u.fns }
      ∧ ∀ w, w = Table.get {} (s.fnSt f.val).hwin i.val →
        (∀ g j, (g ≠ f.val ∨ j ≠ i.val) → Table.get {} (u.fnSt g).hwin j = Table.get {} (s.fnSt g).hwin j)
        ∧ (bitOf v 0 = false ∨ w.sbase ≤ w.slimit →
          Table.get {} (u.fnSt f.val).hwin i.val
            = { w with base := w.sbase, limit := w.slimit, en := bitOf v 0, rd := bitOf v 1, wr := bitOf v 2, ns := bitOf v 3 })
        ∧ (bitOf v 0 = true → w.slimit < w.sbase →
          Table.get {} (u.fnSt f.val).hwin i.val = w))
    ∧ (s.barMode 0 = .normal → bitOf v 0 = true →
        ¬(s.addr.stBase ≤ s.addr.stLimit ∧ 4096 * (s.addr.stLimit.toNat + 1) ≤ 1048576 * s.addr.top.toNat) →
        exec (.dwinWctl v) s = .next s)
    ∧ (s.barMode 0 = .normal →
        bitOf v 0 = false ∨ (s.addr.stBase ≤ s.addr.stLimit ∧ 4096 * (s.addr.stLimit.toNat + 1) ≤ 1048576 * s.addr.top.toNat) →
        exec (.dwinWctl v) s = .next (s.updFn s.addr.selFn.toNat fun x => { x with
          dwin := Table.set {} x.dwin s.addr.selWin.toNat
            { base := s.addr.stBase, limit := s.addr.stLimit, en := bitOf v 0, rd := bitOf v 1, wr := bitOf v 2 } }))

/-- While the firmware serves BAR 0, QUOTA_COMMIT of a staged quota with a field out of range, with too many rings in
all for an enabled function that gains rings, or with a ring in use at or above the new count keeps every quota and
sets refused. Any other gives the selected function the staged quota, and its ring count where it exists, and drops
the configuration of the rings it loses. Either way nothing is staged afterwards. While BAR 0 of the PF answers
nothing, the write is an Unsupported Request, logged and discarded; while only the always-on registers are served it
is discarded. (R336, R380, R449, R621, 16_tenants.md) -/
def Obligations.AQuotaCommitIsWholeOrRefused : Prop :=
  ∀ (s : State) (f : Nat) (q : Quota),
    (s.barMode 0 = .unsupported → exec .quotaCommit s = .next (s.logUr 0 true))
    ∧ (s.barMode 0 = .alwaysOn → exec .quotaCommit s = .next s)
    ∧ (s.barMode 0 = .normal → f = s.tenants.selFn.toNat →
    q = quotaOf s.quotaWords.1 s.quotaWords.2 →
    (s.quotaRefused f q = true →
      exec .quotaCommit s = .next { s with tenants := { s.tenants with refused := true, stA := none, stB := none } })
    ∧ (s.quotaRefused f q = false →
        exec .quotaCommit s = .next { s.updFn f fun x => { x with
            quota := q, ringsHeld := if s.fnExists f then q.rings else x.ringsHeld } with
          tenants := { s.tenants with stA := none, stB := none }
          rings := s.rings.filter fun p => !(p.1 / 256 == f && decide (q.rings ≤ p.1 % 256)) }))

/-- The token for challenge c is rotl32(c, 7) XOR (c >> 11) XOR the salt, for every challenge and salt.
(20_watchdog.md) -/
def Obligations.TheWatchdogTokenIsTheRuleOfItsChallenge : Prop :=
  ∀ (c salt : Word), wdToken c salt = c.rotateLeft 7 ^^^ (c >>> 11) ^^^ salt

/-- The window of a period is open exactly when the fused fraction of the period, 2/8, 4/8, 6/8 or 7/8 by the fraction
fuse, has elapsed; with the count not above the period's length it stays open down to a count of 0; and the fraction
is one of 25, 50, 75 and 87.5 percent. (R535) -/
def Obligations.TheServiceWindowOpensAtTheFusedFraction : Prop :=
  ∀ (s : State), s.wd.count ≤ 1024 * s.wd.period.toNat →
    (s.windowOpen = true ↔ (s.fuses.wdFraction = 0 ∧ 8 * s.wd.count ≤ 6 * (1024 * s.wd.period.toNat))
      ∨ (s.fuses.wdFraction = 1 ∧ 8 * s.wd.count ≤ 4 * (1024 * s.wd.period.toNat))
      ∨ (s.fuses.wdFraction = 2 ∧ 8 * s.wd.count ≤ 2 * (1024 * s.wd.period.toNat))
      ∨ (s.fuses.wdFraction = 3 ∧ 8 * s.wd.count ≤ 1024 * s.wd.period.toNat))
    ∧ (s.wd.count = 0 → s.windowOpen = true)

/-- While the firmware can reach the watchdog: a challenge read in the window steps the LFSR to a non-zero value,
which is the challenge, and arms for 1,024 ticks; outside it nothing changes. A response with the right token while
armed starts a new period of the staged length, disarms, and clears warned and period_refused; a wrong token while
armed expires with cause 2 and any token while not armed with cause 1; a response at count 0 is discarded. A period of
8 or more written in the window is staged; any other write sets period_refused. Where the firmware cannot reach it,
none of the three changes anything. (R536, R538, R539, R540, 20_watchdog.md) -/
def Obligations.WatchdogServiceStartsANewPeriod : Prop :=
  ∀ (s : State) (tok : Word) (v : BitVec 16),
    (s.wdServable = true → s.windowOpen = true → ∃ c : Word, c ≠ 0
      ∧ exec .wdChallenge s = .next { s with wd := { s.wd with lfsr := c, challenge := c, armLeft := some 1024 } })
    ∧ (s.windowOpen = false → exec .wdChallenge s = .next s)
    ∧ (∀ n, s.wdServable = true → s.wd.count ≠ 0 → s.wd.armLeft = some n → tok = wdToken s.wd.challenge s.fuses.salt →
        exec (.wdResponse tok) s = .next { s with wd := { s.wd with
          period := s.wd.staged, count := 1024 * s.wd.staged.toNat, armLeft := none, warned := false, periodRefused := false } })
    ∧ (∀ n, s.wdServable = true → s.wd.count ≠ 0 → s.wd.armLeft = some n → tok ≠ wdToken s.wd.challenge s.fuses.salt →
        exec (.wdResponse tok) s = .next (s.wdExpire 2))
    ∧ (s.wdServable = true → s.wd.count ≠ 0 → s.wd.armLeft = none → exec (.wdResponse tok) s = .next (s.wdExpire 1))
    ∧ (s.wd.count = 0 → exec (.wdResponse tok) s = .next s)
    ∧ (s.wdServable = true → s.windowOpen = true → 8 ≤ v.toNat →
        exec (.wdPeriodSet v) s = .next { s with wd := { s.wd with staged := v } })
    ∧ (s.wdServable = true → s.windowOpen = false ∨ v.toNat < 8 →
        exec (.wdPeriodSet v) s = .next { s with wd := { s.wd with periodRefused := true } })
    ∧ (s.wdServable = false →
        exec .wdChallenge s = .next s ∧ exec (.wdResponse tok) s = .next s ∧ exec (.wdPeriodSet v) s = .next s)

/-- A first expiry while the watchdog counts, is at 0 and not warned marks it warned, counts it, starts a period of
the staged length and raises wd_warn. A second one, at 0 and warned, resets the device with class W in RESET mode, and
in PIN mode drives WDT_OUT_N low from then on, quiesces and sets the trouble bit. The owed WD_WARN entry is logged
when the firmware runs, with TRB_WD_WARN after it; when 4,096 ticks have passed the bit is set without it. An arming
that has run down is cleared; the pin is released once the fused length of the pulse has passed, 50, 100 or 200 ms,
and not before. (R541, R542, R543, R544, 20_watchdog.md) -/
def Obligations.ExpiriesWarnAndThenAct : Prop :=
  ∀ (s : State),
    (s.wdLive = true → s.wd.count = 0 → s.wd.warned = false →
      exec .wdFirstExpiry s = .next (({ s with wd := { s.wd with
        period := s.wd.staged, count := 1024 * s.wd.staged.toNat, armLeft := none, warned := true
        expiries := satInc s.wd.expiries 1, warnDue := some (s.wd.warnPayload 0), warnLeft := some 4096 } }).raiseDevEvt 2))
    ∧ (s.wdLive = true → s.wd.count = 0 → s.wd.warned = true → s.fuses.wdPin = false →
        exec .wdSecondExpiry s = .next (s.resetDev .W s.life.cause (.boot .W)))
    ∧ (s.wdLive = true → s.wd.count = 0 → s.wd.warned = true → s.fuses.wdPin = true →
        exec .wdSecondExpiry s = .next (({ s with
          life := { s.life with phase := .quiesced }
          pins := { s.pins with wdtOutN := false, wdtFrom := s.time }
          wd := { s.wd with quiesced := true } }).setTrb .wdQuiesced))
    ∧ (s.wdLive = false ∨ s.wd.count ≠ 0 → exec .wdFirstExpiry s = .next s ∧ exec .wdSecondExpiry s = .next s)
    ∧ (∀ p, s.wd.warnDue = some p → s.fwRuns = true →
        exec .wdWarnEntry s = .next (({ s with wd := { s.wd with warnDue := none, warnLeft := none } }).logEvent 0x60 devByte p
          [.dev Trb.wdWarn.bit]))
    ∧ (s.wd.warnLeft = some 0 →
        exec .wdWarnTimeout s = .next (({ s with wd := { s.wd with warnLeft := none } }).setTrb .wdWarn))
    ∧ (s.wd.armLeft = some 0 → exec .wdArmLapse s = .next { s with wd := { s.wd with armLeft := none } })
    ∧ (∀ us, us = (if s.fuses.wdPulse = 0 then 50000 else if s.fuses.wdPulse = 1 then 100000 else 200000) →
        (s.usSince s.pins.wdtFrom us = true → exec .wdtPulseEnd s = .next { s with pins := { s.pins with wdtOutN := true } })
        ∧ (s.usSince s.pins.wdtFrom us = false → exec .wdtPulseEnd s = .next s))

/-- A quadrant's demand is the smallest of its droop demand (8, 4 or 2 eighths for levels 0 to 2), the thermal demand
(4 eighths while throttled) and its forced level's. Governing takes a demand at or below the present fraction at once
and steadily; a demand that rises above it starts the hold and leaves the fraction; otherwise nothing changes.
PACE_HOLD_END in the hold and PACE_RAMP_STEP in the ramp raise the fraction by one eighth, never above the demand, and
the ramp ends when it meets it. The admit field is 0 during a trip or quiescence and the eighths minus one otherwise.
(R33, R34, 02_self_timed_fabric.md) -/
def Obligations.AGovernorTakesTheSmallestDemand : Prop :=
  ∀ (s : State) (q : Fin 4),
    (s.paceDemand q.val = min (min (if s.droopLevel q.val = 0 then 8 else if s.droopLevel q.val = 1 then 4 else 2)
      (if s.pace.throttle then 4 else 8))
      (if s.pace.forced q.val = 0 then 8 else if s.pace.forced q.val = 1 then 4 else 2))
    ∧ (∀ d0 why,
        (s.paceDemand q.val ≤ (s.gov q.val).k → ((s.govern q.val d0 why).gov q.val).k = s.paceDemand q.val
          ∧ ((s.govern q.val d0 why).gov q.val).phase = .steady)
        ∧ ((s.gov q.val).k < s.paceDemand q.val → ((s.govern q.val d0 why).gov q.val).k = (s.gov q.val).k
          ∧ (d0 < s.paceDemand q.val → ((s.govern q.val d0 why).gov q.val).phase = .hold)))
    ∧ ((s.gov q.val).phase = .hold → ∃ u, exec (.paceHoldEnd q) s = .next u
        ∧ u.gov q.val = { k := min ((s.gov q.val).k + 1) (s.paceDemand q.val)
                          phase := if min ((s.gov q.val).k + 1) (s.paceDemand q.val) < s.paceDemand q.val then .ramp else .steady }
        ∧ ∀ p, p ≠ q.val → u.gov p = s.gov p)
    ∧ ((s.gov q.val).phase = .ramp → ∃ u, exec (.paceRampStep q) s = .next u
        ∧ u.gov q.val = { k := min ((s.gov q.val).k + 1) (s.paceDemand q.val)
                          phase := if min ((s.gov q.val).k + 1) (s.paceDemand q.val) < s.paceDemand q.val then .ramp else .steady }
        ∧ ∀ p, p ≠ q.val → u.gov p = s.gov p)
    ∧ ((s.gov q.val).phase = .steady → exec (.paceHoldEnd q) s = .next s ∧ exec (.paceRampStep q) s = .next s)
    ∧ s.admitField q.val = if s.life.tripped = true ∨ s.life.phase = .quiesced then 0 else (s.gov q.val).k - 1

/-- A sensor trip raises the sensor's level to at least 1 or 2 and, while the sensor is enabled, sets its fired bit; a
release lowers it to at most 1 or 0; the governor of the sensor's quadrant follows, and an entry into a level is
counted. A fall of DROOP_IN_N, not shorter than 2 ns, makes the pin low and sets pin_fired while the pin is enabled, a
rise makes it high, and all four governors follow. A shorter pulse does nothing or acts as a fall and a rise: which,
is free. (R36, R37, R39, 02_self_timed_fabric.md) -/
def Obligations.DroopRaisesTheLevelOfItsQuadrant : Prop :=
  ∀ (s : State) (i : Fin 8) (b : Bool),
    (∃ t, t = { s with pace := { s.pace with
        sensor := Table.set 0 s.pace.sensor i.val (max (Table.get 0 s.pace.sensor i.val) (if b then 2 else 1))
        fired := if bitOf s.pace.sensorEn i.val then s.pace.fired ||| (1 <<< i.val) else s.pace.fired } }
      ∧ exec (.droopSensorTrip i b) s = .next ((t.govern (i.val / 2) (s.paceDemand (i.val / 2)) 0).droopEntry (i.val / 2)
          (s.droopLevel (i.val / 2)) i.val))
    ∧ (∃ t, t = { s with pace := { s.pace with
        sensor := Table.set 0 s.pace.sensor i.val (min (Table.get 0 s.pace.sensor i.val) (if b then 1 else 0)) } }
      ∧ exec (.droopSensorRelease i b) s = .next ((t.govern (i.val / 2) (s.paceDemand (i.val / 2)) 0).droopEntry (i.val / 2)
          (s.droopLevel (i.val / 2)) i.val))
    ∧ (∃ t, t = { s with
        pins := { s.pins with droopInN := false }, pace := { s.pace with pinFired := s.pace.pinFired || s.pace.pinEn } }
      ∧ exec (.droopInFall false) s = .next (t.paceAll s 8 0))
    ∧ (∃ t, t = { s with pins := { s.pins with droopInN := true } } ∧ exec .droopInRise s = .next (t.paceAll s 8 0))
    ∧ (exec (.droopInFall true) s = .next s.tick ∨ exec (.droopInFall true) s = .next s.tick.droopFall.droopRise)

/-- With VDD_AON valid a reading becomes tj_max; at 105 C or more the thermal demand holds, at 100 C or less it is
released, between them it stays; a reading of 125 C or more trips the device, a lower one never does. A window's
measures become the beat-rate registers and the WDO rate, and before the firmware is ready nothing else happens.
AVS_SETTLE within 10 mV of a target that has been written marks it settled and moves the droop sensors to it; after 50
us they move without a reading; any other reading is noted only. (R40, R41, R42, R31, R47, 02_self_timed_fabric.md) -/
def Obligations.AHotReadingThrottlesWarnsAndTrips : Prop :=
  ∀ (s : State) (tj : BitVec 11) (q0 q1 q2 q3 : QuadMeasure) (khz : BitVec 12) (a : AvsAnswer) (mv : BitVec 10),
    (s.pins.vddAon = true → ∃ u, exec (.thermReading tj) s = .next u ∧ u.pace.tjMax = tj
      ∧ u.pace.throttle = (if toSigned 11 tj.toNat ≥ 420 then true else if toSigned 11 tj.toNat ≤ 400 then false else s.pace.throttle)
      ∧ u.life.tripped = (s.life.tripped || decide (toSigned 11 tj.toNat ≥ 500)))
    ∧ (s.pins.vddAon = false → exec (.thermReading tj) s = .next s)
    ∧ (∃ u, exec (.beatRateWindow q0 q1 q2 q3 khz a) s = .next u ∧ u.wd.rate = khz
        ∧ (Table.get (0, 0) u.pace.rates 0 = (q0.rate, q0.admitted) ∧ Table.get (0, 0) u.pace.rates 1 = (q1.rate, q1.admitted)
          ∧ Table.get (0, 0) u.pace.rates 2 = (q2.rate, q2.admitted) ∧ Table.get (0, 0) u.pace.rates 3 = (q3.rate, q3.admitted))
        ∧ (s.life.phase ≠ .running → u.out = s.out ∧ u.pace.setMv = s.pace.setMv))
    ∧ (s.pace.setMv ≠ 0 → mv.toNat ≤ s.pace.setMv.toNat + 10 ∧ s.pace.setMv.toNat ≤ mv.toNat + 10 →
        exec (.avsSettle (some mv)) s = .next { s with pace := { s.pace with readMv := mv, settled := true, droopRef := s.pace.setMv } })
    ∧ (s.pace.setMv = 0 ∨ ¬(mv.toNat ≤ s.pace.setMv.toNat + 10 ∧ s.pace.setMv.toNat ≤ mv.toNat + 10) →
        exec (.avsSettle (some mv)) s = .next { s with pace := { s.pace with readMv := mv } })
    ∧ exec (.avsSettle none) s = .next { s with pace := { s.pace with droopRef := s.pace.setMv } }

/-- REST_ENTER of an idle device whose idle time has reached the next level's dwell time, with that level no deeper
than the target and, for RL4, the checkpoint made, enters the next level, at RL2 after the trace FIFO has drained, and
counts the entry; otherwise it changes nothing. WAKE ends the idle time at RL0 and returns to RL0 from any deeper
level with the source's wake bit set and a fresh watchdog period. PD1_ALONE_EXIT at RL4 brings PD1 alone out;
L12_TIMEOUT after it makes the target follow; L1_2_ENTRY of an active link and L1_EXIT set and clear the link's state
with CLKREQ_N; L1_ENTRY_REQUEST enters L1 when enabled on an active link with no request outstanding, and else changes
nothing. (R345, R496, R497, R501, R504, R505, R509, R588, R652, 18_power_and_latency.md) -/
def Obligations.RestAndWakeFollowTheLatencyContract : Prop :=
  ∀ (s : State) (w : Fin 7),
    (s.idle = true → s.power.level + 1 ≤ s.target → 192 * s.power.dwellUs (s.power.level + 1) ≤ 5 * s.power.idleTicks →
      (s.power.level + 1 < 4 ∨ s.power.ckptDone = true) →
      ∃ u, u = { s with power := { s.power with
          level := s.power.level + 1, resTicks := 0
          entryCnt := Table.upd 0 s.power.entryCnt (s.power.level + 1) fun v => satNat 0xFFFFFFFF (v + 1) } }
        ∧ exec .restEnter s = .next (if s.power.level = 1 then (u.refreshDoms s).flushTrace.ltrUpdate else (u.refreshDoms s).ltrUpdate))
    ∧ (s.idle = false ∨ s.target < s.power.level + 1 ∨ 5 * s.power.idleTicks < 192 * s.power.dwellUs (s.power.level + 1)
        ∨ (s.power.level = 3 ∧ s.power.ckptDone = false) →
        exec .restEnter s = .next s)
    ∧ (s.power.level = 0 → exec (.wake w) s = .next { s with power := { s.power with idleTicks := 0 } })
    ∧ (s.power.level ≠ 0 → ∃ u, exec (.wake w) s = .next u ∧ u.power.level = 0 ∧ u.power.wake = s.power.wake ||| (1 <<< w.val)
        ∧ u.wd = { s.wd with period := s.wd.staged, count := 1024 * s.wd.staged.toNat, armLeft := none })
    ∧ (s.power.level = 4 → ∃ u, u = { s with power := { s.leaveL1.power with pd1Alone := true, linkL12 := false } }
        ∧ exec .pd1AloneExit s = .next (u.refreshDoms s))
    ∧ (s.power.level ≠ 4 → exec .pd1AloneExit s = .next s ∧ exec .l12Timeout s = .next s)
    ∧ (s.power.level = 4 → s.power.pd1Alone = true → s.power.linkL12 = false →
        exec .l12Timeout s = .next ({ s with power := { s.power with l12Late := true } }).retarget)
    ∧ (s.pcie.dlActive = true → ∃ u, u = { s with
          power := { s.power with linkL12 := true, inL1 := true, clkreqN := true, pd1Alone := false, l12Late := false } }
        ∧ exec .l12Entry s = .next (u.refreshDoms s).retarget)
    ∧ (∃ u, u = { s with
          power := { s.power with
            linkL12 := false, inL1 := false, clkreqN := false, pd1Alone := s.power.pd1Alone || decide (s.power.level = 4) } }
        ∧ exec .l1Exit s = .next (u.refreshDoms s).retarget)
    ∧ (s.pcie.dlActive = true → bitOf s.pcie.aspm 1 = true → s.reads = [] →
        exec .l1EntryRequest s = .next { s with power := { s.power with inL1 := true } })
    ∧ (s.pcie.dlActive = false ∨ bitOf s.pcie.aspm 1 = false ∨ s.reads ≠ [] → exec .l1EntryRequest s = .next s)
    ∧ (s.pcie.dlActive = false → exec .l12Entry s = .next s)

/-- After a reset of any class no command is held, every ring is DISABLED, no binding lives, no window is enabled, the
core stores and the SAC are empty, the quotas are the defaults, the watchdog period is 2000 and the fuses are as
before. TRB and the event log are kept by classes E and S and cleared by P and W; LP5X, its layout and its poison
marks are kept by class S only. Two of these clauses hold apart from what the spec lets a reset add: a log entry of
its own where a droop holds that a sensor, enabled again, now acts on; and, with a TRAIN update in progress, the
tensor that it leaves torn. (R9, R104, R193, R333, R513, R520, R531, 19_trouble_and_recovery.md) -/
def Obligations.AResetClearsWhatItsClassClears : Prop :=
  ∀ (s u : State) (c : ResetClass) (cause : ResetCause) (ph : Phase), u = s.resetDev c cause ph →
    u.cmds = [] ∧ (∀ f r, (u.ring f r).state = .disabled) ∧ u.binds = []
    ∧ (∀ f i, (Table.get {} (u.fnSt f).hwin i).en = false ∧ (Table.get {} (u.fnSt f).dwin i).en = false)
    ∧ (∀ f, (u.fnSt f).quota = ({} : Quota)) ∧ u.addr.cores = [] ∧ u.addr.sac = [] ∧ u.wd.period = 2000 ∧ u.fuses = s.fuses
    ∧ u.life.phase = ph ∧ u.life.cause = cause
    ∧ (c = .E ∨ c = .S → (∀ i, Table.get 0 s.pace.sensor i = 0) → s.pins.droopInN = true → u.trouble.trb = s.trouble.trb ∧ u.trouble.next = s.trouble.next ∧ u.trouble.oldest = s.trouble.oldest
        ∧ u.trouble.log = s.trouble.log ∧ u.time = s.time)
    ∧ (c = .P ∨ c = .W → (∀ i, Table.get 0 s.pace.sensor i = 0) → s.pins.droopInN = true → u.trouble.trb = 0 ∧ u.trouble.next = 0 ∧ u.trouble.log = [] ∧ u.time = 0)
    ∧ (c = .S → u.addr.top = s.addr.top
        ∧ ((∀ q ∈ s.comp.runs, q.2.updating = none) → u.addr.lp5x = s.addr.lp5x ∧ u.addr.poison = s.addr.poison))
    ∧ (c ≠ .S → u.addr.lp5x = [] ∧ u.addr.top = 0)

/-- POR and TEST_EN_HIGH put the device in power-on reset with the effects of class P; in it they change the pins
only; a POR that takes VDD_AON ends a thermal trip and its pin too. SUPPLIES_VALID ends it, and the boot of class P
begins if PERST_N is high. An assertion of PERST_N and a fall of an active link are resets of class E unless POR or
its hold is in force; the rise of PERST_N, or for class E the next DL_Active at a speed and width that the KC2 trains,
begins the boot of the class that is held; with PERST_N high or the link active already they begin none. A DSR while
the firmware serves BAR 0 is a reset of class S; it is discarded while only the always-on registers are served, and an
Unsupported Request while BAR 0 answers nothing. A boot whose 0.9 s have passed leaves the boot ROM serving, the
watchdog stopped and the bit set. (R319, R336, R343, R347, R531, R641, R653, R654, R659,
25_pins_electrical_package.md) -/
def Obligations.SuppliesAndPinsResetAndBoot : Prop :=
  ∀ (s : State) (chip : BitVec 2) (cause : LinkFall) (sp : BitVec 4) (wd : BitVec 5),
    (s.life.phase ≠ .por → ∃ u, exec (.por false) s = .next u ∧ u.life.phase = .por ∧ u.pins.supplies = false ∧ u.cmds = [])
    ∧ (∃ u, exec (.por true) s = .next u ∧ u.life.phase = .por ∧ u.pins.supplies = false ∧ u.pins.vddAon = false
        ∧ u.life.tripped = false ∧ u.pins.thermTripN = true ∧ (s.life.phase ≠ .por → u.cmds = []))
    ∧ (s.life.phase ≠ .por → ∃ u, exec .testEnHigh s = .next u ∧ u.life.phase = .por ∧ u.pins.testEn = true ∧ u.cmds = [])
    ∧ (s.life.phase = .por → exec (.por false) s = .next { s with pins := { s.pins with supplies := false } }
        ∧ exec .testEnHigh s = .next { s with pins := { s.pins with testEn := true } })
    ∧ (s.life.phase = .por → s.pins.testEn = false → ∃ u, exec .suppliesValid s = .next u ∧ u.pins.supplies = true
        ∧ u.life.phase = if s.pins.perstN then .boot .P else .held .P)
    ∧ (s.life.phase = .por → s.pins.testEn = true →
        exec .suppliesValid s = .next { s with pins := { s.pins with supplies := true, vddAon := true } })
    ∧ (s.life.phase ≠ .por → exec .suppliesValid s = .next s)
    ∧ (s.life.phase ≠ .por → s.life.phase ≠ .held .P →
        exec .perstNAssert s = .next ({ s with pins := { s.pins with perstN := false } }.resetDev .E .perstN (.held .E))
        ∧ (s.pcie.dlActive = true → exec (.linkDown cause) s = .next (s.resetDev .E (fallCause cause) (.held .E))))
    ∧ (s.life.phase = .por ∨ s.life.phase = .held .P →
        exec .perstNAssert s = .next { s with pins := { s.pins with perstN := false } } ∧ exec (.linkDown cause) s = .next s)
    ∧ (s.pcie.dlActive = false → exec (.linkDown cause) s = .next s)
    ∧ (∀ k, s.pins.perstN = false → s.life.phase = .held k → k = .P ∨ k = .E → ∃ u, exec (.perstNRelease chip) s = .next u
        ∧ u.life.phase = .boot k ∧ u.life.chipId = chip ∧ u.pins.perstN = true ∧ u.life.bootStart = s.time)
    ∧ (s.pins.perstN = true ∨ (s.life.phase ≠ .held .P ∧ s.life.phase ≠ .held .E) →
        exec (.perstNRelease chip) s = .next { s with pins := { s.pins with perstN := true, chipId := chip } })
    ∧ (s.pins.perstN = true → s.pcie.dlActive = false → trainable sp wd = true → s.life.phase = .held .E →
        ∃ u, exec (.dlActive sp wd) s = .next u
        ∧ u.life.phase = .boot .E ∧ u.pcie.dlActive = true ∧ u.pcie.speed = sp ∧ u.pcie.width = wd)
    ∧ (s.life.phase = .por ∨ s.pins.perstN = false ∨ s.pcie.dlActive = true ∨ trainable sp wd = false →
        exec (.dlActive sp wd) s = .next s)
    ∧ (s.life.phase ≠ .por → s.life.phase ≠ .held .E → s.pins.perstN = true → s.pcie.dlActive = false → trainable sp wd = true →
        exec (.dlActive sp wd) s = .next { s with pcie := { s.pcie with dlActive := true, speed := sp, width := wd } })
    ∧ (s.barMode 0 = .normal → exec .softReset s = .next (s.resetDev .S .hostDsr (.boot .S)))
    ∧ (s.barMode 0 = .alwaysOn → exec .softReset s = .next s)
    ∧ (s.barMode 0 = .unsupported → exec .softReset s = .next (s.logUr 0 true))
    ∧ (∀ k, s.life.phase = .boot k → s.usSince s.life.bootStart 900000 = true → ∃ u, u = { s with
          life := { s.life with phase := .romOnly }, pcie := { s.pcie with crs := false }, wd := { s.wd with stopped := true } }
        ∧ exec .fwNotReadyTimeout s = .next (u.setTrb .fwNotReady))
    ∧ (∀ k, s.life.phase = .boot k → s.usSince s.life.bootStart 900000 = false → exec .fwNotReadyTimeout s = .next s)
    ∧ (s.life.phase = .running → exec .fwNotReadyTimeout s = .next s)

/-- An aligned 32-bit read of BAR 0 that is served sends one completion with the register's value, or the paired
shadow's, and then has the register's read effect; a 64-bit read sends both dwords of one instant. A low read of a
latching register copies the high dword of that instant, and a high read while that pairing stands returns the copy,
whatever the register holds by then. An aligned read of BAR 4 sends the MSI-X table or PBA and changes nothing. A
misaligned read of either sends as many bytes 0xFF as were asked for and a misaligned write does nothing. With memory
space disabled a read of either is answered as an Unsupported Request and a misaligned write is logged as one. A
request by address acts as the one of the function and offset whose region claims it; where none does, it is an
Unsupported Request of no function. (R7, R8, R324, R326, R336, R339, R617, R618, 24_register_reference.md) -/
def Obligations.RegisterReadsAnswerThenHaveTheirEffect : Prop :=
  ∀ (s : State) (f : FnId) (o : BitVec 17),
    (s.barMode f.val ≠ .unsupported → o.toNat % 4 = 0 →
      exec (.rcRead .bar0 f o false) s = .next (((s.latchAfter f.val o.toNat).readEffect f.val o.toNat).emit
        (.barCpl false [(leBytes 4 (s.latchValue f.val o.toNat).toNat, false)])))
    ∧ (s.barMode f.val ≠ .unsupported → o.toNat % 8 = 0 → ∃ u, exec (.rcRead .bar0 f o true) s = .next u
        ∧ u.out = s.out ++ [.barCpl false
          [(leBytes 4 (s.readReg f.val o.toNat).toNat ++ leBytes 4 (s.readReg f.val (o.toNat + 4)).toNat, false)]])
    ∧ (s.latching f.val o.toNat = true → o.toNat % 8 = 0 → ∃ u, exec (.latchLowRead f o) s = .next u
        ∧ u.out = s.out ++ [.barCpl false [(leBytes 4 (s.readReg f.val o.toNat).toNat, false)]]
        ∧ ∀ w : State, w.latching f.val (o.toNat + 4) = true → w.fnSt f.val = u.fnSt f.val →
          ∀ o2 : BitVec 17, o2.toNat = o.toNat + 4 → ∃ v, exec (.latchHighRead f o2) w = .next v
            ∧ v.out = w.out ++ [.barCpl false [(leBytes 4 (s.readReg f.val (o.toNat + 4)).toNat, false)]])
    ∧ (s.barMode f.val ≠ .unsupported → o.toNat % 4 = 0 → exec (.rcRead .bar4 f o false) s
        = .next (s.emit (.barCpl false [(leBytes 4 (s.readMsix f.val o.toNat).toNat, false)])))
    ∧ (s.barMode f.val ≠ .unsupported → o.toNat % 8 = 0 → exec (.rcRead .bar4 f o true) s = .next (s.emit (.barCpl false
        [(leBytes 4 (s.readMsix f.val o.toNat).toNat ++ leBytes 4 (s.readMsix f.val (o.toNat + 4)).toNat, false)])))
    ∧ (∀ n, ∀ b ∈ [BarSel.bar0, BarSel.bar4], s.barMode f.val ≠ .unsupported →
        exec (.barMisalignedAccess b f false n) s = .next (s.emit (.barCpl false [(List.replicate n 0xFF, false)]))
        ∧ exec (.barMisalignedAccess b f true n) s = .next s)
    ∧ (∀ n w, ∀ b ∈ [BarSel.bar0, BarSel.bar4], s.barMode f.val = .unsupported →
        exec (.rcRead b f o w) s = .next ((s.logUr f.val false).emit (.barCpl true []))
        ∧ exec (.barMisalignedAccess b f false n) s = .next ((s.logUr f.val false).emit (.barCpl true []))
        ∧ exec (.barMisalignedAccess b f true n) s = .next (s.logUr f.val true))
    ∧ (∀ (a : BitVec 64) (g : FnId) (p : BitVec 17) w n, (s.decodeBar a.toNat = .at .bar0 f.val o.toNat → exec (.rcRead (.address a) g p w) s = exec (.rcRead .bar0 f o w) s)
        ∧ (s.decodeBar a.toNat = .at .bar4 f.val o.toNat → exec (.rcRead (.address a) g p w) s = exec (.rcRead .bar4 f o w) s)
        ∧ (s.decodeBar a.toNat = .unclaimed → exec (.rcRead (.address a) g p w) s = .next ((s.logUr 64 false).emit (.barCpl true []))
          ∧ exec (.barMisalignedAccess (.address a) g true n) s = .next (s.logUr 64 true)
          ∧ exec (.barMisalignedAccess (.address a) g false n) s = .next ((s.logUr 64 false).emit (.barCpl true []))))

/-- A served aligned write of BAR 0 or BAR 4 acts on its dword, or on its two dwords, low first. A write of TRB clears
exactly the bits written as 1 whose level condition does not hold. On a locked store with no sequence open 0xC2A5
opens one of 1,024 ticks and another key does nothing; with one open and ticks left 0x5A2C unlocks, and any other key,
or a late one, ends the sequence locked; on an unlocked store 0x5A2C keeps it, 0xC2A5 locks and opens a sequence,
another key locks. A run-down sequence is ended, and no other. Enabling the trace starts it with the write pointer at
0, or is refused for an LP5X region that does not lie below LP5X_TOP; a reserved sink keeps the sink that was set.
With memory space disabled each write is logged as an Unsupported Request; in the always-on set alone a key does
nothing. (R8, R89, R336, R339, R514, R587, R617, 24_register_reference.md) -/
def Obligations.RegisterWritesActByTheirAccessType : Prop :=
  ∀ (s : State) (f : FnId) (o : BitVec 17) (v : BitVec 64) (key : Word),
    (s.barMode f.val ≠ .unsupported → o.toNat % 4 = 0 →
      exec (.registerWrite .bar0 f o false v) s = .next (s.writeReg f.val o.toNat (loWord v))
      ∧ exec (.registerWrite .bar4 f o false v) s = .next (s.writeMsix f.val o.toNat (loWord v)))
    ∧ (s.barMode f.val ≠ .unsupported → o.toNat % 8 = 0 →
        exec (.registerWrite .bar0 f o true v) s
          = .next ((s.writeReg f.val o.toNat (loWord v)).writeReg f.val (o.toNat + 4) (hiWord v))
        ∧ exec (.registerWrite .bar4 f o true v) s
          = .next ((s.writeMsix f.val o.toNat (loWord v)).writeMsix f.val (o.toNat + 4) (hiWord v)))
    ∧ (∀ w, s.barMode f.val = .unsupported → exec (.registerWrite .bar0 f o w v) s = .next (s.logUr f.val true)
        ∧ exec (.registerWrite .bar4 f o w v) s = .next (s.logUr f.val true))
    ∧ (∀ (a : BitVec 64) (g : FnId) (p : BitVec 17) w, (s.decodeBar a.toNat = .at .bar0 f.val o.toNat →
          exec (.registerWrite (.address a) g p w v) s = exec (.registerWrite .bar0 f o w v) s)
        ∧ (s.decodeBar a.toNat = .at .bar4 f.val o.toNat →
          exec (.registerWrite (.address a) g p w v) s = exec (.registerWrite .bar4 f o w v) s)
        ∧ (s.decodeBar a.toNat = .unclaimed → exec (.registerWrite (.address a) g p w v) s = .next (s.logUr 64 true)))
    ∧ (s.barMode 0 ≠ .unsupported → ∃ u, exec (.registerWrite .bar0 0 0x10100 false v) s = .next u
        ∧ (∀ i, i < 20 → bitOf u.trouble.trb i = (bitOf s.trouble.trb i && (!bitOf v i || bitOf s.levelBits i)))
        ∧ u = { s with trouble := { s.trouble with trb := u.trouble.trb } })
    ∧ (s.barMode 0 = .normal → s.nvm.unlocked = false → s.nvm.unlockLeft = none →
        exec (.nvmUnlock key) s = .next (if key = 0xC2A5 then { s with nvm := { s.nvm with unlockLeft := some 1024 } } else s))
    ∧ (∀ n, s.barMode 0 = .normal → s.nvm.unlocked = false → s.nvm.unlockLeft = some n →
        exec (.nvmUnlock key) s = .next { s with nvm := { s.nvm with
          unlocked := decide (key = 0x5A2C ∧ 0 < n), unlockLeft := none } })
    ∧ (s.barMode 0 = .normal → s.nvm.unlocked = true → exec (.nvmUnlock key) s = .next { s with nvm := { s.nvm with
          unlocked := decide (key = 0x5A2C)
          unlockLeft := if key = 0x5A2C then s.nvm.unlockLeft else if key = 0xC2A5 then some 1024 else none } })
    ∧ (s.barMode 0 = .unsupported → exec (.nvmUnlock key) s = .next (s.logUr 0 true)
        ∧ exec (.traceEnable key) s = .next (s.logUr 0 true))
    ∧ (s.barMode 0 = .alwaysOn → exec (.nvmUnlock key) s = .next s)
    ∧ (s.nvm.unlockLeft = some 0 → exec .unlockTimeout s = .next { s with nvm := { s.nvm with unlockLeft := none } })
    ∧ (s.nvm.unlockLeft ≠ some 0 → exec .unlockTimeout s = .next s)
    ∧ (s.barMode 0 ≠ .unsupported → bitOf key 0 = true → s.trace.en = false → ∃ u, exec (.traceEnable key) s = .next u
        ∧ u.trace.sink.toNat = (if bitsOf key 2 1 = 3 then s.trace.sink.toNat else bitsOf key 2 1)
        ∧ (if u.trace.sink = 1 ∧ s.lpTop < 4096 * (s.trace.base.toNat + s.trace.size.toNat)
            then u.trace.refused = true ∧ u.trace.en = false
            else u.trace.en = true ∧ u.trace.wptr = 0 ∧ u.trace.stopped = false))

/-- With the firmware ready at RL0: a BAR 2 write of bytes inside one line of LP5X stores exactly them at the
aperture's base plus the offset; a BAR 2 read inside one line in no ECC error sends one completion with those bytes,
with EP exactly when the line is marked poisoned, and changes no memory. A write inside one line to NVM is discarded;
an access to SAC or core store that is not the PF's, or to an unmapped address, is discarded or reads 0xFF and sets
the denied or unmapped bit. Before the firmware is ready a read is answered with zeros and a write discarded; with
memory space disabled a read is an Unsupported Request and a write is logged as one. (R81, R291, R299, R300, R301,
R304, R316, R317, R336, R348, 11_address_map.md) -/
def Obligations.TheApertureReadsAndWritesLp5x : Prop :=
  ∀ (s : State) (o : BitVec 28) (d : Bytes) (n a : Nat) (t : State), a = 268435456 * s.addr.aptBase.toNat + o.toNat →
    t = { s with power := { s.power with idleTicks := 0 } } →
    (s.barMode 0 = .normal → s.power.level = 0 → 1 ≤ d.length → a % 64 + d.length ≤ 64 →
      (a + d.length ≤ s.lpTop → exec (.bar2Write o d) s = .next (t.lpWrite a d false))
      ∧ (∀ b i, s.region a = .nvm b i → exec (.bar2Write o d) s = .next t)
      ∧ (∀ v i, s.region a = .sac v i → s.wayOfPf v = false → exec (.bar2Write o d) s = .next t.aptDenied)
      ∧ (∀ c i, s.region a = .core c i → s.coreOfPf c = false → exec (.bar2Write o d) s = .next t.aptDenied)
      ∧ (∀ c i, s.region a = .core c i → s.coreOfPf c = true → exec (.bar2Write o d) s
          = .next { t with addr := { t.addr with cores := writeBytes 0 t.addr.cores (1048576 * c + i) d } })
      ∧ (s.region a = .unmapped → exec (.bar2Write o d) s = .next t.aptUnmapped))
    ∧ (s.barMode 0 = .normal → s.power.level = 0 → 1 ≤ n → a % 64 + n ≤ 64 →
        (a + n ≤ s.lpTop → s.addr.eccOn = false ∨ Table.get 0 s.addr.lpErr (dramLine (a / 64)) = 0 →
          ∃ u, exec (.bar2Read o n) s = .next u ∧ u.addr = s.addr
            ∧ u.out = s.out ++ [.barCpl false [(readBytes 0 s.addr.lp5x a n, Table.get false s.addr.poison (a / 64))]])
        ∧ (∀ c i, s.region a = .core c i → s.coreOfPf c = true → exec (.bar2Read o n) s
            = .next (t.emit (.barCpl false [(readBytes 0 s.addr.cores (1048576 * c + i) n, false)])))
        ∧ ((∃ v i, s.region a = .sac v i ∧ s.wayOfPf v = false) ∨ (∃ c i, s.region a = .core c i ∧ s.coreOfPf c = false) →
            exec (.bar2Read o n) s = .next (t.aptDenied.emit (.barCpl false [(List.replicate n 0xFF, false)])))
        ∧ (s.region a = .unmapped →
            exec (.bar2Read o n) s = .next (t.aptUnmapped.emit (.barCpl false [(List.replicate n 0xFF, false)]))))
    ∧ (s.barMode 0 = .alwaysOn → exec (.bar2Read o n) s = .next (s.emit (.barCpl false [(zeroBytes n, false)]))
        ∧ exec (.bar2Write o d) s = .next s)
    ∧ (s.barMode 0 = .unsupported → exec (.bar2Read o n) s = .next ((s.logUr 0 false).emit (.barCpl true []))
        ∧ exec (.bar2Write o d) s = .next (s.logUr 0 true))

/-- While the device is not held, a configuration request is answered with UR for a function that does not exist, with
CRS until the firmware is ready, during a waiting FLR or a new VF's first millisecond, and successfully otherwise,
with the register's value or after its write; the first dword reads 0xC2001FA7 on the PF and all ones on a VF. A held
device does not answer. Setting Bus Master Enable in D0 sends the function's held requests in their order, marks its
held reads sent and holds none; clearing it sends nothing. D3hot holds every function and D0 sends what was held and
wakes the device. Clearing the mask of an existing vector, or a Function Mask, sends each message that this frees once
and clears its pending bit. (R322, R330, R335, R339, R346, R348, R508, 12_pcie_and_functions.md) -/
def Obligations.ConfigurationAndMasterEnable : Prop :=
  ∀ (s : State) (f : FnId) (reg : BitVec 12) (w : Word) (v : Fin 64),
    (∀ q, s.life.phase = .por ∨ (∃ c, s.life.phase = .held c) → exec (.configRequest f q) s = .next s)
    ∧ (∀ q, s.life.phase ≠ .por → (∀ c, s.life.phase ≠ .held c) → s.fnExists f.val = false →
        exec (.configRequest f q) s = .next ((s.aer 0 0x100000 0).emit (.cfgCpl .ur 0xFFFFFFFF)))
    ∧ (s.life.phase ≠ .por → (∀ c, s.life.phase ≠ .held c) → s.fnExists f.val = true →
      (∀ q, s.pcie.crs = true ∨ (s.fnSt f.val).flrWaits = true → exec (.configRequest f q) s = .next (s.emit (.cfgCpl .crs 0xFFFF0001)))
      ∧ (∀ q, s.pcie.crs = false → (s.fnSt f.val).flrWaits = false → s.vfCrs f.val = true →
          exec (.configRequest f q) s = .next (s.tick.emit (.cfgCpl .crs 0xFFFF0001)))
      ∧ (s.pcie.crs = false → (s.fnSt f.val).flrWaits = false → s.vfCrs f.val = false →
        (∃ u, exec (.configRequest f (.read reg)) s = .next u
          ∧ u.out = s.out ++ [.cfgCpl .sc (s.cfgRead f.val (reg.toNat / 4 * 4))])
        ∧ exec (.configRequest f (.write reg w)) s = .next
            (((s.updFn f.val fun x => { x with crsUntil := none }).cfgWrite f.val (reg.toNat / 4 * 4) w).emit (.cfgCpl .sc 0))))
    ∧ s.cfgRead f.val 0 = (if f.val = 0 then 0xC2001FA7 else 0xFFFFFFFF)
    ∧ (s.fnExists f.val = false → exec (.busMasterEnable f true) s = .next s ∧ exec (.busMasterEnable f false) s = .next s
        ∧ exec (.msixUnmask f none) s = .next s ∧ exec (.msixUnmask f (some v)) s = .next s)
    ∧ (s.fnExists f.val = true → s.pcie.d3hot = false → ∃ u,
        exec (.busMasterEnable f true) s = .next u ∧ u.out = s.out ++ (s.fnSt f.val).heldOut
          ∧ (u.fnSt f.val).heldOut = [] ∧ (u.fnSt f.val).bme = true ∧ ∀ q ∈ u.reads, q.fn = f.val → q.sent = true)
    ∧ (s.fnExists f.val = true → s.pcie.d3hot = true →
        exec (.busMasterEnable f true) s = .next (s.updFn f.val fun x => { x with bme := true }))
    ∧ (s.fnExists f.val = true →
        exec (.busMasterEnable f false) s = .next (s.updFn f.val fun x => { x with bme := false }))
    ∧ (∃ u, u = { s with pcie := { s.pcie with d3hot := true } } ∧ exec .d3hotEntry s = .next u.retarget)
    ∧ (s.pcie.d3hot = true → ∃ u, u = { s with pcie := { s.pcie with d3hot := false } }
        ∧ exec .d0Entry s = .next (((List.range 64).foldl State.releaseHeld u).wake 6))
    ∧ (s.pcie.d3hot = false → exec .d0Entry s = .next s)
    ∧ (s.fnExists f.val = true → exec (.msixUnmask f none) s
          = .next ((s.updFn f.val fun x => { x with fnMask := false }).flushVecs f.val)
        ∧ (v.val < vecCount f.val → exec (.msixUnmask f (some v)) s = .next ((s.updFn f.val fun x =>
            { x with vecs := Table.upd {} x.vecs v.val fun m => { m with mask := false } }).flushPba f.val v.val))
        ∧ (vecCount f.val ≤ v.val → exec (.msixUnmask f (some v)) s = .next s))
    ∧ (s.life.phase = .running → (s.fnSt f.val).msixEn = true → (s.fnSt f.val).fnMask = false →
        (Table.get {} (s.fnSt f.val).vecs v.val).mask = false → bitOf (s.fnSt f.val).pba v.val = true →
        s.flushPba f.val v.val
          = (s.updFn f.val fun y => { y with pba := y.pba &&& ~~~((1 : BitVec 64) <<< v.val) }).sendMsi f.val v.val)

/-- NumVFs takes a value up to 63 while VF Enable is 0 and is left by any other write. VF_ENABLE brings the functions
1 to NumVFs into existence and no others, each with the default quota, its device windows and trouble bits and nothing
else kept, and does nothing when set already. VF_DISABLE ends the existence of every VF, and afterwards no command of
any VF that existed is held. An FLR of an existing function on an active link outside a boot leaves the function
without commands, with its trouble bits or more, its host windows cleared and its device windows and quota as they
were; started in a boot it waits for its end. (R310, R328, R330, R331, R333, R348, R451, 12_pcie_and_functions.md) -/
def Obligations.FunctionsComeAndGo : Prop :=
  ∀ (s : State) (f : FnId) (v : BitVec 16),
    (s.pcie.vfEnable = false → v.toNat ≤ 63 → exec (.numvfsWrite v) s = .next { s with pcie := { s.pcie with numVfs := v } })
    ∧ (s.pcie.vfEnable = true ∨ 63 < v.toNat → exec (.numvfsWrite v) s = .next s)
    ∧ (s.pcie.vfEnable = false → ∃ u, exec .vfEnable s = .next u
        ∧ (∀ g, u.fnExists g = (g == 0 || decide (g ≤ s.pcie.numVfs.toNat)))
        ∧ ∀ g, 1 ≤ g → g < 64 → u.fnExists g = true → (u.fnSt g).quota = {} ∧ (u.fnSt g).trb = (s.fnSt g).trb
            ∧ (u.fnSt g).dwin = (s.fnSt g).dwin ∧ (u.fnSt g).hwin = [] ∧ (u.fnSt g).bme = false
            ∧ (u.fnSt g).crsUntil = some (s.time + 38400))
    ∧ (s.pcie.vfEnable = true → exec .vfEnable s = .next s)
    ∧ (s.pcie.vfEnable = true → ∃ u, exec .vfDisable s = .next u ∧ (∀ g, u.fnExists g = (g == 0))
        ∧ ∀ g, 1 ≤ g → g < 64 → s.fnExists g = true → u.hadWork g = false)
    ∧ (s.pcie.vfEnable = false → exec .vfDisable s = .next s)
    ∧ (s.fnExists f.val = true → s.pcie.dlActive = true → (∀ c, s.life.phase ≠ .boot c) → ∃ u, exec (.flr f) s = .next u
        ∧ u.hadWork f.val = false ∧ (u.fnSt f.val).hwin = [])
    ∧ (∀ c, s.fnExists f.val = true → s.pcie.dlActive = true → s.life.phase = .boot c →
        exec (.flr f) s = .next (s.updFn f.val fun x => { x with flrWaits := true }))
    ∧ (s.fnExists f.val = false ∨ s.pcie.dlActive = false → exec (.flr f) s = .next s)
    ∧ (∀ (x : FnSt) (now : BitVec 64), (x.flr now).trb = x.trb ∧ (x.flr now).hwin = [] ∧ (x.flr now).dwin = x.dwin
        ∧ (x.flr now).quota = x.quota ∧ (x.flr now).vecs = [] ∧ (x.flr now).pba = 0)

/-- A retrain of an active link to another speed or width that a KC2 link has updates both, raises the link event of
every existing function and logs entry 3 with them; any other does nothing. Every entry into Recovery raises the
saturating count by one. A link error is logged at the PF, a poisoned write at the function it addresses, with
Detected Parity Error, or at the PF when none exists there, an unsupported request at the function it addresses or at
the PF. Logging an AER error sets the named status bits of that function, without the advisory bit where the error's
severity is fatal, and touches no other function; a device that a reset holds logs no unsupported request. (R319,
R322, R342, R344, 12_pcie_and_functions.md) -/
def Obligations.LinkEventsAreRecorded : Prop :=
  ∀ (s : State) (sp : BitVec 4) (wd : BitVec 5) (f : FnId),
    (s.pcie.dlActive = true → ¬(s.pcie.speed = sp ∧ s.pcie.width = wd) → trainable sp wd = true →
      ∃ u, u = { s with pcie := { s.pcie with speed := sp, width := wd } }
      ∧ exec (.linkRetrain sp wd) s = .next ((u.fnList.foldl (fun (t : State) g => t.raiseFnEvt g 1) u).logEvent 3 devByte
          [sp.setWidth 8, wd.setWidth 8] []))
    ∧ (s.pcie.dlActive = false ∨ s.pcie.speed = sp ∧ s.pcie.width = wd ∨ trainable sp wd = false →
        exec (.linkRetrain sp wd) s = .next s)
    ∧ (trainable sp wd = true ↔ (sp = 1 ∨ sp = 2 ∨ sp = 3 ∨ sp = 4) ∧ (wd = 1 ∨ wd = 2 ∨ wd = 4))
    ∧ exec .recoveryEntry s = .next { s with pcie := { s.pcie with recovCnt := satInc s.pcie.recovCnt 1 } }
    ∧ (∀ (e : LinkError) (un co : Word), (e = .receiver ∧ un = 0 ∧ co = 0x1) ∨ (e = .badTlp ∧ un = 0 ∧ co = 0x40)
        ∨ (e = .badDllp ∧ un = 0 ∧ co = 0x80) ∨ (e = .replayRollover ∧ un = 0 ∧ co = 0x100)
        ∨ (e = .replayTimeout ∧ un = 0 ∧ co = 0x1000) ∨ (e = .dlProtocol ∧ un = 0x10 ∧ co = 0)
        ∨ (e = .fcProtocol ∧ un = 0x2000 ∧ co = 0) ∨ (e = .rxOverflow ∧ un = 0x20000 ∧ co = 0)
        ∨ (e = .malformed ∧ un = 0x40000 ∧ co = 0) → exec (.badTlp e) s = .next (s.aer 0 un co))
    ∧ (∀ d b g o, s.barTarget d = .at b g o → exec (.badTlp (.poisonedWrite d)) s
        = .next (if s.fnExists g then (s.aer g 0x1000 0x2000).parity g false else (s.aer 0 0x1000 0x2000).parity 0 false))
    ∧ (∀ d, s.barTarget d = .other ∨ s.barTarget d = .unclaimed →
        exec (.badTlp (.poisonedWrite d)) s = .next ((s.aer 0 0x1000 0x2000).parity 0 false))
    ∧ (s.life.phase ≠ .por → (∀ c, s.life.phase ≠ .held c) →
        exec (.badTlp (.unsupported (some f))) s = .next (s.aer (if s.fnExists f.val then f.val else 0) 0x100000 0x2000)
        ∧ exec (.badTlp (.unsupported none)) s = .next (s.aer (if s.fnExists 64 then 64 else 0) 0x100000 0x2000))
    ∧ (∀ fn, s.life.phase = .por ∨ (∃ c, s.life.phase = .held c) → exec (.badTlp (.unsupported fn)) s = .next s)
    ∧ (∀ (g : Nat) (un co : Word), ((s.aer g un co).fnSt g).aerUncorr = (s.fnSt g).aerUncorr ||| un
        ∧ ((s.aer g un co).fnSt g).aerCorr
          = (s.fnSt g).aerCorr ||| (if un &&& s.pcie.aerSev ≠ 0 then co &&& ~~~(0x2000 : Word) else co)
        ∧ (∀ h, h ≠ g → (s.aer g un co).fnSt h = s.fnSt h)
        ∧ bitOf (((s.aer g un co).parity g false).fnSt g).cfgStat 31 = true)

/-- A completion under a tag with no outstanding read is logged as unexpected. A successful one that brings the last
byte ends the read with all its data, for SQ reads by handing over the entries; one that brings less is added to what
has come; one with EP is logged, unless the function is gone, and its range is kept as poisoned; a UR or CA status, or
too many bytes, ends it as failed. A read of a disabled or reset function is discarded. A timeout of an outstanding
read that has been sent and whose time has passed, with the timer enabled, logs it, counts it and ends the read as
failed; otherwise it does nothing. Lines that arrive whole hold their data; a failing line is, under POISON, zeros
with the poison tag. (R265, R266, R270, R275, R331, R340, R341, R342, R388, 12_pcie_and_functions.md) -/
def Obligations.ReadsOfTheDeviceEndWithTheirCompletion : Prop :=
  ∀ (s : State) (tag : Nat) (st : CplStatus) (ep : Bool) (d : Bytes) (q : ReadReq) (a : State),
    a = (if ep = true ∧ q.orphan = false then (s.aer q.fn 0x1000 0x2000).parity q.fn true else s) →
    (s.readAt tag = none → exec (.pcieCompletion tag st ep d) s = .next (s.aer 0 0x10000 0x2000)
      ∧ exec (.completionTimeout tag) s = .next s)
    ∧ (s.readAt tag = some q → q.got.length + d.length < q.len →
        exec (.pcieCompletion tag .sc ep d) s = .next { a with
          reads := a.reads.map fun (o : ReadReq) => if o.tag = tag then q.take ep d else o })
    ∧ (s.readAt tag = some q → q.got.length + d.length = q.len → ∃ b, b = { a with
          reads := a.reads.map fun (o : ReadReq) => if o.tag = tag then q.take ep d else o }
        ∧ exec (.pcieCompletion tag .sc ep d) s = .next (b.readEnds (q.take ep d) true))
    ∧ (s.readAt tag = some q → st ≠ .sc ∨ q.len < q.got.length + d.length →
        exec (.pcieCompletion tag st ep d) s = .next (a.readEnds q false))
    ∧ (q.take ep d = { q with
        got := q.got ++ d, bad := if ep = true then q.bad ++ [(q.got.length, d.length)] else q.bad })
    ∧ (∀ g, (q.orphan = true → s.readEnds q g = { s with reads := s.reads.erase q })
        ∧ (∀ r n, q.orphan = false → q.use = .sq r n → s.readEnds q g
          = ({ s with reads := s.reads.erase q } : State).sqArrive q.fn r (g && q.bad.isEmpty) q.got)
        ∧ ∀ k b o sg n v, q.orphan = false → q.use = .line k b o sg n v → s.readEnds q false
          = ({ s with reads := s.reads.erase q } : State).lineArrive k b o sg n v q.len [(0, q.len)] [])
    ∧ (s.readAt tag = some q → q.sent = true → s.pcie.ctoDis = false → s.usSince q.issued (timeoutUs s.pcie.cto) = true →
        exec (.completionTimeout tag) s
          = .next (({ (s.aer q.fn 0x4000 0) with pcie := { s.pcie with cplTo := satInc s.pcie.cplTo 1 } }).readEnds q false))
    ∧ (s.readAt tag = some q → q.sent = false ∨ s.pcie.ctoDis = true ∨ s.usSince q.issued (timeoutUs s.pcie.cto) = false →
        exec (.completionTimeout tag) s = .next s)
    ∧ (∀ (x : Run) (now : BitVec 64) (lo len key : Nat) (bad : List (Nat × Nat)) (l : FailLoc) (y : Line), (key, y) ∈ x.lines →
        y.data = none →
        (lo ≤ key → key < lo + d.length → (key, { y with data := some ((d.drop (key - lo)).take y.len), came := now })
            ∈ (x.arrive now lo len [] l d).lines)
        ∧ (x.abort = false → bad ≠ [] → lo ≤ key → key < lo + len → hits lo bad (key, y) = true →
            (key, { y with data := some (zeroBytes y.len), poison := true, came := now }) ∈ (x.arrive now lo len bad l d).lines))

/-- In a boot whose boot ROM has a runnable slot, BOOT runs the firmware, signals ready, ends CRS and answers normal
BAR 0 accesses; the slot chosen runs, or the other after one internal restart; exactly the cores that failed the core
test are failed; outside a reset of class S, LP5X is trained exactly when training succeeded with two channels of one
density of 2, 4, 6 or 8 GiB. With no runnable slot the watchdog stops and no firmware runs. Outside a boot, or once no
slot was found, BOOT changes nothing. (R293, R294, R346, R552, R558, R562, R568, R624, 21_startup_and_firmware.md) -/
def Obligations.ABootEndsReadyOrWithoutFirmware : Prop :=
  ∀ (s : State) (ga gb : Nat) (tr : Bool) (bad : List (Fin 64)) (sp : BitVec 4) (wd : BitVec 5),
    (∀ c slot trial, s.life.phase = .boot c → s.life.noFw = false → s.bootChoice none = some (slot, trial) →
      ∃ u, exec (.boot ga gb tr bad sp wd) s = .next u ∧ u.life.phase = .running ∧ u.life.ready = true ∧ u.pcie.crs = false
        ∧ (u.fw.running = slot ∨ u.fw.running = 1 - slot ∧ u.fw.restarted = true)
        ∧ (∀ k : Fin 64, Table.get false u.life.failed k.val = bad.contains k)
        ∧ (c ≠ .S → u.addr.trained = (tr && ga == gb && (ga == 2 || ga == 4 || ga == 6 || ga == 8))))
    ∧ (∀ c, s.life.phase = .boot c → s.life.noFw = false → s.bootChoice none = none →
        exec (.boot ga gb tr bad sp wd) s = .next { s with
          life := { s.life with noFw := true }, wd := { s.wd with stopped := true } })
    ∧ ((∀ c, s.life.phase ≠ .boot c) → exec (.boot ga gb tr bad sp wd) s = .next s)
    ∧ (s.life.noFw = true → exec (.boot ga gb tr bad sp wd) s = .next s)

/-- A bind whose checks pass ends, for a pattern of this chip alone, with OK, the binding's handle and chip count 1; a
ring job's goes to its participants and waits for them, or ends with PEER_LOST where too few chips live. What it
takes: an index of the function that was free, whose count rises by one; the pattern's cores, none of which another
live binding holds; its stage count in core groups; and a reservation of every bank of the pattern. A needed bank with
a host-commanded operation ends it with BANK_BUSY and nothing is taken; while the KC2's own operation runs there it is
abandoned and the bind waits; an extent that is not intact ends it with PATTERN_DAMAGED and the trouble bit. A release
of a live binding without an open slot marks it as releasing and waits; one that names no live binding of the
function, one releasing already, or one with an open slot, ends with BAD_PARAM. When no earlier command of the binding
is left, the release ends with OK: the binding keeps only its count, its core stores read zero and no bank is reserved
for it any more; while an earlier command is left, nothing happens. (R78, R105, R193, R230, R372, R413, R420, R421,
R422, R455, R456, 15_command_reference.md) -/
def Obligations.BindingsAreMadeAndReleased : Prop :=
  ∀ (s : State) (t : Ticket) (c : Cmd),
    (∀ i b q, s.Waits t.val 0x12 c → s.myTurn c = true → bitOf (Entry.dw c.entry 2) 31 = false → Entry.paramsOk c.entry = true →
      s.patternOf (Entry.handle c.entry) = some (i, b) → s.mayBind c.fn i b = true →
      q = bindReqOf c.fn i b (Entry.dw c.entry 2) (Entry.dw c.entry 3) c.order → s.handOverOk q = true →
      (∀ a k w, s.bindCore q = .done a k → Pattern.chipsDim b = none → w = a.updBind k (fun x => { x with chips := 1, parts := [a.self], holders := [] }) →
        exec (.patternBind t) s = .next (w.endCmd t.val St.ok (w.handleAt k) 1))
      ∧ (∀ a k, s.bindCore q = .done a k → chipCount b (1 + a.livePeers.length) = none →
        exec (.patternBind t) s = .next ((a.freeBinding k).endCmd t.val St.peerLost 0 0))
      ∧ (∀ a k n others w, s.bindCore q = .done a k → chipCount b (1 + a.livePeers.length) = some n → others = a.livePeers.take (n - 1) →
        others ≠ [] → w = ((a.updBind k fun x => { x with chips := n, parts := a.self :: others, holders := others }).updBind k fun x =>
          { x with awaits := others, binder := some t.val }).updCmd t.val (fun c => { c with phase := .busy }) →
        exec (.patternBind t) s = .next (others.foldl (fun (u : State) z => u.sendCtrl z (.bind (u.jobId k) (Pattern.id b) n q.dw2
          (BitVec.ofNat 32 (q.hoBase - 512 * s.scratchHeld q.fn + 65536 * q.hoSize)))) w))
      ∧ (∀ a st, s.bindCore q = .refuse a st → exec (.patternBind t) s = .next (a.endCmd t.val st 0 0))
      ∧ (∀ a, s.bindCore q = .wait a → exec (.patternBind t) s = .next a))
    ∧ (∀ q a k, s.bindCore q = .done a k → (s.bind k).live = false ∧ k / 64 = q.fn
        ∧ a.bind k = { live := true, count := (s.bind k).count + 1, pattern := Pattern.handle q.pat, cores := q.cores
                       groups := Pattern.stageCount q.pat, hoBase := q.hoBase, hoSize := q.hoSize, dw2 := q.dw2, dw3 := q.dw3 }
        ∧ (∀ p ∈ s.binds, p.2.live = true → ∀ x ∈ p.2.cores, x ∉ q.cores)
        ∧ (∀ n ∈ Pattern.banks q.pat, a.reserved n = true))
    ∧ (∀ q, ((∃ n ∈ Pattern.banks q.pat, s.nvm.hostOp n = true ∨ s.hostWaits q.order n = true) → s.bindCore q = .refuse s St.bankBusy)
      ∧ ((∀ n ∈ Pattern.banks q.pat, s.nvm.hostOp n = false ∧ s.hostWaits q.order n = false) →
        ((∃ n ∈ Pattern.banks q.pat, s.nvm.busy n = true) → s.bindCore q = .wait (s.abandonAuto (Pattern.banks q.pat)))
        ∧ (∀ a, a = (Pattern.banks q.pat).foldl (fun (u : State) n => u.extentReads q.pat n) s →
          (∀ n ∈ Pattern.banks q.pat, s.nvm.busy n = false) → (∃ n ∈ Pattern.banks q.pat, a.extentIntact q.pat n = false) →
          s.bindCore q = .refuse (a.setTrb .patternDamaged) St.patternDamaged)))
    ∧ (∀ k, s.Waits t.val 0x12 c → bitOf (Entry.dw c.entry 2) 31 = true → Entry.paramsOk c.entry = true →
        s.byHandle c.fn (Entry.handle c.entry) = some k →
        ((s.bind k).releasing = false → (∀ p ∈ s.slots, p.2.isOpen = true → p.2.bind ≠ k) →
          exec (.patternRelease t) s = .next ((s.updBind k fun x => { x with releasing := true, releaser := some t.val }).updCmd t.val
            fun x => { x with phase := .busy }))
        ∧ ((s.bind k).releasing = true ∨ (∃ p ∈ s.slots, p.2.isOpen = true ∧ p.2.bind = k) →
          exec (.patternRelease t) s = .next (s.endCmd t.val St.badParam 0 0)))
    ∧ (s.Waits t.val 0x12 c → bitOf (Entry.dw c.entry 2) 31 = true → s.byHandle c.fn (Entry.handle c.entry) = none →
        exec (.patternRelease t) s = .next (s.endCmd t.val St.badParam 0 0))
    ∧ (∀ (f : FnId) (i : Fin 64) (k u : Nat) (d : Cmd), k = 64 * f.val + i.val → (s.bind k).live = true → (s.bind k).releasing = true →
        (s.bind k).releaser = some u → s.cmd? u = some d → s.fwRuns = true →
        (s.bindBusy k d.order = false →
          exec (.bindingReleaseDone f i) s = .next ((s.freeBinding k).endCmd u St.ok 0 0).retarget)
        ∧ (s.bindBusy k d.order = true → exec (.bindingReleaseDone f i) s = .next s))
    ∧ (∀ k, (s.bind k).live = true → (s.freeBinding k).bind k = { count := (s.bind k).count }
        ∧ (∀ a, a / 1048576 ∈ (s.bind k).cores → Table.get 0 (s.freeBinding k).addr.cores a = 0)
        ∧ (∀ n, k ∉ Table.get [] (s.freeBinding k).nvm.resv n))

/-- A PATTERN_INSTALL whose package is read and passes every check queues the operations of R226 in their order: an
erase for every block of every extent, the program of each extent's contents, the program of each extent tag, a wear
checkpoint where the directory block is compacted, then the slot in the inactive plane and in the active plane; its
results will be the new handle and the number of blocks. With VPP_NVM absent it ends with VPP_LOW and the trouble bit,
with a needed bank reserved with BANK_RESERVED, with no slot or no room with NO_RESOURCE, with a failing check with
BAD_PARAM, with an unreadable package with HOST_ABORT; a command that must wait to read host memory is left as it was.
A PATTERN_REMOVE of the owner or the PF queues the tombstones that are still to be programmed, active plane last, or
ends with OK where none is; of a bound pattern it ends with BANK_RESERVED, and with VPP_NVM absent with VPP_LOW, and
one whose handle has no tombstone left to program, or that names no pattern, with BAD_PARAM. (R222, R223, R224, R226,
R228, R229, R418, 08_pattern_packages.md, 15_command_reference.md) -/
def Obligations.PatternsAreInstalledAndRemoved : Prop :=
  ∀ (s : State) (t : Ticket) (c : Cmd) (view : HostView),
    (∀ (pl : Place), s.Waits t.val 0x10 c → s.myTurn c = true → Entry.paramsOk c.entry = true →
      c.input 2 (Entry.dw c.entry 4).toNat = .ok pl → (bitOf (Entry.dw c.entry 7) 0 = true → ∃ z, c.output 5 512 = .ok z) →
      (∀ (a : State) (r : Except ReadFail Bytes), s.readPlace view c.fn pl (Entry.dw c.entry 4).toNat = (a, r) →
        (∀ e, r = .error e → a.blocked = false → exec (.patternInstall t view) s = .next (a.endCmd t.val St.hostAbort 0 0))
        ∧ (∀ e, r = .error e → a.blocked = true → exec (.patternInstall t view) s = .next s)
        ∧ (∀ p, r = .ok p → a.blocked = false →
          (pkgOk p = false → exec (.patternInstall t view) s = .next (a.endCmd t.val St.badParam 0 0))
          ∧ (pkgOk p = true → a.chooseSlot = none ∨ placeExtents a.patterns p = none →
              exec (.patternInstall t view) s = .next (a.endCmd t.val St.noResource 0 0))
          ∧ (∀ slot compact l, pkgOk p = true → a.chooseSlot = some (slot, compact) → placeExtents a.patterns p = some l →
              ((∃ e ∈ l, a.reservedFor c e.bank = true) → exec (.patternInstall t view) s = .next (a.endCmd t.val St.bankReserved 0 0))
              ∧ ((∀ e ∈ l, a.reservedFor c e.bank = false) → a.nvm.vppOk = false →
                  exec (.patternInstall t view) s = .next ((a.endCmd t.val St.vppLow 0 0).setTrb .vppLow))
              ∧ ((∀ e ∈ l, a.reservedFor c e.bank = false) → a.nvm.vppOk = true →
                  exec (.patternInstall t view) s = .next (a.queueCmd t.val
                    ((l.flatMap fun e => (List.range e.blocks).map fun i => (e.bank, NvmAct.erase (e.first + i)))
                      ++ (l.map fun e => (e.bank, NvmAct.program e.first 0 (e.data.length / 256) (.layout pl c.fn e.parts)))
                      ++ (l.map fun e => (e.bank, NvmAct.program (wordAt e.first 0 (e.data.length / 256)).1
                          (wordAt e.first 0 (e.data.length / 256)).2 1 (.bytes (extentTag p (a.newHandle slot) e))))
                      ++ (if compact then a.wearOps else [])
                      ++ a.planeOps (1 - a.fw.running) slot compact
                          (slotImage p (a.newCommit slot) c.fn (a.newHandle slot) (placementMap l))
                      ++ a.planeOps a.fw.running slot compact
                          (slotImage p (a.newCommit slot) c.fn (a.newHandle slot) (placementMap l)))
                    { res0 := BitVec.ofNat 32 (a.newHandle slot), res1 := BitVec.ofNat 32 (l.map fun e => e.blocks).sum
                      goal := .install (placementMap l) }))))))
    ∧ (s.Waits t.val 0x11 c → s.myTurn c = true → Entry.paramsOk c.entry = true →
        c.fn = 0 ∨ c.fn = s.owner (bitsOf (Entry.handle c.entry) 7 0) →
        (s.patternOf (Entry.handle c.entry)).isSome = true ∨ s.halfRemoved (bitsOf (Entry.handle c.entry) 7 0) (Entry.handle c.entry) = true →
        (s.isBound (Entry.handle c.entry) = true → exec (.patternRemove t) s = .next (s.endCmd t.val St.bankReserved 0 0))
        ∧ (s.isBound (Entry.handle c.entry) = false → s.tombOps (bitsOf (Entry.handle c.entry) 7 0) = [] →
            exec (.patternRemove t) s = .next (s.endCmd t.val St.ok 0 0))
        ∧ (s.isBound (Entry.handle c.entry) = false → s.tombOps (bitsOf (Entry.handle c.entry) 7 0) ≠ [] →
            (s.nvm.vppOk = true → exec (.patternRemove t) s = .next (s.queueCmd t.val (s.tombOps (bitsOf (Entry.handle c.entry) 7 0)) {}))
            ∧ (s.nvm.vppOk = false → exec (.patternRemove t) s = .next ((s.endCmd t.val St.vppLow 0 0).setTrb .vppLow))))
    ∧ (s.Waits t.val 0x11 c → s.myTurn c = true →
        (s.patternOf (Entry.handle c.entry)).isNone = true → s.halfRemoved (bitsOf (Entry.handle c.entry) 7 0) (Entry.handle c.entry) = false →
        exec (.patternRemove t) s = .next (s.endCmd t.val St.badParam 0 0))

/-- When its turn in the binding has come, or it was accepted after the binding's release (for a TRAIN step also among
its tenant's), each of the four commands whose binding is live and whose checks pass begins: it takes its hand-over
slots by turns and its participant of a ring job, the wait before its acceptance is counted, and it is busy. One whose
checks fail ends with the status of the first that fails, one whose ring job has no chips left with PEER_LOST, one
that names no binding with BAD_PARAM, one of whose groups has lost a core with CORE_FAULT; one whose checks must wait
for a read of host memory is left as it was. A RUN names every stage, a CHAIN the stages of its entry, and the command
that begins has the entry's fault mode, buffer count and lengths. (R259, R285, R374, R422, R423, R424, R425, R426,
R473, R603, 10_chains_faults_deadlines.md, 15_command_reference.md) -/
def Obligations.PatternCommandsBegin : Prop :=
  ∀ (s : State) (t : Ticket) (c : Cmd) (view : HostView) (i : Instr) (op : Nat) (p : Nat → Prep),
    (i = .run t view ∧ op = 0x13 ∧ Entry.light c.entry = false ∧ p = s.prepRun view c)
      ∨ (i = .runLight t ∧ op = 0x13 ∧ Entry.light c.entry = true ∧ p = s.prepLight c)
      ∨ (i = .chain t view ∧ op = 0x14 ∧ p = s.prepRun view c)
      ∨ (i = .adaptStepTrain t view ∧ op = 0x15 ∧ adaptAction c.entry ≠ 1 ∧ adaptAction c.entry ≠ 2 ∧ s.trainTurn c = true
          ∧ p = s.prepTrain view c) →
    s.Waits t.val op c → s.blocked = false → s.bindTurn c = true ∨ s.afterRelease c = true →
    (s.boundFor c (Entry.handle c.entry) = none → exec i s = .next (s.endCmd t.val St.badParam 0 0))
    ∧ (∀ k, s.boundFor c (Entry.handle c.entry) = some k →
        (∀ u st, p k = .bad u st → u.blocked = false → exec i s = .next (u.endCmd t.val st 0 0))
        ∧ (∀ u st, p k = .bad u st → u.blocked = true → i ≠ .runLight t → exec i s = .next s)
        ∧ (∀ u x, p k = .good u x → u.blocked = false →
            ((s.bind x.bind).dead = true →
              exec i s = .next ((u.updCmd t.val fun y => { y with miss := x.missInfo }).endCmd t.val St.peerLost 0 0))
            ∧ (∀ a b, (s.bind x.bind).dead = false → x.waitCap = false → a = u.takeSlots x → b = a.1.assignFrame t.val a.2 →
              (b.2.chip.isSome = true ∨ b.1.coreFailed b.2 = false →
                exec i s = .next ((b.1.setRun t.val (b.2.countArrival c)).updCmd t.val fun y => { y with phase := .busy }))
              ∧ (b.2.chip = none → b.1.coreFailed b.2 = true →
                exec i s = .next ((u.updCmd t.val fun y => { y with miss := x.missInfo }).endCmd t.val St.coreFault 0 0)))))
    ∧ (∀ k u x, s.prepRun view c k = .good u x → x.fn = c.fn ∧ x.bind = k ∧ x.waitCap = false ∧ x.abort = bitOf (Entry.dw c.entry 2) 0
        ∧ x.nbuf = bitsOf (Entry.dw c.entry 2) 8 4 ∧ x.lens = runLens c.entry
        ∧ runStages c.entry (Pattern.stageCount (s.bindPattern (s.bind k))) = some (x.first, x.last))

/-- On a binding of one chip, an ATTACH whose region passes its window and the check of R596 and keeps the tenant
within 256 MiB attaches the region in place of any earlier one; it ends with OK and zero words, with the note
CLASS_DEMOTED on a real-time ring. A region in bad form ends it with BAD_PARAM, one that exceeds the limit with
NO_RESOURCE, one that fails its window with that status, and nothing changes. A DETACH removes the attachment and ends
in the same way. On a binding of several chips, one that the handle does not name, or with a bad parameter, both end
with BAD_PARAM. (R426, R473, R596, R601, R602, 23_adapt_mode.md) -/
def Obligations.AdaptersAttachAndDetach : Prop :=
  ∀ (s : State) (t : Ticket) (c : Cmd) (st : BitVec 16), st = (if s.cmdRt c then 0x0110 else St.ok) →
    s.Waits t.val 0x15 c → s.bindTurn c = true ∨ s.afterRelease c = true →
    (∀ k, Entry.paramsOk c.entry = true → s.boundFor c (Entry.handle c.entry) = some k → (s.bind k).chips ≤ 1 →
      (adaptAction c.entry = 1 → ∀ a len, c.region false = .ok (a, len) →
        (s.regionOk (s.bindPattern (s.bind k)) a len false = true → s.regionHeld c.fn k + len ≤ 268435456 →
          exec (.adaptAttach t) s = .next ((s.updBind k fun b => { b with adapter := some (a, len) }).endCmd t.val st 0 0))
        ∧ (s.regionOk (s.bindPattern (s.bind k)) a len false = true → 268435456 < s.regionHeld c.fn k + len →
          exec (.adaptAttach t) s = .next (s.endCmd t.val St.noResource 0 0))
        ∧ (s.regionOk (s.bindPattern (s.bind k)) a len false = false →
          exec (.adaptAttach t) s = .next (s.endCmd t.val St.badParam 0 0)))
      ∧ (adaptAction c.entry = 1 → ∀ e, c.region false = .error e → exec (.adaptAttach t) s = .next (s.endCmd t.val e 0 0))
      ∧ (adaptAction c.entry = 2 →
          exec (.adaptDetach t) s = .next ((s.updBind k fun b => { b with adapter := none }).endCmd t.val st 0 0)))
    ∧ (Entry.paramsOk c.entry = false ∨ s.boundFor c (Entry.handle c.entry) = none
        ∨ (∃ k, s.boundFor c (Entry.handle c.entry) = some k ∧ 1 < (s.bind k).chips) →
        (adaptAction c.entry = 1 → exec (.adaptAttach t) s = .next (s.endCmd t.val St.badParam 0 0))
        ∧ (adaptAction c.entry = 2 → exec (.adaptDetach t) s = .next (s.endCmd t.val St.badParam 0 0)))

/-- STREAM_OPEN with parameters in range, ranges that pass, a channel that no other open slot has and a slot within
the quota takes the lowest free slot, sets it as its entry says, and ends with OK and the slot's number; one that
fails one of these ends with BAD_PARAM, WINDOW_FAULT or NO_RESOURCE. STREAM_CLOSE of an open slot closes it, discards
its open frame, ends the frames that wait with CANCELLED and waits for the others; a slot without frames becomes free
at once; one that names no open slot ends with BAD_PARAM. A STREAM_FRAME whose checks pass begins on the slot's
binding; one on a CSI-2 slot without a capture waits for one; one accepted after its deadline is dropped at once under
LATE_DROP; one whose checks fail ends with the status of the first that fails, one that names no open slot with
BAD_PARAM. A COPY in either form whose buffers pass begins, one whose buffers fail ends with their status, one with a
bad parameter with BAD_PARAM. (R283, R356, R357, R358, R360, R412, R429, R430, R431, R432, 13_video_and_weft.md,
15_command_reference.md) -/
def Obligations.StreamsOpenCloseAndRunFrames : Prop :=
  ∀ (s : State) (t : Ticket) (c : Cmd) (view : HostView),
    (s.Waits t.val 0x20 c → s.myTurn c = true →
      (s.boundFor c (Entry.handle c.entry) = none ∨ Entry.paramsOk c.entry = false →
        exec (.streamOpen t) s = .next (s.endCmd t.val St.badParam 0 0))
      ∧ ∀ k sl, s.boundFor c (Entry.handle c.entry) = some k → sl = openSlot c.entry c.fn k → Entry.paramsOk c.entry = true →
        (c.openRanges sl = false → exec (.streamOpen t) s = .next (s.endCmd t.val St.windowFault 0 0))
        ∧ (c.openRanges sl = true → s.channelTaken sl = true ∨ s.slotFor c.fn = none →
          exec (.streamOpen t) s = .next (s.endCmd t.val St.noResource 0 0))
        ∧ (∀ i, c.openRanges sl = true → s.channelTaken sl = false → s.slotFor c.fn = some i →
          (s.slot i).isOpen = false ∧ s.slotsHeld c.fn < (s.fnSt c.fn).quota.slots
          ∧ exec (.streamOpen t) s = .next ((s.updSlot i fun o => { sl with overrun := o.overrun }).endCmd t.val St.ok
              (BitVec.ofNat 32 i) 0).retarget))
    ∧ (s.Waits t.val 0x21 c → s.closeTurn c = true →
        (∀ i, Entry.paramsOk c.entry = true → s.slotOf c = some i →
          exec (.streamClose t) s = .next (((((s.updSlot i fun y => { y with closing := true, frame := none, closer := some t.val }).updCmd
            t.val fun y => { y with phase := .busy }).endWaiting i St.cancelled).slotDone i)))
        ∧ (Entry.paramsOk c.entry = false ∨ s.slotOf c = none → exec (.streamClose t) s = .next (s.endCmd t.val St.badParam 0 0)))
    ∧ (∀ i, (s.slot i).closing = true → (s.slot i).closer = none → (∀ p ∈ s.comp.runs, p.2.slot ≠ some i) →
        (∀ p ∈ s.cmds, ∀ m, p.2.miss = some m → m.slot ≠ some i) → s.slotDone i = (s.dropSlot i).retarget)
    ∧ (s.Waits t.val 0x22 c → s.bindTurn c = true ∨ s.afterRelease c = true → s.blocked = false →
        (s.slotOf c = none → exec (.streamFrame t view) s = .next (s.endCmd t.val St.badParam 0 0))
        ∧ (∀ i u st, s.slotOf c = some i → s.prepFrame view c i = .bad u st → u.blocked = false → u.run? t.val = none →
            exec (.streamFrame t view) s = .next (u.endCmd t.val st 0 0))
        ∧ (∀ i u x a b v, s.slotOf c = some i → s.prepFrame view c i = .good u x → u.blocked = false → (s.bind x.bind).dead = false →
            a = u.takeSlots x → b = (if x.waitCap then a else a.1.assignFrame t.val a.2) →
            b.2.chip.isSome = true ∨ b.2.waitCap = true ∨ b.1.coreFailed b.2 = false →
            v = (b.1.setRun t.val (b.2.countArrival c)).updCmd t.val (fun y => { y with phase := .busy }) →
            ((∀ d, x.deadline = some d → d < c.time → x.lateDrop = false) → exec (.streamFrame t view) s = .next v)
            ∧ (∀ d, x.deadline = some d → d < c.time → x.lateDrop = true → exec (.streamFrame t view) s = .next (v.dropFrame t.val))))
    ∧ (s.Waits t.val 0x23 c →
        (Entry.light c.entry = false →
          (Entry.paramsOk c.entry = false → exec (.copy t) s = .next (s.endCmd t.val St.badParam 0 0))
          ∧ (∀ p, Entry.paramsOk c.entry = true → p = (c.copyBuffer 0 3 s (s.copyBase c false)).then (c.copyBuffer 1 6) →
            (∀ u st, p = .bad u st → exec (.copy t) s = .next (u.endCmd t.val st 0 0))
            ∧ (∀ u x, p = .good u x → exec (.copy t) s = .next ((u.setRun t.val x).updCmd t.val fun y => { y with phase := .busy }))))
        ∧ (Entry.light c.entry = true →
          (Entry.paramsOk c.entry = false → exec (.copyLight t) s = .next (s.endCmd t.val St.badParam 0 0))
          ∧ (∀ a p, lightArgs c.entry = some a → Entry.paramsOk c.entry = true →
            p = (c.lightInput a s (s.copyBase c true)).then (c.lightOutput a) →
            (∀ u st, p = .bad u st → exec (.copyLight t) s = .next (u.endCmd t.val st 0 0))
            ∧ (∀ u x, p = .good u x → exec (.copyLight t) s = .next ((u.setRun t.val x).updCmd t.val fun y => { y with phase := .busy })))))

/-- A CANCEL ends with OK and its outcome: 0 where its target is not found, has ended or is stopping already; 1 where
the target had not begun, which then ends with CANCELLED and zero words; 3 for FW_COMMIT, TENANT_RESET, a release
under way, a running erase or relocation and an install's directory slot; a running command is stopped, with outcome 2
when some of its work had run and 1 otherwise, a running program after its code word. A TENANT_RESET ends every
earlier command of its target and closes its slots; when all have ended it gives back bindings and ways, sets the
latency tolerance to no limit and ends with OK, and until then its step comes again, as it does while an earlier reset
of the target goes on; one that names another function than its VF's, or none that exists, gets BAD_PARAM. PEER_QUERY
ends with the chip's word and its epoch. SENSOR_CALIBRATE reads the voltage once for each selected sensor and ends
with the mask, or with NO_RESOURCE on a bus fault. A bad parameter ends each with BAD_PARAM. (R103, R419, R422, R427,
R428, R444, R445, R446, R467, R468, 15_command_reference.md) -/
def Obligations.CancelAndTenantReset : Prop :=
  ∀ (s : State) (t : Ticket) (c : Cmd),
    (s.Waits t.val 0x16 c → Entry.paramsOk c.entry = true →
      (s.cancelTarget c = none → exec (.cancel t) s = .next (s.endCmd t.val St.ok 0 0))
      ∧ (∀ u d, s.cancelTarget c = some (u, d) →
          (d.phase = .ended → exec (.cancel t) s = .next (s.endCmd t.val St.ok 0 0))
          ∧ ((d.phase = .ready ∨ d.phase = .held) → Entry.opcode d.entry ≠ 0x60 → Entry.opcode d.entry ≠ 0x53 →
              exec (.cancel t) s = .next ((s.endCmd u St.cancelled 0 0).endCmd t.val St.ok 1 0))
          ∧ (Entry.opcode d.entry = 0x53 ∨ (Entry.opcode d.entry = 0x60 ∧ d.phase ≠ .busy) → d.phase ≠ .ended →
              exec (.cancel t) s = .next (s.endCmd t.val St.ok 3 0))
          ∧ (d.phase = .busy → Entry.opcode d.entry ≠ 0x53 →
              (∀ x, s.run? u = some x → x.stop = none →
                exec (.cancel t) s = .next ((s.stopRun u { status := St.cancelled }).endCmd t.val St.ok (if x.hasWorked then 2 else 1) 0))
              ∧ (∀ x, s.run? u = some x → x.stop ≠ none → exec (.cancel t) s = .next (s.endCmd t.val St.ok 0 0))
              ∧ (∀ p, s.run? u = none → Table.find s.nvm.plans u = some p →
                (∀ o, s.nvm.runningOf u = some o → o.uncancellable (Entry.opcode d.entry == 0x10) = true →
                  exec (.cancel t) s = .next (s.endCmd t.val St.ok 3 0))
                ∧ (∀ o, s.nvm.runningOf u = some o → o.uncancellable (Entry.opcode d.entry == 0x10) = false →
                  exec (.cancel t) s = .next ((s.stopOp u St.cancelled).endCmd t.val St.ok 2 0))
                ∧ (s.nvm.runningOf u = none → Entry.opcode d.entry ≠ 0x10 → exec (.cancel t) s
                  = .next ((s.finishPlan u St.cancelled 0).endCmd t.val St.ok (if (s.nvm.plan u).begun then 2 else 1) 0)))
              ∧ (s.run? u = none → Table.find s.nvm.plans u = none →
                (Entry.opcode d.entry = 0x12 → bitOf (Entry.dw d.entry 2) 31 = true → exec (.cancel t) s = .next (s.endCmd t.val St.ok 3 0))
                ∧ (d.isRelease = false → s.bindingOf u = none →
                  exec (.cancel t) s = .next (((s.dropCloser u).endCmd u St.cancelled 0 0).endCmd t.val St.ok 2 0))
                ∧ (∀ k, d.isRelease = false → s.bindingOf u = some k →
                  exec (.cancel t) s = .next ((s.bindFails k St.cancelled).endCmd t.val St.ok 2 0))))))
    ∧ (∀ f a, f = bitsOf (Entry.dw c.entry 2) 5 0 → s.Waits t.val 0x60 c →
        ((c.fn ≠ 0 ∧ f ≠ c.fn) ∨ s.fnExists f = false → exec (.tenantReset t) s = .next (s.endCmd t.val St.badParam 0 0))
        ∧ (Entry.paramsOk c.entry = true → c.fn = 0 ∨ f = c.fn → s.fnExists f = true →
            (s.resetBefore c = true → exec (.tenantReset t) s = .next s)
            ∧ (s.resetBefore c = false → a = ((s.earlier f c.order).foldl State.abortCmd s).closeSlots f →
              (a.earlier f c.order = [] → exec (.tenantReset t) s = .next ((a.freeTenant f).endResets t.val f).retarget)
              ∧ (a.earlier f c.order ≠ [] → exec (.tenantReset t) s = .next a))))
    ∧ (∀ f, (s.freeTenant f).tenants.waysOf f = [] ∧ ((s.freeTenant f).fnSt f).tol = 0xFFFFFFFF)
    ∧ (s.Waits t.val 0x61 c → Entry.paramsOk c.entry = true →
        exec (.peerQuery t) s = .next (s.endCmd t.val St.ok (s.peerWord (bitsOf (Entry.dw c.entry 2) 1 0))
          (if bitsOf (Entry.dw c.entry 2) 1 0 = s.self then s.life.epoch else (s.peer (bitsOf (Entry.dw c.entry 2) 1 0)).epoch)))
    ∧ (∀ d : BitVec 8, s.Waits t.val 0x62 c → Entry.paramsOk c.entry = true →
        (s.pace.busFault = true → exec (.sensorCalibrate t d) s = .next (s.endCmd t.val St.noResource 0 0))
        ∧ (s.pace.busFault = false → ∃ u : State, exec (.sensorCalibrate t d) s = .next (u.endCmd t.val St.ok
              (BitVec.ofNat 32 (bitsOf (Entry.dw c.entry 2) 7 0)) (if bitsOf (Entry.dw c.entry 2) 7 0 = 0 then 0 else d.setWidth 32))
            ∧ u = { s with
              out := s.out ++ List.replicate ((List.range 8).countP fun i => bitsOf (Entry.dw c.entry 2) 7 0 / 2 ^ i % 2 == 1) (.avs 1 0)
              fresh := u.fresh
              pace := { s.pace with readMv := u.pace.readMv, settled := u.pace.settled, droopRef := u.pace.droopRef } }))
    ∧ (∀ d : BitVec 8, Entry.paramsOk c.entry = false →
        (s.Waits t.val 0x16 c → exec (.cancel t) s = .next (s.endCmd t.val St.badParam 0 0))
        ∧ (s.Waits t.val 0x60 c → exec (.tenantReset t) s = .next (s.endCmd t.val St.badParam 0 0))
        ∧ (s.Waits t.val 0x61 c → exec (.peerQuery t) s = .next (s.endCmd t.val St.badParam 0 0))
        ∧ (s.Waits t.val 0x62 c → exec (.sensorCalibrate t d) s = .next (s.endCmd t.val St.badParam 0 0)))

/-- At acceptance NVM_PROGRAM and NVM_ERASE fail with NVM_LOCKED before anything else while the store is locked, then
with BAD_PARAM for a bank, block, range or reserved field out of range, then with BANK_RESERVED, a program then with
the status of its source; one that passes is queued, in its turn, on its bank with its own block, words and source,
behind what is queued there, whatever vpp_ok is. A scrub of one block, or of every scrub-due block in ascending order,
is queued without an unlock; with no block due it ends with OK. NVM_READ of a bank at rest writes the data of each
code word, and its report bytes where asked, and ends with the counts of words read, uncorrectable and corrected; of a
busy bank it writes status words. NVM_STATUS ends with the bank's word and NVM_OPSEQ, after an entry for every
physical block where its output is enabled. A bad parameter ends a read, a status or a scrub with BAD_PARAM, an output
that fails its window with that status. (R65, R68, R92, R100, R106, R111, R114, R434, R435, R436, R437,
04_weight_store_writing.md) -/
def Obligations.WeightStoreCommandsAreCheckedInOrder : Prop :=
  ∀ (s : State) (t : Ticket) (c : Cmd) (b l w n : Nat), b = (Entry.handle c.entry).toNat → (l, w, n) = nvmRange c.entry →
    (Entry.opcode c.entry = 0x31 →
      (s.nvm.unlocked = false → s.ownCheck c = some St.nvmLocked)
      ∧ (s.nvm.unlocked = true → 64 ≤ b ∨ 126 ≤ l ∨ n = 0 ∨ 1024 < w + n → s.ownCheck c = some St.badParam)
      ∧ (s.nvm.unlocked = true → b < 64 → l < 126 → 1 ≤ n → w + n ≤ 1024 → bitsOf (Entry.dw c.entry 2) 31 28 = 0 →
          Entry.zeros c.entry [5, 6, 7, 8, 9, 10, 11, 12, 13, 14, 15] = true →
          (s.reservedFor c b = true → s.ownCheck c = some St.bankReserved)
          ∧ (s.reservedFor c b = false → ∀ e, c.input 3 (256 * n) = .error e → s.ownCheck c = some e)
          ∧ (s.reservedFor c b = false → ∀ p, c.input 3 (256 * n) = .ok p → s.ownCheck c = none)))
    ∧ (Entry.opcode c.entry = 0x32 →
        (s.nvm.unlocked = false → s.ownCheck c = some St.nvmLocked)
        ∧ (s.nvm.unlocked = true → 64 ≤ b ∨ 126 ≤ (Entry.dw c.entry 2).toNat → s.ownCheck c = some St.badParam)
        ∧ (s.nvm.unlocked = true → b < 64 → (Entry.dw c.entry 2).toNat < 126 →
            Entry.zeros c.entry [3, 4, 5, 6, 7, 8, 9, 10, 11, 12, 13, 14, 15] = true →
            s.ownCheck c = if s.reservedFor c b = true then some St.bankReserved else none))
    ∧ (∀ p, s.Waits t.val 0x31 c → s.myTurn c = true → Entry.paramsOk c.entry = true → c.input 3 (256 * n) = .ok p →
        exec (.nvmProgram t) s = .next (s.queueCmd t.val [(b, .program l w n (.mem p c.fn))] {}))
    ∧ (s.Waits t.val 0x32 c → s.myTurn c = true → Entry.paramsOk c.entry = true →
        exec (.nvmErase t) s = .next (s.queueCmd t.val [(b, .erase (Entry.dw c.entry 2).toNat)] {}))
    ∧ (s.Waits t.val 0x34 c → s.myTurn c = true →
        (bitOf (Entry.dw c.entry 2) 7 = false → exec (.nvmScrubBlock t) s = .next (if Entry.paramsOk c.entry = true
          then s.queueCmd t.val [(b, .relocate l)] {} else s.endCmd t.val St.badParam 0 0))
        ∧ (bitOf (Entry.dw c.entry 2) 7 = true → Entry.paramsOk c.entry = false →
          exec (.nvmScrubDue t) s = .next (s.endCmd t.val St.badParam 0 0))
        ∧ (bitOf (Entry.dw c.entry 2) 7 = true → Entry.paramsOk c.entry = true →
          (s.nvm.dueBlocks b ≠ [] →
            exec (.nvmScrubDue t) s = .next (s.queueCmd t.val ((s.nvm.dueBlocks b).map fun x => (b, NvmAct.relocate x)) {}))
          ∧ (s.nvm.dueBlocks b = [] → exec (.nvmScrubDue t) s = .next (s.endCmd t.val St.ok 0 0))))
    ∧ (∀ k a p, (s.queueCmd k a p).nvm.ops = s.nvm.ops ++ a.map fun x => { bank := x.1, act := x.2, owner := .cmd k })
    ∧ (∀ rep len r, rep = bitOf (Entry.dw c.entry 3) 0 → len = (Entry.dw c.entry 6).toNat → s.Waits t.val 0x30 c →
        r = (s.pd4Read b).readWords b l w n →
        (Entry.paramsOk c.entry = false → exec (.nvmRead t) s = .next (s.endCmd t.val St.badParam 0 0))
        ∧ (∀ e, Entry.paramsOk c.entry = true → c.output 4 len = .error e → exec (.nvmRead t) s = .next (s.endCmd t.val e 0 0))
        ∧ (∀ p, Entry.paramsOk c.entry = true → c.output 4 len = .ok p →
          (s.nvm.running b = none → ∀ bad fixed, bad = (r.2.filter fun x => x.uncorr).length →
            fixed = (r.2.filter fun x => decide (0 < x.corrected)).length →
            exec (.nvmRead t) s = .next ((r.1.writePlace c.fn p
                (r.2.flatMap (fun x => x.data) ++ (if rep then r.2.map WordRead.report else [])) false).endCmd t.val
              (if bad = 0 then St.ok else St.nvmUncorrectable) (BitVec.ofNat 32 (n + 65536 * bad)) (BitVec.ofNat 32 (65536 * fixed))))
          ∧ (∀ o, s.nvm.running b = some o →
            exec (.nvmRead t) s = .next ((s.writePlace c.fn p (busyWords (s.nvm.statusWord o) n rep) false).endCmd t.val St.ok
              (BitVec.ofNat 32 n) (BitVec.ofNat 32 n)))))
    ∧ (s.Waits t.val 0x33 c →
        (Entry.paramsOk c.entry = false → exec (.nvmStatus t) s = .next (s.endCmd t.val St.badParam 0 0))
        ∧ (Entry.paramsOk c.entry = true → bitOf (Entry.dw c.entry 4) 0 = false →
          exec (.nvmStatus t) s = .next (s.endCmd t.val St.ok (s.bankWord b) s.nvm.opseq))
        ∧ (∀ r, Entry.paramsOk c.entry = true → bitOf (Entry.dw c.entry 4) 0 = true →
          c.output 2 (8 * (if b < 64 then 128 else 64)) = r →
          (∀ e, r = .error e → exec (.nvmStatus t) s = .next (s.endCmd t.val e 0 0))
          ∧ (∀ p, r = .ok p → exec (.nvmStatus t) s = .next ((s.writePlace c.fn p
            ((List.range (if b < 64 then 128 else 64)).flatMap fun k => s.nvm.blockEntry b k) false).endCmd t.val St.ok
              (s.bankWord b) s.nvm.opseq))))

/-- The first operation of a bank starts when it may. Without VPP_NVM it ends with VPP_LOW and the trouble bit; the
firmware's own marks and checkpoints wait. A program whose scan finds a code word that is not erased ends with
DOUBLE_PROGRAM, its index and the trouble bit, and charges nothing; otherwise it enters PROGRAM and stages its first
word; an erase enters ERASE, a relocation takes an erased spare or erases one first; NVM_OPSEQ rises by one. A charged
code word of a program is written with its flag, origin and data at its place, and the program goes on with the next
word, or ends with OK after its last or with its own status when stopped. A pulse of an erase counts; from the sixth
on, a passed check ends it: every code word of the block reads erased, its erase count rises by one, its row count is
0 and it is no longer scrub-due; after the sixteenth without one the erase ends with ERASE_FAIL, and its count rises
too. A bank without an operation, or waiting for its turn to charge, is left as it is. VPP_OK_SET sets vpp_ok;
VPP_LOSS ends every running operation with VPP_LOW and clears it. (R66, R90, R91, R93, R94, R96, R97, R98, R99, R100,
R101, 04_weight_store_writing.md) -/
def Obligations.EnginesProgramEraseAndRelocate : Prop :=
  ∀ (s : State) (b : Fin 66) (view : HostView) (o : NvmOp),
    (s.nvm.nextOp b.val = none → exec (.nvmOpStart b view) s = .next s)
    ∧ (s.nvm.nextOp b.val = some o → s.mayStart o = false → exec (.nvmOpStart b view) s = .next s)
    ∧ (s.nvm.nextOp b.val = some o → s.mayStart o = true →
      (s.nvm.vppOk = false → (∀ x y, o.owner ≠ .mark x y) → o.owner ≠ .wear →
        exec (.nvmOpStart b view) s = .next ((s.vppEnd o).takeLock o))
      ∧ (s.nvm.vppOk = false → (∃ x y, o.owner = .mark x y) ∨ o.owner = .wear → exec (.nvmOpStart b view) s = .next s)
      ∧ (∀ l first n src r, s.nvm.vppOk = true → o.act = .program l first n src → r = s.flagScan o.bank l first n →
          (∀ x y, src ≠ .mark x y) → (∀ x y z, src ≠ .wear x y z) →
          (∀ i, r.2 = some i → exec (.nvmOpStart b view) s
            = .next (((r.1.opEnd o St.doubleProgram (scanIndex o.bank l first i)).setTrb .doubleProgram).takeLock o))
          ∧ (r.2 = none → (∀ d, src ≠ .bytes d) → exec (.nvmOpStart b view) s
            = .next (((r.1.enterOp o.bank).stageWord view o src).takeLock o))
          ∧ (r.2 = none → ∀ d, src = .bytes d → exec (.nvmOpStart b view) s
            = .next ((((r.1.enterOp o.bank).noteSlot o l first d).stageWord view o src).takeLock o)))
      ∧ (∀ l first n src, s.nvm.vppOk = true → o.act = .program l first n src → s.nvm.markFull o = false →
          (∃ x y, src = .mark x y) ∨ (∃ x y z, src = .wear x y z) →
          exec (.nvmOpStart b view) s = .next (((s.placeOp o).1.opGo (s.placeOp o).2 view).takeLock o))
      ∧ (∀ l p, s.nvm.vppOk = true → o.act = .erase l ∨ o.act = .erasePhys p → exec (.nvmOpStart b view) s = .next (s.enterOp o.bank))
      ∧ (∀ l, s.nvm.vppOk = true → o.act = .relocate l →
          exec (.nvmOpStart b view) s = .next ((s.enterOp o.bank).relocateStart o l)))
    ∧ ((s.enterOp b.val).nvm.opseq = s.nvm.opseq + 1)
    ∧ (s.unitEnds b.val = none ∨ s.nvm.running b.val = none →
        exec (.codeWordProgrammed b view) s = .next s ∧ ∀ g, exec (.erasePulseDone b g) s = .next s)
    ∧ (∀ a l first n src p d u, s.nvm.running b.val = some o → s.unitEnds b.val = some a → o.act = .program l first n src →
        p = wordAt l first o.done → d = a.charge o.bank (a.nvm.physOf o.bank p.1) p.1 p.2 (a.nvm.gen o.bank p.1) false o.staged →
        u = d.updHead o.bank (fun _ => { o with done := o.done + 1 }) → o.staged ≠ [] →
        (o.stop = none → exec (.codeWordProgrammed b view) s = .next (if n ≤ o.done + 1 then u.opEnd { o with done := o.done + 1 } St.ok 0
          else u.stageWord view { o with done := o.done + 1 } src))
        ∧ (∀ st, o.stop = some st → exec (.codeWordProgrammed b view) s = .next (u.opEnd { o with done := o.done + 1 } st 0)))
    ∧ (∀ p l x gen mv d, ∃ e, e ≤ 16 ∧ (s.charge b.val p l x gen mv d).nvm.words
          = Table.set {} s.nvm.words (1024 * (128 * b.val + p) + x) { NvmWord.made b.val l x gen mv d with errs := e }
        ∧ (NvmWord.made b.val l x gen mv d).flag = 8 ∧ (NvmWord.made b.val l x gen mv d).data = d
        ∧ (NvmWord.made b.val l x gen mv d).lblock = l ∧ (NvmWord.made b.val l x gen mv d).lword = x)
    ∧ (∀ a l p pass, s.nvm.running b.val = some o → s.unitEnds b.val = some a → o.act = .erase l → p = s.nvm.physOf o.bank l →
        o.stop = none →
        (o.done + 1 < 6 ∨ (o.done + 1 < 16 ∧ pass = false) →
          exec (.erasePulseDone b pass) s = .next (a.updHead o.bank fun _ => { o with done := o.done + 1 }))
        ∧ (6 ≤ o.done + 1 → pass = true →
          exec (.erasePulseDone b pass) s = .next ((a.eraseOk o.bank p).opEnd { o with done := o.done + 1 } St.ok 0))
        ∧ (16 ≤ o.done + 1 → pass = false →
          exec (.erasePulseDone b pass) s
            = .next (((a.eraseBad o.bank p).staleIfFree o.bank p).opEnd { o with done := o.done + 1 } St.eraseFail 0)))
    ∧ (∀ p, p < 128 → ((s.eraseOk b.val p).nvm.block b.val p).erases = satInc (s.nvm.block b.val p).erases 1
        ∧ ((s.eraseOk b.val p).nvm.block b.val p).rows = 0 ∧ ((s.eraseOk b.val p).nvm.block b.val p).due = false
        ∧ ∀ x, x < 1024 → flagOf (Table.get {} (s.eraseOk b.val p).nvm.words (1024 * (128 * b.val + p) + x)).flag = .erased)
    ∧ (s.life.phase ≠ .por → s.nvm.vppOk = false → ∃ u, u = { s with nvm := { s.nvm with vppOk := true } }
        ∧ exec .vppOkSet s = .next (if s.fwRuns = true then u.dueMarks else u).retarget)
    ∧ (∃ u v, u = (s.nvm.ops.filter fun x => x.running).foldl State.vppCut s ∧ v = { u with nvm := { u.nvm with vppOk := false } }
        ∧ exec .vppLoss s = .next v.retarget)

/-- A patrol read of a row of a powered bank at rest counts the row and meets the outcome of each of its 16 code
words; of a bank with a host operation, a busy or a gated bank it does not happen. While a bank's conditions hold, the
lowest scrub-due block is relocated by an operation of the KC2's own, with auto_en at 1 only, and the lowest block
that waits for an erase is erased whatever auto_en holds. A wear checkpoint queues its two programs, the inactive
plane's first, unless one is queued; at a rest level other than the last before RL4 it wakes the device; it waits
while vpp_ok is 0. A row read counts on its physical block, and a count at or above the limit makes the block scrub-
due. (R72, R73, R74, R75, R77, R78, R79, R102, R582, 03_weight_store_reading.md) -/
def Obligations.TheStoreLooksAfterItself : Prop :=
  ∀ (s : State) (b : Fin 66) (row : BitVec 13),
    (s.fwRuns = true → s.nvm.hostOp b.val = false → s.nvm.busy b.val = false → s.bankState b.val ≠ 0 →
      row.toNat < 64 * (if b.val < 64 then 126 else 62) →
      exec (.patrolRead b row) s = .next ((List.range 16).foldl
        (fun (u : State) i => (u.readWord b.val (row.toNat / 64) (row.toNat % 64 * 16 + i)).1) (s.countRow b.val row.toNat)))
    ∧ (s.nvm.hostOp b.val = true ∨ s.nvm.busy b.val = true ∨ s.bankState b.val = 0 → exec (.patrolRead b row) s = .next s)
    ∧ (∀ k p, p = s.nvm.physOf b.val (k / 64) → (s.nvm.block b.val p).due = false →
        ((s.countRow b.val k).nvm.block b.val p).rows = (s.nvm.block b.val p).rows + 1
        ∧ ((s.countRow b.val k).nvm.block b.val p).due
            = decide (s.nvm.rdLimit.toNat ≤ min 0xFFFFFF (((s.nvm.block b.val p).rows + 1) / 65536)))
    ∧ (s.fwRuns = true → s.nvm.vppOk = true → s.bankReserved b.val = false → s.nvm.hostOp b.val = false → s.nvm.busy b.val = false →
        b.val < 64 ∨ s.nvm.setLock = none →
        (∀ l rest q, s.nvm.autoEn = true → s.nvm.dueBlocks b.val = l :: rest → (s.nvm.erasedSpares b.val).head? = some q →
          exec (.autoRelocationStart b) s = .next (s.startAuto b.val (.relocate l) .auto))
        ∧ (s.nvm.autoEn = false → exec (.autoRelocationStart b) s = .next s)
        ∧ (∀ p, s.nvm.staleBlock b.val = some p →
          exec (.spareErase b) s = .next (s.startAuto b.val (.erasePhys p) .stale)
          ∧ exec (.staleBlockErase b) s = .next (s.startAuto b.val (.erasePhys p) .stale)))
    ∧ (s.nvm.staleBlock b.val = none → exec (.spareErase b) s = .next s ∧ exec (.staleBlockErase b) s = .next s)
    ∧ (s.fwRuns = true → s.nvm.vppOk = true → (∀ x ∈ s.nvm.ops, x.isWear = false) →
        (s.power.level = 0 ∨ (s.power.level = 3 ∧ s.mayRest = true) → ∃ u, exec .wearCheckpoint s = .next u
          ∧ u.nvm.ops = s.nvm.ops ++ [{ bank := 65 - s.fw.running, act := wearAct, owner := .wear },
              { bank := 64 + s.fw.running, act := wearAct, owner := .wear }])
        ∧ (s.power.level ≠ 0 → ¬(s.power.level = 3 ∧ s.mayRest = true) → exec .wearCheckpoint s = .next (s.wake 3).queueWear))
    ∧ (s.power.level = 0 → (∃ x ∈ s.nvm.ops, x.isWear = true) → exec .wearCheckpoint s = .next s)
    ∧ (s.fwRuns = false ∨ s.nvm.vppOk = false → exec .wearCheckpoint s = .next s)

/-- SETTINGS_GET writes the record in force and ends with its version, whether the settings are defaulted, and its
CRC. SETTINGS_SET accepts a record with a good magic, length and CRC and known fields: UPDATE only while the settings
are not defaulted, with the own version and the seq in force; MIGRATE with a version from the lowest migratable to the
own one; REPLACE with the own version; otherwise BAD_PARAM; an unreadable source gives HOST_ABORT. It then queues the
programs of the new record, whose seq is that in force plus 1 and whose CRC is right, in the inactive plane and then
in the active one, and keeps the new CRC for its result. FW_STAGE queues the erases of the inactive slot's 48 blocks
where asked, or a withdrawal mark where that slot is pending, then the program of the inactive slot. FW_COMMIT ends
with OK on a pending slot, reports a failing image with its code, refuses a slot in trial, and else queues the mark,
or ends with NO_RESOURCE on a full mark area; the withdrawal marks a pending slot only; both wait while the plane is
not free. A run-down settings lock is released, and a settings program then under way is finished and its copy written
afresh. (R441, R442, R443, R559, R563, R564, R565, R569, R581, R582, 21_startup_and_firmware.md) -/
def Obligations.SettingsAndFirmwareCommands : Prop :=
  ∀ (s : State) (t : Ticket) (c : Cmd) (view : HostView),
    (s.Waits t.val 0x50 c → s.myTurn c = true →
      (Entry.paramsOk c.entry = false → exec (.settingsGet t) s = .next (s.endCmd t.val St.badParam 0 0))
      ∧ (∀ e, Entry.paramsOk c.entry = true → c.output 2 (Entry.dw c.entry 4).toNat = .error e →
        exec (.settingsGet t) s = .next (s.endCmd t.val e 0 0))
      ∧ (∀ p, Entry.paramsOk c.entry = true → c.output 2 (Entry.dw c.entry 4).toNat = .ok p →
        exec (.settingsGet t) s = .next ((s.writePlace c.fn p s.fw.record false).endCmd t.val St.ok
          (mkWord [(0, recordVersion s.fw.record), (16, b2n s.fw.defaulted)]) (BitVec.ofNat 32 (leAt s.fw.record 4092 4)))))
    ∧ (∀ m i, (m = 0 ∧ i = .settingsSetUpdate t view) ∨ (m = 1 ∧ i = .settingsSetMigrate t view)
        ∨ (m = 2 ∧ i = .settingsSetReplace t view) →
        s.Waits t.val 0x51 c → s.myTurn c = true → bitsOf (Entry.dw c.entry 2) 1 0 = m →
        (Entry.paramsOk c.entry = false → s.blocked = false → exec i s = .next (s.endCmd t.val St.badParam 0 0))
        ∧ (∀ e, Entry.paramsOk c.entry = true → s.blocked = false → c.input 3 4096 = .error e →
          exec i s = .next (s.endCmd t.val e 0 0))
        ∧ (∀ p r a, Entry.paramsOk c.entry = true → c.input 3 4096 = .ok p → s.readPlace view c.fn p 4096 = (r, a) → r.blocked = false →
          (∀ f, a = .error f →
            exec i s = .next (r.endCmd t.val St.hostAbort 0 0))
          ∧ (∀ b, a = .ok b → s.settingsOk m b = false →
            exec i s = .next (r.endCmd t.val St.badParam 0 0))
          ∧ (∀ b n, a = .ok b → s.settingsOk m b = true → n = s.newRecord b →
            exec i s = .next (r.queueCmd t.val (s.nvm.recordOps (1 - s.fw.running) n ++ s.nvm.recordOps s.fw.running n)
              { res1 := BitVec.ofNat 32 (leAt n 4092 4), goal := .settings n (m != 0) }))))
    ∧ (∀ m b, s.settingsOk m b = true → recordGood b = true ∧ recordFieldsOk b = true
        ∧ (m = 0 → s.fw.defaulted = false ∧ recordVersion b = s.fw.setOwn ∧ recordSeq b = recordSeq s.fw.record)
        ∧ (m = 1 → s.fw.migLo ≤ recordVersion b ∧ recordVersion b ≤ s.fw.setOwn) ∧ (m = 2 → recordVersion b = s.fw.setOwn))
    ∧ (∀ b : Bytes, b.length = 4096 → s.fw.setOwn < 65536 → leAt (s.newRecord b) 4092 4 = (crc32 ((s.newRecord b).take 4092)).toNat
        ∧ recordSeq (s.newRecord b) = (recordSeq s.fw.record + 1) % 4294967296 ∧ recordVersion (s.newRecord b) = s.fw.setOwn)
    ∧ (∀ len off era, len = (Entry.dw c.entry 5).toNat → off = (Entry.dw c.entry 6).toNat → era = bitOf (Entry.dw c.entry 2) 0 →
        s.Waits t.val 0x52 c → s.myTurn c = true →
        (Entry.paramsOk c.entry = false → exec (.fwStage t) s = .next (s.endCmd t.val St.badParam 0 0))
        ∧ (∀ e, Entry.paramsOk c.entry = true → c.input 3 len = .error e → exec (.fwStage t) s = .next (s.endCmd t.val e 0 0))
        ∧ (∀ p, Entry.paramsOk c.entry = true → c.input 3 len = .ok p → 256 ≤ len → ∀ g,
          g = (64 + s.otherSlot, NvmAct.program (off / 256 / 1024) (off / 256 % 1024) (len / 256) (.mem p c.fn)) →
          (era = true → exec (.fwStage t) s = .next (s.queueCmd t.val
            (((List.range 48).map fun l => (64 + s.otherSlot, NvmAct.erase l)) ++ [g]) {}))
          ∧ (era = false → ¬(s.nvm.slotState s.otherSlot = 1 ∧ s.nvm.marksUsed s.otherSlot < 16) →
            exec (.fwStage t) s = .next (s.queueCmd t.val [g] {}))
          ∧ (era = false → s.nvm.slotState s.otherSlot = 1 → s.nvm.marksUsed s.otherSlot < 16 →
            exec (.fwStage t) s = .next (s.queueCmd t.val [(64 + s.otherSlot, markAct s.otherSlot 5), g] {}))))
    ∧ (∀ o st chk r, o = s.otherSlot → st = s.nvm.slotState o → chk = s.nvm.imageCheck o s.fuses.rollback → r = s.imageReads o →
        s.Waits t.val 0x53 c → s.myTurn c = true → s.planeFree = true →
        (bitOf (Entry.dw c.entry 2) 0 = true →
          (Entry.paramsOk c.entry = false → exec (.fwCommit t) s = .next (s.endCmd t.val St.badParam 0 0))
          ∧ (Entry.paramsOk c.entry = true → st = 1 → exec (.fwCommit t) s = .next (s.endCmd t.val St.ok 0 0))
          ∧ (Entry.paramsOk c.entry = true → st ≠ 1 → chk ≠ 0 →
            exec (.fwCommit t) s = .next (r.endCmd t.val St.badParam (BitVec.ofNat 32 chk) 0))
          ∧ (Entry.paramsOk c.entry = true → st = 2 → chk = 0 → exec (.fwCommit t) s = .next (r.endCmd t.val St.badParam 0 0))
          ∧ (Entry.paramsOk c.entry = true → st ≠ 1 → st ≠ 2 → chk = 0 → r.nvm.marksUsed o < 16 →
            exec (.fwCommit t) s = .next (r.queueCmd t.val [(64 + o, markAct o 1)] {}))
          ∧ (Entry.paramsOk c.entry = true → st ≠ 1 → st ≠ 2 → chk = 0 → 16 ≤ r.nvm.marksUsed o →
            exec (.fwCommit t) s = .next (r.endCmd t.val St.noResource 0 0)))
        ∧ (bitOf (Entry.dw c.entry 2) 0 = false →
          (Entry.paramsOk c.entry = false → exec (.fwWithdraw t) s = .next (s.endCmd t.val St.badParam 0 0))
          ∧ (Entry.paramsOk c.entry = true → st ≠ 1 → exec (.fwWithdraw t) s = .next (s.endCmd t.val St.ok 0 0))
          ∧ (Entry.paramsOk c.entry = true → st = 1 → exec (.fwWithdraw t) s = .next
            (if s.nvm.marksUsed o < 16 then s.queueCmd t.val [(64 + o, markAct o 5)] {} else s.endCmd t.val St.noResource 0 0))))
    ∧ (s.Waits t.val 0x53 c → s.planeFree = false → exec (.fwCommit t) s = .next s ∧ exec (.fwWithdraw t) s = .next s)
    ∧ (∀ a, a = { s with nvm := { s.nvm with setLock := none } } →
        (s.nvm.setLock = some 0 → s.nvm.running (64 + s.fw.running) = none → exec .settingsLockLapse s = .next a)
        ∧ (∀ o k l w n src, s.nvm.setLock = some 0 → s.nvm.running (64 + s.fw.running) = some o → o.owner = .cmd k →
          o.act = .program l w n src → a.ofSettings o = true → exec .settingsLockLapse s = .next (a.restartCopy o n src k))
        ∧ (s.nvm.setLock ≠ some 0 → exec .settingsLockLapse s = .next s))

/-- While the fabric runs, a stage at its gate whose turn and tokens allow it passes: the slot that the next layer
reads is READING, the one that it writes is FILLING, and the stage is open; one that may not pass yet begins to wait,
and one whose group includes a failed core ends its command. A layer start of an open stage reads the layer's record,
and with every buffer in the command's table the layer runs on it; otherwise the command ends with BAD_PARAM. A grant
of an idle column whose turn has come puts its next tile into its load phase; when every line that the tile reads and
stages is at hand the load phase ends, with the tile before drained, and the tile computes; the end of a compute phase
counts the tile. When a layer has drained without drift it passes; with drift it is re-run once where WIDEN allows it
and there is time, and passes otherwise with its note. (R27, R154, R157, R164, R245, R246, R250, R252, R260, R261,
R262, 10_chains_faults_deadlines.md) -/
def Obligations.SequencersTakeAStageThroughItsLayers : Prop :=
  ∀ (s : State) (t : RunId) (n j : Fin 8) (x : Run), s.liveStage t.val n.val = some x →
    (∀ held, held = (s.groupFailed x n.val && !s.stageBusy t.val x n.val) → (x.stage n.val).phase = .gate →
      (held = true → exec (.stageStart t n) s = .next (s.stopRun t.val { status := St.coreFault }))
      ∧ (held = false → s.gateOpen t.val x n.val = true → ∃ u y, exec (.stageStart t n) s = .next u
        ∧ u.run? t.val = some y ∧ (y.stage n.val).phase = .open ∧ (y.stage n.val).layer = (x.stage n.val).layer
        ∧ ∀ r, r = s.recAt x n.val (x.stage n.val).layer →
          (∀ k, s.writeToken x n.val r = some k → u.token x.bind k = .filling)
          ∧ (∀ k, x.readToken n.val r = some k → s.writeToken x n.val r ≠ some k → u.token x.bind k = .reading))
      ∧ (held = false → s.gateOpen t.val x n.val = false → ∃ u y, exec (.stageStart t n) s = .next u
        ∧ u.run? t.val = some y ∧ (y.stage n.val).phase = .gate ∧ (y.stage n.val).waits = some ((x.stage n.val).waits.getD s.time)))
    ∧ ((x.stage n.val).phase ≠ .gate → exec (.stageStart t n) s = .next s)
    ∧ (∀ q, (x.stage n.val).phase = .open → s.lightReady x = true → q = s.readLayer x n.val →
        (x.namesOk q.2 = true → ∃ u y, exec (.layerStart t n) s = .next u ∧ u.run? t.val = some y
          ∧ (y.stage n.val).phase = .running ∧ (y.stage n.val).record = q.2.record ∧ (y.stage n.val).layer = (x.stage n.val).layer)
        ∧ (x.namesOk q.2 = false → ∃ y : Run, exec (.layerStart t n) s = .next ((q.1.setRun t.val y).settle t.val)
          ∧ y.stop = some { status := St.badParam }))
    ∧ ((x.stage n.val).phase ≠ .open ∨ s.lightReady x = false → exec (.layerStart t n) s = .next s)
    ∧ (∀ c b, (x.stage n.val).phase = .running → c = s.ctxOf x n.val → (c.tiles j.val)[(x.col n.val j.val).tile]? = some b →
        (j.val < c.gw → (x.col n.val j.val).phase = .idle → x.columnTurn n.val j.val c.gw = true →
          ∃ u y, exec (.tileGrant t n j) s = .next u ∧ u.run? t.val = some y ∧ (y.col n.val j.val).phase = .load
            ∧ (y.col n.val j.val).since = s.time)
        ∧ ((x.col n.val j.val).phase = .load →
            ∀ l, l = s.tileNeeds x n.val (s.refsOf x n.val c.r) c j.val (x.col n.val j.val).tile b →
            (s.ready x n.val l = true → ∃ (u : State) (y : Run), exec (.loadPhaseEnd t n j) s = .next (u.settle t.val)
              ∧ u.run? t.val = some y ∧ (y.col n.val j.val).phase = .compute ∧ (y.col n.val j.val).loaded = true
              ∧ (y.col n.val j.val).held = false)
            ∧ (s.ready x n.val l = false → exec (.loadPhaseEnd t n j) s = .next s))
        ∧ ((x.col n.val j.val).phase = .compute → ∃ (u : State) (y : Run), exec (.computePhaseEnd t n j) s = .next (u.settle t.val)
            ∧ u.run? t.val = some y ∧ (y.col n.val j.val).tile = (x.col n.val j.val).tile + 1
            ∧ (y.col n.val j.val).phase = (if (c.tiles j.val).length ≤ (x.col n.val j.val).tile + 1 then .done else .idle)))
    ∧ ((x.stage n.val).phase ≠ .running ∨ x.columnTurn n.val j.val (s.ctxOf x n.val).gw = false → exec (.tileGrant t n j) s = .next s)
    ∧ (∀ y a, (x.stage n.val).phase = .running → s.layerDrained x n.val = true → y = s.recordBeats x n.val →
        a = s.tick.layerTrace y n.val 1 →
        ((x.stage n.val).drifted = false → exec (.layerDrainEnd t n) s = .next (a.passLayer t.val y n.val))
        ∧ ((x.stage n.val).drifted = true → a.driftStep y n.val = .rerun →
            exec (.layerDrainEnd t n) s = .next ((a.tick.reportDrift y n.val true).startRerun t.val y n.val))
        ∧ ((x.stage n.val).drifted = true → a.driftStep y n.val = .late →
            exec (.layerDrainEnd t n) s = .next ((a.tick.reportDrift y n.val false).passLayer t.val { y with drift := true, kept := true } n.val))
        ∧ ((x.stage n.val).drifted = true → a.driftStep y n.val = .keep →
            exec (.layerDrainEnd t n) s = .next ((a.tick.reportDrift y n.val false).passLayer t.val { y with drift := true } n.val)))
    ∧ ((x.stage n.val).phase ≠ .running ∨ s.layerDrained x n.val = false → exec (.layerDrainEnd t n) s = .next s)

/-- While the fabric runs at RL0, after what needs no fetch and the optimiser's tensor of that engine, an engine's
wheel serves its present slot and moves on by one of sixteen; otherwise it stands. A deadline that passes while a
stage is incomplete drops the frame under LATE_DROP, unless the CP is halted, and otherwise keeps the lowest
incomplete stage for the report; before the deadline nothing happens. A core that fails is marked, logged with its
bits, and the command that owns it ends with CORE_FAULT. A RESUME of a halted CP with the scope for it writes what
waited and then drops the frames whose moment passed, in order of deadline; below the scope it is denied, and a CP
that runs goes on. (R27, R33, R255, R256, R283, R287, R580, 09_feeding_the_cores.md, 10_chains_faults_deadlines.md) -/
def Obligations.WheelsTurnAndFramesPassTheirDeadlines : Prop :=
  ∀ (s : State) (e : Fin 4) (view : HostView) (t : Ticket) (core : Fin 64),
    (∀ u v i, s.fabricRuns = true → s.power.level = 0 → u = (s.pullAll e.val).updateSlot e.val → v = u.advanceWheel e.val →
      i = Table.get 0 s.comp.wheel e.val % 16 →
      Table.get 0 v.comp.wheel e.val = (Table.get 0 u.comp.wheel e.val + 1) % 16
      ∧ exec (.wheelSlot e view) s = .next (match slotClass v.fw.wheelMap i with
        | .read => v.readSlot view e.val
        | .write => v.classSlot view e.val 18 fun _ x => v.offerWrite e.val x
        | .remote => v.remoteSlot view e.val
        | .reserved => v.slotIdle e.val))
    ∧ (s.fabricRuns = false ∨ s.power.level ≠ 0 → exec (.wheelSlot e view) s = .next s)
    ∧ (∀ x d, s.run? t.val = some x → x.deadline = some d → x.stop = none →
        (d < s.time → x.allDone = false → x.missStage = none →
          (x.lateDrop = true → s.dbg.halted = false → exec (.deadlinePass t) s = .next (s.dropFrame t.val))
          ∧ (x.lateDrop = false ∨ s.dbg.halted = true → ∃ u y, exec (.deadlinePass t) s = .next u ∧ u.run? t.val = some y
              ∧ y.missStage = some x.openStage))
        ∧ (s.time ≤ d ∨ x.allDone = true ∨ x.missStage.isSome = true → exec (.deadlinePass t) s = .next s))
    ∧ (s.fabricRuns = true → ∃ a, a = s.markCore core.val ∧ Table.get false a.life.failed core.val = true
        ∧ (s.coreOwner core.val = none → exec (.coreFault core) s
            = .next (a.logEvent 0x33 0x40 (leBytes 1 core.val ++ zeroBytes 4) [.dev Trb.coreFault.bit]))
        ∧ (∀ k x, s.coreOwner core.val = some (k, x) → exec (.coreFault core) s
            = .next ((a.logEvent 0x33 (fnByte x.fn) (leBytes 1 core.val ++ leBytes 4 (s.handleAt x.bind).toNat)
              [.dev Trb.coreFault.bit, .fn x.fn FnTrb.coreFault.bit]).stopRun k { status := St.coreFault })))
    ∧ (s.fabricRuns = false → exec (.coreFault core) s = .next s)
    ∧ (∀ a b, a = ({ s with dbg := { s.dbg with attached := true } }).refreshDoms s → s.restoring = false →
        (1 ≤ s.dbg.scope.toNat → s.dbg.halted = true → b = a.startCp →
          exec .resume s = .next (((b.dropsDue.foldl State.dropAfterHalt b).retarget).dbgDone true))
        ∧ (1 ≤ s.dbg.scope.toNat → s.dbg.halted = false → exec .resume s = .next (a.dbgDone true))
        ∧ (s.dbg.scope = 0 → exec .resume s = .next (a.dbgDone false)))

/-- On an enabled receiver of a running device, a Frame Start for a slot takes the next free buffer of its ring with
its stamp and number; with none free it takes the oldest unconsumed one and counts an overrun; for a channel or data
type with no open slot it is counted. A good line of an open frame is stored as its data type's stored form, with
zeros up to the pitch, at the next line of the buffer; a line with a bad CRC or a short one is stored poisoned. A
header whose one-bit error was corrected is counted and its packet taken; a packet with a broken header and one with a
PHY error are counted. A Frame Start inside a frame closes that frame first; a line past the height is counted and a
discarded frame's lines are dropped. A Frame End closes the channel's open frames: the buffer is unconsumed, with
lines that lack written as poisoned zeros; so does a frame without a packet for 100 ms. A disabled receiver takes
nothing. (R350, R351, R353, R354, R355, R356, R358, 13_video_and_weft.md) -/
def Obligations.CapturesFillTheirBuffers : Prop :=
  ∀ (s : State) (r : Fin 2) (vc : Fin 16) (dt : BitVec 6) (no : BitVec 16) (i : Nat) (p : Bytes) (crc fx : Bool),
    (s.rxRuns r.val = false → exec (.csiFrameStart r { vc := vc, fixed := fx } dt no) s = .next s ∧ exec (.csiLine r vc .badHeader) s = .next s
      ∧ exec (.csiFrameEnd r { vc := vc, fixed := fx }) s = .next s)
    ∧ (∀ b a, s.rxRuns r.val = true → b = s.clockHigh r.val → a = b.headerFixed r.val fx →
        (a.slotAt r.val vc.val dt.toNat = none → exec (.csiFrameStart r { vc := vc, fixed := fx } dt no) s = .next (a.updRx r.val Csi.countUnbound))
        ∧ (a.slotAt r.val vc.val dt.toNat = some i →
          ((s.slot i).frame = none → exec (.csiFrameStart r { vc := vc, fixed := fx } dt no) s = .next (a.startFrame i no))
          ∧ ((s.slot i).frame.isSome = true → exec (.csiFrameStart r { vc := vc, fixed := fx } dt no) s
              = .next (((a.updRx r.val Csi.countSync).closeFrame i).startFrame i no)))
        ∧ exec (.csiLine r vc .badHeader) s = .next (b.updRx r.val fun x => { x with ecc2 := satInc x.ecc2 1 })
        ∧ exec (.csiLine r vc .phyError) s = .next (b.updRx r.val fun x => { x with phy := satInc x.phy 1 })
        ∧ (a.slotAt r.val vc.val dt.toNat = none →
            exec (.csiLine r vc (.line dt fx crc p)) s = .next (a.updRx r.val Csi.countUnbound))
        ∧ (∀ f, a.slotAt r.val vc.val dt.toNat = some i → (s.slot i).frame = some f →
          (f.discard = false → f.line < (s.slot i).height → exec (.csiLine r vc (.line dt fx crc p)) s
              = .next (a.storeLine i { f with last := s.time } crc (storedForm (s.slot i).dtype p)))
          ∧ (f.discard = false → (s.slot i).height ≤ f.line → exec (.csiLine r vc (.line dt fx crc p)) s
              = .next ((a.updSlot i fun y => { y with frame := some { f with last := s.time } }).updRx (s.slot i).receiver Csi.countLen))
          ∧ (f.discard = true → exec (.csiLine r vc (.line dt fx crc p)) s
              = .next (a.updSlot i fun y => { y with frame := some { f with last := s.time } }))))
    ∧ (∀ u, u = s.headerFixed r.val fx → (u.rx r.val).ecc1 = (if fx = true then satInc (s.rx r.val).ecc1 1 else (s.rx r.val).ecc1))
    ∧ (∀ b d, (s.slot i).nextFree = some b → s.capturePlace (s.slot i) b = some d → ∃ u, s.startFrame i no = u
        ∧ (u.slot i).frame = some { buf := b, base := d, stamp := s.time, frameNo := no, last := s.time }
        ∧ (u.slot i).nextBuf = (b + 1) % (s.slot i).nbuf ∧ (u.slot i).overruns = (s.slot i).overruns)
    ∧ (∀ b d, (s.slot i).nextFree = none → (s.slot i).oldest = some b → s.capturePlace (s.slot i) b = some d → ∃ u, s.startFrame i no = u
        ∧ (u.slot i).frame = some { buf := b, base := d, stamp := s.time, frameNo := no, last := s.time }
        ∧ (u.slot i).overruns = satInc (s.slot i).overruns 1)
    ∧ ((s.slot i).nextFree = none → (s.slot i).oldest = none → ∃ u f, s.startFrame i no = u ∧ (u.slot i).frame = some f
        ∧ f.discard = true ∧ (u.slot i).overruns = satInc (s.slot i).overruns 1)
    ∧ (∀ f d k, (s.slot i).rowBytes ≤ (s.slot i).pitch → d.length = (s.slot i).rowBytes → k < (s.slot i).pitch →
        Table.get 0 (s.storeLine i f crc d).addr.lp5x (f.base + f.line * (s.slot i).pitch + k) = d.getD k 0
        ∧ ((s.storeLine i f crc d).slot i).frame = some { f with line := f.line + 1, poisoned := f.poisoned || crc })
    ∧ (∀ l a, s.rxRuns r.val = true → a = (s.clockFree r.val).headerFixed r.val fx → l = s.slotsAt r.val vc.val →
        (l ≠ [] → exec (.csiFrameEnd r { vc := vc, fixed := fx }) s = .next (l.foldl State.closeFrame a))
        ∧ (l = [] → exec (.csiFrameEnd r { vc := vc, fixed := fx }) s = .next (a.updRx r.val Csi.countUnbound)))
    ∧ (∀ f, (s.slot i).frame = some f → f.discard = false → f.line = (s.slot i).height →
        s.closeFrame i = ((s.updSlot i fun y => { y with
          frame := none
          ends := (s.slot i).ends + 1
          bufs := Table.set {} y.bufs f.buf { state := .unconsumed, stamp := f.stamp, frameNo := f.frameNo, poisoned := f.poisoned
                                              order := (s.slot i).ends } }).stat (s.slot i).fn 22 1).feedFrame i)
    ∧ (∀ k : Fin 16, ∀ f, (s.slot k.val).frame = some f → s.life.phase = .running →
        (s.usSince f.last 100000 = true → exec (.csiFrameTimeout k) s
          = .next (((s.clockFree (s.slot k.val).receiver).updRx (s.slot k.val).receiver Csi.countSync).closeFrame k.val))
        ∧ (s.usSince f.last 100000 = false → exec (.csiFrameTimeout k) s = .next s))
    ∧ (∀ k : Fin 16, (s.slot k.val).frame = none → exec (.csiFrameTimeout k) s = .next s)

/-- On a port that is up, a sequenced flit whose CRC is good, whose number is the expected one and for which the
buffer has room is accepted: the expected number rises by one, the NAK state is cleared, the flit joins the buffer and
counts for the next ACK; then the buffer drains. Any other of its kind is discarded: its credit is returned, and the
first one sends a NAK with the expected number; a bad CRC is counted. A good flit of another kind only shows that the
port lives. A drained message to this chip is carried out while the firmware runs and nothing makes it wait, a line
without a channel goes, and a flit for another chip is sent on by the other port, or back if that is down; each
returns a credit. A port that has sent what it may sends an IDLE. An ACK frees what it covers, a NAK resends from the
number it names, 8 microseconds without progress resend from the oldest, and after sixteen resends in a row without
progress the port goes down. A CREDIT adds one credit up to 512. An ACK that is due carries the number of the last
flit accepted. (R361, R363, R364, R365, R370, 13_video_and_weft.md) -/
def Obligations.FlitsAreTakenInOrderAndAcknowledged : Prop :=
  ∀ (s : State) (i : Fin 2) (f : Bytes), s.portOn i.val = true →
    (Flit.good f = false →
      exec (.weftDataFlit i f) s = .next ((s.countCrc i.val).discardFlit i.val)
      ∧ exec (.weftCtrlFlit i f) s = .next ((s.countCrc i.val).discardFlit i.val)
      ∧ exec (.weftAck i f) s = .next (s.countCrc i.val) ∧ exec (.weftNak i f) s = .next (s.countCrc i.val)
      ∧ exec (.weftCredit i f) s = .next (s.countCrc i.val) ∧ exec (.weftHello i f) s = .next (s.countCrc i.val)
      ∧ ((s.countCrc i.val).port i.val).errCrc = satInc (s.port i.val).errCrc 1)
    ∧ (∀ kind cmd, (kind = 1 ∧ cmd = Instr.weftDataFlit i f) ∨ (kind = 2 ∧ cmd = Instr.weftCtrlFlit i f) →
        Flit.good f = true → Flit.kind f = kind →
        (Flit.seq f = (s.port i.val).rxSeq.toNat → (s.port i.val).rxBuf.length < 512 →
          exec cmd s = .next ((s.sawGood i.val).acceptFlit i.val f))
        ∧ (Flit.seq f ≠ (s.port i.val).rxSeq.toNat ∨ 512 ≤ (s.port i.val).rxBuf.length →
          exec cmd s = .next ((s.sawGood i.val).discardFlit i.val)))
    ∧ (Flit.good f = true →
        (Flit.kind f ≠ 1 → exec (.weftDataFlit i f) s = .next (s.sawGood i.val))
        ∧ (Flit.kind f ≠ 2 → exec (.weftCtrlFlit i f) s = .next (s.sawGood i.val))
        ∧ (s.sawGood i.val).port i.val = { s.port i.val with lastGood := s.time })
    ∧ (∃ b : State, s.acceptFlit i.val f = b.drain i.val ∧ (b.port i.val).rxSeq = (s.port i.val).rxSeq + 1 ∧ (b.port i.val).nakSent = false
        ∧ (b.port i.val).rxBuf = (s.port i.val).rxBuf ++ [f]
        ∧ (b.port i.val).unackedRx = (if 32 ≤ (s.port i.val).unackedRx then 1 else (s.port i.val).unackedRx + 1))
    ∧ (∃ d e, let credit := Out.flit i.val (flitSeal 0 (flitBody 5 d s.self false 0 []))
        let nak := Out.flit i.val (flitSeal (s.port i.val).rxSeq.toNat (flitBody 4 e s.self false 0 []))
        (s.discardFlit i.val).out = s.out ++ (if (s.port i.val).nakSent = true then [credit] else [credit, nak])
        ∧ ((s.discardFlit i.val).port i.val).nakSent = true ∧ (s.dropRx i.val f).out = s.out ++ [credit])
    ∧ (∀ w, w = s.ctrlWaits (Flit.src f) (Config.ctrlMessage (Flit.payload f)) → Flit.dst f = s.self → Flit.kind f = 2 →
        s.drainList i.val false [f] = if s.fwRuns = false then s else if w.2 = true then w.1
          else (s.dropRx i.val f).ctrlIn (Flit.src f) (Config.ctrlMessage (Flit.payload f)))
    ∧ (Flit.dst f = s.self → Flit.kind f = 1 → s.drainList i.val false [f] = if s.chanRun f = none then s.dropRx i.val f else s)
    ∧ (Flit.dst f ≠ s.self → (s.port (1 - i.val)).up = true → (s.port (1 - i.val)).waiting.length < 64 →
        s.drainList i.val false [f] = (s.sendOn (1 - i.val) (f.take 68)).dropRx i.val f)
    ∧ (Flit.dst f ≠ s.self → (s.port (1 - i.val)).up = true → 64 ≤ (s.port (1 - i.val)).waiting.length → s.drainList i.val false [f] = s)
    ∧ (Flit.dst f ≠ s.self → (s.port (1 - i.val)).up = false → (s.port i.val).waiting.length < 64 →
        s.drainList i.val false [f] = (s.sendOn i.val (f.take 68)).dropRx i.val f)
    ∧ (∃ l d, (s.pump i.val).out = s.out ++ l ++ [.flit i.val (flitSeal 0 (flitBody 0 d s.self false 0 []))])
    ∧ (Flit.good f = true → Flit.kind f = 3 → exec (.weftAck i f) s
        = .next ((((s.sawGood i.val).updPort i.val fun p => p.ack (Flit.seq f) s.time).pump i.val).drain (1 - i.val)))
    ∧ (∀ (p : Port) n, n = (Flit.seq f + 1 + 4096 - p.txSeq.toNat) % 4096 → 1 ≤ n → n ≤ p.unacked.length →
        p.ack (Flit.seq f) s.time = { p with
          txSeq := BitVec.ofNat 12 (Flit.seq f + 1), unacked := p.unacked.drop n, cur := p.cur - n, resends := 0, lastAck := s.time })
    ∧ (∀ n, n = (Flit.seq f + 4096 - (s.port i.val).txSeq.toNat) % 4096 → Flit.good f = true → Flit.kind f = 4 →
        exec (.weftNak i f) s
          = .next (if n < (s.port i.val).unacked.length then (s.sawGood i.val).resend i.val n else s.sawGood i.val))
    ∧ ((s.port i.val).unacked ≠ [] → exec (.weftResendTimeout i) s
        = .next (if s.usSince (s.port i.val).lastAck 8 = true then s.resend i.val 0 else s))
    ∧ ((s.port i.val).unacked = [] → exec (.weftResendTimeout i) s = .next s)
    ∧ (∀ n, ∃ a : State, a = s.updPort i.val (fun p => { p with
          cur := n, resends := p.resends + 1, errResend := satInc p.errResend 1, lastAck := s.time })
        ∧ s.resend i.val n = if (s.port i.val).resends < 16 then a.pump i.val else (s.portDown i.val 1).settleAll.retarget)
    ∧ (Flit.good f = true → Flit.kind f = 5 → exec (.weftCredit i f) s
        = .next ((((s.sawGood i.val).updPort i.val fun p => { p with credits := min 512 (p.credits + 1) }).pump i.val).drain (1 - i.val)))
    ∧ (32 ≤ (s.port i.val).unackedRx ∨ ((s.port i.val).unackedRx ≠ 0 ∧ s.usSince (s.port i.val).rxSince 1 = true) →
        ∃ u d, exec (.weftAckDue i) s = .next u ∧ (u.port i.val).unackedRx = 0
          ∧ u.out = s.out ++ [.flit i.val (flitSeal ((s.port i.val).rxSeq.toNat + 4095) (flitBody 3 d s.self false 0 []))])
    ∧ ((s.port i.val).unackedRx = 0 → exec (.weftAckDue i) s = .next s)

/-- A HELLO that shows the own chip, the own port number, or the other port's neighbour on a ring of more than two
chips, holds its port down, sets the configuration error and is logged; another names its neighbour with its epoch and
the peers of its live map. A HELLO goes out by each port that is up, with the chip ID in byte 0, the port in byte 1,
the epoch in bytes 4 to 7 and the live map in byte 8. A lane that loses lock and 100 microseconds without a good flit
take a port down: it is cut, one entry is logged, and peers that only it reached are lost. A trained port that is
enabled and not held comes up with number 0 and 512 credits. A peer is lost without a path, or 1 ms after its last
HELLO: it is not live, its channels go, and the ring jobs it takes part in are told. (R365, R367, R368, R369, R371,
13_video_and_weft.md) -/
def Obligations.PortsAndPeersComeAndGo : Prop :=
  ∀ (s : State) (i : Fin 2) (f : Bytes) (c : Fin 4),
    (∀ d chip port map a, s.portOn i.val = true → Flit.good f = true → Flit.kind f = 6 → d = Flit.payload f → chip = leAt d 0 1 →
      port = leAt d 1 1 → map = leAt d 8 1 → a = s.sawGood i.val →
      (a.helloWrong i.val chip port map = true → exec (.weftHello i f) s = .next (a.holdPort i.val chip port).settleAll.retarget)
      ∧ (a.helloWrong i.val chip port map = false → exec (.weftHello i f) s = .next
          ((a.helloNeighbour i.val (chip % 4) (BitVec.ofNat 32 (leAt d 4 4))).helloMap i.val (chip % 4) map).settleAll.retarget))
    ∧ (∀ chip port map, s.helloWrong i.val chip port map = true ↔ chip = s.self ∨ port = i.val
        ∨ ((s.port (1 - i.val)).neighbour = some chip ∧ 2 < mapCount (s.liveMap ||| map ||| 2 ^ chip)))
    ∧ (∀ chip port, ∃ a b : State, (a.port i.val).heldDown = true ∧ (a.port i.val).up = false
        ∧ b = { a.pathLost i.val with weft := { (a.pathLost i.val).weft with configErr := true } }
        ∧ s.holdPort i.val chip port = (b.logEvent 0x51 devByte (leBytes 1 i.val ++ leBytes 1 chip ++ leBytes 1 port)
            [.dev Trb.weftConfig.bit]).tick.traceEmit 5 none false 0x40 i.val 0 (Config.freeWord s.fresh))
    ∧ (∃ u, ∃ d : Nat → Nat, exec .weftHelloSend s = .next u ∧ u.out = s.out ++ ((List.range 2).filter fun j => s.portOn j).map fun j =>
        .flit j (flitSeal 0 (flitBody 6 (d j) s.self false 0 (s.hello j))))
    ∧ (leAt (s.hello i.val) 0 1 = s.self ∧ leAt (s.hello i.val) 1 1 = i.val ∧ leAt (s.hello i.val) 4 4 = s.life.epoch.toNat
        ∧ leAt (s.hello i.val) 8 1 = s.liveMap)
    ∧ exec (.weftLaneLockLoss i) s = .next (s.portDown i.val 0).settleAll.retarget
    ∧ (s.portOn i.val = true → exec (.weftSilenceTimeout i) s
        = .next (if s.usSince (s.port i.val).lastGood 100 = true then (s.portDown i.val 2).settleAll.retarget else s))
    ∧ (∀ r, (s.port i.val).up = true → ∃ a : State, a.port i.val = (s.port i.val).cut
        ∧ s.portDown i.val r = ((a.logEvent 0x50 devByte (leBytes 1 i.val ++ leBytes 1 r) []).traceEmit 5 none false 0x40 i.val 0
            (BitVec.ofNat 32 r)).pathLost i.val)
    ∧ (∀ r, (s.port i.val).up = false → s.portDown i.val r = s)
    ∧ (s.weftRuns = true → (s.port i.val).up = false → (s.port i.val).heldDown = false → bitOf s.weft.portEn i.val = true →
        ∃ u, exec (.weftPortUp i) s = .next u ∧ (u.port i.val).up = true ∧ (u.port i.val).credits = 512 ∧ (u.port i.val).txSeq = 0
          ∧ (u.port i.val).rxSeq = 0 ∧ (u.port i.val).unacked = [])
    ∧ ((s.port i.val).up = true ∨ (s.port i.val).heldDown = true ∨ bitOf s.weft.portEn i.val = false ∨ s.weftRuns = false →
        exec (.weftPortUp i) s = .next s)
    ∧ ((s.peer c.val).live = true →
        ((s.peer c.val).ports = 0 ∨ s.usSince (s.peer c.val).last 1000 = true →
          exec (.peerTimeout c) s = .next (s.peerDown c.val).settleAll.retarget)
        ∧ ((s.peer c.val).ports ≠ 0 → s.usSince (s.peer c.val).last 1000 = false → exec (.peerTimeout c) s = .next s)
        ∧ ∃ (a : State) (ks : List Nat), (a.peer c.val).live = false ∧ (∀ x ∈ a.weft.chans, x.peer ≠ c.val)
            ∧ (∀ k, k ∈ ks ↔ ∃ p ∈ s.binds, p.1 = k ∧ p.2.live = true ∧ p.2.lead = none ∧ (c.val ∈ p.2.parts ∨ c.val ∈ p.2.awaits))
            ∧ s.peerDown c.val = (ks.foldl (fun (t : State) k => t.partAnswer k c.val St.peerLost) a).leadLost c.val)
    ∧ ((s.peer c.val).live = false → exec (.peerTimeout c) s = .next s)

/-- IDCODE shifts out 0x1C20_0A6B in 32 bits. DBG_STATUS shifts out 96 bits: the unique ID in bits 63:0, the scope in
65:64, halted in 66, busy in 67, the unlock failures in 71:68, and zero above. The boundary-scan instructions shift
the register's length, whose value and pins the spec leaves open, and keep what is shifted in. Every code that the
table does not list acts as BYPASS: one bit of delay, which shifts out a 0 first; a code that it lists is no BYPASS.
They change nothing else. When the trace FIFO has room after drops, one LOST packet with their number and aux 0 joins
it and the number is 0 again; without drops, without room or with the trace off nothing happens. (R571, R588,
22_debug_trace_long_runs.md) -/
def Obligations.TapInstructionsAndTheLostPacket : Prop :=
  ∀ (s : State) (scan len : Nat) (code : BitVec 8),
    exec .idcode s = .next (s.emit (.tdo 32 0x1C200A6B))
    ∧ (∃ v, exec .dbgStatus s = .next (s.emit (.tdo 96 v)) ∧ v % 2 ^ 64 = s.fuses.uid.toNat ∧ v / 2 ^ 64 % 4 = s.dbg.scope.toNat
        ∧ v / 2 ^ 66 % 2 = b2n s.dbg.halted ∧ v / 2 ^ 67 % 2 = b2n s.restoring ∧ v / 2 ^ 68 = s.dbg.fails.toNat)
    ∧ (∃ u, exec (.extest scan) s = .next u ∧ u.out = s.out ++ [.tdo Config.bsrLen s.dbg.bsr]
        ∧ u = { s with out := u.out, dbg := { s.dbg with bsr := scan % 2 ^ Config.bsrLen } })
    ∧ (∃ u v, exec (.samplePreload scan) s = .next u ∧ v < 2 ^ Config.bsrLen ∧ u.out = s.out ++ [.tdo Config.bsrLen v]
        ∧ u = { s with out := u.out, fresh := s.fresh + 1, dbg := { s.dbg with bsr := scan % 2 ^ Config.bsrLen } })
    ∧ (code.toNat ∉ [0x00, 0x01, 0x02, 0x20, 0x21] → ∃ v, exec (.bypass code len scan) s = .next (s.emit (.tdo len v))
        ∧ ∀ k, Nat.testBit v k = (decide (k < len) && decide (k ≠ 0) && Nat.testBit scan (k - 1)))
    ∧ (code.toNat ∈ [0x00, 0x01, 0x02, 0x20, 0x21] → exec (.bypass code len scan) s = .next s)
    ∧ (s.trace.dropped ≠ 0 → s.trace.fifo.length < 256 → s.trace.en = true → exec .traceLostEmit s = .next { s with trace := { s.trace with
        fifo := s.trace.fifo ++ [tracePacket s.time 0x03 0 0 0 (BitVec.ofNat 32 (min s.trace.dropped 0xFFFFFFFF))], dropped := 0 } })
    ∧ (s.trace.dropped = 0 ∨ 256 ≤ s.trace.fifo.length ∨ s.trace.en = false → exec .traceLostEmit s = .next s)

/-- A debug access attaches the debugger. While a restore command has not ended it shows busy and starts nothing;
below its scope it is denied and does nothing; at its scope it acts: peeks, HALT, STEP and pokes of the TRACE block
need OBSERVE, every other poke and the restore commands FULL, LOCK and the unlock commands nothing. A peek of BAR 0
gives the value that the host would read, says whether that read had an effect, and has none; a poke is the function's
write, and one of the firmware's service registers is denied. HALT of a running CP halts it and brings the device to
RL0. A good token grants its scope, a bad one counts a failure, and after eight every check is denied. The restore
commands are denied unless the restore service is on: an erase queues blocks 0 to 47 of the slot, a load sets one word
of the buffer, a program queues it at its code word, a commit of a valid slot that is neither pending nor in trial,
with room for a mark, queues it, one of a pending slot does nothing, and any other is denied. (R559, R572, R573, R574,
R575, R577, R579, R580, R583, 22_debug_trace_long_runs.md) -/
def Obligations.DebugAccessesNeedTheirScope : Prop :=
  ∀ (s a : State) (sp : DbgSpace) (f : FnId) (ad : BitVec 40) (v : Word) (ix : BitVec 16),
    a = ({ s with dbg := { s.dbg with attached := true } }).refreshDoms s → s.restoring = false →
    (∀ c n u, (c = Instr.dbgPeek sp f ad ∧ n = 1 ∧ u = a.peek sp f.val (ad.toNat / 4 * 4))
        ∨ (c = .dbgPoke sp f ad v ∧ n = pokeScope sp f.val (ad.toNat / 4 * 4) ∧ u = a.poke sp f.val (ad.toNat / 4 * 4) v)
        ∨ (c = .halt ∧ n = 1 ∧ u = a.haltCp)
        ∨ (c = .step ∧ n = 1 ∧ u = (if a.dbg.halted = true then a.traceCp 2 else a).dbgDone true)
        ∨ (c = .lock ∧ n = 0 ∧ u = { a with dbg := { a.dbg with scope := 0 } }.dbgDone true)
        ∨ (c = .unlockLoad ix v ∧ n = 0 ∧ u = (if ix.toNat < 40 then
            { a with dbg := { a.dbg with token := Table.set 0 a.dbg.token ix.toNat v } }.dbgDone true else a.dbgDone false))
        ∨ (c = .unlockCheck ∧ n = 0 ∧ u = (if 8 ≤ a.dbg.fails.toNat then a.dbgDone false
            else if tokenOk a.fuses.uid a.dbg.tokenBytes = true then
              { a with dbg := { a.dbg with scope := BitVec.ofNat 2 (leAt a.dbg.tokenBytes 6 1) } }.dbgDone true
            else { a with dbg := { a.dbg with fails := satInc a.dbg.fails 1 } }.dbgDone true))
        ∨ (c = .restoreErase ix ∧ n = 2 ∧ u = (if a.restoreOn = true ∧ ix.toNat < 2 then
            a.restoreOps ((List.range 48).map fun l => (64 + ix.toNat, .erase l)) else a.dbgDone false))
        ∨ (c = .restoreLoad ix v ∧ n = 2 ∧ u = (if a.restoreOn = true ∧ ix.toNat < 64 then
            { a with dbg := { a.dbg with buffer := Table.set 0 a.dbg.buffer ix.toNat v } }.dbgDone true else a.dbgDone false))
        ∨ (c = .restoreProgram ix v ∧ n = 2 ∧ u = (if a.restoreOn = true ∧ ix.toNat < 49152 then
            a.restoreOps [(64 + bitsOf v 0 0, .program (ix.toNat / 1024) (ix.toNat % 1024) 1 (.bytes a.dbg.bufferBytes))]
            else a.dbgDone false))
        ∨ (c = .restoreCommit ix ∧ n = 2 ∧ u = (if a.restoreOn = false ∨ 2 ≤ ix.toNat then a.dbgDone false
            else if a.nvm.slotState ix.toNat = 1 then a.dbgDone true
            else if a.nvm.imageCheck ix.toNat a.fuses.rollback ≠ 0 ∨ a.nvm.slotState ix.toNat = 2 ∨ 16 ≤ a.nvm.marksUsed ix.toNat then
              (a.imageReads ix.toNat).dbgDone false
            else (a.imageReads ix.toNat).restoreOps [(64 + ix.toNat, markAct ix.toNat 1)])) →
        (n ≤ s.dbg.scope.toNat → exec c s = .next u)
        ∧ (s.dbg.scope.toNat < n → exec c s = .next (a.dbgAnswer { done := true, denied := true }))
        ∧ (∀ w : State, w.restoring = true → exec c w
            = .next ((({ w with dbg := { w.dbg with attached := true } }).refreshDoms w).dbgAnswer { busy := true })))
    ∧ (∀ o, s.peek .bar0 f.val o = { s with dbg := { s.dbg with result :=
        { done := true, se := s.readHasEffect f.val o, addr := BitVec.ofNat 40 o, data := s.latchValue f.val o } } })
    ∧ (∀ o, ∃ r, s.poke .bar0 f.val o v = (s.writeReg f.val o v).dbgAnswer r ∧ r.done = true ∧ r.denied = false)
    ∧ (∀ o, o = 4 ∨ o = 8 → ∃ r, s.poke .aon f.val o v = s.dbgAnswer r ∧ r.denied = true)
    ∧ (∀ o, pokeScope .bar0 f.val o = if f = 0 ∧ 0x10A00 ≤ o ∧ o < 0x10A40 then 1 else 2)
    ∧ (s.life.phase = .running → s.dbg.halted = false → s.haltCp.dbg.halted = true ∧ s.haltCp.power.level = 0
        ∧ s.haltCp.dbg.haltStart = s.time ∧ s.haltCp.dbg.result.done = true ∧ s.haltCp.fwRuns = false)
    ∧ (∀ l, (s.restoreOps l).nvm.ops = s.nvm.ops ++ l.map fun x => { bank := x.1, act := x.2, owner := .restore })
end

