-- ==== Sys2Proof/Laws/Table.lean ====
section
/-!
SUPPORT. The laws of the sparse tables: what a lookup gives after a write, and that every operation keeps the
canonical form. Every memory of the model is such a table.
-/

namespace Sys2Proof

/-! ## Bounds -/

theorem Table.above_mono {α : Type} {t : List (Nat × α)} {a b : Nat} (h : Table.above t b = true) (k : a ≤ b) :
    Table.above t a = true := by
  induction t with
  | nil => rfl
  | cons p t ih =>
    obtain ⟨n, v⟩ := p
    simp only [Table.above, Bool.and_eq_true, decide_eq_true_eq] at h ⊢
    exact ⟨by omega, ih h.2⟩

theorem Table.get_of_above {α : Type} (d : α) {t : List (Nat × α)} {a b : Nat} (h : Table.above t b = true) (k : a ≤ b) :
    Table.get d t a = d := by
  induction t with
  | nil => rfl
  | cons p t ih =>
    obtain ⟨n, v⟩ := p
    simp only [Table.above, Bool.and_eq_true, decide_eq_true_eq] at h
    simp only [Table.get]
    rw [if_neg (by omega), ih h.2]

theorem Table.above_erase {α : Type} {t : List (Nat × α)} {a b : Nat} (h : Table.above t b = true) :
    Table.above (Table.erase t a) b = true := by
  induction t with
  | nil => rfl
  | cons p t ih =>
    obtain ⟨n, v⟩ := p
    simp only [Table.above, Bool.and_eq_true] at h
    simp only [Table.erase]
    split
    · exact ih h.2
    · simp only [Table.above, Bool.and_eq_true]
      exact ⟨h.1, ih h.2⟩

theorem Table.above_insert {α : Type} {t : List (Nat × α)} {a b : Nat} {x : α} (h : Table.above t b = true) (k : b < a) :
    Table.above (Table.insert t a x) b = true := by
  induction t with
  | nil => simp [Table.insert, Table.above, k]
  | cons p t ih =>
    obtain ⟨n, v⟩ := p
    have h' := h
    simp only [Table.above, Bool.and_eq_true] at h'
    simp only [Table.insert]
    split
    · simp only [Table.above, Bool.and_eq_true, decide_eq_true_eq]
      exact ⟨k, by simpa [Table.above] using h⟩
    · split <;> simp only [Table.above, Bool.and_eq_true]
      · exact h'
      · exact ⟨h'.1, ih h'.2⟩

theorem Table.above_filter {α : Type} {t : List (Nat × α)} {b : Nat} {p : Nat × α → Bool} (h : Table.above t b = true) :
    Table.above (t.filter p) b = true := by
  induction t with
  | nil => rfl
  | cons q t ih =>
    obtain ⟨n, v⟩ := q
    simp only [Table.above, Bool.and_eq_true] at h
    simp only [List.filter]
    split
    · simp only [Table.above, Bool.and_eq_true]
      exact ⟨h.1, ih h.2⟩
    · exact ih h.2

/-! ## Canonical form -/

theorem Table.wf_erase {α : Type} [DecidableEq α] {d : α} {t : List (Nat × α)} {a : Nat} (h : Table.wf d t = true) :
    Table.wf d (Table.erase t a) = true := by
  induction t with
  | nil => rfl
  | cons p t ih =>
    obtain ⟨n, v⟩ := p
    simp only [Table.wf, Bool.and_eq_true] at h
    simp only [Table.erase]
    split
    · exact ih h.2
    · simp only [Table.wf, Bool.and_eq_true]
      exact ⟨⟨h.1.1, Table.above_erase h.1.2⟩, ih h.2⟩

theorem Table.wf_insert {α : Type} [DecidableEq α] {d : α} {t : List (Nat × α)} {a : Nat} {x : α} (h : Table.wf d t = true)
    (k : x ≠ d) : Table.wf d (Table.insert t a x) = true := by
  induction t with
  | nil => simp [Table.insert, Table.wf, Table.above, k]
  | cons p t ih =>
    obtain ⟨n, v⟩ := p
    have h' := h
    simp only [Table.wf, Bool.and_eq_true] at h'
    simp only [Table.insert]
    split
    · rename_i lt
      simp only [Table.wf, Table.above, Bool.and_eq_true, decide_eq_true_eq]
      refine ⟨⟨by simpa using k, lt, Table.above_mono h'.1.2 (by omega)⟩, by simpa [Table.wf] using h⟩
    · split
      · rename_i e
        simp only [Table.wf, Bool.and_eq_true]
        exact ⟨⟨by simpa using k, h'.1.2⟩, h'.2⟩
      · simp only [Table.wf, Bool.and_eq_true]
        exact ⟨⟨h'.1.1, Table.above_insert h'.1.2 (by omega)⟩, ih h'.2⟩

theorem Table.wf_set {α : Type} [DecidableEq α] {d : α} {t : List (Nat × α)} {a : Nat} {x : α} (h : Table.wf d t = true) :
    Table.wf d (Table.set d t a x) = true := by
  unfold Table.set
  split
  · exact Table.wf_erase h
  · exact Table.wf_insert h ‹_›

theorem Table.wf_upd {α : Type} [DecidableEq α] {d : α} {t : List (Nat × α)} {a : Nat} {f : α → α} (h : Table.wf d t = true) :
    Table.wf d (Table.upd d t a f) = true := Table.wf_set h

theorem Table.wf_filter {α : Type} [DecidableEq α] {d : α} {t : List (Nat × α)} {p : Nat × α → Bool} (h : Table.wf d t = true) :
    Table.wf d (t.filter p) = true := by
  induction t with
  | nil => rfl
  | cons q t ih =>
    obtain ⟨n, v⟩ := q
    simp only [Table.wf, Bool.and_eq_true] at h
    simp only [List.filter]
    split
    · simp only [Table.wf, Bool.and_eq_true]
      exact ⟨⟨h.1.1, Table.above_filter h.1.2⟩, ih h.2⟩
    · exact ih h.2

/-- A write of a byte string keeps the canonical form of a memory. -/
theorem wf_writeBytes {d : Byte} {m : List (Nat × Byte)} {a : Nat} {b : Bytes} (h : Table.wf d m = true) :
    Table.wf d (writeBytes d m a b) = true := by
  induction b generalizing m a with
  | nil => exact h
  | cons x b ih => exact ih (Table.wf_set h)

/-- Clearing a range keeps the canonical form. -/
theorem wf_clearRange {α : Type} [DecidableEq α] {d : α} {m : List (Nat × α)} {lo hi : Nat} (h : Table.wf d m = true) :
    Table.wf d (clearRange m lo hi) = true := Table.wf_filter h

/-! ## Lookup -/

theorem Table.get_erase_ne {α : Type} (d : α) {t : List (Nat × α)} {a b : Nat} (h : b ≠ a) :
    Table.get d (Table.erase t a) b = Table.get d t b := by
  induction t with
  | nil => rfl
  | cons p t ih =>
    obtain ⟨n, v⟩ := p
    simp only [Table.erase]
    split
    · rename_i e
      simp only [Table.get]
      rw [if_neg (by omega), ih]
    · simp only [Table.get, ih]

theorem Table.get_insert_ne {α : Type} (d : α) {t : List (Nat × α)} {a b : Nat} {x : α} (h : b ≠ a) :
    Table.get d (Table.insert t a x) b = Table.get d t b := by
  induction t with
  | nil => simp [Table.insert, Table.get, h]
  | cons p t ih =>
    obtain ⟨n, v⟩ := p
    simp only [Table.insert]
    split
    · simp only [Table.get, if_neg h]
    · split
      · rename_i e
        simp only [Table.get]
        rw [if_neg (by omega), if_neg (by omega)]
      · simp only [Table.get, ih]

theorem Table.get_insert_self {α : Type} (d : α) {t : List (Nat × α)} {a : Nat} {x : α} :
    Table.get d (Table.insert t a x) a = x := by
  induction t with
  | nil => simp [Table.insert, Table.get]
  | cons p t ih =>
    obtain ⟨n, v⟩ := p
    simp only [Table.insert]
    split
    · simp [Table.get]
    · split
      · rename_i e
        simp [Table.get, e]
      · rename_i e
        simp only [Table.get]
        rw [if_neg e, ih]

theorem Table.get_erase_self {α : Type} {d : α} {t : List (Nat × α)} {a : Nat} : Table.get d (Table.erase t a) a = d := by
  induction t with
  | nil => rfl
  | cons p t ih =>
    obtain ⟨n, v⟩ := p
    simp only [Table.erase]
    split
    · exact ih
    · rename_i e
      simp only [Table.get]
      rw [if_neg e, ih]

/-- Another key reads as before a write. -/
theorem Table.get_set_ne {α : Type} [DecidableEq α] (d : α) {t : List (Nat × α)} {a b : Nat} {x : α} (h : b ≠ a) :
    Table.get d (Table.set d t a x) b = Table.get d t b := by
  unfold Table.set
  split
  · exact Table.get_erase_ne d h
  · exact Table.get_insert_ne d h

/-- The key written reads as the value. -/
theorem Table.get_set_self {α : Type} [DecidableEq α] {d : α} {t : List (Nat × α)} {a : Nat} {x : α} :
    Table.get d (Table.set d t a x) a = x := by
  unfold Table.set
  split
  · rename_i e
    rw [Table.get_erase_self, e]
  · exact Table.get_insert_self d

theorem Table.find_erase_self {α : Type} {t : List (Nat × α)} {a : Nat} : Table.find (Table.erase t a) a = none := by
  induction t with
  | nil => rfl
  | cons p t ih =>
    obtain ⟨n, v⟩ := p
    simp only [Table.erase]
    split
    · exact ih
    · rename_i e
      simp only [Table.find]
      rw [if_neg e, ih]

theorem Table.find_erase_ne {α : Type} {t : List (Nat × α)} {a b : Nat} (h : b ≠ a) :
    Table.find (Table.erase t a) b = Table.find t b := by
  induction t with
  | nil => rfl
  | cons p t ih =>
    obtain ⟨n, v⟩ := p
    simp only [Table.erase]
    split
    · rename_i e
      simp only [Table.find]
      rw [if_neg (by omega), ih]
    · simp only [Table.find, ih]

theorem Table.find_insert_self {α : Type} {t : List (Nat × α)} {a : Nat} {x : α} :
    Table.find (Table.insert t a x) a = some x := by
  induction t with
  | nil => simp [Table.insert, Table.find]
  | cons p t ih =>
    obtain ⟨n, v⟩ := p
    simp only [Table.insert]
    split
    · simp [Table.find]
    · split
      · rename_i e
        simp [Table.find, e]
      · rename_i e
        simp only [Table.find]
        rw [if_neg e, ih]

theorem Table.find_insert_ne {α : Type} {t : List (Nat × α)} {a b : Nat} {x : α} (h : b ≠ a) :
    Table.find (Table.insert t a x) b = Table.find t b := by
  induction t with
  | nil => simp [Table.insert, Table.find, h]
  | cons p t ih =>
    obtain ⟨n, v⟩ := p
    simp only [Table.insert]
    split
    · simp only [Table.find, if_neg h]
    · split
      · simp only [Table.find]
        rw [if_neg (by omega), if_neg (by omega)]
      · simp only [Table.find, ih]

/-- Bytes outside a written range read as before. -/
theorem get_writeBytes_outside {d : Byte} {m : List (Nat × Byte)} {a x : Nat} {b : Bytes} (h : x < a ∨ a + b.length ≤ x) :
    Table.get d (writeBytes d m a b) x = Table.get d m x := by
  induction b generalizing m a with
  | nil => rfl
  | cons y b ih =>
    simp only [writeBytes, List.length_cons] at h ⊢
    rw [ih (by omega), Table.get_set_ne d (by omega)]

/-- A written byte reads back. -/
theorem get_writeBytes_inside {d : Byte} {m : List (Nat × Byte)} {a i : Nat} {b : Bytes}
    (h : i < b.length) : Table.get d (writeBytes d m a b) (a + i) = b.getD i 0 := by
  induction b generalizing m a i with
  | nil => simp at h
  | cons y b ih =>
    simp only [writeBytes]
    cases i with
    | zero =>
      rw [get_writeBytes_outside (by omega)]
      simp [Table.get_set_self]
    | succ i =>
      have := ih (m := Table.set d m a y) (a := a + 1) (i := i) (by simpa using h)
      rw [show a + (i + 1) = a + 1 + i by omega, this]
      simp

end Sys2Proof
end

