-- ==== Sys2Proof/Laws/State.lean ====
section
/-!
SUPPORT. What each update of a record of State reads as, field by field, and what a lookup gives after the update of the
record that it looks up.
-/

namespace Sys2Proof.Machine

/-! ## emit -/

@[simp] theorem State.emit_pending (s : State) (o : Out) : (s.emit o).pending = s.pending := rfl
@[simp] theorem State.emit_blocked (s : State) (o : Out) : (s.emit o).blocked = s.blocked := rfl
@[simp] theorem State.emit_fresh (s : State) (o : Out) : (s.emit o).fresh = s.fresh := rfl
@[simp] theorem State.emit_time (s : State) (o : Out) : (s.emit o).time = s.time := rfl
@[simp] theorem State.emit_pins (s : State) (o : Out) : (s.emit o).pins = s.pins := rfl
@[simp] theorem State.emit_fuses (s : State) (o : Out) : (s.emit o).fuses = s.fuses := rfl
@[simp] theorem State.emit_life (s : State) (o : Out) : (s.emit o).life = s.life := rfl
@[simp] theorem State.emit_pcie (s : State) (o : Out) : (s.emit o).pcie = s.pcie := rfl
@[simp] theorem State.emit_fns (s : State) (o : Out) : (s.emit o).fns = s.fns := rfl
@[simp] theorem State.emit_addr (s : State) (o : Out) : (s.emit o).addr = s.addr := rfl
@[simp] theorem State.emit_tenants (s : State) (o : Out) : (s.emit o).tenants = s.tenants := rfl
@[simp] theorem State.emit_trouble (s : State) (o : Out) : (s.emit o).trouble = s.trouble := rfl
@[simp] theorem State.emit_rings (s : State) (o : Out) : (s.emit o).rings = s.rings := rfl
@[simp] theorem State.emit_cmds (s : State) (o : Out) : (s.emit o).cmds = s.cmds := rfl
@[simp] theorem State.emit_order (s : State) (o : Out) : (s.emit o).order = s.order := rfl
@[simp] theorem State.emit_reads (s : State) (o : Out) : (s.emit o).reads = s.reads := rfl
@[simp] theorem State.emit_binds (s : State) (o : Out) : (s.emit o).binds = s.binds := rfl
@[simp] theorem State.emit_owners (s : State) (o : Out) : (s.emit o).owners = s.owners := rfl
@[simp] theorem State.emit_pace (s : State) (o : Out) : (s.emit o).pace = s.pace := rfl
@[simp] theorem State.emit_power (s : State) (o : Out) : (s.emit o).power = s.power := rfl
@[simp] theorem State.emit_wd (s : State) (o : Out) : (s.emit o).wd = s.wd := rfl
@[simp] theorem State.emit_dbg (s : State) (o : Out) : (s.emit o).dbg = s.dbg := rfl
@[simp] theorem State.emit_trace (s : State) (o : Out) : (s.emit o).trace = s.trace := rfl
@[simp] theorem State.emit_nvm (s : State) (o : Out) : (s.emit o).nvm = s.nvm := rfl
@[simp] theorem State.emit_fw (s : State) (o : Out) : (s.emit o).fw = s.fw := rfl
@[simp] theorem State.emit_csi (s : State) (o : Out) : (s.emit o).csi = s.csi := rfl
@[simp] theorem State.emit_slots (s : State) (o : Out) : (s.emit o).slots = s.slots := rfl
@[simp] theorem State.emit_weft (s : State) (o : Out) : (s.emit o).weft = s.weft := rfl
@[simp] theorem State.emit_comp (s : State) (o : Out) : (s.emit o).comp = s.comp := rfl
@[simp] theorem State.emit_perf (s : State) (o : Out) : (s.emit o).perf = s.perf := rfl

/-! ## tick -/

@[simp] theorem State.tick_pending (s : State) : s.tick.pending = s.pending := rfl
@[simp] theorem State.tick_out (s : State) : s.tick.out = s.out := rfl
@[simp] theorem State.tick_blocked (s : State) : s.tick.blocked = s.blocked := rfl
@[simp] theorem State.tick_time (s : State) : s.tick.time = s.time := rfl
@[simp] theorem State.tick_pins (s : State) : s.tick.pins = s.pins := rfl
@[simp] theorem State.tick_fuses (s : State) : s.tick.fuses = s.fuses := rfl
@[simp] theorem State.tick_life (s : State) : s.tick.life = s.life := rfl
@[simp] theorem State.tick_pcie (s : State) : s.tick.pcie = s.pcie := rfl
@[simp] theorem State.tick_fns (s : State) : s.tick.fns = s.fns := rfl
@[simp] theorem State.tick_addr (s : State) : s.tick.addr = s.addr := rfl
@[simp] theorem State.tick_tenants (s : State) : s.tick.tenants = s.tenants := rfl
@[simp] theorem State.tick_trouble (s : State) : s.tick.trouble = s.trouble := rfl
@[simp] theorem State.tick_rings (s : State) : s.tick.rings = s.rings := rfl
@[simp] theorem State.tick_cmds (s : State) : s.tick.cmds = s.cmds := rfl
@[simp] theorem State.tick_order (s : State) : s.tick.order = s.order := rfl
@[simp] theorem State.tick_reads (s : State) : s.tick.reads = s.reads := rfl
@[simp] theorem State.tick_binds (s : State) : s.tick.binds = s.binds := rfl
@[simp] theorem State.tick_owners (s : State) : s.tick.owners = s.owners := rfl
@[simp] theorem State.tick_pace (s : State) : s.tick.pace = s.pace := rfl
@[simp] theorem State.tick_power (s : State) : s.tick.power = s.power := rfl
@[simp] theorem State.tick_wd (s : State) : s.tick.wd = s.wd := rfl
@[simp] theorem State.tick_dbg (s : State) : s.tick.dbg = s.dbg := rfl
@[simp] theorem State.tick_trace (s : State) : s.tick.trace = s.trace := rfl
@[simp] theorem State.tick_nvm (s : State) : s.tick.nvm = s.nvm := rfl
@[simp] theorem State.tick_fw (s : State) : s.tick.fw = s.fw := rfl
@[simp] theorem State.tick_csi (s : State) : s.tick.csi = s.csi := rfl
@[simp] theorem State.tick_slots (s : State) : s.tick.slots = s.slots := rfl
@[simp] theorem State.tick_weft (s : State) : s.tick.weft = s.weft := rfl
@[simp] theorem State.tick_comp (s : State) : s.tick.comp = s.comp := rfl
@[simp] theorem State.tick_perf (s : State) : s.tick.perf = s.perf := rfl

/-! ## updFn -/

@[simp] theorem State.updFn_pending (s : State) (f : Nat) (g : FnSt → FnSt) : (s.updFn f g).pending = s.pending := rfl
@[simp] theorem State.updFn_out (s : State) (f : Nat) (g : FnSt → FnSt) : (s.updFn f g).out = s.out := rfl
@[simp] theorem State.updFn_blocked (s : State) (f : Nat) (g : FnSt → FnSt) : (s.updFn f g).blocked = s.blocked := rfl
@[simp] theorem State.updFn_fresh (s : State) (f : Nat) (g : FnSt → FnSt) : (s.updFn f g).fresh = s.fresh := rfl
@[simp] theorem State.updFn_time (s : State) (f : Nat) (g : FnSt → FnSt) : (s.updFn f g).time = s.time := rfl
@[simp] theorem State.updFn_pins (s : State) (f : Nat) (g : FnSt → FnSt) : (s.updFn f g).pins = s.pins := rfl
@[simp] theorem State.updFn_fuses (s : State) (f : Nat) (g : FnSt → FnSt) : (s.updFn f g).fuses = s.fuses := rfl
@[simp] theorem State.updFn_life (s : State) (f : Nat) (g : FnSt → FnSt) : (s.updFn f g).life = s.life := rfl
@[simp] theorem State.updFn_pcie (s : State) (f : Nat) (g : FnSt → FnSt) : (s.updFn f g).pcie = s.pcie := rfl
@[simp] theorem State.updFn_addr (s : State) (f : Nat) (g : FnSt → FnSt) : (s.updFn f g).addr = s.addr := rfl
@[simp] theorem State.updFn_tenants (s : State) (f : Nat) (g : FnSt → FnSt) : (s.updFn f g).tenants = s.tenants := rfl
@[simp] theorem State.updFn_trouble (s : State) (f : Nat) (g : FnSt → FnSt) : (s.updFn f g).trouble = s.trouble := rfl
@[simp] theorem State.updFn_rings (s : State) (f : Nat) (g : FnSt → FnSt) : (s.updFn f g).rings = s.rings := rfl
@[simp] theorem State.updFn_cmds (s : State) (f : Nat) (g : FnSt → FnSt) : (s.updFn f g).cmds = s.cmds := rfl
@[simp] theorem State.updFn_order (s : State) (f : Nat) (g : FnSt → FnSt) : (s.updFn f g).order = s.order := rfl
@[simp] theorem State.updFn_reads (s : State) (f : Nat) (g : FnSt → FnSt) : (s.updFn f g).reads = s.reads := rfl
@[simp] theorem State.updFn_binds (s : State) (f : Nat) (g : FnSt → FnSt) : (s.updFn f g).binds = s.binds := rfl
@[simp] theorem State.updFn_owners (s : State) (f : Nat) (g : FnSt → FnSt) : (s.updFn f g).owners = s.owners := rfl
@[simp] theorem State.updFn_pace (s : State) (f : Nat) (g : FnSt → FnSt) : (s.updFn f g).pace = s.pace := rfl
@[simp] theorem State.updFn_power (s : State) (f : Nat) (g : FnSt → FnSt) : (s.updFn f g).power = s.power := rfl
@[simp] theorem State.updFn_wd (s : State) (f : Nat) (g : FnSt → FnSt) : (s.updFn f g).wd = s.wd := rfl
@[simp] theorem State.updFn_dbg (s : State) (f : Nat) (g : FnSt → FnSt) : (s.updFn f g).dbg = s.dbg := rfl
@[simp] theorem State.updFn_trace (s : State) (f : Nat) (g : FnSt → FnSt) : (s.updFn f g).trace = s.trace := rfl
@[simp] theorem State.updFn_nvm (s : State) (f : Nat) (g : FnSt → FnSt) : (s.updFn f g).nvm = s.nvm := rfl
@[simp] theorem State.updFn_fw (s : State) (f : Nat) (g : FnSt → FnSt) : (s.updFn f g).fw = s.fw := rfl
@[simp] theorem State.updFn_csi (s : State) (f : Nat) (g : FnSt → FnSt) : (s.updFn f g).csi = s.csi := rfl
@[simp] theorem State.updFn_slots (s : State) (f : Nat) (g : FnSt → FnSt) : (s.updFn f g).slots = s.slots := rfl
@[simp] theorem State.updFn_weft (s : State) (f : Nat) (g : FnSt → FnSt) : (s.updFn f g).weft = s.weft := rfl
@[simp] theorem State.updFn_comp (s : State) (f : Nat) (g : FnSt → FnSt) : (s.updFn f g).comp = s.comp := rfl
@[simp] theorem State.updFn_perf (s : State) (f : Nat) (g : FnSt → FnSt) : (s.updFn f g).perf = s.perf := rfl

/-! ## updRing -/

@[simp] theorem State.updRing_pending (s : State) (f r : Nat) (g : Ring → Ring) : (s.updRing f r g).pending = s.pending := rfl
@[simp] theorem State.updRing_out (s : State) (f r : Nat) (g : Ring → Ring) : (s.updRing f r g).out = s.out := rfl
@[simp] theorem State.updRing_blocked (s : State) (f r : Nat) (g : Ring → Ring) : (s.updRing f r g).blocked = s.blocked := rfl
@[simp] theorem State.updRing_fresh (s : State) (f r : Nat) (g : Ring → Ring) : (s.updRing f r g).fresh = s.fresh := rfl
@[simp] theorem State.updRing_time (s : State) (f r : Nat) (g : Ring → Ring) : (s.updRing f r g).time = s.time := rfl
@[simp] theorem State.updRing_pins (s : State) (f r : Nat) (g : Ring → Ring) : (s.updRing f r g).pins = s.pins := rfl
@[simp] theorem State.updRing_fuses (s : State) (f r : Nat) (g : Ring → Ring) : (s.updRing f r g).fuses = s.fuses := rfl
@[simp] theorem State.updRing_life (s : State) (f r : Nat) (g : Ring → Ring) : (s.updRing f r g).life = s.life := rfl
@[simp] theorem State.updRing_pcie (s : State) (f r : Nat) (g : Ring → Ring) : (s.updRing f r g).pcie = s.pcie := rfl
@[simp] theorem State.updRing_fns (s : State) (f r : Nat) (g : Ring → Ring) : (s.updRing f r g).fns = s.fns := rfl
@[simp] theorem State.updRing_addr (s : State) (f r : Nat) (g : Ring → Ring) : (s.updRing f r g).addr = s.addr := rfl
@[simp] theorem State.updRing_tenants (s : State) (f r : Nat) (g : Ring → Ring) : (s.updRing f r g).tenants = s.tenants := rfl
@[simp] theorem State.updRing_trouble (s : State) (f r : Nat) (g : Ring → Ring) : (s.updRing f r g).trouble = s.trouble := rfl
@[simp] theorem State.updRing_cmds (s : State) (f r : Nat) (g : Ring → Ring) : (s.updRing f r g).cmds = s.cmds := rfl
@[simp] theorem State.updRing_order (s : State) (f r : Nat) (g : Ring → Ring) : (s.updRing f r g).order = s.order := rfl
@[simp] theorem State.updRing_reads (s : State) (f r : Nat) (g : Ring → Ring) : (s.updRing f r g).reads = s.reads := rfl
@[simp] theorem State.updRing_binds (s : State) (f r : Nat) (g : Ring → Ring) : (s.updRing f r g).binds = s.binds := rfl
@[simp] theorem State.updRing_owners (s : State) (f r : Nat) (g : Ring → Ring) : (s.updRing f r g).owners = s.owners := rfl
@[simp] theorem State.updRing_pace (s : State) (f r : Nat) (g : Ring → Ring) : (s.updRing f r g).pace = s.pace := rfl
@[simp] theorem State.updRing_power (s : State) (f r : Nat) (g : Ring → Ring) : (s.updRing f r g).power = s.power := rfl
@[simp] theorem State.updRing_wd (s : State) (f r : Nat) (g : Ring → Ring) : (s.updRing f r g).wd = s.wd := rfl
@[simp] theorem State.updRing_dbg (s : State) (f r : Nat) (g : Ring → Ring) : (s.updRing f r g).dbg = s.dbg := rfl
@[simp] theorem State.updRing_trace (s : State) (f r : Nat) (g : Ring → Ring) : (s.updRing f r g).trace = s.trace := rfl
@[simp] theorem State.updRing_nvm (s : State) (f r : Nat) (g : Ring → Ring) : (s.updRing f r g).nvm = s.nvm := rfl
@[simp] theorem State.updRing_fw (s : State) (f r : Nat) (g : Ring → Ring) : (s.updRing f r g).fw = s.fw := rfl
@[simp] theorem State.updRing_csi (s : State) (f r : Nat) (g : Ring → Ring) : (s.updRing f r g).csi = s.csi := rfl
@[simp] theorem State.updRing_slots (s : State) (f r : Nat) (g : Ring → Ring) : (s.updRing f r g).slots = s.slots := rfl
@[simp] theorem State.updRing_weft (s : State) (f r : Nat) (g : Ring → Ring) : (s.updRing f r g).weft = s.weft := rfl
@[simp] theorem State.updRing_comp (s : State) (f r : Nat) (g : Ring → Ring) : (s.updRing f r g).comp = s.comp := rfl
@[simp] theorem State.updRing_perf (s : State) (f r : Nat) (g : Ring → Ring) : (s.updRing f r g).perf = s.perf := rfl

/-! ## updBind -/

@[simp] theorem State.updBind_pending (s : State) (k : Nat) (g : Binding → Binding) : (s.updBind k g).pending = s.pending := rfl
@[simp] theorem State.updBind_out (s : State) (k : Nat) (g : Binding → Binding) : (s.updBind k g).out = s.out := rfl
@[simp] theorem State.updBind_blocked (s : State) (k : Nat) (g : Binding → Binding) : (s.updBind k g).blocked = s.blocked := rfl
@[simp] theorem State.updBind_fresh (s : State) (k : Nat) (g : Binding → Binding) : (s.updBind k g).fresh = s.fresh := rfl
@[simp] theorem State.updBind_time (s : State) (k : Nat) (g : Binding → Binding) : (s.updBind k g).time = s.time := rfl
@[simp] theorem State.updBind_pins (s : State) (k : Nat) (g : Binding → Binding) : (s.updBind k g).pins = s.pins := rfl
@[simp] theorem State.updBind_fuses (s : State) (k : Nat) (g : Binding → Binding) : (s.updBind k g).fuses = s.fuses := rfl
@[simp] theorem State.updBind_life (s : State) (k : Nat) (g : Binding → Binding) : (s.updBind k g).life = s.life := rfl
@[simp] theorem State.updBind_pcie (s : State) (k : Nat) (g : Binding → Binding) : (s.updBind k g).pcie = s.pcie := rfl
@[simp] theorem State.updBind_fns (s : State) (k : Nat) (g : Binding → Binding) : (s.updBind k g).fns = s.fns := rfl
@[simp] theorem State.updBind_addr (s : State) (k : Nat) (g : Binding → Binding) : (s.updBind k g).addr = s.addr := rfl
@[simp] theorem State.updBind_tenants (s : State) (k : Nat) (g : Binding → Binding) : (s.updBind k g).tenants = s.tenants := rfl
@[simp] theorem State.updBind_trouble (s : State) (k : Nat) (g : Binding → Binding) : (s.updBind k g).trouble = s.trouble := rfl
@[simp] theorem State.updBind_rings (s : State) (k : Nat) (g : Binding → Binding) : (s.updBind k g).rings = s.rings := rfl
@[simp] theorem State.updBind_cmds (s : State) (k : Nat) (g : Binding → Binding) : (s.updBind k g).cmds = s.cmds := rfl
@[simp] theorem State.updBind_order (s : State) (k : Nat) (g : Binding → Binding) : (s.updBind k g).order = s.order := rfl
@[simp] theorem State.updBind_reads (s : State) (k : Nat) (g : Binding → Binding) : (s.updBind k g).reads = s.reads := rfl
@[simp] theorem State.updBind_owners (s : State) (k : Nat) (g : Binding → Binding) : (s.updBind k g).owners = s.owners := rfl
@[simp] theorem State.updBind_pace (s : State) (k : Nat) (g : Binding → Binding) : (s.updBind k g).pace = s.pace := rfl
@[simp] theorem State.updBind_power (s : State) (k : Nat) (g : Binding → Binding) : (s.updBind k g).power = s.power := rfl
@[simp] theorem State.updBind_wd (s : State) (k : Nat) (g : Binding → Binding) : (s.updBind k g).wd = s.wd := rfl
@[simp] theorem State.updBind_dbg (s : State) (k : Nat) (g : Binding → Binding) : (s.updBind k g).dbg = s.dbg := rfl
@[simp] theorem State.updBind_trace (s : State) (k : Nat) (g : Binding → Binding) : (s.updBind k g).trace = s.trace := rfl
@[simp] theorem State.updBind_nvm (s : State) (k : Nat) (g : Binding → Binding) : (s.updBind k g).nvm = s.nvm := rfl
@[simp] theorem State.updBind_fw (s : State) (k : Nat) (g : Binding → Binding) : (s.updBind k g).fw = s.fw := rfl
@[simp] theorem State.updBind_csi (s : State) (k : Nat) (g : Binding → Binding) : (s.updBind k g).csi = s.csi := rfl
@[simp] theorem State.updBind_slots (s : State) (k : Nat) (g : Binding → Binding) : (s.updBind k g).slots = s.slots := rfl
@[simp] theorem State.updBind_weft (s : State) (k : Nat) (g : Binding → Binding) : (s.updBind k g).weft = s.weft := rfl
@[simp] theorem State.updBind_comp (s : State) (k : Nat) (g : Binding → Binding) : (s.updBind k g).comp = s.comp := rfl
@[simp] theorem State.updBind_perf (s : State) (k : Nat) (g : Binding → Binding) : (s.updBind k g).perf = s.perf := rfl

/-! ## updSlot -/

@[simp] theorem State.updSlot_pending (s : State) (i : Nat) (g : Slot → Slot) : (s.updSlot i g).pending = s.pending := rfl
@[simp] theorem State.updSlot_out (s : State) (i : Nat) (g : Slot → Slot) : (s.updSlot i g).out = s.out := rfl
@[simp] theorem State.updSlot_blocked (s : State) (i : Nat) (g : Slot → Slot) : (s.updSlot i g).blocked = s.blocked := rfl
@[simp] theorem State.updSlot_fresh (s : State) (i : Nat) (g : Slot → Slot) : (s.updSlot i g).fresh = s.fresh := rfl
@[simp] theorem State.updSlot_time (s : State) (i : Nat) (g : Slot → Slot) : (s.updSlot i g).time = s.time := rfl
@[simp] theorem State.updSlot_pins (s : State) (i : Nat) (g : Slot → Slot) : (s.updSlot i g).pins = s.pins := rfl
@[simp] theorem State.updSlot_fuses (s : State) (i : Nat) (g : Slot → Slot) : (s.updSlot i g).fuses = s.fuses := rfl
@[simp] theorem State.updSlot_life (s : State) (i : Nat) (g : Slot → Slot) : (s.updSlot i g).life = s.life := rfl
@[simp] theorem State.updSlot_pcie (s : State) (i : Nat) (g : Slot → Slot) : (s.updSlot i g).pcie = s.pcie := rfl
@[simp] theorem State.updSlot_fns (s : State) (i : Nat) (g : Slot → Slot) : (s.updSlot i g).fns = s.fns := rfl
@[simp] theorem State.updSlot_addr (s : State) (i : Nat) (g : Slot → Slot) : (s.updSlot i g).addr = s.addr := rfl
@[simp] theorem State.updSlot_tenants (s : State) (i : Nat) (g : Slot → Slot) : (s.updSlot i g).tenants = s.tenants := rfl
@[simp] theorem State.updSlot_trouble (s : State) (i : Nat) (g : Slot → Slot) : (s.updSlot i g).trouble = s.trouble := rfl
@[simp] theorem State.updSlot_rings (s : State) (i : Nat) (g : Slot → Slot) : (s.updSlot i g).rings = s.rings := rfl
@[simp] theorem State.updSlot_cmds (s : State) (i : Nat) (g : Slot → Slot) : (s.updSlot i g).cmds = s.cmds := rfl
@[simp] theorem State.updSlot_order (s : State) (i : Nat) (g : Slot → Slot) : (s.updSlot i g).order = s.order := rfl
@[simp] theorem State.updSlot_reads (s : State) (i : Nat) (g : Slot → Slot) : (s.updSlot i g).reads = s.reads := rfl
@[simp] theorem State.updSlot_binds (s : State) (i : Nat) (g : Slot → Slot) : (s.updSlot i g).binds = s.binds := rfl
@[simp] theorem State.updSlot_owners (s : State) (i : Nat) (g : Slot → Slot) : (s.updSlot i g).owners = s.owners := rfl
@[simp] theorem State.updSlot_pace (s : State) (i : Nat) (g : Slot → Slot) : (s.updSlot i g).pace = s.pace := rfl
@[simp] theorem State.updSlot_power (s : State) (i : Nat) (g : Slot → Slot) : (s.updSlot i g).power = s.power := rfl
@[simp] theorem State.updSlot_wd (s : State) (i : Nat) (g : Slot → Slot) : (s.updSlot i g).wd = s.wd := rfl
@[simp] theorem State.updSlot_dbg (s : State) (i : Nat) (g : Slot → Slot) : (s.updSlot i g).dbg = s.dbg := rfl
@[simp] theorem State.updSlot_trace (s : State) (i : Nat) (g : Slot → Slot) : (s.updSlot i g).trace = s.trace := rfl
@[simp] theorem State.updSlot_nvm (s : State) (i : Nat) (g : Slot → Slot) : (s.updSlot i g).nvm = s.nvm := rfl
@[simp] theorem State.updSlot_fw (s : State) (i : Nat) (g : Slot → Slot) : (s.updSlot i g).fw = s.fw := rfl
@[simp] theorem State.updSlot_csi (s : State) (i : Nat) (g : Slot → Slot) : (s.updSlot i g).csi = s.csi := rfl
@[simp] theorem State.updSlot_weft (s : State) (i : Nat) (g : Slot → Slot) : (s.updSlot i g).weft = s.weft := rfl
@[simp] theorem State.updSlot_comp (s : State) (i : Nat) (g : Slot → Slot) : (s.updSlot i g).comp = s.comp := rfl
@[simp] theorem State.updSlot_perf (s : State) (i : Nat) (g : Slot → Slot) : (s.updSlot i g).perf = s.perf := rfl

/-! ## updRx -/

@[simp] theorem State.updRx_pending (s : State) (n : Nat) (g : Csi → Csi) : (s.updRx n g).pending = s.pending := rfl
@[simp] theorem State.updRx_out (s : State) (n : Nat) (g : Csi → Csi) : (s.updRx n g).out = s.out := rfl
@[simp] theorem State.updRx_blocked (s : State) (n : Nat) (g : Csi → Csi) : (s.updRx n g).blocked = s.blocked := rfl
@[simp] theorem State.updRx_fresh (s : State) (n : Nat) (g : Csi → Csi) : (s.updRx n g).fresh = s.fresh := rfl
@[simp] theorem State.updRx_time (s : State) (n : Nat) (g : Csi → Csi) : (s.updRx n g).time = s.time := rfl
@[simp] theorem State.updRx_pins (s : State) (n : Nat) (g : Csi → Csi) : (s.updRx n g).pins = s.pins := rfl
@[simp] theorem State.updRx_fuses (s : State) (n : Nat) (g : Csi → Csi) : (s.updRx n g).fuses = s.fuses := rfl
@[simp] theorem State.updRx_life (s : State) (n : Nat) (g : Csi → Csi) : (s.updRx n g).life = s.life := rfl
@[simp] theorem State.updRx_pcie (s : State) (n : Nat) (g : Csi → Csi) : (s.updRx n g).pcie = s.pcie := rfl
@[simp] theorem State.updRx_fns (s : State) (n : Nat) (g : Csi → Csi) : (s.updRx n g).fns = s.fns := rfl
@[simp] theorem State.updRx_addr (s : State) (n : Nat) (g : Csi → Csi) : (s.updRx n g).addr = s.addr := rfl
@[simp] theorem State.updRx_tenants (s : State) (n : Nat) (g : Csi → Csi) : (s.updRx n g).tenants = s.tenants := rfl
@[simp] theorem State.updRx_trouble (s : State) (n : Nat) (g : Csi → Csi) : (s.updRx n g).trouble = s.trouble := rfl
@[simp] theorem State.updRx_rings (s : State) (n : Nat) (g : Csi → Csi) : (s.updRx n g).rings = s.rings := rfl
@[simp] theorem State.updRx_cmds (s : State) (n : Nat) (g : Csi → Csi) : (s.updRx n g).cmds = s.cmds := rfl
@[simp] theorem State.updRx_order (s : State) (n : Nat) (g : Csi → Csi) : (s.updRx n g).order = s.order := rfl
@[simp] theorem State.updRx_reads (s : State) (n : Nat) (g : Csi → Csi) : (s.updRx n g).reads = s.reads := rfl
@[simp] theorem State.updRx_binds (s : State) (n : Nat) (g : Csi → Csi) : (s.updRx n g).binds = s.binds := rfl
@[simp] theorem State.updRx_owners (s : State) (n : Nat) (g : Csi → Csi) : (s.updRx n g).owners = s.owners := rfl
@[simp] theorem State.updRx_pace (s : State) (n : Nat) (g : Csi → Csi) : (s.updRx n g).pace = s.pace := rfl
@[simp] theorem State.updRx_power (s : State) (n : Nat) (g : Csi → Csi) : (s.updRx n g).power = s.power := rfl
@[simp] theorem State.updRx_wd (s : State) (n : Nat) (g : Csi → Csi) : (s.updRx n g).wd = s.wd := rfl
@[simp] theorem State.updRx_dbg (s : State) (n : Nat) (g : Csi → Csi) : (s.updRx n g).dbg = s.dbg := rfl
@[simp] theorem State.updRx_trace (s : State) (n : Nat) (g : Csi → Csi) : (s.updRx n g).trace = s.trace := rfl
@[simp] theorem State.updRx_nvm (s : State) (n : Nat) (g : Csi → Csi) : (s.updRx n g).nvm = s.nvm := rfl
@[simp] theorem State.updRx_fw (s : State) (n : Nat) (g : Csi → Csi) : (s.updRx n g).fw = s.fw := rfl
@[simp] theorem State.updRx_slots (s : State) (n : Nat) (g : Csi → Csi) : (s.updRx n g).slots = s.slots := rfl
@[simp] theorem State.updRx_weft (s : State) (n : Nat) (g : Csi → Csi) : (s.updRx n g).weft = s.weft := rfl
@[simp] theorem State.updRx_comp (s : State) (n : Nat) (g : Csi → Csi) : (s.updRx n g).comp = s.comp := rfl
@[simp] theorem State.updRx_perf (s : State) (n : Nat) (g : Csi → Csi) : (s.updRx n g).perf = s.perf := rfl

/-! ## updPort -/

@[simp] theorem State.updPort_pending (s : State) (i : Nat) (g : Port → Port) : (s.updPort i g).pending = s.pending := rfl
@[simp] theorem State.updPort_out (s : State) (i : Nat) (g : Port → Port) : (s.updPort i g).out = s.out := rfl
@[simp] theorem State.updPort_blocked (s : State) (i : Nat) (g : Port → Port) : (s.updPort i g).blocked = s.blocked := rfl
@[simp] theorem State.updPort_fresh (s : State) (i : Nat) (g : Port → Port) : (s.updPort i g).fresh = s.fresh := rfl
@[simp] theorem State.updPort_time (s : State) (i : Nat) (g : Port → Port) : (s.updPort i g).time = s.time := rfl
@[simp] theorem State.updPort_pins (s : State) (i : Nat) (g : Port → Port) : (s.updPort i g).pins = s.pins := rfl
@[simp] theorem State.updPort_fuses (s : State) (i : Nat) (g : Port → Port) : (s.updPort i g).fuses = s.fuses := rfl
@[simp] theorem State.updPort_life (s : State) (i : Nat) (g : Port → Port) : (s.updPort i g).life = s.life := rfl
@[simp] theorem State.updPort_pcie (s : State) (i : Nat) (g : Port → Port) : (s.updPort i g).pcie = s.pcie := rfl
@[simp] theorem State.updPort_fns (s : State) (i : Nat) (g : Port → Port) : (s.updPort i g).fns = s.fns := rfl
@[simp] theorem State.updPort_addr (s : State) (i : Nat) (g : Port → Port) : (s.updPort i g).addr = s.addr := rfl
@[simp] theorem State.updPort_tenants (s : State) (i : Nat) (g : Port → Port) : (s.updPort i g).tenants = s.tenants := rfl
@[simp] theorem State.updPort_trouble (s : State) (i : Nat) (g : Port → Port) : (s.updPort i g).trouble = s.trouble := rfl
@[simp] theorem State.updPort_rings (s : State) (i : Nat) (g : Port → Port) : (s.updPort i g).rings = s.rings := rfl
@[simp] theorem State.updPort_cmds (s : State) (i : Nat) (g : Port → Port) : (s.updPort i g).cmds = s.cmds := rfl
@[simp] theorem State.updPort_order (s : State) (i : Nat) (g : Port → Port) : (s.updPort i g).order = s.order := rfl
@[simp] theorem State.updPort_reads (s : State) (i : Nat) (g : Port → Port) : (s.updPort i g).reads = s.reads := rfl
@[simp] theorem State.updPort_binds (s : State) (i : Nat) (g : Port → Port) : (s.updPort i g).binds = s.binds := rfl
@[simp] theorem State.updPort_owners (s : State) (i : Nat) (g : Port → Port) : (s.updPort i g).owners = s.owners := rfl
@[simp] theorem State.updPort_pace (s : State) (i : Nat) (g : Port → Port) : (s.updPort i g).pace = s.pace := rfl
@[simp] theorem State.updPort_power (s : State) (i : Nat) (g : Port → Port) : (s.updPort i g).power = s.power := rfl
@[simp] theorem State.updPort_wd (s : State) (i : Nat) (g : Port → Port) : (s.updPort i g).wd = s.wd := rfl
@[simp] theorem State.updPort_dbg (s : State) (i : Nat) (g : Port → Port) : (s.updPort i g).dbg = s.dbg := rfl
@[simp] theorem State.updPort_trace (s : State) (i : Nat) (g : Port → Port) : (s.updPort i g).trace = s.trace := rfl
@[simp] theorem State.updPort_nvm (s : State) (i : Nat) (g : Port → Port) : (s.updPort i g).nvm = s.nvm := rfl
@[simp] theorem State.updPort_fw (s : State) (i : Nat) (g : Port → Port) : (s.updPort i g).fw = s.fw := rfl
@[simp] theorem State.updPort_csi (s : State) (i : Nat) (g : Port → Port) : (s.updPort i g).csi = s.csi := rfl
@[simp] theorem State.updPort_slots (s : State) (i : Nat) (g : Port → Port) : (s.updPort i g).slots = s.slots := rfl
@[simp] theorem State.updPort_comp (s : State) (i : Nat) (g : Port → Port) : (s.updPort i g).comp = s.comp := rfl
@[simp] theorem State.updPort_perf (s : State) (i : Nat) (g : Port → Port) : (s.updPort i g).perf = s.perf := rfl

/-! ## updPeer -/

@[simp] theorem State.updPeer_pending (s : State) (c : Nat) (g : Peer → Peer) : (s.updPeer c g).pending = s.pending := rfl
@[simp] theorem State.updPeer_out (s : State) (c : Nat) (g : Peer → Peer) : (s.updPeer c g).out = s.out := rfl
@[simp] theorem State.updPeer_blocked (s : State) (c : Nat) (g : Peer → Peer) : (s.updPeer c g).blocked = s.blocked := rfl
@[simp] theorem State.updPeer_fresh (s : State) (c : Nat) (g : Peer → Peer) : (s.updPeer c g).fresh = s.fresh := rfl
@[simp] theorem State.updPeer_time (s : State) (c : Nat) (g : Peer → Peer) : (s.updPeer c g).time = s.time := rfl
@[simp] theorem State.updPeer_pins (s : State) (c : Nat) (g : Peer → Peer) : (s.updPeer c g).pins = s.pins := rfl
@[simp] theorem State.updPeer_fuses (s : State) (c : Nat) (g : Peer → Peer) : (s.updPeer c g).fuses = s.fuses := rfl
@[simp] theorem State.updPeer_life (s : State) (c : Nat) (g : Peer → Peer) : (s.updPeer c g).life = s.life := rfl
@[simp] theorem State.updPeer_pcie (s : State) (c : Nat) (g : Peer → Peer) : (s.updPeer c g).pcie = s.pcie := rfl
@[simp] theorem State.updPeer_fns (s : State) (c : Nat) (g : Peer → Peer) : (s.updPeer c g).fns = s.fns := rfl
@[simp] theorem State.updPeer_addr (s : State) (c : Nat) (g : Peer → Peer) : (s.updPeer c g).addr = s.addr := rfl
@[simp] theorem State.updPeer_tenants (s : State) (c : Nat) (g : Peer → Peer) : (s.updPeer c g).tenants = s.tenants := rfl
@[simp] theorem State.updPeer_trouble (s : State) (c : Nat) (g : Peer → Peer) : (s.updPeer c g).trouble = s.trouble := rfl
@[simp] theorem State.updPeer_rings (s : State) (c : Nat) (g : Peer → Peer) : (s.updPeer c g).rings = s.rings := rfl
@[simp] theorem State.updPeer_cmds (s : State) (c : Nat) (g : Peer → Peer) : (s.updPeer c g).cmds = s.cmds := rfl
@[simp] theorem State.updPeer_order (s : State) (c : Nat) (g : Peer → Peer) : (s.updPeer c g).order = s.order := rfl
@[simp] theorem State.updPeer_reads (s : State) (c : Nat) (g : Peer → Peer) : (s.updPeer c g).reads = s.reads := rfl
@[simp] theorem State.updPeer_binds (s : State) (c : Nat) (g : Peer → Peer) : (s.updPeer c g).binds = s.binds := rfl
@[simp] theorem State.updPeer_owners (s : State) (c : Nat) (g : Peer → Peer) : (s.updPeer c g).owners = s.owners := rfl
@[simp] theorem State.updPeer_pace (s : State) (c : Nat) (g : Peer → Peer) : (s.updPeer c g).pace = s.pace := rfl
@[simp] theorem State.updPeer_power (s : State) (c : Nat) (g : Peer → Peer) : (s.updPeer c g).power = s.power := rfl
@[simp] theorem State.updPeer_wd (s : State) (c : Nat) (g : Peer → Peer) : (s.updPeer c g).wd = s.wd := rfl
@[simp] theorem State.updPeer_dbg (s : State) (c : Nat) (g : Peer → Peer) : (s.updPeer c g).dbg = s.dbg := rfl
@[simp] theorem State.updPeer_trace (s : State) (c : Nat) (g : Peer → Peer) : (s.updPeer c g).trace = s.trace := rfl
@[simp] theorem State.updPeer_nvm (s : State) (c : Nat) (g : Peer → Peer) : (s.updPeer c g).nvm = s.nvm := rfl
@[simp] theorem State.updPeer_fw (s : State) (c : Nat) (g : Peer → Peer) : (s.updPeer c g).fw = s.fw := rfl
@[simp] theorem State.updPeer_csi (s : State) (c : Nat) (g : Peer → Peer) : (s.updPeer c g).csi = s.csi := rfl
@[simp] theorem State.updPeer_slots (s : State) (c : Nat) (g : Peer → Peer) : (s.updPeer c g).slots = s.slots := rfl
@[simp] theorem State.updPeer_comp (s : State) (c : Nat) (g : Peer → Peer) : (s.updPeer c g).comp = s.comp := rfl
@[simp] theorem State.updPeer_perf (s : State) (c : Nat) (g : Peer → Peer) : (s.updPeer c g).perf = s.perf := rfl

/-! ## updHead -/

@[simp] theorem State.updHead_pending (s : State) (b : Nat) (g : NvmOp → NvmOp) : (s.updHead b g).pending = s.pending := rfl
@[simp] theorem State.updHead_out (s : State) (b : Nat) (g : NvmOp → NvmOp) : (s.updHead b g).out = s.out := rfl
@[simp] theorem State.updHead_blocked (s : State) (b : Nat) (g : NvmOp → NvmOp) : (s.updHead b g).blocked = s.blocked := rfl
@[simp] theorem State.updHead_fresh (s : State) (b : Nat) (g : NvmOp → NvmOp) : (s.updHead b g).fresh = s.fresh := rfl
@[simp] theorem State.updHead_time (s : State) (b : Nat) (g : NvmOp → NvmOp) : (s.updHead b g).time = s.time := rfl
@[simp] theorem State.updHead_pins (s : State) (b : Nat) (g : NvmOp → NvmOp) : (s.updHead b g).pins = s.pins := rfl
@[simp] theorem State.updHead_fuses (s : State) (b : Nat) (g : NvmOp → NvmOp) : (s.updHead b g).fuses = s.fuses := rfl
@[simp] theorem State.updHead_life (s : State) (b : Nat) (g : NvmOp → NvmOp) : (s.updHead b g).life = s.life := rfl
@[simp] theorem State.updHead_pcie (s : State) (b : Nat) (g : NvmOp → NvmOp) : (s.updHead b g).pcie = s.pcie := rfl
@[simp] theorem State.updHead_fns (s : State) (b : Nat) (g : NvmOp → NvmOp) : (s.updHead b g).fns = s.fns := rfl
@[simp] theorem State.updHead_addr (s : State) (b : Nat) (g : NvmOp → NvmOp) : (s.updHead b g).addr = s.addr := rfl
@[simp] theorem State.updHead_tenants (s : State) (b : Nat) (g : NvmOp → NvmOp) : (s.updHead b g).tenants = s.tenants := rfl
@[simp] theorem State.updHead_trouble (s : State) (b : Nat) (g : NvmOp → NvmOp) : (s.updHead b g).trouble = s.trouble := rfl
@[simp] theorem State.updHead_rings (s : State) (b : Nat) (g : NvmOp → NvmOp) : (s.updHead b g).rings = s.rings := rfl
@[simp] theorem State.updHead_cmds (s : State) (b : Nat) (g : NvmOp → NvmOp) : (s.updHead b g).cmds = s.cmds := rfl
@[simp] theorem State.updHead_order (s : State) (b : Nat) (g : NvmOp → NvmOp) : (s.updHead b g).order = s.order := rfl
@[simp] theorem State.updHead_reads (s : State) (b : Nat) (g : NvmOp → NvmOp) : (s.updHead b g).reads = s.reads := rfl
@[simp] theorem State.updHead_binds (s : State) (b : Nat) (g : NvmOp → NvmOp) : (s.updHead b g).binds = s.binds := rfl
@[simp] theorem State.updHead_owners (s : State) (b : Nat) (g : NvmOp → NvmOp) : (s.updHead b g).owners = s.owners := rfl
@[simp] theorem State.updHead_pace (s : State) (b : Nat) (g : NvmOp → NvmOp) : (s.updHead b g).pace = s.pace := rfl
@[simp] theorem State.updHead_power (s : State) (b : Nat) (g : NvmOp → NvmOp) : (s.updHead b g).power = s.power := rfl
@[simp] theorem State.updHead_wd (s : State) (b : Nat) (g : NvmOp → NvmOp) : (s.updHead b g).wd = s.wd := rfl
@[simp] theorem State.updHead_dbg (s : State) (b : Nat) (g : NvmOp → NvmOp) : (s.updHead b g).dbg = s.dbg := rfl
@[simp] theorem State.updHead_trace (s : State) (b : Nat) (g : NvmOp → NvmOp) : (s.updHead b g).trace = s.trace := rfl
@[simp] theorem State.updHead_fw (s : State) (b : Nat) (g : NvmOp → NvmOp) : (s.updHead b g).fw = s.fw := rfl
@[simp] theorem State.updHead_csi (s : State) (b : Nat) (g : NvmOp → NvmOp) : (s.updHead b g).csi = s.csi := rfl
@[simp] theorem State.updHead_slots (s : State) (b : Nat) (g : NvmOp → NvmOp) : (s.updHead b g).slots = s.slots := rfl
@[simp] theorem State.updHead_weft (s : State) (b : Nat) (g : NvmOp → NvmOp) : (s.updHead b g).weft = s.weft := rfl
@[simp] theorem State.updHead_comp (s : State) (b : Nat) (g : NvmOp → NvmOp) : (s.updHead b g).comp = s.comp := rfl
@[simp] theorem State.updHead_perf (s : State) (b : Nat) (g : NvmOp → NvmOp) : (s.updHead b g).perf = s.perf := rfl

/-! ## updBlock -/

@[simp] theorem State.updBlock_pending (s : State) (b p : Nat) (g : NvmBlock → NvmBlock) : (s.updBlock b p g).pending = s.pending := rfl
@[simp] theorem State.updBlock_out (s : State) (b p : Nat) (g : NvmBlock → NvmBlock) : (s.updBlock b p g).out = s.out := rfl
@[simp] theorem State.updBlock_blocked (s : State) (b p : Nat) (g : NvmBlock → NvmBlock) : (s.updBlock b p g).blocked = s.blocked := rfl
@[simp] theorem State.updBlock_fresh (s : State) (b p : Nat) (g : NvmBlock → NvmBlock) : (s.updBlock b p g).fresh = s.fresh := rfl
@[simp] theorem State.updBlock_time (s : State) (b p : Nat) (g : NvmBlock → NvmBlock) : (s.updBlock b p g).time = s.time := rfl
@[simp] theorem State.updBlock_pins (s : State) (b p : Nat) (g : NvmBlock → NvmBlock) : (s.updBlock b p g).pins = s.pins := rfl
@[simp] theorem State.updBlock_fuses (s : State) (b p : Nat) (g : NvmBlock → NvmBlock) : (s.updBlock b p g).fuses = s.fuses := rfl
@[simp] theorem State.updBlock_life (s : State) (b p : Nat) (g : NvmBlock → NvmBlock) : (s.updBlock b p g).life = s.life := rfl
@[simp] theorem State.updBlock_pcie (s : State) (b p : Nat) (g : NvmBlock → NvmBlock) : (s.updBlock b p g).pcie = s.pcie := rfl
@[simp] theorem State.updBlock_fns (s : State) (b p : Nat) (g : NvmBlock → NvmBlock) : (s.updBlock b p g).fns = s.fns := rfl
@[simp] theorem State.updBlock_addr (s : State) (b p : Nat) (g : NvmBlock → NvmBlock) : (s.updBlock b p g).addr = s.addr := rfl
@[simp] theorem State.updBlock_tenants (s : State) (b p : Nat) (g : NvmBlock → NvmBlock) : (s.updBlock b p g).tenants = s.tenants := rfl
@[simp] theorem State.updBlock_trouble (s : State) (b p : Nat) (g : NvmBlock → NvmBlock) : (s.updBlock b p g).trouble = s.trouble := rfl
@[simp] theorem State.updBlock_rings (s : State) (b p : Nat) (g : NvmBlock → NvmBlock) : (s.updBlock b p g).rings = s.rings := rfl
@[simp] theorem State.updBlock_cmds (s : State) (b p : Nat) (g : NvmBlock → NvmBlock) : (s.updBlock b p g).cmds = s.cmds := rfl
@[simp] theorem State.updBlock_order (s : State) (b p : Nat) (g : NvmBlock → NvmBlock) : (s.updBlock b p g).order = s.order := rfl
@[simp] theorem State.updBlock_reads (s : State) (b p : Nat) (g : NvmBlock → NvmBlock) : (s.updBlock b p g).reads = s.reads := rfl
@[simp] theorem State.updBlock_binds (s : State) (b p : Nat) (g : NvmBlock → NvmBlock) : (s.updBlock b p g).binds = s.binds := rfl
@[simp] theorem State.updBlock_owners (s : State) (b p : Nat) (g : NvmBlock → NvmBlock) : (s.updBlock b p g).owners = s.owners := rfl
@[simp] theorem State.updBlock_pace (s : State) (b p : Nat) (g : NvmBlock → NvmBlock) : (s.updBlock b p g).pace = s.pace := rfl
@[simp] theorem State.updBlock_power (s : State) (b p : Nat) (g : NvmBlock → NvmBlock) : (s.updBlock b p g).power = s.power := rfl
@[simp] theorem State.updBlock_wd (s : State) (b p : Nat) (g : NvmBlock → NvmBlock) : (s.updBlock b p g).wd = s.wd := rfl
@[simp] theorem State.updBlock_dbg (s : State) (b p : Nat) (g : NvmBlock → NvmBlock) : (s.updBlock b p g).dbg = s.dbg := rfl
@[simp] theorem State.updBlock_trace (s : State) (b p : Nat) (g : NvmBlock → NvmBlock) : (s.updBlock b p g).trace = s.trace := rfl
@[simp] theorem State.updBlock_fw (s : State) (b p : Nat) (g : NvmBlock → NvmBlock) : (s.updBlock b p g).fw = s.fw := rfl
@[simp] theorem State.updBlock_csi (s : State) (b p : Nat) (g : NvmBlock → NvmBlock) : (s.updBlock b p g).csi = s.csi := rfl
@[simp] theorem State.updBlock_slots (s : State) (b p : Nat) (g : NvmBlock → NvmBlock) : (s.updBlock b p g).slots = s.slots := rfl
@[simp] theorem State.updBlock_weft (s : State) (b p : Nat) (g : NvmBlock → NvmBlock) : (s.updBlock b p g).weft = s.weft := rfl
@[simp] theorem State.updBlock_comp (s : State) (b p : Nat) (g : NvmBlock → NvmBlock) : (s.updBlock b p g).comp = s.comp := rfl
@[simp] theorem State.updBlock_perf (s : State) (b p : Nat) (g : NvmBlock → NvmBlock) : (s.updBlock b p g).perf = s.perf := rfl

/-! ## setRun -/

@[simp] theorem State.setRun_pending (s : State) (k : Nat) (r : Run) : (s.setRun k r).pending = s.pending := rfl
@[simp] theorem State.setRun_out (s : State) (k : Nat) (r : Run) : (s.setRun k r).out = s.out := rfl
@[simp] theorem State.setRun_blocked (s : State) (k : Nat) (r : Run) : (s.setRun k r).blocked = s.blocked := rfl
@[simp] theorem State.setRun_fresh (s : State) (k : Nat) (r : Run) : (s.setRun k r).fresh = s.fresh := rfl
@[simp] theorem State.setRun_time (s : State) (k : Nat) (r : Run) : (s.setRun k r).time = s.time := rfl
@[simp] theorem State.setRun_pins (s : State) (k : Nat) (r : Run) : (s.setRun k r).pins = s.pins := rfl
@[simp] theorem State.setRun_fuses (s : State) (k : Nat) (r : Run) : (s.setRun k r).fuses = s.fuses := rfl
@[simp] theorem State.setRun_life (s : State) (k : Nat) (r : Run) : (s.setRun k r).life = s.life := rfl
@[simp] theorem State.setRun_pcie (s : State) (k : Nat) (r : Run) : (s.setRun k r).pcie = s.pcie := rfl
@[simp] theorem State.setRun_fns (s : State) (k : Nat) (r : Run) : (s.setRun k r).fns = s.fns := rfl
@[simp] theorem State.setRun_addr (s : State) (k : Nat) (r : Run) : (s.setRun k r).addr = s.addr := rfl
@[simp] theorem State.setRun_tenants (s : State) (k : Nat) (r : Run) : (s.setRun k r).tenants = s.tenants := rfl
@[simp] theorem State.setRun_trouble (s : State) (k : Nat) (r : Run) : (s.setRun k r).trouble = s.trouble := rfl
@[simp] theorem State.setRun_rings (s : State) (k : Nat) (r : Run) : (s.setRun k r).rings = s.rings := rfl
@[simp] theorem State.setRun_cmds (s : State) (k : Nat) (r : Run) : (s.setRun k r).cmds = s.cmds := rfl
@[simp] theorem State.setRun_order (s : State) (k : Nat) (r : Run) : (s.setRun k r).order = s.order := rfl
@[simp] theorem State.setRun_reads (s : State) (k : Nat) (r : Run) : (s.setRun k r).reads = s.reads := rfl
@[simp] theorem State.setRun_binds (s : State) (k : Nat) (r : Run) : (s.setRun k r).binds = s.binds := rfl
@[simp] theorem State.setRun_owners (s : State) (k : Nat) (r : Run) : (s.setRun k r).owners = s.owners := rfl
@[simp] theorem State.setRun_pace (s : State) (k : Nat) (r : Run) : (s.setRun k r).pace = s.pace := rfl
@[simp] theorem State.setRun_power (s : State) (k : Nat) (r : Run) : (s.setRun k r).power = s.power := rfl
@[simp] theorem State.setRun_wd (s : State) (k : Nat) (r : Run) : (s.setRun k r).wd = s.wd := rfl
@[simp] theorem State.setRun_dbg (s : State) (k : Nat) (r : Run) : (s.setRun k r).dbg = s.dbg := rfl
@[simp] theorem State.setRun_trace (s : State) (k : Nat) (r : Run) : (s.setRun k r).trace = s.trace := rfl
@[simp] theorem State.setRun_nvm (s : State) (k : Nat) (r : Run) : (s.setRun k r).nvm = s.nvm := rfl
@[simp] theorem State.setRun_fw (s : State) (k : Nat) (r : Run) : (s.setRun k r).fw = s.fw := rfl
@[simp] theorem State.setRun_csi (s : State) (k : Nat) (r : Run) : (s.setRun k r).csi = s.csi := rfl
@[simp] theorem State.setRun_slots (s : State) (k : Nat) (r : Run) : (s.setRun k r).slots = s.slots := rfl
@[simp] theorem State.setRun_weft (s : State) (k : Nat) (r : Run) : (s.setRun k r).weft = s.weft := rfl
@[simp] theorem State.setRun_perf (s : State) (k : Nat) (r : Run) : (s.setRun k r).perf = s.perf := rfl

/-! ## stat -/

@[simp] theorem State.stat_pending (s : State) (f i k : Nat) : (s.stat f i k).pending = s.pending := rfl
@[simp] theorem State.stat_out (s : State) (f i k : Nat) : (s.stat f i k).out = s.out := rfl
@[simp] theorem State.stat_blocked (s : State) (f i k : Nat) : (s.stat f i k).blocked = s.blocked := rfl
@[simp] theorem State.stat_fresh (s : State) (f i k : Nat) : (s.stat f i k).fresh = s.fresh := rfl
@[simp] theorem State.stat_time (s : State) (f i k : Nat) : (s.stat f i k).time = s.time := rfl
@[simp] theorem State.stat_pins (s : State) (f i k : Nat) : (s.stat f i k).pins = s.pins := rfl
@[simp] theorem State.stat_fuses (s : State) (f i k : Nat) : (s.stat f i k).fuses = s.fuses := rfl
@[simp] theorem State.stat_life (s : State) (f i k : Nat) : (s.stat f i k).life = s.life := rfl
@[simp] theorem State.stat_pcie (s : State) (f i k : Nat) : (s.stat f i k).pcie = s.pcie := rfl
@[simp] theorem State.stat_addr (s : State) (f i k : Nat) : (s.stat f i k).addr = s.addr := rfl
@[simp] theorem State.stat_tenants (s : State) (f i k : Nat) : (s.stat f i k).tenants = s.tenants := rfl
@[simp] theorem State.stat_trouble (s : State) (f i k : Nat) : (s.stat f i k).trouble = s.trouble := rfl
@[simp] theorem State.stat_rings (s : State) (f i k : Nat) : (s.stat f i k).rings = s.rings := rfl
@[simp] theorem State.stat_cmds (s : State) (f i k : Nat) : (s.stat f i k).cmds = s.cmds := rfl
@[simp] theorem State.stat_order (s : State) (f i k : Nat) : (s.stat f i k).order = s.order := rfl
@[simp] theorem State.stat_reads (s : State) (f i k : Nat) : (s.stat f i k).reads = s.reads := rfl
@[simp] theorem State.stat_binds (s : State) (f i k : Nat) : (s.stat f i k).binds = s.binds := rfl
@[simp] theorem State.stat_owners (s : State) (f i k : Nat) : (s.stat f i k).owners = s.owners := rfl
@[simp] theorem State.stat_pace (s : State) (f i k : Nat) : (s.stat f i k).pace = s.pace := rfl
@[simp] theorem State.stat_power (s : State) (f i k : Nat) : (s.stat f i k).power = s.power := rfl
@[simp] theorem State.stat_wd (s : State) (f i k : Nat) : (s.stat f i k).wd = s.wd := rfl
@[simp] theorem State.stat_dbg (s : State) (f i k : Nat) : (s.stat f i k).dbg = s.dbg := rfl
@[simp] theorem State.stat_trace (s : State) (f i k : Nat) : (s.stat f i k).trace = s.trace := rfl
@[simp] theorem State.stat_nvm (s : State) (f i k : Nat) : (s.stat f i k).nvm = s.nvm := rfl
@[simp] theorem State.stat_fw (s : State) (f i k : Nat) : (s.stat f i k).fw = s.fw := rfl
@[simp] theorem State.stat_csi (s : State) (f i k : Nat) : (s.stat f i k).csi = s.csi := rfl
@[simp] theorem State.stat_slots (s : State) (f i k : Nat) : (s.stat f i k).slots = s.slots := rfl
@[simp] theorem State.stat_weft (s : State) (f i k : Nat) : (s.stat f i k).weft = s.weft := rfl
@[simp] theorem State.stat_comp (s : State) (f i k : Nat) : (s.stat f i k).comp = s.comp := rfl
@[simp] theorem State.stat_perf (s : State) (f i k : Nat) : (s.stat f i k).perf = s.perf := rfl

/-! ## perfAdd -/

@[simp] theorem State.perfAdd_pending (s : State) (i k : Nat) : (s.perfAdd i k).pending = s.pending := rfl
@[simp] theorem State.perfAdd_out (s : State) (i k : Nat) : (s.perfAdd i k).out = s.out := rfl
@[simp] theorem State.perfAdd_blocked (s : State) (i k : Nat) : (s.perfAdd i k).blocked = s.blocked := rfl
@[simp] theorem State.perfAdd_fresh (s : State) (i k : Nat) : (s.perfAdd i k).fresh = s.fresh := rfl
@[simp] theorem State.perfAdd_time (s : State) (i k : Nat) : (s.perfAdd i k).time = s.time := rfl
@[simp] theorem State.perfAdd_pins (s : State) (i k : Nat) : (s.perfAdd i k).pins = s.pins := rfl
@[simp] theorem State.perfAdd_fuses (s : State) (i k : Nat) : (s.perfAdd i k).fuses = s.fuses := rfl
@[simp] theorem State.perfAdd_life (s : State) (i k : Nat) : (s.perfAdd i k).life = s.life := rfl
@[simp] theorem State.perfAdd_pcie (s : State) (i k : Nat) : (s.perfAdd i k).pcie = s.pcie := rfl
@[simp] theorem State.perfAdd_fns (s : State) (i k : Nat) : (s.perfAdd i k).fns = s.fns := rfl
@[simp] theorem State.perfAdd_addr (s : State) (i k : Nat) : (s.perfAdd i k).addr = s.addr := rfl
@[simp] theorem State.perfAdd_tenants (s : State) (i k : Nat) : (s.perfAdd i k).tenants = s.tenants := rfl
@[simp] theorem State.perfAdd_trouble (s : State) (i k : Nat) : (s.perfAdd i k).trouble = s.trouble := rfl
@[simp] theorem State.perfAdd_rings (s : State) (i k : Nat) : (s.perfAdd i k).rings = s.rings := rfl
@[simp] theorem State.perfAdd_cmds (s : State) (i k : Nat) : (s.perfAdd i k).cmds = s.cmds := rfl
@[simp] theorem State.perfAdd_order (s : State) (i k : Nat) : (s.perfAdd i k).order = s.order := rfl
@[simp] theorem State.perfAdd_reads (s : State) (i k : Nat) : (s.perfAdd i k).reads = s.reads := rfl
@[simp] theorem State.perfAdd_binds (s : State) (i k : Nat) : (s.perfAdd i k).binds = s.binds := rfl
@[simp] theorem State.perfAdd_owners (s : State) (i k : Nat) : (s.perfAdd i k).owners = s.owners := rfl
@[simp] theorem State.perfAdd_pace (s : State) (i k : Nat) : (s.perfAdd i k).pace = s.pace := rfl
@[simp] theorem State.perfAdd_power (s : State) (i k : Nat) : (s.perfAdd i k).power = s.power := rfl
@[simp] theorem State.perfAdd_wd (s : State) (i k : Nat) : (s.perfAdd i k).wd = s.wd := rfl
@[simp] theorem State.perfAdd_dbg (s : State) (i k : Nat) : (s.perfAdd i k).dbg = s.dbg := rfl
@[simp] theorem State.perfAdd_trace (s : State) (i k : Nat) : (s.perfAdd i k).trace = s.trace := rfl
@[simp] theorem State.perfAdd_nvm (s : State) (i k : Nat) : (s.perfAdd i k).nvm = s.nvm := rfl
@[simp] theorem State.perfAdd_fw (s : State) (i k : Nat) : (s.perfAdd i k).fw = s.fw := rfl
@[simp] theorem State.perfAdd_csi (s : State) (i k : Nat) : (s.perfAdd i k).csi = s.csi := rfl
@[simp] theorem State.perfAdd_slots (s : State) (i k : Nat) : (s.perfAdd i k).slots = s.slots := rfl
@[simp] theorem State.perfAdd_weft (s : State) (i k : Nat) : (s.perfAdd i k).weft = s.weft := rfl
@[simp] theorem State.perfAdd_comp (s : State) (i k : Nat) : (s.perfAdd i k).comp = s.comp := rfl

/-! ## dbgAnswer -/

@[simp] theorem State.dbgAnswer_pending (s : State) (r : DbgResult) : (s.dbgAnswer r).pending = s.pending := rfl
@[simp] theorem State.dbgAnswer_out (s : State) (r : DbgResult) : (s.dbgAnswer r).out = s.out := rfl
@[simp] theorem State.dbgAnswer_blocked (s : State) (r : DbgResult) : (s.dbgAnswer r).blocked = s.blocked := rfl
@[simp] theorem State.dbgAnswer_fresh (s : State) (r : DbgResult) : (s.dbgAnswer r).fresh = s.fresh := rfl
@[simp] theorem State.dbgAnswer_time (s : State) (r : DbgResult) : (s.dbgAnswer r).time = s.time := rfl
@[simp] theorem State.dbgAnswer_pins (s : State) (r : DbgResult) : (s.dbgAnswer r).pins = s.pins := rfl
@[simp] theorem State.dbgAnswer_fuses (s : State) (r : DbgResult) : (s.dbgAnswer r).fuses = s.fuses := rfl
@[simp] theorem State.dbgAnswer_life (s : State) (r : DbgResult) : (s.dbgAnswer r).life = s.life := rfl
@[simp] theorem State.dbgAnswer_pcie (s : State) (r : DbgResult) : (s.dbgAnswer r).pcie = s.pcie := rfl
@[simp] theorem State.dbgAnswer_fns (s : State) (r : DbgResult) : (s.dbgAnswer r).fns = s.fns := rfl
@[simp] theorem State.dbgAnswer_addr (s : State) (r : DbgResult) : (s.dbgAnswer r).addr = s.addr := rfl
@[simp] theorem State.dbgAnswer_tenants (s : State) (r : DbgResult) : (s.dbgAnswer r).tenants = s.tenants := rfl
@[simp] theorem State.dbgAnswer_trouble (s : State) (r : DbgResult) : (s.dbgAnswer r).trouble = s.trouble := rfl
@[simp] theorem State.dbgAnswer_rings (s : State) (r : DbgResult) : (s.dbgAnswer r).rings = s.rings := rfl
@[simp] theorem State.dbgAnswer_cmds (s : State) (r : DbgResult) : (s.dbgAnswer r).cmds = s.cmds := rfl
@[simp] theorem State.dbgAnswer_order (s : State) (r : DbgResult) : (s.dbgAnswer r).order = s.order := rfl
@[simp] theorem State.dbgAnswer_reads (s : State) (r : DbgResult) : (s.dbgAnswer r).reads = s.reads := rfl
@[simp] theorem State.dbgAnswer_binds (s : State) (r : DbgResult) : (s.dbgAnswer r).binds = s.binds := rfl
@[simp] theorem State.dbgAnswer_owners (s : State) (r : DbgResult) : (s.dbgAnswer r).owners = s.owners := rfl
@[simp] theorem State.dbgAnswer_pace (s : State) (r : DbgResult) : (s.dbgAnswer r).pace = s.pace := rfl
@[simp] theorem State.dbgAnswer_power (s : State) (r : DbgResult) : (s.dbgAnswer r).power = s.power := rfl
@[simp] theorem State.dbgAnswer_wd (s : State) (r : DbgResult) : (s.dbgAnswer r).wd = s.wd := rfl
@[simp] theorem State.dbgAnswer_trace (s : State) (r : DbgResult) : (s.dbgAnswer r).trace = s.trace := rfl
@[simp] theorem State.dbgAnswer_nvm (s : State) (r : DbgResult) : (s.dbgAnswer r).nvm = s.nvm := rfl
@[simp] theorem State.dbgAnswer_fw (s : State) (r : DbgResult) : (s.dbgAnswer r).fw = s.fw := rfl
@[simp] theorem State.dbgAnswer_csi (s : State) (r : DbgResult) : (s.dbgAnswer r).csi = s.csi := rfl
@[simp] theorem State.dbgAnswer_slots (s : State) (r : DbgResult) : (s.dbgAnswer r).slots = s.slots := rfl
@[simp] theorem State.dbgAnswer_weft (s : State) (r : DbgResult) : (s.dbgAnswer r).weft = s.weft := rfl
@[simp] theorem State.dbgAnswer_comp (s : State) (r : DbgResult) : (s.dbgAnswer r).comp = s.comp := rfl
@[simp] theorem State.dbgAnswer_perf (s : State) (r : DbgResult) : (s.dbgAnswer r).perf = s.perf := rfl

/-! ## updCmd -/

@[simp] theorem State.updCmd_pending (s : State) (t : Nat) (g : Cmd → Cmd) : (s.updCmd t g).pending = s.pending := by
  unfold State.updCmd
  split <;> rfl
@[simp] theorem State.updCmd_out (s : State) (t : Nat) (g : Cmd → Cmd) : (s.updCmd t g).out = s.out := by
  unfold State.updCmd
  split <;> rfl
@[simp] theorem State.updCmd_blocked (s : State) (t : Nat) (g : Cmd → Cmd) : (s.updCmd t g).blocked = s.blocked := by
  unfold State.updCmd
  split <;> rfl
@[simp] theorem State.updCmd_fresh (s : State) (t : Nat) (g : Cmd → Cmd) : (s.updCmd t g).fresh = s.fresh := by
  unfold State.updCmd
  split <;> rfl
@[simp] theorem State.updCmd_time (s : State) (t : Nat) (g : Cmd → Cmd) : (s.updCmd t g).time = s.time := by
  unfold State.updCmd
  split <;> rfl
@[simp] theorem State.updCmd_pins (s : State) (t : Nat) (g : Cmd → Cmd) : (s.updCmd t g).pins = s.pins := by
  unfold State.updCmd
  split <;> rfl
@[simp] theorem State.updCmd_fuses (s : State) (t : Nat) (g : Cmd → Cmd) : (s.updCmd t g).fuses = s.fuses := by
  unfold State.updCmd
  split <;> rfl
@[simp] theorem State.updCmd_life (s : State) (t : Nat) (g : Cmd → Cmd) : (s.updCmd t g).life = s.life := by
  unfold State.updCmd
  split <;> rfl
@[simp] theorem State.updCmd_pcie (s : State) (t : Nat) (g : Cmd → Cmd) : (s.updCmd t g).pcie = s.pcie := by
  unfold State.updCmd
  split <;> rfl
@[simp] theorem State.updCmd_fns (s : State) (t : Nat) (g : Cmd → Cmd) : (s.updCmd t g).fns = s.fns := by
  unfold State.updCmd
  split <;> rfl
@[simp] theorem State.updCmd_addr (s : State) (t : Nat) (g : Cmd → Cmd) : (s.updCmd t g).addr = s.addr := by
  unfold State.updCmd
  split <;> rfl
@[simp] theorem State.updCmd_tenants (s : State) (t : Nat) (g : Cmd → Cmd) : (s.updCmd t g).tenants = s.tenants := by
  unfold State.updCmd
  split <;> rfl
@[simp] theorem State.updCmd_trouble (s : State) (t : Nat) (g : Cmd → Cmd) : (s.updCmd t g).trouble = s.trouble := by
  unfold State.updCmd
  split <;> rfl
@[simp] theorem State.updCmd_rings (s : State) (t : Nat) (g : Cmd → Cmd) : (s.updCmd t g).rings = s.rings := by
  unfold State.updCmd
  split <;> rfl
@[simp] theorem State.updCmd_order (s : State) (t : Nat) (g : Cmd → Cmd) : (s.updCmd t g).order = s.order := by
  unfold State.updCmd
  split <;> rfl
@[simp] theorem State.updCmd_reads (s : State) (t : Nat) (g : Cmd → Cmd) : (s.updCmd t g).reads = s.reads := by
  unfold State.updCmd
  split <;> rfl
@[simp] theorem State.updCmd_binds (s : State) (t : Nat) (g : Cmd → Cmd) : (s.updCmd t g).binds = s.binds := by
  unfold State.updCmd
  split <;> rfl
@[simp] theorem State.updCmd_owners (s : State) (t : Nat) (g : Cmd → Cmd) : (s.updCmd t g).owners = s.owners := by
  unfold State.updCmd
  split <;> rfl
@[simp] theorem State.updCmd_pace (s : State) (t : Nat) (g : Cmd → Cmd) : (s.updCmd t g).pace = s.pace := by
  unfold State.updCmd
  split <;> rfl
@[simp] theorem State.updCmd_power (s : State) (t : Nat) (g : Cmd → Cmd) : (s.updCmd t g).power = s.power := by
  unfold State.updCmd
  split <;> rfl
@[simp] theorem State.updCmd_wd (s : State) (t : Nat) (g : Cmd → Cmd) : (s.updCmd t g).wd = s.wd := by
  unfold State.updCmd
  split <;> rfl
@[simp] theorem State.updCmd_dbg (s : State) (t : Nat) (g : Cmd → Cmd) : (s.updCmd t g).dbg = s.dbg := by
  unfold State.updCmd
  split <;> rfl
@[simp] theorem State.updCmd_trace (s : State) (t : Nat) (g : Cmd → Cmd) : (s.updCmd t g).trace = s.trace := by
  unfold State.updCmd
  split <;> rfl
@[simp] theorem State.updCmd_nvm (s : State) (t : Nat) (g : Cmd → Cmd) : (s.updCmd t g).nvm = s.nvm := by
  unfold State.updCmd
  split <;> rfl
@[simp] theorem State.updCmd_fw (s : State) (t : Nat) (g : Cmd → Cmd) : (s.updCmd t g).fw = s.fw := by
  unfold State.updCmd
  split <;> rfl
@[simp] theorem State.updCmd_csi (s : State) (t : Nat) (g : Cmd → Cmd) : (s.updCmd t g).csi = s.csi := by
  unfold State.updCmd
  split <;> rfl
@[simp] theorem State.updCmd_slots (s : State) (t : Nat) (g : Cmd → Cmd) : (s.updCmd t g).slots = s.slots := by
  unfold State.updCmd
  split <;> rfl
@[simp] theorem State.updCmd_weft (s : State) (t : Nat) (g : Cmd → Cmd) : (s.updCmd t g).weft = s.weft := by
  unfold State.updCmd
  split <;> rfl
@[simp] theorem State.updCmd_comp (s : State) (t : Nat) (g : Cmd → Cmd) : (s.updCmd t g).comp = s.comp := by
  unfold State.updCmd
  split <;> rfl
@[simp] theorem State.updCmd_perf (s : State) (t : Nat) (g : Cmd → Cmd) : (s.updCmd t g).perf = s.perf := by
  unfold State.updCmd
  split <;> rfl

/-! ## updRun -/

@[simp] theorem State.updRun_pending (s : State) (k : Nat) (g : Run → Run) : (s.updRun k g).pending = s.pending := by
  unfold State.updRun
  split <;> rfl
@[simp] theorem State.updRun_out (s : State) (k : Nat) (g : Run → Run) : (s.updRun k g).out = s.out := by
  unfold State.updRun
  split <;> rfl
@[simp] theorem State.updRun_blocked (s : State) (k : Nat) (g : Run → Run) : (s.updRun k g).blocked = s.blocked := by
  unfold State.updRun
  split <;> rfl
@[simp] theorem State.updRun_fresh (s : State) (k : Nat) (g : Run → Run) : (s.updRun k g).fresh = s.fresh := by
  unfold State.updRun
  split <;> rfl
@[simp] theorem State.updRun_time (s : State) (k : Nat) (g : Run → Run) : (s.updRun k g).time = s.time := by
  unfold State.updRun
  split <;> rfl
@[simp] theorem State.updRun_pins (s : State) (k : Nat) (g : Run → Run) : (s.updRun k g).pins = s.pins := by
  unfold State.updRun
  split <;> rfl
@[simp] theorem State.updRun_fuses (s : State) (k : Nat) (g : Run → Run) : (s.updRun k g).fuses = s.fuses := by
  unfold State.updRun
  split <;> rfl
@[simp] theorem State.updRun_life (s : State) (k : Nat) (g : Run → Run) : (s.updRun k g).life = s.life := by
  unfold State.updRun
  split <;> rfl
@[simp] theorem State.updRun_pcie (s : State) (k : Nat) (g : Run → Run) : (s.updRun k g).pcie = s.pcie := by
  unfold State.updRun
  split <;> rfl
@[simp] theorem State.updRun_fns (s : State) (k : Nat) (g : Run → Run) : (s.updRun k g).fns = s.fns := by
  unfold State.updRun
  split <;> rfl
@[simp] theorem State.updRun_addr (s : State) (k : Nat) (g : Run → Run) : (s.updRun k g).addr = s.addr := by
  unfold State.updRun
  split <;> rfl
@[simp] theorem State.updRun_tenants (s : State) (k : Nat) (g : Run → Run) : (s.updRun k g).tenants = s.tenants := by
  unfold State.updRun
  split <;> rfl
@[simp] theorem State.updRun_trouble (s : State) (k : Nat) (g : Run → Run) : (s.updRun k g).trouble = s.trouble := by
  unfold State.updRun
  split <;> rfl
@[simp] theorem State.updRun_rings (s : State) (k : Nat) (g : Run → Run) : (s.updRun k g).rings = s.rings := by
  unfold State.updRun
  split <;> rfl
@[simp] theorem State.updRun_cmds (s : State) (k : Nat) (g : Run → Run) : (s.updRun k g).cmds = s.cmds := by
  unfold State.updRun
  split <;> rfl
@[simp] theorem State.updRun_order (s : State) (k : Nat) (g : Run → Run) : (s.updRun k g).order = s.order := by
  unfold State.updRun
  split <;> rfl
@[simp] theorem State.updRun_reads (s : State) (k : Nat) (g : Run → Run) : (s.updRun k g).reads = s.reads := by
  unfold State.updRun
  split <;> rfl
@[simp] theorem State.updRun_binds (s : State) (k : Nat) (g : Run → Run) : (s.updRun k g).binds = s.binds := by
  unfold State.updRun
  split <;> rfl
@[simp] theorem State.updRun_owners (s : State) (k : Nat) (g : Run → Run) : (s.updRun k g).owners = s.owners := by
  unfold State.updRun
  split <;> rfl
@[simp] theorem State.updRun_pace (s : State) (k : Nat) (g : Run → Run) : (s.updRun k g).pace = s.pace := by
  unfold State.updRun
  split <;> rfl
@[simp] theorem State.updRun_power (s : State) (k : Nat) (g : Run → Run) : (s.updRun k g).power = s.power := by
  unfold State.updRun
  split <;> rfl
@[simp] theorem State.updRun_wd (s : State) (k : Nat) (g : Run → Run) : (s.updRun k g).wd = s.wd := by
  unfold State.updRun
  split <;> rfl
@[simp] theorem State.updRun_dbg (s : State) (k : Nat) (g : Run → Run) : (s.updRun k g).dbg = s.dbg := by
  unfold State.updRun
  split <;> rfl
@[simp] theorem State.updRun_trace (s : State) (k : Nat) (g : Run → Run) : (s.updRun k g).trace = s.trace := by
  unfold State.updRun
  split <;> rfl
@[simp] theorem State.updRun_nvm (s : State) (k : Nat) (g : Run → Run) : (s.updRun k g).nvm = s.nvm := by
  unfold State.updRun
  split <;> rfl
@[simp] theorem State.updRun_fw (s : State) (k : Nat) (g : Run → Run) : (s.updRun k g).fw = s.fw := by
  unfold State.updRun
  split <;> rfl
@[simp] theorem State.updRun_csi (s : State) (k : Nat) (g : Run → Run) : (s.updRun k g).csi = s.csi := by
  unfold State.updRun
  split <;> rfl
@[simp] theorem State.updRun_slots (s : State) (k : Nat) (g : Run → Run) : (s.updRun k g).slots = s.slots := by
  unfold State.updRun
  split <;> rfl
@[simp] theorem State.updRun_weft (s : State) (k : Nat) (g : Run → Run) : (s.updRun k g).weft = s.weft := by
  unfold State.updRun
  split <;> rfl
@[simp] theorem State.updRun_perf (s : State) (k : Nat) (g : Run → Run) : (s.updRun k g).perf = s.perf := by
  unfold State.updRun
  split <;> rfl

/-! ## Lookups -/

@[simp] theorem State.emit_out (s : State) (o : Out) : (s.emit o).out = s.out ++ [o] := rfl
@[simp] theorem State.tick_fresh (s : State) : s.tick.fresh = s.fresh + 1 := rfl

@[simp] theorem State.fnSt_updFn (s : State) (f : Nat) (g : FnSt → FnSt) : (s.updFn f g).fnSt f = g (s.fnSt f) := Table.get_set_self
theorem State.fnSt_updFn_ne (s : State) {f h : Nat} (g : FnSt → FnSt) (e : h ≠ f) : (s.updFn f g).fnSt h = s.fnSt h :=
  Table.get_set_ne _ e

@[simp] theorem State.ring_updRing (s : State) (f r : Nat) (g : Ring → Ring) : (s.updRing f r g).ring f r = g (s.ring f r) :=
  Table.get_set_self
theorem State.ring_updRing_ne (s : State) {f r h q : Nat} (g : Ring → Ring) (e : ringKey h q ≠ ringKey f r) :
    (s.updRing f r g).ring h q = s.ring h q := Table.get_set_ne _ e

@[simp] theorem State.bind_updBind (s : State) (k : Nat) (g : Binding → Binding) : (s.updBind k g).bind k = g (s.bind k) :=
  Table.get_set_self
theorem State.bind_updBind_ne (s : State) {k n : Nat} (g : Binding → Binding) (e : n ≠ k) : (s.updBind k g).bind n = s.bind n :=
  Table.get_set_ne _ e

@[simp] theorem State.slot_updSlot (s : State) (i : Nat) (g : Slot → Slot) : (s.updSlot i g).slot i = g (s.slot i) :=
  Table.get_set_self
theorem State.slot_updSlot_ne (s : State) {i n : Nat} (g : Slot → Slot) (e : n ≠ i) : (s.updSlot i g).slot n = s.slot n :=
  Table.get_set_ne _ e

@[simp] theorem State.rx_updRx (s : State) (n : Nat) (g : Csi → Csi) : (s.updRx n g).rx n = g (s.rx n) := Table.get_set_self

@[simp] theorem State.port_updPort (s : State) (i : Nat) (g : Port → Port) : (s.updPort i g).port i = g (s.port i) :=
  Table.get_set_self
theorem State.port_updPort_ne (s : State) {i n : Nat} (g : Port → Port) (e : n ≠ i) : (s.updPort i g).port n = s.port n :=
  Table.get_set_ne _ e

@[simp] theorem State.peer_updPeer (s : State) (c : Nat) (g : Peer → Peer) : (s.updPeer c g).peer c = g (s.peer c) :=
  Table.get_set_self
@[simp] theorem State.port_updPeer (s : State) (c i : Nat) (g : Peer → Peer) : (s.updPeer c g).port i = s.port i := rfl
@[simp] theorem State.peer_updPort (s : State) (c i : Nat) (g : Port → Port) : (s.updPort i g).peer c = s.peer c := rfl

@[simp] theorem State.run_setRun (s : State) (k : Nat) (r : Run) : (s.setRun k r).run? k = some r := Table.find_insert_self
theorem State.run_setRun_ne (s : State) {k n : Nat} (r : Run) (e : n ≠ k) : (s.setRun k r).run? n = s.run? n :=
  Table.find_insert_ne e

theorem State.cmd_updCmd (s : State) (t : Nat) (g : Cmd → Cmd) : (s.updCmd t g).cmd? t = (s.cmd? t).map g := by
  unfold State.updCmd State.cmd?
  cases h : Table.find s.cmds t with
  | none => simp [h]
  | some c => simp [Table.find_insert_self]
theorem State.cmd_updCmd_ne (s : State) {t u : Nat} (g : Cmd → Cmd) (e : u ≠ t) : (s.updCmd t g).cmd? u = s.cmd? u := by
  unfold State.updCmd State.cmd?
  cases h : Table.find s.cmds t with
  | none => simp
  | some c => exact Table.find_insert_ne e

end Sys2Proof.Machine
end

