-- ==== Sys2Proof/Laws/Frames.lean ====
section
/-!
SUPPORT. For each shared operation, once, the parts of State that it may change: everything else is as before. A proof cites
these in place of unfolding the operation.
-/

namespace Sys2Proof.Machine

/-! ## Trace (R584 to R590) -/

theorem State.traceFifo_frame (s : State) (p : Bytes) : ∃ t, s.traceFifo p = { s with trace := t } := by
  unfold State.traceFifo
  split_ifs
  · exact ⟨s.trace, rfl⟩
  · exact ⟨_, rfl⟩
  · exact ⟨_, rfl⟩

theorem State.traceEmit_frame (s : State) (cls : Nat) (fn : Option Nat) (aon : Bool) (kind src aux : Nat) (data : Word) :
    ∃ t, s.traceEmit cls fn aon kind src aux data = { s with trace := t } := by
  unfold State.traceEmit
  dsimp only
  split_ifs
  · exact ⟨s.trace, rfl⟩
  · exact s.traceFifo_frame _
  · exact ⟨_, rfl⟩
  · exact ⟨_, rfl⟩
  · exact ⟨s.trace, rfl⟩

/-- Folds of operations that change the trace only. -/
theorem State.foldl_trace {α : Type} (f : State → α → State) (h : ∀ s x, ∃ t, f s x = { s with trace := t }) (l : List α) :
    ∀ s : State, ∃ t, l.foldl f s = { s with trace := t } := by
  induction l with
  | nil => exact fun s => ⟨s.trace, rfl⟩
  | cons x l ih =>
    intro s
    obtain ⟨t, e⟩ := h s x
    obtain ⟨u, k⟩ := ih (f s x)
    refine ⟨u, ?_⟩
    rw [List.foldl_cons, k, e]

theorem State.replayStub_frame (s : State) (was : DomState) : ∃ t, s.replayStub was = { s with trace := t } := by
  unfold State.replayStub
  dsimp only
  obtain ⟨t, e⟩ := s.traceFifo_frame (tracePacket s.time 0x02 13 was 0 (BitVec.ofNat 32 s.power.level))
  rw [e]
  obtain ⟨u, k⟩ := State.traceFifo_frame { s with trace := t } (tracePacket { s with trace := t }.time 0x03 0 s.trace.stub.length 0
    (BitVec.ofNat 32 s.trace.stubCount.toNat))
  rw [k]
  obtain ⟨v, m⟩ := State.foldl_trace (fun s p => s.traceFifo (p.take 11 ++ [1] ++ p.drop 12)) (fun s p => s.traceFifo_frame _) u.stub
    { s with trace := u }
  exact ⟨_, by rw [m]⟩

theorem State.restPacket_frame (s old : State) (d : Nat) : ∃ t, s.restPacket old d = { s with trace := t } := by
  unfold State.restPacket
  dsimp only
  split_ifs
  · exact ⟨s.trace, rfl⟩
  · exact s.traceEmit_frame ..

theorem State.resumePacket_frame (s old : State) (d : Nat) : ∃ t, s.resumePacket old d = { s with trace := t } := by
  unfold State.resumePacket
  dsimp only
  split_ifs
  · exact ⟨s.trace, rfl⟩
  · exact s.traceEmit_frame ..

/-! ## Rest levels (R491, R498, R502, R510) -/

/-- What `refreshDoms` may change: the trace, the domains that are ON, and the cores of a quadrant that is OFF. -/
theorem State.refreshDoms_frame (s old : State) : ∃ t c r d, s.refreshDoms old
    = { s with trace := t, addr := { s.addr with cores := c, coreRegs := r }, power := { s.power with dom := d } } := by
  unfold State.refreshDoms
  dsimp only
  have h1 : ∃ t, (if old.domState 13 ≠ 0 ∧ s.domState 13 = 0 ∧ s.trace.en = true then s.replayStub (old.domState 13) else s)
      = { s with trace := t } := by
    split_ifs
    · exact s.replayStub_frame _
    · exact ⟨s.trace, rfl⟩
  obtain ⟨t, e⟩ := h1
  rw [e]
  obtain ⟨u, k⟩ := State.foldl_trace (fun s d => s.restPacket old d) (fun s d => s.restPacket_frame old d)
    [1, 2, 3, 4, 5, 6, 7, 8, 9, 10, 11, 12] { s with trace := t }
  rw [k]
  obtain ⟨w, n⟩ := State.foldl_trace (fun s d => s.resumePacket old d) (fun s d => s.resumePacket_frame old d)
    [10, 1, 2, 3, 4, 5, 6, 7, 8, 9, 11, 12] { s with trace := u }
  rw [n]
  split_ifs
  · obtain ⟨v, m⟩ := State.traceFifo_frame { s with trace := w } (tracePacket { s with trace := w }.time 0x01 13 (s.domState 13) 0
      (BitVec.ofNat 32 { s with trace := w }.power.level))
    rw [m]
    exact ⟨_, _, _, _, rfl⟩
  · exact ⟨_, _, _, _, rfl⟩

/-- What `ltrUpdate` may change: the value reported last, and a message is sent. -/
theorem State.ltrUpdate_frame (s : State) : ∃ v l, s.ltrUpdate = { s with power := { s.power with ltrSent := v }, out := s.out ++ l } := by
  unfold State.ltrUpdate
  dsimp only
  split_ifs
  · exact ⟨s.power.ltrSent, [], by simp⟩
  · exact ⟨_, _, rfl⟩

/-- What `wake` may change; it brings the device to RL0. -/
theorem State.wake_frame (s : State) (src : Nat) : ∃ t c r p w l, p.level = 0 ∧ s.wake src
    = { s with trace := t, addr := { s.addr with cores := c, coreRegs := r }, power := p, wd := w, out := s.out ++ l } := by
  have key : ∀ z y : State, ∃ t c r d v l, (z.refreshDoms y).ltrUpdate = { z with
      trace := t, addr := { z.addr with cores := c, coreRegs := r }, power := { z.power with dom := d, ltrSent := v }
      out := z.out ++ l } := by
    intro z y
    obtain ⟨t, c, r, d, e⟩ := z.refreshDoms_frame y
    obtain ⟨v, l, k⟩ := (z.refreshDoms y).ltrUpdate_frame
    rw [e] at k
    exact ⟨t, c, r, d, v, l, by rw [e, k]⟩
  unfold State.wake
  split_ifs with h
  · exact ⟨s.trace, s.addr.cores, s.addr.coreRegs, { s.power with idleTicks := 0 }, s.wd, [], h, by simp⟩
  · dsimp only
    obtain ⟨t, e⟩ := s.traceEmit_frame 0 none true 0x05 0 src 0
    rw [e]
    obtain ⟨u, c, r, d, v, l, m⟩ := key { s with
      trace := t
      power := { s.power with
        level := 0, wake := s.power.wake ||| 1#7 <<< src, idleTicks := 0, resTicks := 0
        pd1Alone := false, l12Late := false, ckptDone := false }
      wd := s.wd.fresh } s
    exact ⟨_, _, _, _, _, _, rfl, m⟩

/-- What `retarget` may change. -/
theorem State.retarget_frame (s : State) : ∃ t c r p w l, s.retarget
    = { s with trace := t, addr := { s.addr with cores := c, coreRegs := r }, power := p, wd := w, out := s.out ++ l } := by
  unfold State.retarget
  split_ifs
  · obtain ⟨t, c, r, p, w, l, _, e⟩ := s.wake_frame 4
    exact ⟨t, c, r, p, w, l, e⟩
  · obtain ⟨v, l, e⟩ := s.ltrUpdate_frame
    exact ⟨s.trace, s.addr.cores, s.addr.coreRegs, _, s.wd, l, e⟩

/-! ## Events, trouble and the event log (R335, R338, R513, R516) -/

/-- The states that sending on PCIe may change: PD1 alone, the link's L1 and L1.2, and CLKREQ_N. -/
def Power.links (x : Power) : Bool × Bool × Bool × Bool := (x.pd1Alone, x.inL1, x.linkL12, x.clkreqN)

/-- A power state with those changed. -/
def Power.linked (x : Power) (q : Bool × Bool × Bool × Bool) : Power :=
  { x with pd1Alone := q.1, inL1 := q.2.1, linkL12 := q.2.2.1, clkreqN := q.2.2.2 }

@[simp] theorem Power.linked_links (x : Power) : x.linked x.links = x := rfl
@[simp] theorem Power.linked_linked (x : Power) (p q : Bool × Bool × Bool × Bool) : (x.linked p).linked q = x.linked q := rfl

theorem State.leaveL1_frame (s : State) : ∃ p, s.leaveL1 = { s with power := s.power.linked p } := by
  unfold State.leaveL1
  split_ifs
  · exact ⟨(s.power.pd1Alone, false, false, false), rfl⟩
  · exact ⟨s.power.links, rfl⟩

/-- What sending for a function may change. -/
theorem State.busSend_frame (s : State) (f : Nat) (o : Out) : ∃ l t p, s.busSend f o
    = { s with out := s.out ++ l, fns := t, power := s.power.linked p } := by
  unfold State.busSend
  split_ifs
  · obtain ⟨p, e⟩ := s.leaveL1_frame
    rw [e]
    exact ⟨[o], s.fns, p, rfl⟩
  · exact ⟨[], _, s.power.links, by simp [State.updFn]; rfl⟩
  · exact ⟨[], s.fns, s.power.links, by simp⟩

/-- What sending an MSI-X message may change. -/
theorem State.sendMsi_frame (s : State) (f v : Nat) : ∃ l t p, s.sendMsi f v
    = { s with out := s.out ++ l, fns := t, power := s.power.linked p } := by
  unfold State.sendMsi
  dsimp only
  split_ifs
  · exact ⟨[], s.fns, s.power.links, by simp⟩
  · exact ⟨[], _, s.power.links, by simp [State.updFn]; rfl⟩
  · obtain ⟨l, t, p, e⟩ := State.busSend_frame { s with power := { s.power with pd1Alone := true } } f
      (.msix f v (Table.get {} (s.fnSt f).vecs v).addr (Table.get {} (s.fnSt f).vecs v).data)
    exact ⟨l, t, p, e⟩
  · exact s.busSend_frame f _

theorem State.raiseFnEvt_frame (s : State) (f b : Nat) : ∃ l t p, s.raiseFnEvt f b
    = { s with out := s.out ++ l, fns := t, power := s.power.linked p } := by
  unfold State.raiseFnEvt
  dsimp only
  split_ifs
  · exact ⟨[], s.fns, s.power.links, by simp⟩
  · exact ⟨[], _, s.power.links, by simp [State.updFn]; rfl⟩
  · obtain ⟨l, t, p, e⟩ := State.sendMsi_frame (s.updFn f fun y => { y with evtCause := y.evtCause ||| (1 <<< b) }) f 0
    exact ⟨l, t, p, e⟩

theorem State.raiseDevEvt_frame (s : State) (b : Nat) : ∃ l t p c, s.raiseDevEvt b
    = { s with out := s.out ++ l, fns := t, power := s.power.linked p, pcie := { s.pcie with evtCause := c } } := by
  unfold State.raiseDevEvt
  dsimp only
  split_ifs
  · exact ⟨[], s.fns, s.power.links, s.pcie.evtCause, by simp⟩
  · exact ⟨[], s.fns, s.power.links, _, by simp; rfl⟩
  · obtain ⟨l, t, p, e⟩ := State.sendMsi_frame { s with pcie := { s.pcie with evtCause := s.pcie.evtCause ||| (1 <<< b) } } 0 1
    exact ⟨l, t, p, _, e⟩

/-- What setting a trouble bit, or logging, may change. -/
theorem State.setTrb_frame (s : State) (b : Trb) : ∃ l t p c q, s.setTrb b = { s with
    out := s.out ++ l, fns := t, power := s.power.linked p, pcie := { s.pcie with evtCause := c }, trouble := q } := by
  unfold State.setTrb
  split_ifs
  · exact ⟨[], s.fns, s.power.links, s.pcie.evtCause, s.trouble, by simp⟩
  · obtain ⟨l, t, p, c, e⟩ := State.raiseDevEvt_frame { s with trouble := { s.trouble with trb := s.trouble.trb ||| 1#20 <<< b.bit } } 0
    exact ⟨l, t, p, c, _, e⟩

theorem State.setFnTrb_frame (s : State) (f : Nat) (b : FnTrb) : ∃ l t p, s.setFnTrb f b
    = { s with out := s.out ++ l, fns := t, power := s.power.linked p } := by
  unfold State.setFnTrb
  split_ifs
  · exact ⟨[], s.fns, s.power.links, by simp⟩
  · obtain ⟨l, t, p, e⟩ := State.raiseFnEvt_frame (s.updFn f fun x => { x with trb := x.trb ||| 1#10 <<< b.bit }) f 0
    exact ⟨l, t, p, e⟩

theorem State.writeEntry_frame (s : State) (e : LogEntry) : ∃ l t p c q, s.writeEntry e = { s with
    out := s.out ++ l, fns := t, power := s.power.linked p, pcie := { s.pcie with evtCause := c }, trouble := q } := by
  unfold State.writeEntry
  dsimp only
  split_ifs
  all_goals first
    | exact ⟨[], s.fns, s.power.links, s.pcie.evtCause, _, by simp only [List.append_nil]; rfl⟩
    | (obtain ⟨l, t, p, c, q, k⟩ := State.setTrb_frame { s with trouble := _ } .logLost
       exact ⟨l, t, p, c, q, k⟩)

theorem State.setRefs_frame (l : List TrbRef) : ∀ s : State, ∃ o t p c q, s.setRefs l = { s with
    out := s.out ++ o, fns := t, power := s.power.linked p, pcie := { s.pcie with evtCause := c }, trouble := q } := by
  induction l with
  | nil => exact fun s => ⟨[], s.fns, s.power.links, s.pcie.evtCause, s.trouble, by simp [State.setRefs]⟩
  | cons r l ih =>
    intro s
    have key : ∃ o t p c q, ∀ u, u = s.setRefs [r] → u = { s with
        out := s.out ++ o, fns := t, power := s.power.linked p, pcie := { s.pcie with evtCause := c }, trouble := q } := by
      cases r with
      | dev b =>
        simp only [State.setRefs]
        split_ifs
        · exact ⟨[], s.fns, s.power.links, s.pcie.evtCause, s.trouble, by simp⟩
        · obtain ⟨o, t, p, c, e⟩ := State.raiseDevEvt_frame { s with trouble := { s.trouble with trb := s.trouble.trb ||| 1#20 <<< b } } 0
          exact ⟨o, t, p, c, _, fun u h => h.trans e⟩
      | fn f b =>
        simp only [State.setRefs]
        split_ifs
        · exact ⟨[], s.fns, s.power.links, s.pcie.evtCause, s.trouble, by simp⟩
        · obtain ⟨o, t, p, e⟩ := State.raiseFnEvt_frame (s.updFn f fun x => { x with trb := x.trb ||| 1#10 <<< b }) f 0
          exact ⟨o, t, p, s.pcie.evtCause, s.trouble, fun u h => h.trans e⟩
    obtain ⟨o, t, p, c, q, e⟩ := key
    obtain ⟨o2, t2, p2, c2, q2, e2⟩ := ih (s.setRefs [r])
    have h : s.setRefs (r :: l) = (s.setRefs [r]).setRefs l := by
      cases r <;> simp only [State.setRefs]
    rw [e _ rfl] at e2 h
    exact ⟨o ++ o2, t2, p2, c2, q2, by rw [h, e2]; simp⟩

/-- What logging an event may change (R516, R523). -/
theorem State.logEvent_frame (s : State) (kind : Nat) (fn : BitVec 8) (payload : Bytes) (bits : List TrbRef) : ∃ l t p c q,
    s.logEvent kind fn payload bits = { s with
      out := s.out ++ l, fns := t, power := s.power.linked p, pcie := { s.pcie with evtCause := c }, trouble := q } := by
  unfold State.logEvent
  dsimp only
  split_ifs
  · generalize hv : ({ stamp := s.time, kind := BitVec.ofNat 16 kind, fn := fn, payload := payload } : LogEntry) = e
    obtain ⟨l, t, p, c, q, k⟩ := s.writeEntry_frame e
    obtain ⟨l2, t2, p2, c2, q2, k2⟩ := State.setRefs_frame bits (s.writeEntry e)
    rw [k2, k]
    exact ⟨l ++ l2, t2, p2, c2, q2, by simp⟩
  · exact ⟨[], s.fns, s.power.links, s.pcie.evtCause, _, by simp; rfl⟩

/-! ## The end of a command (R396) -/

/-- What ending a command may change: the command, and the trouble bits of its function. -/
theorem State.endCmd_frame (s : State) (k : Nat) (st : BitVec 16) (r0 r1 : Word) : ∃ l t p m h, s.endCmd k st r0 r1 = { s with
    out := s.out ++ l, fns := t, power := s.power.linked p, cmds := m, dbg := { s.dbg with haltEnds := h } } := by
  have key : ∃ l t p, s.endTrb k st = { s with out := s.out ++ l, fns := t, power := s.power.linked p } := by
    unfold State.endTrb
    split
    · exact ⟨[], s.fns, s.power.links, by simp⟩
    · split_ifs
      · exact s.setFnTrb_frame ..
      · exact s.setFnTrb_frame ..
      · exact ⟨[], s.fns, s.power.links, by simp⟩
  obtain ⟨l, t, p, e⟩ := key
  unfold State.endCmd
  rw [e]
  unfold State.updCmd
  dsimp only
  split <;> split
  · exact ⟨l, t, p, s.cmds, _, rfl⟩
  · exact ⟨l, t, p, _, _, rfl⟩
  · exact ⟨l, t, p, s.cmds, s.dbg.haltEnds, rfl⟩
  · exact ⟨l, t, p, _, s.dbg.haltEnds, rfl⟩

/-- A command that ends keeps its status and result words for its completion. -/
theorem State.endCmd_cmd (s : State) (k : Nat) (st : BitVec 16) (r0 r1 : Word) (c : Cmd) (h : s.cmd? k = some c) :
    (s.endCmd k st r0 r1).cmd? k = some { c with phase := .ended, status := st, res0 := r0, res1 := r1 } := by
  have key : (s.endTrb k st).cmd? k = some c := by
    unfold State.endTrb
    rw [h]
    dsimp only
    split_ifs
    · obtain ⟨_, _, _, e⟩ := s.setFnTrb_frame c.fn .coreFault
      rw [e]
      exact h
    · obtain ⟨_, _, _, e⟩ := s.setFnTrb_frame c.fn .peerLost
      rw [e]
      exact h
    · exact h
  have h2 := (s.endTrb k st).cmd_updCmd k fun c => { c with phase := .ended, status := st, res0 := r0, res1 := r1 }
  rw [key] at h2
  unfold State.endCmd
  dsimp only
  split_ifs
  · exact h2
  · exact h2

/-! ## Field by field -/

@[simp] theorem State.traceEmit_pending (s : State) (cls : Nat) (fn : Option Nat) (aon : Bool) (kind src aux : Nat) (data : Word) : (s.traceEmit cls fn aon kind src aux data).pending = s.pending := by
  obtain ⟨_, e⟩ := s.traceEmit_frame cls fn aon kind src aux data
  rw [e]
@[simp] theorem State.traceEmit_out (s : State) (cls : Nat) (fn : Option Nat) (aon : Bool) (kind src aux : Nat) (data : Word) : (s.traceEmit cls fn aon kind src aux data).out = s.out := by
  obtain ⟨_, e⟩ := s.traceEmit_frame cls fn aon kind src aux data
  rw [e]
@[simp] theorem State.traceEmit_blocked (s : State) (cls : Nat) (fn : Option Nat) (aon : Bool) (kind src aux : Nat) (data : Word) : (s.traceEmit cls fn aon kind src aux data).blocked = s.blocked := by
  obtain ⟨_, e⟩ := s.traceEmit_frame cls fn aon kind src aux data
  rw [e]
@[simp] theorem State.traceEmit_fresh (s : State) (cls : Nat) (fn : Option Nat) (aon : Bool) (kind src aux : Nat) (data : Word) : (s.traceEmit cls fn aon kind src aux data).fresh = s.fresh := by
  obtain ⟨_, e⟩ := s.traceEmit_frame cls fn aon kind src aux data
  rw [e]
@[simp] theorem State.traceEmit_time (s : State) (cls : Nat) (fn : Option Nat) (aon : Bool) (kind src aux : Nat) (data : Word) : (s.traceEmit cls fn aon kind src aux data).time = s.time := by
  obtain ⟨_, e⟩ := s.traceEmit_frame cls fn aon kind src aux data
  rw [e]
@[simp] theorem State.traceEmit_pins (s : State) (cls : Nat) (fn : Option Nat) (aon : Bool) (kind src aux : Nat) (data : Word) : (s.traceEmit cls fn aon kind src aux data).pins = s.pins := by
  obtain ⟨_, e⟩ := s.traceEmit_frame cls fn aon kind src aux data
  rw [e]
@[simp] theorem State.traceEmit_fuses (s : State) (cls : Nat) (fn : Option Nat) (aon : Bool) (kind src aux : Nat) (data : Word) : (s.traceEmit cls fn aon kind src aux data).fuses = s.fuses := by
  obtain ⟨_, e⟩ := s.traceEmit_frame cls fn aon kind src aux data
  rw [e]
@[simp] theorem State.traceEmit_life (s : State) (cls : Nat) (fn : Option Nat) (aon : Bool) (kind src aux : Nat) (data : Word) : (s.traceEmit cls fn aon kind src aux data).life = s.life := by
  obtain ⟨_, e⟩ := s.traceEmit_frame cls fn aon kind src aux data
  rw [e]
@[simp] theorem State.traceEmit_pcie (s : State) (cls : Nat) (fn : Option Nat) (aon : Bool) (kind src aux : Nat) (data : Word) : (s.traceEmit cls fn aon kind src aux data).pcie = s.pcie := by
  obtain ⟨_, e⟩ := s.traceEmit_frame cls fn aon kind src aux data
  rw [e]
@[simp] theorem State.traceEmit_fns (s : State) (cls : Nat) (fn : Option Nat) (aon : Bool) (kind src aux : Nat) (data : Word) : (s.traceEmit cls fn aon kind src aux data).fns = s.fns := by
  obtain ⟨_, e⟩ := s.traceEmit_frame cls fn aon kind src aux data
  rw [e]
@[simp] theorem State.traceEmit_addr (s : State) (cls : Nat) (fn : Option Nat) (aon : Bool) (kind src aux : Nat) (data : Word) : (s.traceEmit cls fn aon kind src aux data).addr = s.addr := by
  obtain ⟨_, e⟩ := s.traceEmit_frame cls fn aon kind src aux data
  rw [e]
@[simp] theorem State.traceEmit_tenants (s : State) (cls : Nat) (fn : Option Nat) (aon : Bool) (kind src aux : Nat) (data : Word) : (s.traceEmit cls fn aon kind src aux data).tenants = s.tenants := by
  obtain ⟨_, e⟩ := s.traceEmit_frame cls fn aon kind src aux data
  rw [e]
@[simp] theorem State.traceEmit_trouble (s : State) (cls : Nat) (fn : Option Nat) (aon : Bool) (kind src aux : Nat) (data : Word) : (s.traceEmit cls fn aon kind src aux data).trouble = s.trouble := by
  obtain ⟨_, e⟩ := s.traceEmit_frame cls fn aon kind src aux data
  rw [e]
@[simp] theorem State.traceEmit_rings (s : State) (cls : Nat) (fn : Option Nat) (aon : Bool) (kind src aux : Nat) (data : Word) : (s.traceEmit cls fn aon kind src aux data).rings = s.rings := by
  obtain ⟨_, e⟩ := s.traceEmit_frame cls fn aon kind src aux data
  rw [e]
@[simp] theorem State.traceEmit_cmds (s : State) (cls : Nat) (fn : Option Nat) (aon : Bool) (kind src aux : Nat) (data : Word) : (s.traceEmit cls fn aon kind src aux data).cmds = s.cmds := by
  obtain ⟨_, e⟩ := s.traceEmit_frame cls fn aon kind src aux data
  rw [e]
@[simp] theorem State.traceEmit_order (s : State) (cls : Nat) (fn : Option Nat) (aon : Bool) (kind src aux : Nat) (data : Word) : (s.traceEmit cls fn aon kind src aux data).order = s.order := by
  obtain ⟨_, e⟩ := s.traceEmit_frame cls fn aon kind src aux data
  rw [e]
@[simp] theorem State.traceEmit_reads (s : State) (cls : Nat) (fn : Option Nat) (aon : Bool) (kind src aux : Nat) (data : Word) : (s.traceEmit cls fn aon kind src aux data).reads = s.reads := by
  obtain ⟨_, e⟩ := s.traceEmit_frame cls fn aon kind src aux data
  rw [e]
@[simp] theorem State.traceEmit_binds (s : State) (cls : Nat) (fn : Option Nat) (aon : Bool) (kind src aux : Nat) (data : Word) : (s.traceEmit cls fn aon kind src aux data).binds = s.binds := by
  obtain ⟨_, e⟩ := s.traceEmit_frame cls fn aon kind src aux data
  rw [e]
@[simp] theorem State.traceEmit_owners (s : State) (cls : Nat) (fn : Option Nat) (aon : Bool) (kind src aux : Nat) (data : Word) : (s.traceEmit cls fn aon kind src aux data).owners = s.owners := by
  obtain ⟨_, e⟩ := s.traceEmit_frame cls fn aon kind src aux data
  rw [e]
@[simp] theorem State.traceEmit_pace (s : State) (cls : Nat) (fn : Option Nat) (aon : Bool) (kind src aux : Nat) (data : Word) : (s.traceEmit cls fn aon kind src aux data).pace = s.pace := by
  obtain ⟨_, e⟩ := s.traceEmit_frame cls fn aon kind src aux data
  rw [e]
@[simp] theorem State.traceEmit_power (s : State) (cls : Nat) (fn : Option Nat) (aon : Bool) (kind src aux : Nat) (data : Word) : (s.traceEmit cls fn aon kind src aux data).power = s.power := by
  obtain ⟨_, e⟩ := s.traceEmit_frame cls fn aon kind src aux data
  rw [e]
@[simp] theorem State.traceEmit_wd (s : State) (cls : Nat) (fn : Option Nat) (aon : Bool) (kind src aux : Nat) (data : Word) : (s.traceEmit cls fn aon kind src aux data).wd = s.wd := by
  obtain ⟨_, e⟩ := s.traceEmit_frame cls fn aon kind src aux data
  rw [e]
@[simp] theorem State.traceEmit_dbg (s : State) (cls : Nat) (fn : Option Nat) (aon : Bool) (kind src aux : Nat) (data : Word) : (s.traceEmit cls fn aon kind src aux data).dbg = s.dbg := by
  obtain ⟨_, e⟩ := s.traceEmit_frame cls fn aon kind src aux data
  rw [e]
@[simp] theorem State.traceEmit_nvm (s : State) (cls : Nat) (fn : Option Nat) (aon : Bool) (kind src aux : Nat) (data : Word) : (s.traceEmit cls fn aon kind src aux data).nvm = s.nvm := by
  obtain ⟨_, e⟩ := s.traceEmit_frame cls fn aon kind src aux data
  rw [e]
@[simp] theorem State.traceEmit_fw (s : State) (cls : Nat) (fn : Option Nat) (aon : Bool) (kind src aux : Nat) (data : Word) : (s.traceEmit cls fn aon kind src aux data).fw = s.fw := by
  obtain ⟨_, e⟩ := s.traceEmit_frame cls fn aon kind src aux data
  rw [e]
@[simp] theorem State.traceEmit_csi (s : State) (cls : Nat) (fn : Option Nat) (aon : Bool) (kind src aux : Nat) (data : Word) : (s.traceEmit cls fn aon kind src aux data).csi = s.csi := by
  obtain ⟨_, e⟩ := s.traceEmit_frame cls fn aon kind src aux data
  rw [e]
@[simp] theorem State.traceEmit_slots (s : State) (cls : Nat) (fn : Option Nat) (aon : Bool) (kind src aux : Nat) (data : Word) : (s.traceEmit cls fn aon kind src aux data).slots = s.slots := by
  obtain ⟨_, e⟩ := s.traceEmit_frame cls fn aon kind src aux data
  rw [e]
@[simp] theorem State.traceEmit_weft (s : State) (cls : Nat) (fn : Option Nat) (aon : Bool) (kind src aux : Nat) (data : Word) : (s.traceEmit cls fn aon kind src aux data).weft = s.weft := by
  obtain ⟨_, e⟩ := s.traceEmit_frame cls fn aon kind src aux data
  rw [e]
@[simp] theorem State.traceEmit_comp (s : State) (cls : Nat) (fn : Option Nat) (aon : Bool) (kind src aux : Nat) (data : Word) : (s.traceEmit cls fn aon kind src aux data).comp = s.comp := by
  obtain ⟨_, e⟩ := s.traceEmit_frame cls fn aon kind src aux data
  rw [e]
@[simp] theorem State.traceEmit_perf (s : State) (cls : Nat) (fn : Option Nat) (aon : Bool) (kind src aux : Nat) (data : Word) : (s.traceEmit cls fn aon kind src aux data).perf = s.perf := by
  obtain ⟨_, e⟩ := s.traceEmit_frame cls fn aon kind src aux data
  rw [e]
@[simp] theorem State.refreshDoms_pending (s : State) (old : State) : (s.refreshDoms old).pending = s.pending := by
  obtain ⟨_, _, _, _, e⟩ := s.refreshDoms_frame old
  rw [e]
@[simp] theorem State.refreshDoms_out (s : State) (old : State) : (s.refreshDoms old).out = s.out := by
  obtain ⟨_, _, _, _, e⟩ := s.refreshDoms_frame old
  rw [e]
@[simp] theorem State.refreshDoms_blocked (s : State) (old : State) : (s.refreshDoms old).blocked = s.blocked := by
  obtain ⟨_, _, _, _, e⟩ := s.refreshDoms_frame old
  rw [e]
@[simp] theorem State.refreshDoms_fresh (s : State) (old : State) : (s.refreshDoms old).fresh = s.fresh := by
  obtain ⟨_, _, _, _, e⟩ := s.refreshDoms_frame old
  rw [e]
@[simp] theorem State.refreshDoms_time (s : State) (old : State) : (s.refreshDoms old).time = s.time := by
  obtain ⟨_, _, _, _, e⟩ := s.refreshDoms_frame old
  rw [e]
@[simp] theorem State.refreshDoms_pins (s : State) (old : State) : (s.refreshDoms old).pins = s.pins := by
  obtain ⟨_, _, _, _, e⟩ := s.refreshDoms_frame old
  rw [e]
@[simp] theorem State.refreshDoms_fuses (s : State) (old : State) : (s.refreshDoms old).fuses = s.fuses := by
  obtain ⟨_, _, _, _, e⟩ := s.refreshDoms_frame old
  rw [e]
@[simp] theorem State.refreshDoms_life (s : State) (old : State) : (s.refreshDoms old).life = s.life := by
  obtain ⟨_, _, _, _, e⟩ := s.refreshDoms_frame old
  rw [e]
@[simp] theorem State.refreshDoms_pcie (s : State) (old : State) : (s.refreshDoms old).pcie = s.pcie := by
  obtain ⟨_, _, _, _, e⟩ := s.refreshDoms_frame old
  rw [e]
@[simp] theorem State.refreshDoms_fns (s : State) (old : State) : (s.refreshDoms old).fns = s.fns := by
  obtain ⟨_, _, _, _, e⟩ := s.refreshDoms_frame old
  rw [e]
@[simp] theorem State.refreshDoms_tenants (s : State) (old : State) : (s.refreshDoms old).tenants = s.tenants := by
  obtain ⟨_, _, _, _, e⟩ := s.refreshDoms_frame old
  rw [e]
@[simp] theorem State.refreshDoms_trouble (s : State) (old : State) : (s.refreshDoms old).trouble = s.trouble := by
  obtain ⟨_, _, _, _, e⟩ := s.refreshDoms_frame old
  rw [e]
@[simp] theorem State.refreshDoms_rings (s : State) (old : State) : (s.refreshDoms old).rings = s.rings := by
  obtain ⟨_, _, _, _, e⟩ := s.refreshDoms_frame old
  rw [e]
@[simp] theorem State.refreshDoms_cmds (s : State) (old : State) : (s.refreshDoms old).cmds = s.cmds := by
  obtain ⟨_, _, _, _, e⟩ := s.refreshDoms_frame old
  rw [e]
@[simp] theorem State.refreshDoms_order (s : State) (old : State) : (s.refreshDoms old).order = s.order := by
  obtain ⟨_, _, _, _, e⟩ := s.refreshDoms_frame old
  rw [e]
@[simp] theorem State.refreshDoms_reads (s : State) (old : State) : (s.refreshDoms old).reads = s.reads := by
  obtain ⟨_, _, _, _, e⟩ := s.refreshDoms_frame old
  rw [e]
@[simp] theorem State.refreshDoms_binds (s : State) (old : State) : (s.refreshDoms old).binds = s.binds := by
  obtain ⟨_, _, _, _, e⟩ := s.refreshDoms_frame old
  rw [e]
@[simp] theorem State.refreshDoms_owners (s : State) (old : State) : (s.refreshDoms old).owners = s.owners := by
  obtain ⟨_, _, _, _, e⟩ := s.refreshDoms_frame old
  rw [e]
@[simp] theorem State.refreshDoms_pace (s : State) (old : State) : (s.refreshDoms old).pace = s.pace := by
  obtain ⟨_, _, _, _, e⟩ := s.refreshDoms_frame old
  rw [e]
@[simp] theorem State.refreshDoms_wd (s : State) (old : State) : (s.refreshDoms old).wd = s.wd := by
  obtain ⟨_, _, _, _, e⟩ := s.refreshDoms_frame old
  rw [e]
@[simp] theorem State.refreshDoms_dbg (s : State) (old : State) : (s.refreshDoms old).dbg = s.dbg := by
  obtain ⟨_, _, _, _, e⟩ := s.refreshDoms_frame old
  rw [e]
@[simp] theorem State.refreshDoms_nvm (s : State) (old : State) : (s.refreshDoms old).nvm = s.nvm := by
  obtain ⟨_, _, _, _, e⟩ := s.refreshDoms_frame old
  rw [e]
@[simp] theorem State.refreshDoms_fw (s : State) (old : State) : (s.refreshDoms old).fw = s.fw := by
  obtain ⟨_, _, _, _, e⟩ := s.refreshDoms_frame old
  rw [e]
@[simp] theorem State.refreshDoms_csi (s : State) (old : State) : (s.refreshDoms old).csi = s.csi := by
  obtain ⟨_, _, _, _, e⟩ := s.refreshDoms_frame old
  rw [e]
@[simp] theorem State.refreshDoms_slots (s : State) (old : State) : (s.refreshDoms old).slots = s.slots := by
  obtain ⟨_, _, _, _, e⟩ := s.refreshDoms_frame old
  rw [e]
@[simp] theorem State.refreshDoms_weft (s : State) (old : State) : (s.refreshDoms old).weft = s.weft := by
  obtain ⟨_, _, _, _, e⟩ := s.refreshDoms_frame old
  rw [e]
@[simp] theorem State.refreshDoms_comp (s : State) (old : State) : (s.refreshDoms old).comp = s.comp := by
  obtain ⟨_, _, _, _, e⟩ := s.refreshDoms_frame old
  rw [e]
@[simp] theorem State.refreshDoms_perf (s : State) (old : State) : (s.refreshDoms old).perf = s.perf := by
  obtain ⟨_, _, _, _, e⟩ := s.refreshDoms_frame old
  rw [e]
@[simp] theorem State.wake_pending (s : State) (src : Nat) : (s.wake src).pending = s.pending := by
  obtain ⟨_, _, _, _, _, _, _, e⟩ := s.wake_frame src
  rw [e]
@[simp] theorem State.wake_blocked (s : State) (src : Nat) : (s.wake src).blocked = s.blocked := by
  obtain ⟨_, _, _, _, _, _, _, e⟩ := s.wake_frame src
  rw [e]
@[simp] theorem State.wake_fresh (s : State) (src : Nat) : (s.wake src).fresh = s.fresh := by
  obtain ⟨_, _, _, _, _, _, _, e⟩ := s.wake_frame src
  rw [e]
@[simp] theorem State.wake_time (s : State) (src : Nat) : (s.wake src).time = s.time := by
  obtain ⟨_, _, _, _, _, _, _, e⟩ := s.wake_frame src
  rw [e]
@[simp] theorem State.wake_pins (s : State) (src : Nat) : (s.wake src).pins = s.pins := by
  obtain ⟨_, _, _, _, _, _, _, e⟩ := s.wake_frame src
  rw [e]
@[simp] theorem State.wake_fuses (s : State) (src : Nat) : (s.wake src).fuses = s.fuses := by
  obtain ⟨_, _, _, _, _, _, _, e⟩ := s.wake_frame src
  rw [e]
@[simp] theorem State.wake_life (s : State) (src : Nat) : (s.wake src).life = s.life := by
  obtain ⟨_, _, _, _, _, _, _, e⟩ := s.wake_frame src
  rw [e]
@[simp] theorem State.wake_pcie (s : State) (src : Nat) : (s.wake src).pcie = s.pcie := by
  obtain ⟨_, _, _, _, _, _, _, e⟩ := s.wake_frame src
  rw [e]
@[simp] theorem State.wake_fns (s : State) (src : Nat) : (s.wake src).fns = s.fns := by
  obtain ⟨_, _, _, _, _, _, _, e⟩ := s.wake_frame src
  rw [e]
@[simp] theorem State.wake_tenants (s : State) (src : Nat) : (s.wake src).tenants = s.tenants := by
  obtain ⟨_, _, _, _, _, _, _, e⟩ := s.wake_frame src
  rw [e]
@[simp] theorem State.wake_trouble (s : State) (src : Nat) : (s.wake src).trouble = s.trouble := by
  obtain ⟨_, _, _, _, _, _, _, e⟩ := s.wake_frame src
  rw [e]
@[simp] theorem State.wake_rings (s : State) (src : Nat) : (s.wake src).rings = s.rings := by
  obtain ⟨_, _, _, _, _, _, _, e⟩ := s.wake_frame src
  rw [e]
@[simp] theorem State.wake_cmds (s : State) (src : Nat) : (s.wake src).cmds = s.cmds := by
  obtain ⟨_, _, _, _, _, _, _, e⟩ := s.wake_frame src
  rw [e]
@[simp] theorem State.wake_order (s : State) (src : Nat) : (s.wake src).order = s.order := by
  obtain ⟨_, _, _, _, _, _, _, e⟩ := s.wake_frame src
  rw [e]
@[simp] theorem State.wake_reads (s : State) (src : Nat) : (s.wake src).reads = s.reads := by
  obtain ⟨_, _, _, _, _, _, _, e⟩ := s.wake_frame src
  rw [e]
@[simp] theorem State.wake_binds (s : State) (src : Nat) : (s.wake src).binds = s.binds := by
  obtain ⟨_, _, _, _, _, _, _, e⟩ := s.wake_frame src
  rw [e]
@[simp] theorem State.wake_owners (s : State) (src : Nat) : (s.wake src).owners = s.owners := by
  obtain ⟨_, _, _, _, _, _, _, e⟩ := s.wake_frame src
  rw [e]
@[simp] theorem State.wake_pace (s : State) (src : Nat) : (s.wake src).pace = s.pace := by
  obtain ⟨_, _, _, _, _, _, _, e⟩ := s.wake_frame src
  rw [e]
@[simp] theorem State.wake_dbg (s : State) (src : Nat) : (s.wake src).dbg = s.dbg := by
  obtain ⟨_, _, _, _, _, _, _, e⟩ := s.wake_frame src
  rw [e]
@[simp] theorem State.wake_nvm (s : State) (src : Nat) : (s.wake src).nvm = s.nvm := by
  obtain ⟨_, _, _, _, _, _, _, e⟩ := s.wake_frame src
  rw [e]
@[simp] theorem State.wake_fw (s : State) (src : Nat) : (s.wake src).fw = s.fw := by
  obtain ⟨_, _, _, _, _, _, _, e⟩ := s.wake_frame src
  rw [e]
@[simp] theorem State.wake_csi (s : State) (src : Nat) : (s.wake src).csi = s.csi := by
  obtain ⟨_, _, _, _, _, _, _, e⟩ := s.wake_frame src
  rw [e]
@[simp] theorem State.wake_slots (s : State) (src : Nat) : (s.wake src).slots = s.slots := by
  obtain ⟨_, _, _, _, _, _, _, e⟩ := s.wake_frame src
  rw [e]
@[simp] theorem State.wake_weft (s : State) (src : Nat) : (s.wake src).weft = s.weft := by
  obtain ⟨_, _, _, _, _, _, _, e⟩ := s.wake_frame src
  rw [e]
@[simp] theorem State.wake_comp (s : State) (src : Nat) : (s.wake src).comp = s.comp := by
  obtain ⟨_, _, _, _, _, _, _, e⟩ := s.wake_frame src
  rw [e]
@[simp] theorem State.wake_perf (s : State) (src : Nat) : (s.wake src).perf = s.perf := by
  obtain ⟨_, _, _, _, _, _, _, e⟩ := s.wake_frame src
  rw [e]
@[simp] theorem State.retarget_pending (s : State) : s.retarget.pending = s.pending := by
  obtain ⟨_, _, _, _, _, _, e⟩ := s.retarget_frame
  rw [e]
@[simp] theorem State.retarget_blocked (s : State) : s.retarget.blocked = s.blocked := by
  obtain ⟨_, _, _, _, _, _, e⟩ := s.retarget_frame
  rw [e]
@[simp] theorem State.retarget_fresh (s : State) : s.retarget.fresh = s.fresh := by
  obtain ⟨_, _, _, _, _, _, e⟩ := s.retarget_frame
  rw [e]
@[simp] theorem State.retarget_time (s : State) : s.retarget.time = s.time := by
  obtain ⟨_, _, _, _, _, _, e⟩ := s.retarget_frame
  rw [e]
@[simp] theorem State.retarget_pins (s : State) : s.retarget.pins = s.pins := by
  obtain ⟨_, _, _, _, _, _, e⟩ := s.retarget_frame
  rw [e]
@[simp] theorem State.retarget_fuses (s : State) : s.retarget.fuses = s.fuses := by
  obtain ⟨_, _, _, _, _, _, e⟩ := s.retarget_frame
  rw [e]
@[simp] theorem State.retarget_life (s : State) : s.retarget.life = s.life := by
  obtain ⟨_, _, _, _, _, _, e⟩ := s.retarget_frame
  rw [e]
@[simp] theorem State.retarget_pcie (s : State) : s.retarget.pcie = s.pcie := by
  obtain ⟨_, _, _, _, _, _, e⟩ := s.retarget_frame
  rw [e]
@[simp] theorem State.retarget_fns (s : State) : s.retarget.fns = s.fns := by
  obtain ⟨_, _, _, _, _, _, e⟩ := s.retarget_frame
  rw [e]
@[simp] theorem State.retarget_tenants (s : State) : s.retarget.tenants = s.tenants := by
  obtain ⟨_, _, _, _, _, _, e⟩ := s.retarget_frame
  rw [e]
@[simp] theorem State.retarget_trouble (s : State) : s.retarget.trouble = s.trouble := by
  obtain ⟨_, _, _, _, _, _, e⟩ := s.retarget_frame
  rw [e]
@[simp] theorem State.retarget_rings (s : State) : s.retarget.rings = s.rings := by
  obtain ⟨_, _, _, _, _, _, e⟩ := s.retarget_frame
  rw [e]
@[simp] theorem State.retarget_cmds (s : State) : s.retarget.cmds = s.cmds := by
  obtain ⟨_, _, _, _, _, _, e⟩ := s.retarget_frame
  rw [e]
@[simp] theorem State.retarget_order (s : State) : s.retarget.order = s.order := by
  obtain ⟨_, _, _, _, _, _, e⟩ := s.retarget_frame
  rw [e]
@[simp] theorem State.retarget_reads (s : State) : s.retarget.reads = s.reads := by
  obtain ⟨_, _, _, _, _, _, e⟩ := s.retarget_frame
  rw [e]
@[simp] theorem State.retarget_binds (s : State) : s.retarget.binds = s.binds := by
  obtain ⟨_, _, _, _, _, _, e⟩ := s.retarget_frame
  rw [e]
@[simp] theorem State.retarget_owners (s : State) : s.retarget.owners = s.owners := by
  obtain ⟨_, _, _, _, _, _, e⟩ := s.retarget_frame
  rw [e]
@[simp] theorem State.retarget_pace (s : State) : s.retarget.pace = s.pace := by
  obtain ⟨_, _, _, _, _, _, e⟩ := s.retarget_frame
  rw [e]
@[simp] theorem State.retarget_dbg (s : State) : s.retarget.dbg = s.dbg := by
  obtain ⟨_, _, _, _, _, _, e⟩ := s.retarget_frame
  rw [e]
@[simp] theorem State.retarget_nvm (s : State) : s.retarget.nvm = s.nvm := by
  obtain ⟨_, _, _, _, _, _, e⟩ := s.retarget_frame
  rw [e]
@[simp] theorem State.retarget_fw (s : State) : s.retarget.fw = s.fw := by
  obtain ⟨_, _, _, _, _, _, e⟩ := s.retarget_frame
  rw [e]
@[simp] theorem State.retarget_csi (s : State) : s.retarget.csi = s.csi := by
  obtain ⟨_, _, _, _, _, _, e⟩ := s.retarget_frame
  rw [e]
@[simp] theorem State.retarget_slots (s : State) : s.retarget.slots = s.slots := by
  obtain ⟨_, _, _, _, _, _, e⟩ := s.retarget_frame
  rw [e]
@[simp] theorem State.retarget_weft (s : State) : s.retarget.weft = s.weft := by
  obtain ⟨_, _, _, _, _, _, e⟩ := s.retarget_frame
  rw [e]
@[simp] theorem State.retarget_comp (s : State) : s.retarget.comp = s.comp := by
  obtain ⟨_, _, _, _, _, _, e⟩ := s.retarget_frame
  rw [e]
@[simp] theorem State.retarget_perf (s : State) : s.retarget.perf = s.perf := by
  obtain ⟨_, _, _, _, _, _, e⟩ := s.retarget_frame
  rw [e]
@[simp] theorem State.sendMsi_pending (s : State) (f v : Nat) : (s.sendMsi f v).pending = s.pending := by
  obtain ⟨_, _, _, e⟩ := s.sendMsi_frame f v
  rw [e]
@[simp] theorem State.sendMsi_blocked (s : State) (f v : Nat) : (s.sendMsi f v).blocked = s.blocked := by
  obtain ⟨_, _, _, e⟩ := s.sendMsi_frame f v
  rw [e]
@[simp] theorem State.sendMsi_fresh (s : State) (f v : Nat) : (s.sendMsi f v).fresh = s.fresh := by
  obtain ⟨_, _, _, e⟩ := s.sendMsi_frame f v
  rw [e]
@[simp] theorem State.sendMsi_time (s : State) (f v : Nat) : (s.sendMsi f v).time = s.time := by
  obtain ⟨_, _, _, e⟩ := s.sendMsi_frame f v
  rw [e]
@[simp] theorem State.sendMsi_pins (s : State) (f v : Nat) : (s.sendMsi f v).pins = s.pins := by
  obtain ⟨_, _, _, e⟩ := s.sendMsi_frame f v
  rw [e]
@[simp] theorem State.sendMsi_fuses (s : State) (f v : Nat) : (s.sendMsi f v).fuses = s.fuses := by
  obtain ⟨_, _, _, e⟩ := s.sendMsi_frame f v
  rw [e]
@[simp] theorem State.sendMsi_life (s : State) (f v : Nat) : (s.sendMsi f v).life = s.life := by
  obtain ⟨_, _, _, e⟩ := s.sendMsi_frame f v
  rw [e]
@[simp] theorem State.sendMsi_pcie (s : State) (f v : Nat) : (s.sendMsi f v).pcie = s.pcie := by
  obtain ⟨_, _, _, e⟩ := s.sendMsi_frame f v
  rw [e]
@[simp] theorem State.sendMsi_addr (s : State) (f v : Nat) : (s.sendMsi f v).addr = s.addr := by
  obtain ⟨_, _, _, e⟩ := s.sendMsi_frame f v
  rw [e]
@[simp] theorem State.sendMsi_tenants (s : State) (f v : Nat) : (s.sendMsi f v).tenants = s.tenants := by
  obtain ⟨_, _, _, e⟩ := s.sendMsi_frame f v
  rw [e]
@[simp] theorem State.sendMsi_trouble (s : State) (f v : Nat) : (s.sendMsi f v).trouble = s.trouble := by
  obtain ⟨_, _, _, e⟩ := s.sendMsi_frame f v
  rw [e]
@[simp] theorem State.sendMsi_rings (s : State) (f v : Nat) : (s.sendMsi f v).rings = s.rings := by
  obtain ⟨_, _, _, e⟩ := s.sendMsi_frame f v
  rw [e]
@[simp] theorem State.sendMsi_cmds (s : State) (f v : Nat) : (s.sendMsi f v).cmds = s.cmds := by
  obtain ⟨_, _, _, e⟩ := s.sendMsi_frame f v
  rw [e]
@[simp] theorem State.sendMsi_order (s : State) (f v : Nat) : (s.sendMsi f v).order = s.order := by
  obtain ⟨_, _, _, e⟩ := s.sendMsi_frame f v
  rw [e]
@[simp] theorem State.sendMsi_reads (s : State) (f v : Nat) : (s.sendMsi f v).reads = s.reads := by
  obtain ⟨_, _, _, e⟩ := s.sendMsi_frame f v
  rw [e]
@[simp] theorem State.sendMsi_binds (s : State) (f v : Nat) : (s.sendMsi f v).binds = s.binds := by
  obtain ⟨_, _, _, e⟩ := s.sendMsi_frame f v
  rw [e]
@[simp] theorem State.sendMsi_owners (s : State) (f v : Nat) : (s.sendMsi f v).owners = s.owners := by
  obtain ⟨_, _, _, e⟩ := s.sendMsi_frame f v
  rw [e]
@[simp] theorem State.sendMsi_pace (s : State) (f v : Nat) : (s.sendMsi f v).pace = s.pace := by
  obtain ⟨_, _, _, e⟩ := s.sendMsi_frame f v
  rw [e]
@[simp] theorem State.sendMsi_wd (s : State) (f v : Nat) : (s.sendMsi f v).wd = s.wd := by
  obtain ⟨_, _, _, e⟩ := s.sendMsi_frame f v
  rw [e]
@[simp] theorem State.sendMsi_dbg (s : State) (f v : Nat) : (s.sendMsi f v).dbg = s.dbg := by
  obtain ⟨_, _, _, e⟩ := s.sendMsi_frame f v
  rw [e]
@[simp] theorem State.sendMsi_trace (s : State) (f v : Nat) : (s.sendMsi f v).trace = s.trace := by
  obtain ⟨_, _, _, e⟩ := s.sendMsi_frame f v
  rw [e]
@[simp] theorem State.sendMsi_nvm (s : State) (f v : Nat) : (s.sendMsi f v).nvm = s.nvm := by
  obtain ⟨_, _, _, e⟩ := s.sendMsi_frame f v
  rw [e]
@[simp] theorem State.sendMsi_fw (s : State) (f v : Nat) : (s.sendMsi f v).fw = s.fw := by
  obtain ⟨_, _, _, e⟩ := s.sendMsi_frame f v
  rw [e]
@[simp] theorem State.sendMsi_csi (s : State) (f v : Nat) : (s.sendMsi f v).csi = s.csi := by
  obtain ⟨_, _, _, e⟩ := s.sendMsi_frame f v
  rw [e]
@[simp] theorem State.sendMsi_slots (s : State) (f v : Nat) : (s.sendMsi f v).slots = s.slots := by
  obtain ⟨_, _, _, e⟩ := s.sendMsi_frame f v
  rw [e]
@[simp] theorem State.sendMsi_weft (s : State) (f v : Nat) : (s.sendMsi f v).weft = s.weft := by
  obtain ⟨_, _, _, e⟩ := s.sendMsi_frame f v
  rw [e]
@[simp] theorem State.sendMsi_comp (s : State) (f v : Nat) : (s.sendMsi f v).comp = s.comp := by
  obtain ⟨_, _, _, e⟩ := s.sendMsi_frame f v
  rw [e]
@[simp] theorem State.sendMsi_perf (s : State) (f v : Nat) : (s.sendMsi f v).perf = s.perf := by
  obtain ⟨_, _, _, e⟩ := s.sendMsi_frame f v
  rw [e]
@[simp] theorem State.raiseFnEvt_pending (s : State) (f b : Nat) : (s.raiseFnEvt f b).pending = s.pending := by
  obtain ⟨_, _, _, e⟩ := s.raiseFnEvt_frame f b
  rw [e]
@[simp] theorem State.raiseFnEvt_blocked (s : State) (f b : Nat) : (s.raiseFnEvt f b).blocked = s.blocked := by
  obtain ⟨_, _, _, e⟩ := s.raiseFnEvt_frame f b
  rw [e]
@[simp] theorem State.raiseFnEvt_fresh (s : State) (f b : Nat) : (s.raiseFnEvt f b).fresh = s.fresh := by
  obtain ⟨_, _, _, e⟩ := s.raiseFnEvt_frame f b
  rw [e]
@[simp] theorem State.raiseFnEvt_time (s : State) (f b : Nat) : (s.raiseFnEvt f b).time = s.time := by
  obtain ⟨_, _, _, e⟩ := s.raiseFnEvt_frame f b
  rw [e]
@[simp] theorem State.raiseFnEvt_pins (s : State) (f b : Nat) : (s.raiseFnEvt f b).pins = s.pins := by
  obtain ⟨_, _, _, e⟩ := s.raiseFnEvt_frame f b
  rw [e]
@[simp] theorem State.raiseFnEvt_fuses (s : State) (f b : Nat) : (s.raiseFnEvt f b).fuses = s.fuses := by
  obtain ⟨_, _, _, e⟩ := s.raiseFnEvt_frame f b
  rw [e]
@[simp] theorem State.raiseFnEvt_life (s : State) (f b : Nat) : (s.raiseFnEvt f b).life = s.life := by
  obtain ⟨_, _, _, e⟩ := s.raiseFnEvt_frame f b
  rw [e]
@[simp] theorem State.raiseFnEvt_pcie (s : State) (f b : Nat) : (s.raiseFnEvt f b).pcie = s.pcie := by
  obtain ⟨_, _, _, e⟩ := s.raiseFnEvt_frame f b
  rw [e]
@[simp] theorem State.raiseFnEvt_addr (s : State) (f b : Nat) : (s.raiseFnEvt f b).addr = s.addr := by
  obtain ⟨_, _, _, e⟩ := s.raiseFnEvt_frame f b
  rw [e]
@[simp] theorem State.raiseFnEvt_tenants (s : State) (f b : Nat) : (s.raiseFnEvt f b).tenants = s.tenants := by
  obtain ⟨_, _, _, e⟩ := s.raiseFnEvt_frame f b
  rw [e]
@[simp] theorem State.raiseFnEvt_trouble (s : State) (f b : Nat) : (s.raiseFnEvt f b).trouble = s.trouble := by
  obtain ⟨_, _, _, e⟩ := s.raiseFnEvt_frame f b
  rw [e]
@[simp] theorem State.raiseFnEvt_rings (s : State) (f b : Nat) : (s.raiseFnEvt f b).rings = s.rings := by
  obtain ⟨_, _, _, e⟩ := s.raiseFnEvt_frame f b
  rw [e]
@[simp] theorem State.raiseFnEvt_cmds (s : State) (f b : Nat) : (s.raiseFnEvt f b).cmds = s.cmds := by
  obtain ⟨_, _, _, e⟩ := s.raiseFnEvt_frame f b
  rw [e]
@[simp] theorem State.raiseFnEvt_order (s : State) (f b : Nat) : (s.raiseFnEvt f b).order = s.order := by
  obtain ⟨_, _, _, e⟩ := s.raiseFnEvt_frame f b
  rw [e]
@[simp] theorem State.raiseFnEvt_reads (s : State) (f b : Nat) : (s.raiseFnEvt f b).reads = s.reads := by
  obtain ⟨_, _, _, e⟩ := s.raiseFnEvt_frame f b
  rw [e]
@[simp] theorem State.raiseFnEvt_binds (s : State) (f b : Nat) : (s.raiseFnEvt f b).binds = s.binds := by
  obtain ⟨_, _, _, e⟩ := s.raiseFnEvt_frame f b
  rw [e]
@[simp] theorem State.raiseFnEvt_owners (s : State) (f b : Nat) : (s.raiseFnEvt f b).owners = s.owners := by
  obtain ⟨_, _, _, e⟩ := s.raiseFnEvt_frame f b
  rw [e]
@[simp] theorem State.raiseFnEvt_pace (s : State) (f b : Nat) : (s.raiseFnEvt f b).pace = s.pace := by
  obtain ⟨_, _, _, e⟩ := s.raiseFnEvt_frame f b
  rw [e]
@[simp] theorem State.raiseFnEvt_wd (s : State) (f b : Nat) : (s.raiseFnEvt f b).wd = s.wd := by
  obtain ⟨_, _, _, e⟩ := s.raiseFnEvt_frame f b
  rw [e]
@[simp] theorem State.raiseFnEvt_dbg (s : State) (f b : Nat) : (s.raiseFnEvt f b).dbg = s.dbg := by
  obtain ⟨_, _, _, e⟩ := s.raiseFnEvt_frame f b
  rw [e]
@[simp] theorem State.raiseFnEvt_trace (s : State) (f b : Nat) : (s.raiseFnEvt f b).trace = s.trace := by
  obtain ⟨_, _, _, e⟩ := s.raiseFnEvt_frame f b
  rw [e]
@[simp] theorem State.raiseFnEvt_nvm (s : State) (f b : Nat) : (s.raiseFnEvt f b).nvm = s.nvm := by
  obtain ⟨_, _, _, e⟩ := s.raiseFnEvt_frame f b
  rw [e]
@[simp] theorem State.raiseFnEvt_fw (s : State) (f b : Nat) : (s.raiseFnEvt f b).fw = s.fw := by
  obtain ⟨_, _, _, e⟩ := s.raiseFnEvt_frame f b
  rw [e]
@[simp] theorem State.raiseFnEvt_csi (s : State) (f b : Nat) : (s.raiseFnEvt f b).csi = s.csi := by
  obtain ⟨_, _, _, e⟩ := s.raiseFnEvt_frame f b
  rw [e]
@[simp] theorem State.raiseFnEvt_slots (s : State) (f b : Nat) : (s.raiseFnEvt f b).slots = s.slots := by
  obtain ⟨_, _, _, e⟩ := s.raiseFnEvt_frame f b
  rw [e]
@[simp] theorem State.raiseFnEvt_weft (s : State) (f b : Nat) : (s.raiseFnEvt f b).weft = s.weft := by
  obtain ⟨_, _, _, e⟩ := s.raiseFnEvt_frame f b
  rw [e]
@[simp] theorem State.raiseFnEvt_comp (s : State) (f b : Nat) : (s.raiseFnEvt f b).comp = s.comp := by
  obtain ⟨_, _, _, e⟩ := s.raiseFnEvt_frame f b
  rw [e]
@[simp] theorem State.raiseFnEvt_perf (s : State) (f b : Nat) : (s.raiseFnEvt f b).perf = s.perf := by
  obtain ⟨_, _, _, e⟩ := s.raiseFnEvt_frame f b
  rw [e]
@[simp] theorem State.raiseDevEvt_pending (s : State) (b : Nat) : (s.raiseDevEvt b).pending = s.pending := by
  obtain ⟨_, _, _, _, e⟩ := s.raiseDevEvt_frame b
  rw [e]
@[simp] theorem State.raiseDevEvt_blocked (s : State) (b : Nat) : (s.raiseDevEvt b).blocked = s.blocked := by
  obtain ⟨_, _, _, _, e⟩ := s.raiseDevEvt_frame b
  rw [e]
@[simp] theorem State.raiseDevEvt_fresh (s : State) (b : Nat) : (s.raiseDevEvt b).fresh = s.fresh := by
  obtain ⟨_, _, _, _, e⟩ := s.raiseDevEvt_frame b
  rw [e]
@[simp] theorem State.raiseDevEvt_time (s : State) (b : Nat) : (s.raiseDevEvt b).time = s.time := by
  obtain ⟨_, _, _, _, e⟩ := s.raiseDevEvt_frame b
  rw [e]
@[simp] theorem State.raiseDevEvt_pins (s : State) (b : Nat) : (s.raiseDevEvt b).pins = s.pins := by
  obtain ⟨_, _, _, _, e⟩ := s.raiseDevEvt_frame b
  rw [e]
@[simp] theorem State.raiseDevEvt_fuses (s : State) (b : Nat) : (s.raiseDevEvt b).fuses = s.fuses := by
  obtain ⟨_, _, _, _, e⟩ := s.raiseDevEvt_frame b
  rw [e]
@[simp] theorem State.raiseDevEvt_life (s : State) (b : Nat) : (s.raiseDevEvt b).life = s.life := by
  obtain ⟨_, _, _, _, e⟩ := s.raiseDevEvt_frame b
  rw [e]
@[simp] theorem State.raiseDevEvt_addr (s : State) (b : Nat) : (s.raiseDevEvt b).addr = s.addr := by
  obtain ⟨_, _, _, _, e⟩ := s.raiseDevEvt_frame b
  rw [e]
@[simp] theorem State.raiseDevEvt_tenants (s : State) (b : Nat) : (s.raiseDevEvt b).tenants = s.tenants := by
  obtain ⟨_, _, _, _, e⟩ := s.raiseDevEvt_frame b
  rw [e]
@[simp] theorem State.raiseDevEvt_trouble (s : State) (b : Nat) : (s.raiseDevEvt b).trouble = s.trouble := by
  obtain ⟨_, _, _, _, e⟩ := s.raiseDevEvt_frame b
  rw [e]
@[simp] theorem State.raiseDevEvt_rings (s : State) (b : Nat) : (s.raiseDevEvt b).rings = s.rings := by
  obtain ⟨_, _, _, _, e⟩ := s.raiseDevEvt_frame b
  rw [e]
@[simp] theorem State.raiseDevEvt_cmds (s : State) (b : Nat) : (s.raiseDevEvt b).cmds = s.cmds := by
  obtain ⟨_, _, _, _, e⟩ := s.raiseDevEvt_frame b
  rw [e]
@[simp] theorem State.raiseDevEvt_order (s : State) (b : Nat) : (s.raiseDevEvt b).order = s.order := by
  obtain ⟨_, _, _, _, e⟩ := s.raiseDevEvt_frame b
  rw [e]
@[simp] theorem State.raiseDevEvt_reads (s : State) (b : Nat) : (s.raiseDevEvt b).reads = s.reads := by
  obtain ⟨_, _, _, _, e⟩ := s.raiseDevEvt_frame b
  rw [e]
@[simp] theorem State.raiseDevEvt_binds (s : State) (b : Nat) : (s.raiseDevEvt b).binds = s.binds := by
  obtain ⟨_, _, _, _, e⟩ := s.raiseDevEvt_frame b
  rw [e]
@[simp] theorem State.raiseDevEvt_owners (s : State) (b : Nat) : (s.raiseDevEvt b).owners = s.owners := by
  obtain ⟨_, _, _, _, e⟩ := s.raiseDevEvt_frame b
  rw [e]
@[simp] theorem State.raiseDevEvt_pace (s : State) (b : Nat) : (s.raiseDevEvt b).pace = s.pace := by
  obtain ⟨_, _, _, _, e⟩ := s.raiseDevEvt_frame b
  rw [e]
@[simp] theorem State.raiseDevEvt_wd (s : State) (b : Nat) : (s.raiseDevEvt b).wd = s.wd := by
  obtain ⟨_, _, _, _, e⟩ := s.raiseDevEvt_frame b
  rw [e]
@[simp] theorem State.raiseDevEvt_dbg (s : State) (b : Nat) : (s.raiseDevEvt b).dbg = s.dbg := by
  obtain ⟨_, _, _, _, e⟩ := s.raiseDevEvt_frame b
  rw [e]
@[simp] theorem State.raiseDevEvt_trace (s : State) (b : Nat) : (s.raiseDevEvt b).trace = s.trace := by
  obtain ⟨_, _, _, _, e⟩ := s.raiseDevEvt_frame b
  rw [e]
@[simp] theorem State.raiseDevEvt_nvm (s : State) (b : Nat) : (s.raiseDevEvt b).nvm = s.nvm := by
  obtain ⟨_, _, _, _, e⟩ := s.raiseDevEvt_frame b
  rw [e]
@[simp] theorem State.raiseDevEvt_fw (s : State) (b : Nat) : (s.raiseDevEvt b).fw = s.fw := by
  obtain ⟨_, _, _, _, e⟩ := s.raiseDevEvt_frame b
  rw [e]
@[simp] theorem State.raiseDevEvt_csi (s : State) (b : Nat) : (s.raiseDevEvt b).csi = s.csi := by
  obtain ⟨_, _, _, _, e⟩ := s.raiseDevEvt_frame b
  rw [e]
@[simp] theorem State.raiseDevEvt_slots (s : State) (b : Nat) : (s.raiseDevEvt b).slots = s.slots := by
  obtain ⟨_, _, _, _, e⟩ := s.raiseDevEvt_frame b
  rw [e]
@[simp] theorem State.raiseDevEvt_weft (s : State) (b : Nat) : (s.raiseDevEvt b).weft = s.weft := by
  obtain ⟨_, _, _, _, e⟩ := s.raiseDevEvt_frame b
  rw [e]
@[simp] theorem State.raiseDevEvt_comp (s : State) (b : Nat) : (s.raiseDevEvt b).comp = s.comp := by
  obtain ⟨_, _, _, _, e⟩ := s.raiseDevEvt_frame b
  rw [e]
@[simp] theorem State.raiseDevEvt_perf (s : State) (b : Nat) : (s.raiseDevEvt b).perf = s.perf := by
  obtain ⟨_, _, _, _, e⟩ := s.raiseDevEvt_frame b
  rw [e]
@[simp] theorem State.setTrb_pending (s : State) (b : Trb) : (s.setTrb b).pending = s.pending := by
  obtain ⟨_, _, _, _, _, e⟩ := s.setTrb_frame b
  rw [e]
@[simp] theorem State.setTrb_blocked (s : State) (b : Trb) : (s.setTrb b).blocked = s.blocked := by
  obtain ⟨_, _, _, _, _, e⟩ := s.setTrb_frame b
  rw [e]
@[simp] theorem State.setTrb_fresh (s : State) (b : Trb) : (s.setTrb b).fresh = s.fresh := by
  obtain ⟨_, _, _, _, _, e⟩ := s.setTrb_frame b
  rw [e]
@[simp] theorem State.setTrb_time (s : State) (b : Trb) : (s.setTrb b).time = s.time := by
  obtain ⟨_, _, _, _, _, e⟩ := s.setTrb_frame b
  rw [e]
@[simp] theorem State.setTrb_pins (s : State) (b : Trb) : (s.setTrb b).pins = s.pins := by
  obtain ⟨_, _, _, _, _, e⟩ := s.setTrb_frame b
  rw [e]
@[simp] theorem State.setTrb_fuses (s : State) (b : Trb) : (s.setTrb b).fuses = s.fuses := by
  obtain ⟨_, _, _, _, _, e⟩ := s.setTrb_frame b
  rw [e]
@[simp] theorem State.setTrb_life (s : State) (b : Trb) : (s.setTrb b).life = s.life := by
  obtain ⟨_, _, _, _, _, e⟩ := s.setTrb_frame b
  rw [e]
@[simp] theorem State.setTrb_addr (s : State) (b : Trb) : (s.setTrb b).addr = s.addr := by
  obtain ⟨_, _, _, _, _, e⟩ := s.setTrb_frame b
  rw [e]
@[simp] theorem State.setTrb_tenants (s : State) (b : Trb) : (s.setTrb b).tenants = s.tenants := by
  obtain ⟨_, _, _, _, _, e⟩ := s.setTrb_frame b
  rw [e]
@[simp] theorem State.setTrb_rings (s : State) (b : Trb) : (s.setTrb b).rings = s.rings := by
  obtain ⟨_, _, _, _, _, e⟩ := s.setTrb_frame b
  rw [e]
@[simp] theorem State.setTrb_cmds (s : State) (b : Trb) : (s.setTrb b).cmds = s.cmds := by
  obtain ⟨_, _, _, _, _, e⟩ := s.setTrb_frame b
  rw [e]
@[simp] theorem State.setTrb_order (s : State) (b : Trb) : (s.setTrb b).order = s.order := by
  obtain ⟨_, _, _, _, _, e⟩ := s.setTrb_frame b
  rw [e]
@[simp] theorem State.setTrb_reads (s : State) (b : Trb) : (s.setTrb b).reads = s.reads := by
  obtain ⟨_, _, _, _, _, e⟩ := s.setTrb_frame b
  rw [e]
@[simp] theorem State.setTrb_binds (s : State) (b : Trb) : (s.setTrb b).binds = s.binds := by
  obtain ⟨_, _, _, _, _, e⟩ := s.setTrb_frame b
  rw [e]
@[simp] theorem State.setTrb_owners (s : State) (b : Trb) : (s.setTrb b).owners = s.owners := by
  obtain ⟨_, _, _, _, _, e⟩ := s.setTrb_frame b
  rw [e]
@[simp] theorem State.setTrb_pace (s : State) (b : Trb) : (s.setTrb b).pace = s.pace := by
  obtain ⟨_, _, _, _, _, e⟩ := s.setTrb_frame b
  rw [e]
@[simp] theorem State.setTrb_wd (s : State) (b : Trb) : (s.setTrb b).wd = s.wd := by
  obtain ⟨_, _, _, _, _, e⟩ := s.setTrb_frame b
  rw [e]
@[simp] theorem State.setTrb_dbg (s : State) (b : Trb) : (s.setTrb b).dbg = s.dbg := by
  obtain ⟨_, _, _, _, _, e⟩ := s.setTrb_frame b
  rw [e]
@[simp] theorem State.setTrb_trace (s : State) (b : Trb) : (s.setTrb b).trace = s.trace := by
  obtain ⟨_, _, _, _, _, e⟩ := s.setTrb_frame b
  rw [e]
@[simp] theorem State.setTrb_nvm (s : State) (b : Trb) : (s.setTrb b).nvm = s.nvm := by
  obtain ⟨_, _, _, _, _, e⟩ := s.setTrb_frame b
  rw [e]
@[simp] theorem State.setTrb_fw (s : State) (b : Trb) : (s.setTrb b).fw = s.fw := by
  obtain ⟨_, _, _, _, _, e⟩ := s.setTrb_frame b
  rw [e]
@[simp] theorem State.setTrb_csi (s : State) (b : Trb) : (s.setTrb b).csi = s.csi := by
  obtain ⟨_, _, _, _, _, e⟩ := s.setTrb_frame b
  rw [e]
@[simp] theorem State.setTrb_slots (s : State) (b : Trb) : (s.setTrb b).slots = s.slots := by
  obtain ⟨_, _, _, _, _, e⟩ := s.setTrb_frame b
  rw [e]
@[simp] theorem State.setTrb_weft (s : State) (b : Trb) : (s.setTrb b).weft = s.weft := by
  obtain ⟨_, _, _, _, _, e⟩ := s.setTrb_frame b
  rw [e]
@[simp] theorem State.setTrb_comp (s : State) (b : Trb) : (s.setTrb b).comp = s.comp := by
  obtain ⟨_, _, _, _, _, e⟩ := s.setTrb_frame b
  rw [e]
@[simp] theorem State.setTrb_perf (s : State) (b : Trb) : (s.setTrb b).perf = s.perf := by
  obtain ⟨_, _, _, _, _, e⟩ := s.setTrb_frame b
  rw [e]
@[simp] theorem State.setFnTrb_pending (s : State) (f : Nat) (b : FnTrb) : (s.setFnTrb f b).pending = s.pending := by
  obtain ⟨_, _, _, e⟩ := s.setFnTrb_frame f b
  rw [e]
@[simp] theorem State.setFnTrb_blocked (s : State) (f : Nat) (b : FnTrb) : (s.setFnTrb f b).blocked = s.blocked := by
  obtain ⟨_, _, _, e⟩ := s.setFnTrb_frame f b
  rw [e]
@[simp] theorem State.setFnTrb_fresh (s : State) (f : Nat) (b : FnTrb) : (s.setFnTrb f b).fresh = s.fresh := by
  obtain ⟨_, _, _, e⟩ := s.setFnTrb_frame f b
  rw [e]
@[simp] theorem State.setFnTrb_time (s : State) (f : Nat) (b : FnTrb) : (s.setFnTrb f b).time = s.time := by
  obtain ⟨_, _, _, e⟩ := s.setFnTrb_frame f b
  rw [e]
@[simp] theorem State.setFnTrb_pins (s : State) (f : Nat) (b : FnTrb) : (s.setFnTrb f b).pins = s.pins := by
  obtain ⟨_, _, _, e⟩ := s.setFnTrb_frame f b
  rw [e]
@[simp] theorem State.setFnTrb_fuses (s : State) (f : Nat) (b : FnTrb) : (s.setFnTrb f b).fuses = s.fuses := by
  obtain ⟨_, _, _, e⟩ := s.setFnTrb_frame f b
  rw [e]
@[simp] theorem State.setFnTrb_life (s : State) (f : Nat) (b : FnTrb) : (s.setFnTrb f b).life = s.life := by
  obtain ⟨_, _, _, e⟩ := s.setFnTrb_frame f b
  rw [e]
@[simp] theorem State.setFnTrb_pcie (s : State) (f : Nat) (b : FnTrb) : (s.setFnTrb f b).pcie = s.pcie := by
  obtain ⟨_, _, _, e⟩ := s.setFnTrb_frame f b
  rw [e]
@[simp] theorem State.setFnTrb_addr (s : State) (f : Nat) (b : FnTrb) : (s.setFnTrb f b).addr = s.addr := by
  obtain ⟨_, _, _, e⟩ := s.setFnTrb_frame f b
  rw [e]
@[simp] theorem State.setFnTrb_tenants (s : State) (f : Nat) (b : FnTrb) : (s.setFnTrb f b).tenants = s.tenants := by
  obtain ⟨_, _, _, e⟩ := s.setFnTrb_frame f b
  rw [e]
@[simp] theorem State.setFnTrb_trouble (s : State) (f : Nat) (b : FnTrb) : (s.setFnTrb f b).trouble = s.trouble := by
  obtain ⟨_, _, _, e⟩ := s.setFnTrb_frame f b
  rw [e]
@[simp] theorem State.setFnTrb_rings (s : State) (f : Nat) (b : FnTrb) : (s.setFnTrb f b).rings = s.rings := by
  obtain ⟨_, _, _, e⟩ := s.setFnTrb_frame f b
  rw [e]
@[simp] theorem State.setFnTrb_cmds (s : State) (f : Nat) (b : FnTrb) : (s.setFnTrb f b).cmds = s.cmds := by
  obtain ⟨_, _, _, e⟩ := s.setFnTrb_frame f b
  rw [e]
@[simp] theorem State.setFnTrb_order (s : State) (f : Nat) (b : FnTrb) : (s.setFnTrb f b).order = s.order := by
  obtain ⟨_, _, _, e⟩ := s.setFnTrb_frame f b
  rw [e]
@[simp] theorem State.setFnTrb_reads (s : State) (f : Nat) (b : FnTrb) : (s.setFnTrb f b).reads = s.reads := by
  obtain ⟨_, _, _, e⟩ := s.setFnTrb_frame f b
  rw [e]
@[simp] theorem State.setFnTrb_binds (s : State) (f : Nat) (b : FnTrb) : (s.setFnTrb f b).binds = s.binds := by
  obtain ⟨_, _, _, e⟩ := s.setFnTrb_frame f b
  rw [e]
@[simp] theorem State.setFnTrb_owners (s : State) (f : Nat) (b : FnTrb) : (s.setFnTrb f b).owners = s.owners := by
  obtain ⟨_, _, _, e⟩ := s.setFnTrb_frame f b
  rw [e]
@[simp] theorem State.setFnTrb_pace (s : State) (f : Nat) (b : FnTrb) : (s.setFnTrb f b).pace = s.pace := by
  obtain ⟨_, _, _, e⟩ := s.setFnTrb_frame f b
  rw [e]
@[simp] theorem State.setFnTrb_wd (s : State) (f : Nat) (b : FnTrb) : (s.setFnTrb f b).wd = s.wd := by
  obtain ⟨_, _, _, e⟩ := s.setFnTrb_frame f b
  rw [e]
@[simp] theorem State.setFnTrb_dbg (s : State) (f : Nat) (b : FnTrb) : (s.setFnTrb f b).dbg = s.dbg := by
  obtain ⟨_, _, _, e⟩ := s.setFnTrb_frame f b
  rw [e]
@[simp] theorem State.setFnTrb_trace (s : State) (f : Nat) (b : FnTrb) : (s.setFnTrb f b).trace = s.trace := by
  obtain ⟨_, _, _, e⟩ := s.setFnTrb_frame f b
  rw [e]
@[simp] theorem State.setFnTrb_nvm (s : State) (f : Nat) (b : FnTrb) : (s.setFnTrb f b).nvm = s.nvm := by
  obtain ⟨_, _, _, e⟩ := s.setFnTrb_frame f b
  rw [e]
@[simp] theorem State.setFnTrb_fw (s : State) (f : Nat) (b : FnTrb) : (s.setFnTrb f b).fw = s.fw := by
  obtain ⟨_, _, _, e⟩ := s.setFnTrb_frame f b
  rw [e]
@[simp] theorem State.setFnTrb_csi (s : State) (f : Nat) (b : FnTrb) : (s.setFnTrb f b).csi = s.csi := by
  obtain ⟨_, _, _, e⟩ := s.setFnTrb_frame f b
  rw [e]
@[simp] theorem State.setFnTrb_slots (s : State) (f : Nat) (b : FnTrb) : (s.setFnTrb f b).slots = s.slots := by
  obtain ⟨_, _, _, e⟩ := s.setFnTrb_frame f b
  rw [e]
@[simp] theorem State.setFnTrb_weft (s : State) (f : Nat) (b : FnTrb) : (s.setFnTrb f b).weft = s.weft := by
  obtain ⟨_, _, _, e⟩ := s.setFnTrb_frame f b
  rw [e]
@[simp] theorem State.setFnTrb_comp (s : State) (f : Nat) (b : FnTrb) : (s.setFnTrb f b).comp = s.comp := by
  obtain ⟨_, _, _, e⟩ := s.setFnTrb_frame f b
  rw [e]
@[simp] theorem State.setFnTrb_perf (s : State) (f : Nat) (b : FnTrb) : (s.setFnTrb f b).perf = s.perf := by
  obtain ⟨_, _, _, e⟩ := s.setFnTrb_frame f b
  rw [e]
@[simp] theorem State.logEvent_pending (s : State) (kind : Nat) (fn : BitVec 8) (payload : Bytes) (bits : List TrbRef) : (s.logEvent kind fn payload bits).pending = s.pending := by
  obtain ⟨_, _, _, _, _, e⟩ := s.logEvent_frame kind fn payload bits
  rw [e]
@[simp] theorem State.logEvent_blocked (s : State) (kind : Nat) (fn : BitVec 8) (payload : Bytes) (bits : List TrbRef) : (s.logEvent kind fn payload bits).blocked = s.blocked := by
  obtain ⟨_, _, _, _, _, e⟩ := s.logEvent_frame kind fn payload bits
  rw [e]
@[simp] theorem State.logEvent_fresh (s : State) (kind : Nat) (fn : BitVec 8) (payload : Bytes) (bits : List TrbRef) : (s.logEvent kind fn payload bits).fresh = s.fresh := by
  obtain ⟨_, _, _, _, _, e⟩ := s.logEvent_frame kind fn payload bits
  rw [e]
@[simp] theorem State.logEvent_time (s : State) (kind : Nat) (fn : BitVec 8) (payload : Bytes) (bits : List TrbRef) : (s.logEvent kind fn payload bits).time = s.time := by
  obtain ⟨_, _, _, _, _, e⟩ := s.logEvent_frame kind fn payload bits
  rw [e]
@[simp] theorem State.logEvent_pins (s : State) (kind : Nat) (fn : BitVec 8) (payload : Bytes) (bits : List TrbRef) : (s.logEvent kind fn payload bits).pins = s.pins := by
  obtain ⟨_, _, _, _, _, e⟩ := s.logEvent_frame kind fn payload bits
  rw [e]
@[simp] theorem State.logEvent_fuses (s : State) (kind : Nat) (fn : BitVec 8) (payload : Bytes) (bits : List TrbRef) : (s.logEvent kind fn payload bits).fuses = s.fuses := by
  obtain ⟨_, _, _, _, _, e⟩ := s.logEvent_frame kind fn payload bits
  rw [e]
@[simp] theorem State.logEvent_life (s : State) (kind : Nat) (fn : BitVec 8) (payload : Bytes) (bits : List TrbRef) : (s.logEvent kind fn payload bits).life = s.life := by
  obtain ⟨_, _, _, _, _, e⟩ := s.logEvent_frame kind fn payload bits
  rw [e]
@[simp] theorem State.logEvent_addr (s : State) (kind : Nat) (fn : BitVec 8) (payload : Bytes) (bits : List TrbRef) : (s.logEvent kind fn payload bits).addr = s.addr := by
  obtain ⟨_, _, _, _, _, e⟩ := s.logEvent_frame kind fn payload bits
  rw [e]
@[simp] theorem State.logEvent_tenants (s : State) (kind : Nat) (fn : BitVec 8) (payload : Bytes) (bits : List TrbRef) : (s.logEvent kind fn payload bits).tenants = s.tenants := by
  obtain ⟨_, _, _, _, _, e⟩ := s.logEvent_frame kind fn payload bits
  rw [e]
@[simp] theorem State.logEvent_rings (s : State) (kind : Nat) (fn : BitVec 8) (payload : Bytes) (bits : List TrbRef) : (s.logEvent kind fn payload bits).rings = s.rings := by
  obtain ⟨_, _, _, _, _, e⟩ := s.logEvent_frame kind fn payload bits
  rw [e]
@[simp] theorem State.logEvent_cmds (s : State) (kind : Nat) (fn : BitVec 8) (payload : Bytes) (bits : List TrbRef) : (s.logEvent kind fn payload bits).cmds = s.cmds := by
  obtain ⟨_, _, _, _, _, e⟩ := s.logEvent_frame kind fn payload bits
  rw [e]
@[simp] theorem State.logEvent_order (s : State) (kind : Nat) (fn : BitVec 8) (payload : Bytes) (bits : List TrbRef) : (s.logEvent kind fn payload bits).order = s.order := by
  obtain ⟨_, _, _, _, _, e⟩ := s.logEvent_frame kind fn payload bits
  rw [e]
@[simp] theorem State.logEvent_reads (s : State) (kind : Nat) (fn : BitVec 8) (payload : Bytes) (bits : List TrbRef) : (s.logEvent kind fn payload bits).reads = s.reads := by
  obtain ⟨_, _, _, _, _, e⟩ := s.logEvent_frame kind fn payload bits
  rw [e]
@[simp] theorem State.logEvent_binds (s : State) (kind : Nat) (fn : BitVec 8) (payload : Bytes) (bits : List TrbRef) : (s.logEvent kind fn payload bits).binds = s.binds := by
  obtain ⟨_, _, _, _, _, e⟩ := s.logEvent_frame kind fn payload bits
  rw [e]
@[simp] theorem State.logEvent_owners (s : State) (kind : Nat) (fn : BitVec 8) (payload : Bytes) (bits : List TrbRef) : (s.logEvent kind fn payload bits).owners = s.owners := by
  obtain ⟨_, _, _, _, _, e⟩ := s.logEvent_frame kind fn payload bits
  rw [e]
@[simp] theorem State.logEvent_pace (s : State) (kind : Nat) (fn : BitVec 8) (payload : Bytes) (bits : List TrbRef) : (s.logEvent kind fn payload bits).pace = s.pace := by
  obtain ⟨_, _, _, _, _, e⟩ := s.logEvent_frame kind fn payload bits
  rw [e]
@[simp] theorem State.logEvent_wd (s : State) (kind : Nat) (fn : BitVec 8) (payload : Bytes) (bits : List TrbRef) : (s.logEvent kind fn payload bits).wd = s.wd := by
  obtain ⟨_, _, _, _, _, e⟩ := s.logEvent_frame kind fn payload bits
  rw [e]
@[simp] theorem State.logEvent_dbg (s : State) (kind : Nat) (fn : BitVec 8) (payload : Bytes) (bits : List TrbRef) : (s.logEvent kind fn payload bits).dbg = s.dbg := by
  obtain ⟨_, _, _, _, _, e⟩ := s.logEvent_frame kind fn payload bits
  rw [e]
@[simp] theorem State.logEvent_trace (s : State) (kind : Nat) (fn : BitVec 8) (payload : Bytes) (bits : List TrbRef) : (s.logEvent kind fn payload bits).trace = s.trace := by
  obtain ⟨_, _, _, _, _, e⟩ := s.logEvent_frame kind fn payload bits
  rw [e]
@[simp] theorem State.logEvent_nvm (s : State) (kind : Nat) (fn : BitVec 8) (payload : Bytes) (bits : List TrbRef) : (s.logEvent kind fn payload bits).nvm = s.nvm := by
  obtain ⟨_, _, _, _, _, e⟩ := s.logEvent_frame kind fn payload bits
  rw [e]
@[simp] theorem State.logEvent_fw (s : State) (kind : Nat) (fn : BitVec 8) (payload : Bytes) (bits : List TrbRef) : (s.logEvent kind fn payload bits).fw = s.fw := by
  obtain ⟨_, _, _, _, _, e⟩ := s.logEvent_frame kind fn payload bits
  rw [e]
@[simp] theorem State.logEvent_csi (s : State) (kind : Nat) (fn : BitVec 8) (payload : Bytes) (bits : List TrbRef) : (s.logEvent kind fn payload bits).csi = s.csi := by
  obtain ⟨_, _, _, _, _, e⟩ := s.logEvent_frame kind fn payload bits
  rw [e]
@[simp] theorem State.logEvent_slots (s : State) (kind : Nat) (fn : BitVec 8) (payload : Bytes) (bits : List TrbRef) : (s.logEvent kind fn payload bits).slots = s.slots := by
  obtain ⟨_, _, _, _, _, e⟩ := s.logEvent_frame kind fn payload bits
  rw [e]
@[simp] theorem State.logEvent_weft (s : State) (kind : Nat) (fn : BitVec 8) (payload : Bytes) (bits : List TrbRef) : (s.logEvent kind fn payload bits).weft = s.weft := by
  obtain ⟨_, _, _, _, _, e⟩ := s.logEvent_frame kind fn payload bits
  rw [e]
@[simp] theorem State.logEvent_comp (s : State) (kind : Nat) (fn : BitVec 8) (payload : Bytes) (bits : List TrbRef) : (s.logEvent kind fn payload bits).comp = s.comp := by
  obtain ⟨_, _, _, _, _, e⟩ := s.logEvent_frame kind fn payload bits
  rw [e]
@[simp] theorem State.logEvent_perf (s : State) (kind : Nat) (fn : BitVec 8) (payload : Bytes) (bits : List TrbRef) : (s.logEvent kind fn payload bits).perf = s.perf := by
  obtain ⟨_, _, _, _, _, e⟩ := s.logEvent_frame kind fn payload bits
  rw [e]
@[simp] theorem State.endCmd_pending (s : State) (k : Nat) (st : BitVec 16) (r0 r1 : Word) : (s.endCmd k st r0 r1).pending = s.pending := by
  obtain ⟨_, _, _, _, _, e⟩ := s.endCmd_frame k st r0 r1
  rw [e]
@[simp] theorem State.endCmd_blocked (s : State) (k : Nat) (st : BitVec 16) (r0 r1 : Word) : (s.endCmd k st r0 r1).blocked = s.blocked := by
  obtain ⟨_, _, _, _, _, e⟩ := s.endCmd_frame k st r0 r1
  rw [e]
@[simp] theorem State.endCmd_fresh (s : State) (k : Nat) (st : BitVec 16) (r0 r1 : Word) : (s.endCmd k st r0 r1).fresh = s.fresh := by
  obtain ⟨_, _, _, _, _, e⟩ := s.endCmd_frame k st r0 r1
  rw [e]
@[simp] theorem State.endCmd_time (s : State) (k : Nat) (st : BitVec 16) (r0 r1 : Word) : (s.endCmd k st r0 r1).time = s.time := by
  obtain ⟨_, _, _, _, _, e⟩ := s.endCmd_frame k st r0 r1
  rw [e]
@[simp] theorem State.endCmd_pins (s : State) (k : Nat) (st : BitVec 16) (r0 r1 : Word) : (s.endCmd k st r0 r1).pins = s.pins := by
  obtain ⟨_, _, _, _, _, e⟩ := s.endCmd_frame k st r0 r1
  rw [e]
@[simp] theorem State.endCmd_fuses (s : State) (k : Nat) (st : BitVec 16) (r0 r1 : Word) : (s.endCmd k st r0 r1).fuses = s.fuses := by
  obtain ⟨_, _, _, _, _, e⟩ := s.endCmd_frame k st r0 r1
  rw [e]
@[simp] theorem State.endCmd_life (s : State) (k : Nat) (st : BitVec 16) (r0 r1 : Word) : (s.endCmd k st r0 r1).life = s.life := by
  obtain ⟨_, _, _, _, _, e⟩ := s.endCmd_frame k st r0 r1
  rw [e]
@[simp] theorem State.endCmd_pcie (s : State) (k : Nat) (st : BitVec 16) (r0 r1 : Word) : (s.endCmd k st r0 r1).pcie = s.pcie := by
  obtain ⟨_, _, _, _, _, e⟩ := s.endCmd_frame k st r0 r1
  rw [e]
@[simp] theorem State.endCmd_addr (s : State) (k : Nat) (st : BitVec 16) (r0 r1 : Word) : (s.endCmd k st r0 r1).addr = s.addr := by
  obtain ⟨_, _, _, _, _, e⟩ := s.endCmd_frame k st r0 r1
  rw [e]
@[simp] theorem State.endCmd_tenants (s : State) (k : Nat) (st : BitVec 16) (r0 r1 : Word) : (s.endCmd k st r0 r1).tenants = s.tenants := by
  obtain ⟨_, _, _, _, _, e⟩ := s.endCmd_frame k st r0 r1
  rw [e]
@[simp] theorem State.endCmd_trouble (s : State) (k : Nat) (st : BitVec 16) (r0 r1 : Word) : (s.endCmd k st r0 r1).trouble = s.trouble := by
  obtain ⟨_, _, _, _, _, e⟩ := s.endCmd_frame k st r0 r1
  rw [e]
@[simp] theorem State.endCmd_rings (s : State) (k : Nat) (st : BitVec 16) (r0 r1 : Word) : (s.endCmd k st r0 r1).rings = s.rings := by
  obtain ⟨_, _, _, _, _, e⟩ := s.endCmd_frame k st r0 r1
  rw [e]
@[simp] theorem State.endCmd_order (s : State) (k : Nat) (st : BitVec 16) (r0 r1 : Word) : (s.endCmd k st r0 r1).order = s.order := by
  obtain ⟨_, _, _, _, _, e⟩ := s.endCmd_frame k st r0 r1
  rw [e]
@[simp] theorem State.endCmd_reads (s : State) (k : Nat) (st : BitVec 16) (r0 r1 : Word) : (s.endCmd k st r0 r1).reads = s.reads := by
  obtain ⟨_, _, _, _, _, e⟩ := s.endCmd_frame k st r0 r1
  rw [e]
@[simp] theorem State.endCmd_binds (s : State) (k : Nat) (st : BitVec 16) (r0 r1 : Word) : (s.endCmd k st r0 r1).binds = s.binds := by
  obtain ⟨_, _, _, _, _, e⟩ := s.endCmd_frame k st r0 r1
  rw [e]
@[simp] theorem State.endCmd_owners (s : State) (k : Nat) (st : BitVec 16) (r0 r1 : Word) : (s.endCmd k st r0 r1).owners = s.owners := by
  obtain ⟨_, _, _, _, _, e⟩ := s.endCmd_frame k st r0 r1
  rw [e]
@[simp] theorem State.endCmd_pace (s : State) (k : Nat) (st : BitVec 16) (r0 r1 : Word) : (s.endCmd k st r0 r1).pace = s.pace := by
  obtain ⟨_, _, _, _, _, e⟩ := s.endCmd_frame k st r0 r1
  rw [e]
@[simp] theorem State.endCmd_wd (s : State) (k : Nat) (st : BitVec 16) (r0 r1 : Word) : (s.endCmd k st r0 r1).wd = s.wd := by
  obtain ⟨_, _, _, _, _, e⟩ := s.endCmd_frame k st r0 r1
  rw [e]
@[simp] theorem State.endCmd_trace (s : State) (k : Nat) (st : BitVec 16) (r0 r1 : Word) : (s.endCmd k st r0 r1).trace = s.trace := by
  obtain ⟨_, _, _, _, _, e⟩ := s.endCmd_frame k st r0 r1
  rw [e]
@[simp] theorem State.endCmd_nvm (s : State) (k : Nat) (st : BitVec 16) (r0 r1 : Word) : (s.endCmd k st r0 r1).nvm = s.nvm := by
  obtain ⟨_, _, _, _, _, e⟩ := s.endCmd_frame k st r0 r1
  rw [e]
@[simp] theorem State.endCmd_fw (s : State) (k : Nat) (st : BitVec 16) (r0 r1 : Word) : (s.endCmd k st r0 r1).fw = s.fw := by
  obtain ⟨_, _, _, _, _, e⟩ := s.endCmd_frame k st r0 r1
  rw [e]
@[simp] theorem State.endCmd_csi (s : State) (k : Nat) (st : BitVec 16) (r0 r1 : Word) : (s.endCmd k st r0 r1).csi = s.csi := by
  obtain ⟨_, _, _, _, _, e⟩ := s.endCmd_frame k st r0 r1
  rw [e]
@[simp] theorem State.endCmd_slots (s : State) (k : Nat) (st : BitVec 16) (r0 r1 : Word) : (s.endCmd k st r0 r1).slots = s.slots := by
  obtain ⟨_, _, _, _, _, e⟩ := s.endCmd_frame k st r0 r1
  rw [e]
@[simp] theorem State.endCmd_weft (s : State) (k : Nat) (st : BitVec 16) (r0 r1 : Word) : (s.endCmd k st r0 r1).weft = s.weft := by
  obtain ⟨_, _, _, _, _, e⟩ := s.endCmd_frame k st r0 r1
  rw [e]
@[simp] theorem State.endCmd_comp (s : State) (k : Nat) (st : BitVec 16) (r0 r1 : Word) : (s.endCmd k st r0 r1).comp = s.comp := by
  obtain ⟨_, _, _, _, _, e⟩ := s.endCmd_frame k st r0 r1
  rw [e]
@[simp] theorem State.endCmd_perf (s : State) (k : Nat) (st : BitVec 16) (r0 r1 : Word) : (s.endCmd k st r0 r1).perf = s.perf := by
  obtain ⟨_, _, _, _, _, e⟩ := s.endCmd_frame k st r0 r1
  rw [e]

end Sys2Proof.Machine
end

