-- ==== Sys2Proof/Laws/Commands.lean ====
section
/-!
SUPPORT. When a command's own step runs: the condition of each kind of step, said once, under the predicate `Waits` that the
statements use.
-/

namespace Sys2Proof.Machine

theorem State.dispatched_of_waits {s : State} {t op : Nat} {c : Cmd} (h : s.Waits t op c) (l : List Nat) (m : l.contains op = true) :
    s.dispatched t l = some c := by
  obtain ⟨h1, h2, h3, h4, h5⟩ := h
  unfold State.dispatched
  rw [h1]
  dsimp only
  rw [h3, if_pos ⟨h2, m, h4, by rw [h5]; rfl⟩]

/-- A dispatched command runs its own step. -/
theorem State.onCmd_of_waits {s : State} {t op : Nat} {c : Cmd} (h : s.Waits t op c) (f : Cmd → State) : s.onCmd t [op] f = f c := by
  unfold State.onCmd
  rw [State.dispatched_of_waits h [op] (by simp)]

/-- An ordered command runs its step when its turn has come. -/
theorem State.onTurn_of_waits {s : State} {t op : Nat} {c : Cmd} (h : s.Waits t op c) (f : Cmd → State) :
    s.onTurn t [op] f = if s.myTurn c = true then f c else s := State.onCmd_of_waits h _

/-- A command of a binding runs its step when its turn in the binding has come. -/
theorem State.onBind_of_waits {s : State} {t op : Nat} {c : Cmd} (h : s.Waits t op c) (f : Cmd → State) :
    s.onBind t [op] f = if (s.bindTurn c || s.afterRelease c) = true then f c else s := State.onCmd_of_waits h _

/-- Without a dispatched command of the step's kind, nothing happens. -/
theorem State.onCmd_of_none {s : State} {t : Nat} (h : s.cmd? t = none) (l : List Nat) (f : Cmd → State) : s.onCmd t l f = s := by
  unfold State.onCmd State.dispatched
  rw [h]

end Sys2Proof.Machine
end

