-- ==== Sys2Proof/Laws/CoreWf.lean ====
section
/-!
SUPPORT. Everything that a core does with a tile keeps its store in canonical form.
-/

namespace Sys2Proof.Machine

/-- A property that every step of a fold keeps holds of its result. -/
theorem foldl_holds {α β : Type} {P : β → Prop} {l : List α} {f : β → α → β} {b : β} (h : P b)
    (k : ∀ b a, P b → P (f b a)) : P (l.foldl f b) := by
  induction l generalizing b with
  | nil => exact h
  | cons a l ih => exact ih (k b a h)

theorem cPut_wf {m : Table Byte} {core off : Nat} {b : Bytes} (h : Memory.wf m = true) :
    Memory.wf (cPut m core off b) = true := by
  induction b generalizing m off with
  | nil => exact h
  | cons x b ih => exact ih (Table.wf_set h)

theorem putAll_wf {m : Table Byte} {core : Nat} {l : Puts} (h : Memory.wf m = true) : Memory.wf (putAll m core l) = true := by
  unfold putAll
  exact foldl_holds (P := fun m : Table Byte => Memory.wf m = true) h fun u p hu => cPut_wf hu

theorem Ctx.loadStep_wf (c : Ctx) (core : Nat) (old : Box) (st : CoreSt) {u : LoadRun} (a : CoreStep) (h : Memory.wf u.m = true) :
    Memory.wf (c.loadStep core old st u a).m = true := by
  unfold Ctx.loadStep
  split
  · exact cPut_wf h
  · exact h

/-- Whatever transfers a load phase makes, in whatever order, they keep the form. -/
theorem Ctx.loadSteps_wf (c : Ctx) (core : Nat) (old : Box) (st : CoreSt) (l : List CoreStep) {u : LoadRun}
    (h : Memory.wf u.m = true) : Memory.wf (l.foldl (c.loadStep core old st) u).m = true :=
  foldl_holds (P := fun u : LoadRun => Memory.wf u.m = true) h fun _ a hu => Ctx.loadStep_wf c core old st a hu

theorem Ctx.flush_wf (c : Ctx) (core : Nat) (b : Box) (k p t g : Nat) {a : Acc} (h : Memory.wf a.m = true) :
    Memory.wf (c.flush core b k p t g a).m = true := cPut_wf h

theorem Ctx.groupBeat_wf (c : Ctx) (w : WBlock) (core : Nat) (b : Box) (k p t : Nat) {a : Acc} (q : Nat × Nat × Nat × Bool)
    (h : Memory.wf a.m = true) : Memory.wf (c.groupBeat w core b k p t a q).m = true := by
  unfold Ctx.groupBeat
  dsimp only
  split
  · refine Ctx.flush_wf c core b k p t q.1 ?_
    split
    · exact h
    · split <;> exact h
  · split
    · exact h
    · split <;> exact h

theorem Ctx.beat_wf (c : Ctx) (w : WBlock) (core : Nat) (b : Box) (k t cb p : Nat) {a : Acc} (h : Memory.wf a.m = true) :
    Memory.wf (c.beat w core b k t cb p a).m = true := by
  unfold Ctx.beat
  split
  · exact cPut_wf h
  · split
    · exact foldl_holds (P := fun u : Acc => Memory.wf u.m = true) h fun u q hu => Ctx.groupBeat_wf c w core b k p t q hu
    · split
      · exact h
      · exact cPut_wf h

theorem Ctx.clear_wf (c : Ctx) (core : Nat) (b : Box) (kb : Nat) {m : Table Byte} (h : Memory.wf m = true) :
    Memory.wf (c.clear core b kb m) = true := by
  unfold Ctx.clear
  exact foldl_holds (P := fun m : Table Byte => Memory.wf m = true) h fun u p hu =>
    foldl_holds (P := fun m : Table Byte => Memory.wf m = true) hu fun v k hv => cPut_wf hv

theorem Ctx.blockLoops_wf (c : Ctx) (core : Nat) (b : Box) (kb : Nat) (lut : List Int) {a : Acc × List Nat}
    (h : Memory.wf a.1.m = true) : Memory.wf (c.blockLoops core b kb lut a).1.m = true := by
  unfold Ctx.blockLoops
  exact foldl_holds (P := fun u : Acc × List Nat => Memory.wf u.1.m = true) h fun u t hu =>
    foldl_holds (P := fun u : Acc × List Nat => Memory.wf u.1.m = true) hu fun u cb hu =>
      foldl_holds (P := fun u : Acc => Memory.wf u.m = true) hu fun u p hu =>
        foldl_holds (P := fun u : Acc => Memory.wf u.m = true) hu fun u k hu => Ctx.beat_wf c _ core b k t cb p hu

theorem Ctx.hStep_wf (c : Ctx) (core : Nat) (b : Box) (rank p j : Nat) {m : Table Byte} (h : Memory.wf m = true) :
    Memory.wf (c.hStep core b rank p j m) = true := cPut_wf h

theorem Ctx.hTile_wf (c : Ctx) (core : Nat) (b : Box) {m : Table Byte} (h : Memory.wf m = true) :
    Memory.wf (c.hTile core b m) = true := by
  unfold Ctx.hTile
  split
  · exact h
  · exact foldl_holds (P := fun m : Table Byte => Memory.wf m = true) h fun u p hu =>
      foldl_holds (P := fun m : Table Byte => Memory.wf m = true) hu fun v j hv => Ctx.hStep_wf c core b _ p j hv

theorem Ctx.requantOne_wf (c : Ctx) (core : Nat) (b : Box) {u : Table Byte × Nat} (sat bad : List Nat) (p k : Nat)
    (h : Memory.wf u.1 = true) : Memory.wf (c.requantOne core b u sat bad p k).1 = true := cPut_wf h

theorem Ctx.requant_wf (c : Ctx) (core : Nat) (b : Box) (kb : Nat) (sat bad : List Nat) {m : Table Byte}
    (h : Memory.wf m = true) : Memory.wf (c.requant core b kb sat bad m).1 = true := by
  unfold Ctx.requant
  exact foldl_holds (P := fun u : Table Byte × Nat => Memory.wf u.1 = true) h fun u p hu =>
    foldl_holds (P := fun u : Table Byte × Nat => Memory.wf u.1 = true) hu fun u k hu =>
      Ctx.requantOne_wf c core b sat bad p k hu

theorem Ctx.computeBlock_wf (c : Ctx) (core : Nat) (b : Box) (badW : List Nat) {a : CoreRun} (kb : Nat)
    (h : Memory.wf a.m = true) : Memory.wf (c.computeBlock core b badW a kb).m = true := by
  have k : Memory.wf (if b.c0 = 0 then c.clear core b kb a.m else a.m) = true := by
    split
    · exact Ctx.clear_wf c core b kb h
    · exact h
  have l := Ctx.blockLoops_wf c core b kb a.regs.lut
    (a := ({ m := if b.c0 = 0 then c.clear core b kb a.m else a.m, sat := a.st.sat, grp := [], gsat := [] }, a.regs.block)) k
  unfold Ctx.computeBlock
  dsimp only
  split
  · exact l
  · exact Ctx.requant_wf c core b kb _ _ l

theorem Ctx.computeArray_wf (c : Ctx) (core : Nat) (b : Box) (badW : List Nat) {a : CoreRun} (h : Memory.wf a.m = true) :
    Memory.wf (c.computeArray core b badW a).m = true := by
  unfold Ctx.computeArray
  refine foldl_holds (P := fun u : CoreRun => Memory.wf u.m = true) ?_ fun u kb hu => Ctx.computeBlock_wf c core b badW kb hu
  refine Ctx.hTile_wf c core b ?_
  split <;> exact h

theorem State.computeVec_wf (s : State) (x : Run) (f : Refs) (c : Ctx) (core : Nat) (b : Box) {a : CoreRun}
    (h : Memory.wf a.m = true) : Memory.wf (s.computeVec x f c core b a).m = true := by
  unfold State.computeVec
  exact foldl_holds (P := fun u : CoreRun => Memory.wf u.m = true) h fun u i hu => cPut_wf hu

theorem State.computeTile_wf (s : State) (x : Run) (f : Refs) (c : Ctx) (core : Nat) (b : Box) (badW : List Nat) {a : CoreRun}
    (h : Memory.wf a.m = true) : Memory.wf (s.computeTile x f c core b badW a).m = true := by
  unfold State.computeTile
  split
  · exact Ctx.computeArray_wf c core b badW h
  · exact State.computeVec_wf s x f c core b h

/-- A write of a window register leaves the memories alone. -/
theorem Addr.write_same (a : Addr) (o : Nat) (v : Word) :
    (a.write o v).lp5x = a.lp5x ∧ (a.write o v).sac = a.sac ∧ (a.write o v).cores = a.cores := by
  unfold Addr.write
  repeat' split
  all_goals exact ⟨rfl, rfl, rfl⟩

end Sys2Proof.Machine
end

