-- ==== Sys2Proof/Laws/Keeps.lean ====
section
/-!
SUPPORT. What no command changes beside its own effect: the relation `Keeps`, which every operation of the model
satisfies, and the lemmas that pass it through records, branches, pairs and folds. Laws/Keeps*.lean holds one lemma
for every operation.
-/

namespace Sys2Proof.Machine

/-- From one state to a later one: the queue is untouched, what was sent stays sent, the fuses are those of before (the
anti-rollback counter may rise), and the memories stay in canonical form. -/
structure Keeps (s t : State) : Prop where
  pending : t.pending = s.pending
  out : s.out <+: t.out
  fuses : { t.fuses with rollback := s.fuses.rollback } = s.fuses
  rollback : s.fuses.rollback ≤ t.fuses.rollback
  mem : s.memWf = true → t.memWf = true

/-- An outcome keeps: its next state, if it is one, does. -/
inductive OutcomeKeeps (s : State) : Host.Outcome State Fault Refusal → Prop where
  | next {t : State} (h : Keeps s t) : OutcomeKeeps s (.next t)
  | fault (r : Fault) : OutcomeKeeps s (.fault r)
  | refused (r : Refusal) : OutcomeKeeps s (.refused r)

/-- A preparation keeps, whether it refuses or not. -/
inductive PrepKeeps (s : State) : Prep → Prop where
  | bad {t : State} {st : BitVec 16} (h : Keeps s t) : PrepKeeps s (.bad t st)
  | good {t : State} {x : Run} (h : Keeps s t) : PrepKeeps s (.good t x)

/-- A bind keeps, however far it has come. -/
inductive BindKeeps (s : State) : BindStep → Prop where
  | refuse {t : State} {st : BitVec 16} (h : Keeps s t) : BindKeeps s (.refuse t st)
  | wait {t : State} (h : Keeps s t) : BindKeeps s (.wait t)
  | done {t : State} {k : Nat} (h : Keeps s t) : BindKeeps s (.done t k)

/-- A state that may be absent keeps where it is present. -/
structure OptKeeps (s : State) (o : Option State) : Prop where
  keeps : ∀ t, o = some t → Keeps s t

/-- A state with a result, which may be absent. -/
structure OptKeeps1 {α : Type} (s : State) (o : Option (State × α)) : Prop where
  keeps : ∀ p, o = some p → Keeps s p.1

theorem Keeps.refl (s : State) : Keeps s s := ⟨rfl, List.prefix_rfl, rfl, Nat.le_refl _, id⟩

theorem Keeps.trans {s t u : State} (h : Keeps s t) (k : Keeps t u) : Keeps s u :=
  ⟨k.pending.trans h.pending, h.out.trans k.out, by
    have a := h.fuses
    have b := k.fuses
    rw [← a, ← b], Nat.le_trans h.rollback k.rollback, fun m => k.mem (h.mem m)⟩

/-- `Keeps`, of the fields of the later state that it speaks of. -/
structure KeepsFields (s : State) (p : List Instr) (o : List Out) (f : Fuses) (a : Addr) : Prop where
  pending : p = s.pending
  out : s.out <+: o
  fuses : { f with rollback := s.fuses.rollback } = s.fuses
  rollback : s.fuses.rollback ≤ f.rollback
  mem : s.memWf = true → (Memory.wf a.lp5x && Memory.wf a.sac && Memory.wf a.cores) = true

theorem Keeps.fields {s t : State} (h : Keeps s t) : KeepsFields s t.pending t.out t.fuses t.addr :=
  ⟨h.pending, h.out, h.fuses, h.rollback, h.mem⟩

/-- A record keeps when its fields do. -/
theorem Keeps.mk_eq {s : State} {pending out blocked fresh time pins fuses life pcie fns addr tenants trouble rings cmds order reads binds
    owners pace power wd dbg trace nvm fw csi slots weft comp perf} :
    Keeps s (State.mk pending out blocked fresh time pins fuses life pcie fns addr tenants trouble rings cmds order reads binds
      owners pace power wd dbg trace nvm fw csi slots weft comp perf) = KeepsFields s pending out fuses addr :=
  propext ⟨fun h => ⟨h.pending, h.out, h.fuses, h.rollback, h.mem⟩, fun h => ⟨h.pending, h.out, h.fuses, h.rollback, h.mem⟩⟩

/-- A record update that leaves queue, output, fuses and memories alone. -/
theorem KeepsFields.of {s x : State} {addr : Addr} (h : Keeps s x) (ha : addr.lp5x = x.addr.lp5x) (hb : addr.sac = x.addr.sac)
    (hc : addr.cores = x.addr.cores) : KeepsFields s x.pending x.out x.fuses addr :=
  ⟨h.pending, h.out, h.fuses, h.rollback, fun m => by
    have k := h.mem m
    simp only [State.memWf] at k
    rw [ha, hb, hc]
    exact k⟩

/-- A record update that writes memories and leaves them in canonical form. -/
theorem KeepsFields.ofMem {s x : State} {addr : Addr} (h : Keeps s x)
    (ha : Memory.wf x.addr.lp5x = true → Memory.wf addr.lp5x = true)
    (hb : Memory.wf x.addr.sac = true → Memory.wf addr.sac = true)
    (hc : Memory.wf x.addr.cores = true → Memory.wf addr.cores = true) : KeepsFields s x.pending x.out x.fuses addr :=
  ⟨h.pending, h.out, h.fuses, h.rollback, fun m => by
    have k := h.mem m
    simp only [State.memWf, Bool.and_eq_true] at k ⊢
    exact ⟨⟨ha k.1.1, hb k.1.2⟩, hc k.2⟩⟩

/-- A record that differs from another outside queue, output, fuses and memories. -/
theorem Keeps.upd {s x t : State} (h : Keeps s x) (h1 : t.pending = x.pending) (h2 : t.out = x.out) (h3 : t.fuses = x.fuses)
    (h4 : t.addr.lp5x = x.addr.lp5x) (h5 : t.addr.sac = x.addr.sac) (h6 : t.addr.cores = x.addr.cores) : Keeps s t := by
  refine h.trans ⟨h1, ?_, ?_, ?_, fun m => ?_⟩
  · rw [h2]
  · rw [h3]
  · rw [h3]
  · simpa only [State.memWf, h4, h5, h6] using m

/-- More output after what was sent. -/
theorem KeepsFields.emit {s x : State} {o : List Out} (h : Keeps s x) : KeepsFields s x.pending (x.out ++ o) x.fuses x.addr :=
  ⟨h.pending, h.out.trans (List.prefix_append _ _), h.fuses, h.rollback, h.mem⟩

/-- A higher anti-rollback counter. -/
theorem KeepsFields.rise {s x : State} {n : Nat} (h : Keeps s x) (k : x.fuses.rollback ≤ n) :
    KeepsFields s x.pending x.out { x.fuses with rollback := n } x.addr :=
  ⟨h.pending, h.out, h.fuses, Nat.le_trans h.rollback k, h.mem⟩

theorem Keeps.ite {s a b : State} {c : Prop} [Decidable c] (h : Keeps s a) (k : Keeps s b) : Keeps s (if c then a else b) := by
  split <;> assumption

theorem Keeps.of_pair {α : Type} {s a : State} {b : α} {p : State × α} (h : Keeps s p.1) (e : p = (a, b)) : Keeps s a := by
  subst e
  exact h

theorem Keeps.of_some {s a : State} {o : Option State} (h : OptKeeps s o) (e : o = some a) : Keeps s a := h.keeps a e

theorem Keeps.of_some1 {α : Type} {s : State} {a : State × α} {o : Option (State × α)} (h : OptKeeps1 s o) (e : o = some a) :
    Keeps s a.1 := h.keeps a e

theorem Keeps.of_someP {α : Type} {s a : State} {b : α} {o : Option (State × α)} (h : OptKeeps1 s o) (e : o = some (a, b)) :
    Keeps s a := h.keeps _ e

theorem Keeps.foldl {α : Type} {s x : State} {l : List α} {f : State → α → State} (h : Keeps s x)
    (k : ∀ y b, Keeps s y → Keeps s (f y b)) : Keeps s (l.foldl f x) := by
  induction l generalizing x with
  | nil => exact h
  | cons b l ih => exact ih (k x b h)

theorem Keeps.foldl1 {α β : Type} {s : State} {x : State × β} {l : List α} {f : State × β → α → State × β} (h : Keeps s x.1)
    (k : ∀ y b, Keeps s y.1 → Keeps s (f y b).1) : Keeps s (l.foldl f x).1 := by
  induction l generalizing x with
  | nil => exact h
  | cons b l ih => exact ih (k x b h)

theorem OutcomeKeeps.ite {s : State} {a b : Host.Outcome State Fault Refusal} {c : Prop} [Decidable c] (h : OutcomeKeeps s a)
    (k : OutcomeKeeps s b) : OutcomeKeeps s (if c then a else b) := by
  split <;> assumption

theorem PrepKeeps.ite {s : State} {a b : Prep} {c : Prop} [Decidable c] (h : PrepKeeps s a) (k : PrepKeeps s b) :
    PrepKeeps s (if c then a else b) := by
  split <;> assumption

theorem PrepKeeps.of_bad {s t : State} {st : BitVec 16} {p : Prep} (h : PrepKeeps s p) (e : p = .bad t st) : Keeps s t := by
  subst e
  cases h
  assumption

theorem PrepKeeps.of_good {s t : State} {x : Run} {p : Prep} (h : PrepKeeps s p) (e : p = .good t x) : Keeps s t := by
  subst e
  cases h
  assumption

theorem PrepKeeps.foldl {α : Type} {s : State} {x : Prep} {l : List α} {f : Prep → α → Prep} (h : PrepKeeps s x)
    (k : ∀ y b, PrepKeeps s y → PrepKeeps s (f y b)) : PrepKeeps s (l.foldl f x) := by
  induction l generalizing x with
  | nil => exact h
  | cons b l ih => exact ih (k x b h)

theorem BindKeeps.ite {s : State} {a b : BindStep} {c : Prop} [Decidable c] (h : BindKeeps s a) (k : BindKeeps s b) :
    BindKeeps s (if c then a else b) := by
  split <;> assumption

theorem BindKeeps.of_refuse {s t : State} {st : BitVec 16} {p : BindStep} (h : BindKeeps s p) (e : p = .refuse t st) : Keeps s t := by
  subst e
  cases h
  assumption

theorem BindKeeps.of_wait {s t : State} {p : BindStep} (h : BindKeeps s p) (e : p = .wait t) : Keeps s t := by
  subst e
  cases h
  assumption

theorem BindKeeps.of_done {s t : State} {k : Nat} {p : BindStep} (h : BindKeeps s p) (e : p = .done t k) : Keeps s t := by
  subst e
  cases h
  assumption

theorem OptKeeps.none {s : State} : OptKeeps s none := ⟨fun t e => by cases e⟩

theorem OptKeeps.some {s t : State} (h : Keeps s t) : OptKeeps s (some t) :=
  ⟨fun u e => by
    cases e
    exact h⟩

theorem OptKeeps.ite {s : State} {a b : Option State} {c : Prop} [Decidable c] (h : OptKeeps s a) (k : OptKeeps s b) :
    OptKeeps s (if c then a else b) := by
  split <;> assumption

theorem OptKeeps1.none {α : Type} {s : State} : OptKeeps1 (α := α) s none := ⟨fun t e => by cases e⟩

theorem OptKeeps1.some {α : Type} {s : State} {p : State × α} (h : Keeps s p.1) : OptKeeps1 s (some p) :=
  ⟨fun u e => by
    cases e
    exact h⟩

theorem OptKeeps1.ite {α : Type} {s : State} {a b : Option (State × α)} {c : Prop} [Decidable c] (h : OptKeeps1 s a)
    (k : OptKeeps1 s b) : OptKeeps1 s (if c then a else b) := by
  split <;> assumption

end Sys2Proof.Machine
end

