-- ==== Sys2Proof/Laws/KeepsA.lean ====
section
/-!
SUPPORT. `Keeps` of every operation of Machine/Ops, PowerOps, NvmOps.lean.
-/

namespace Sys2Proof.Machine

theorem State.updCmd_keeps {s0 : State} (s : State) (t : Nat) (g : Cmd → Cmd) (hs : Keeps s0 s) :
    Keeps s0 (State.updCmd s t g) := by
  unfold State.updCmd
  repeat' (first
    | with_reducible assumption
    | with_reducible refine KeepsFields.of ?_ rfl rfl rfl
    | simp only [Keeps.mk_eq]
    | split)

theorem State.updFn_keeps {s0 : State} (s : State) (f : Nat) (g : FnSt → FnSt) (hs : Keeps s0 s) :
    Keeps s0 (State.updFn s f g) := by
  unfold State.updFn
  repeat' (first
    | with_reducible assumption
    | with_reducible refine KeepsFields.of ?_ rfl rfl rfl
    | simp only [Keeps.mk_eq])

theorem State.emit_keeps {s0 : State} (s : State) (o : Out) (hs : Keeps s0 s) :
    Keeps s0 (State.emit s o) := by
  unfold State.emit
  simp only [Keeps.mk_eq]
  exact KeepsFields.emit hs

theorem State.leaveL1_keeps {s0 : State} (s : State) (hs : Keeps s0 s) :
    Keeps s0 (State.leaveL1 s) := by
  unfold State.leaveL1
  repeat' (first
    | with_reducible assumption
    | with_reducible apply Keeps.ite
    | with_reducible refine KeepsFields.of ?_ rfl rfl rfl
    | simp only [Keeps.mk_eq])

theorem State.busSend_keeps {s0 : State} (s : State) (f : Nat) (o : Out) (hs : Keeps s0 s) :
    Keeps s0 (State.busSend s f o) := by
  unfold State.busSend
  repeat' (first
    | with_reducible assumption
    | with_reducible apply State.emit_keeps
    | with_reducible apply State.leaveL1_keeps
    | with_reducible apply State.updFn_keeps
    | with_reducible apply Keeps.ite)

theorem State.sendMsi_keeps {s0 : State} (s : State) (f vec : Nat) (hs : Keeps s0 s) :
    Keeps s0 (State.sendMsi s f vec) := by
  unfold State.sendMsi
  repeat' (first
    | with_reducible assumption
    | with_reducible apply State.updFn_keeps
    | with_reducible apply State.busSend_keeps
    | with_reducible apply Keeps.ite
    | with_reducible refine KeepsFields.of ?_ rfl rfl rfl
    | simp only [Keeps.mk_eq])

theorem State.raiseFnEvt_keeps {s0 : State} (s : State) (f bit : Nat) (hs : Keeps s0 s) :
    Keeps s0 (State.raiseFnEvt s f bit) := by
  unfold State.raiseFnEvt
  repeat' (first
    | with_reducible assumption
    | with_reducible apply State.updFn_keeps
    | with_reducible apply State.sendMsi_keeps
    | with_reducible apply Keeps.ite)

theorem State.setFnTrb_keeps {s0 : State} (s : State) (f : Nat) (b : FnTrb) (hs : Keeps s0 s) :
    Keeps s0 (State.setFnTrb s f b) := by
  unfold State.setFnTrb
  repeat' (first
    | with_reducible assumption
    | with_reducible apply State.raiseFnEvt_keeps
    | with_reducible apply State.updFn_keeps
    | with_reducible apply Keeps.ite)

theorem State.endTrb_keeps {s0 : State} (s : State) (t : Nat) (status : BitVec 16) (hs : Keeps s0 s) :
    Keeps s0 (State.endTrb s t status) := by
  unfold State.endTrb
  repeat' (first
    | with_reducible assumption
    | with_reducible apply State.setFnTrb_keeps
    | with_reducible apply Keeps.ite
    | split)

theorem State.endCmd_keeps {s0 : State} (s : State) (t : Nat) (status : BitVec 16) (r0 r1 : Word)
    (hs : Keeps s0 s) :
    Keeps s0 (State.endCmd s t status r0 r1) := by
  unfold State.endCmd
  repeat' (first
    | with_reducible assumption
    | with_reducible apply State.updCmd_keeps
    | with_reducible apply State.endTrb_keeps
    | with_reducible apply Keeps.ite
    | with_reducible refine KeepsFields.of ?_ rfl rfl rfl
    | simp only [Keeps.mk_eq])

theorem State.perfAdd_keeps {s0 : State} (s : State) (slot k : Nat) (hs : Keeps s0 s) :
    Keeps s0 (State.perfAdd s slot k) := by
  unfold State.perfAdd
  repeat' (first
    | with_reducible assumption
    | with_reducible refine KeepsFields.of ?_ rfl rfl rfl
    | simp only [Keeps.mk_eq])

theorem State.stat_keeps {s0 : State} (s : State) (f slot k : Nat) (hs : Keeps s0 s) :
    Keeps s0 (State.stat s f slot k) := by
  unfold State.stat
  repeat' (first
    | with_reducible assumption
    | with_reducible apply State.updFn_keeps)

theorem State.sendPieces_keeps {s0 : State} (s : State) (f : Nat) (ns : Bool) (a3 : List (Nat × Bytes))
    (hs : Keeps s0 s) :
    Keeps s0 (State.sendPieces s f ns a3) := by
  fun_induction State.sendPieces s f ns a3
  all_goals
    repeat' (first
      | with_reducible assumption
      | with_reducible apply State.busSend_keeps
      | apply_assumption)

theorem State.patchCopies_keeps {s0 : State} (s : State) (w : MemWrite) (mine : Nat → Bool) (hs : Keeps s0 s) :
    Keeps s0 (State.patchCopies s w mine) := by
  unfold State.patchCopies
  repeat' (first
    | with_reducible assumption
    | with_reducible refine KeepsFields.of ?_ rfl rfl rfl
    | simp only [Keeps.mk_eq])

theorem State.patchHost_keeps {s0 : State} (s : State) (f a : Nat) (d : Bytes) (poison : Bool) (hs : Keeps s0 s) :
    Keeps s0 (State.patchHost s f a d poison) := by
  unfold State.patchHost
  repeat' (first
    | with_reducible assumption
    | with_reducible apply State.patchCopies_keeps)

theorem State.hostWrite_keeps {s0 : State} (s : State) (f a : Nat) (ns : Bool) (d : Bytes)
    (poison : optParam Bool Bool.false) (hs : Keeps s0 s) :
    Keeps s0 (State.hostWrite s f a ns d poison) := by
  unfold State.hostWrite
  repeat' (first
    | with_reducible assumption
    | with_reducible apply State.perfAdd_keeps
    | with_reducible apply State.stat_keeps
    | with_reducible apply State.sendPieces_keeps
    | with_reducible apply State.patchHost_keeps)

theorem State.patchLp_keeps {s0 : State} (s : State) (a : Nat) (d : Bytes) (poison : Bool) (hs : Keeps s0 s) :
    Keeps s0 (State.patchLp s a d poison) := by
  unfold State.patchLp
  repeat' (first
    | with_reducible assumption
    | with_reducible apply State.patchCopies_keeps)

theorem State.lpSetErr_keeps {s0 : State} (s : State) (line n : Nat) (hs : Keeps s0 s) :
    Keeps s0 (State.lpSetErr s line n) := by
  unfold State.lpSetErr
  repeat' (first
    | with_reducible assumption
    | with_reducible refine KeepsFields.of ?_ rfl rfl rfl
    | simp only [Keeps.mk_eq])

theorem State.lpCorrect_keeps {s0 : State} (s : State) (line : Nat) (hs : Keeps s0 s) :
    Keeps s0 (State.lpCorrect s line) := by
  unfold State.lpCorrect
  repeat' (first
    | with_reducible assumption
    | with_reducible apply State.lpSetErr_keeps
    | with_reducible refine KeepsFields.of ?_ rfl rfl rfl
    | simp only [Keeps.mk_eq])

theorem State.raiseDevEvt_keeps {s0 : State} (s : State) (bit : Nat) (hs : Keeps s0 s) :
    Keeps s0 (State.raiseDevEvt s bit) := by
  unfold State.raiseDevEvt
  repeat' (first
    | with_reducible assumption
    | with_reducible apply State.sendMsi_keeps
    | with_reducible apply Keeps.ite
    | with_reducible refine KeepsFields.of ?_ rfl rfl rfl
    | simp only [Keeps.mk_eq])

theorem State.setRefs_keeps {s0 : State} (s : State) (a1 : List TrbRef) (hs : Keeps s0 s) :
    Keeps s0 (State.setRefs s a1) := by
  fun_induction State.setRefs s a1 with
  | case1 s => exact hs
  | case2 s b t ih =>
    refine ih (Keeps.ite hs ?_)
    exact State.raiseDevEvt_keeps _ 0 (hs.upd rfl rfl rfl rfl rfl rfl)
  | case3 s f b t ih =>
    refine ih (Keeps.ite hs ?_)
    exact State.raiseFnEvt_keeps _ _ _ (State.updFn_keeps s f _ hs)

theorem State.setTrb_keeps {s0 : State} (s : State) (b : Trb) (hs : Keeps s0 s) :
    Keeps s0 (State.setTrb s b) := by
  unfold State.setTrb
  repeat' (first
    | with_reducible assumption
    | with_reducible apply State.raiseDevEvt_keeps
    | with_reducible apply Keeps.ite
    | with_reducible refine KeepsFields.of ?_ rfl rfl rfl
    | simp only [Keeps.mk_eq])

theorem State.writeEntry_keeps {s0 : State} (s : State) (e : LogEntry) (hs : Keeps s0 s) :
    Keeps s0 (State.writeEntry s e) := by
  unfold State.writeEntry
  repeat' (first
    | with_reducible assumption
    | with_reducible apply State.setTrb_keeps
    | with_reducible apply Keeps.ite
    | with_reducible refine KeepsFields.of ?_ rfl rfl rfl
    | simp only [Keeps.mk_eq])

theorem State.logEvent_keeps {s0 : State} (s : State) (kind : Nat) (fn : BitVec 8) (payload : Bytes)
    (bits : List TrbRef) (hs : Keeps s0 s) :
    Keeps s0 (State.logEvent s kind fn payload bits) := by
  unfold State.logEvent
  repeat' (first
    | with_reducible assumption
    | with_reducible apply State.setRefs_keeps
    | with_reducible apply State.writeEntry_keeps
    | with_reducible apply Keeps.ite
    | with_reducible refine KeepsFields.of ?_ rfl rfl rfl
    | simp only [Keeps.mk_eq])

theorem State.lpUncorr_keeps {s0 : State} (s : State) (line : Nat) (hs : Keeps s0 s) :
    Keeps s0 (State.lpUncorr s line) := by
  unfold State.lpUncorr
  repeat' (first
    | with_reducible assumption
    | with_reducible apply State.logEvent_keeps
    | with_reducible refine KeepsFields.of ?_ rfl rfl rfl
    | simp only [Keeps.mk_eq])

theorem State.tick_keeps {s0 : State} (s : State) (hs : Keeps s0 s) :
    Keeps s0 (State.tick s) := by
  unfold State.tick
  repeat' (first
    | with_reducible assumption
    | with_reducible refine KeepsFields.of ?_ rfl rfl rfl
    | simp only [Keeps.mk_eq])

theorem State.lpGarble_keeps {s0 : State} (s : State) (line : Nat) (hs : Keeps s0 s) :
    Keeps s0 (State.lpGarble s line) := by
  unfold State.lpGarble
  simp only [Keeps.mk_eq]
  exact KeepsFields.ofMem (State.tick_keeps s hs) (fun h => wf_writeBytes h) id id

theorem State.lpTouch_keeps {s0 : State} (s : State) (line : Nat) (hs : Keeps s0 s) :
    Keeps s0 (State.lpTouch s line).1 := by
  unfold State.lpTouch
  repeat' (first
    | with_reducible assumption
    | with_reducible apply State.lpCorrect_keeps
    | with_reducible apply State.lpUncorr_keeps
    | with_reducible apply State.tick_keeps
    | with_reducible apply State.lpGarble_keeps
    | with_reducible apply State.lpSetErr_keeps
    | simp only [Keeps.mk_eq]
    | split)

theorem State.lpMark_keeps {s0 : State} (s : State) (line : Nat) (whole poisoned : Bool) (hs : Keeps s0 s) :
    Keeps s0 (State.lpMark s line whole poisoned) := by
  unfold State.lpMark
  repeat' (first
    | with_reducible assumption
    | with_reducible apply State.lpTouch_keeps
    | with_reducible apply State.lpSetErr_keeps
    | with_reducible apply Keeps.ite
    | with_reducible refine KeepsFields.of ?_ rfl rfl rfl
    | simp only [Keeps.mk_eq]
    | split)

theorem State.lpMarkAll_keeps {s0 : State} (s : State) (a e line : Nat) (poisoned : Bool) (a5 : Nat)
    (hs : Keeps s0 s) :
    Keeps s0 (State.lpMarkAll s a e line poisoned a5) := by
  fun_induction State.lpMarkAll s a e line poisoned a5
  all_goals
    repeat' (first
      | with_reducible assumption
      | with_reducible apply State.lpMark_keeps
      | apply_assumption)

theorem State.lpWrite_keeps {s0 : State} (s : State) (a : Nat) (d : Bytes) (poisoned : Bool) (hs : Keeps s0 s) :
    Keeps s0 (State.lpWrite s a d poisoned) := by
  unfold State.lpWrite
  repeat' (first
    | with_reducible assumption
    | with_reducible apply State.patchLp_keeps
    | with_reducible apply State.lpMarkAll_keeps
    | with_reducible apply State.perfAdd_keeps
    | (refine KeepsFields.ofMem ?_ ?_ ?_ ?_ <;> first | (intro h; exact wf_writeBytes h) | (intro h; exact Table.wf_filter h) | (intro h; exact wf_clearRange h) | exact id | skip)
    | simp only [Keeps.mk_eq])

theorem State.lpTouchAll_keeps {s0 : State} (s : State) (line a2 : Nat) (hs : Keeps s0 s) :
    Keeps s0 (State.lpTouchAll s line a2).1 := by
  fun_induction State.lpTouchAll s line a2
  all_goals
    repeat' (first
      | with_reducible assumption
      | with_reducible apply State.lpTouch_keeps
      | apply_assumption
      | simp only [Keeps.mk_eq]
      | refine Keeps.of_pair ?_ (by assumption))

theorem State.lpRead_keeps {s0 : State} (s : State) (a len : Nat) (hs : Keeps s0 s) :
    Keeps s0 (State.lpRead s a len).1 := by
  unfold State.lpRead
  repeat' (first
    | with_reducible assumption
    | with_reducible apply State.lpTouchAll_keeps
    | with_reducible apply State.perfAdd_keeps)

theorem State.updBind_keeps {s0 : State} (s : State) (k : Nat) (g : Binding → Binding) (hs : Keeps s0 s) :
    Keeps s0 (State.updBind s k g) := by
  unfold State.updBind
  repeat' (first
    | with_reducible assumption
    | with_reducible refine KeepsFields.of ?_ rfl rfl rfl
    | simp only [Keeps.mk_eq])

theorem State.writePlace_keeps {s0 : State} (s : State) (f : Nat) (p : Place) (d : Bytes) (poisoned : Bool)
    (hs : Keeps s0 s) :
    Keeps s0 (State.writePlace s f p d poisoned) := by
  unfold State.writePlace
  repeat' (first
    | with_reducible assumption
    | with_reducible apply State.hostWrite_keeps
    | with_reducible apply State.stat_keeps
    | with_reducible apply State.lpWrite_keeps
    | split)

theorem State.updSlot_keeps {s0 : State} (s : State) (i : Nat) (g : Slot → Slot) (hs : Keeps s0 s) :
    Keeps s0 (State.updSlot s i g) := by
  unfold State.updSlot
  repeat' (first
    | with_reducible assumption
    | with_reducible refine KeepsFields.of ?_ rfl rfl rfl
    | simp only [Keeps.mk_eq])

theorem State.traceFifo_keeps {s0 : State} (s : State) (p : Bytes) (hs : Keeps s0 s) :
    Keeps s0 (State.traceFifo s p) := by
  unfold State.traceFifo
  repeat' (first
    | with_reducible assumption
    | with_reducible apply Keeps.ite
    | with_reducible refine KeepsFields.of ?_ rfl rfl rfl
    | simp only [Keeps.mk_eq])

theorem State.traceEmit_keeps {s0 : State} (s : State) (cls : Nat) (fn : Option Nat) (aon : Bool)
    (kind src aux : Nat) (data : Word) (hs : Keeps s0 s) :
    Keeps s0 (State.traceEmit s cls fn aon kind src aux data) := by
  unfold State.traceEmit
  repeat' (first
    | with_reducible assumption
    | with_reducible apply State.traceFifo_keeps
    | with_reducible apply Keeps.ite
    | with_reducible refine KeepsFields.of ?_ rfl rfl rfl
    | simp only [Keeps.mk_eq])

theorem State.ltrUpdate_keeps {s0 : State} (s : State) (hs : Keeps s0 s) :
    Keeps s0 (State.ltrUpdate s) := by
  unfold State.ltrUpdate
  repeat' (first
    | with_reducible assumption
    | with_reducible apply State.emit_keeps
    | with_reducible apply Keeps.ite
    | with_reducible refine KeepsFields.of ?_ rfl rfl rfl
    | simp only [Keeps.mk_eq])

theorem State.replayStub_keeps {s0 : State} (s : State) (was : DomState) (hs : Keeps s0 s) :
    Keeps s0 (State.replayStub s was) := by
  unfold State.replayStub
  repeat' (first
    | with_reducible assumption
    | with_reducible apply State.traceFifo_keeps
    | with_reducible apply Keeps.foldl
    | with_reducible refine KeepsFields.of ?_ rfl rfl rfl
    | intro _
    | simp only [Keeps.mk_eq])

theorem State.restPacket_keeps {s0 : State} (s old : State) (d : Nat) (hs : Keeps s0 s) (hold : Keeps s0 old) :
    Keeps s0 (State.restPacket s old d) := by
  unfold State.restPacket
  repeat' (first
    | with_reducible assumption
    | with_reducible apply State.traceEmit_keeps
    | with_reducible apply Keeps.ite)

theorem State.resumePacket_keeps {s0 : State} (s old : State) (d : Nat) (hs : Keeps s0 s) (hold : Keeps s0 old) :
    Keeps s0 (State.resumePacket s old d) := by
  unfold State.resumePacket
  repeat' (first
    | with_reducible assumption
    | with_reducible apply State.traceEmit_keeps
    | with_reducible apply Keeps.ite)

theorem State.stubFifo_keeps {s0 : State} (s : State) (hs : Keeps s0 s) :
    Keeps s0 (State.stubFifo s) := by
  unfold State.stubFifo
  repeat' (first
    | with_reducible assumption
    | with_reducible refine KeepsFields.of ?_ rfl rfl rfl
    | simp only [Keeps.mk_eq])

theorem State.dropCores_keeps {s0 : State} (s : State) (hs : Keeps s0 s) :
    Keeps s0 (State.dropCores s) := by
  unfold State.dropCores
  repeat' (first
    | with_reducible assumption
    | (refine KeepsFields.ofMem ?_ ?_ ?_ ?_ <;> first | (intro h; exact wf_writeBytes h) | (intro h; exact Table.wf_filter h) | (intro h; exact wf_clearRange h) | exact id | skip)
    | simp only [Keeps.mk_eq])

theorem State.refreshDoms_keeps {s0 : State} (s old : State) (hs : Keeps s0 s) (hold : Keeps s0 old) :
    Keeps s0 (State.refreshDoms s old) := by
  unfold State.refreshDoms
  repeat' (first
    | with_reducible assumption
    | with_reducible apply State.replayStub_keeps
    | with_reducible apply State.restPacket_keeps
    | with_reducible apply State.resumePacket_keeps
    | with_reducible apply State.stubFifo_keeps
    | with_reducible apply State.traceFifo_keeps
    | with_reducible apply State.dropCores_keeps
    | with_reducible apply Keeps.ite
    | with_reducible apply Keeps.foldl
    | with_reducible refine KeepsFields.of ?_ rfl rfl rfl
    | intro _
    | simp only [Keeps.mk_eq])

theorem State.wake_keeps {s0 : State} (s : State) (src : Nat) (hs : Keeps s0 s) :
    Keeps s0 (State.wake s src) := by
  unfold State.wake
  repeat' (first
    | with_reducible assumption
    | with_reducible apply State.traceEmit_keeps
    | with_reducible apply State.ltrUpdate_keeps
    | with_reducible apply State.refreshDoms_keeps
    | with_reducible apply Keeps.ite
    | with_reducible refine KeepsFields.of ?_ rfl rfl rfl
    | simp only [Keeps.mk_eq])

theorem State.retarget_keeps {s0 : State} (s : State) (hs : Keeps s0 s) :
    Keeps s0 (State.retarget s) := by
  unfold State.retarget
  repeat' (first
    | with_reducible assumption
    | with_reducible apply State.wake_keeps
    | with_reducible apply State.ltrUpdate_keeps
    | with_reducible apply Keeps.ite)

theorem State.updBlock_keeps {s0 : State} (s : State) (b p : Nat) (f : NvmBlock → NvmBlock) (hs : Keeps s0 s) :
    Keeps s0 (State.updBlock s b p f) := by
  unfold State.updBlock
  repeat' (first
    | with_reducible assumption
    | with_reducible refine KeepsFields.of ?_ rfl rfl rfl
    | simp only [Keeps.mk_eq])

theorem State.markDue_keeps {s0 : State} (s : State) (b p why : Nat) (hs : Keeps s0 s) :
    Keeps s0 (State.markDue s b p why) := by
  unfold State.markDue
  repeat' (first
    | with_reducible assumption
    | with_reducible apply State.logEvent_keeps
    | with_reducible apply State.updBlock_keeps
    | with_reducible apply Keeps.ite)

theorem State.countReads_keeps {s0 : State} (s : State) (b p n : Nat) (hs : Keeps s0 s) :
    Keeps s0 (State.countReads s b p n) := by
  unfold State.countReads
  repeat' (first
    | with_reducible assumption
    | with_reducible apply State.perfAdd_keeps
    | with_reducible apply State.updBlock_keeps
    | with_reducible apply State.markDue_keeps
    | with_reducible apply Keeps.ite)

theorem State.countRow_keeps {s0 : State} (s : State) (b row : Nat) (hs : Keeps s0 s) :
    Keeps s0 (State.countRow s b row) := by
  unfold State.countRow
  repeat' (first
    | with_reducible assumption
    | with_reducible apply State.countReads_keeps)

theorem State.readRow_keeps {s0 : State} (s : State) (b row : Nat) (hs : Keeps s0 s) :
    Keeps s0 (State.readRow s b row) := by
  unfold State.readRow
  repeat' (first
    | with_reducible assumption
    | with_reducible apply State.countRow_keeps
    | with_reducible apply Keeps.foldl
    | with_reducible refine KeepsFields.of ?_ rfl rfl rfl
    | intro _
    | simp only [Keeps.mk_eq])

theorem State.eccOutcome_keeps {s0 : State} (s : State) (b l w : Nat) (r : WordRead) (hs : Keeps s0 s) :
    Keeps s0 (State.eccOutcome s b l w r) := by
  unfold State.eccOutcome
  repeat' (first
    | with_reducible assumption
    | with_reducible apply State.logEvent_keeps
    | with_reducible apply State.markDue_keeps
    | with_reducible apply Keeps.ite
    | with_reducible refine KeepsFields.of ?_ rfl rfl rfl
    | simp only [Keeps.mk_eq])

theorem State.readWord_keeps {s0 : State} (s : State) (b l w : Nat) (hs : Keeps s0 s) :
    Keeps s0 (State.readWord s b l w).1 := by
  unfold State.readWord
  repeat' (first
    | with_reducible assumption
    | with_reducible apply State.eccOutcome_keeps
    | with_reducible apply State.tick_keeps
    | with_reducible apply Keeps.ite)

theorem State.updRing_keeps {s0 : State} (s : State) (f r : Nat) (g : Ring → Ring) (hs : Keeps s0 s) :
    Keeps s0 (State.updRing s f r g) := by
  unfold State.updRing
  repeat' (first
    | with_reducible assumption
    | with_reducible refine KeepsFields.of ?_ rfl rfl rfl
    | simp only [Keeps.mk_eq])

theorem State.scanRow_keeps {s0 : State} (s : State) (b row : Nat) (hs : Keeps s0 s) :
    Keeps s0 (State.scanRow s b row) := by
  unfold State.scanRow
  repeat' (first
    | with_reducible assumption
    | with_reducible apply State.countRow_keeps)

theorem State.aerLog_keeps {s0 : State} (s : State) (f : Nat) (un : Word) (hs : Keeps s0 s) :
    Keeps s0 (State.aerLog s f un) := by
  unfold State.aerLog
  repeat' (first
    | with_reducible assumption
    | with_reducible apply State.updFn_keeps
    | with_reducible apply State.tick_keeps
    | with_reducible apply Keeps.ite)

theorem State.aer_keeps {s0 : State} (s : State) (f : Nat) (un corr : Word) (hs : Keeps s0 s) :
    Keeps s0 (State.aer s f un corr) := by
  unfold State.aer
  repeat' (first
    | with_reducible assumption
    | with_reducible apply State.updFn_keeps
    | with_reducible apply State.aerLog_keeps)

theorem State.logUr_keeps {s0 : State} (s : State) (f : Nat) (posted : Bool) (hs : Keeps s0 s) :
    Keeps s0 (State.logUr s f posted) := by
  unfold State.logUr
  repeat' (first
    | with_reducible assumption
    | with_reducible apply State.aer_keeps
    | split)

theorem State.pd4Read_keeps {s0 : State} (s : State) (b : Nat) (hs : Keeps s0 s) :
    Keeps s0 (State.pd4Read s b) := by
  unfold State.pd4Read
  repeat' (first
    | with_reducible assumption
    | with_reducible apply State.traceEmit_keeps
    | with_reducible apply Keeps.ite)

theorem State.clearFnTrb_keeps {s0 : State} (s : State) (f : Nat) (w : Word) (hs : Keeps s0 s) :
    Keeps s0 (State.clearFnTrb s f w) := by
  unfold State.clearFnTrb
  repeat' (first
    | with_reducible assumption
    | with_reducible apply State.updFn_keeps)

theorem State.forOps_keeps {s0 : State} (s : State) (f : State → NvmOp → State) (hs : Keeps s0 s)
    (hf : ∀ v0 v1, Keeps s0 v0 → Keeps s0 (f v0 v1)) :
    Keeps s0 (State.forOps s f) := by
  unfold State.forOps
  repeat' (first
    | with_reducible assumption
    | with_reducible apply Keeps.foldl)

theorem State.garble_keeps {s0 : State} (s : State) (b p w : Nat) (hs : Keeps s0 s) :
    Keeps s0 (State.garble s b p w) := by
  unfold State.garble
  repeat' (first
    | with_reducible assumption
    | with_reducible apply State.tick_keeps
    | with_reducible refine KeepsFields.of ?_ rfl rfl rfl
    | simp only [Keeps.mk_eq])

theorem State.garbleBlock_keeps {s0 : State} (s : State) (b p : Nat) (hs : Keeps s0 s) :
    Keeps s0 (State.garbleBlock s b p) := by
  unfold State.garbleBlock
  repeat' (first
    | with_reducible assumption
    | with_reducible apply State.updBlock_keeps
    | with_reducible apply State.tick_keeps
    | with_reducible refine KeepsFields.of ?_ rfl rfl rfl
    | simp only [Keeps.mk_eq])

theorem State.leaveSpare_keeps {s0 : State} (s : State) (o : NvmOp) (mid : Bool) (hs : Keeps s0 s) :
    Keeps s0 (State.leaveSpare s o mid) := by
  unfold State.leaveSpare
  repeat' (first
    | with_reducible assumption
    | with_reducible apply State.updBlock_keeps)

theorem State.cutOp_keeps {s0 : State} (s : State) (o : NvmOp) (hs : Keeps s0 s) :
    Keeps s0 (State.cutOp s o) := by
  unfold State.cutOp
  repeat' (first
    | with_reducible assumption
    | with_reducible apply State.garble_keeps
    | with_reducible apply State.garbleBlock_keeps
    | with_reducible apply State.leaveSpare_keeps
    | with_reducible apply Keeps.ite
    | simp only [Keeps.mk_eq]
    | split)

theorem State.eraseOk_keeps {s0 : State} (s : State) (b p : Nat) (hs : Keeps s0 s) :
    Keeps s0 (State.eraseOk s b p) := by
  unfold State.eraseOk
  repeat' (first
    | with_reducible assumption
    | with_reducible apply State.updBlock_keeps
    | with_reducible refine KeepsFields.of ?_ rfl rfl rfl
    | simp only [Keeps.mk_eq])

theorem State.eraseBad_keeps {s0 : State} (s : State) (b p : Nat) (hs : Keeps s0 s) :
    Keeps s0 (State.eraseBad s b p) := by
  unfold State.eraseBad
  repeat' (first
    | with_reducible assumption
    | with_reducible apply State.logEvent_keeps
    | with_reducible apply State.garbleBlock_keeps
    | with_reducible apply State.updBlock_keeps)

theorem State.charge_keeps {s0 : State} (s : State) (b p l w : Nat) (gen : BitVec 16) (moved : Bool) (data : Bytes)
    (hs : Keeps s0 s) :
    Keeps s0 (State.charge s b p l w gen moved data) := by
  unfold State.charge
  repeat' (first
    | with_reducible assumption
    | with_reducible apply State.tick_keeps
    | with_reducible refine KeepsFields.of ?_ rfl rfl rfl
    | simp only [Keeps.mk_eq])

theorem State.finishOp_keeps {s0 : State} (s : State) (o : NvmOp) (hs : Keeps s0 s) :
    Keeps s0 (State.finishOp s o) := by
  unfold State.finishOp
  repeat' (first
    | with_reducible assumption
    | with_reducible apply State.eraseOk_keeps
    | with_reducible apply State.tick_keeps
    | with_reducible apply State.eraseBad_keeps
    | with_reducible apply State.charge_keeps
    | with_reducible apply State.leaveSpare_keeps
    | with_reducible apply Keeps.ite
    | simp only [Keeps.mk_eq]
    | split)

theorem State.clearTrb_keeps {s0 : State} (s : State) (w : Word) (hs : Keeps s0 s) :
    Keeps s0 (State.clearTrb s w) := by
  unfold State.clearTrb
  repeat' (first
    | with_reducible assumption
    | with_reducible refine KeepsFields.of ?_ rfl rfl rfl
    | simp only [Keeps.mk_eq])

theorem State.readStored_keeps {s0 : State} (s : State) (part : Nat → Nat → Nat → Bool) (hs : Keeps s0 s) :
    Keeps s0 (State.readStored s part) := by
  unfold State.readStored
  repeat' (first
    | with_reducible assumption
    | with_reducible apply State.readWord_keeps
    | with_reducible apply Keeps.ite
    | with_reducible apply Keeps.foldl
    | intro _
    | simp only [Keeps.mk_eq]
    | split)

theorem State.slotRows_keeps {s0 : State} (s : State) (b len : Nat) (hs : Keeps s0 s) :
    Keeps s0 (State.slotRows s b len) := by
  unfold State.slotRows
  repeat' (first
    | with_reducible assumption
    | with_reducible apply State.countReads_keeps
    | with_reducible apply Keeps.foldl
    | intro _)

theorem State.queueOp_keeps {s0 : State} (s : State) (o : NvmOp) (hs : Keeps s0 s) :
    Keeps s0 (State.queueOp s o) := by
  unfold State.queueOp
  repeat' (first
    | with_reducible assumption
    | with_reducible refine KeepsFields.of ?_ rfl rfl rfl
    | simp only [Keeps.mk_eq])

theorem State.parity_keeps {s0 : State} (s : State) (f : Nat) (completion : Bool) (hs : Keeps s0 s) :
    Keeps s0 (State.parity s f completion) := by
  unfold State.parity
  repeat' (first
    | with_reducible assumption
    | with_reducible apply State.updFn_keeps)

theorem State.noteRead_keeps {s0 : State} (s : State) (f : Nat) (r : Except ReadFail Bytes) (hs : Keeps s0 s) :
    Keeps s0 (State.noteRead s f r) := by
  unfold State.noteRead
  repeat' (first
    | with_reducible assumption
    | with_reducible apply State.aer_keeps
    | with_reducible apply State.parity_keeps
    | with_reducible refine KeepsFields.of ?_ rfl rfl rfl
    | simp only [Keeps.mk_eq]
    | split)

theorem State.sendReads_keeps {s0 : State} (s : State) (f tag : Nat) (ns : Bool) (a4 a5 a6 : Nat)
    (hs : Keeps s0 s) :
    Keeps s0 (State.sendReads s f tag ns a4 a5 a6) := by
  induction a4 generalizing s a5 a6 with
  | zero => exact hs
  | succ n ih =>
    unfold State.sendReads
    split
    · exact hs
    · exact ih _ _ _ (State.emit_keeps s _ hs)

theorem State.readHost_keeps {s0 : State} (s : State) (view : HostView) (f a : Nat) (ns : Bool) (len : Nat)
    (hs : Keeps s0 s) :
    Keeps s0 (State.readHost s view f a ns len).1 := by
  unfold State.readHost
  repeat' (first
    | with_reducible assumption
    | with_reducible apply State.noteRead_keeps
    | with_reducible apply State.perfAdd_keeps
    | with_reducible apply State.stat_keeps
    | with_reducible apply State.sendReads_keeps
    | with_reducible refine KeepsFields.of ?_ rfl rfl rfl
    | simp only [Keeps.mk_eq]
    | split)

theorem State.readPlace_keeps {s0 : State} (s : State) (view : HostView) (f : Nat) (p : Place) (len : Nat)
    (hs : Keeps s0 s) :
    Keeps s0 (State.readPlace s view f p len).1 := by
  unfold State.readPlace
  repeat' (first
    | with_reducible assumption
    | with_reducible apply State.readHost_keeps
    | with_reducible apply State.lpRead_keeps
    | with_reducible apply State.stat_keeps
    | simp only [Keeps.mk_eq]
    | split)

theorem State.sinkPacket_keeps {s0 : State} (s : State) (p : Bytes) (hs : Keeps s0 s) :
    Keeps s0 (State.sinkPacket s p) := by
  unfold State.sinkPacket
  repeat' (first
    | with_reducible assumption
    | with_reducible apply State.emit_keeps
    | with_reducible apply State.lpWrite_keeps
    | with_reducible apply Keeps.ite
    | with_reducible refine KeepsFields.of ?_ rfl rfl rfl
    | simp only [Keeps.mk_eq]
    | split)

theorem State.drainPacket_keeps {s0 : State} (s : State) (hs : Keeps s0 s) :
    Keeps s0 (State.drainPacket s) := by
  unfold State.drainPacket
  repeat' (first
    | with_reducible assumption
    | with_reducible apply State.sinkPacket_keeps
    | with_reducible apply Keeps.ite
    | with_reducible refine KeepsFields.of ?_ rfl rfl rfl
    | simp only [Keeps.mk_eq]
    | split)

theorem State.drainTrace_keeps {s0 : State} (s : State) (hs : Keeps s0 s) :
    Keeps s0 (State.drainTrace s) := by
  unfold State.drainTrace
  repeat' (first
    | with_reducible assumption
    | with_reducible apply State.drainPacket_keeps
    | with_reducible apply Keeps.ite)

theorem State.flushTrace_keeps {s0 : State} (s : State) (hs : Keeps s0 s) :
    Keeps s0 (State.flushTrace s) := by
  unfold State.flushTrace
  repeat' (first
    | with_reducible assumption
    | with_reducible apply State.drainPacket_keeps
    | with_reducible apply Keeps.ite
    | with_reducible apply Keeps.foldl
    | intro _)

theorem State.flushWaiting_keeps {s0 : State} (s : State) (a1 : List (LogEntry × List TrbRef)) (hs : Keeps s0 s) :
    Keeps s0 (State.flushWaiting s a1) := by
  fun_induction State.flushWaiting s a1
  all_goals
    repeat' (first
      | with_reducible assumption
      | with_reducible apply State.writeEntry_keeps
      | with_reducible apply State.setRefs_keeps
      | with_reducible refine KeepsFields.of ?_ rfl rfl rfl
      | apply_assumption
      | simp only [Keeps.mk_eq])

theorem State.onCmd_keeps {s0 : State} (s : State) (t : Nat) (ops : List Nat) (f : Cmd → State) (hs : Keeps s0 s)
    (hf : ∀ v0, Keeps s0 (f v0)) :
    Keeps s0 (State.onCmd s t ops f) := by
  unfold State.onCmd
  repeat' (first
    | with_reducible assumption
    | apply_assumption
    | split)

theorem State.orWait_keeps {s0 : State} (s t : State) (hs : Keeps s0 s) (ht : Keeps s0 t) :
    Keeps s0 (State.orWait s t) := by
  unfold State.orWait
  repeat' (first
    | with_reducible assumption
    | with_reducible apply Keeps.ite)

theorem State.readWords_keeps {s0 : State} (s : State) (b l w a4 : Nat) (hs : Keeps s0 s) :
    Keeps s0 (State.readWords s b l w a4).1 := by
  fun_induction State.readWords s b l w a4
  all_goals
    repeat' (first
      | with_reducible assumption
      | with_reducible apply State.readRow_keeps
      | with_reducible apply State.readWord_keeps
      | apply_assumption
      | simp only [Keeps.mk_eq]
      | refine Keeps.of_pair ?_ (by assumption))

theorem State.unitEnds_keeps {s0 : State} (s : State) (b : Nat) (hs : Keeps s0 s) :
    OptKeeps s0 (State.unitEnds s b) := by
  unfold State.unitEnds
  repeat' (first
    | with_reducible assumption
    | with_reducible apply OptKeeps.none
    | with_reducible apply OptKeeps.some
    | with_reducible apply OptKeeps.ite
    | with_reducible refine KeepsFields.of ?_ rfl rfl rfl
    | simp only [Keeps.mk_eq])

end Sys2Proof.Machine
end

