-- ==== Sys2Proof/Laws/KeepsB.lean ====
section
/-!
SUPPORT. `Keeps` of every operation of Machine/FwOps, Optim, Cache, Rings, WeftOps, Release, Pace.lean.
-/

namespace Sys2Proof.Machine

theorem State.trainWrite_keeps {s0 : State} (s : State) (f a : Nat) (d : Bytes) (poison : Bool) (hs : Keeps s0 s) :
    Keeps s0 (State.trainWrite s f a d poison) := by
  unfold State.trainWrite
  repeat' (first
    | with_reducible assumption
    | with_reducible apply State.stat_keeps
    | with_reducible apply State.lpWrite_keeps)

theorem State.endUpdate_keeps {s0 : State} (s : State) (x : Run) (a : Nat) (u : UpdPhase) (hs : Keeps s0 s) :
    Keeps s0 (State.endUpdate s x a u).1 := by
  unfold State.endUpdate
  repeat' (first
    | with_reducible assumption
    | with_reducible apply State.trainWrite_keeps)

theorem State.trainRead_keeps {s0 : State} (s : State) (f a len : Nat) (hs : Keeps s0 s) :
    Keeps s0 (State.trainRead s f a len).1 := by
  unfold State.trainRead
  repeat' (first
    | with_reducible assumption
    | with_reducible apply State.lpRead_keeps
    | with_reducible apply State.stat_keeps)

theorem State.newTensor_keeps {s0 : State} (s : State) (f : Nat) (o : OptArgs) (a : Nat) (p : Tensor)
    (hs : Keeps s0 s) :
    Keeps s0 (State.newTensor s f o a p).1 := by
  unfold State.newTensor
  repeat' (first
    | with_reducible assumption
    | with_reducible apply State.trainRead_keeps
    | simp only [Keeps.mk_eq]
    | split)

theorem State.updateTensor_keeps {s0 : State} (s : State) (f : Nat) (o : OptArgs) (a : Nat) (p : Tensor)
    (hs : Keeps s0 s) :
    Keeps s0 (State.updateTensor s f o a p).1 := by
  unfold State.updateTensor
  repeat' (first
    | with_reducible assumption
    | with_reducible apply State.newTensor_keeps
    | with_reducible apply State.trainWrite_keeps
    | simp only [Keeps.mk_eq]
    | split
    | refine Keeps.of_pair ?_ (by assumption))

theorem State.stepUpdate_keeps {s0 : State} (s : State) (x : Run) (hs : Keeps s0 s) :
    Keeps s0 (State.stepUpdate s x).1 := by
  unfold State.stepUpdate
  repeat' (first
    | with_reducible assumption
    | with_reducible apply State.endUpdate_keeps
    | with_reducible apply State.updateTensor_keeps
    | simp only [Keeps.mk_eq]
    | split)

theorem State.closeUpdate_keeps {s0 : State} (s : State) (x : Run) (hs : Keeps s0 s) :
    Keeps s0 (State.closeUpdate s x).1 := by
  unfold State.closeUpdate
  repeat' (first
    | with_reducible assumption
    | with_reducible apply State.stepUpdate_keeps
    | with_reducible apply State.endUpdate_keeps
    | simp only [Keeps.mk_eq]
    | split)

theorem State.sendBare_keeps {s0 : State} (s : State) (i kind seq : Nat) (payload : Bytes) (hs : Keeps s0 s) :
    Keeps s0 (State.sendBare s i kind seq payload) := by
  unfold State.sendBare
  refine Keeps.ite hs ?_
  simp only [Keeps.mk_eq]
  exact (KeepsFields.emit (State.tick_keeps s hs) : _)

theorem State.sendIdle_keeps {s0 : State} (s : State) (i : Nat) (hs : Keeps s0 s) :
    Keeps s0 (State.sendIdle s i) := by
  unfold State.sendIdle
  repeat' (first
    | with_reducible assumption
    | with_reducible apply State.sendBare_keeps)

theorem State.emitFlits_keeps {s0 : State} (s : State) (i : Nat) (l : List Bytes) (hs : Keeps s0 s) :
    Keeps s0 (State.emitFlits s i l) := by
  unfold State.emitFlits
  apply State.perfAdd_keeps
  simp only [Keeps.mk_eq]
  exact KeepsFields.emit hs

theorem State.updPort_keeps {s0 : State} (s : State) (i : Nat) (g : Port → Port) (hs : Keeps s0 s) :
    Keeps s0 (State.updPort s i g) := by
  unfold State.updPort
  repeat' (first
    | with_reducible assumption
    | with_reducible refine KeepsFields.of ?_ rfl rfl rfl
    | simp only [Keeps.mk_eq])

theorem State.pump_keeps {s0 : State} (s : State) (i : Nat) (hs : Keeps s0 s) :
    Keeps s0 (State.pump s i) := by
  unfold State.pump
  repeat' (first
    | with_reducible assumption
    | with_reducible apply State.sendIdle_keeps
    | with_reducible apply State.emitFlits_keeps
    | with_reducible apply State.updPort_keeps
    | with_reducible apply Keeps.ite)

theorem State.sendOn_keeps {s0 : State} (s : State) (i : Nat) (body : Bytes) (hs : Keeps s0 s) :
    Keeps s0 (State.sendOn s i body) := by
  unfold State.sendOn
  repeat' (first
    | with_reducible assumption
    | with_reducible apply State.pump_keeps
    | with_reducible apply State.updPort_keeps)

theorem State.sendTo_keeps {s0 : State} (s : State) (dst : Nat) (body : Bytes) (hs : Keeps s0 s) :
    Keeps s0 (State.sendTo s dst body) := by
  unfold State.sendTo
  repeat' (first
    | with_reducible assumption
    | with_reducible apply State.sendOn_keeps
    | split)

theorem State.sendCtrl_keeps {s0 : State} (s : State) (dst : Nat) (m : CtrlMsg) (hs : Keeps s0 s) :
    Keeps s0 (State.sendCtrl s dst m) := by
  unfold State.sendCtrl
  repeat' (first
    | with_reducible assumption
    | with_reducible apply State.sendTo_keeps)

theorem State.dropSlot_keeps {s0 : State} (s : State) (i : Nat) (hs : Keeps s0 s) :
    Keeps s0 (State.dropSlot s i) := by
  unfold State.dropSlot
  repeat' (first
    | with_reducible assumption
    | with_reducible apply State.updSlot_keeps)

theorem State.slotDone_keeps {s0 : State} (s : State) (i : Nat) (hs : Keeps s0 s) :
    Keeps s0 (State.slotDone s i) := by
  unfold State.slotDone
  repeat' (first
    | with_reducible assumption
    | with_reducible apply State.dropSlot_keeps
    | with_reducible apply State.retarget_keeps
    | with_reducible apply State.endCmd_keeps
    | with_reducible apply Keeps.ite
    | simp only [Keeps.mk_eq]
    | split)

theorem State.loseCopies_keeps {s0 : State} (s : State) (keep : Nat → Nat × Line → Bool) (f : Nat) (host : Bool)
    (line : Nat) (hs : Keeps s0 s) :
    Keeps s0 (State.loseCopies s keep f host line) := by
  unfold State.loseCopies
  repeat' (first
    | with_reducible assumption
    | with_reducible apply State.stat_keeps
    | with_reducible refine KeepsFields.of ?_ rfl rfl rfl
    | simp only [Keeps.mk_eq])

theorem State.evict_keeps {s0 : State} (s : State) (keep : Nat → Nat × Line → Bool) (key : Nat) (hs : Keeps s0 s) :
    Keeps s0 (State.evict s keep key) := by
  unfold State.evict
  repeat' (first
    | with_reducible assumption
    | with_reducible apply State.loseCopies_keeps
    | with_reducible refine KeepsFields.of ?_ rfl rfl rfl
    | simp only [Keeps.mk_eq]
    | split)

theorem State.emptyCache_keeps {s0 : State} (s : State) (p : Nat × CacheLine → Bool) (hs : Keeps s0 s) :
    Keeps s0 (State.emptyCache s p) := by
  unfold State.emptyCache
  repeat' (first
    | with_reducible assumption
    | with_reducible apply State.evict_keeps
    | with_reducible apply Keeps.foldl
    | intro _)

theorem State.emptyWays_keeps {s0 : State} (s00 : State) (l : List Nat) (hs00 : Keeps s0 s00) :
    Keeps s0 (State.emptyWays s00 l) := by
  unfold State.emptyWays
  repeat' (first
    | with_reducible assumption
    | with_reducible apply State.emptyCache_keeps
    | (refine KeepsFields.ofMem ?_ ?_ ?_ ?_ <;> first | (intro h; exact wf_writeBytes h) | (intro h; exact Table.wf_filter h) | (intro h; exact wf_clearRange h) | exact id | skip)
    | simp only [Keeps.mk_eq])

theorem State.freeWays_keeps {s0 : State} (s : State) (k : Nat) (hs : Keeps s0 s) :
    Keeps s0 (State.freeWays s k) := by
  unfold State.freeWays
  repeat' (first
    | with_reducible assumption
    | with_reducible apply State.emptyWays_keeps
    | with_reducible refine KeepsFields.of ?_ rfl rfl rfl
    | simp only [Keeps.mk_eq])

theorem State.zeroCores_keeps {s0 : State} (s : State) (l : List Nat) (hs : Keeps s0 s) :
    Keeps s0 (State.zeroCores s l) := by
  unfold State.zeroCores
  repeat' (first
    | with_reducible assumption
    | (refine KeepsFields.ofMem ?_ ?_ ?_ ?_ <;> first | (intro h; exact wf_writeBytes h) | (intro h; exact Table.wf_filter h) | (intro h; exact wf_clearRange h) | exact id | skip)
    | simp only [Keeps.mk_eq])

theorem State.tellParts_keeps {s0 : State} (s : State) (k : Nat) (hs : Keeps s0 s) :
    Keeps s0 (State.tellParts s k) := by
  unfold State.tellParts
  repeat' (first
    | with_reducible assumption
    | with_reducible apply State.sendCtrl_keeps
    | with_reducible apply Keeps.ite
    | with_reducible apply Keeps.foldl
    | intro _)

theorem State.freeBinding_keeps {s0 : State} (s : State) (k : Nat) (hs : Keeps s0 s) :
    Keeps s0 (State.freeBinding s k) := by
  unfold State.freeBinding
  repeat' (first
    | with_reducible assumption
    | with_reducible apply State.freeWays_keeps
    | with_reducible apply State.zeroCores_keeps
    | with_reducible apply State.tellParts_keeps
    | with_reducible apply State.updBind_keeps
    | with_reducible apply State.refreshDoms_keeps
    | with_reducible apply Keeps.ite
    | with_reducible refine KeepsFields.of ?_ rfl rfl rfl
    | simp only [Keeps.mk_eq])

theorem State.accept_keeps {s0 : State} (s : State) (f r t : Nat) (e : Entry) (hs : Keeps s0 s) :
    Keeps s0 (State.accept s f r t e) := by
  unfold State.accept
  repeat' (first
    | with_reducible assumption
    | with_reducible apply State.updRing_keeps
    | with_reducible apply State.updFn_keeps
    | with_reducible refine KeepsFields.of ?_ rfl rfl rfl
    | simp only [Keeps.mk_eq])

theorem State.freeCapture_keeps {s0 : State} (s : State) (i : Nat) (cap : Option Nat) (hs : Keeps s0 s) :
    Keeps s0 (State.freeCapture s i cap) := by
  unfold State.freeCapture
  repeat' (first
    | with_reducible assumption
    | with_reducible apply State.updSlot_keeps
    | split)

theorem State.afterFrame_keeps {s0 : State} (s : State) (c : Cmd) (hs : Keeps s0 s) :
    Keeps s0 (State.afterFrame s c) := by
  unfold State.afterFrame
  repeat' (first
    | with_reducible assumption
    | with_reducible apply State.slotDone_keeps
    | with_reducible apply State.freeCapture_keeps
    | split)

theorem State.announce_keeps {s0 : State} (s : State) (f r : Nat) (hs : Keeps s0 s) :
    Keeps s0 (State.announce s f r) := by
  unfold State.announce
  repeat' (first
    | with_reducible assumption
    | with_reducible apply State.sendMsi_keeps
    | with_reducible apply State.updRing_keeps
    | with_reducible apply Keeps.ite)

theorem State.avsFault_keeps {s0 : State} (s : State) (status : Bool) (hs : Keeps s0 s) :
    Keeps s0 (State.avsFault s status) := by
  unfold State.avsFault
  repeat' (first
    | with_reducible assumption
    | with_reducible apply State.setTrb_keeps
    | with_reducible apply State.logEvent_keeps
    | with_reducible apply Keeps.ite
    | with_reducible refine KeepsFields.of ?_ rfl rfl rfl
    | simp only [Keeps.mk_eq])

theorem State.avsRead_keeps {s0 : State} (s : State) (mv : BitVec 10) (hs : Keeps s0 s) :
    Keeps s0 (State.avsRead s mv) := by
  unfold State.avsRead
  repeat' (first
    | with_reducible assumption
    | with_reducible refine KeepsFields.of ?_ rfl rfl rfl
    | simp only [Keeps.mk_eq])

theorem State.avsWrite_keeps {s0 : State} (s : State) (v : Nat) (hs : Keeps s0 s) :
    Keeps s0 (State.avsWrite s v) := by
  unfold State.avsWrite
  repeat' (first
    | with_reducible assumption
    | with_reducible apply State.emit_keeps
    | with_reducible apply Keeps.ite
    | with_reducible refine KeepsFields.of ?_ rfl rfl rfl
    | simp only [Keeps.mk_eq])

theorem State.avsReview_keeps {s0 : State} (s : State) (hs : Keeps s0 s) :
    Keeps s0 (State.avsReview s) := by
  unfold State.avsReview
  repeat' (first
    | with_reducible assumption
    | with_reducible apply State.avsWrite_keeps
    | with_reducible apply State.tick_keeps
    | with_reducible apply Keeps.ite
    | with_reducible refine KeepsFields.of ?_ rfl rfl rfl
    | simp only [Keeps.mk_eq])

theorem State.badDoorbell_keeps {s0 : State} (s : State) (f r : Nat) (bad : Bool) (hs : Keeps s0 s) :
    Keeps s0 (State.badDoorbell s f r bad) := by
  unfold State.badDoorbell
  repeat' (first
    | with_reducible assumption
    | with_reducible apply State.setFnTrb_keeps
    | with_reducible apply State.updRing_keeps)

theorem State.barRow_keeps {s0 : State} (s : State) (f : Nat) (g : State → State) (hs : Keeps s0 s)
    (hg : ∀ v0, Keeps s0 v0 → Keeps s0 (g v0)) :
    Keeps s0 (State.barRow s f g) := by
  unfold State.barRow
  repeat' (first
    | with_reducible assumption
    | with_reducible apply State.logUr_keeps
    | with_reducible apply Keeps.ite
    | apply_assumption)

theorem State.newGeneration_keeps {s0 : State} (s : State) (f : Nat) (hs : Keeps s0 s) :
    Keeps s0 (State.newGeneration s f) := by
  unfold State.newGeneration
  repeat' (first
    | with_reducible assumption
    | with_reducible apply State.stat_keeps
    | with_reducible apply State.updFn_keeps
    | with_reducible apply State.emptyCache_keeps
    | with_reducible apply Keeps.ite
    | with_reducible refine KeepsFields.of ?_ rfl rfl rfl
    | simp only [Keeps.mk_eq])

theorem State.sqTailWrite_keeps {s0 : State} (s : State) (f r : Nat) (v : Word) (hs : Keeps s0 s) :
    Keeps s0 (State.sqTailWrite s f r v) := by
  unfold State.sqTailWrite
  repeat' (first
    | with_reducible assumption
    | with_reducible apply State.newGeneration_keeps
    | with_reducible apply State.badDoorbell_keeps
    | with_reducible apply State.updRing_keeps
    | with_reducible apply State.wake_keeps
    | with_reducible apply Keeps.ite)

theorem State.cqHeadWrite_keeps {s0 : State} (s : State) (f r : Nat) (v : Word) (hs : Keeps s0 s) :
    Keeps s0 (State.cqHeadWrite s f r v) := by
  unfold State.cqHeadWrite
  repeat' (first
    | with_reducible assumption
    | with_reducible apply State.newGeneration_keeps
    | with_reducible apply State.badDoorbell_keeps
    | with_reducible apply State.updRing_keeps
    | with_reducible apply Keeps.ite)

theorem State.ringEnable_keeps {s0 : State} (s : State) (f r : Nat) (hs : Keeps s0 s) :
    Keeps s0 (State.ringEnable s f r) := by
  unfold State.ringEnable
  repeat' (first
    | with_reducible assumption
    | with_reducible apply State.retarget_keeps
    | with_reducible apply State.updRing_keeps
    | with_reducible apply Keeps.ite)

theorem State.dropFetches_keeps {s0 : State} (s : State) (f r : Nat) (hs : Keeps s0 s) :
    Keeps s0 (State.dropFetches s f r) := by
  unfold State.dropFetches
  repeat' (first
    | with_reducible assumption
    | with_reducible apply State.updRing_keeps
    | with_reducible refine KeepsFields.of ?_ rfl rfl rfl
    | simp only [Keeps.mk_eq])

theorem State.ringDisable_keeps {s0 : State} (s : State) (f r : Nat) (hs : Keeps s0 s) :
    Keeps s0 (State.ringDisable s f r) := by
  unfold State.ringDisable
  repeat' (first
    | with_reducible assumption
    | with_reducible apply State.retarget_keeps
    | with_reducible apply State.updRing_keeps
    | with_reducible apply State.dropFetches_keeps
    | with_reducible apply Keeps.ite)

theorem State.tearRun_keeps {s0 : State} (s : State) (x : Run) (hs : Keeps s0 s) :
    Keeps s0 (State.tearRun s x) := by
  unfold State.tearRun
  repeat' (first
    | with_reducible assumption
    | with_reducible apply State.tick_keeps
    | with_reducible apply State.lpWrite_keeps
    | simp only [Keeps.mk_eq]
    | split)

theorem State.tearRuns_keeps {s0 : State} (s : State) (mine : Run → Bool) (hs : Keeps s0 s) :
    Keeps s0 (State.tearRuns s mine) := by
  unfold State.tearRuns
  refine Keeps.foldl hs fun y b hy => ?_
  exact Keeps.ite (State.tearRun_keeps y b.2 hy) hy

theorem State.thermWarn_keeps {s0 : State} (s : State) (hs : Keeps s0 s) :
    Keeps s0 (State.thermWarn s) := by
  unfold State.thermWarn
  repeat' (first
    | with_reducible assumption
    | with_reducible apply State.raiseDevEvt_keeps
    | with_reducible apply Keeps.ite
    | with_reducible refine KeepsFields.of ?_ rfl rfl rfl
    | simp only [Keeps.mk_eq])

theorem State.droopEntry_keeps {s0 : State} (s : State) (q l0 source : Nat) (hs : Keeps s0 s) :
    Keeps s0 (State.droopEntry s q l0 source) := by
  unfold State.droopEntry
  repeat' (first
    | with_reducible assumption
    | with_reducible apply State.logEvent_keeps
    | with_reducible apply Keeps.ite
    | with_reducible refine KeepsFields.of ?_ rfl rfl rfl
    | simp only [Keeps.mk_eq])

theorem State.noteFired_keeps {s0 : State} (s old : State) (hs : Keeps s0 s) (hold : Keeps s0 old) :
    Keeps s0 (State.noteFired s old) := by
  unfold State.noteFired
  repeat' (first
    | with_reducible assumption
    | with_reducible refine KeepsFields.of ?_ rfl rfl rfl
    | simp only [Keeps.mk_eq])

theorem State.paceRestart_keeps {s0 : State} (s : State) (hs : Keeps s0 s) :
    Keeps s0 (State.paceRestart s) := by
  unfold State.paceRestart
  repeat' (first
    | with_reducible assumption
    | with_reducible refine KeepsFields.of ?_ rfl rfl rfl
    | simp only [Keeps.mk_eq])

theorem State.paceReenter_keeps {s0 : State} (s old : State) (hs : Keeps s0 s) (hold : Keeps s0 old) :
    Keeps s0 (State.paceReenter s old) := by
  unfold State.paceReenter
  repeat' (first
    | with_reducible assumption
    | with_reducible apply State.droopEntry_keeps
    | with_reducible apply State.noteFired_keeps
    | with_reducible apply State.paceRestart_keeps
    | with_reducible apply Keeps.foldl
    | intro _)

theorem State.setGov_keeps {s0 : State} (s : State) (q : Nat) (g : Governor) (why : Nat) (hs : Keeps s0 s) :
    Keeps s0 (State.setGov s q g why) := by
  unfold State.setGov
  repeat' (first
    | with_reducible assumption
    | with_reducible apply State.traceEmit_keeps
    | with_reducible apply Keeps.ite
    | with_reducible refine KeepsFields.of ?_ rfl rfl rfl
    | simp only [Keeps.mk_eq])

theorem State.govern_keeps {s0 : State} (s : State) (q d0 why : Nat) (hs : Keeps s0 s) :
    Keeps s0 (State.govern s q d0 why) := by
  unfold State.govern
  repeat' (first
    | with_reducible assumption
    | with_reducible apply State.setGov_keeps
    | with_reducible apply Keeps.ite)

theorem State.paceQuad_keeps {s0 : State} (s old : State) (q source why : Nat) (hs : Keeps s0 s)
    (hold : Keeps s0 old) :
    Keeps s0 (State.paceQuad s old q source why) := by
  unfold State.paceQuad
  repeat' (first
    | with_reducible assumption
    | with_reducible apply State.droopEntry_keeps
    | with_reducible apply State.govern_keeps)

theorem State.paceControl_keeps {s0 : State} (s old : State) (why : Nat) (hs : Keeps s0 s) (hold : Keeps s0 old) :
    Keeps s0 (State.paceControl s old why) := by
  unfold State.paceControl
  repeat' (first
    | with_reducible assumption
    | with_reducible apply State.noteFired_keeps
    | with_reducible apply State.paceQuad_keeps
    | with_reducible apply Keeps.foldl
    | intro _)

theorem State.programMark_keeps {s0 : State} (s : State) (slot kind : Nat) (hs : Keeps s0 s) :
    Keeps s0 (State.programMark s slot kind) := by
  unfold State.programMark
  repeat' (first
    | with_reducible assumption
    | with_reducible apply State.charge_keeps
    | with_reducible apply Keeps.ite
    | with_reducible refine KeepsFields.of ?_ rfl rfl rfl
    | simp only [Keeps.mk_eq])

theorem State.markLater_keeps {s0 : State} (s : State) (slot kind : Nat) (hs : Keeps s0 s) :
    Keeps s0 (State.markLater s slot kind) := by
  unfold State.markLater
  repeat' (first
    | with_reducible assumption
    | with_reducible refine KeepsFields.of ?_ rfl rfl rfl
    | simp only [Keeps.mk_eq])

theorem State.dropSlots_keeps {s0 : State} (s : State) (f : Nat) (hs : Keeps s0 s) :
    Keeps s0 (State.dropSlots s f) := by
  unfold State.dropSlots
  repeat' (first
    | with_reducible assumption
    | with_reducible refine KeepsFields.of ?_ rfl rfl rfl
    | simp only [Keeps.mk_eq])

theorem State.freeBindings_keeps {s0 : State} (s : State) (f : Nat) (hs : Keeps s0 s) :
    Keeps s0 (State.freeBindings s f) := by
  unfold State.freeBindings
  repeat' (first
    | with_reducible assumption
    | with_reducible apply State.freeBinding_keeps
    | with_reducible apply Keeps.foldl)

theorem State.dropWork_keeps {s0 : State} (s : State) (f : Nat) (hs : Keeps s0 s) :
    Keeps s0 (State.dropWork s f) := by
  unfold State.dropWork
  repeat' (first
    | with_reducible assumption
    | with_reducible refine KeepsFields.of ?_ rfl rfl rfl
    | simp only [Keeps.mk_eq])

theorem State.endFunction_keeps {s0 : State} (s : State) (f : Nat) (hs : Keeps s0 s) :
    Keeps s0 (State.endFunction s f) := by
  unfold State.endFunction
  repeat' (first
    | with_reducible assumption
    | with_reducible apply State.dropSlots_keeps
    | with_reducible apply State.freeBindings_keeps
    | with_reducible apply State.dropWork_keeps
    | with_reducible apply State.tearRuns_keeps
    | with_reducible apply State.emptyWays_keeps
    | with_reducible refine KeepsFields.of ?_ rfl rfl rfl
    | simp only [Keeps.mk_eq])

theorem State.fwMark_keeps {s0 : State} (s : State) (slot kind : Nat) (hs : Keeps s0 s) :
    Keeps s0 (State.fwMark s slot kind) := by
  unfold State.fwMark
  repeat' (first
    | with_reducible assumption
    | with_reducible apply State.queueOp_keeps
    | with_reducible apply State.markLater_keeps
    | with_reducible apply Keeps.ite)

theorem State.cacheWay_keeps {s0 : State} (s : State) (f : Nat) (host : Bool) (line : Nat) (ways : List Nat)
    (hs : Keeps s0 s) :
    Keeps s0 (State.cacheWay s f host line ways).1 := by
  unfold State.cacheWay
  repeat' (first
    | with_reducible assumption
    | with_reducible apply State.tick_keeps
    | split)

theorem State.cacheLine_keeps {s0 : State} (s : State) (keep : Nat → Nat × Line → Bool) (f : Nat) (host : Bool)
    (a : Nat) (d : Bytes) (poison : Bool) (hs : Keeps s0 s) :
    Keeps s0 (State.cacheLine s keep f host a d poison) := by
  unfold State.cacheLine
  repeat' (first
    | with_reducible assumption
    | with_reducible apply State.cacheWay_keeps
    | with_reducible apply State.evict_keeps
    | with_reducible apply Keeps.ite
    | with_reducible refine KeepsFields.of ?_ rfl rfl rfl
    | simp only [Keeps.mk_eq])

theorem State.cachePut_keeps {s0 : State} (s : State) (keep : Nat → Nat × Line → Bool) (f : Nat) (host : Bool)
    (a : Nat) (d : Bytes) (poison : Bool) (hs : Keeps s0 s) :
    Keeps s0 (State.cachePut s keep f host a d poison) := by
  unfold State.cachePut
  repeat' (first
    | with_reducible assumption
    | with_reducible apply State.cacheLine_keeps
    | with_reducible apply Keeps.foldl
    | intro _)

theorem State.issueRead_keeps {s0 : State} (s : State) (f tag addr len : Nat) (ns : Bool) (use : ReadUse)
    (hs : Keeps s0 s) :
    Keeps s0 (State.issueRead s f tag addr len ns use) := by
  unfold State.issueRead
  repeat' (first
    | with_reducible assumption
    | with_reducible apply State.busSend_keeps
    | with_reducible refine KeepsFields.of ?_ rfl rfl rfl
    | simp only [Keeps.mk_eq])

theorem State.sendLine_keeps {s0 : State} (s : State) (dst chan : Nat) (d : Bytes) (poison : Bool)
    (hs : Keeps s0 s) :
    Keeps s0 (State.sendLine s dst chan d poison) := by
  unfold State.sendLine
  repeat' (first
    | with_reducible assumption
    | with_reducible apply State.sendTo_keeps)

theorem State.noteMissed_keeps {s0 : State} (s : State) (c : Cmd) (m : MissInfo) (b : Bool) (hs : Keeps s0 s) :
    Keeps s0 (State.noteMissed s c m b) := by
  unfold State.noteMissed
  repeat' (first
    | with_reducible assumption
    | with_reducible apply State.updSlot_keeps
    | with_reducible apply State.updRing_keeps
    | with_reducible apply Keeps.ite
    | split)

theorem State.reportMiss_keeps {s0 : State} (s : State) (c : Cmd) (m : MissInfo)
    (cause halt pace input contention : Nat) (hs : Keeps s0 s) :
    Keeps s0 (State.reportMiss s c m cause halt pace input contention) := by
  unfold State.reportMiss
  repeat' (first
    | with_reducible assumption
    | with_reducible apply State.stat_keeps
    | with_reducible apply State.setFnTrb_keeps
    | with_reducible apply State.logEvent_keeps
    | with_reducible apply State.noteMissed_keeps
    | with_reducible apply Keeps.ite)

theorem State.judge_keeps {s0 : State} (s : State) (c : Cmd) (hs : Keeps s0 s) :
    Keeps s0 (State.judge s c).1 := by
  unfold State.judge
  repeat' (first
    | with_reducible assumption
    | with_reducible apply State.noteMissed_keeps
    | with_reducible apply State.reportMiss_keeps
    | simp only [Keeps.mk_eq]
    | split)

theorem State.ringError_keeps {s0 : State} (s : State) (f r : Nat) (code : BitVec 4) (hs : Keeps s0 s) :
    Keeps s0 (State.ringError s f r code) := by
  unfold State.ringError
  repeat' (first
    | with_reducible assumption
    | with_reducible apply State.retarget_keeps
    | with_reducible apply State.setFnTrb_keeps
    | with_reducible apply State.updRing_keeps
    | with_reducible apply State.dropFetches_keeps)

theorem State.countCqe_keeps {s0 : State} (s : State) (f : Nat) (status : BitVec 16) (hs : Keeps s0 s) :
    Keeps s0 (State.countCqe s f status) := by
  unfold State.countCqe
  repeat' (first
    | with_reducible assumption
    | with_reducible apply State.perfAdd_keeps
    | with_reducible apply State.stat_keeps
    | simp only [Keeps.mk_eq]
    | split)

theorem State.writeCqe_keeps {s0 : State} (s : State) (f r : Nat) (e : Entry) (seq : Word) (ticket : Nat)
    (status : BitVec 16) (r0 r1 : Word) (hs : Keeps s0 s) :
    Keeps s0 (State.writeCqe s f r e seq ticket status r0 r1) := by
  unfold State.writeCqe
  repeat' (first
    | with_reducible assumption
    | with_reducible apply State.ringError_keeps
    | with_reducible apply State.updRing_keeps
    | with_reducible apply State.busSend_keeps
    | with_reducible apply State.traceEmit_keeps
    | with_reducible apply State.countCqe_keeps
    | with_reducible apply State.announce_keeps
    | with_reducible apply Keeps.ite
    | simp only [Keeps.mk_eq]
    | split)

theorem State.completionWrite_keeps {s0 : State} (s : State) (t : Nat) (hs : Keeps s0 s) :
    Keeps s0 (State.completionWrite s t) := by
  unfold State.completionWrite
  repeat' (first
    | with_reducible assumption
    | with_reducible apply State.judge_keeps
    | with_reducible apply State.writeCqe_keeps
    | with_reducible apply State.retarget_keeps
    | with_reducible apply State.afterFrame_keeps
    | with_reducible apply State.updRing_keeps
    | with_reducible apply Keeps.ite
    | with_reducible refine KeepsFields.of ?_ rfl rfl rfl
    | simp only [Keeps.mk_eq]
    | split)

theorem State.paceAll_keeps {s0 : State} (s old : State) (source why : Nat) (hs : Keeps s0 s)
    (hold : Keeps s0 old) :
    Keeps s0 (State.paceAll s old source why) := by
  unfold State.paceAll
  repeat' (first
    | with_reducible assumption
    | with_reducible apply State.paceQuad_keeps)

theorem State.droopFall_keeps {s0 : State} (s : State) (hs : Keeps s0 s) :
    Keeps s0 (State.droopFall s) := by
  unfold State.droopFall
  repeat' (first
    | with_reducible assumption
    | with_reducible apply State.paceAll_keeps
    | with_reducible refine KeepsFields.of ?_ rfl rfl rfl
    | simp only [Keeps.mk_eq])

theorem State.droopRise_keeps {s0 : State} (s : State) (hs : Keeps s0 s) :
    Keeps s0 (State.droopRise s) := by
  unfold State.droopRise
  repeat' (first
    | with_reducible assumption
    | with_reducible apply State.paceAll_keeps
    | with_reducible refine KeepsFields.of ?_ rfl rfl rfl
    | simp only [Keeps.mk_eq])

theorem State.updPeer_keeps {s0 : State} (s : State) (c : Nat) (g : Peer → Peer) (hs : Keeps s0 s) :
    Keeps s0 (State.updPeer s c g) := by
  unfold State.updPeer
  repeat' (first
    | with_reducible assumption
    | with_reducible refine KeepsFields.of ?_ rfl rfl rfl
    | simp only [Keeps.mk_eq])

theorem State.portCut_keeps {s0 : State} (s : State) (i : Nat) (hs : Keeps s0 s) :
    Keeps s0 (State.portCut s i) := by
  unfold State.portCut
  repeat' (first
    | with_reducible assumption
    | with_reducible apply State.sendTo_keeps
    | with_reducible apply State.updPort_keeps
    | with_reducible apply Keeps.foldl
    | intro _)

theorem State.portOff_keeps {s0 : State} (s : State) (i reason : Nat) (hs : Keeps s0 s) :
    Keeps s0 (State.portOff s i reason) := by
  unfold State.portOff
  repeat' (first
    | with_reducible assumption
    | with_reducible apply State.traceEmit_keeps
    | with_reducible apply State.logEvent_keeps
    | with_reducible apply State.portCut_keeps
    | with_reducible apply Keeps.ite)

theorem State.rampStep_keeps {s0 : State} (s : State) (q : Nat) (hs : Keeps s0 s) :
    Keeps s0 (State.rampStep s q) := by
  unfold State.rampStep
  repeat' (first
    | with_reducible assumption
    | with_reducible apply State.setGov_keeps)

theorem State.sqArrive_keeps {s0 : State} (s : State) (f r : Nat) (good : Bool) (data : Bytes) (hs : Keeps s0 s) :
    Keeps s0 (State.sqArrive s f r good data) := by
  unfold State.sqArrive
  repeat' (first
    | with_reducible assumption
    | with_reducible apply State.updRing_keeps
    | with_reducible apply State.ringError_keeps
    | with_reducible apply Keeps.ite)

theorem State.thermTrip_keeps {s0 : State} (s : State) (hs : Keeps s0 s) :
    Keeps s0 (State.thermTrip s) := by
  unfold State.thermTrip
  repeat' (first
    | with_reducible assumption
    | with_reducible apply State.logEvent_keeps
    | with_reducible apply Keeps.ite
    | with_reducible refine KeepsFields.of ?_ rfl rfl rfl
    | simp only [Keeps.mk_eq])

theorem State.windowQuad_keeps {s0 : State} (s : State) (q : Nat) (m : QuadMeasure) (hs : Keeps s0 s) :
    Keeps s0 (State.windowQuad s q m) := by
  unfold State.windowQuad
  repeat' (first
    | with_reducible assumption
    | with_reducible apply State.perfAdd_keeps
    | with_reducible refine KeepsFields.of ?_ rfl rfl rfl
    | simp only [Keeps.mk_eq])

theorem execAvsSettle_keeps {s0 : State} (readMv : Option (BitVec 10)) (s : State) (hs : Keeps s0 s) :
    OutcomeKeeps s0 (execAvsSettle readMv s) := by
  unfold execAvsSettle
  repeat' (first
    | with_reducible assumption
    | with_reducible apply State.avsRead_keeps
    | with_reducible apply OutcomeKeeps.next
    | with_reducible refine KeepsFields.of ?_ rfl rfl rfl
    | simp only [Keeps.mk_eq]
    | split)

theorem execBeatRateWindow_keeps {s0 : State} (q0 q1 q2 q3 : QuadMeasure) (wdoKhz : BitVec 12) (avs : AvsAnswer)
    (s : State) (hs : Keeps s0 s) :
    OutcomeKeeps s0 (execBeatRateWindow q0 q1 q2 q3 wdoKhz avs s) := by
  unfold execBeatRateWindow
  repeat' (first
    | with_reducible assumption
    | with_reducible apply State.windowQuad_keeps
    | with_reducible apply State.emit_keeps
    | with_reducible apply State.avsFault_keeps
    | with_reducible apply State.avsReview_keeps
    | with_reducible apply State.avsRead_keeps
    | with_reducible apply OutcomeKeeps.next
    | with_reducible apply OutcomeKeeps.ite
    | with_reducible refine KeepsFields.of ?_ rfl rfl rfl
    | simp only [Keeps.mk_eq]
    | split)

theorem execCompletionWrite_keeps {s0 : State} (t : Ticket) (s : State) (hs : Keeps s0 s) :
    OutcomeKeeps s0 (execCompletionWrite t s) := by
  unfold execCompletionWrite
  repeat' (first
    | with_reducible assumption
    | with_reducible apply State.completionWrite_keeps
    | with_reducible apply OutcomeKeeps.next)

theorem execCqHead_keeps {s0 : State} (fn : FnId) (ring : RingId) (value : Word) (s : State) (hs : Keeps s0 s) :
    OutcomeKeeps s0 (execCqHead fn ring value s) := by
  unfold execCqHead
  repeat' (first
    | with_reducible assumption
    | with_reducible apply State.barRow_keeps
    | with_reducible apply State.cqHeadWrite_keeps
    | with_reducible apply OutcomeKeeps.next
    | intro _)

theorem execDroopInFall_keeps {s0 : State} (short : Bool) (s : State) (hs : Keeps s0 s) :
    OutcomeKeeps s0 (execDroopInFall short s) := by
  unfold execDroopInFall
  repeat' (first
    | with_reducible assumption
    | with_reducible apply State.droopRise_keeps
    | with_reducible apply State.droopFall_keeps
    | with_reducible apply State.tick_keeps
    | with_reducible apply OutcomeKeeps.next
    | with_reducible apply OutcomeKeeps.ite)

theorem execDroopInRise_keeps {s0 : State} (s : State) (hs : Keeps s0 s) :
    OutcomeKeeps s0 (execDroopInRise s) := by
  unfold execDroopInRise
  repeat' (first
    | with_reducible assumption
    | with_reducible apply State.droopRise_keeps
    | with_reducible apply OutcomeKeeps.next)

theorem execDroopSensorRelease_keeps {s0 : State} (sensor : Fin 8) (toLevel1 : Bool) (s : State) (hs : Keeps s0 s) :
    OutcomeKeeps s0 (execDroopSensorRelease sensor toLevel1 s) := by
  unfold execDroopSensorRelease
  repeat' (first
    | with_reducible assumption
    | with_reducible apply State.paceQuad_keeps
    | with_reducible apply OutcomeKeeps.next
    | with_reducible refine KeepsFields.of ?_ rfl rfl rfl
    | simp only [Keeps.mk_eq])

theorem execDroopSensorTrip_keeps {s0 : State} (sensor : Fin 8) (level2 : Bool) (s : State) (hs : Keeps s0 s) :
    OutcomeKeeps s0 (execDroopSensorTrip sensor level2 s) := by
  unfold execDroopSensorTrip
  repeat' (first
    | with_reducible assumption
    | with_reducible apply State.paceQuad_keeps
    | with_reducible apply OutcomeKeeps.next
    | with_reducible refine KeepsFields.of ?_ rfl rfl rfl
    | simp only [Keeps.mk_eq])

theorem execEntryAccept_keeps {s0 : State} (fn : FnId) (ring : RingId) (s : State) (hs : Keeps s0 s) :
    OutcomeKeeps s0 (execEntryAccept fn ring s) := by
  unfold execEntryAccept
  repeat' (first
    | with_reducible assumption
    | with_reducible apply State.updRing_keeps
    | with_reducible apply State.traceEmit_keeps
    | with_reducible apply State.perfAdd_keeps
    | with_reducible apply State.stat_keeps
    | with_reducible apply State.accept_keeps
    | with_reducible apply State.writeCqe_keeps
    | with_reducible apply State.ltrUpdate_keeps
    | with_reducible apply OutcomeKeeps.next
    | with_reducible apply OutcomeKeeps.ite
    | with_reducible refine KeepsFields.of ?_ rfl rfl rfl
    | simp only [Keeps.mk_eq]
    | split)

theorem execFenceRelease_keeps {s0 : State} (fn : FnId) (ring : RingId) (s : State) (hs : Keeps s0 s) :
    OutcomeKeeps s0 (execFenceRelease fn ring s) := by
  unfold execFenceRelease
  repeat' (first
    | with_reducible assumption
    | with_reducible apply OutcomeKeeps.next
    | with_reducible apply OutcomeKeeps.ite
    | with_reducible refine KeepsFields.of ?_ rfl rfl rfl
    | simp only [Keeps.mk_eq])

theorem execModerationTimeout_keeps {s0 : State} (fn : FnId) (ring : RingId) (s : State) (hs : Keeps s0 s) :
    OutcomeKeeps s0 (execModerationTimeout fn ring s) := by
  unfold execModerationTimeout
  repeat' (first
    | with_reducible assumption
    | with_reducible apply State.announce_keeps
    | with_reducible apply OutcomeKeeps.next
    | with_reducible apply OutcomeKeeps.ite)

theorem execPaceHoldEnd_keeps {s0 : State} (quad : Fin 4) (s : State) (hs : Keeps s0 s) :
    OutcomeKeeps s0 (execPaceHoldEnd quad s) := by
  unfold execPaceHoldEnd
  repeat' (first
    | with_reducible assumption
    | with_reducible apply State.rampStep_keeps
    | with_reducible apply OutcomeKeeps.next
    | with_reducible apply OutcomeKeeps.ite)

theorem execPaceRampStep_keeps {s0 : State} (quad : Fin 4) (s : State) (hs : Keeps s0 s) :
    OutcomeKeeps s0 (execPaceRampStep quad s) := by
  unfold execPaceRampStep
  repeat' (first
    | with_reducible assumption
    | with_reducible apply State.rampStep_keeps
    | with_reducible apply OutcomeKeeps.next
    | with_reducible apply OutcomeKeeps.ite)

theorem execRingDisable_keeps {s0 : State} (fn : FnId) (ring : RingId) (s : State) (hs : Keeps s0 s) :
    OutcomeKeeps s0 (execRingDisable fn ring s) := by
  unfold execRingDisable
  repeat' (first
    | with_reducible assumption
    | with_reducible apply State.barRow_keeps
    | with_reducible apply State.ringDisable_keeps
    | with_reducible apply OutcomeKeeps.next
    | intro _)

theorem execRingEnable_keeps {s0 : State} (fn : FnId) (ring : RingId) (s : State) (hs : Keeps s0 s) :
    OutcomeKeeps s0 (execRingEnable fn ring s) := by
  unfold execRingEnable
  repeat' (first
    | with_reducible assumption
    | with_reducible apply State.barRow_keeps
    | with_reducible apply State.ringEnable_keeps
    | with_reducible apply OutcomeKeeps.next
    | intro _)

theorem execSqFetch_keeps {s0 : State} (fn : FnId) (ring : RingId) (s : State) (hs : Keeps s0 s) :
    OutcomeKeeps s0 (execSqFetch fn ring s) := by
  unfold execSqFetch
  repeat' (first
    | with_reducible assumption
    | with_reducible apply State.ringError_keeps
    | with_reducible apply State.updRing_keeps
    | with_reducible apply State.perfAdd_keeps
    | with_reducible apply State.issueRead_keeps
    | with_reducible apply OutcomeKeeps.next
    | with_reducible apply OutcomeKeeps.ite
    | simp only [Keeps.mk_eq]
    | split)

theorem execSqTail_keeps {s0 : State} (fn : FnId) (ring : RingId) (value : Word) (s : State) (hs : Keeps s0 s) :
    OutcomeKeeps s0 (execSqTail fn ring value s) := by
  unfold execSqTail
  repeat' (first
    | with_reducible assumption
    | with_reducible apply State.barRow_keeps
    | with_reducible apply State.sqTailWrite_keeps
    | with_reducible apply OutcomeKeeps.next
    | intro _)

theorem execThermReading_keeps {s0 : State} (tj : BitVec 11) (s : State) (hs : Keeps s0 s) :
    OutcomeKeeps s0 (execThermReading tj s) := by
  unfold execThermReading
  repeat' (first
    | with_reducible assumption
    | with_reducible apply State.traceEmit_keeps
    | with_reducible apply State.thermWarn_keeps
    | with_reducible apply State.paceAll_keeps
    | with_reducible apply State.thermTrip_keeps
    | with_reducible apply OutcomeKeeps.next
    | with_reducible apply OutcomeKeeps.ite
    | with_reducible apply Keeps.ite
    | with_reducible refine KeepsFields.of ?_ rfl rfl rfl
    | simp only [Keeps.mk_eq])

end Sys2Proof.Machine
end

