-- ==== Sys2Proof/Laws/KeepsC.lean ====
section
/-!
SUPPORT. `Keeps` of every operation of Machine/Reset, Life, Wdog, Windows, Diag, RegWrite.lean.
-/

namespace Sys2Proof.Machine

theorem State.barUr_keeps {s0 : State} (s : State) (f : Nat) (hs : Keeps s0 s) :
    Keeps s0 (State.barUr s f) := by
  unfold State.barUr
  repeat' (first
    | with_reducible assumption
    | with_reducible apply State.emit_keeps
    | with_reducible apply State.logUr_keeps)

theorem State.bar4Read_keeps {s0 : State} (s : State) (f o : Nat) (is64 : Bool) (hs : Keeps s0 s) :
    Keeps s0 (State.bar4Read s f o is64) := by
  unfold State.bar4Read
  repeat' (first
    | with_reducible assumption
    | with_reducible apply State.barUr_keeps
    | with_reducible apply State.emit_keeps
    | with_reducible apply Keeps.ite)

theorem State.flushPba_keeps {s0 : State} (s : State) (f vec : Nat) (hs : Keeps s0 s) :
    Keeps s0 (State.flushPba s f vec) := by
  unfold State.flushPba
  repeat' (first
    | with_reducible assumption
    | with_reducible apply State.sendMsi_keeps
    | with_reducible apply State.updFn_keeps
    | with_reducible apply Keeps.ite)

theorem State.writeMsix_keeps {s0 : State} (s : State) (f o : Nat) (v : Word) (hs : Keeps s0 s) :
    Keeps s0 (State.writeMsix s f o v) := by
  unfold State.writeMsix
  repeat' (first
    | with_reducible assumption
    | with_reducible apply State.updFn_keeps
    | with_reducible apply State.flushPba_keeps
    | with_reducible apply Keeps.ite)

theorem State.bar4Write_keeps {s0 : State} (s : State) (f o : Nat) (is64 : Bool) (v : BitVec 64) (hs : Keeps s0 s) :
    Keeps s0 (State.bar4Write s f o is64 v) := by
  unfold State.bar4Write
  repeat' (first
    | with_reducible assumption
    | with_reducible apply State.writeMsix_keeps
    | with_reducible apply Keeps.ite)

theorem State.readClear_keeps {s0 : State} (s : State) (o : Nat) (hs : Keeps s0 s) :
    Keeps s0 (State.readClear s o) := by
  unfold State.readClear
  refine Keeps.ite (hs.upd rfl rfl rfl rfl rfl rfl) ?_
  refine Keeps.ite (hs.upd rfl rfl rfl rfl rfl rfl) ?_
  refine Keeps.ite (hs.upd rfl rfl rfl rfl rfl rfl) ?_
  refine Keeps.ite (hs.upd rfl rfl rfl rfl rfl rfl) ?_
  refine Keeps.ite (hs.upd rfl rfl rfl rfl rfl rfl) ?_
  refine Keeps.ite (hs.upd rfl rfl rfl rfl rfl rfl) ?_
  refine Keeps.ite (hs.upd rfl rfl rfl rfl rfl rfl) ?_
  refine Keeps.ite (hs.upd rfl rfl rfl rfl rfl rfl) ?_
  refine Keeps.ite (hs.upd rfl rfl rfl rfl rfl rfl) ?_
  refine Keeps.ite (hs.upd rfl rfl rfl rfl rfl rfl) ?_
  refine Keeps.ite (hs.upd rfl rfl rfl rfl rfl rfl) ?_
  refine Keeps.ite (hs.upd rfl rfl rfl rfl rfl rfl) ?_
  refine Keeps.ite (State.updSlot_keeps s _ _ hs) ?_
  exact Keeps.ite (hs.upd rfl rfl rfl rfl rfl rfl) hs

theorem State.readEffect_keeps {s0 : State} (s : State) (f o : Nat) (hs : Keeps s0 s) :
    Keeps s0 (State.readEffect s f o) := by
  unfold State.readEffect
  split
  · exact State.readClear_keeps s _ hs
  · exact hs

theorem State.barRead64_keeps {s0 : State} (s : State) (f o : Nat) (hs : Keeps s0 s) :
    Keeps s0 (State.barRead64 s f o) := by
  unfold State.barRead64
  repeat' (first
    | with_reducible assumption
    | with_reducible apply State.emit_keeps
    | with_reducible apply State.readEffect_keeps
    | with_reducible apply State.updFn_keeps)

theorem State.latchAfter_keeps {s0 : State} (s : State) (f o : Nat) (hs : Keeps s0 s) :
    Keeps s0 (State.latchAfter s f o) := by
  unfold State.latchAfter
  repeat' (first
    | with_reducible assumption
    | with_reducible apply State.updFn_keeps
    | with_reducible apply Keeps.ite)

theorem State.barRead32_keeps {s0 : State} (s : State) (f o : Nat) (hs : Keeps s0 s) :
    Keeps s0 (State.barRead32 s f o) := by
  unfold State.barRead32
  repeat' (first
    | with_reducible assumption
    | with_reducible apply State.emit_keeps
    | with_reducible apply State.readEffect_keeps
    | with_reducible apply State.latchAfter_keeps)

theorem State.barRead_keeps {s0 : State} (s : State) (f o : Nat) (is64 : Bool) (hs : Keeps s0 s) :
    Keeps s0 (State.barRead s f o is64) := by
  unfold State.barRead
  repeat' (first
    | with_reducible assumption
    | with_reducible apply State.barUr_keeps
    | with_reducible apply State.barRead64_keeps
    | with_reducible apply State.barRead32_keeps
    | with_reducible apply Keeps.ite)

theorem State.statsClear_keeps {s0 : State} (s : State) (f : Nat) (hs : Keeps s0 s) :
    Keeps s0 (State.statsClear s f) := by
  unfold State.statsClear
  repeat' (first
    | with_reducible assumption
    | with_reducible apply State.updFn_keeps)

theorem State.writeFnCtl_keeps {s0 : State} (s : State) (f o : Nat) (v : Word) (hs : Keeps s0 s) :
    Keeps s0 (State.writeFnCtl s f o v) := by
  unfold State.writeFnCtl
  repeat' (first
    | with_reducible assumption
    | with_reducible apply State.updFn_keeps
    | with_reducible apply State.statsClear_keeps
    | with_reducible apply State.clearFnTrb_keeps
    | with_reducible apply Keeps.ite)

theorem State.hwinCtlWrite_keeps {s0 : State} (s : State) (f i : Nat) (v : Word) (hs : Keeps s0 s) :
    Keeps s0 (State.hwinCtlWrite s f i v) := by
  unfold State.hwinCtlWrite
  repeat' (first
    | with_reducible assumption
    | with_reducible apply State.updFn_keeps
    | with_reducible apply Keeps.ite)

theorem State.writeHwin_keeps {s0 : State} (s : State) (f i o : Nat) (v : Word) (hs : Keeps s0 s) :
    Keeps s0 (State.writeHwin s f i o v) := by
  unfold State.writeHwin
  repeat' (first
    | with_reducible assumption
    | with_reducible apply State.updFn_keeps
    | with_reducible apply State.hwinCtlWrite_keeps
    | with_reducible apply Keeps.ite)

theorem State.writeRing_keeps {s0 : State} (s : State) (f r o : Nat) (v : Word) (hs : Keeps s0 s) :
    Keeps s0 (State.writeRing s f r o v) := by
  unfold State.writeRing
  repeat' (first
    | with_reducible assumption
    | with_reducible apply State.ringEnable_keeps
    | with_reducible apply State.ringDisable_keeps
    | with_reducible apply State.updRing_keeps
    | with_reducible apply Keeps.ite)

theorem State.writeFn_keeps {s0 : State} (s : State) (f o : Nat) (v : Word) (hs : Keeps s0 s) :
    Keeps s0 (State.writeFn s f o v) := by
  unfold State.writeFn
  split
  · exact State.writeFnCtl_keeps s f o v hs
  split
  · split
    · exact State.sqTailWrite_keeps s f _ v hs
    · split
      · exact State.cqHeadWrite_keeps s f _ v hs
      · exact hs
  split
  · exact State.writeHwin_keeps s f _ _ v hs
  split
  · exact State.writeRing_keeps s f _ _ v hs
  · exact hs

theorem State.stopEngines_keeps {s0 : State} (s : State) (c : ResetClass) (ph : Phase) (hs : Keeps s0 s) :
    Keeps s0 (State.stopEngines s c ph) := by
  unfold State.stopEngines
  repeat' (first
    | with_reducible assumption
    | with_reducible apply State.forOps_keeps
    | with_reducible apply State.cutOp_keeps
    | with_reducible apply State.finishOp_keeps
    | with_reducible apply Keeps.ite
    | with_reducible refine KeepsFields.of ?_ rfl rfl rfl
    | simp only [Keeps.mk_eq])

theorem State.stampStats_keeps {s0 : State} (s : State) (hs : Keeps s0 s) :
    Keeps s0 (State.stampStats s) := by
  unfold State.stampStats
  exact hs.upd rfl rfl rfl rfl rfl rfl

theorem State.resetDev_keeps {s0 : State} (s : State) (c : ResetClass) (cause : ResetCause) (ph : Phase)
    (hs : Keeps s0 s) :
    Keeps s0 (State.resetDev s c cause ph) := by
  unfold State.resetDev
  apply State.thermWarn_keeps
  refine State.paceReenter_keeps _ s ?_ hs
  apply State.stampStats_keeps
  have h := State.stopEngines_keeps _ c ph (State.tearRuns_keeps s (fun _ => true) hs)
  simp only [Keeps.mk_eq]
  refine ⟨hs.pending, hs.out, hs.fuses, hs.rollback, fun m => ?_⟩
  have k := h.mem m
  simp only [State.memWf, Bool.and_eq_true] at k
  unfold resetAddr
  split
  · dsimp only
    rw [k.1.1]
    rfl
  · rfl

theorem State.softReset_keeps {s0 : State} (s : State) (hs : Keeps s0 s) :
    Keeps s0 (State.softReset s) := by
  unfold State.softReset
  repeat' (first
    | with_reducible assumption
    | with_reducible apply State.resetDev_keeps
    | with_reducible apply Keeps.ite)

theorem State.quotaCommit_keeps {s0 : State} (s : State) (hs : Keeps s0 s) :
    Keeps s0 (State.quotaCommit s) := by
  unfold State.quotaCommit
  repeat' (first
    | with_reducible assumption
    | with_reducible apply State.updFn_keeps
    | with_reducible apply Keeps.ite
    | with_reducible refine KeepsFields.of ?_ rfl rfl rfl
    | simp only [Keeps.mk_eq])

theorem State.dwinCommit_keeps {s0 : State} (s : State) (v : Word) (hs : Keeps s0 s) :
    Keeps s0 (State.dwinCommit s v) := by
  unfold State.dwinCommit
  repeat' (first
    | with_reducible assumption
    | with_reducible apply State.updFn_keeps
    | with_reducible apply Keeps.ite)

theorem State.writeDev0_keeps {s0 : State} (s : State) (o : Nat) (v : Word) (hs : Keeps s0 s) :
    Keeps s0 (State.writeDev0 s o v) := by
  unfold State.writeDev0
  split
  · exact Keeps.ite (State.softReset_keeps s hs) hs
  split
  · exact hs.upd rfl rfl rfl rfl rfl rfl
  split
  · exact hs.upd rfl rfl rfl rfl rfl rfl
  split
  · exact Keeps.ite (State.quotaCommit_keeps s hs) hs
  split
  · exact hs.upd rfl rfl rfl rfl rfl rfl
  split
  · exact State.dwinCommit_keeps s v hs
  · have h := Addr.write_same s.addr o v
    exact hs.upd rfl rfl rfl h.1 h.2.1 h.2.2

theorem State.evlogAckWrite_keeps {s0 : State} (s : State) (v : Word) (hs : Keeps s0 s) :
    Keeps s0 (State.evlogAckWrite s v) := by
  unfold State.evlogAckWrite
  repeat' (first
    | with_reducible assumption
    | with_reducible apply Keeps.ite
    | with_reducible refine KeepsFields.of ?_ rfl rfl rfl
    | simp only [Keeps.mk_eq])

theorem State.writeTrouble_keeps {s0 : State} (s : State) (o : Nat) (v : Word) (hs : Keeps s0 s) :
    Keeps s0 (State.writeTrouble s o v) := by
  unfold State.writeTrouble
  repeat' (first
    | with_reducible assumption
    | with_reducible apply State.clearTrb_keeps
    | with_reducible apply State.clearFnTrb_keeps
    | with_reducible apply State.evlogAckWrite_keeps
    | with_reducible apply Keeps.ite
    | with_reducible refine KeepsFields.of ?_ rfl rfl rfl
    | simp only [Keeps.mk_eq])

theorem State.writePwr_keeps {s0 : State} (s : State) (o : Nat) (v : Word) (hs : Keeps s0 s) :
    Keeps s0 (State.writePwr s o v) := by
  unfold State.writePwr
  repeat' (first
    | with_reducible assumption
    | with_reducible apply State.retarget_keeps
    | with_reducible apply State.refreshDoms_keeps
    | with_reducible refine KeepsFields.of ?_ rfl rfl rfl
    | simp only [Keeps.mk_eq])

theorem State.manualAvs_keeps {s0 : State} (s : State) (hs : Keeps s0 s) :
    Keeps s0 (State.manualAvs s) := by
  unfold State.manualAvs
  repeat' (first
    | with_reducible assumption
    | with_reducible apply State.avsWrite_keeps
    | with_reducible apply Keeps.ite)

theorem State.writePace_keeps {s0 : State} (s : State) (o : Nat) (v : Word) (hs : Keeps s0 s) :
    Keeps s0 (State.writePace s o v) := by
  unfold State.writePace
  repeat' (first
    | with_reducible assumption
    | with_reducible apply State.thermWarn_keeps
    | with_reducible apply State.paceControl_keeps
    | with_reducible apply State.manualAvs_keeps
    | with_reducible apply Keeps.ite
    | with_reducible refine KeepsFields.of ?_ rfl rfl rfl
    | simp only [Keeps.mk_eq])

theorem State.writeWeft_keeps {s0 : State} (s : State) (o : Nat) (v : Word) (hs : Keeps s0 s) :
    Keeps s0 (State.writeWeft s o v) := by
  unfold State.writeWeft
  repeat' (first
    | with_reducible assumption
    | with_reducible apply State.refreshDoms_keeps
    | with_reducible apply Keeps.ite
    | with_reducible refine KeepsFields.of ?_ rfl rfl rfl
    | simp only [Keeps.mk_eq])

theorem State.writeMedia_keeps {s0 : State} (s : State) (o : Nat) (v : Word) (hs : Keeps s0 s) :
    Keeps s0 (State.writeMedia s o v) := by
  unfold State.writeMedia
  repeat' (first
    | with_reducible assumption
    | with_reducible apply State.refreshDoms_keeps
    | with_reducible apply Keeps.ite
    | with_reducible refine KeepsFields.of ?_ rfl rfl rfl
    | simp only [Keeps.mk_eq])

theorem State.traceCtlWrite_keeps {s0 : State} (s : State) (v : Word) (hs : Keeps s0 s) :
    Keeps s0 (State.traceCtlWrite s v) := by
  unfold State.traceCtlWrite
  repeat' (first
    | with_reducible assumption
    | with_reducible apply Keeps.ite
    | with_reducible refine KeepsFields.of ?_ rfl rfl rfl
    | simp only [Keeps.mk_eq])

theorem State.traceMarkWrite_keeps {s0 : State} (s : State) (v : Word) (hs : Keeps s0 s) :
    Keeps s0 (State.traceMarkWrite s v) := by
  unfold State.traceMarkWrite
  repeat' (first
    | with_reducible assumption
    | with_reducible apply State.traceEmit_keeps
    | with_reducible apply Keeps.ite)

theorem State.writeTrace_keeps {s0 : State} (s : State) (o : Nat) (v : Word) (hs : Keeps s0 s) :
    Keeps s0 (State.writeTrace s o v) := by
  unfold State.writeTrace
  repeat' (first
    | with_reducible assumption
    | with_reducible apply State.traceCtlWrite_keeps
    | with_reducible apply State.traceMarkWrite_keeps
    | with_reducible apply Keeps.ite
    | with_reducible refine KeepsFields.of ?_ rfl rfl rfl
    | simp only [Keeps.mk_eq])

theorem State.writeDev_keeps {s0 : State} (s : State) (o : Nat) (v : Word) (hs : Keeps s0 s) :
    Keeps s0 (State.writeDev s o v) := by
  unfold State.writeDev
  repeat' (first
    | with_reducible assumption
    | with_reducible apply State.writeDev0_keeps
    | with_reducible apply State.writeTrouble_keeps
    | with_reducible apply State.writePwr_keeps
    | with_reducible apply State.writePace_keeps
    | with_reducible apply State.writeWeft_keeps
    | with_reducible apply State.writeMedia_keeps
    | with_reducible apply State.writeTrace_keeps
    | with_reducible apply Keeps.ite
    | with_reducible refine KeepsFields.of ?_ rfl rfl rfl
    | simp only [Keeps.mk_eq])

theorem State.writeReg_keeps {s0 : State} (s : State) (f o : Nat) (v : Word) (hs : Keeps s0 s) :
    Keeps s0 (State.writeReg s f o v) := by
  unfold State.writeReg
  split
  · exact hs
  split
  · exact State.writeFn_keeps s f o v hs
  split
  · exact State.writeDev_keeps s _ v hs
  · exact hs

theorem State.barWrite_keeps {s0 : State} (s : State) (f o : Nat) (is64 : Bool) (v : BitVec 64) (hs : Keeps s0 s) :
    Keeps s0 (State.barWrite s f o is64 v) := by
  unfold State.barWrite
  repeat' (first
    | with_reducible assumption
    | with_reducible apply State.writeReg_keeps
    | with_reducible apply Keeps.ite)

theorem State.linkUp_keeps {s0 : State} (s : State) (speed : BitVec 4) (width : BitVec 5) (hs : Keeps s0 s) :
    Keeps s0 (State.linkUp s speed width) := by
  unfold State.linkUp
  repeat' (first
    | with_reducible assumption
    | with_reducible refine KeepsFields.of ?_ rfl rfl rfl
    | simp only [Keeps.mk_eq])

theorem State.perfClear_keeps {s0 : State} (s : State) (hs : Keeps s0 s) :
    Keeps s0 (State.perfClear s) := by
  unfold State.perfClear
  repeat' (first
    | with_reducible assumption
    | with_reducible refine KeepsFields.of ?_ rfl rfl rfl
    | simp only [Keeps.mk_eq])

theorem State.counterClear_keeps {s0 : State} (s : State) (f : Nat) (perf : Bool) (hs : Keeps s0 s) :
    Keeps s0 (State.counterClear s f perf) := by
  unfold State.counterClear
  repeat' (first
    | with_reducible assumption
    | with_reducible apply State.perfClear_keeps
    | with_reducible apply State.statsClear_keeps
    | with_reducible apply Keeps.ite)

theorem State.enterPor_keeps {s0 : State} (s : State) (hs : Keeps s0 s) :
    Keeps s0 (State.enterPor s) := by
  unfold State.enterPor
  repeat' (first
    | with_reducible assumption
    | with_reducible apply State.resetDev_keeps
    | with_reducible apply Keeps.ite
    | with_reducible refine KeepsFields.of ?_ rfl rfl rfl
    | simp only [Keeps.mk_eq])

theorem State.islandLevels_keeps {s0 : State} (s : State) (hs : Keeps s0 s) :
    Keeps s0 (State.islandLevels s) := by
  unfold State.islandLevels
  repeat' (first
    | with_reducible assumption
    | with_reducible apply State.setTrb_keeps
    | with_reducible apply Keeps.ite)

theorem State.loseAon_keeps {s0 : State} (s : State) (hs : Keeps s0 s) :
    Keeps s0 (State.loseAon s) := by
  unfold State.loseAon
  repeat' (first
    | with_reducible assumption
    | with_reducible refine KeepsFields.of ?_ rfl rfl rfl
    | simp only [Keeps.mk_eq])

theorem State.quiesce_keeps {s0 : State} (s : State) (hs : Keeps s0 s) :
    Keeps s0 (State.quiesce s) := by
  unfold State.quiesce
  repeat' (first
    | with_reducible assumption
    | with_reducible apply State.setTrb_keeps
    | with_reducible refine KeepsFields.of ?_ rfl rfl rfl
    | simp only [Keeps.mk_eq])

theorem State.resetE_keeps {s0 : State} (s : State) (cause : ResetCause) (hs : Keeps s0 s) :
    Keeps s0 (State.resetE s cause) := by
  unfold State.resetE
  repeat' (first
    | with_reducible assumption
    | with_reducible apply State.resetDev_keeps
    | with_reducible apply Keeps.ite)

theorem State.startBoot_keeps {s0 : State} (s : State) (c : ResetClass) (hs : Keeps s0 s) :
    Keeps s0 (State.startBoot s c) := by
  unfold State.startBoot
  apply State.islandLevels_keeps
  apply State.thermWarn_keeps
  exact (State.paceRestart_keeps s hs).upd rfl rfl rfl rfl rfl rfl

theorem State.wdSecond_keeps {s0 : State} (s : State) (hs : Keeps s0 s) :
    Keeps s0 (State.wdSecond s) := by
  unfold State.wdSecond
  repeat' (first
    | with_reducible assumption
    | with_reducible apply State.quiesce_keeps
    | with_reducible apply State.resetDev_keeps
    | with_reducible apply Keeps.ite)

theorem State.wdFirst_keeps {s0 : State} (s : State) (cause : Nat) (hs : Keeps s0 s) :
    Keeps s0 (State.wdFirst s cause) := by
  unfold State.wdFirst
  repeat' (first
    | with_reducible assumption
    | with_reducible apply State.raiseDevEvt_keeps
    | with_reducible refine KeepsFields.of ?_ rfl rfl rfl
    | simp only [Keeps.mk_eq])

theorem State.wdExpire_keeps {s0 : State} (s : State) (cause : Nat) (hs : Keeps s0 s) :
    Keeps s0 (State.wdExpire s cause) := by
  unfold State.wdExpire
  repeat' (first
    | with_reducible assumption
    | with_reducible apply State.wdSecond_keeps
    | with_reducible apply State.wdFirst_keeps
    | with_reducible apply Keeps.ite)

theorem execBarMisalignedAccess_keeps {s0 : State} (bar : BarSel) (fn : FnId) (isWrite : Bool) (len : Nat) (s : State)
    (hs : Keeps s0 s) :
    OutcomeKeeps s0 (execBarMisalignedAccess bar fn isWrite len s) := by
  unfold execBarMisalignedAccess
  repeat' (first
    | with_reducible assumption
    | with_reducible apply State.logUr_keeps
    | with_reducible apply State.barUr_keeps
    | with_reducible apply State.emit_keeps
    | with_reducible apply OutcomeKeeps.next
    | with_reducible apply OutcomeKeeps.ite
    | with_reducible apply Keeps.ite
    | split)

theorem execCountersRead_keeps {s0 : State} (t : Ticket) (s : State) (hs : Keeps s0 s) :
    OutcomeKeeps s0 (execCountersRead t s) := by
  unfold execCountersRead
  repeat' (first
    | with_reducible assumption
    | with_reducible apply State.onCmd_keeps
    | with_reducible apply State.endCmd_keeps
    | with_reducible apply State.counterClear_keeps
    | with_reducible apply State.writePlace_keeps
    | with_reducible apply OutcomeKeeps.next
    | with_reducible apply Keeps.ite
    | intro _
    | simp only [Keeps.mk_eq]
    | split)

theorem execDlActive_keeps {s0 : State} (speed : BitVec 4) (width : BitVec 5) (s : State) (hs : Keeps s0 s) :
    OutcomeKeeps s0 (execDlActive speed width s) := by
  unfold execDlActive
  repeat' (first
    | with_reducible assumption
    | with_reducible apply State.startBoot_keeps
    | with_reducible apply State.linkUp_keeps
    | with_reducible apply OutcomeKeeps.next
    | with_reducible apply OutcomeKeeps.ite)

theorem execDwinWctl_keeps {s0 : State} (value : Word) (s : State) (hs : Keeps s0 s) :
    OutcomeKeeps s0 (execDwinWctl value s) := by
  unfold execDwinWctl
  repeat' (first
    | with_reducible assumption
    | with_reducible apply State.barRow_keeps
    | with_reducible apply State.dwinCommit_keeps
    | with_reducible apply OutcomeKeeps.next
    | intro _)

theorem execEvlogAck_keeps {s0 : State} (value : Word) (s : State) (hs : Keeps s0 s) :
    OutcomeKeeps s0 (execEvlogAck value s) := by
  unfold execEvlogAck
  repeat' (first
    | with_reducible assumption
    | with_reducible apply State.barRow_keeps
    | with_reducible apply State.evlogAckWrite_keeps
    | with_reducible apply OutcomeKeeps.next
    | intro _)

theorem execFetchStop_keeps {s0 : State} (fn : FnId) (stop : Bool) (s : State) (hs : Keeps s0 s) :
    OutcomeKeeps s0 (execFetchStop fn stop s) := by
  unfold execFetchStop
  repeat' (first
    | with_reducible assumption
    | with_reducible apply State.barRow_keeps
    | with_reducible apply State.updFn_keeps
    | with_reducible apply OutcomeKeeps.next
    | with_reducible apply Keeps.ite
    | intro _)

theorem execFwNotReadyTimeout_keeps {s0 : State} (s : State) (hs : Keeps s0 s) :
    OutcomeKeeps s0 (execFwNotReadyTimeout s) := by
  unfold execFwNotReadyTimeout
  repeat' (first
    | with_reducible assumption
    | with_reducible apply State.setTrb_keeps
    | with_reducible apply OutcomeKeeps.next
    | with_reducible apply OutcomeKeeps.ite
    | with_reducible refine KeepsFields.of ?_ rfl rfl rfl
    | simp only [Keeps.mk_eq]
    | split)

theorem execHwinCtl_keeps {s0 : State} (fn : FnId) (win : Fin 16) (value : Word) (s : State) (hs : Keeps s0 s) :
    OutcomeKeeps s0 (execHwinCtl fn win value s) := by
  unfold execHwinCtl
  repeat' (first
    | with_reducible assumption
    | with_reducible apply State.barRow_keeps
    | with_reducible apply State.hwinCtlWrite_keeps
    | with_reducible apply OutcomeKeeps.next
    | intro _)

theorem execLatchHighRead_keeps {s0 : State} (fn : FnId) (offset : BitVec 17) (s : State) (hs : Keeps s0 s) :
    OutcomeKeeps s0 (execLatchHighRead fn offset s) := by
  unfold execLatchHighRead
  repeat' (first
    | with_reducible assumption
    | with_reducible apply State.barRead_keeps
    | with_reducible apply OutcomeKeeps.next)

theorem execLatchLowRead_keeps {s0 : State} (fn : FnId) (offset : BitVec 17) (s : State) (hs : Keeps s0 s) :
    OutcomeKeeps s0 (execLatchLowRead fn offset s) := by
  unfold execLatchLowRead
  repeat' (first
    | with_reducible assumption
    | with_reducible apply State.barRead_keeps
    | with_reducible apply OutcomeKeeps.next)

theorem execLinkDown_keeps {s0 : State} (cause : LinkFall) (s : State) (hs : Keeps s0 s) :
    OutcomeKeeps s0 (execLinkDown cause s) := by
  unfold execLinkDown
  repeat' (first
    | with_reducible assumption
    | with_reducible apply State.resetE_keeps
    | with_reducible apply OutcomeKeeps.next
    | with_reducible apply OutcomeKeeps.ite)

theorem execLogRead_keeps {s0 : State} (t : Ticket) (s : State) (hs : Keeps s0 s) :
    OutcomeKeeps s0 (execLogRead t s) := by
  unfold execLogRead
  repeat' (first
    | with_reducible assumption
    | with_reducible apply State.onCmd_keeps
    | with_reducible apply State.endCmd_keeps
    | with_reducible apply State.writePlace_keeps
    | with_reducible apply OutcomeKeeps.next
    | with_reducible apply Keeps.ite
    | intro _
    | simp only [Keeps.mk_eq]
    | split)

theorem execNop_keeps {s0 : State} (t : Ticket) (s : State) (hs : Keeps s0 s) :
    OutcomeKeeps s0 (execNop t s) := by
  unfold execNop
  repeat' (first
    | with_reducible assumption
    | with_reducible apply State.onCmd_keeps
    | with_reducible apply State.endCmd_keeps
    | with_reducible apply OutcomeKeeps.next
    | with_reducible apply Keeps.ite
    | intro _)

theorem execNvmUnlock_keeps {s0 : State} (key : Word) (s : State) (hs : Keeps s0 s) :
    OutcomeKeeps s0 (execNvmUnlock key s) := by
  unfold execNvmUnlock
  repeat' (first
    | with_reducible assumption
    | with_reducible apply State.barRow_keeps
    | with_reducible apply OutcomeKeeps.next
    | with_reducible apply Keeps.ite
    | with_reducible refine KeepsFields.of ?_ rfl rfl rfl
    | intro _
    | simp only [Keeps.mk_eq])

theorem execPerstNAssert_keeps {s0 : State} (s : State) (hs : Keeps s0 s) :
    OutcomeKeeps s0 (execPerstNAssert s) := by
  unfold execPerstNAssert
  repeat' (first
    | with_reducible assumption
    | with_reducible apply State.resetE_keeps
    | with_reducible apply OutcomeKeeps.next
    | with_reducible refine KeepsFields.of ?_ rfl rfl rfl
    | simp only [Keeps.mk_eq])

theorem execPerstNRelease_keeps {s0 : State} (chip : BitVec 2) (s : State) (hs : Keeps s0 s) :
    OutcomeKeeps s0 (execPerstNRelease chip s) := by
  unfold execPerstNRelease
  repeat' (first
    | with_reducible assumption
    | with_reducible apply State.startBoot_keeps
    | with_reducible apply OutcomeKeeps.next
    | with_reducible apply OutcomeKeeps.ite
    | with_reducible refine KeepsFields.of ?_ rfl rfl rfl
    | simp only [Keeps.mk_eq])

theorem execPor_keeps {s0 : State} (aonLost : Bool) (s : State) (hs : Keeps s0 s) :
    OutcomeKeeps s0 (execPor aonLost s) := by
  unfold execPor
  repeat' (first
    | with_reducible assumption
    | with_reducible apply State.loseAon_keeps
    | with_reducible apply State.enterPor_keeps
    | with_reducible apply OutcomeKeeps.next
    | with_reducible apply Keeps.ite
    | with_reducible refine KeepsFields.of ?_ rfl rfl rfl
    | simp only [Keeps.mk_eq])

theorem execQuotaCommit_keeps {s0 : State} (s : State) (hs : Keeps s0 s) :
    OutcomeKeeps s0 (execQuotaCommit s) := by
  unfold execQuotaCommit
  repeat' (first
    | with_reducible assumption
    | with_reducible apply State.barRow_keeps
    | with_reducible apply State.quotaCommit_keeps
    | with_reducible apply OutcomeKeeps.next)

theorem execRcRead_keeps {s0 : State} (bar : BarSel) (fn : FnId) (offset : BitVec 17) (is64 : Bool) (s : State)
    (hs : Keeps s0 s) :
    OutcomeKeeps s0 (execRcRead bar fn offset is64 s) := by
  unfold execRcRead
  repeat' (first
    | with_reducible assumption
    | with_reducible apply State.barUr_keeps
    | with_reducible apply State.barRead_keeps
    | with_reducible apply State.bar4Read_keeps
    | with_reducible apply OutcomeKeeps.next
    | split)

theorem execRegisterWrite_keeps {s0 : State} (bar : BarSel) (fn : FnId) (offset : BitVec 17) (is64 : Bool)
    (value : BitVec 64) (s : State)
    (hs : Keeps s0 s) :
    OutcomeKeeps s0 (execRegisterWrite bar fn offset is64 value s) := by
  unfold execRegisterWrite
  repeat' (first
    | with_reducible assumption
    | with_reducible apply State.logUr_keeps
    | with_reducible apply State.barWrite_keeps
    | with_reducible apply State.bar4Write_keeps
    | with_reducible apply OutcomeKeeps.next
    | with_reducible apply OutcomeKeeps.ite
    | split)

theorem execSoftReset_keeps {s0 : State} (s : State) (hs : Keeps s0 s) :
    OutcomeKeeps s0 (execSoftReset s) := by
  unfold execSoftReset
  repeat' (first
    | with_reducible assumption
    | with_reducible apply State.barRow_keeps
    | with_reducible apply State.softReset_keeps
    | with_reducible apply OutcomeKeeps.next)

theorem execStatsClear_keeps {s0 : State} (fn : FnId) (s : State) (hs : Keeps s0 s) :
    OutcomeKeeps s0 (execStatsClear fn s) := by
  unfold execStatsClear
  repeat' (first
    | with_reducible assumption
    | with_reducible apply State.barRow_keeps
    | with_reducible apply State.statsClear_keeps
    | with_reducible apply OutcomeKeeps.next
    | with_reducible apply Keeps.ite
    | intro _)

theorem execSuppliesValid_keeps {s0 : State} (s : State) (hs : Keeps s0 s) :
    OutcomeKeeps s0 (execSuppliesValid s) := by
  unfold execSuppliesValid
  repeat' (first
    | with_reducible assumption
    | with_reducible apply State.resetDev_keeps
    | with_reducible apply State.startBoot_keeps
    | with_reducible apply OutcomeKeeps.next
    | with_reducible apply OutcomeKeeps.ite
    | with_reducible refine KeepsFields.of ?_ rfl rfl rfl
    | simp only [Keeps.mk_eq])

theorem execTestEnHigh_keeps {s0 : State} (s : State) (hs : Keeps s0 s) :
    OutcomeKeeps s0 (execTestEnHigh s) := by
  unfold execTestEnHigh
  repeat' (first
    | with_reducible assumption
    | with_reducible apply State.enterPor_keeps
    | with_reducible apply OutcomeKeeps.next
    | with_reducible refine KeepsFields.of ?_ rfl rfl rfl
    | simp only [Keeps.mk_eq])

theorem execTraceEnable_keeps {s0 : State} (value : Word) (s : State) (hs : Keeps s0 s) :
    OutcomeKeeps s0 (execTraceEnable value s) := by
  unfold execTraceEnable
  repeat' (first
    | with_reducible assumption
    | with_reducible apply State.barRow_keeps
    | with_reducible apply State.traceCtlWrite_keeps
    | with_reducible apply OutcomeKeeps.next
    | intro _)

theorem execTraceMark_keeps {s0 : State} (value : Word) (s : State) (hs : Keeps s0 s) :
    OutcomeKeeps s0 (execTraceMark value s) := by
  unfold execTraceMark
  repeat' (first
    | with_reducible assumption
    | with_reducible apply State.barRow_keeps
    | with_reducible apply State.traceMarkWrite_keeps
    | with_reducible apply OutcomeKeeps.next
    | intro _)

theorem execTroubleClear_keeps {s0 : State} (t : Ticket) (s : State) (hs : Keeps s0 s) :
    OutcomeKeeps s0 (execTroubleClear t s) := by
  unfold execTroubleClear
  repeat' (first
    | with_reducible assumption
    | with_reducible apply State.onCmd_keeps
    | with_reducible apply State.endCmd_keeps
    | with_reducible apply State.clearFnTrb_keeps
    | with_reducible apply State.clearTrb_keeps
    | with_reducible apply OutcomeKeeps.next
    | with_reducible apply Keeps.ite
    | intro _)

theorem execTroubleRead_keeps {s0 : State} (t : Ticket) (s : State) (hs : Keeps s0 s) :
    OutcomeKeeps s0 (execTroubleRead t s) := by
  unfold execTroubleRead
  repeat' (first
    | with_reducible assumption
    | with_reducible apply State.onCmd_keeps
    | with_reducible apply State.endCmd_keeps
    | with_reducible apply OutcomeKeeps.next
    | with_reducible apply Keeps.ite
    | intro _)

theorem execUnlockTimeout_keeps {s0 : State} (s : State) (hs : Keeps s0 s) :
    OutcomeKeeps s0 (execUnlockTimeout s) := by
  unfold execUnlockTimeout
  repeat' (first
    | with_reducible assumption
    | with_reducible apply OutcomeKeeps.next
    | with_reducible apply OutcomeKeeps.ite
    | with_reducible refine KeepsFields.of ?_ rfl rfl rfl
    | simp only [Keeps.mk_eq])

theorem execWdArmLapse_keeps {s0 : State} (s : State) (hs : Keeps s0 s) :
    OutcomeKeeps s0 (execWdArmLapse s) := by
  unfold execWdArmLapse
  repeat' (first
    | with_reducible assumption
    | with_reducible apply OutcomeKeeps.next
    | with_reducible apply OutcomeKeeps.ite
    | with_reducible refine KeepsFields.of ?_ rfl rfl rfl
    | simp only [Keeps.mk_eq])

theorem execWdChallenge_keeps {s0 : State} (s : State) (hs : Keeps s0 s) :
    OutcomeKeeps s0 (execWdChallenge s) := by
  unfold execWdChallenge
  repeat' (first
    | with_reducible assumption
    | with_reducible apply OutcomeKeeps.next
    | with_reducible apply OutcomeKeeps.ite
    | with_reducible refine KeepsFields.of ?_ rfl rfl rfl
    | simp only [Keeps.mk_eq])

theorem execWdFirstExpiry_keeps {s0 : State} (s : State) (hs : Keeps s0 s) :
    OutcomeKeeps s0 (execWdFirstExpiry s) := by
  unfold execWdFirstExpiry
  repeat' (first
    | with_reducible assumption
    | with_reducible apply State.wdFirst_keeps
    | with_reducible apply OutcomeKeeps.next
    | with_reducible apply OutcomeKeeps.ite)

theorem execWdPeriodSet_keeps {s0 : State} (value : BitVec 16) (s : State) (hs : Keeps s0 s) :
    OutcomeKeeps s0 (execWdPeriodSet value s) := by
  unfold execWdPeriodSet
  repeat' (first
    | with_reducible assumption
    | with_reducible apply OutcomeKeeps.next
    | with_reducible apply OutcomeKeeps.ite
    | with_reducible refine KeepsFields.of ?_ rfl rfl rfl
    | simp only [Keeps.mk_eq])

theorem execWdResponse_keeps {s0 : State} (token : Word) (s : State) (hs : Keeps s0 s) :
    OutcomeKeeps s0 (execWdResponse token s) := by
  unfold execWdResponse
  repeat' (first
    | with_reducible assumption
    | with_reducible apply State.wdExpire_keeps
    | with_reducible apply OutcomeKeeps.next
    | with_reducible apply OutcomeKeeps.ite
    | with_reducible refine KeepsFields.of ?_ rfl rfl rfl
    | simp only [Keeps.mk_eq]
    | split)

theorem execWdSecondExpiry_keeps {s0 : State} (s : State) (hs : Keeps s0 s) :
    OutcomeKeeps s0 (execWdSecondExpiry s) := by
  unfold execWdSecondExpiry
  repeat' (first
    | with_reducible assumption
    | with_reducible apply State.wdSecond_keeps
    | with_reducible apply OutcomeKeeps.next
    | with_reducible apply OutcomeKeeps.ite)

theorem execWdWarnEntry_keeps {s0 : State} (s : State) (hs : Keeps s0 s) :
    OutcomeKeeps s0 (execWdWarnEntry s) := by
  unfold execWdWarnEntry
  repeat' (first
    | with_reducible assumption
    | with_reducible apply State.logEvent_keeps
    | with_reducible apply OutcomeKeeps.next
    | with_reducible apply OutcomeKeeps.ite
    | with_reducible refine KeepsFields.of ?_ rfl rfl rfl
    | simp only [Keeps.mk_eq]
    | split)

theorem execWdWarnTimeout_keeps {s0 : State} (s : State) (hs : Keeps s0 s) :
    OutcomeKeeps s0 (execWdWarnTimeout s) := by
  unfold execWdWarnTimeout
  repeat' (first
    | with_reducible assumption
    | with_reducible apply State.setTrb_keeps
    | with_reducible apply OutcomeKeeps.next
    | with_reducible apply OutcomeKeeps.ite
    | with_reducible refine KeepsFields.of ?_ rfl rfl rfl
    | simp only [Keeps.mk_eq])

theorem execWdtPulseEnd_keeps {s0 : State} (s : State) (hs : Keeps s0 s) :
    OutcomeKeeps s0 (execWdtPulseEnd s) := by
  unfold execWdtPulseEnd
  repeat' (first
    | with_reducible assumption
    | with_reducible apply OutcomeKeeps.next
    | with_reducible apply OutcomeKeeps.ite
    | with_reducible refine KeepsFields.of ?_ rfl rfl rfl
    | simp only [Keeps.mk_eq])

end Sys2Proof.Machine
end

