-- ==== Sys2Proof/Laws/KeepsD.lean ====
section
/-!
SUPPORT. `Keeps` of every operation of Machine/Pcie, Boot, Engine, Nvm.lean.
-/

namespace Sys2Proof.Machine

theorem State.reachGoal_keeps {s0 : State} (s : State) (c : Cmd) (p : NvmPlan) (hs : Keeps s0 s) :
    Keeps s0 (State.reachGoal s c p) := by
  unfold State.reachGoal
  repeat' (first
    | with_reducible assumption
    | with_reducible apply State.writePlace_keeps
    | with_reducible apply Keeps.ite
    | with_reducible refine KeepsFields.of ?_ rfl rfl rfl
    | simp only [Keeps.mk_eq]
    | split)

theorem State.finishPlan_keeps {s0 : State} (s : State) (t : Nat) (status : BitVec 16) (index : Nat)
    (hs : Keeps s0 s) :
    Keeps s0 (State.finishPlan s t status index) := by
  unfold State.finishPlan
  repeat' (first
    | with_reducible assumption
    | with_reducible apply State.reachGoal_keeps
    | with_reducible apply State.endCmd_keeps
    | with_reducible apply Keeps.ite
    | with_reducible refine KeepsFields.of ?_ rfl rfl rfl
    | simp only [Keeps.mk_eq]
    | split)

theorem State.applySettings_keeps {s0 : State} (s : State) (c : ResetClass) (hs : Keeps s0 s) :
    Keeps s0 (State.applySettings s c) := by
  unfold State.applySettings
  repeat' (first
    | with_reducible assumption
    | with_reducible refine KeepsFields.of ?_ rfl rfl rfl
    | simp only [Keeps.mk_eq])

theorem State.bootEntries_keeps {s0 : State} (s : State) (falls : List Bytes) (hs : Keeps s0 s) :
    Keeps s0 (State.bootEntries s falls) := by
  unfold State.bootEntries
  repeat' (first
    | with_reducible assumption
    | with_reducible apply State.logEvent_keeps
    | with_reducible apply Keeps.ite
    | with_reducible apply Keeps.foldl
    | intro _)

theorem State.bootMark_keeps {s0 : State} (s : State) (slot kind : Nat) (hs : Keeps s0 s) :
    Keeps s0 (State.bootMark s slot kind) := by
  unfold State.bootMark
  repeat' (first
    | with_reducible assumption
    | with_reducible apply State.programMark_keeps
    | with_reducible apply State.markLater_keeps
    | with_reducible apply Keeps.ite)

theorem State.imageReads_keeps {s0 : State} (s : State) (slot : Nat) (hs : Keeps s0 s) :
    Keeps s0 (State.imageReads s slot) := by
  unfold State.imageReads
  repeat' (first
    | with_reducible assumption
    | with_reducible apply State.readStored_keeps
    | with_reducible apply State.slotRows_keeps)

theorem State.bootReads_keeps {s0 : State} (s : State) (hs : Keeps s0 s) :
    Keeps s0 (State.bootReads s) := by
  unfold State.bootReads
  repeat' (first
    | with_reducible assumption
    | with_reducible apply State.imageReads_keeps
    | with_reducible apply State.countReads_keeps
    | with_reducible apply State.readStored_keeps
    | with_reducible apply Keeps.foldl
    | intro _)

theorem State.loadSettings_keeps {s0 : State} (s : State) (slot : Nat) (hs : Keeps s0 s) :
    Keeps s0 (State.loadSettings s slot) := by
  unfold State.loadSettings
  repeat' (first
    | with_reducible assumption
    | with_reducible apply Keeps.ite
    | with_reducible refine KeepsFields.of ?_ rfl rfl rfl
    | simp only [Keeps.mk_eq])

theorem State.coreTest_keeps {s0 : State} (s : State) (c : ResetClass) (bad : List Nat) (hs : Keeps s0 s) :
    Keeps s0 (State.coreTest s c bad) := by
  unfold State.coreTest
  repeat' (first
    | with_reducible assumption
    | with_reducible refine KeepsFields.of ?_ rfl rfl rfl
    | simp only [Keeps.mk_eq])

theorem State.loadHead_keeps {s0 : State} (s : State) (slot : Nat) (trial : Bool) (hs : Keeps s0 s) :
    Keeps s0 (State.loadHead s slot trial) := by
  unfold State.loadHead
  repeat' (first
    | with_reducible assumption
    | with_reducible refine KeepsFields.of ?_ rfl rfl rfl
    | simp only [Keeps.mk_eq])

theorem State.trainLp5x_keeps {s0 : State} (s : State) (gibA gibB : Nat) (trained : Bool) (hs : Keeps s0 s) :
    Keeps s0 (State.trainLp5x s gibA gibB trained) := by
  unfold State.trainLp5x
  repeat' (first
    | with_reducible assumption
    | with_reducible refine KeepsFields.of ?_ rfl rfl rfl
    | simp only [Keeps.mk_eq])

theorem State.lostWorkBits_keeps {s0 : State} (s : State) (hs : Keeps s0 s) :
    Keeps s0 (State.lostWorkBits s) := by
  unfold State.lostWorkBits
  repeat' (first
    | with_reducible assumption
    | with_reducible apply State.setFnTrb_keeps
    | with_reducible apply Keeps.foldl
    | with_reducible refine KeepsFields.of ?_ rfl rfl rfl
    | intro _
    | simp only [Keeps.mk_eq])

theorem State.startEntry_keeps {s0 : State} (s : State) (c : ResetClass) (hs : Keeps s0 s) :
    Keeps s0 (State.startEntry s c) := by
  unfold State.startEntry
  repeat' (first
    | with_reducible assumption
    | with_reducible apply State.logEvent_keeps
    | with_reducible apply Keeps.ite)

theorem State.flushVecs_keeps {s0 : State} (s : State) (f : Nat) (hs : Keeps s0 s) :
    Keeps s0 (State.flushVecs s f) := by
  unfold State.flushVecs
  repeat' (first
    | with_reducible assumption
    | with_reducible apply State.flushPba_keeps
    | with_reducible apply Keeps.foldl
    | intro _)

theorem State.signalReady_keeps {s0 : State} (s : State) (c : ResetClass) (speed : BitVec 4) (width : BitVec 5)
    (hs : Keeps s0 s) :
    Keeps s0 (State.signalReady s c speed width) := by
  unfold State.signalReady
  repeat' (first
    | with_reducible assumption
    | with_reducible apply State.linkUp_keeps
    | with_reducible apply State.startEntry_keeps
    | with_reducible apply State.raiseDevEvt_keeps
    | with_reducible apply State.flushVecs_keeps
    | with_reducible apply Keeps.ite
    | with_reducible apply Keeps.foldl
    | with_reducible refine KeepsFields.of ?_ rfl rfl rfl
    | simp only [Keeps.mk_eq])

theorem State.disableVf_keeps {s0 : State} (s : State) (f : Nat) (hs : Keeps s0 s) :
    Keeps s0 (State.disableVf s f) := by
  unfold State.disableVf
  repeat' (first
    | with_reducible assumption
    | with_reducible apply State.updFn_keeps
    | with_reducible apply State.endFunction_keeps
    | with_reducible apply State.logEvent_keeps
    | with_reducible apply Keeps.ite
    | with_reducible refine KeepsFields.of ?_ rfl rfl rfl
    | simp only [Keeps.mk_eq])

theorem State.vfDisable_keeps {s0 : State} (s : State) (hs : Keeps s0 s) :
    Keeps s0 (State.vfDisable s) := by
  unfold State.vfDisable
  repeat' (first
    | with_reducible assumption
    | with_reducible apply State.disableVf_keeps
    | with_reducible apply State.retarget_keeps
    | with_reducible apply State.refreshDoms_keeps
    | with_reducible apply Keeps.ite
    | with_reducible apply Keeps.foldl
    | with_reducible refine KeepsFields.of ?_ rfl rfl rfl
    | simp only [Keeps.mk_eq])

theorem State.flr_keeps {s0 : State} (s : State) (f : Nat) (hs : Keeps s0 s) :
    Keeps s0 (State.flr s f) := by
  unfold State.flr
  repeat' (first
    | with_reducible assumption
    | with_reducible apply State.updFn_keeps
    | with_reducible apply State.vfDisable_keeps
    | with_reducible apply State.endFunction_keeps
    | with_reducible apply State.retarget_keeps
    | with_reducible apply State.refreshDoms_keeps
    | with_reducible apply State.setFnTrb_keeps
    | with_reducible apply Keeps.ite
    | with_reducible refine KeepsFields.of ?_ rfl rfl rfl
    | simp only [Keeps.mk_eq]
    | split)

theorem State.finishFlrs_keeps {s0 : State} (s : State) (hs : Keeps s0 s) :
    Keeps s0 (State.finishFlrs s) := by
  unfold State.finishFlrs
  repeat' (first
    | with_reducible assumption
    | with_reducible apply State.flr_keeps
    | with_reducible apply Keeps.foldl)

theorem State.confirm_keeps {s0 : State} (s : State) (hs : Keeps s0 s) :
    Keeps s0 (State.confirm s) := by
  unfold State.confirm
  repeat' (first
    | with_reducible assumption
    | with_reducible apply State.fwMark_keeps
    | with_reducible apply Keeps.ite
    | with_reducible refine KeepsFields.of ?_ rfl rfl rfl
    | simp only [Keeps.mk_eq])

theorem State.raiseLevels_keeps {s0 : State} (s : State) (hs : Keeps s0 s) :
    Keeps s0 (State.raiseLevels s) := by
  unfold State.raiseLevels
  repeat' (first
    | with_reducible assumption
    | with_reducible apply State.raiseDevEvt_keeps
    | with_reducible apply Keeps.ite
    | with_reducible refine KeepsFields.of ?_ rfl rfl rfl
    | simp only [Keeps.mk_eq])

theorem State.bootRun_keeps {s0 : State} (s : State) (c : ResetClass) (slot : Nat) (trial : Bool)
    (falls : List Bytes) (gibA gibB : Nat) (trained : Bool) (bad : List Nat) (speed : BitVec 4) (width : BitVec 5)
    (hs : Keeps s0 s) :
    Keeps s0 (State.bootRun s c slot trial falls gibA gibB trained bad speed width) := by
  unfold State.bootRun
  repeat' (first
    | with_reducible assumption
    | with_reducible apply State.loadSettings_keeps
    | with_reducible apply State.coreTest_keeps
    | with_reducible apply State.loadHead_keeps
    | with_reducible apply State.trainLp5x_keeps
    | with_reducible apply State.applySettings_keeps
    | with_reducible apply State.lostWorkBits_keeps
    | with_reducible apply State.bootEntries_keeps
    | with_reducible apply State.bootReads_keeps
    | with_reducible apply State.signalReady_keeps
    | with_reducible apply State.ltrUpdate_keeps
    | with_reducible apply State.refreshDoms_keeps
    | with_reducible apply State.finishFlrs_keeps
    | with_reducible apply State.confirm_keeps
    | with_reducible apply State.raiseLevels_keeps
    | with_reducible apply Keeps.ite
    | with_reducible refine KeepsFields.of ?_ rfl rfl rfl
    | simp only [Keeps.mk_eq])

theorem State.cfgMsix_keeps {s0 : State} (s : State) (f : Nat) (v : Word) (hs : Keeps s0 s) :
    Keeps s0 (State.cfgMsix s f v) := by
  unfold State.cfgMsix
  repeat' (first
    | with_reducible assumption
    | with_reducible apply State.flushVecs_keeps
    | with_reducible apply State.updFn_keeps)

theorem State.enableVf_keeps {s0 : State} (s : State) (f : Nat) (hs : Keeps s0 s) :
    Keeps s0 (State.enableVf s f) := by
  unfold State.enableVf
  repeat' (first
    | with_reducible assumption
    | with_reducible apply State.updFn_keeps
    | with_reducible refine KeepsFields.of ?_ rfl rfl rfl
    | simp only [Keeps.mk_eq])

theorem State.vfEnable_keeps {s0 : State} (s : State) (hs : Keeps s0 s) :
    Keeps s0 (State.vfEnable s) := by
  unfold State.vfEnable
  repeat' (first
    | with_reducible assumption
    | with_reducible apply State.enableVf_keeps
    | with_reducible apply Keeps.ite
    | with_reducible apply Keeps.foldl
    | with_reducible refine KeepsFields.of ?_ rfl rfl rfl
    | simp only [Keeps.mk_eq])

theorem State.cfgSriov_keeps {s0 : State} (s : State) (v : Word) (hs : Keeps s0 s) :
    Keeps s0 (State.cfgSriov s v) := by
  unfold State.cfgSriov
  repeat' (first
    | with_reducible assumption
    | with_reducible apply State.vfEnable_keeps
    | with_reducible apply State.vfDisable_keeps
    | with_reducible apply Keeps.ite
    | with_reducible refine KeepsFields.of ?_ rfl rfl rfl
    | simp only [Keeps.mk_eq])

theorem State.releaseHeld_keeps {s0 : State} (s : State) (f : Nat) (hs : Keeps s0 s) :
    Keeps s0 (State.releaseHeld s f) := by
  have a : Keeps s0 { s with out := s.out ++ (s.fnSt f).heldOut } := by
    simp only [Keeps.mk_eq]
    exact KeepsFields.emit hs
  unfold State.releaseHeld
  split
  · refine a.upd ?_ rfl ?_ ?_ ?_ ?_ <;> (unfold State.leaveL1; repeat' split) <;> rfl
  · exact hs

theorem State.setBme_keeps {s0 : State} (s : State) (f : Nat) (v : Bool) (hs : Keeps s0 s) :
    Keeps s0 (State.setBme s f v) := by
  unfold State.setBme
  repeat' (first
    | with_reducible assumption
    | with_reducible apply State.releaseHeld_keeps
    | with_reducible apply State.updFn_keeps)

theorem State.cfgWriteFn_keeps {s0 : State} (s : State) (f r : Nat) (v : Word) (hs : Keeps s0 s) :
    Keeps s0 (State.cfgWriteFn s f r v) := by
  unfold State.cfgWriteFn
  repeat' (first
    | with_reducible assumption
    | with_reducible apply State.setBme_keeps
    | with_reducible apply State.updFn_keeps
    | with_reducible apply State.flr_keeps
    | with_reducible apply State.cfgMsix_keeps
    | with_reducible apply Keeps.ite
    | with_reducible refine KeepsFields.of ?_ rfl rfl rfl
    | simp only [Keeps.mk_eq])

theorem State.d3_keeps {s0 : State} (s : State) (hs : Keeps s0 s) :
    Keeps s0 (State.d3 s) := by
  unfold State.d3
  repeat' (first
    | with_reducible assumption
    | with_reducible apply State.retarget_keeps
    | with_reducible refine KeepsFields.of ?_ rfl rfl rfl
    | simp only [Keeps.mk_eq])

theorem State.d0_keeps {s0 : State} (s : State) (hs : Keeps s0 s) :
    Keeps s0 (State.d0 s) := by
  unfold State.d0
  repeat' (first
    | with_reducible assumption
    | with_reducible apply State.wake_keeps
    | with_reducible apply State.releaseHeld_keeps
    | with_reducible apply Keeps.ite
    | with_reducible apply Keeps.foldl
    | with_reducible refine KeepsFields.of ?_ rfl rfl rfl
    | simp only [Keeps.mk_eq])

theorem State.setNumVfs_keeps {s0 : State} (s : State) (v : BitVec 16) (hs : Keeps s0 s) :
    Keeps s0 (State.setNumVfs s v) := by
  unfold State.setNumVfs
  repeat' (first
    | with_reducible assumption
    | with_reducible apply Keeps.ite
    | with_reducible refine KeepsFields.of ?_ rfl rfl rfl
    | simp only [Keeps.mk_eq])

theorem State.cfgWrite_keeps {s0 : State} (s : State) (f r : Nat) (v : Word) (hs : Keeps s0 s) :
    Keeps s0 (State.cfgWrite s f r v) := by
  unfold State.cfgWrite
  repeat' (first
    | with_reducible assumption
    | with_reducible apply State.cfgWriteFn_keeps
    | with_reducible apply State.d3_keeps
    | with_reducible apply State.d0_keeps
    | with_reducible apply State.cfgSriov_keeps
    | with_reducible apply State.setNumVfs_keeps
    | with_reducible apply State.ltrUpdate_keeps
    | with_reducible apply Keeps.ite
    | with_reducible refine KeepsFields.of ?_ rfl rfl rfl
    | simp only [Keeps.mk_eq])

theorem State.markFailed_keeps {s0 : State} (s : State) (run : Nat) (hs : Keeps s0 s) :
    Keeps s0 (State.markFailed s run).1 := by
  unfold State.markFailed
  repeat' (first
    | with_reducible assumption
    | with_reducible apply State.fwMark_keeps
    | simp only [Keeps.mk_eq]
    | split)

theorem State.restartMark_keeps {s0 : State} (s : State) (slot : Nat) (hs : Keeps s0 s) :
    Keeps s0 (State.restartMark s slot) := by
  unfold State.restartMark
  repeat' (first
    | with_reducible assumption
    | with_reducible apply State.programMark_keeps
    | with_reducible apply Keeps.ite
    | with_reducible refine KeepsFields.of ?_ rfl rfl rfl
    | simp only [Keeps.mk_eq])

theorem State.chooseFw_keeps {s0 : State} (s : State) (hs : Keeps s0 s) :
    Keeps s0 (State.chooseFw s).1 := by
  unfold State.chooseFw
  repeat' (first
    | with_reducible assumption
    | with_reducible apply State.markFailed_keeps
    | with_reducible apply State.bootMark_keeps
    | with_reducible apply State.restartMark_keeps
    | with_reducible refine KeepsFields.of ?_ rfl rfl rfl
    | simp only [Keeps.mk_eq]
    | split)

theorem State.queueCmd_keeps {s0 : State} (s : State) (t : Nat) (l : List (Nat × NvmAct)) (p : NvmPlan)
    (hs : Keeps s0 s) :
    Keeps s0 (State.queueCmd s t l p) := by
  unfold State.queueCmd
  repeat' (first
    | with_reducible assumption
    | with_reducible apply State.refreshDoms_keeps
    | with_reducible apply State.updCmd_keeps
    | with_reducible refine KeepsFields.of ?_ rfl rfl rfl
    | simp only [Keeps.mk_eq])

theorem State.updHead_keeps {s0 : State} (s : State) (b : Nat) (g : NvmOp → NvmOp) (hs : Keeps s0 s) :
    Keeps s0 (State.updHead s b g) := by
  unfold State.updHead
  repeat' (first
    | with_reducible assumption
    | with_reducible refine KeepsFields.of ?_ rfl rfl rfl
    | simp only [Keeps.mk_eq])

theorem State.recorded_keeps {s0 : State} (s : State) (o : NvmOp) (hs : Keeps s0 s) :
    Keeps s0 (State.recorded s o) := by
  unfold State.recorded
  repeat' (first
    | with_reducible assumption
    | with_reducible refine KeepsFields.of ?_ rfl rfl rfl
    | simp only [Keeps.mk_eq]
    | split)

theorem State.raiseRollback_keeps {s0 : State} (s : State) (hs : Keeps s0 s) :
    Keeps s0 (State.raiseRollback s) := by
  unfold State.raiseRollback
  split
  · simp only [Keeps.mk_eq]
    exact KeepsFields.rise hs (Nat.le_max_left _ _)
  · exact hs

theorem State.markEnds_keeps {s0 : State} (s : State) (slot kind : Nat) (status : BitVec 16) (hs : Keeps s0 s) :
    Keeps s0 (State.markEnds s slot kind status) := by
  unfold State.markEnds
  repeat' (first
    | with_reducible assumption
    | with_reducible apply State.markLater_keeps
    | with_reducible apply State.raiseRollback_keeps
    | with_reducible apply Keeps.ite)

theorem State.wearDone_keeps {s0 : State} (s : State) (hs : Keeps s0 s) :
    Keeps s0 (State.wearDone s) := by
  unfold State.wearDone
  repeat' (first
    | with_reducible assumption
    | with_reducible apply Keeps.ite
    | with_reducible refine KeepsFields.of ?_ rfl rfl rfl
    | simp only [Keeps.mk_eq])

theorem State.opEnd_keeps {s0 : State} (s : State) (o : NvmOp) (status : BitVec 16) (index : Nat)
    (hs : Keeps s0 s) :
    Keeps s0 (State.opEnd s o status index) := by
  unfold State.opEnd
  repeat' (first
    | with_reducible assumption
    | with_reducible apply State.recorded_keeps
    | with_reducible apply State.finishPlan_keeps
    | with_reducible apply State.markEnds_keeps
    | with_reducible apply State.wearDone_keeps
    | with_reducible apply State.refreshDoms_keeps
    | with_reducible apply Keeps.ite
    | with_reducible refine KeepsFields.of ?_ rfl rfl rfl
    | simp only [Keeps.mk_eq]
    | split)

theorem State.relocateFrom_keeps {s0 : State} (s : State) (o : NvmOp) (l w : Nat) (hs : Keeps s0 s) :
    Keeps s0 (State.relocateFrom s o l w) := by
  unfold State.relocateFrom
  repeat' (first
    | with_reducible assumption
    | with_reducible apply State.readWord_keeps
    | with_reducible apply State.scanRow_keeps
    | with_reducible apply State.updHead_keeps
    | with_reducible apply State.updBlock_keeps
    | with_reducible refine KeepsFields.of ?_ rfl rfl rfl
    | simp only [Keeps.mk_eq]
    | split)

theorem State.copied_keeps {s0 : State} (s : State) (o : NvmOp) (l : Nat) (hs : Keeps s0 s) :
    Keeps s0 (State.copied s o l) := by
  unfold State.copied
  repeat' (first
    | with_reducible assumption
    | with_reducible apply State.charge_keeps
    | with_reducible apply State.updHead_keeps
    | with_reducible apply State.opEnd_keeps
    | with_reducible apply State.updBlock_keeps
    | with_reducible apply State.relocateFrom_keeps
    | simp only [Keeps.mk_eq]
    | split)

theorem State.dueMarks_keeps {s0 : State} (s : State) (hs : Keeps s0 s) :
    Keeps s0 (State.dueMarks s) := by
  unfold State.dueMarks
  exact Keeps.foldl (hs.upd rfl rfl rfl rfl rfl rfl) fun y b hy => State.fwMark_keeps y b.1 b.2 hy

theorem State.enterOp_keeps {s0 : State} (s : State) (b : Nat) (hs : Keeps s0 s) :
    Keeps s0 (State.enterOp s b) := by
  unfold State.enterOp
  repeat' (first
    | with_reducible assumption
    | with_reducible apply State.updHead_keeps
    | with_reducible refine KeepsFields.of ?_ rfl rfl rfl
    | simp only [Keeps.mk_eq])

theorem State.erased_keeps {s0 : State} (s : State) (o : NvmOp) (p : Nat) (hs : Keeps s0 s) :
    Keeps s0 (State.erased s o p) := by
  unfold State.erased
  repeat' (first
    | with_reducible assumption
    | with_reducible apply State.eraseOk_keeps
    | with_reducible apply State.relocateFrom_keeps
    | with_reducible apply State.updHead_keeps
    | with_reducible apply State.opEnd_keeps
    | with_reducible apply Keeps.ite
    | simp only [Keeps.mk_eq]
    | split)

theorem State.flagScan_keeps {s0 : State} (s : State) (b l first n : Nat) (hs : Keeps s0 s) :
    Keeps s0 (State.flagScan s b l first n).1 := by
  unfold State.flagScan
  repeat' (first
    | with_reducible assumption
    | with_reducible apply State.scanRow_keeps
    | with_reducible apply Keeps.foldl
    | intro _)

theorem State.gather_keeps {s0 : State} (s : State) (view : HostView) (p0 : Place) (fn : Nat) (a4 : List NvmPart)
    (hs : Keeps s0 s) :
    Keeps s0 (State.gather s view p0 fn a4).1 := by
  fun_induction State.gather s view p0 fn a4 with
  | case1 s => exact hs
  | case2 s p t r e h =>
    show Keeps s0 r.1
    unfold r
    split
    · exact hs
    · exact State.readPlace_keeps s view _ _ _ hs
  | case3 s p t r d h q ih =>
    refine ih ?_
    unfold r
    split
    · exact hs
    · exact State.readPlace_keeps s view _ _ _ hs

theorem State.noteSlot_keeps {s0 : State} (s : State) (o : NvmOp) (l first : Nat) (b : Bytes) (hs : Keeps s0 s) :
    Keeps s0 (State.noteSlot s o l first b) := by
  unfold State.noteSlot
  repeat' (first
    | with_reducible assumption
    | with_reducible apply Keeps.ite
    | with_reducible refine KeepsFields.of ?_ rfl rfl rfl
    | simp only [Keeps.mk_eq]
    | split)

theorem State.onTurn_keeps {s0 : State} (s : State) (t : Nat) (ops : List Nat) (f : Cmd → State) (hs : Keeps s0 s)
    (hf : ∀ v0, Keeps s0 (f v0)) :
    Keeps s0 (State.onTurn s t ops f) := by
  unfold State.onTurn
  repeat' (first
    | with_reducible assumption
    | with_reducible apply State.onCmd_keeps
    | with_reducible apply Keeps.ite
    | apply_assumption
    | intro _)

theorem State.sourceWord_keeps {s0 : State} (s : State) (view : HostView) (src : NvmSrc) (i : Nat)
    (hs : Keeps s0 s) :
    Keeps s0 (State.sourceWord s view src i).1 := by
  unfold State.sourceWord
  repeat' (first
    | with_reducible assumption
    | with_reducible apply State.readPlace_keeps
    | with_reducible apply State.gather_keeps
    | simp only [Keeps.mk_eq]
    | split)

theorem State.stageWord_keeps {s0 : State} (s : State) (view : HostView) (o : NvmOp) (src : NvmSrc)
    (hs : Keeps s0 s) :
    Keeps s0 (State.stageWord s view o src) := by
  unfold State.stageWord
  repeat' (first
    | with_reducible assumption
    | with_reducible apply State.sourceWord_keeps
    | with_reducible apply State.updHead_keeps
    | with_reducible apply State.opEnd_keeps
    | with_reducible apply Keeps.ite
    | split)

theorem State.relocateStart_keeps {s0 : State} (s : State) (o : NvmOp) (l : Nat) (hs : Keeps s0 s) :
    Keeps s0 (State.relocateStart s o l) := by
  unfold State.relocateStart
  repeat' (first
    | with_reducible assumption
    | with_reducible apply State.relocateFrom_keeps
    | with_reducible apply State.updHead_keeps
    | split)

theorem State.opGo_keeps {s0 : State} (s : State) (o : NvmOp) (view : HostView) (hs : Keeps s0 s) :
    Keeps s0 (State.opGo s o view) := by
  unfold State.opGo
  repeat' (first
    | with_reducible assumption
    | with_reducible apply State.flagScan_keeps
    | with_reducible apply State.setTrb_keeps
    | with_reducible apply State.opEnd_keeps
    | with_reducible apply State.enterOp_keeps
    | with_reducible apply State.noteSlot_keeps
    | with_reducible apply State.stageWord_keeps
    | with_reducible apply State.relocateStart_keeps
    | simp only [Keeps.mk_eq]
    | split)

theorem State.vppEnd_keeps {s0 : State} (s : State) (o : NvmOp) (hs : Keeps s0 s) :
    Keeps s0 (State.vppEnd s o) := by
  unfold State.vppEnd
  repeat' (first
    | with_reducible assumption
    | with_reducible apply State.setTrb_keeps
    | with_reducible apply State.opEnd_keeps)

theorem State.placeOp_keeps {s0 : State} (s : State) (o : NvmOp) (hs : Keeps s0 s) :
    Keeps s0 (State.placeOp s o).1 := by
  unfold State.placeOp
  repeat' (first
    | with_reducible assumption
    | with_reducible refine KeepsFields.of ?_ rfl rfl rfl
    | simp only [Keeps.mk_eq]
    | split)

theorem State.opStart_keeps {s0 : State} (s : State) (o : NvmOp) (view : HostView) (hs : Keeps s0 s) :
    Keeps s0 (State.opStart s o view) := by
  unfold State.opStart
  repeat' (first
    | with_reducible assumption
    | with_reducible apply State.vppEnd_keeps
    | with_reducible apply State.opEnd_keeps
    | with_reducible apply State.opGo_keeps
    | with_reducible apply State.placeOp_keeps
    | with_reducible apply Keeps.ite
    | split)

theorem State.programmed_keeps {s0 : State} (s : State) (o : NvmOp) (l first n : Nat) (src : NvmSrc)
    (view : HostView) (hs : Keeps s0 s) :
    Keeps s0 (State.programmed s o l first n src view) := by
  unfold State.programmed
  repeat' (first
    | with_reducible assumption
    | with_reducible apply State.charge_keeps
    | with_reducible apply State.updHead_keeps
    | with_reducible apply State.opEnd_keeps
    | with_reducible apply State.stageWord_keeps
    | with_reducible apply Keeps.ite
    | simp only [Keeps.mk_eq]
    | split)

theorem State.staleIfFree_keeps {s0 : State} (s : State) (b p : Nat) (hs : Keeps s0 s) :
    Keeps s0 (State.staleIfFree s b p) := by
  unfold State.staleIfFree
  repeat' (first
    | with_reducible assumption
    | with_reducible apply State.updBlock_keeps
    | with_reducible apply Keeps.ite)

theorem State.pulse_keeps {s0 : State} (s : State) (o : NvmOp) (p : Nat) (passed : Bool) (hs : Keeps s0 s) :
    Keeps s0 (State.pulse s o p passed) := by
  unfold State.pulse
  repeat' (first
    | with_reducible assumption
    | with_reducible apply State.erased_keeps
    | with_reducible apply State.opEnd_keeps
    | with_reducible apply State.staleIfFree_keeps
    | with_reducible apply State.eraseBad_keeps
    | with_reducible apply State.updHead_keeps
    | with_reducible apply Keeps.ite)

theorem State.queueWear_keeps {s0 : State} (s : State) (hs : Keeps s0 s) :
    Keeps s0 (State.queueWear s) := by
  unfold State.queueWear
  repeat' (first
    | with_reducible assumption
    | with_reducible apply State.refreshDoms_keeps
    | with_reducible apply Keeps.ite
    | with_reducible refine KeepsFields.of ?_ rfl rfl rfl
    | simp only [Keeps.mk_eq])

theorem State.startAuto_keeps {s0 : State} (s : State) (b : Nat) (a : NvmAct) (w : NvmOwner) (hs : Keeps s0 s) :
    Keeps s0 (State.startAuto s b a w) := by
  unfold State.startAuto
  repeat' (first
    | with_reducible assumption
    | with_reducible apply State.refreshDoms_keeps
    | with_reducible apply State.opStart_keeps
    | with_reducible apply State.queueOp_keeps)

theorem State.staleErase_keeps {s0 : State} (s : State) (b : Nat) (hs : Keeps s0 s) :
    Keeps s0 (State.staleErase s b) := by
  unfold State.staleErase
  repeat' (first
    | with_reducible assumption
    | with_reducible apply State.startAuto_keeps
    | with_reducible apply Keeps.ite
    | split)

theorem State.takeLock_keeps {s0 : State} (s : State) (o : NvmOp) (hs : Keeps s0 s) :
    Keeps s0 (State.takeLock s o) := by
  unfold State.takeLock
  repeat' (first
    | with_reducible assumption
    | with_reducible apply Keeps.ite
    | with_reducible refine KeepsFields.of ?_ rfl rfl rfl
    | simp only [Keeps.mk_eq]
    | split)

theorem State.vppCut_keeps {s0 : State} (s : State) (o : NvmOp) (hs : Keeps s0 s) :
    Keeps s0 (State.vppCut s o) := by
  unfold State.vppCut
  repeat' (first
    | with_reducible assumption
    | with_reducible apply State.cutOp_keeps
    | with_reducible apply State.staleIfFree_keeps
    | with_reducible apply State.vppEnd_keeps
    | split)

theorem execAutoRelocationStart_keeps {s0 : State} (bank : Fin 66) (s : State) (hs : Keeps s0 s) :
    OutcomeKeeps s0 (execAutoRelocationStart bank s) := by
  unfold execAutoRelocationStart
  repeat' (first
    | with_reducible assumption
    | with_reducible apply State.startAuto_keeps
    | with_reducible apply OutcomeKeeps.next
    | with_reducible apply OutcomeKeeps.ite
    | simp only [Keeps.mk_eq]
    | split)

theorem execBadTlp_keeps {s0 : State} (err : LinkError) (s : State) (hs : Keeps s0 s) :
    OutcomeKeeps s0 (execBadTlp err s) := by
  unfold execBadTlp
  repeat' (first
    | with_reducible assumption
    | with_reducible apply State.aer_keeps
    | with_reducible apply State.parity_keeps
    | with_reducible apply State.logUr_keeps
    | with_reducible apply OutcomeKeeps.next
    | simp only [Keeps.mk_eq]
    | split)

theorem execBoot_keeps {s0 : State} (gibA gibB : Nat) (trained : Bool) (bad : List (Fin 64)) (speed : BitVec 4)
    (width : BitVec 5) (s : State) (hs : Keeps s0 s) :
    OutcomeKeeps s0 (execBoot gibA gibB trained bad speed width s) := by
  unfold execBoot
  repeat' (first
    | with_reducible assumption
    | with_reducible apply State.chooseFw_keeps
    | with_reducible apply State.bootRun_keeps
    | with_reducible apply OutcomeKeeps.next
    | with_reducible apply OutcomeKeeps.ite
    | with_reducible refine KeepsFields.of ?_ rfl rfl rfl
    | simp only [Keeps.mk_eq]
    | split)

theorem execBusMasterEnable_keeps {s0 : State} (fn : FnId) (value : Bool) (s : State) (hs : Keeps s0 s) :
    OutcomeKeeps s0 (execBusMasterEnable fn value s) := by
  unfold execBusMasterEnable
  repeat' (first
    | with_reducible assumption
    | with_reducible apply State.setBme_keeps
    | with_reducible apply OutcomeKeeps.next
    | with_reducible apply OutcomeKeeps.ite)

theorem execCodeWordProgrammed_keeps {s0 : State} (bank : Fin 66) (view : HostView) (s : State) (hs : Keeps s0 s) :
    OutcomeKeeps s0 (execCodeWordProgrammed bank view s) := by
  unfold execCodeWordProgrammed
  repeat' (first
    | with_reducible assumption
    | with_reducible apply State.unitEnds_keeps
    | with_reducible apply State.opEnd_keeps
    | with_reducible apply State.stageWord_keeps
    | with_reducible apply State.programmed_keeps
    | with_reducible apply State.copied_keeps
    | with_reducible apply OutcomeKeeps.next
    | with_reducible apply OutcomeKeeps.ite
    | split
    | refine Keeps.of_some ?_ (by assumption))

theorem execConfigRequest_keeps {s0 : State} (fn : FnId) (req : CfgReq) (s : State) (hs : Keeps s0 s) :
    OutcomeKeeps s0 (execConfigRequest fn req s) := by
  unfold execConfigRequest
  repeat' (first
    | with_reducible assumption
    | with_reducible apply State.emit_keeps
    | with_reducible apply State.aer_keeps
    | with_reducible apply State.tick_keeps
    | with_reducible apply State.updFn_keeps
    | with_reducible apply State.cfgWrite_keeps
    | with_reducible apply OutcomeKeeps.next
    | with_reducible apply OutcomeKeeps.ite
    | simp only [Keeps.mk_eq]
    | split)

theorem execD0Entry_keeps {s0 : State} (s : State) (hs : Keeps s0 s) :
    OutcomeKeeps s0 (execD0Entry s) := by
  unfold execD0Entry
  repeat' (first
    | with_reducible assumption
    | with_reducible apply State.d0_keeps
    | with_reducible apply OutcomeKeeps.next)

theorem execD3hotEntry_keeps {s0 : State} (s : State) (hs : Keeps s0 s) :
    OutcomeKeeps s0 (execD3hotEntry s) := by
  unfold execD3hotEntry
  repeat' (first
    | with_reducible assumption
    | with_reducible apply State.d3_keeps
    | with_reducible apply OutcomeKeeps.next)

theorem execErasePulseDone_keeps {s0 : State} (bank : Fin 66) (passed : Bool) (s : State) (hs : Keeps s0 s) :
    OutcomeKeeps s0 (execErasePulseDone bank passed s) := by
  unfold execErasePulseDone
  repeat' (first
    | with_reducible assumption
    | with_reducible apply State.unitEnds_keeps
    | with_reducible apply State.pulse_keeps
    | with_reducible apply OutcomeKeeps.next
    | split
    | refine Keeps.of_some ?_ (by assumption))

theorem execFlr_keeps {s0 : State} (fn : FnId) (s : State) (hs : Keeps s0 s) :
    OutcomeKeeps s0 (execFlr fn s) := by
  unfold execFlr
  repeat' (first
    | with_reducible assumption
    | with_reducible apply State.flr_keeps
    | with_reducible apply OutcomeKeeps.next
    | with_reducible apply OutcomeKeeps.ite)

theorem execLinkRetrain_keeps {s0 : State} (speed : BitVec 4) (width : BitVec 5) (s : State) (hs : Keeps s0 s) :
    OutcomeKeeps s0 (execLinkRetrain speed width s) := by
  unfold execLinkRetrain
  repeat' (first
    | with_reducible assumption
    | with_reducible apply State.linkUp_keeps
    | with_reducible apply State.raiseFnEvt_keeps
    | with_reducible apply State.logEvent_keeps
    | with_reducible apply OutcomeKeeps.next
    | with_reducible apply OutcomeKeeps.ite
    | with_reducible apply Keeps.foldl
    | intro _)

theorem execMsixUnmask_keeps {s0 : State} (fn : FnId) (vec : Option (Fin 64)) (s : State) (hs : Keeps s0 s) :
    OutcomeKeeps s0 (execMsixUnmask fn vec s) := by
  unfold execMsixUnmask
  repeat' (first
    | with_reducible assumption
    | with_reducible apply State.flushVecs_keeps
    | with_reducible apply State.updFn_keeps
    | with_reducible apply State.flushPba_keeps
    | with_reducible apply OutcomeKeeps.next
    | with_reducible apply OutcomeKeeps.ite
    | split)

theorem execNumvfsWrite_keeps {s0 : State} (value : BitVec 16) (s : State) (hs : Keeps s0 s) :
    OutcomeKeeps s0 (execNumvfsWrite value s) := by
  unfold execNumvfsWrite
  repeat' (first
    | with_reducible assumption
    | with_reducible apply State.setNumVfs_keeps
    | with_reducible apply OutcomeKeeps.next)

theorem execNvmErase_keeps {s0 : State} (t : Ticket) (s : State) (hs : Keeps s0 s) :
    OutcomeKeeps s0 (execNvmErase t s) := by
  unfold execNvmErase
  repeat' (first
    | with_reducible assumption
    | with_reducible apply State.onTurn_keeps
    | with_reducible apply State.endCmd_keeps
    | with_reducible apply State.queueCmd_keeps
    | with_reducible apply OutcomeKeeps.next
    | with_reducible apply Keeps.ite
    | intro _)

theorem execNvmOpStart_keeps {s0 : State} (bank : Fin 66) (view : HostView) (s : State) (hs : Keeps s0 s) :
    OutcomeKeeps s0 (execNvmOpStart bank view s) := by
  unfold execNvmOpStart
  repeat' (first
    | with_reducible assumption
    | with_reducible apply State.takeLock_keeps
    | with_reducible apply State.opStart_keeps
    | with_reducible apply OutcomeKeeps.next
    | with_reducible apply OutcomeKeeps.ite
    | split)

theorem execNvmProgram_keeps {s0 : State} (t : Ticket) (s : State) (hs : Keeps s0 s) :
    OutcomeKeeps s0 (execNvmProgram t s) := by
  unfold execNvmProgram
  repeat' (first
    | with_reducible assumption
    | with_reducible apply State.onTurn_keeps
    | with_reducible apply State.endCmd_keeps
    | with_reducible apply State.queueCmd_keeps
    | with_reducible apply OutcomeKeeps.next
    | with_reducible apply Keeps.ite
    | intro _
    | split)

theorem execNvmRead_keeps {s0 : State} (t : Ticket) (s : State) (hs : Keeps s0 s) :
    OutcomeKeeps s0 (execNvmRead t s) := by
  unfold execNvmRead
  repeat' (first
    | with_reducible assumption
    | with_reducible apply State.onCmd_keeps
    | with_reducible apply State.endCmd_keeps
    | with_reducible apply State.writePlace_keeps
    | with_reducible apply State.readWords_keeps
    | with_reducible apply State.pd4Read_keeps
    | with_reducible apply OutcomeKeeps.next
    | with_reducible apply Keeps.ite
    | intro _
    | simp only [Keeps.mk_eq]
    | split)

theorem execNvmScrubBlock_keeps {s0 : State} (t : Ticket) (s : State) (hs : Keeps s0 s) :
    OutcomeKeeps s0 (execNvmScrubBlock t s) := by
  unfold execNvmScrubBlock
  repeat' (first
    | with_reducible assumption
    | with_reducible apply State.onTurn_keeps
    | with_reducible apply State.endCmd_keeps
    | with_reducible apply State.queueCmd_keeps
    | with_reducible apply OutcomeKeeps.next
    | with_reducible apply Keeps.ite
    | intro _)

theorem execNvmScrubDue_keeps {s0 : State} (t : Ticket) (s : State) (hs : Keeps s0 s) :
    OutcomeKeeps s0 (execNvmScrubDue t s) := by
  unfold execNvmScrubDue
  repeat' (first
    | with_reducible assumption
    | with_reducible apply State.onTurn_keeps
    | with_reducible apply State.endCmd_keeps
    | with_reducible apply State.queueCmd_keeps
    | with_reducible apply OutcomeKeeps.next
    | with_reducible apply Keeps.ite
    | intro _
    | split)

theorem execNvmStatus_keeps {s0 : State} (t : Ticket) (s : State) (hs : Keeps s0 s) :
    OutcomeKeeps s0 (execNvmStatus t s) := by
  unfold execNvmStatus
  repeat' (first
    | with_reducible assumption
    | with_reducible apply State.onCmd_keeps
    | with_reducible apply State.endCmd_keeps
    | with_reducible apply State.writePlace_keeps
    | with_reducible apply OutcomeKeeps.next
    | with_reducible apply Keeps.ite
    | intro _
    | split)

theorem execPatrolRead_keeps {s0 : State} (bank : Fin 66) (row : BitVec 13) (s : State) (hs : Keeps s0 s) :
    OutcomeKeeps s0 (execPatrolRead bank row s) := by
  unfold execPatrolRead
  repeat' (first
    | with_reducible assumption
    | with_reducible apply State.readWord_keeps
    | with_reducible apply State.scanRow_keeps
    | with_reducible apply OutcomeKeeps.next
    | with_reducible apply OutcomeKeeps.ite
    | with_reducible apply Keeps.foldl
    | intro _)

theorem execRecoveryEntry_keeps {s0 : State} (s : State) (hs : Keeps s0 s) :
    OutcomeKeeps s0 (execRecoveryEntry s) := by
  unfold execRecoveryEntry
  repeat' (first
    | with_reducible assumption
    | with_reducible apply OutcomeKeeps.next
    | with_reducible refine KeepsFields.of ?_ rfl rfl rfl
    | simp only [Keeps.mk_eq])

theorem execSpareErase_keeps {s0 : State} (bank : Fin 66) (s : State) (hs : Keeps s0 s) :
    OutcomeKeeps s0 (execSpareErase bank s) := by
  unfold execSpareErase
  repeat' (first
    | with_reducible assumption
    | with_reducible apply State.staleErase_keeps
    | with_reducible apply OutcomeKeeps.next)

theorem execStaleBlockErase_keeps {s0 : State} (bank : Fin 66) (s : State) (hs : Keeps s0 s) :
    OutcomeKeeps s0 (execStaleBlockErase bank s) := by
  unfold execStaleBlockErase
  repeat' (first
    | with_reducible assumption
    | with_reducible apply State.staleErase_keeps
    | with_reducible apply OutcomeKeeps.next)

theorem execVfDisable_keeps {s0 : State} (s : State) (hs : Keeps s0 s) :
    OutcomeKeeps s0 (execVfDisable s) := by
  unfold execVfDisable
  repeat' (first
    | with_reducible assumption
    | with_reducible apply State.vfDisable_keeps
    | with_reducible apply OutcomeKeeps.next)

theorem execVfEnable_keeps {s0 : State} (s : State) (hs : Keeps s0 s) :
    OutcomeKeeps s0 (execVfEnable s) := by
  unfold execVfEnable
  repeat' (first
    | with_reducible assumption
    | with_reducible apply State.vfEnable_keeps
    | with_reducible apply OutcomeKeeps.next)

theorem execVppLoss_keeps {s0 : State} (s : State) (hs : Keeps s0 s) :
    OutcomeKeeps s0 (execVppLoss s) := by
  unfold execVppLoss
  repeat' (first
    | with_reducible assumption
    | with_reducible apply State.vppCut_keeps
    | with_reducible apply State.retarget_keeps
    | with_reducible apply OutcomeKeeps.next
    | with_reducible apply Keeps.foldl
    | with_reducible refine KeepsFields.of ?_ rfl rfl rfl
    | simp only [Keeps.mk_eq])

theorem execVppOkSet_keeps {s0 : State} (s : State) (hs : Keeps s0 s) :
    OutcomeKeeps s0 (execVppOkSet s) := by
  unfold execVppOkSet
  repeat' (first
    | with_reducible assumption
    | with_reducible apply State.retarget_keeps
    | with_reducible apply State.dueMarks_keeps
    | with_reducible apply OutcomeKeeps.next
    | with_reducible apply OutcomeKeeps.ite
    | with_reducible apply Keeps.ite
    | with_reducible refine KeepsFields.of ?_ rfl rfl rfl
    | simp only [Keeps.mk_eq])

theorem execWearCheckpoint_keeps {s0 : State} (s : State) (hs : Keeps s0 s) :
    OutcomeKeeps s0 (execWearCheckpoint s) := by
  unfold execWearCheckpoint
  repeat' (first
    | with_reducible assumption
    | with_reducible apply State.queueWear_keeps
    | with_reducible apply State.wake_keeps
    | with_reducible apply OutcomeKeeps.next
    | with_reducible apply OutcomeKeeps.ite)

end Sys2Proof.Machine
end

