-- ==== Sys2Proof/Laws/KeepsE.lean ====
section
/-!
SUPPORT. `Keeps` of every operation of Machine/Aperture, Fetch, PeerOps, Bind, LayerRun, Train, Settle.lean.
-/

namespace Sys2Proof.Machine

theorem State.setRun_keeps {s0 : State} (s : State) (k : Nat) (r : Run) (hs : Keeps s0 s) :
    Keeps s0 (State.setRun s k r) := by
  unfold State.setRun
  repeat' (first
    | with_reducible assumption
    | with_reducible refine KeepsFields.of ?_ rfl rfl rfl
    | simp only [Keeps.mk_eq])

theorem State.abandonAuto_keeps {s0 : State} (s : State) (banks : List Nat) (hs : Keeps s0 s) :
    Keeps s0 (State.abandonAuto s banks) := by
  unfold State.abandonAuto
  repeat' (first
    | with_reducible assumption
    | with_reducible refine KeepsFields.of ?_ rfl rfl rfl
    | simp only [Keeps.mk_eq])

theorem State.sacLine_keeps {s0 : State} (s : State) (f o : Nat) (d : Bytes) (poison : Bool) (hs : Keeps s0 s) :
    Keeps s0 (State.sacLine s f o d poison) := by
  unfold State.sacLine
  repeat' (first
    | with_reducible assumption
    | (refine KeepsFields.ofMem ?_ ?_ ?_ ?_ <;> first | (intro h; exact wf_writeBytes h) | (intro h; exact Table.wf_filter h) | (intro h; exact wf_clearRange h) | exact id | skip)
    | simp only [Keeps.mk_eq]
    | split)

theorem State.partWrite_keeps {s0 : State} (s : State) (f o : Nat) (d : Bytes) (poison : Bool) (hs : Keeps s0 s) :
    Keeps s0 (State.partWrite s f o d poison) := by
  unfold State.partWrite
  repeat' (first
    | with_reducible assumption
    | with_reducible apply State.sacLine_keeps
    | with_reducible apply Keeps.foldl
    | intro _)

theorem State.putAt_keeps {s0 : State} (s : State) (f : Nat) (p : Place) (d : Bytes) (poison : Bool)
    (hs : Keeps s0 s) :
    Keeps s0 (State.putAt s f p d poison) := by
  unfold State.putAt
  repeat' (first
    | with_reducible assumption
    | with_reducible apply State.hostWrite_keeps
    | with_reducible apply State.stat_keeps
    | with_reducible apply State.lpWrite_keeps
    | with_reducible apply State.partWrite_keeps
    | split)

theorem State.issueOut_keeps {s0 : State} (s : State) (r : Run) (x : OutLine) (hs : Keeps s0 s) :
    OptKeeps1 s0 (State.issueOut s r x) := by
  unfold State.issueOut
  repeat' (first
    | with_reducible assumption
    | with_reducible apply State.putAt_keeps
    | with_reducible apply OptKeeps1.none
    | with_reducible apply OptKeeps1.some
    | with_reducible apply OptKeeps1.ite
    | simp only [Keeps.mk_eq]
    | split)

theorem State.flushLine_keeps {s0 : State} (s : State) (x : Run) (a2 : Nat) (a3 : OutLine) (hs : Keeps s0 s) :
    Keeps s0 (State.flushLine s x a2 a3).1 := by
  fun_induction State.flushLine s x a2 a3 with
  | case1 => exact hs
  | case2 s x fuel o c t y rest e ih => exact ih (Keeps.of_someP (.ite (State.issueOut_keeps s x o hs) .none) e)
  | case3 s x fuel o c t y e => exact Keeps.of_someP (.ite (State.issueOut_keeps s x o hs) .none) e
  | case4 => exact hs

theorem State.flushSac_keeps {s0 : State} (s : State) (k : Nat) (x : Run) (hs : Keeps s0 s) :
    Keeps s0 (State.flushSac s k x).1 := by
  unfold State.flushSac
  repeat' (first
    | with_reducible assumption
    | with_reducible apply State.flushLine_keeps
    | with_reducible apply State.setRun_keeps
    | with_reducible apply Keeps.foldl1
    | intro _
    | simp only [Keeps.mk_eq]
    | split)

theorem State.tellDrop_keeps {s0 : State} (s : State) (k : Nat) (x : Run) (st : Stop) (hs : Keeps s0 s) :
    Keeps s0 (State.tellDrop s k x st).1 := by
  unfold State.tellDrop
  repeat' (first
    | with_reducible assumption
    | with_reducible apply State.sendCtrl_keeps
    | split)

theorem State.putSac_keeps {s0 : State} (s : State) (x : Run) (stage ref base off : Nat) (d : Bytes) (bad : Bool)
    (hs : Keeps s0 s) :
    Keeps s0 (State.putSac s x stage ref base off d bad).1 := by
  unfold State.putSac
  repeat' (first
    | with_reducible assumption
    | with_reducible apply State.partWrite_keeps
    | simp only [Keeps.mk_eq]
    | split)

theorem State.putRef_keeps {s0 : State} (s : State) (x : Run) (stage : Nat) (f : Ref) (ref off : Nat) (d : Bytes)
    (bad beyond : Bool) (hs : Keeps s0 s) :
    Keeps s0 (State.putRef s x stage f ref off d bad beyond).1 := by
  unfold State.putRef
  repeat' (first
    | with_reducible assumption
    | with_reducible apply State.putSac_keeps
    | with_reducible apply Keeps.foldl1
    | intro _
    | split)

theorem State.putRuns_keeps {s0 : State} (s : State) (x : Run) (stage : Nat) (f : Refs) (r : LayerRec)
    (l : List OutRun) (hs : Keeps s0 s) :
    Keeps s0 (State.putRuns s x stage f r l).1 := by
  unfold State.putRuns
  repeat' (first
    | with_reducible assumption
    | with_reducible apply State.putRef_keeps
    | with_reducible apply Keeps.foldl1
    | intro _)

theorem State.drainCore_keeps {s0 : State} (s : State) (x : Run) (stage : Nat) (f : Refs) (c : Ctx) (core : Nat)
    (b : Box) (hs : Keeps s0 s) :
    Keeps s0 (State.drainCore s x stage f c core b).1 := by
  unfold State.drainCore
  repeat' (first
    | with_reducible assumption
    | with_reducible apply State.putRuns_keeps)

theorem State.drainColumn_keeps {s0 : State} (s : State) (x : Run) (stage col : Nat) (hs : Keeps s0 s) :
    Keeps s0 (State.drainColumn s x stage col).1 := by
  unfold State.drainColumn
  repeat' (first
    | with_reducible assumption
    | with_reducible apply State.drainCore_keeps
    | with_reducible apply Keeps.foldl1
    | intro _
    | simp only [Keeps.mk_eq]
    | split)

theorem State.quenchCol_keeps {s0 : State} (u : State × Run) (stage col : Nat) (hu : Keeps s0 u.1) :
    Keeps s0 (State.quenchCol u stage col).1 := by
  unfold State.quenchCol
  repeat' (first
    | with_reducible assumption
    | with_reducible apply State.drainColumn_keeps
    | simp only [Keeps.mk_eq]
    | split)

theorem State.quench_keeps {s0 : State} (s : State) (x : Run) (hs : Keeps s0 s) :
    Keeps s0 (State.quench s x).1 := by
  unfold State.quench
  exact Keeps.foldl1 hs fun u n hu => Keeps.foldl1 hu fun v j hv => State.quenchCol_keeps v n j hv

theorem State.setToken_keeps {s0 : State} (s : State) (k key : Nat) (v : Token) (hs : Keeps s0 s) :
    Keeps s0 (State.setToken s k key v) := by
  unfold State.setToken
  repeat' (first
    | with_reducible assumption
    | with_reducible apply State.updBind_keeps)

theorem State.freeTokens_keeps {s0 : State} (s : State) (x : Run) (hs : Keeps s0 s) :
    Keeps s0 (State.freeTokens s x) := by
  unfold State.freeTokens
  repeat' (first
    | with_reducible assumption
    | with_reducible apply State.setToken_keeps
    | with_reducible apply Keeps.foldl
    | intro _)

theorem State.repeatLines_keeps {s0 : State} (s : State) (a : Nat) (a2 : List (Nat × Nat × Nat)) (hs : Keeps s0 s) :
    Keeps s0 (State.repeatLines s a a2).1 := by
  fun_induction State.repeatLines s a a2
  all_goals
    repeat' (first
      | with_reducible assumption
      | with_reducible apply State.lpRead_keeps
      | with_reducible apply State.stat_keeps
      | with_reducible apply Keeps.foldl1
      | apply_assumption
      | intro _)

theorem State.holdRepeat_keeps {s0 : State} (s : State) (x : Run) (i : Nat) (hs : Keeps s0 s) :
    Keeps s0 (State.holdRepeat s x i).1 := by
  unfold State.holdRepeat
  repeat' (first
    | with_reducible assumption
    | with_reducible apply State.setFnTrb_keeps
    | with_reducible apply State.repeatLines_keeps
    | simp only [Keeps.mk_eq]
    | split)

theorem State.endServed_keeps {s0 : State} (s : State) (k : Nat) (x : Run) (status : BitVec 16) (hs : Keeps s0 s) :
    Keeps s0 (State.endServed s k x status) := by
  unfold State.endServed
  repeat' (first
    | with_reducible assumption
    | with_reducible apply State.sendCtrl_keeps
    | with_reducible refine KeepsFields.of ?_ rfl rfl rfl
    | simp only [Keeps.mk_eq]
    | split)

theorem State.leaveCapture_keeps {s0 : State} (s : State) (x : Run) (hs : Keeps s0 s) :
    Keeps s0 (State.leaveCapture s x) := by
  unfold State.leaveCapture
  repeat' (first
    | with_reducible assumption
    | with_reducible apply State.writePlace_keeps
    | split)

theorem State.reportFault_keeps {s0 : State} (s : State) (c : Cmd) (x : Run) (hs : Keeps s0 s) :
    Keeps s0 (State.reportFault s c x) := by
  unfold State.reportFault
  repeat' (first
    | with_reducible assumption
    | with_reducible apply State.setFnTrb_keeps
    | with_reducible apply State.logEvent_keeps
    | with_reducible apply Keeps.ite)

theorem State.endRun_keeps {s0 : State} (s : State) (k : Nat) (x : Run) (status : BitVec 16) (r0 r1 : Word)
    (hs : Keeps s0 s) :
    Keeps s0 (State.endRun s k x status r0 r1) := by
  unfold State.endRun
  repeat' (first
    | with_reducible assumption
    | with_reducible apply State.stat_keeps
    | with_reducible apply State.leaveCapture_keeps
    | with_reducible apply State.reportFault_keeps
    | with_reducible apply State.endCmd_keeps
    | with_reducible apply State.updCmd_keeps
    | with_reducible apply State.slotDone_keeps
    | with_reducible refine KeepsFields.of ?_ rfl rfl rfl
    | simp only [Keeps.mk_eq]
    | split)

theorem State.finishStop_keeps {s0 : State} (s : State) (k : Nat) (x : Run) (st : Stop) (hs : Keeps s0 s) :
    Keeps s0 (State.finishStop s k x st) := by
  unfold State.finishStop
  repeat' (first
    | with_reducible assumption
    | with_reducible apply State.endServed_keeps
    | with_reducible apply State.endRun_keeps
    | with_reducible apply State.stat_keeps
    | with_reducible apply Keeps.ite)

theorem State.settleStop_keeps {s0 : State} (s00 : State) (k : Nat) (x0 : Run) (st : Stop) (hs00 : Keeps s0 s00) :
    Keeps s0 (State.settleStop s00 k x0 st) := by
  unfold State.settleStop
  repeat' (first
    | with_reducible assumption
    | with_reducible apply State.closeUpdate_keeps
    | with_reducible apply State.tellDrop_keeps
    | with_reducible apply State.quench_keeps
    | with_reducible apply State.freeTokens_keeps
    | with_reducible apply State.setRun_keeps
    | with_reducible apply State.holdRepeat_keeps
    | with_reducible apply State.finishStop_keeps
    | with_reducible apply Keeps.ite
    | simp only [Keeps.mk_eq]
    | split)

theorem State.extentWords_keeps {s0 : State} (s : State) (bank first w a4 : Nat) (hs : Keeps s0 s) :
    Keeps s0 (State.extentWords s bank first w a4).1 := by
  fun_induction State.extentWords s bank first w a4
  all_goals
    repeat' (first
      | with_reducible assumption
      | with_reducible apply State.readRow_keeps
      | with_reducible apply State.readWord_keeps
      | apply_assumption)

theorem State.extentRead_keeps {s0 : State} (s : State) (pat : Bytes) (bank o len : Nat) (hs : Keeps s0 s) :
    Keeps s0 (State.extentRead s pat bank o len).1 := by
  unfold State.extentRead
  repeat' (first
    | with_reducible assumption
    | with_reducible apply State.extentWords_keeps
    | simp only [Keeps.mk_eq]
    | split)

theorem State.readShares_keeps {s0 : State} (s : State) (pat : Bytes) (i col off share k a7 : Nat)
    (hs : Keeps s0 s) :
    Keeps s0 (State.readShares s pat i col off share k a7).1 := by
  fun_induction State.readShares s pat i col off share k a7
  all_goals
    repeat' (first
      | with_reducible assumption
      | with_reducible apply State.extentRead_keeps
      | apply_assumption)

theorem State.readTile_keeps {s0 : State} (s : State) (pat : Bytes) (i : Nat) (r : LayerRec) (nest : NestRec)
    (col : Nat) (b : Box) (hs : Keeps s0 s) :
    Keeps s0 (State.readTile s pat i r nest col b).1 := by
  unfold State.readTile
  repeat' (first
    | with_reducible assumption
    | with_reducible apply State.readShares_keeps)

theorem State.backWeights_keeps {s0 : State} (s : State) (x : Run) (n layer : Nat) (r : LayerRec)
    (hs : Keeps s0 s) :
    Keeps s0 (State.backWeights s x n layer r).1 := by
  unfold State.backWeights
  repeat' (first
    | with_reducible assumption
    | with_reducible apply State.readTile_keeps
    | with_reducible apply Keeps.foldl1
    | intro _
    | simp only [Keeps.mk_eq]
    | split)

theorem State.backLayers_keeps {s0 : State} (s : State) (x : Run) (tape : Bytes) (a3 : List
    ((Nat × Nat × LayerRec) × Nat)) (hs : Keeps s0 s) :
    Keeps s0 (State.backLayers s x tape a3).1 := by
  fun_induction State.backLayers s x tape a3
  all_goals
    repeat' (first
      | with_reducible assumption
      | with_reducible apply State.backWeights_keeps
      | apply_assumption)

theorem State.readTensors_keeps {s0 : State} (s : State) (f a : Nat) (a3 : List Tensor) (hs : Keeps s0 s) :
    Keeps s0 (State.readTensors s f a a3).1 := by
  fun_induction State.readTensors s f a a3
  all_goals
    repeat' (first
      | with_reducible assumption
      | with_reducible apply State.trainRead_keeps
      | apply_assumption)

theorem State.trainIn_keeps {s0 : State} (s : State) (x : Run) (t : Train) (a targetLen : Nat) (hs : Keeps s0 s) :
    Keeps s0 (State.trainIn s x t a targetLen).1 := by
  unfold State.trainIn
  repeat' (first
    | with_reducible assumption
    | with_reducible apply State.trainRead_keeps
    | with_reducible apply State.backLayers_keeps
    | with_reducible apply State.readTensors_keeps
    | with_reducible apply State.tick_keeps)

theorem State.backDrift_keeps {s0 : State} (s : State) (x : Run) (a2 : List (BackLayer × BackOut))
    (hs : Keeps s0 s) :
    Keeps s0 (State.backDrift s x a2).1 := by
  fun_induction State.backDrift s x a2
  all_goals
    repeat' (first
      | with_reducible assumption
      | with_reducible apply State.logEvent_keeps
      | with_reducible apply State.stat_keeps
      | apply_assumption)

theorem State.putGrad_keeps {s0 : State} (s : State) (x : Run) (t : Train) (a : Nat) (bad : Bool) (p : Tensor)
    (g : List F32) (hs : Keeps s0 s) :
    Keeps s0 (State.putGrad s x t a bad p g) := by
  unfold State.putGrad
  repeat' (first
    | with_reducible assumption
    | with_reducible apply State.trainRead_keeps
    | with_reducible apply State.trainWrite_keeps
    | split)

theorem State.beginUpdate_keeps {s0 : State} (s : State) (x : Run) (t : Train) (a : Nat) (ps : List Tensor)
    (hs : Keeps s0 s) :
    Keeps s0 (State.beginUpdate s x t a ps).1 := by
  unfold State.beginUpdate
  repeat' (first
    | with_reducible assumption
    | with_reducible apply State.endUpdate_keeps
    | simp only [Keeps.mk_eq]
    | split)

theorem State.trainEnd_keeps {s0 : State} (s : State) (x : Run) (targetLen : Nat) (hs : Keeps s0 s) :
    Keeps s0 (State.trainEnd s x targetLen).1 := by
  unfold State.trainEnd
  repeat' (first
    | with_reducible assumption
    | with_reducible apply State.trainIn_keeps
    | with_reducible apply State.backDrift_keeps
    | with_reducible apply State.putGrad_keeps
    | with_reducible apply State.beginUpdate_keeps
    | with_reducible apply State.trainWrite_keeps
    | with_reducible apply Keeps.foldl
    | intro _
    | simp only [Keeps.mk_eq]
    | split)

theorem State.beforeEnd_keeps {s0 : State} (s : State) (x : Run) (hs : Keeps s0 s) :
    OptKeeps1 s0 (State.beforeEnd s x) := by
  unfold State.beforeEnd
  split
  · exact .some hs
  · refine ⟨fun p e => ?_⟩
    obtain ⟨n, -, rfl⟩ := Option.map_eq_some_iff.mp e
    exact State.trainEnd_keeps s x n hs

theorem State.holdCopy_keeps {s0 : State} (s : State) (x : Run) (i : Nat) (hs : Keeps s0 s) :
    Keeps s0 (State.holdCopy s x i).1 := by
  unfold State.holdCopy
  repeat' (first
    | with_reducible assumption
    | with_reducible apply State.setFnTrb_keeps
    | with_reducible apply State.updSlot_keeps
    | simp only [Keeps.mk_eq]
    | split)

theorem State.writeMap_keeps {s0 : State} (s : State) (x : Run) (hs : Keeps s0 s) :
    OptKeeps s0 (State.writeMap s x) := by
  unfold State.writeMap
  repeat' (first
    | with_reducible assumption
    | with_reducible apply State.writePlace_keeps
    | with_reducible apply OptKeeps.none
    | with_reducible apply OptKeeps.some
    | with_reducible apply OptKeeps.ite
    | simp only [Keeps.mk_eq]
    | split)

theorem State.finishOk_keeps {s0 : State} (s : State) (k : Nat) (x : Run) (hs : Keeps s0 s) :
    Keeps s0 (State.finishOk s k x) := by
  unfold State.finishOk
  repeat' (first
    | with_reducible assumption
    | with_reducible apply State.endServed_keeps
    | with_reducible apply State.endRun_keeps
    | with_reducible apply Keeps.ite)

theorem State.settleDone_keeps {s0 : State} (s : State) (k : Nat) (x : Run) (hs : Keeps s0 s) :
    Keeps s0 (State.settleDone s k x) := by
  unfold State.settleDone
  repeat' (first
    | with_reducible assumption
    | with_reducible apply State.beforeEnd_keeps
    | with_reducible apply State.holdCopy_keeps
    | with_reducible apply State.setRun_keeps
    | with_reducible apply State.writeMap_keeps
    | with_reducible apply State.finishOk_keeps
    | with_reducible apply Keeps.ite
    | simp only [Keeps.mk_eq]
    | split
    | refine Keeps.of_some ?_ (by assumption)
    | refine Keeps.of_someP ?_ (by assumption))

theorem State.settle_keeps {s0 : State} (s : State) (k : Nat) (hs : Keeps s0 s) :
    Keeps s0 (State.settle s k) := by
  unfold State.settle
  repeat' (first
    | with_reducible assumption
    | with_reducible apply State.flushSac_keeps
    | with_reducible apply State.settleStop_keeps
    | with_reducible apply State.settleDone_keeps
    | simp only [Keeps.mk_eq]
    | split)

theorem State.updRun_keeps {s0 : State} (s : State) (k : Nat) (g : Run → Run) (hs : Keeps s0 s) :
    Keeps s0 (State.updRun s k g) := by
  unfold State.updRun
  repeat' (first
    | with_reducible assumption
    | with_reducible apply State.setRun_keeps
    | split)

theorem State.stopRun_keeps {s0 : State} (s : State) (k : Nat) (st : Stop) (hs : Keeps s0 s) :
    Keeps s0 (State.stopRun s k st) := by
  unfold State.stopRun
  repeat' (first
    | with_reducible assumption
    | with_reducible apply State.settle_keeps
    | with_reducible apply State.updRun_keeps)

theorem State.bindFails_keeps {s0 : State} (s : State) (k : Nat) (status : BitVec 16) (hs : Keeps s0 s) :
    Keeps s0 (State.bindFails s k status) := by
  unfold State.bindFails
  repeat' (first
    | with_reducible assumption
    | with_reducible apply State.endCmd_keeps
    | with_reducible apply State.freeBinding_keeps
    | split)

theorem State.extentReads_keeps {s0 : State} (s : State) (pat : Bytes) (bank : Nat) (hs : Keeps s0 s) :
    Keeps s0 (State.extentReads s pat bank) := by
  unfold State.extentReads
  repeat' (first
    | with_reducible assumption
    | with_reducible apply State.readWord_keeps
    | with_reducible apply State.scanRow_keeps
    | with_reducible apply Keeps.foldl
    | intro _)

theorem State.allocate_keeps {s0 : State} (s : State) (q : BindReq) (hs : Keeps s0 s) :
    OptKeeps1 s0 (State.allocate s q) := by
  unfold State.allocate
  repeat' (first
    | with_reducible assumption
    | with_reducible apply State.refreshDoms_keeps
    | with_reducible apply OptKeeps1.none
    | with_reducible apply OptKeeps1.some
    | with_reducible apply OptKeeps1.ite
    | with_reducible refine KeepsFields.of ?_ rfl rfl rfl
    | simp only [Keeps.mk_eq]
    | split)

theorem State.bindCore_keeps {s0 : State} (s : State) (q : BindReq) (hs : Keeps s0 s) :
    BindKeeps s0 (State.bindCore s q) := by
  unfold State.bindCore
  repeat' (first
    | with_reducible assumption
    | with_reducible apply State.abandonAuto_keeps
    | with_reducible apply State.extentReads_keeps
    | with_reducible apply State.setTrb_keeps
    | with_reducible apply State.allocate_keeps
    | with_reducible apply BindKeeps.refuse
    | with_reducible apply BindKeeps.wait
    | with_reducible apply BindKeeps.done
    | with_reducible apply BindKeeps.ite
    | with_reducible apply Keeps.foldl
    | intro _
    | split
    | refine Keeps.of_someP ?_ (by assumption))

theorem State.serveBind_keeps {s0 : State} (s : State) (lead : Nat) (h : Word) (id chips : Nat) (d2 d3 : Word)
    (hs : Keeps s0 s) :
    Keeps s0 (State.serveBind s lead h id chips d2 d3).1 := by
  unfold State.serveBind
  repeat' (first
    | with_reducible assumption
    | with_reducible apply State.sendCtrl_keeps
    | with_reducible apply State.tick_keeps
    | with_reducible apply State.bindCore_keeps
    | with_reducible apply State.updBind_keeps
    | simp only [Keeps.mk_eq]
    | split
    | refine BindKeeps.of_refuse ?_ (by assumption)
    | refine BindKeeps.of_wait ?_ (by assumption)
    | refine BindKeeps.of_done ?_ (by assumption))

theorem State.partLost_keeps {s0 : State} (s : State) (k c : Nat) (hs : Keeps s0 s) :
    Keeps s0 (State.partLost s k c) := by
  unfold State.partLost
  repeat' (first
    | with_reducible assumption
    | with_reducible apply State.updBind_keeps
    | with_reducible refine KeepsFields.of ?_ rfl rfl rfl
    | simp only [Keeps.mk_eq]
    | split)

theorem State.partAnswer_keeps {s0 : State} (s : State) (k c : Nat) (status : BitVec 16) (hs : Keeps s0 s) :
    Keeps s0 (State.partAnswer s k c status) := by
  unfold State.partAnswer
  repeat' (first
    | with_reducible assumption
    | with_reducible apply State.bindFails_keeps
    | with_reducible apply State.updBind_keeps
    | with_reducible apply State.endCmd_keeps
    | with_reducible apply State.partLost_keeps
    | with_reducible apply Keeps.ite
    | simp only [Keeps.mk_eq]
    | split)

theorem State.aptDenied_keeps {s0 : State} (s : State) (hs : Keeps s0 s) :
    Keeps s0 (State.aptDenied s) := by
  unfold State.aptDenied
  repeat' (first
    | with_reducible assumption
    | with_reducible refine KeepsFields.of ?_ rfl rfl rfl
    | simp only [Keeps.mk_eq])

theorem State.aptUnmapped_keeps {s0 : State} (s : State) (hs : Keeps s0 s) :
    Keeps s0 (State.aptUnmapped s) := by
  unfold State.aptUnmapped
  repeat' (first
    | with_reducible assumption
    | with_reducible refine KeepsFields.of ?_ rfl rfl rfl
    | simp only [Keeps.mk_eq])

theorem State.lpPiece_keeps {s0 : State} (s : State) (a n : Nat) (hs : Keeps s0 s) :
    Keeps s0 (State.lpPiece s a n).1 := by
  unfold State.lpPiece
  repeat' (first
    | with_reducible assumption
    | with_reducible apply State.lpTouchAll_keeps
    | with_reducible apply State.perfAdd_keeps)

theorem State.nvmPiece_keeps {s0 : State} (s : State) (b o n : Nat) (hs : Keeps s0 s) :
    Keeps s0 (State.nvmPiece s b o n).1 := by
  unfold State.nvmPiece
  repeat' (first
    | with_reducible assumption
    | with_reducible apply State.readWord_keeps
    | with_reducible apply State.readRow_keeps
    | with_reducible apply State.pd4Read_keeps
    | simp only [Keeps.mk_eq]
    | split)

theorem State.wayBytes_keeps {s0 : State} (s : State) (v o n : Nat) (hs : Keeps s0 s) :
    Keeps s0 (State.wayBytes s v o n).1 := by
  unfold State.wayBytes
  repeat' (first
    | with_reducible assumption
    | with_reducible apply State.tick_keeps
    | split)

theorem State.sacPiece_keeps {s0 : State} (s : State) (v o n : Nat) (hs : Keeps s0 s) :
    Keeps s0 (State.sacPiece s v o n).1 := by
  unfold State.sacPiece
  repeat' (first
    | with_reducible assumption
    | with_reducible apply State.wayBytes_keeps)

theorem State.devPiece_keeps {s0 : State} (s : State) (a n : Nat) (hs : Keeps s0 s) :
    Keeps s0 (State.devPiece s a n).1 := by
  unfold State.devPiece
  split
  · exact State.lpPiece_keeps s a n hs
  · exact State.nvmPiece_keeps s _ _ n hs
  · split
    · exact State.sacPiece_keeps s _ _ n hs
    · exact State.aptDenied_keeps s hs
  · split
    · exact hs
    · exact State.aptDenied_keeps s hs
  · exact State.aptUnmapped_keeps s hs

theorem State.devRead_keeps {s0 : State} (s : State) (a1 a2 a3 : Nat) (hs : Keeps s0 s) :
    Keeps s0 (State.devRead s a1 a2 a3).1 := by
  fun_induction State.devRead s a1 a2 a3
  all_goals
    repeat' (first
      | with_reducible assumption
      | with_reducible apply State.devPiece_keeps
      | apply_assumption)

theorem State.bar2Read_keeps {s0 : State} (s : State) (o n : Nat) (hs : Keeps s0 s) :
    Keeps s0 (State.bar2Read s o n) := by
  unfold State.bar2Read
  repeat' (first
    | with_reducible assumption
    | with_reducible apply State.emit_keeps
    | with_reducible apply State.logUr_keeps
    | with_reducible apply State.devRead_keeps
    | with_reducible apply State.wake_keeps
    | simp only [Keeps.mk_eq]
    | split)

theorem State.sacWrite_keeps {s0 : State} (s : State) (v o : Nat) (d : Bytes) (hs : Keeps s0 s) :
    Keeps s0 (State.sacWrite s v o d) := by
  unfold State.sacWrite
  repeat' (first
    | with_reducible assumption
    | (refine KeepsFields.ofMem ?_ ?_ ?_ ?_ <;> first | (intro h; exact wf_writeBytes h) | (intro h; exact Table.wf_filter h) | (intro h; exact wf_clearRange h) | exact id | skip)
    | simp only [Keeps.mk_eq])

theorem State.devPut_keeps {s0 : State} (s : State) (a : Nat) (d : Bytes) (free : Bool) (hs : Keeps s0 s) :
    Keeps s0 (State.devPut s a d free) := by
  unfold State.devPut
  split
  · exact State.lpWrite_keeps s a d false hs
  · exact hs
  · split
    · exact State.aptDenied_keeps s hs
    · split
      · exact State.sacWrite_keeps s _ _ d hs
      · exact hs
  · split
    · exact State.aptDenied_keeps s hs
    · simp only [Keeps.mk_eq]
      exact KeepsFields.ofMem hs id id fun h => wf_writeBytes h
  · exact State.aptUnmapped_keeps s hs

theorem State.devWrite_keeps {s0 : State} (s : State) (free : Bool) (a2 a3 : Nat) (a4 : Bytes) (hs : Keeps s0 s) :
    Keeps s0 (State.devWrite s free a2 a3 a4) := by
  fun_induction State.devWrite s free a2 a3 a4
  all_goals
    repeat' (first
      | with_reducible assumption
      | with_reducible apply State.devPut_keeps
      | apply_assumption)

theorem State.bar2Write_keeps {s0 : State} (s : State) (o : Nat) (d : Bytes) (hs : Keeps s0 s) :
    Keeps s0 (State.bar2Write s o d) := by
  unfold State.bar2Write
  repeat' (first
    | with_reducible assumption
    | with_reducible apply State.logUr_keeps
    | with_reducible apply State.devWrite_keeps
    | with_reducible apply State.wake_keeps
    | split)

theorem State.bindParts_keeps {s0 : State} (s : State) (t k : Nat) (q : BindReq) (held : Nat) (hs : Keeps s0 s) :
    Keeps s0 (State.bindParts s t k q held) := by
  unfold State.bindParts
  repeat' (first
    | with_reducible assumption
    | with_reducible apply State.endCmd_keeps
    | with_reducible apply State.freeBinding_keeps
    | with_reducible apply State.updBind_keeps
    | with_reducible apply State.updCmd_keeps
    | with_reducible apply State.sendCtrl_keeps
    | with_reducible apply Keeps.ite
    | with_reducible apply Keeps.foldl
    | intro _
    | simp only [Keeps.mk_eq]
    | split)

theorem State.bindGo_keeps {s0 : State} (s : State) (t : Nat) (q : BindReq) (hs : Keeps s0 s) :
    Keeps s0 (State.bindGo s t q) := by
  unfold State.bindGo
  repeat' (first
    | with_reducible assumption
    | with_reducible apply State.endCmd_keeps
    | with_reducible apply State.bindCore_keeps
    | with_reducible apply State.bindParts_keeps
    | with_reducible apply Keeps.ite
    | split
    | refine BindKeeps.of_refuse ?_ (by assumption)
    | refine BindKeeps.of_wait ?_ (by assumption)
    | refine BindKeeps.of_done ?_ (by assumption))

theorem State.readBurst_keeps {s0 : State} (s : State) (view : HostView) (f : Nat) (p : Place) (n : Nat)
    (hs : Keeps s0 s) :
    Keeps s0 (State.readBurst s view f p n).1 := by
  unfold State.readBurst
  repeat' (first
    | with_reducible assumption
    | with_reducible apply State.readPlace_keeps
    | with_reducible apply State.lpRead_keeps
    | with_reducible apply State.stat_keeps
    | simp only [Keeps.mk_eq]
    | split)

theorem State.loadBurst_keeps {s0 : State} (s : State) (view : HostView) (r : Run) (stage buf i : Nat)
    (hs : Keeps s0 s) :
    Keeps s0 (State.loadBurst s view r stage buf i).1 := by
  unfold State.loadBurst
  repeat' (first
    | with_reducible assumption
    | with_reducible apply State.readBurst_keeps
    | simp only [Keeps.mk_eq]
    | split)

theorem State.moveLine_keeps {s0 : State} (s : State) (k : Nat) (r : Run) (stage buf n start : Nat) (b : Block)
    (p : Place) (o want : Nat) (hs : Keeps s0 s) :
    Keeps s0 (State.moveLine s k r stage buf n start b p o want).1 := by
  unfold State.moveLine
  repeat' (first
    | with_reducible assumption
    | with_reducible apply State.lpRead_keeps
    | with_reducible apply State.stat_keeps
    | with_reducible apply State.issueRead_keeps
    | with_reducible apply State.perfAdd_keeps
    | simp only [Keeps.mk_eq]
    | split)

theorem State.peerEvent_keeps {s0 : State} (s : State) (c : Nat) (live : Bool) (epoch : Word) (hs : Keeps s0 s) :
    Keeps s0 (State.peerEvent s c live epoch) := by
  unfold State.peerEvent
  repeat' (first
    | with_reducible assumption
    | with_reducible apply State.raiseDevEvt_keeps
    | with_reducible apply State.logEvent_keeps)

theorem State.peerSeen_keeps {s0 : State} (s : State) (c i : Nat) (hs : Keeps s0 s) :
    Keeps s0 (State.peerSeen s c i) := by
  unfold State.peerSeen
  repeat' (first
    | with_reducible assumption
    | with_reducible apply State.updPeer_keeps
    | with_reducible apply State.peerEvent_keeps
    | with_reducible apply Keeps.ite)

theorem State.leadLost_keeps {s0 : State} (s : State) (c : Nat) (hs : Keeps s0 s) :
    Keeps s0 (State.leadLost s c) := by
  unfold State.leadLost
  repeat' (first
    | with_reducible assumption
    | with_reducible apply State.freeBinding_keeps
    | with_reducible apply Keeps.foldl
    | with_reducible refine KeepsFields.of ?_ rfl rfl rfl
    | intro _
    | simp only [Keeps.mk_eq])

theorem State.peerDown_keeps {s0 : State} (s : State) (c : Nat) (hs : Keeps s0 s) :
    Keeps s0 (State.peerDown s c) := by
  unfold State.peerDown
  repeat' (first
    | with_reducible assumption
    | with_reducible apply State.peerEvent_keeps
    | with_reducible apply State.updPeer_keeps
    | with_reducible apply State.leadLost_keeps
    | with_reducible apply State.partAnswer_keeps
    | with_reducible apply Keeps.ite
    | with_reducible apply Keeps.foldl
    | with_reducible refine KeepsFields.of ?_ rfl rfl rfl
    | intro _
    | simp only [Keeps.mk_eq])

theorem State.pathLost_keeps {s0 : State} (s : State) (i : Nat) (hs : Keeps s0 s) :
    Keeps s0 (State.pathLost s i) := by
  unfold State.pathLost
  refine Keeps.foldl (hs.upd rfl rfl rfl rfl rfl rfl) fun y b hy => ?_
  exact Keeps.ite (State.peerDown_keeps y b hy) hy

theorem State.portDown_keeps {s0 : State} (s : State) (i reason : Nat) (hs : Keeps s0 s) :
    Keeps s0 (State.portDown s i reason) := by
  unfold State.portDown
  repeat' (first
    | with_reducible assumption
    | with_reducible apply State.pathLost_keeps
    | with_reducible apply State.portOff_keeps
    | with_reducible apply Keeps.ite)

theorem State.settleAll_keeps {s0 : State} (s : State) (hs : Keeps s0 s) :
    Keeps s0 (State.settleAll s) := by
  unfold State.settleAll
  repeat' (first
    | with_reducible assumption
    | with_reducible apply State.settle_keeps
    | with_reducible apply Keeps.foldl)

theorem execBar2Read_keeps {s0 : State} (offset : BitVec 28) (len : Nat) (s : State) (hs : Keeps s0 s) :
    OutcomeKeeps s0 (execBar2Read offset len s) := by
  unfold execBar2Read
  repeat' (first
    | with_reducible assumption
    | with_reducible apply State.bar2Read_keeps
    | with_reducible apply OutcomeKeeps.next)

theorem execBar2Write_keeps {s0 : State} (offset : BitVec 28) (data : Bytes) (s : State) (hs : Keeps s0 s) :
    OutcomeKeeps s0 (execBar2Write offset data s) := by
  unfold execBar2Write
  repeat' (first
    | with_reducible assumption
    | with_reducible apply State.bar2Write_keeps
    | with_reducible apply OutcomeKeeps.next)

theorem execBindingReleaseDone_keeps {s0 : State} (fn : FnId) (index : Fin 64) (s : State) (hs : Keeps s0 s) :
    OutcomeKeeps s0 (execBindingReleaseDone fn index s) := by
  unfold execBindingReleaseDone
  repeat' (first
    | with_reducible assumption
    | with_reducible apply State.retarget_keeps
    | with_reducible apply State.endCmd_keeps
    | with_reducible apply State.freeBinding_keeps
    | with_reducible apply OutcomeKeeps.next
    | with_reducible apply OutcomeKeeps.ite
    | simp only [Keeps.mk_eq]
    | split)

theorem execPatternBind_keeps {s0 : State} (t : Ticket) (s : State) (hs : Keeps s0 s) :
    OutcomeKeeps s0 (execPatternBind t s) := by
  unfold execPatternBind
  repeat' (first
    | with_reducible assumption
    | with_reducible apply State.onTurn_keeps
    | with_reducible apply State.endCmd_keeps
    | with_reducible apply State.bindGo_keeps
    | with_reducible apply OutcomeKeeps.next
    | with_reducible apply Keeps.ite
    | intro _
    | split)

theorem execPatternRelease_keeps {s0 : State} (t : Ticket) (s : State) (hs : Keeps s0 s) :
    OutcomeKeeps s0 (execPatternRelease t s) := by
  unfold execPatternRelease
  repeat' (first
    | with_reducible assumption
    | with_reducible apply State.onCmd_keeps
    | with_reducible apply State.endCmd_keeps
    | with_reducible apply State.updCmd_keeps
    | with_reducible apply State.updBind_keeps
    | with_reducible apply OutcomeKeeps.next
    | with_reducible apply Keeps.ite
    | intro _
    | split)

theorem execQuery_keeps {s0 : State} (t : Ticket) (s : State) (hs : Keeps s0 s) :
    OutcomeKeeps s0 (execQuery t s) := by
  unfold execQuery
  repeat' (first
    | with_reducible assumption
    | with_reducible apply State.onCmd_keeps
    | with_reducible apply State.endCmd_keeps
    | with_reducible apply OutcomeKeeps.next
    | with_reducible apply Keeps.ite
    | intro _
    | split)

end Sys2Proof.Machine
end

