-- ==== Sys2Proof/Laws/KeepsF.lean ====
section
/-!
SUPPORT. `Keeps` of every operation of Machine/Stages, Wheel, RunCmd.lean.
-/

namespace Sys2Proof.Machine

theorem Cmd.lightInput_keeps {s0 : State} (c : Cmd) (a : LightArgs) (s : State) (x : Run) (hs : Keeps s0 s) :
    PrepKeeps s0 (Cmd.lightInput c a s x) := by
  unfold Cmd.lightInput
  repeat' (first
    | with_reducible assumption
    | with_reducible apply PrepKeeps.bad
    | with_reducible apply PrepKeeps.good
    | simp only [Keeps.mk_eq]
    | split)

theorem Cmd.lightOutput_keeps {s0 : State} (c : Cmd) (a : LightArgs) (s : State) (x : Run) (hs : Keeps s0 s) :
    PrepKeeps s0 (Cmd.lightOutput c a s x) := by
  unfold Cmd.lightOutput
  repeat' (first
    | with_reducible assumption
    | with_reducible apply PrepKeeps.bad
    | with_reducible apply PrepKeeps.good
    | split)

theorem Cmd.prepAdapter_keeps {s0 : State} (c : Cmd) (s : State) (x : Run) (hs : Keeps s0 s) :
    PrepKeeps s0 (Cmd.prepAdapter c s x) := by
  unfold Cmd.prepAdapter
  repeat' (first
    | with_reducible assumption
    | with_reducible apply PrepKeeps.bad
    | with_reducible apply PrepKeeps.good
    | with_reducible apply PrepKeeps.ite
    | simp only [Keeps.mk_eq]
    | split)

theorem Cmd.prepMap_keeps {s0 : State} (c : Cmd) (lo : Nat) (s : State) (x : Run) (hs : Keeps s0 s) :
    PrepKeeps s0 (Cmd.prepMap c lo s x) := by
  unfold Cmd.prepMap
  repeat' (first
    | with_reducible assumption
    | with_reducible apply PrepKeeps.bad
    | with_reducible apply PrepKeeps.good
    | with_reducible apply PrepKeeps.ite)

theorem Cmd.tabBuffer_keeps {s0 : State} (c : Cmd) (t : Bytes) (i : Nat) (s : State) (x : Run) (hs : Keeps s0 s) :
    PrepKeeps s0 (Cmd.tabBuffer c t i s x) := by
  unfold Cmd.tabBuffer
  repeat' (first
    | with_reducible assumption
    | with_reducible apply PrepKeeps.bad
    | with_reducible apply PrepKeeps.good
    | with_reducible apply PrepKeeps.ite
    | split)

theorem Prep.then_keeps {s0 : State} (p : Prep) (f : State → Run → Prep) (hp : PrepKeeps s0 p)
    (hf : ∀ v0 v1, Keeps s0 v0 → PrepKeeps s0 (f v0 v1)) :
    PrepKeeps s0 (Prep.then p f) := by
  cases p with
  | bad t st => exact hp
  | good t x =>
    cases hp
    exact hf t x ‹_›

theorem Prep.check_keeps {s0 : State} (p : Prep) (g : State → Run → Bool) (st : BitVec 16) (hp : PrepKeeps s0 p) :
    PrepKeeps s0 (Prep.check p g st) := by
  unfold Prep.check
  repeat' (first
    | with_reducible assumption
    | with_reducible apply Prep.then_keeps
    | with_reducible apply PrepKeeps.bad
    | with_reducible apply PrepKeeps.good
    | with_reducible apply PrepKeeps.ite
    | intro _)

theorem Prep.each_keeps {s0 : State} {a0 : Type} (p : Prep) (l : List α) (f : α → State → Run → Prep)
    (hp : PrepKeeps s0 p) (hf : ∀ v0 v1 v2, Keeps s0 v1 → PrepKeeps s0 (f v0 v1 v2)) :
    PrepKeeps s0 (Prep.each p l f) := by
  unfold Prep.each
  repeat' (first
    | with_reducible assumption
    | with_reducible apply Prep.then_keeps
    | with_reducible apply PrepKeeps.foldl
    | apply_assumption
    | intro _)

theorem State.dropRx_keeps {s0 : State} (s : State) (port : Nat) (f : Bytes) (hs : Keeps s0 s) :
    Keeps s0 (State.dropRx s port f) := by
  unfold State.dropRx
  repeat' (first
    | with_reducible assumption
    | with_reducible apply State.sendBare_keeps
    | with_reducible apply State.updPort_keeps)

theorem State.takeSlots_keeps {s0 : State} (s : State) (x : Run) (hs : Keeps s0 s) :
    Keeps s0 (State.takeSlots s x).1 := by
  unfold State.takeSlots
  repeat' (first
    | with_reducible assumption
    | with_reducible apply State.updBind_keeps)

theorem State.afterTile_keeps {s0 : State} (s : State) (x : Run) (n col : Nat) (c : Ctx) (hs : Keeps s0 s) :
    Keeps s0 (State.afterTile s x n col c).1 := by
  unfold State.afterTile
  repeat' (first
    | with_reducible assumption
    | with_reducible apply State.drainColumn_keeps
    | simp only [Keeps.mk_eq]
    | split)

theorem State.askMove_keeps {s0 : State} (s : State) (x : Run) (buf o want : Nat) (hs : Keeps s0 s) :
    Keeps s0 (State.askMove s x buf o want).1 := by
  unfold State.askMove
  repeat' (first
    | with_reducible assumption
    | with_reducible apply State.sendCtrl_keeps
    | simp only [Keeps.mk_eq]
    | split)

theorem State.assignFrame_keeps {s0 : State} (s : State) (k : Nat) (x : Run) (hs : Keeps s0 s) :
    Keeps s0 (State.assignFrame s k x).1 := by
  unfold State.assignFrame
  repeat' (first
    | with_reducible assumption
    | with_reducible apply State.updBind_keeps
    | with_reducible apply State.sendCtrl_keeps
    | simp only [Keeps.mk_eq]
    | split)

theorem State.endUnstarted_keeps {s0 : State} (s : State) (t : Nat) (x : Run) (status : BitVec 16)
    (hs : Keeps s0 s) :
    Keeps s0 (State.endUnstarted s t x status) := by
  unfold State.endUnstarted
  repeat' (first
    | with_reducible assumption
    | with_reducible apply State.endCmd_keeps
    | with_reducible apply State.updCmd_keeps)

theorem State.beginRun_keeps {s0 : State} (s : State) (t : Nat) (c : Cmd) (x : Run) (hs : Keeps s0 s) :
    Keeps s0 (State.beginRun s t c x) := by
  unfold State.beginRun
  repeat' (first
    | with_reducible assumption
    | with_reducible apply State.takeSlots_keeps
    | with_reducible apply State.assignFrame_keeps
    | with_reducible apply State.endUnstarted_keeps
    | with_reducible apply State.updCmd_keeps
    | with_reducible apply State.setRun_keeps
    | with_reducible apply Keeps.ite
    | split)

theorem State.burstNow_keeps {s0 : State} (s : State) (view : HostView) (x : Run) (buf i : Nat) (hs : Keeps s0 s) :
    OptKeeps1 s0 (State.burstNow s view x buf i) := by
  unfold State.burstNow
  repeat' (first
    | with_reducible assumption
    | with_reducible apply State.readPlace_keeps
    | with_reducible apply OptKeeps1.none
    | with_reducible apply OptKeeps1.some
    | simp only [Keeps.mk_eq]
    | split)

theorem State.cacheNew_keeps {s0 : State} (s : State) (k key : Nat) (hs : Keeps s0 s) :
    Keeps s0 (State.cacheNew s k key) := by
  unfold State.cacheNew
  repeat' (first
    | with_reducible assumption
    | with_reducible apply State.cachePut_keeps
    | with_reducible apply Keeps.foldl
    | intro _
    | simp only [Keeps.mk_eq]
    | split)

theorem State.sacHits_keeps {s0 : State} (s : State) (n : Nat) (hs : Keeps s0 s) :
    Keeps s0 (State.sacHits s n) := by
  unfold State.sacHits
  repeat' (first
    | with_reducible assumption
    | with_reducible apply State.perfAdd_keeps
    | with_reducible refine KeepsFields.of ?_ rfl rfl rfl
    | simp only [Keeps.mk_eq])

theorem State.cachedLine_keeps {s0 : State} (s : State) (f line : Nat) (hs : Keeps s0 s) :
    Keeps s0 (State.cachedLine s f line).1 := by
  unfold State.cachedLine
  repeat' (first
    | with_reducible assumption
    | with_reducible apply State.sacHits_keeps
    | with_reducible apply State.lpRead_keeps
    | with_reducible apply State.perfAdd_keeps
    | with_reducible apply State.stat_keeps
    | with_reducible apply State.cachePut_keeps
    | simp only [Keeps.mk_eq]
    | split)

theorem State.readMove_keeps {s0 : State} (s : State) (view : HostView) (k : Nat) (x : Run) (stage buf o want : Nat)
    (hs : Keeps s0 s) :
    Keeps s0 (State.readMove s view k x stage buf o want).1 := by
  unfold State.readMove
  repeat' (first
    | with_reducible assumption
    | with_reducible apply State.loadBurst_keeps
    | with_reducible apply State.moveLine_keeps
    | with_reducible apply State.perfAdd_keeps
    | with_reducible apply State.cacheNew_keeps
    | with_reducible apply State.setRun_keeps
    | simp only [Keeps.mk_eq]
    | split)

theorem State.sendPiece_keeps {s0 : State} (s : State) (dst key buf off : Nat) (d : Bytes) (poison up : Bool)
    (hs : Keeps s0 s) :
    Keeps s0 (State.sendPiece s dst key buf off d poison up) := by
  unfold State.sendPiece
  repeat' (first
    | with_reducible assumption
    | with_reducible apply State.sendLine_keeps
    | with_reducible apply State.sendCtrl_keeps
    | with_reducible refine KeepsFields.of ?_ rfl rfl rfl
    | simp only [Keeps.mk_eq])

theorem State.upMove_keeps {s0 : State} (s : State) (x : Run) (i : Nat) (hs : Keeps s0 s) :
    Keeps s0 (State.upMove s x i).1 := by
  unfold State.upMove
  repeat' (first
    | with_reducible assumption
    | with_reducible apply State.sendPiece_keeps
    | with_reducible apply Keeps.ite
    | split)

theorem State.outMove_keeps {s0 : State} (s : State) (view : HostView) (x : Run) (i : Nat) (hs : Keeps s0 s) :
    Keeps s0 (State.outMove s view x i).1 := by
  unfold State.outMove
  repeat' (first
    | with_reducible assumption
    | with_reducible apply State.stat_keeps
    | with_reducible apply State.lpWrite_keeps
    | with_reducible apply State.issueOut_keeps
    | with_reducible apply State.loadBurst_keeps
    | simp only [Keeps.mk_eq]
    | split
    | refine Keeps.of_someP ?_ (by assumption))

theorem State.copyMove_keeps {s0 : State} (s : State) (view : HostView) (x : Run) (hs : Keeps s0 s) :
    Keeps s0 (State.copyMove s view x).1 := by
  unfold State.copyMove
  repeat' (first
    | with_reducible assumption
    | with_reducible apply State.loadBurst_keeps
    | with_reducible apply State.putAt_keeps
    | simp only [Keeps.mk_eq]
    | split)

theorem State.sendMove_keeps {s0 : State} (s : State) (k : Nat) (x : Run) (hs : Keeps s0 s) :
    Keeps s0 (State.sendMove s k x).1 := by
  unfold State.sendMove
  repeat' (first
    | with_reducible assumption
    | with_reducible apply State.sendPiece_keeps
    | simp only [Keeps.mk_eq]
    | split)

theorem State.makeMove_keeps {s0 : State} (s : State) (view : HostView) (k : Nat) (x : Run) (m : Move)
    (hs : Keeps s0 s) :
    Keeps s0 (State.makeMove s view k x m).1 := by
  unfold State.makeMove
  repeat' (first
    | with_reducible assumption
    | with_reducible apply State.readMove_keeps
    | with_reducible apply State.loadBurst_keeps
    | with_reducible apply State.upMove_keeps
    | with_reducible apply State.outMove_keeps
    | with_reducible apply State.copyMove_keeps
    | with_reducible apply State.sendMove_keeps
    | with_reducible apply State.askMove_keeps
    | split)

theorem State.countOver_keeps {s0 : State} (s : State) (x : Run) (n : Nat) (f : Refs) (c : Ctx) (b : Box)
    (hs : Keeps s0 s) :
    Keeps s0 (State.countOver s x n f c b).1 := by
  unfold State.countOver
  repeat' (first
    | with_reducible assumption
    | with_reducible apply State.setFnTrb_keeps
    | with_reducible apply State.stat_keeps
    | simp only [Keeps.mk_eq]
    | split)

theorem State.useChan_keeps {s0 : State} (s : State) (c : Chan) (n : Nat) (hs : Keeps s0 s) :
    Keeps s0 (State.useChan s c n) := by
  unfold State.useChan
  repeat' (first
    | with_reducible assumption
    | with_reducible refine KeepsFields.of ?_ rfl rfl rfl
    | simp only [Keeps.mk_eq])

theorem State.deliver_keeps {s0 : State} (s : State) (f : Bytes) (hs : Keeps s0 s) :
    Keeps s0 (State.deliver s f) := by
  unfold State.deliver
  repeat' (first
    | with_reducible assumption
    | with_reducible apply State.settle_keeps
    | with_reducible apply State.setRun_keeps
    | with_reducible apply State.useChan_keeps
    | simp only [Keeps.mk_eq]
    | split)

theorem State.dropCopies_keeps {s0 : State} (s : State) (x : Run) (r : LayerRec) (hs : Keeps s0 s) :
    Keeps s0 (State.dropCopies s x r) := by
  unfold State.dropCopies
  repeat' (first
    | with_reducible assumption
    | with_reducible apply State.emptyCache_keeps
    | with_reducible apply Keeps.ite)

theorem State.jobCompute_keeps {s0 : State} (s : State) (x : Run) (f : Refs) (c : Ctx) (badW : List Nat)
    (j : LoadJob) (hs : Keeps s0 s) :
    Keeps s0 (State.jobCompute s x f c badW j).1 := by
  unfold State.jobCompute
  simp only [Keeps.mk_eq]
  exact KeepsFields.ofMem hs id id fun h => State.computeTile_wf s x f c j.core j.box badW h

theorem State.endCompute_keeps {s0 : State} (s : State) (k : Nat) (x : Run) (n col : Nat) (c : Ctx) (b : Box)
    (hs : Keeps s0 s) :
    Keeps s0 (State.endCompute s k x n col c b) := by
  unfold State.endCompute
  repeat' (first
    | with_reducible assumption
    | with_reducible apply State.jobCompute_keeps
    | with_reducible apply State.afterTile_keeps
    | with_reducible apply State.settle_keeps
    | with_reducible apply State.setRun_keeps
    | with_reducible apply Keeps.foldl1
    | intro _)

theorem State.layerTrace_keeps {s0 : State} (s : State) (x : Run) (n aux : Nat) (hs : Keeps s0 s) :
    Keeps s0 (State.layerTrace s x n aux) := by
  unfold State.layerTrace
  repeat' (first
    | with_reducible assumption
    | with_reducible apply State.traceEmit_keeps)

theorem State.setTokenOf_keeps {s0 : State} (s : State) (k : Nat) (q : Option Nat) (v : Token) (hs : Keeps s0 s) :
    Keeps s0 (State.setTokenOf s k q v) := by
  unfold State.setTokenOf
  repeat' (first
    | with_reducible assumption
    | with_reducible apply State.setToken_keeps
    | split)

theorem State.passTokens_keeps {s0 : State} (s : State) (x : Run) (n : Nat) (hs : Keeps s0 s) :
    Keeps s0 (State.passTokens s x n).1 := by
  unfold State.passTokens
  repeat' (first
    | with_reducible assumption
    | with_reducible apply State.setTokenOf_keeps)

theorem State.passLayer_keeps {s0 : State} (s : State) (k : Nat) (x : Run) (n : Nat) (hs : Keeps s0 s) :
    Keeps s0 (State.passLayer s k x n) := by
  unfold State.passLayer
  repeat' (first
    | with_reducible assumption
    | with_reducible apply State.passTokens_keeps
    | with_reducible apply State.settle_keeps
    | with_reducible apply State.setRun_keeps)

theorem State.startRerun_keeps {s0 : State} (s00 : State) (k : Nat) (x : Run) (n : Nat) (hs00 : Keeps s0 s00) :
    Keeps s0 (State.startRerun s00 k x n) := by
  unfold State.startRerun
  repeat' (first
    | with_reducible assumption
    | with_reducible apply State.dropCopies_keeps
    | with_reducible apply State.layerTrace_keeps
    | with_reducible apply State.stat_keeps
    | with_reducible apply State.setRun_keeps)

theorem State.reportDrift_keeps {s0 : State} (s : State) (x : Run) (n : Nat) (rerun : Bool) (hs : Keeps s0 s) :
    Keeps s0 (State.reportDrift s x n rerun) := by
  unfold State.reportDrift
  repeat' (first
    | with_reducible assumption
    | with_reducible apply State.logEvent_keeps
    | with_reducible apply State.layerTrace_keeps
    | with_reducible apply State.stat_keeps)

theorem State.endLayer_keeps {s0 : State} (s : State) (k : Nat) (x0 : Run) (n : Nat) (hs : Keeps s0 s) :
    Keeps s0 (State.endLayer s k x0 n) := by
  unfold State.endLayer
  repeat' (first
    | with_reducible assumption
    | with_reducible apply State.layerTrace_keeps
    | with_reducible apply State.tick_keeps
    | with_reducible apply State.passLayer_keeps
    | with_reducible apply State.startRerun_keeps
    | with_reducible apply State.reportDrift_keeps
    | with_reducible apply Keeps.ite
    | split)

theorem State.stagePiece_keeps {s0 : State} (s : State) (x : Run) (n core : Nat) (nest : NestRec) (level off : Nat)
    (l : List (Byte × Bool)) (hs : Keeps s0 s) :
    Keeps s0 (State.stagePiece s x n core nest level off l).1 := by
  unfold State.stagePiece
  repeat' (first
    | with_reducible assumption
    | with_reducible apply State.putSac_keeps
    | with_reducible apply Keeps.foldl1
    | intro _
    | simp only [Keeps.mk_eq]
    | split)

theorem State.stageLevel_keeps {s0 : State} (s : State) (x : Run) (p : PieceRec) (n col : Nat) (c : Ctx)
    (level : Nat) (g : Box → List (Nat × List (Byte × Bool))) (b : Box) (hs : Keeps s0 s) :
    Keeps s0 (State.stageLevel s x p n col c level g b).1 := by
  unfold State.stageLevel
  repeat' (first
    | with_reducible assumption
    | with_reducible apply State.stagePiece_keeps
    | with_reducible apply Keeps.foldl1
    | intro _)

theorem State.stageTile_keeps {s0 : State} (s : State) (x : Run) (n col tile : Nat) (f : Refs) (c : Ctx)
    (hs : Keeps s0 s) :
    Keeps s0 (State.stageTile s x n col tile f c).1 := by
  unfold State.stageTile
  repeat' (first
    | with_reducible assumption
    | with_reducible apply State.stageLevel_keeps
    | simp only [Keeps.mk_eq]
    | split)

theorem State.jobLoad_keeps {s0 : State} (s : State) (x : Run) (f : Refs) (c : Ctx) (old : Option Box) (j : LoadJob)
    (hs : Keeps s0 s) :
    Keeps s0 (State.jobLoad s x f c old j).1 := by
  unfold State.jobLoad
  apply State.putRuns_keeps
  simp only [Keeps.mk_eq]
  exact KeepsFields.ofMem hs id id fun h => Ctx.loadSteps_wf c j.core _ _ _ h

theorem State.endLoad_keeps {s0 : State} (s : State) (k : Nat) (x : Run) (n col : Nat) (c : Ctx) (b : Box)
    (l : List Need) (hs : Keeps s0 s) :
    Keeps s0 (State.endLoad s k x n col c b l) := by
  unfold State.endLoad
  repeat' (first
    | with_reducible assumption
    | with_reducible apply State.countOver_keeps
    | with_reducible apply State.sacHits_keeps
    | with_reducible apply State.stageTile_keeps
    | with_reducible apply State.jobLoad_keeps
    | with_reducible apply State.setRun_keeps
    | with_reducible apply Keeps.foldl1
    | intro _)

theorem State.fetchNext_keeps {s0 : State} (s : State) (x : Run) (n col : Nat) (hs : Keeps s0 s) :
    Keeps s0 (State.fetchNext s x n col).1 := by
  unfold State.fetchNext
  repeat' (first
    | with_reducible assumption
    | with_reducible apply State.readTile_keeps
    | simp only [Keeps.mk_eq]
    | split)

theorem State.readRanges_keeps {s0 : State} (s : State) (f : Nat) (l : List (Nat × Nat)) (hs : Keeps s0 s) :
    Keeps s0 (State.readRanges s f l).1 := by
  unfold State.readRanges
  repeat' (first
    | with_reducible assumption
    | with_reducible apply State.cachedLine_keeps
    | with_reducible apply Keeps.foldl1
    | intro _)

theorem State.grantAdapter_keeps {s0 : State} (s : State) (k : Nat) (x : Run) (n col : Nat) (c : Ctx) (b : Box)
    (hs : Keeps s0 s) :
    Keeps s0 (State.grantAdapter s k x n col c b).1 := by
  unfold State.grantAdapter
  repeat' (first
    | with_reducible assumption
    | with_reducible apply State.readRanges_keeps
    | with_reducible apply State.setRun_keeps
    | simp only [Keeps.mk_eq]
    | split)

theorem State.grantNext_keeps {s0 : State} (s : State) (x : Run) (n col : Nat) (c : Ctx) (hs : Keeps s0 s) :
    Keeps s0 (State.grantNext s x n col c).1 := by
  unfold State.grantNext
  repeat' (first
    | with_reducible assumption
    | with_reducible apply State.fetchNext_keeps
    | split)

theorem State.grantWeights_keeps {s0 : State} (s : State) (x : Run) (n col : Nat) (c : Ctx) (b : Box)
    (hs : Keeps s0 s) :
    Keeps s0 (State.grantWeights s x n col c b).1 := by
  unfold State.grantWeights
  repeat' (first
    | with_reducible assumption
    | with_reducible apply State.readTile_keeps
    | simp only [Keeps.mk_eq]
    | split)

theorem State.grantTile_keeps {s0 : State} (s : State) (k : Nat) (x : Run) (n col : Nat) (c : Ctx) (b : Box)
    (hs : Keeps s0 s) :
    Keeps s0 (State.grantTile s k x n col c b) := by
  unfold State.grantTile
  repeat' (first
    | with_reducible assumption
    | with_reducible apply State.grantWeights_keeps
    | with_reducible apply State.grantAdapter_keeps
    | with_reducible apply State.grantNext_keeps
    | with_reducible apply State.setRun_keeps)

theorem State.landNext_keeps {s0 : State} (s : State) (x : Run) (n col core : Nat) (hs : Keeps s0 s) :
    Keeps s0 (State.landNext s x n col core) := by
  unfold State.landNext
  split
  · simp only [Keeps.mk_eq]
    exact KeepsFields.ofMem hs id id fun h => cPut_wf h
  · exact hs

theorem State.landEmpty_keeps {s0 : State} (s : State) (x : Run) (n : Nat) (hs : Keeps s0 s) :
    Keeps s0 (State.landEmpty s x n).1 := by
  unfold State.landEmpty
  repeat' (first
    | with_reducible assumption
    | with_reducible apply State.fetchNext_keeps
    | with_reducible apply State.landNext_keeps
    | with_reducible apply Keeps.foldl
    | with_reducible apply Keeps.foldl1
    | intro _
    | simp only [Keeps.mk_eq]
    | split)

theorem State.launch_keeps {s0 : State} (s00 : State) (t : Nat) (c : Cmd) (p : Prep) (hs00 : Keeps s0 s00)
    (hp : PrepKeeps s0 p) :
    Keeps s0 (State.launch s00 t c p) := by
  unfold State.launch
  repeat' (first
    | with_reducible apply State.endCmd_keeps
    | with_reducible apply State.endUnstarted_keeps
    | with_reducible apply State.beginRun_keeps
    | with_reducible apply Keeps.ite
    | split
    | exact PrepKeeps.of_bad (by assumption) rfl
    | exact PrepKeeps.of_good (by assumption) rfl)

theorem State.lightPieces_keeps {s0 : State} (s : State) (x : Run) (hs : Keeps s0 s) :
    PrepKeeps s0 (State.lightPieces s x) := by
  unfold State.lightPieces
  repeat' (first
    | with_reducible assumption
    | with_reducible apply PrepKeeps.bad
    | with_reducible apply PrepKeeps.good
    | simp only [Keeps.mk_eq]
    | split)

theorem State.onBind_keeps {s0 : State} (s : State) (t : Nat) (ops : List Nat) (f : Cmd → State) (hs : Keeps s0 s)
    (hf : ∀ v0, Keeps s0 (f v0)) :
    Keeps s0 (State.onBind s t ops f) := by
  unfold State.onBind
  repeat' (first
    | with_reducible assumption
    | with_reducible apply State.onCmd_keeps
    | with_reducible apply Keeps.ite
    | apply_assumption
    | intro _)

theorem State.passGate_keeps {s0 : State} (s : State) (k : Nat) (x : Run) (n : Nat) (hs : Keeps s0 s) :
    Keeps s0 (State.passGate s k x n) := by
  unfold State.passGate
  repeat' (first
    | with_reducible assumption
    | with_reducible apply State.setTokenOf_keeps
    | with_reducible apply State.setRun_keeps)

theorem State.prepPieces_keeps {s0 : State} (s : State) (x : Run) (hs : Keeps s0 s) :
    PrepKeeps s0 (State.prepPieces s x) := by
  unfold State.prepPieces
  repeat' (first
    | with_reducible assumption
    | with_reducible apply PrepKeeps.bad
    | with_reducible apply PrepKeeps.good
    | with_reducible apply PrepKeeps.ite
    | simp only [Keeps.mk_eq]
    | split)

theorem State.prepTable_keeps {s0 : State} (s : State) (view : HostView) (c : Cmd) (lo : Nat) (from' : Nat)
    (x : Run) (hs : Keeps s0 s) :
    PrepKeeps s0 (State.prepTable s view c lo from' x) := by
  unfold State.prepTable
  split
  · exact .good hs
  split
  · exact .bad hs
  · have h := State.readPlace_keeps (s0 := s0) s view c.fn ‹_› (16 * x.nbuf) hs
    dsimp only
    split
    · exact .bad h
    · exact Prep.each_keeps (a0 := Nat) _ _ _ (.good h) fun _ t y ht => Cmd.tabBuffer_keeps c _ _ t y ht

theorem checkSpan_keeps {s0 : State} (view : HostView) (c : Cmd) (buf a3 a4 a5 : Nat) (a6 : State) (a7 : Run)
    (ha6 : Keeps s0 a6) :
    PrepKeeps s0 (checkSpan view c buf a3 a4 a5 a6 a7) := by
  induction a3 generalizing a4 a6 a7 with
  | zero => exact .good ha6
  | succ fuel ih =>
    rw [checkSpan]
    split
    · exact .good ha6
    · split
      · exact .bad ha6
      · split
        · exact .bad ha6
        · exact ih _ _ _ (Keeps.of_someP (State.burstNow_keeps a6 view a7 buf _ ha6) ‹_›)
      · split
        · exact .bad ha6
        · split
          · exact .bad ha6
          · exact ih _ _ _ ha6

theorem State.prepLists_keeps {s0 : State} (s : State) (view : HostView) (c : Cmd) (x : Run) (hs : Keeps s0 s) :
    PrepKeeps s0 (State.prepLists s view c x) := by
  unfold State.prepLists
  exact Prep.each_keeps (a0 := Nat × Nat × Nat) _ _ _ (.good hs) fun _ t y ht => checkSpan_keeps view c _ _ _ _ t y ht

theorem State.prepLight_keeps {s0 : State} (s : State) (c : Cmd) (k : Nat) (hs : Keeps s0 s) :
    PrepKeeps s0 (State.prepLight s c k) := by
  unfold State.prepLight
  repeat' (first
    | with_reducible assumption
    | with_reducible apply Prep.then_keeps
    | with_reducible apply Prep.check_keeps
    | with_reducible apply State.lightPieces_keeps
    | with_reducible apply Cmd.lightInput_keeps
    | with_reducible apply Cmd.lightOutput_keeps
    | with_reducible apply Cmd.prepAdapter_keeps
    | with_reducible apply PrepKeeps.bad
    | with_reducible apply PrepKeeps.ite
    | simp only [Keeps.mk_eq]
    | split)

theorem State.prepRun_keeps {s0 : State} (s : State) (view : HostView) (c : Cmd) (k : Nat) (hs : Keeps s0 s) :
    PrepKeeps s0 (State.prepRun s view c k) := by
  unfold State.prepRun
  repeat' (first
    | with_reducible assumption
    | with_reducible apply Prep.then_keeps
    | with_reducible apply State.prepPieces_keeps
    | with_reducible apply Cmd.prepMap_keeps
    | with_reducible apply State.prepTable_keeps
    | with_reducible apply Cmd.prepAdapter_keeps
    | with_reducible apply State.prepLists_keeps
    | with_reducible apply PrepKeeps.bad
    | with_reducible apply PrepKeeps.ite
    | intro _
    | simp only [Keeps.mk_eq]
    | split)

theorem State.pullOne_keeps {s0 : State} (s : State) (x : Run) (stage buf o : Nat) (hs : Keeps s0 s) :
    OptKeeps1 s0 (State.pullOne s x stage buf o) := by
  unfold State.pullOne
  split
  · dsimp only
    split
    · exact .none
    · have e (o : Option (Bytes × Bool)) (y : Bytes × Bool → Run) : OptKeeps1 s0 (o.map fun d => (s, y d)) :=
        ⟨fun p h => by
          obtain ⟨d, -, rfl⟩ := Option.map_eq_some_iff.mp h
          exact hs⟩
      split
      · exact .some hs
      · exact .ite .none (e _ _)
      · exact .ite .none (e _ _)
  · exact .none

theorem State.pullRun_keeps {s0 : State} (s : State) (e k a3 : Nat) (hs : Keeps s0 s) :
    Keeps s0 (State.pullRun s e k a3) := by
  fun_induction State.pullRun s e k a3
  all_goals
    repeat' (first
      | with_reducible assumption
      | with_reducible apply State.pullOne_keeps
      | with_reducible apply State.settle_keeps
      | with_reducible apply State.setRun_keeps
      | apply_assumption
      | refine Keeps.of_someP ?_ (by assumption))

theorem State.pullAll_keeps {s0 : State} (s : State) (e : Nat) (hs : Keeps s0 s) :
    Keeps s0 (State.pullAll s e) := by
  unfold State.pullAll
  repeat' (first
    | with_reducible assumption
    | with_reducible apply State.pullRun_keeps
    | with_reducible apply Keeps.foldl
    | intro _)

theorem State.readLayer_keeps {s0 : State} (s : State) (x : Run) (n : Nat) (hs : Keeps s0 s) :
    Keeps s0 (State.readLayer s x n).1 := by
  unfold State.readLayer
  repeat' (first
    | with_reducible assumption
    | with_reducible apply State.extentRead_keeps)

theorem State.runOn_keeps {s0 : State} (s : State) (t : Nat) (c : Cmd) (p : Nat → Prep) (hs : Keeps s0 s)
    (hp : ∀ v0, PrepKeeps s0 (p v0)) :
    Keeps s0 (State.runOn s t c p) := by
  unfold State.runOn
  repeat' (first
    | with_reducible assumption
    | with_reducible apply State.endCmd_keeps
    | with_reducible apply State.launch_keeps
    | apply_assumption
    | split)

theorem State.setRegs_keeps {s0 : State} (s : State) (l : List Nat) (r : LayerRec) (tab : Bytes) (hs : Keeps s0 s) :
    Keeps s0 (State.setRegs s l r tab) := by
  unfold State.setRegs
  repeat' (first
    | with_reducible assumption
    | with_reducible refine KeepsFields.of ?_ rfl rfl rfl
    | simp only [Keeps.mk_eq])

theorem State.startLayer_keeps {s0 : State} (s : State) (k : Nat) (x : Run) (n : Nat) (hs : Keeps s0 s) :
    Keeps s0 (State.startLayer s k x n) := by
  unfold State.startLayer
  repeat' (first
    | with_reducible assumption
    | with_reducible apply State.readLayer_keeps
    | with_reducible apply State.settle_keeps
    | with_reducible apply State.setRun_keeps
    | with_reducible apply State.perfAdd_keeps
    | with_reducible apply State.setRegs_keeps
    | with_reducible apply State.landEmpty_keeps
    | with_reducible apply State.layerTrace_keeps
    | with_reducible apply Keeps.ite)

theorem execChain_keeps {s0 : State} (t : Ticket) (view : HostView) (s : State) (hs : Keeps s0 s) :
    OutcomeKeeps s0 (execChain t view s) := by
  unfold execChain
  repeat' (first
    | with_reducible assumption
    | with_reducible apply State.orWait_keeps
    | with_reducible apply State.onBind_keeps
    | with_reducible apply State.runOn_keeps
    | with_reducible apply State.prepRun_keeps
    | with_reducible apply OutcomeKeeps.next
    | intro _)

theorem execComputePhaseEnd_keeps {s0 : State} (t : RunId) (stage : Fin 8) (col : Fin 8) (s : State)
    (hs : Keeps s0 s) :
    OutcomeKeeps s0 (execComputePhaseEnd t stage col s) := by
  unfold execComputePhaseEnd
  repeat' (first
    | with_reducible assumption
    | with_reducible apply State.endCompute_keeps
    | with_reducible apply OutcomeKeeps.next
    | with_reducible apply OutcomeKeeps.ite
    | simp only [Keeps.mk_eq]
    | split)

theorem execLayerDrainEnd_keeps {s0 : State} (t : RunId) (stage : Fin 8) (s : State) (hs : Keeps s0 s) :
    OutcomeKeeps s0 (execLayerDrainEnd t stage s) := by
  unfold execLayerDrainEnd
  repeat' (first
    | with_reducible assumption
    | with_reducible apply State.endLayer_keeps
    | with_reducible apply OutcomeKeeps.next
    | with_reducible apply OutcomeKeeps.ite
    | split)

theorem execLayerStart_keeps {s0 : State} (t : RunId) (stage : Fin 8) (s : State) (hs : Keeps s0 s) :
    OutcomeKeeps s0 (execLayerStart t stage s) := by
  unfold execLayerStart
  repeat' (first
    | with_reducible assumption
    | with_reducible apply State.startLayer_keeps
    | with_reducible apply OutcomeKeeps.next
    | with_reducible apply OutcomeKeeps.ite
    | split)

theorem execLoadPhaseEnd_keeps {s0 : State} (t : RunId) (stage : Fin 8) (col : Fin 8) (s : State)
    (hs : Keeps s0 s) :
    OutcomeKeeps s0 (execLoadPhaseEnd t stage col s) := by
  unfold execLoadPhaseEnd
  repeat' (first
    | with_reducible assumption
    | with_reducible apply State.settle_keeps
    | with_reducible apply State.endLoad_keeps
    | with_reducible apply OutcomeKeeps.next
    | with_reducible apply OutcomeKeeps.ite
    | simp only [Keeps.mk_eq]
    | split)

theorem execRun_keeps {s0 : State} (t : Ticket) (view : HostView) (s : State) (hs : Keeps s0 s) :
    OutcomeKeeps s0 (execRun t view s) := by
  unfold execRun
  repeat' (first
    | with_reducible assumption
    | with_reducible apply State.orWait_keeps
    | with_reducible apply State.onBind_keeps
    | with_reducible apply State.runOn_keeps
    | with_reducible apply State.prepRun_keeps
    | with_reducible apply OutcomeKeeps.next
    | with_reducible apply Keeps.ite
    | intro _)

theorem execRunLight_keeps {s0 : State} (t : Ticket) (s : State) (hs : Keeps s0 s) :
    OutcomeKeeps s0 (execRunLight t s) := by
  unfold execRunLight
  repeat' (first
    | with_reducible assumption
    | with_reducible apply State.onBind_keeps
    | with_reducible apply State.runOn_keeps
    | with_reducible apply State.prepLight_keeps
    | with_reducible apply OutcomeKeeps.next
    | with_reducible apply Keeps.ite
    | intro _)

theorem execStageStart_keeps {s0 : State} (t : RunId) (stage : Fin 8) (s : State) (hs : Keeps s0 s) :
    OutcomeKeeps s0 (execStageStart t stage s) := by
  unfold execStageStart
  repeat' (first
    | with_reducible assumption
    | with_reducible apply State.stopRun_keeps
    | with_reducible apply State.passGate_keeps
    | with_reducible apply State.setRun_keeps
    | with_reducible apply OutcomeKeeps.next
    | with_reducible apply OutcomeKeeps.ite
    | split)

theorem execTileGrant_keeps {s0 : State} (t : RunId) (stage : Fin 8) (col : Fin 8) (s : State) (hs : Keeps s0 s) :
    OutcomeKeeps s0 (execTileGrant t stage col s) := by
  unfold execTileGrant
  repeat' (first
    | with_reducible assumption
    | with_reducible apply State.grantTile_keeps
    | with_reducible apply OutcomeKeeps.next
    | with_reducible apply OutcomeKeeps.ite
    | simp only [Keeps.mk_eq]
    | split)

end Sys2Proof.Machine
end

