-- ==== Sys2Proof/Laws/KeepsG.lean ====
section
/-!
SUPPORT. `Keeps` of every operation of Machine/Adapt, Stream, Csi, Weft, WheelSlot.lean.
-/

namespace Sys2Proof.Machine

theorem Cmd.copyBuffer_keeps {s0 : State} (c : Cmd) (i lo : Nat) (s : State) (x : Run) (hs : Keeps s0 s) :
    PrepKeeps s0 (Cmd.copyBuffer c i lo s x) := by
  unfold Cmd.copyBuffer
  repeat' (first
    | with_reducible assumption
    | with_reducible apply PrepKeeps.bad
    | with_reducible apply PrepKeeps.good
    | split)

theorem Cmd.prepRegion_keeps {s0 : State} (c : Cmd) (s : State) (x : Run) (hs : Keeps s0 s) :
    PrepKeeps s0 (Cmd.prepRegion c s x) := by
  unfold Cmd.prepRegion
  repeat' (first
    | with_reducible assumption
    | with_reducible apply PrepKeeps.bad
    | with_reducible apply PrepKeeps.good
    | with_reducible apply PrepKeeps.ite
    | simp only [Keeps.mk_eq]
    | split)

theorem Prep.beginCopy_keeps {s0 : State} (p : Prep) (t : Nat) (hp : PrepKeeps s0 p) :
    Keeps s0 (Prep.beginCopy p t) := by
  unfold Prep.beginCopy
  repeat' (first
    | with_reducible apply State.endCmd_keeps
    | with_reducible apply State.updCmd_keeps
    | with_reducible apply State.setRun_keeps
    | split
    | exact PrepKeeps.of_bad (by assumption) rfl
    | exact PrepKeeps.of_good (by assumption) rfl)

theorem State.sendAck_keeps {s0 : State} (s : State) (i : Nat) (hs : Keeps s0 s) :
    Keeps s0 (State.sendAck s i) := by
  unfold State.sendAck
  repeat' (first
    | with_reducible assumption
    | with_reducible apply State.sendBare_keeps
    | with_reducible apply State.updPort_keeps)

theorem State.ctrlWaits_keeps {s0 : State} (s : State) (c : Nat) (m : CtrlMsg) (hs : Keeps s0 s) :
    Keeps s0 (State.ctrlWaits s c m).1 := by
  unfold State.ctrlWaits
  repeat' (first
    | with_reducible assumption
    | with_reducible apply State.serveBind_keeps
    | simp only [Keeps.mk_eq]
    | split)

theorem State.forward_keeps {s0 : State} (s : State) (i : Nat) (f : Bytes) (hs : Keeps s0 s) :
    Keeps s0 (State.forward s i f) := by
  unfold State.forward
  repeat' (first
    | with_reducible assumption
    | with_reducible apply State.dropRx_keeps
    | with_reducible apply State.sendOn_keeps
    | with_reducible apply Keeps.ite)

theorem State.frameEnds_keeps {s0 : State} (s : State) (q : FrameReq) (status : BitVec 16) (hs : Keeps s0 s) :
    Keeps s0 (State.frameEnds s q status) := by
  unfold State.frameEnds
  repeat' (first
    | with_reducible assumption
    | with_reducible apply State.sendCtrl_keeps)

theorem State.serveFrame_keeps {s0 : State} (s : State) (k : Nat) (q : FrameReq) (hs : Keeps s0 s) :
    Keeps s0 (State.serveFrame s k q) := by
  unfold State.serveFrame
  repeat' (first
    | with_reducible assumption
    | with_reducible apply State.takeSlots_keeps
    | with_reducible apply State.setRun_keeps
    | with_reducible apply State.stopRun_keeps
    | with_reducible apply State.frameEnds_keeps
    | with_reducible apply Keeps.ite
    | with_reducible refine KeepsFields.of ?_ rfl rfl rfl
    | simp only [Keeps.mk_eq]
    | split)

theorem State.openChan_keeps {s0 : State} (s : State) (c : Chan) (hs : Keeps s0 s) :
    Keeps s0 (State.openChan s c) := by
  unfold State.openChan
  repeat' (first
    | with_reducible assumption
    | with_reducible refine KeepsFields.of ?_ rfl rfl rfl
    | simp only [Keeps.mk_eq])

theorem State.frameNews_keeps {s0 : State} (s : State) (c key : Nat) (f : Run → Run) (hs : Keeps s0 s) :
    Keeps s0 (State.frameNews s c key f) := by
  unfold State.frameNews
  repeat' (first
    | with_reducible assumption
    | with_reducible apply State.settle_keeps
    | with_reducible apply State.setRun_keeps
    | with_reducible apply Keeps.ite
    | split)

theorem State.frameStopped_keeps {s0 : State} (s : State) (c key : Nat) (discard : Bool) (hs : Keeps s0 s) :
    Keeps s0 (State.frameStopped s c key discard) := by
  unfold State.frameStopped
  repeat' (first
    | with_reducible assumption
    | with_reducible apply State.stopRun_keeps
    | split)

theorem State.dropServed_keeps {s0 : State} (s : State) (k : Nat) (hs : Keeps s0 s) :
    Keeps s0 (State.dropServed s k) := by
  unfold State.dropServed
  repeat' (first
    | with_reducible assumption
    | with_reducible apply State.retarget_keeps
    | with_reducible apply State.freeBinding_keeps
    | with_reducible refine KeepsFields.of ?_ rfl rfl rfl
    | simp only [Keeps.mk_eq])

theorem State.ctrlIn_keeps {s0 : State} (s : State) (c : Nat) (m : CtrlMsg) (hs : Keeps s0 s) :
    Keeps s0 (State.ctrlIn s c m) := by
  unfold State.ctrlIn
  repeat' (first
    | with_reducible assumption
    | with_reducible apply State.retarget_keeps
    | with_reducible apply State.serveBind_keeps
    | with_reducible apply State.partAnswer_keeps
    | with_reducible apply State.serveFrame_keeps
    | with_reducible apply State.openChan_keeps
    | with_reducible apply State.frameNews_keeps
    | with_reducible apply State.frameStopped_keeps
    | with_reducible apply State.dropServed_keeps
    | split)

theorem State.drainList_keeps {s0 : State} (s : State) (i : Nat) (held : Bool) (a3 : List Bytes) (hs : Keeps s0 s) :
    Keeps s0 (State.drainList s i held a3) := by
  fun_induction State.drainList s i held a3 with
  | case1 s held => exact hs
  | case2 s held f t h ih => exact ih (State.forward_keeps s i f hs)
  | case3 s f t h ih => exact ih hs
  | case4 s held f t h k w r q ih => exact ih (State.ctrlIn_keeps _ _ _ (State.dropRx_keeps s i f hs))
  | case5 s held f t h k w r q ih => exact ih (Keeps.ite (State.ctrlWaits_keeps s _ _ hs) hs)
  | case6 s held f t h k r q ih => exact ih (State.dropRx_keeps s i f hs)
  | case7 s held f t h k r q ih => exact ih hs

theorem State.drain_keeps {s0 : State} (s : State) (i : Nat) (hs : Keeps s0 s) :
    Keeps s0 (State.drain s i) := by
  unfold State.drain
  repeat' (first
    | with_reducible assumption
    | with_reducible apply State.drainList_keeps)

theorem State.acceptFlit_keeps {s0 : State} (s : State) (i : Nat) (f : Bytes) (hs : Keeps s0 s) :
    Keeps s0 (State.acceptFlit s i f) := by
  unfold State.acceptFlit
  repeat' (first
    | with_reducible assumption
    | with_reducible apply State.sendAck_keeps
    | with_reducible apply State.updPort_keeps
    | with_reducible apply State.drain_keeps
    | with_reducible apply State.perfAdd_keeps
    | with_reducible apply State.wake_keeps
    | with_reducible apply Keeps.ite)

theorem State.advanceWheel_keeps {s0 : State} (s : State) (e : Nat) (hs : Keeps s0 s) :
    Keeps s0 (State.advanceWheel s e) := by
  unfold State.advanceWheel
  repeat' (first
    | with_reducible assumption
    | with_reducible refine KeepsFields.of ?_ rfl rfl rfl
    | simp only [Keeps.mk_eq])

theorem State.countCrc_keeps {s0 : State} (s : State) (i : Nat) (hs : Keeps s0 s) :
    Keeps s0 (State.countCrc s i) := by
  unfold State.countCrc
  repeat' (first
    | with_reducible assumption
    | with_reducible apply State.updPort_keeps)

theorem State.sawGood_keeps {s0 : State} (s : State) (i : Nat) (hs : Keeps s0 s) :
    Keeps s0 (State.sawGood s i) := by
  unfold State.sawGood
  repeat' (first
    | with_reducible assumption
    | with_reducible apply State.updPort_keeps)

theorem State.bareFlit_keeps {s0 : State} (s : State) (kind i : Nat) (f : Bytes) (g : State → State)
    (hs : Keeps s0 s) (hg : ∀ v0, Keeps s0 v0 → Keeps s0 (g v0)) :
    Keeps s0 (State.bareFlit s kind i f g) := by
  unfold State.bareFlit
  repeat' (first
    | with_reducible assumption
    | with_reducible apply State.countCrc_keeps
    | with_reducible apply State.sawGood_keeps
    | with_reducible apply Keeps.ite
    | apply_assumption)

theorem State.slotIdle_keeps {s0 : State} (s : State) (e : Nat) (hs : Keeps s0 s) :
    Keeps s0 (State.slotIdle s e) := by
  unfold State.slotIdle
  repeat' (first
    | with_reducible assumption
    | with_reducible apply State.perfAdd_keeps)

theorem State.moveOf_keeps {s0 : State} (s : State) (view : HostView) (o : Offer) (hs : Keeps s0 s) :
    Keeps s0 (State.moveOf s view o) := by
  unfold State.moveOf
  repeat' (first
    | with_reducible assumption
    | with_reducible apply State.makeMove_keeps
    | with_reducible apply State.settle_keeps
    | with_reducible apply State.setRun_keeps)

theorem State.classSlot_keeps {s0 : State} (s : State) (view : HostView) (e count : Nat)
    (g : Nat → Run → Option Move) (hs : Keeps s0 s) :
    Keeps s0 (State.classSlot s view e count g) := by
  unfold State.classSlot
  repeat' (first
    | with_reducible assumption
    | with_reducible apply State.slotIdle_keeps
    | with_reducible apply State.moveOf_keeps
    | with_reducible apply State.perfAdd_keeps
    | with_reducible refine KeepsFields.of ?_ rfl rfl rfl
    | simp only [Keeps.mk_eq]
    | split)

theorem State.updRx_keeps {s0 : State} (s : State) (n : Nat) (g : Csi → Csi) (hs : Keeps s0 s) :
    Keeps s0 (State.updRx s n g) := by
  unfold State.updRx
  repeat' (first
    | with_reducible assumption
    | with_reducible refine KeepsFields.of ?_ rfl rfl rfl
    | simp only [Keeps.mk_eq])

theorem State.clockFree_keeps {s0 : State} (s : State) (n : Nat) (hs : Keeps s0 s) :
    Keeps s0 (State.clockFree s n) := by
  unfold State.clockFree
  repeat' (first
    | with_reducible assumption
    | with_reducible apply State.updRx_keeps
    | with_reducible apply State.tick_keeps)

theorem State.clockHigh_keeps {s0 : State} (s : State) (n : Nat) (hs : Keeps s0 s) :
    Keeps s0 (State.clockHigh s n) := by
  unfold State.clockHigh
  repeat' (first
    | with_reducible assumption
    | with_reducible apply State.updRx_keeps)

theorem State.fillMissing_keeps {s0 : State} (s : State) (sl : Slot) (f : OpenFrame) (hs : Keeps s0 s) :
    Keeps s0 (State.fillMissing s sl f) := by
  unfold State.fillMissing
  repeat' (first
    | with_reducible assumption
    | with_reducible apply State.lpWrite_keeps
    | with_reducible apply Keeps.foldl
    | intro _)

theorem State.takeCapture_keeps {s0 : State} (s : State) (x : Run) (i b : Nat) (hs : Keeps s0 s) :
    Keeps s0 (State.takeCapture s x i b).1 := by
  unfold State.takeCapture
  repeat' (first
    | with_reducible assumption
    | with_reducible apply State.updSlot_keeps)

theorem State.feedFrame_keeps {s0 : State} (s : State) (i : Nat) (hs : Keeps s0 s) :
    Keeps s0 (State.feedFrame s i) := by
  unfold State.feedFrame
  repeat' (first
    | with_reducible assumption
    | with_reducible apply State.takeCapture_keeps
    | with_reducible apply State.assignFrame_keeps
    | with_reducible apply State.setRun_keeps
    | with_reducible apply State.stopRun_keeps
    | with_reducible apply Keeps.ite
    | simp only [Keeps.mk_eq]
    | split)

theorem State.closeFrame_keeps {s0 : State} (s : State) (i : Nat) (hs : Keeps s0 s) :
    Keeps s0 (State.closeFrame s i) := by
  unfold State.closeFrame
  repeat' (first
    | with_reducible assumption
    | with_reducible apply State.updSlot_keeps
    | with_reducible apply State.updRx_keeps
    | with_reducible apply State.fillMissing_keeps
    | with_reducible apply State.feedFrame_keeps
    | with_reducible apply State.stat_keeps
    | with_reducible apply Keeps.ite
    | simp only [Keeps.mk_eq]
    | split)

theorem State.endWaiting_keeps {s0 : State} (s : State) (i : Nat) (status : BitVec 16) (hs : Keeps s0 s) :
    Keeps s0 (State.endWaiting s i status) := by
  unfold State.endWaiting
  repeat' (first
    | with_reducible assumption
    | with_reducible apply State.stopRun_keeps
    | with_reducible apply State.updRun_keeps
    | with_reducible apply Keeps.foldl
    | intro _)

theorem State.countLength_keeps {s0 : State} (s : State) (n got want : Nat) (hs : Keeps s0 s) :
    Keeps s0 (State.countLength s n got want) := by
  unfold State.countLength
  repeat' (first
    | with_reducible assumption
    | with_reducible apply State.updRx_keeps
    | with_reducible apply Keeps.ite)

theorem State.countOverrun_keeps {s0 : State} (s : State) (i : Nat) (hs : Keeps s0 s) :
    Keeps s0 (State.countOverrun s i) := by
  unfold State.countOverrun
  repeat' (first
    | with_reducible assumption
    | with_reducible apply State.updSlot_keeps
    | with_reducible apply State.setFnTrb_keeps
    | with_reducible apply State.stat_keeps)

theorem State.dropFrame_keeps {s0 : State} (s : State) (k : Nat) (hs : Keeps s0 s) :
    Keeps s0 (State.dropFrame s k) := by
  unfold State.dropFrame
  repeat' (first
    | with_reducible assumption
    | with_reducible apply State.stopRun_keeps
    | with_reducible apply State.updRun_keeps)

theorem State.discardFlit_keeps {s0 : State} (s : State) (i : Nat) (hs : Keeps s0 s) :
    Keeps s0 (State.discardFlit s i) := by
  unfold State.discardFlit
  repeat' (first
    | with_reducible assumption
    | with_reducible apply State.sendBare_keeps
    | with_reducible apply State.updPort_keeps
    | with_reducible apply Keeps.ite)

theorem State.discardFrame_keeps {s0 : State} (s : State) (i : Nat) (no : BitVec 16) (hs : Keeps s0 s) :
    Keeps s0 (State.discardFrame s i no) := by
  unfold State.discardFrame
  repeat' (first
    | with_reducible assumption
    | with_reducible apply State.countOverrun_keeps
    | with_reducible apply State.updSlot_keeps)

theorem State.drainAll_keeps {s0 : State} (s : State) (hs : Keeps s0 s) :
    Keeps s0 (State.drainAll s) := by
  unfold State.drainAll
  repeat' (first
    | with_reducible assumption
    | with_reducible apply State.drain_keeps)

theorem State.dropIfLate_keeps {s0 : State} (s : State) (t : Nat) (c : Cmd) (hs : Keeps s0 s) :
    Keeps s0 (State.dropIfLate s t c) := by
  unfold State.dropIfLate
  repeat' (first
    | with_reducible assumption
    | with_reducible apply State.dropFrame_keeps
    | with_reducible apply Keeps.ite
    | split)

theorem State.headerFixed_keeps {s0 : State} (s : State) (n : Nat) (fixed : Bool) (hs : Keeps s0 s) :
    Keeps s0 (State.headerFixed s n fixed) := by
  unfold State.headerFixed
  repeat' (first
    | with_reducible assumption
    | with_reducible apply State.updRx_keeps
    | with_reducible apply Keeps.ite)

theorem State.helloMap_keeps {s0 : State} (s : State) (i chip map : Nat) (hs : Keeps s0 s) :
    Keeps s0 (State.helloMap s i chip map) := by
  unfold State.helloMap
  repeat' (first
    | with_reducible assumption
    | with_reducible apply State.peerSeen_keeps
    | with_reducible apply Keeps.foldl
    | intro _)

theorem State.helloNeighbour_keeps {s0 : State} (s : State) (i chip : Nat) (epoch : Word) (hs : Keeps s0 s) :
    Keeps s0 (State.helloNeighbour s i chip epoch) := by
  unfold State.helloNeighbour
  repeat' (first
    | with_reducible assumption
    | with_reducible apply State.peerDown_keeps
    | with_reducible apply State.peerSeen_keeps
    | with_reducible apply State.updPort_keeps
    | with_reducible apply State.updPeer_keeps
    | with_reducible apply Keeps.ite)

theorem State.holdPort_keeps {s0 : State} (s : State) (i chip port : Nat) (hs : Keeps s0 s) :
    Keeps s0 (State.holdPort s i chip port) := by
  unfold State.holdPort
  repeat' (first
    | with_reducible assumption
    | with_reducible apply State.pathLost_keeps
    | with_reducible apply State.updPort_keeps
    | with_reducible apply State.portCut_keeps
    | with_reducible apply State.traceEmit_keeps
    | with_reducible apply State.tick_keeps
    | with_reducible apply State.logEvent_keeps
    | with_reducible refine KeepsFields.of ?_ rfl rfl rfl
    | simp only [Keeps.mk_eq])

theorem State.lightSlot_keeps {s0 : State} (s : State) (view : HostView) (e : Nat) (o : Offer) (hs : Keeps s0 s) :
    Keeps s0 (State.lightSlot s view e o) := by
  unfold State.lightSlot
  repeat' (first
    | with_reducible assumption
    | with_reducible apply State.moveOf_keeps
    | with_reducible apply State.perfAdd_keeps
    | with_reducible refine KeepsFields.of ?_ rfl rfl rfl
    | simp only [Keeps.mk_eq])

theorem State.onAdapter_keeps {s0 : State} (s : State) (t act : Nat) (f : Cmd → Nat → State) (hs : Keeps s0 s)
    (hf : ∀ v0 v1, Keeps s0 (f v0 v1)) :
    Keeps s0 (State.onAdapter s t act f) := by
  unfold State.onAdapter
  repeat' (first
    | with_reducible assumption
    | with_reducible apply State.onBind_keeps
    | with_reducible apply State.endCmd_keeps
    | with_reducible apply Keeps.ite
    | apply_assumption
    | intro _
    | split)

theorem State.prepCapture_keeps {s0 : State} (s : State) (i : Nat) (x : Run) (hs : Keeps s0 s) :
    PrepKeeps s0 (State.prepCapture s i x) := by
  unfold State.prepCapture
  repeat' (first
    | with_reducible assumption
    | with_reducible apply State.takeCapture_keeps
    | with_reducible apply PrepKeeps.good
    | simp only [Keeps.mk_eq]
    | split)

theorem State.prepRecord_keeps {s0 : State} (s : State) (view : HostView) (c : Cmd) (x : Run) (hs : Keeps s0 s) :
    PrepKeeps s0 (State.prepRecord s view c x) := by
  unfold State.prepRecord
  repeat' (first
    | with_reducible assumption
    | with_reducible apply State.readPlace_keeps
    | with_reducible apply PrepKeeps.bad
    | with_reducible apply PrepKeeps.good
    | with_reducible apply PrepKeeps.ite
    | simp only [Keeps.mk_eq]
    | split)

theorem State.prepFrame_keeps {s0 : State} (s : State) (view : HostView) (c : Cmd) (i : Nat) (hs : Keeps s0 s) :
    PrepKeeps s0 (State.prepFrame s view c i) := by
  unfold State.prepFrame
  repeat' (first
    | with_reducible assumption
    | with_reducible apply Prep.then_keeps
    | with_reducible apply State.prepPieces_keeps
    | with_reducible apply Cmd.prepMap_keeps
    | with_reducible apply State.prepRecord_keeps
    | with_reducible apply State.prepTable_keeps
    | with_reducible apply Cmd.prepAdapter_keeps
    | with_reducible apply State.prepLists_keeps
    | with_reducible apply State.prepCapture_keeps
    | with_reducible apply PrepKeeps.bad
    | with_reducible apply PrepKeeps.good
    | with_reducible apply PrepKeeps.ite
    | intro _)

theorem State.prepTrain_keeps {s0 : State} (s : State) (view : HostView) (c : Cmd) (k : Nat) (hs : Keeps s0 s) :
    PrepKeeps s0 (State.prepTrain s view c k) := by
  unfold State.prepTrain
  repeat' (first
    | with_reducible assumption
    | with_reducible apply Prep.then_keeps
    | with_reducible apply State.prepPieces_keeps
    | with_reducible apply Cmd.prepRegion_keeps
    | with_reducible apply State.prepTable_keeps
    | with_reducible apply State.prepLists_keeps
    | with_reducible apply PrepKeeps.bad
    | with_reducible apply PrepKeeps.ite
    | intro _)

theorem State.readSlot_keeps {s0 : State} (s : State) (view : HostView) (e : Nat) (hs : Keeps s0 s) :
    Keeps s0 (State.readSlot s view e) := by
  unfold State.readSlot
  repeat' (first
    | with_reducible assumption
    | with_reducible apply State.lightSlot_keeps
    | with_reducible apply State.classSlot_keeps
    | simp only [Keeps.mk_eq]
    | split)

theorem State.takeRemote_keeps {s0 : State} (s : State) (port : Nat) (hs : Keeps s0 s) :
    Keeps s0 (State.takeRemote s port) := by
  unfold State.takeRemote
  repeat' (first
    | with_reducible assumption
    | with_reducible apply State.deliver_keeps
    | with_reducible apply State.dropRx_keeps
    | split)

theorem State.remoteSlot_keeps {s0 : State} (s : State) (view : HostView) (e : Nat) (hs : Keeps s0 s) :
    Keeps s0 (State.remoteSlot s view e) := by
  unfold State.remoteSlot
  repeat' (first
    | with_reducible assumption
    | with_reducible apply State.slotIdle_keeps
    | with_reducible apply State.perfAdd_keeps
    | with_reducible apply State.takeRemote_keeps
    | with_reducible apply State.moveOf_keeps
    | with_reducible apply State.drainAll_keeps
    | with_reducible refine KeepsFields.of ?_ rfl rfl rfl
    | simp only [Keeps.mk_eq]
    | split)

theorem State.resend_keeps {s0 : State} (s : State) (i n : Nat) (hs : Keeps s0 s) :
    Keeps s0 (State.resend s i n) := by
  unfold State.resend
  repeat' (first
    | with_reducible assumption
    | with_reducible apply State.retarget_keeps
    | with_reducible apply State.settleAll_keeps
    | with_reducible apply State.portDown_keeps
    | with_reducible apply State.pump_keeps
    | with_reducible apply State.updPort_keeps
    | with_reducible apply Keeps.ite)

theorem State.runSlot_keeps {s0 : State} (s : State) (view : HostView) (e i : Nat) (hs : Keeps s0 s) :
    Keeps s0 (State.runSlot s view e i) := by
  unfold State.runSlot
  repeat' (first
    | with_reducible assumption
    | with_reducible apply State.readSlot_keeps
    | with_reducible apply State.classSlot_keeps
    | with_reducible apply State.remoteSlot_keeps
    | with_reducible apply State.slotIdle_keeps
    | split)

theorem State.sequenced_keeps {s0 : State} (s : State) (kind i : Nat) (f : Bytes) (hs : Keeps s0 s) :
    Keeps s0 (State.sequenced s kind i f) := by
  unfold State.sequenced
  repeat' (first
    | with_reducible assumption
    | with_reducible apply State.discardFlit_keeps
    | with_reducible apply State.countCrc_keeps
    | with_reducible apply State.sawGood_keeps
    | with_reducible apply State.acceptFlit_keeps
    | with_reducible apply Keeps.ite)

theorem State.storeLine_keeps {s0 : State} (s : State) (i : Nat) (f : OpenFrame) (crcBad : Bool) (d : Bytes)
    (hs : Keeps s0 s) :
    Keeps s0 (State.storeLine s i f crcBad d) := by
  unfold State.storeLine
  repeat' (first
    | with_reducible assumption
    | with_reducible apply State.countLength_keeps
    | with_reducible apply State.updRx_keeps
    | with_reducible apply State.updSlot_keeps
    | with_reducible apply State.lpWrite_keeps
    | with_reducible apply Keeps.ite)

theorem State.slotLine_keeps {s0 : State} (s : State) (i : Nat) (crcBad : Bool) (p : Bytes) (hs : Keeps s0 s) :
    Keeps s0 (State.slotLine s i crcBad p) := by
  unfold State.slotLine
  repeat' (first
    | with_reducible assumption
    | with_reducible apply State.updSlot_keeps
    | with_reducible apply State.updRx_keeps
    | with_reducible apply State.storeLine_keeps
    | with_reducible apply Keeps.ite
    | simp only [Keeps.mk_eq]
    | split)

theorem State.takeBuffer_keeps {s0 : State} (s : State) (i b base : Nat) (no : BitVec 16) (hs : Keeps s0 s) :
    Keeps s0 (State.takeBuffer s i b base no) := by
  unfold State.takeBuffer
  repeat' (first
    | with_reducible assumption
    | with_reducible apply State.updSlot_keeps)

theorem State.startFrame_keeps {s0 : State} (s : State) (i : Nat) (no : BitVec 16) (hs : Keeps s0 s) :
    Keeps s0 (State.startFrame s i no) := by
  unfold State.startFrame
  repeat' (first
    | with_reducible assumption
    | with_reducible apply State.discardFrame_keeps
    | with_reducible apply State.setFnTrb_keeps
    | with_reducible apply State.countOverrun_keeps
    | with_reducible apply State.takeBuffer_keeps
    | with_reducible apply Keeps.ite
    | simp only [Keeps.mk_eq]
    | split)

theorem State.updateSlot_keeps {s0 : State} (s : State) (e : Nat) (hs : Keeps s0 s) :
    Keeps s0 (State.updateSlot s e) := by
  unfold State.updateSlot
  repeat' (first
    | with_reducible assumption
    | with_reducible apply State.stepUpdate_keeps
    | with_reducible apply State.settle_keeps
    | with_reducible apply State.setRun_keeps
    | with_reducible apply Keeps.ite
    | with_reducible apply Keeps.foldl
    | intro _
    | simp only [Keeps.mk_eq]
    | split)

theorem execAdaptAttach_keeps {s0 : State} (t : Ticket) (s : State) (hs : Keeps s0 s) :
    OutcomeKeeps s0 (execAdaptAttach t s) := by
  unfold execAdaptAttach
  repeat' (first
    | with_reducible assumption
    | with_reducible apply State.onAdapter_keeps
    | with_reducible apply State.endCmd_keeps
    | with_reducible apply State.updBind_keeps
    | with_reducible apply OutcomeKeeps.next
    | with_reducible apply Keeps.ite
    | intro _
    | split)

theorem execAdaptDetach_keeps {s0 : State} (t : Ticket) (s : State) (hs : Keeps s0 s) :
    OutcomeKeeps s0 (execAdaptDetach t s) := by
  unfold execAdaptDetach
  repeat' (first
    | with_reducible assumption
    | with_reducible apply State.onAdapter_keeps
    | with_reducible apply State.endCmd_keeps
    | with_reducible apply State.updBind_keeps
    | with_reducible apply OutcomeKeeps.next
    | intro _)

theorem execAdaptStepTrain_keeps {s0 : State} (t : Ticket) (view : HostView) (s : State) (hs : Keeps s0 s) :
    OutcomeKeeps s0 (execAdaptStepTrain t view s) := by
  unfold execAdaptStepTrain
  repeat' (first
    | with_reducible assumption
    | with_reducible apply State.orWait_keeps
    | with_reducible apply State.onBind_keeps
    | with_reducible apply State.runOn_keeps
    | with_reducible apply State.prepTrain_keeps
    | with_reducible apply OutcomeKeeps.next
    | with_reducible apply Keeps.ite
    | intro _)

theorem execCopy_keeps {s0 : State} (t : Ticket) (s : State) (hs : Keeps s0 s) :
    OutcomeKeeps s0 (execCopy t s) := by
  unfold execCopy
  repeat' (first
    | with_reducible assumption
    | with_reducible apply State.onCmd_keeps
    | with_reducible apply State.endCmd_keeps
    | with_reducible apply Prep.beginCopy_keeps
    | with_reducible apply Prep.then_keeps
    | with_reducible apply Cmd.copyBuffer_keeps
    | with_reducible apply OutcomeKeeps.next
    | with_reducible apply PrepKeeps.good
    | with_reducible apply Keeps.ite
    | intro _)

theorem execCopyLight_keeps {s0 : State} (t : Ticket) (s : State) (hs : Keeps s0 s) :
    OutcomeKeeps s0 (execCopyLight t s) := by
  unfold execCopyLight
  repeat' (first
    | with_reducible assumption
    | with_reducible apply State.onCmd_keeps
    | with_reducible apply State.endCmd_keeps
    | with_reducible apply Prep.beginCopy_keeps
    | with_reducible apply Prep.then_keeps
    | with_reducible apply Cmd.lightInput_keeps
    | with_reducible apply Cmd.lightOutput_keeps
    | with_reducible apply OutcomeKeeps.next
    | with_reducible apply PrepKeeps.good
    | with_reducible apply Keeps.ite
    | intro _
    | split)

theorem execCsiFrameEnd_keeps {s0 : State} (rx : Fin 2) (hdr : CsiHeader) (s : State)
    (hs : Keeps s0 s) :
    OutcomeKeeps s0 (execCsiFrameEnd rx hdr s) := by
  unfold execCsiFrameEnd
  repeat' (first
    | with_reducible assumption
    | with_reducible apply State.headerFixed_keeps
    | with_reducible apply State.clockFree_keeps
    | with_reducible apply State.updRx_keeps
    | with_reducible apply State.closeFrame_keeps
    | with_reducible apply OutcomeKeeps.next
    | with_reducible apply OutcomeKeeps.ite
    | with_reducible apply Keeps.foldl
    | simp only [Keeps.mk_eq]
    | split)

theorem execCsiFrameStart_keeps {s0 : State} (rx : Fin 2) (hdr : CsiHeader) (dtype : BitVec 6)
    (frameNo : BitVec 16) (s : State) (hs : Keeps s0 s) :
    OutcomeKeeps s0 (execCsiFrameStart rx hdr dtype frameNo s) := by
  unfold execCsiFrameStart
  repeat' (first
    | with_reducible assumption
    | with_reducible apply State.headerFixed_keeps
    | with_reducible apply State.clockHigh_keeps
    | with_reducible apply State.updRx_keeps
    | with_reducible apply State.startFrame_keeps
    | with_reducible apply State.closeFrame_keeps
    | with_reducible apply OutcomeKeeps.next
    | with_reducible apply OutcomeKeeps.ite
    | simp only [Keeps.mk_eq]
    | split)

theorem execCsiFrameTimeout_keeps {s0 : State} (slot : Fin 16) (s : State) (hs : Keeps s0 s) :
    OutcomeKeeps s0 (execCsiFrameTimeout slot s) := by
  unfold execCsiFrameTimeout
  repeat' (first
    | with_reducible assumption
    | with_reducible apply State.closeFrame_keeps
    | with_reducible apply State.updRx_keeps
    | with_reducible apply State.clockFree_keeps
    | with_reducible apply OutcomeKeeps.next
    | with_reducible apply OutcomeKeeps.ite
    | simp only [Keeps.mk_eq]
    | split)

theorem execCsiLine_keeps {s0 : State} (rx : Fin 2) (vc : Fin 16) (packet : CsiPacket) (s : State)
    (hs : Keeps s0 s) :
    OutcomeKeeps s0 (execCsiLine rx vc packet s) := by
  unfold execCsiLine
  repeat' (first
    | with_reducible assumption
    | with_reducible apply State.clockHigh_keeps
    | with_reducible apply State.updRx_keeps
    | with_reducible apply State.headerFixed_keeps
    | with_reducible apply State.slotLine_keeps
    | with_reducible apply OutcomeKeeps.next
    | with_reducible apply OutcomeKeeps.ite
    | simp only [Keeps.mk_eq]
    | split)

theorem execPeerTimeout_keeps {s0 : State} (chip : Fin 4) (s : State) (hs : Keeps s0 s) :
    OutcomeKeeps s0 (execPeerTimeout chip s) := by
  unfold execPeerTimeout
  repeat' (first
    | with_reducible assumption
    | with_reducible apply State.retarget_keeps
    | with_reducible apply State.settleAll_keeps
    | with_reducible apply State.peerDown_keeps
    | with_reducible apply OutcomeKeeps.next
    | with_reducible apply OutcomeKeeps.ite)

theorem execStreamClose_keeps {s0 : State} (t : Ticket) (s : State) (hs : Keeps s0 s) :
    OutcomeKeeps s0 (execStreamClose t s) := by
  unfold execStreamClose
  repeat' (first
    | with_reducible assumption
    | with_reducible apply State.onCmd_keeps
    | with_reducible apply State.endCmd_keeps
    | with_reducible apply State.updSlot_keeps
    | with_reducible apply State.slotDone_keeps
    | with_reducible apply State.endWaiting_keeps
    | with_reducible apply State.updCmd_keeps
    | with_reducible apply OutcomeKeeps.next
    | with_reducible apply Keeps.ite
    | intro _
    | simp only [Keeps.mk_eq]
    | split)

theorem execStreamFrame_keeps {s0 : State} (t : Ticket) (view : HostView) (s : State) (hs : Keeps s0 s) :
    OutcomeKeeps s0 (execStreamFrame t view s) := by
  unfold execStreamFrame
  repeat' (first
    | with_reducible assumption
    | with_reducible apply State.orWait_keeps
    | with_reducible apply State.onBind_keeps
    | with_reducible apply State.endCmd_keeps
    | with_reducible apply State.dropIfLate_keeps
    | with_reducible apply State.launch_keeps
    | with_reducible apply State.prepFrame_keeps
    | with_reducible apply OutcomeKeeps.next
    | intro _
    | split)

theorem execStreamOpen_keeps {s0 : State} (t : Ticket) (s : State) (hs : Keeps s0 s) :
    OutcomeKeeps s0 (execStreamOpen t s) := by
  unfold execStreamOpen
  repeat' (first
    | with_reducible assumption
    | with_reducible apply State.onTurn_keeps
    | with_reducible apply State.endCmd_keeps
    | with_reducible apply State.updSlot_keeps
    | with_reducible apply State.retarget_keeps
    | with_reducible apply OutcomeKeeps.next
    | with_reducible apply Keeps.ite
    | intro _
    | simp only [Keeps.mk_eq]
    | split)

theorem execWeftAck_keeps {s0 : State} (port : Fin 2) (flit : Bytes) (s : State) (hs : Keeps s0 s) :
    OutcomeKeeps s0 (execWeftAck port flit s) := by
  unfold execWeftAck
  repeat' (first
    | with_reducible assumption
    | with_reducible apply State.bareFlit_keeps
    | with_reducible apply State.drain_keeps
    | with_reducible apply State.pump_keeps
    | with_reducible apply State.updPort_keeps
    | with_reducible apply OutcomeKeeps.next
    | intro _)

theorem execWeftAckDue_keeps {s0 : State} (port : Fin 2) (s : State) (hs : Keeps s0 s) :
    OutcomeKeeps s0 (execWeftAckDue port s) := by
  unfold execWeftAckDue
  repeat' (first
    | with_reducible assumption
    | with_reducible apply State.sendAck_keeps
    | with_reducible apply OutcomeKeeps.next
    | with_reducible apply OutcomeKeeps.ite)

theorem execWeftCredit_keeps {s0 : State} (port : Fin 2) (flit : Bytes) (s : State) (hs : Keeps s0 s) :
    OutcomeKeeps s0 (execWeftCredit port flit s) := by
  unfold execWeftCredit
  repeat' (first
    | with_reducible assumption
    | with_reducible apply State.bareFlit_keeps
    | with_reducible apply State.drain_keeps
    | with_reducible apply State.pump_keeps
    | with_reducible apply State.updPort_keeps
    | with_reducible apply OutcomeKeeps.next
    | intro _)

theorem execWeftCtrlFlit_keeps {s0 : State} (port : Fin 2) (flit : Bytes) (s : State) (hs : Keeps s0 s) :
    OutcomeKeeps s0 (execWeftCtrlFlit port flit s) := by
  unfold execWeftCtrlFlit
  repeat' (first
    | with_reducible assumption
    | with_reducible apply State.sequenced_keeps
    | with_reducible apply OutcomeKeeps.next)

theorem execWeftDataFlit_keeps {s0 : State} (port : Fin 2) (flit : Bytes) (s : State) (hs : Keeps s0 s) :
    OutcomeKeeps s0 (execWeftDataFlit port flit s) := by
  unfold execWeftDataFlit
  repeat' (first
    | with_reducible assumption
    | with_reducible apply State.sequenced_keeps
    | with_reducible apply OutcomeKeeps.next)

theorem execWeftHello_keeps {s0 : State} (port : Fin 2) (flit : Bytes) (s : State) (hs : Keeps s0 s) :
    OutcomeKeeps s0 (execWeftHello port flit s) := by
  unfold execWeftHello
  repeat' (first
    | with_reducible assumption
    | with_reducible apply State.bareFlit_keeps
    | with_reducible apply State.retarget_keeps
    | with_reducible apply State.settleAll_keeps
    | with_reducible apply State.holdPort_keeps
    | with_reducible apply State.helloMap_keeps
    | with_reducible apply State.helloNeighbour_keeps
    | with_reducible apply OutcomeKeeps.next
    | with_reducible apply Keeps.ite
    | intro _)

theorem execWeftHelloSend_keeps {s0 : State} (s : State) (hs : Keeps s0 s) :
    OutcomeKeeps s0 (execWeftHelloSend s) := by
  unfold execWeftHelloSend
  refine OutcomeKeeps.next (Keeps.foldl hs fun y b hy => ?_)
  exact Keeps.ite (State.sendBare_keeps y _ _ _ _ hy) hy

theorem execWeftLaneLockLoss_keeps {s0 : State} (port : Fin 2) (s : State) (hs : Keeps s0 s) :
    OutcomeKeeps s0 (execWeftLaneLockLoss port s) := by
  unfold execWeftLaneLockLoss
  repeat' (first
    | with_reducible assumption
    | with_reducible apply State.retarget_keeps
    | with_reducible apply State.settleAll_keeps
    | with_reducible apply State.portDown_keeps
    | with_reducible apply OutcomeKeeps.next)

theorem execWeftNak_keeps {s0 : State} (port : Fin 2) (flit : Bytes) (s : State) (hs : Keeps s0 s) :
    OutcomeKeeps s0 (execWeftNak port flit s) := by
  unfold execWeftNak
  refine OutcomeKeeps.next (State.bareFlit_keeps s _ _ _ _ hs fun a ha => ?_)
  exact Keeps.ite (State.resend_keeps a _ _ ha) ha

theorem execWeftPortUp_keeps {s0 : State} (port : Fin 2) (s : State) (hs : Keeps s0 s) :
    OutcomeKeeps s0 (execWeftPortUp port s) := by
  unfold execWeftPortUp
  repeat' (first
    | with_reducible assumption
    | with_reducible apply State.traceEmit_keeps
    | with_reducible apply State.pump_keeps
    | with_reducible apply State.updPort_keeps
    | with_reducible apply OutcomeKeeps.next
    | with_reducible apply OutcomeKeeps.ite)

theorem execWeftResendTimeout_keeps {s0 : State} (port : Fin 2) (s : State) (hs : Keeps s0 s) :
    OutcomeKeeps s0 (execWeftResendTimeout port s) := by
  unfold execWeftResendTimeout
  repeat' (first
    | with_reducible assumption
    | with_reducible apply State.resend_keeps
    | with_reducible apply OutcomeKeeps.next
    | with_reducible apply OutcomeKeeps.ite)

theorem execWeftSilenceTimeout_keeps {s0 : State} (port : Fin 2) (s : State) (hs : Keeps s0 s) :
    OutcomeKeeps s0 (execWeftSilenceTimeout port s) := by
  unfold execWeftSilenceTimeout
  repeat' (first
    | with_reducible assumption
    | with_reducible apply State.retarget_keeps
    | with_reducible apply State.settleAll_keeps
    | with_reducible apply State.portDown_keeps
    | with_reducible apply OutcomeKeeps.next
    | with_reducible apply OutcomeKeeps.ite)

theorem execWheelSlot_keeps {s0 : State} (engine : Fin 4) (view : HostView) (s : State) (hs : Keeps s0 s) :
    OutcomeKeeps s0 (execWheelSlot engine view s) := by
  unfold execWheelSlot
  repeat' (first
    | with_reducible assumption
    | with_reducible apply State.runSlot_keeps
    | with_reducible apply State.advanceWheel_keeps
    | with_reducible apply State.updateSlot_keeps
    | with_reducible apply State.pullAll_keeps
    | with_reducible apply OutcomeKeeps.next
    | with_reducible apply OutcomeKeeps.ite)

end Sys2Proof.Machine
end

