-- ==== Sys2Proof/Laws/KeepsH.lean ====
section
/-!
SUPPORT. `Keeps` of every operation of Machine/Cancel, Answer, Debug, Deadline, Firmware, Install, Power.lean.
-/

namespace Sys2Proof.Machine

theorem State.stopOp_keeps {s0 : State} (s : State) (t : Nat) (st : BitVec 16) (hs : Keeps s0 s) :
    Keeps s0 (State.stopOp s t st) := by
  unfold State.stopOp
  repeat' (first
    | with_reducible assumption
    | with_reducible refine KeepsFields.of ?_ rfl rfl rfl
    | simp only [Keeps.mk_eq])

theorem State.cancelNvm_keeps {s0 : State} (s : State) (t : Nat) (c : Cmd) (st : BitVec 16) (hs : Keeps s0 s) :
    Keeps s0 (State.cancelNvm s t c st).1 := by
  unfold State.cancelNvm
  repeat' (first
    | with_reducible assumption
    | with_reducible apply State.stopOp_keeps
    | with_reducible apply State.finishPlan_keeps
    | simp only [Keeps.mk_eq]
    | split)

theorem State.dropCloser_keeps {s0 : State} (s : State) (t : Nat) (hs : Keeps s0 s) :
    Keeps s0 (State.dropCloser s t) := by
  unfold State.dropCloser
  repeat' (first
    | with_reducible assumption
    | with_reducible refine KeepsFields.of ?_ rfl rfl rfl
    | simp only [Keeps.mk_eq])

theorem State.cancelBusy_keeps {s0 : State} (s : State) (t : Nat) (c : Cmd) (st : BitVec 16) (hs : Keeps s0 s) :
    Keeps s0 (State.cancelBusy s t c st).1 := by
  unfold State.cancelBusy
  repeat' (first
    | with_reducible assumption
    | with_reducible apply State.stopRun_keeps
    | with_reducible apply State.cancelNvm_keeps
    | with_reducible apply State.bindFails_keeps
    | with_reducible apply State.endCmd_keeps
    | with_reducible apply State.dropCloser_keeps
    | split)

theorem State.cancelCmd_keeps {s0 : State} (s : State) (t : Nat) (c : Cmd) (st : BitVec 16) (hs : Keeps s0 s) :
    Keeps s0 (State.cancelCmd s t c st).1 := by
  unfold State.cancelCmd
  repeat' (first
    | with_reducible assumption
    | with_reducible apply State.endCmd_keeps
    | with_reducible apply State.cancelBusy_keeps
    | simp only [Keeps.mk_eq]
    | split)

theorem State.abortCmd_keeps {s0 : State} (s : State) (t : Nat) (hs : Keeps s0 s) :
    Keeps s0 (State.abortCmd s t) := by
  unfold State.abortCmd
  repeat' (first
    | with_reducible assumption
    | with_reducible apply State.endCmd_keeps
    | with_reducible apply State.cancelCmd_keeps
    | with_reducible apply Keeps.ite
    | split)

theorem State.cacheHost_keeps {s0 : State} (s : State) (q : ReadReq) (k : Nat) (hs : Keeps s0 s) :
    Keeps s0 (State.cacheHost s q k) := by
  unfold State.cacheHost
  repeat' (first
    | with_reducible assumption
    | with_reducible apply State.cachePut_keeps
    | with_reducible apply Keeps.ite
    | with_reducible apply Keeps.foldl
    | intro _)

theorem State.closeSlots_keeps {s0 : State} (s : State) (f : Nat) (hs : Keeps s0 s) :
    Keeps s0 (State.closeSlots s f) := by
  unfold State.closeSlots
  repeat' (first
    | with_reducible assumption
    | with_reducible apply State.slotDone_keeps
    | with_reducible apply State.endWaiting_keeps
    | with_reducible apply State.updSlot_keeps
    | with_reducible apply Keeps.foldl
    | intro _)

theorem State.commandMark_keeps {s0 : State} (s : State) (t slot kind : Nat) (hs : Keeps s0 s) :
    Keeps s0 (State.commandMark s t slot kind) := by
  unfold State.commandMark
  repeat' (first
    | with_reducible assumption
    | with_reducible apply State.endCmd_keeps
    | with_reducible apply State.queueCmd_keeps
    | with_reducible apply Keeps.ite)

theorem State.dbgAnswer_keeps {s0 : State} (s : State) (r : DbgResult) (hs : Keeps s0 s) :
    Keeps s0 (State.dbgAnswer s r) := by
  unfold State.dbgAnswer
  repeat' (first
    | with_reducible assumption
    | with_reducible refine KeepsFields.of ?_ rfl rfl rfl
    | simp only [Keeps.mk_eq])

theorem State.dbgAccess_keeps {s0 : State} (s : State) (scope : Nat) (f : State → State) (hs : Keeps s0 s)
    (hf : ∀ v0, Keeps s0 v0 → Keeps s0 (f v0)) :
    Keeps s0 (State.dbgAccess s scope f) := by
  unfold State.dbgAccess
  repeat' (first
    | with_reducible assumption
    | with_reducible apply State.refreshDoms_keeps
    | with_reducible apply State.dbgAnswer_keeps
    | with_reducible apply Keeps.ite
    | with_reducible refine KeepsFields.of ?_ rfl rfl rfl
    | apply_assumption
    | simp only [Keeps.mk_eq])

theorem State.dbgDone_keeps {s0 : State} (s : State) (good : Bool) (hs : Keeps s0 s) :
    Keeps s0 (State.dbgDone s good) := by
  unfold State.dbgDone
  repeat' (first
    | with_reducible assumption
    | with_reducible apply State.dbgAnswer_keeps)

theorem State.deadlinePass_keeps {s0 : State} (s : State) (t : Nat) (hs : Keeps s0 s) :
    Keeps s0 (State.deadlinePass s t) := by
  unfold State.deadlinePass
  repeat' (first
    | with_reducible assumption
    | with_reducible apply State.dropFrame_keeps
    | with_reducible apply State.updRun_keeps
    | with_reducible apply Keeps.ite
    | split)

theorem State.dropAfterHalt_keeps {s0 : State} (s : State) (k : Nat) (hs : Keeps s0 s) :
    Keeps s0 (State.dropAfterHalt s k) := by
  unfold State.dropAfterHalt
  repeat' (first
    | with_reducible assumption
    | with_reducible apply State.dropFrame_keeps
    | with_reducible apply State.updRun_keeps)

theorem State.endResets_keeps {s0 : State} (s : State) (t f : Nat) (hs : Keeps s0 s) :
    Keeps s0 (State.endResets s t f) := by
  unfold State.endResets
  repeat' (first
    | with_reducible assumption
    | with_reducible apply State.endCmd_keeps
    | with_reducible apply Keeps.foldl
    | with_reducible refine KeepsFields.of ?_ rfl rfl rfl
    | intro _
    | simp only [Keeps.mk_eq])

theorem State.leaveServed_keeps {s0 : State} (s : State) (hs : Keeps s0 s) :
    Keeps s0 (State.leaveServed s) := by
  unfold State.leaveServed
  repeat' (first
    | with_reducible assumption
    | with_reducible apply State.sendCtrl_keeps
    | with_reducible apply Keeps.foldl
    | with_reducible refine KeepsFields.of ?_ rfl rfl rfl
    | intro _
    | simp only [Keeps.mk_eq]
    | split)

theorem State.freeTenant_keeps {s0 : State} (s : State) (f : Nat) (hs : Keeps s0 s) :
    Keeps s0 (State.freeTenant s f) := by
  unfold State.freeTenant
  repeat' (first
    | with_reducible assumption
    | with_reducible apply State.freeBindings_keeps
    | with_reducible apply State.leaveServed_keeps
    | with_reducible apply State.emptyWays_keeps
    | with_reducible apply State.updFn_keeps
    | with_reducible apply Keeps.ite)

theorem State.traceCp_keeps {s0 : State} (s : State) (aux : Nat) (hs : Keeps s0 s) :
    Keeps s0 (State.traceCp s aux) := by
  unfold State.traceCp
  repeat' (first
    | with_reducible assumption
    | with_reducible apply State.traceEmit_keeps)

theorem State.stopCp_keeps {s0 : State} (s : State) (hs : Keeps s0 s) :
    Keeps s0 (State.stopCp s) := by
  unfold State.stopCp
  repeat' (first
    | with_reducible assumption
    | with_reducible apply State.traceCp_keeps
    | with_reducible apply Keeps.ite
    | with_reducible refine KeepsFields.of ?_ rfl rfl rfl
    | simp only [Keeps.mk_eq])

theorem State.haltCp_keeps {s0 : State} (s : State) (hs : Keeps s0 s) :
    Keeps s0 (State.haltCp s) := by
  unfold State.haltCp
  repeat' (first
    | with_reducible assumption
    | with_reducible apply State.dbgDone_keeps
    | with_reducible apply State.wake_keeps
    | with_reducible apply State.stopCp_keeps
    | split)

theorem State.installGo_keeps {s0 : State} (s : State) (t : Nat) (c : Cmd) (pl : Place) (p : Bytes)
    (hs : Keeps s0 s) :
    Keeps s0 (State.installGo s t c pl p) := by
  unfold State.installGo
  repeat' (first
    | with_reducible assumption
    | with_reducible apply State.endCmd_keeps
    | with_reducible apply State.setTrb_keeps
    | with_reducible apply State.queueCmd_keeps
    | with_reducible apply Keeps.ite
    | simp only [Keeps.mk_eq]
    | split)

theorem State.lineArrive_keeps {s0 : State} (s : State) (k buf off stage block start len : Nat) (bad : List
    (Nat × Nat)) (data : Bytes) (hs : Keeps s0 s) :
    Keeps s0 (State.lineArrive s k buf off stage block start len bad data) := by
  unfold State.lineArrive
  repeat' (first
    | with_reducible assumption
    | with_reducible apply State.settle_keeps
    | with_reducible apply State.setRun_keeps
    | simp only [Keeps.mk_eq]
    | split)

theorem State.markCore_keeps {s0 : State} (s : State) (core : Nat) (hs : Keeps s0 s) :
    Keeps s0 (State.markCore s core) := by
  unfold State.markCore
  repeat' (first
    | with_reducible assumption
    | with_reducible refine KeepsFields.of ?_ rfl rfl rfl
    | simp only [Keeps.mk_eq])

theorem State.peekBar0_keeps {s0 : State} (s : State) (f a : Nat) (hs : Keeps s0 s) :
    Keeps s0 (State.peekBar0 s f a) := by
  unfold State.peekBar0
  repeat' (first
    | with_reducible assumption
    | with_reducible apply State.dbgAnswer_keeps)

theorem State.peekNvm_keeps {s0 : State} (s : State) (b o : Nat) (hs : Keeps s0 s) :
    Keeps s0 (State.peekNvm s b o).1 := by
  unfold State.peekNvm
  repeat' (first
    | with_reducible assumption
    | with_reducible apply State.readRow_keeps
    | with_reducible apply State.pd4Read_keeps
    | with_reducible apply State.tick_keeps
    | with_reducible apply Keeps.ite
    | simp only [Keeps.mk_eq]
    | split)

theorem State.peekDevice_keeps {s0 : State} (s : State) (a : Nat) (hs : Keeps s0 s) :
    Keeps s0 (State.peekDevice s a).1 := by
  unfold State.peekDevice
  split
  · exact hs
  · exact State.peekNvm_keeps s _ _ hs
  · exact State.wayBytes_keeps s _ _ 4 hs
  · exact hs
  · exact hs

theorem State.peek_keeps {s0 : State} (s : State) (space : DbgSpace) (f a : Nat) (hs : Keeps s0 s) :
    Keeps s0 (State.peek s space f a) := by
  unfold State.peek
  repeat' (first
    | with_reducible assumption
    | with_reducible apply State.peekBar0_keeps
    | with_reducible apply State.peekDevice_keeps
    | with_reducible apply State.dbgAnswer_keeps
    | simp only [Keeps.mk_eq]
    | split)

theorem State.poke_keeps {s0 : State} (s : State) (space : DbgSpace) (f a : Nat) (v : Word) (hs : Keeps s0 s) :
    Keeps s0 (State.poke s space f a v) := by
  unfold State.poke
  repeat' (first
    | with_reducible assumption
    | with_reducible apply State.dbgAnswer_keeps
    | with_reducible apply State.writeReg_keeps
    | with_reducible apply State.devWrite_keeps
    | simp only [Keeps.mk_eq]
    | split)

theorem State.readEnds_keeps {s0 : State} (s : State) (q : ReadReq) (good : Bool) (hs : Keeps s0 s) :
    Keeps s0 (State.readEnds s q good) := by
  unfold State.readEnds
  repeat' (first
    | with_reducible assumption
    | with_reducible apply State.sqArrive_keeps
    | with_reducible apply State.lineArrive_keeps
    | with_reducible apply State.cacheHost_keeps
    | with_reducible apply Keeps.ite
    | with_reducible refine KeepsFields.of ?_ rfl rfl rfl
    | simp only [Keeps.mk_eq]
    | split)

theorem State.restartCopy_keeps {s0 : State} (s : State) (o : NvmOp) (n : Nat) (src : NvmSrc) (t : Nat)
    (hs : Keeps s0 s) :
    Keeps s0 (State.restartCopy s o n src t) := by
  unfold State.restartCopy
  repeat' (first
    | with_reducible assumption
    | with_reducible apply State.finishOp_keeps
    | with_reducible apply Keeps.ite
    | with_reducible refine KeepsFields.of ?_ rfl rfl rfl
    | simp only [Keeps.mk_eq])

theorem State.restoreOps_keeps {s0 : State} (s : State) (l : List (Nat × NvmAct)) (hs : Keeps s0 s) :
    Keeps s0 (State.restoreOps s l) := by
  unfold State.restoreOps
  repeat' (first
    | with_reducible assumption
    | with_reducible apply State.dbgAnswer_keeps
    | with_reducible apply State.refreshDoms_keeps
    | with_reducible refine KeepsFields.of ?_ rfl rfl rfl
    | simp only [Keeps.mk_eq])

theorem State.startCp_keeps {s0 : State} (s : State) (hs : Keeps s0 s) :
    Keeps s0 (State.startCp s) := by
  unfold State.startCp
  repeat' (first
    | with_reducible assumption
    | with_reducible apply State.traceCp_keeps
    | with_reducible apply State.flushWaiting_keeps
    | with_reducible apply State.completionWrite_keeps
    | with_reducible apply Keeps.ite
    | with_reducible apply Keeps.foldl
    | with_reducible refine KeepsFields.of ?_ rfl rfl rfl
    | simp only [Keeps.mk_eq])

theorem State.resumeCp_keeps {s0 : State} (s : State) (hs : Keeps s0 s) :
    Keeps s0 (State.resumeCp s) := by
  unfold State.resumeCp
  repeat' (first
    | with_reducible assumption
    | with_reducible apply State.startCp_keeps
    | with_reducible apply State.retarget_keeps
    | with_reducible apply State.dropAfterHalt_keeps
    | with_reducible apply Keeps.ite
    | with_reducible apply Keeps.foldl)

theorem State.settingsWrite_keeps {s0 : State} (s : State) (t : Nat) (c : Cmd) (mode : Nat) (view : HostView)
    (hs : Keeps s0 s) :
    Keeps s0 (State.settingsWrite s t c mode view) := by
  unfold State.settingsWrite
  repeat' (first
    | with_reducible assumption
    | with_reducible apply State.endCmd_keeps
    | with_reducible apply State.readPlace_keeps
    | with_reducible apply State.queueCmd_keeps
    | with_reducible apply Keeps.ite
    | simp only [Keeps.mk_eq]
    | split)

theorem State.settingsSet_keeps {s0 : State} (s : State) (t mode : Nat) (view : HostView) (hs : Keeps s0 s) :
    Keeps s0 (State.settingsSet s t mode view) := by
  unfold State.settingsSet
  repeat' (first
    | with_reducible assumption
    | with_reducible apply State.onTurn_keeps
    | with_reducible apply State.endCmd_keeps
    | with_reducible apply State.settingsWrite_keeps
    | with_reducible apply Keeps.ite
    | intro _)

theorem State.tenantReset_keeps {s0 : State} (s : State) (t : Nat) (c : Cmd) (hs : Keeps s0 s) :
    Keeps s0 (State.tenantReset s t c) := by
  unfold State.tenantReset
  repeat' (first
    | with_reducible assumption
    | with_reducible apply State.closeSlots_keeps
    | with_reducible apply State.abortCmd_keeps
    | with_reducible apply State.retarget_keeps
    | with_reducible apply State.endResets_keeps
    | with_reducible apply State.freeTenant_keeps
    | with_reducible apply Keeps.ite
    | with_reducible apply Keeps.foldl)

theorem execBypass_keeps {s0 : State} (code : BitVec 8) (len scan : Nat) (s : State) (hs : Keeps s0 s) :
    OutcomeKeeps s0 (execBypass code len scan s) := by
  unfold execBypass
  repeat' (first
    | with_reducible assumption
    | with_reducible apply State.emit_keeps
    | with_reducible apply OutcomeKeeps.next
    | with_reducible apply OutcomeKeeps.ite)

theorem execCancel_keeps {s0 : State} (t : Ticket) (s : State) (hs : Keeps s0 s) :
    OutcomeKeeps s0 (execCancel t s) := by
  unfold execCancel
  repeat' (first
    | with_reducible assumption
    | with_reducible apply State.onCmd_keeps
    | with_reducible apply State.endCmd_keeps
    | with_reducible apply State.cancelCmd_keeps
    | with_reducible apply OutcomeKeeps.next
    | with_reducible apply Keeps.ite
    | intro _
    | simp only [Keeps.mk_eq]
    | split)

theorem execCompletionTimeout_keeps {s0 : State} (tag : Nat) (s : State) (hs : Keeps s0 s) :
    OutcomeKeeps s0 (execCompletionTimeout tag s) := by
  unfold execCompletionTimeout
  repeat' (first
    | with_reducible assumption
    | with_reducible apply State.aer_keeps
    | with_reducible apply State.readEnds_keeps
    | with_reducible apply OutcomeKeeps.next
    | with_reducible apply OutcomeKeeps.ite
    | with_reducible refine KeepsFields.of ?_ rfl rfl rfl
    | simp only [Keeps.mk_eq]
    | split)

theorem execCoreFault_keeps {s0 : State} (core : Fin 64) (s : State) (hs : Keeps s0 s) :
    OutcomeKeeps s0 (execCoreFault core s) := by
  unfold execCoreFault
  repeat' (first
    | with_reducible assumption
    | with_reducible apply State.markCore_keeps
    | with_reducible apply State.logEvent_keeps
    | with_reducible apply State.stopRun_keeps
    | with_reducible apply OutcomeKeeps.next
    | with_reducible apply OutcomeKeeps.ite
    | simp only [Keeps.mk_eq]
    | split)

theorem execDbgPeek_keeps {s0 : State} (space : DbgSpace) (fn : FnId) (addr : BitVec 40) (s : State)
    (hs : Keeps s0 s) :
    OutcomeKeeps s0 (execDbgPeek space fn addr s) := by
  unfold execDbgPeek
  repeat' (first
    | with_reducible assumption
    | with_reducible apply State.dbgAccess_keeps
    | with_reducible apply State.peek_keeps
    | with_reducible apply OutcomeKeeps.next
    | intro _)

theorem execDbgPoke_keeps {s0 : State} (space : DbgSpace) (fn : FnId) (addr : BitVec 40) (data : Word) (s : State)
    (hs : Keeps s0 s) :
    OutcomeKeeps s0 (execDbgPoke space fn addr data s) := by
  unfold execDbgPoke
  repeat' (first
    | with_reducible assumption
    | with_reducible apply State.dbgAccess_keeps
    | with_reducible apply State.poke_keeps
    | with_reducible apply OutcomeKeeps.next
    | intro _)

theorem execDbgStatus_keeps {s0 : State} (s : State) (hs : Keeps s0 s) :
    OutcomeKeeps s0 (execDbgStatus s) := by
  unfold execDbgStatus
  repeat' (first
    | with_reducible assumption
    | with_reducible apply State.emit_keeps
    | with_reducible apply OutcomeKeeps.next)

theorem execDeadlinePass_keeps {s0 : State} (t : Ticket) (s : State) (hs : Keeps s0 s) :
    OutcomeKeeps s0 (execDeadlinePass t s) := by
  unfold execDeadlinePass
  repeat' (first
    | with_reducible assumption
    | with_reducible apply State.deadlinePass_keeps
    | with_reducible apply OutcomeKeeps.next)

theorem execExtest_keeps {s0 : State} (scan : Nat) (s : State) (hs : Keeps s0 s) :
    OutcomeKeeps s0 (execExtest scan s) := by
  unfold execExtest
  repeat' (first
    | with_reducible assumption
    | with_reducible apply State.emit_keeps
    | with_reducible apply OutcomeKeeps.next
    | with_reducible refine KeepsFields.of ?_ rfl rfl rfl
    | simp only [Keeps.mk_eq])

theorem execFwCommit_keeps {s0 : State} (t : Ticket) (s : State) (hs : Keeps s0 s) :
    OutcomeKeeps s0 (execFwCommit t s) := by
  unfold execFwCommit
  repeat' (first
    | with_reducible assumption
    | with_reducible apply State.onTurn_keeps
    | with_reducible apply State.endCmd_keeps
    | with_reducible apply State.imageReads_keeps
    | with_reducible apply State.commandMark_keeps
    | with_reducible apply OutcomeKeeps.next
    | with_reducible apply Keeps.ite
    | intro _)

theorem execFwStage_keeps {s0 : State} (t : Ticket) (s : State) (hs : Keeps s0 s) :
    OutcomeKeeps s0 (execFwStage t s) := by
  unfold execFwStage
  repeat' (first
    | with_reducible assumption
    | with_reducible apply State.onTurn_keeps
    | with_reducible apply State.endCmd_keeps
    | with_reducible apply State.queueCmd_keeps
    | with_reducible apply OutcomeKeeps.next
    | with_reducible apply Keeps.ite
    | intro _
    | simp only [Keeps.mk_eq]
    | split)

theorem execFwWithdraw_keeps {s0 : State} (t : Ticket) (s : State) (hs : Keeps s0 s) :
    OutcomeKeeps s0 (execFwWithdraw t s) := by
  unfold execFwWithdraw
  repeat' (first
    | with_reducible assumption
    | with_reducible apply State.onTurn_keeps
    | with_reducible apply State.endCmd_keeps
    | with_reducible apply State.commandMark_keeps
    | with_reducible apply OutcomeKeeps.next
    | with_reducible apply Keeps.ite
    | intro _)

theorem execHalt_keeps {s0 : State} (s : State) (hs : Keeps s0 s) :
    OutcomeKeeps s0 (execHalt s) := by
  unfold execHalt
  repeat' (first
    | with_reducible assumption
    | with_reducible apply State.dbgAccess_keeps
    | with_reducible apply State.haltCp_keeps
    | with_reducible apply OutcomeKeeps.next)

theorem execIdcode_keeps {s0 : State} (s : State) (hs : Keeps s0 s) :
    OutcomeKeeps s0 (execIdcode s) := by
  unfold execIdcode
  repeat' (first
    | with_reducible assumption
    | with_reducible apply State.emit_keeps
    | with_reducible apply OutcomeKeeps.next)

theorem execL12Entry_keeps {s0 : State} (s : State) (hs : Keeps s0 s) :
    OutcomeKeeps s0 (execL12Entry s) := by
  unfold execL12Entry
  repeat' (first
    | with_reducible assumption
    | with_reducible apply State.retarget_keeps
    | with_reducible apply State.refreshDoms_keeps
    | with_reducible apply OutcomeKeeps.next
    | with_reducible apply OutcomeKeeps.ite
    | with_reducible refine KeepsFields.of ?_ rfl rfl rfl
    | simp only [Keeps.mk_eq])

theorem execL12Timeout_keeps {s0 : State} (s : State) (hs : Keeps s0 s) :
    OutcomeKeeps s0 (execL12Timeout s) := by
  unfold execL12Timeout
  repeat' (first
    | with_reducible assumption
    | with_reducible apply State.retarget_keeps
    | with_reducible apply OutcomeKeeps.next
    | with_reducible apply OutcomeKeeps.ite
    | with_reducible refine KeepsFields.of ?_ rfl rfl rfl
    | simp only [Keeps.mk_eq])

theorem execL1EntryRequest_keeps {s0 : State} (s : State) (hs : Keeps s0 s) :
    OutcomeKeeps s0 (execL1EntryRequest s) := by
  unfold execL1EntryRequest
  repeat' (first
    | with_reducible assumption
    | with_reducible apply OutcomeKeeps.next
    | with_reducible apply OutcomeKeeps.ite
    | with_reducible refine KeepsFields.of ?_ rfl rfl rfl
    | simp only [Keeps.mk_eq])

theorem execL1Exit_keeps {s0 : State} (s : State) (hs : Keeps s0 s) :
    OutcomeKeeps s0 (execL1Exit s) := by
  unfold execL1Exit
  repeat' (first
    | with_reducible assumption
    | with_reducible apply State.retarget_keeps
    | with_reducible apply State.refreshDoms_keeps
    | with_reducible apply OutcomeKeeps.next
    | with_reducible refine KeepsFields.of ?_ rfl rfl rfl
    | simp only [Keeps.mk_eq])

theorem execLock_keeps {s0 : State} (s : State) (hs : Keeps s0 s) :
    OutcomeKeeps s0 (execLock s) := by
  unfold execLock
  repeat' (first
    | with_reducible assumption
    | with_reducible apply State.dbgAccess_keeps
    | with_reducible apply State.dbgDone_keeps
    | with_reducible apply OutcomeKeeps.next
    | with_reducible refine KeepsFields.of ?_ rfl rfl rfl
    | intro _
    | simp only [Keeps.mk_eq])

theorem execPatternInstall_keeps {s0 : State} (t : Ticket) (view : HostView) (s : State) (hs : Keeps s0 s) :
    OutcomeKeeps s0 (execPatternInstall t view s) := by
  unfold execPatternInstall
  repeat' (first
    | with_reducible assumption
    | with_reducible apply State.orWait_keeps
    | with_reducible apply State.onTurn_keeps
    | with_reducible apply State.endCmd_keeps
    | with_reducible apply State.readPlace_keeps
    | with_reducible apply State.installGo_keeps
    | with_reducible apply OutcomeKeeps.next
    | with_reducible apply Keeps.ite
    | intro _
    | simp only [Keeps.mk_eq]
    | split)

theorem execPatternRemove_keeps {s0 : State} (t : Ticket) (s : State) (hs : Keeps s0 s) :
    OutcomeKeeps s0 (execPatternRemove t s) := by
  unfold execPatternRemove
  repeat' (first
    | with_reducible assumption
    | with_reducible apply State.onTurn_keeps
    | with_reducible apply State.endCmd_keeps
    | with_reducible apply State.queueCmd_keeps
    | with_reducible apply State.setTrb_keeps
    | with_reducible apply OutcomeKeeps.next
    | with_reducible apply Keeps.ite
    | intro _
    | split)

theorem execPcieCompletion_keeps {s0 : State} (tag : Nat) (status : CplStatus) (ep : Bool) (data : Bytes)
    (s : State) (hs : Keeps s0 s) :
    OutcomeKeeps s0 (execPcieCompletion tag status ep data s) := by
  unfold execPcieCompletion
  repeat' (first
    | with_reducible assumption
    | with_reducible apply State.aer_keeps
    | with_reducible apply State.parity_keeps
    | with_reducible apply State.readEnds_keeps
    | with_reducible apply OutcomeKeeps.next
    | with_reducible apply OutcomeKeeps.ite
    | with_reducible apply Keeps.ite
    | with_reducible refine KeepsFields.of ?_ rfl rfl rfl
    | simp only [Keeps.mk_eq]
    | split)

theorem execPd1AloneExit_keeps {s0 : State} (s : State) (hs : Keeps s0 s) :
    OutcomeKeeps s0 (execPd1AloneExit s) := by
  unfold execPd1AloneExit
  repeat' (first
    | with_reducible assumption
    | with_reducible apply State.leaveL1_keeps
    | with_reducible apply State.refreshDoms_keeps
    | with_reducible apply OutcomeKeeps.next
    | with_reducible apply OutcomeKeeps.ite
    | with_reducible refine KeepsFields.of ?_ rfl rfl rfl
    | simp only [Keeps.mk_eq])

theorem execPeerQuery_keeps {s0 : State} (t : Ticket) (s : State) (hs : Keeps s0 s) :
    OutcomeKeeps s0 (execPeerQuery t s) := by
  unfold execPeerQuery
  repeat' (first
    | with_reducible assumption
    | with_reducible apply State.onCmd_keeps
    | with_reducible apply State.endCmd_keeps
    | with_reducible apply OutcomeKeeps.next
    | with_reducible apply Keeps.ite
    | intro _)

theorem execRestEnter_keeps {s0 : State} (s : State) (hs : Keeps s0 s) :
    OutcomeKeeps s0 (execRestEnter s) := by
  unfold execRestEnter
  repeat' (first
    | with_reducible assumption
    | with_reducible apply State.refreshDoms_keeps
    | with_reducible apply State.ltrUpdate_keeps
    | with_reducible apply State.flushTrace_keeps
    | with_reducible apply OutcomeKeeps.next
    | with_reducible apply OutcomeKeeps.ite
    | with_reducible apply Keeps.ite
    | with_reducible refine KeepsFields.of ?_ rfl rfl rfl
    | simp only [Keeps.mk_eq])

theorem execRestoreCommit_keeps {s0 : State} (plane : BitVec 16) (s : State) (hs : Keeps s0 s) :
    OutcomeKeeps s0 (execRestoreCommit plane s) := by
  unfold execRestoreCommit
  repeat' (first
    | with_reducible assumption
    | with_reducible apply State.dbgAccess_keeps
    | with_reducible apply State.dbgDone_keeps
    | with_reducible apply State.imageReads_keeps
    | with_reducible apply State.restoreOps_keeps
    | with_reducible apply OutcomeKeeps.next
    | with_reducible apply Keeps.ite
    | intro _)

theorem execRestoreErase_keeps {s0 : State} (plane : BitVec 16) (s : State) (hs : Keeps s0 s) :
    OutcomeKeeps s0 (execRestoreErase plane s) := by
  unfold execRestoreErase
  repeat' (first
    | with_reducible assumption
    | with_reducible apply State.dbgAccess_keeps
    | with_reducible apply State.restoreOps_keeps
    | with_reducible apply State.dbgDone_keeps
    | with_reducible apply OutcomeKeeps.next
    | with_reducible apply Keeps.ite
    | intro _)

theorem execRestoreLoad_keeps {s0 : State} (index : BitVec 16) (word : Word) (s : State) (hs : Keeps s0 s) :
    OutcomeKeeps s0 (execRestoreLoad index word s) := by
  unfold execRestoreLoad
  repeat' (first
    | with_reducible assumption
    | with_reducible apply State.dbgAccess_keeps
    | with_reducible apply State.dbgDone_keeps
    | with_reducible apply OutcomeKeeps.next
    | with_reducible apply Keeps.ite
    | with_reducible refine KeepsFields.of ?_ rfl rfl rfl
    | intro _
    | simp only [Keeps.mk_eq])

theorem execRestoreProgram_keeps {s0 : State} (word : BitVec 16) (plane : Word) (s : State) (hs : Keeps s0 s) :
    OutcomeKeeps s0 (execRestoreProgram word plane s) := by
  unfold execRestoreProgram
  repeat' (first
    | with_reducible assumption
    | with_reducible apply State.dbgAccess_keeps
    | with_reducible apply State.restoreOps_keeps
    | with_reducible apply State.dbgDone_keeps
    | with_reducible apply OutcomeKeeps.next
    | with_reducible apply Keeps.ite
    | intro _)

theorem execResume_keeps {s0 : State} (s : State) (hs : Keeps s0 s) :
    OutcomeKeeps s0 (execResume s) := by
  unfold execResume
  repeat' (first
    | with_reducible assumption
    | with_reducible apply State.dbgAccess_keeps
    | with_reducible apply State.dbgDone_keeps
    | with_reducible apply State.resumeCp_keeps
    | with_reducible apply OutcomeKeeps.next
    | intro _)

theorem execSamplePreload_keeps {s0 : State} (scan : Nat) (s : State) (hs : Keeps s0 s) :
    OutcomeKeeps s0 (execSamplePreload scan s) := by
  unfold execSamplePreload
  repeat' (first
    | with_reducible assumption
    | with_reducible apply State.emit_keeps
    | with_reducible apply State.tick_keeps
    | with_reducible apply OutcomeKeeps.next
    | with_reducible refine KeepsFields.of ?_ rfl rfl rfl
    | simp only [Keeps.mk_eq])

theorem execSensorCalibrate_keeps {s0 : State} (t : Ticket) (delta : BitVec 8) (s : State) (hs : Keeps s0 s) :
    OutcomeKeeps s0 (execSensorCalibrate t delta s) := by
  unfold execSensorCalibrate
  repeat' (first
    | with_reducible assumption
    | with_reducible apply State.onCmd_keeps
    | with_reducible apply State.endCmd_keeps
    | with_reducible apply State.tick_keeps
    | with_reducible apply State.avsRead_keeps
    | with_reducible apply State.emit_keeps
    | with_reducible apply OutcomeKeeps.next
    | with_reducible apply Keeps.ite
    | with_reducible apply Keeps.foldl
    | intro _)

theorem execSetLatency_keeps {s0 : State} (t : Ticket) (s : State) (hs : Keeps s0 s) :
    OutcomeKeeps s0 (execSetLatency t s) := by
  unfold execSetLatency
  repeat' (first
    | with_reducible assumption
    | with_reducible apply State.onCmd_keeps
    | with_reducible apply State.endCmd_keeps
    | with_reducible apply State.retarget_keeps
    | with_reducible apply State.updFn_keeps
    | with_reducible apply OutcomeKeeps.next
    | with_reducible apply Keeps.ite
    | intro _)

theorem execSettingsGet_keeps {s0 : State} (t : Ticket) (s : State) (hs : Keeps s0 s) :
    OutcomeKeeps s0 (execSettingsGet t s) := by
  unfold execSettingsGet
  repeat' (first
    | with_reducible assumption
    | with_reducible apply State.onTurn_keeps
    | with_reducible apply State.endCmd_keeps
    | with_reducible apply State.writePlace_keeps
    | with_reducible apply OutcomeKeeps.next
    | with_reducible apply Keeps.ite
    | intro _
    | split)

theorem execSettingsLockLapse_keeps {s0 : State} (s : State) (hs : Keeps s0 s) :
    OutcomeKeeps s0 (execSettingsLockLapse s) := by
  unfold execSettingsLockLapse
  repeat' (first
    | with_reducible assumption
    | with_reducible apply State.restartCopy_keeps
    | with_reducible apply OutcomeKeeps.next
    | with_reducible apply OutcomeKeeps.ite
    | with_reducible refine KeepsFields.of ?_ rfl rfl rfl
    | simp only [Keeps.mk_eq]
    | split)

theorem execSettingsSetMigrate_keeps {s0 : State} (t : Ticket) (view : HostView) (s : State) (hs : Keeps s0 s) :
    OutcomeKeeps s0 (execSettingsSetMigrate t view s) := by
  unfold execSettingsSetMigrate
  repeat' (first
    | with_reducible assumption
    | with_reducible apply State.orWait_keeps
    | with_reducible apply State.settingsSet_keeps
    | with_reducible apply OutcomeKeeps.next)

theorem execSettingsSetReplace_keeps {s0 : State} (t : Ticket) (view : HostView) (s : State) (hs : Keeps s0 s) :
    OutcomeKeeps s0 (execSettingsSetReplace t view s) := by
  unfold execSettingsSetReplace
  repeat' (first
    | with_reducible assumption
    | with_reducible apply State.orWait_keeps
    | with_reducible apply State.settingsSet_keeps
    | with_reducible apply OutcomeKeeps.next)

theorem execSettingsSetUpdate_keeps {s0 : State} (t : Ticket) (view : HostView) (s : State) (hs : Keeps s0 s) :
    OutcomeKeeps s0 (execSettingsSetUpdate t view s) := by
  unfold execSettingsSetUpdate
  repeat' (first
    | with_reducible assumption
    | with_reducible apply State.orWait_keeps
    | with_reducible apply State.settingsSet_keeps
    | with_reducible apply OutcomeKeeps.next)

theorem execStep_keeps {s0 : State} (s : State) (hs : Keeps s0 s) :
    OutcomeKeeps s0 (execStep s) := by
  unfold execStep
  repeat' (first
    | with_reducible assumption
    | with_reducible apply State.dbgAccess_keeps
    | with_reducible apply State.dbgDone_keeps
    | with_reducible apply State.traceCp_keeps
    | with_reducible apply OutcomeKeeps.next
    | with_reducible apply Keeps.ite
    | intro _)

theorem execTenantReset_keeps {s0 : State} (t : Ticket) (s : State) (hs : Keeps s0 s) :
    OutcomeKeeps s0 (execTenantReset t s) := by
  unfold execTenantReset
  repeat' (first
    | with_reducible assumption
    | with_reducible apply State.onCmd_keeps
    | with_reducible apply State.endCmd_keeps
    | with_reducible apply State.tenantReset_keeps
    | with_reducible apply OutcomeKeeps.next
    | with_reducible apply Keeps.ite
    | intro _)

theorem execTraceLostEmit_keeps {s0 : State} (s : State) (hs : Keeps s0 s) :
    OutcomeKeeps s0 (execTraceLostEmit s) := by
  unfold execTraceLostEmit
  repeat' (first
    | with_reducible assumption
    | with_reducible apply OutcomeKeeps.next
    | with_reducible apply OutcomeKeeps.ite
    | with_reducible refine KeepsFields.of ?_ rfl rfl rfl
    | simp only [Keeps.mk_eq])

theorem execUnlockCheck_keeps {s0 : State} (s : State) (hs : Keeps s0 s) :
    OutcomeKeeps s0 (execUnlockCheck s) := by
  unfold execUnlockCheck
  repeat' (first
    | with_reducible assumption
    | with_reducible apply State.dbgAccess_keeps
    | with_reducible apply State.dbgDone_keeps
    | with_reducible apply OutcomeKeeps.next
    | with_reducible apply Keeps.ite
    | with_reducible refine KeepsFields.of ?_ rfl rfl rfl
    | intro _
    | simp only [Keeps.mk_eq])

theorem execUnlockLoad_keeps {s0 : State} (index : BitVec 16) (word : Word) (s : State) (hs : Keeps s0 s) :
    OutcomeKeeps s0 (execUnlockLoad index word s) := by
  unfold execUnlockLoad
  repeat' (first
    | with_reducible assumption
    | with_reducible apply State.dbgAccess_keeps
    | with_reducible apply State.dbgDone_keeps
    | with_reducible apply OutcomeKeeps.next
    | with_reducible apply Keeps.ite
    | with_reducible refine KeepsFields.of ?_ rfl rfl rfl
    | intro _
    | simp only [Keeps.mk_eq])

theorem execWake_keeps {s0 : State} (source : Fin 7) (s : State) (hs : Keeps s0 s) :
    OutcomeKeeps s0 (execWake source s) := by
  unfold execWake
  repeat' (first
    | with_reducible assumption
    | with_reducible apply State.wake_keeps
    | with_reducible apply OutcomeKeeps.next)

end Sys2Proof.Machine
end

