-- ==== Sys2Proof/Laws/KeepsI.lean ====
section
/-!
SUPPORT. `Keeps` of every operation of Machine/Tick.lean.
-/

namespace Sys2Proof.Machine

theorem State.busyTick_keeps {s0 : State} (s : State) (f : Nat) (hs : Keeps s0 s) :
    Keeps s0 (State.busyTick s f) := by
  unfold State.busyTick
  repeat' (first
    | with_reducible assumption
    | with_reducible apply State.updFn_keeps
    | with_reducible apply State.stat_keeps
    | with_reducible apply Keeps.ite)

theorem State.codeLine_keeps {s0 : State} (s : State) (l : Nat) (hs : Keeps s0 s) :
    Keeps s0 (State.codeLine s l) := by
  unfold State.codeLine
  repeat' (first
    | with_reducible assumption
    | with_reducible apply State.readWord_keeps
    | with_reducible apply State.setTrb_keeps
    | with_reducible apply Keeps.ite
    | with_reducible refine KeepsFields.of ?_ rfl rfl rfl
    | simp only [Keeps.mk_eq])

theorem State.fetchLine_keeps {s0 : State} (s : State) (l : Nat) (hs : Keeps s0 s) :
    Keeps s0 (State.fetchLine s l) := by
  unfold State.fetchLine
  repeat' (first
    | with_reducible assumption
    | with_reducible apply State.codeLine_keeps
    | with_reducible apply State.readRow_keeps
    | with_reducible apply Keeps.ite
    | with_reducible refine KeepsFields.of ?_ rfl rfl rfl
    | simp only [Keeps.mk_eq])

theorem State.cpFetch_keeps {s0 : State} (s : State) (hs : Keeps s0 s) :
    Keeps s0 (State.cpFetch s) := by
  unfold State.cpFetch
  repeat' (first
    | with_reducible assumption
    | with_reducible apply State.fetchLine_keeps
    | with_reducible apply State.tick_keeps
    | with_reducible apply Keeps.ite)

theorem State.dramUpset_keeps {s0 : State} (s : State) (hs : Keeps s0 s) :
    Keeps s0 (State.dramUpset s) := by
  unfold State.dramUpset
  repeat' (first
    | with_reducible assumption
    | with_reducible apply State.lpSetErr_keeps
    | with_reducible apply State.tick_keeps
    | with_reducible apply State.lpGarble_keeps
    | with_reducible apply Keeps.ite)

theorem State.idleFlits_keeps {s0 : State} (s : State) (hs : Keeps s0 s) :
    Keeps s0 (State.idleFlits s) := by
  unfold State.idleFlits
  refine Keeps.foldl hs fun y b hy => ?_
  exact Keeps.ite (State.sendIdle_keeps y b hy) hy

theorem State.idleTick_keeps {s0 : State} (s : State) (hs : Keeps s0 s) :
    Keeps s0 (State.idleTick s) := by
  unfold State.idleTick
  repeat' (first
    | with_reducible assumption
    | with_reducible refine KeepsFields.of ?_ rfl rfl rfl
    | simp only [Keeps.mk_eq])

theorem State.lockTick_keeps {s0 : State} (s : State) (hs : Keeps s0 s) :
    Keeps s0 (State.lockTick s) := by
  unfold State.lockTick
  repeat' (first
    | with_reducible assumption
    | with_reducible apply Keeps.ite
    | with_reducible refine KeepsFields.of ?_ rfl rfl rfl
    | simp only [Keeps.mk_eq])

theorem State.wdTick_keeps {s0 : State} (s : State) (hs : Keeps s0 s) :
    Keeps s0 (State.wdTick s) := by
  unfold State.wdTick
  repeat' (first
    | with_reducible assumption
    | with_reducible refine KeepsFields.of ?_ rfl rfl rfl
    | simp only [Keeps.mk_eq])

theorem State.wdoTick_keeps {s0 : State} (s : State) (hs : Keeps s0 s) :
    Keeps s0 (State.wdoTick s) := by
  unfold State.wdoTick
  repeat' (first
    | with_reducible assumption
    | with_reducible apply State.lockTick_keeps
    | with_reducible apply State.wdTick_keeps
    | with_reducible apply State.tick_keeps
    | with_reducible apply Keeps.ite)

theorem State.timeTick_keeps {s0 : State} (s : State) (hs : Keeps s0 s) :
    Keeps s0 (State.timeTick s) := by
  unfold State.timeTick
  repeat' (first
    | with_reducible assumption
    | with_reducible apply State.idleFlits_keeps
    | with_reducible apply State.idleTick_keeps
    | with_reducible apply State.cpFetch_keeps
    | with_reducible apply State.dramUpset_keeps
    | with_reducible apply State.wdoTick_keeps
    | with_reducible apply State.drainTrace_keeps
    | with_reducible apply State.busyTick_keeps
    | with_reducible apply Keeps.ite
    | with_reducible apply Keeps.foldl
    | with_reducible refine KeepsFields.of ?_ rfl rfl rfl
    | simp only [Keeps.mk_eq])

end Sys2Proof.Machine
end

