-- ==== Sys2Proof/WellFormed.lean ====
section
/-!
DEFINITION. Which commands are well formed: the operands that the types do not already hold in range. A BAR access of
a size that R7 or R317 does not give, a flit that is not 72 bytes, a completion longer than a read request can be.
-/

namespace Sys2Proof

/-- An access of 4 or 8 bytes is aligned. -/
def BarSel.aligned (r : BarSel) (offset : BitVec 17) (is64 : Bool) : Bool :=
  let n := match r with
    | .bar0 => offset.toNat
    | .bar4 => offset.toNat
    | .address a => a.toNat
  decide (n % (if is64 then 8 else 4) = 0)

/-- The checks that the operands' types leave. -/
def wellFormed (i : Instr) : Bool :=
  match i with
  | .barMisalignedAccess _ _ _ len => decide (1 ≤ len) && decide (len ≤ 4096)
  | .bar2Read _ len => decide (1 ≤ len) && decide (len ≤ 4096)
  | .bar2Write _ data => decide (1 ≤ data.length) && decide (data.length ≤ 512)
  | .pcieCompletion _ _ _ data => decide (data.length ≤ 4096)
  | .weftDataFlit _ flit => decide (flit.length = 72)
  | .weftCtrlFlit _ flit => decide (flit.length = 72)
  | .weftAck _ flit => decide (flit.length = 72)
  | .weftNak _ flit => decide (flit.length = 72)
  | .weftCredit _ flit => decide (flit.length = 72)
  | .weftHello _ flit => decide (flit.length = 72)
  | .rcRead bar _ offset is64 => bar.aligned offset is64
  | .latchLowRead _ offset => decide (offset.toNat % 8 = 0)
  | .latchHighRead _ offset => decide (offset.toNat % 8 = 4)
  | .registerWrite bar _ offset is64 _ => bar.aligned offset is64
  | _ => true

end Sys2Proof
end

