-- ==== Sys2Proof/Tests/Slice0.lean ====
section
/-!
SUPPORT. Small tests: ill-formed commands are refused by `wellFormed`, worked examples of the spec hold, and for each statement
with hypotheses a concrete state that meets them.
-/

namespace Sys2Proof.Machine

set_option Elab.async false

/-! ## Small states -/

/-- The firmware runs, the PF is enabled, its vector 1 is unmasked, its host window 0 spans 4 GiB. -/
def up : State := { State.reset with
  life := { phase := .running, ready := true }
  pcie := { mse := true, crs := false, dlActive := true }
  fns := [(0, { bme := true, msixEn := true, vecs := [(1, { addr := 0x1000, data := 1, mask := false })]
                hwin := [(0, { limit := 0xFFFFF, en := true, rd := true, wr := true })] })] }

/-- As `up`, with ring 0 of the PF configured and in a state. -/
def upRing (x : RingState) : State := up.updRing 0 0 fun r => { r with sqLog2 := 4, cqLog2 := 4, vector := 2, state := x }

/-- A device window over the first 16 MiB of LP5X. -/
def dev : Table DWin := [(0, { limit := 0xFFF, en := true, rd := true, wr := true })]

/-- As `up`, with a dispatched command of the PF under ticket 5. -/
def holds (op : Nat) (ps : List Word) : State := { up with
  cmds := [(5, { fn := 0, ring := 0, seq := 0, entry := BitVec.ofNat 32 op :: ps, time := 0, order := 0, phase := .ready
                 hwin := (up.fnSt 0).hwin, dwin := dev })] }

/-- As `up`, with both Weft ports up. -/
def weftUp : State := { up with weft := { up.weft with
  ports := [(0, { up := true, neighbour := some 1 }), (1, { up := true, neighbour := some 3 })] } }

/-- A flit of a kind and number from chip 1 for chip 0. -/
def flit (kind seq : Nat) : Bytes := flitSeal seq (flitBody kind 0 1 false 0 [])

/-! ## A state with an installed pattern -/

/-- A directory slot's first 7,936 bytes: a body with its CRC. -/
def slotImg (b : Bytes) : Bytes := b ++ leBytes 4 (crc32 b).toNat
/-- Code word `w` of it. -/
def slotPart (b : Bytes) (w : Nat) : Bytes := ((slotImg b).drop (256 * w)).take 256
/-- A state whose weight store holds one installed pattern, in slot 0 of the active plane, and other code words before it. -/
def withSlot (b : Bytes) (s : State) (v : Bool := true) (pre : Table NvmWord := []) : State := { s with
  fw := { s.fw with running := 0 }
  nvm := { vppOk := v, words := pre ++ (List.range' 0 31).map fun w => (wordKey 64 50 w, ({ flag := 8, data := slotPart b w } : NvmWord)) } }

/-- A little-endian string gives its number back. -/
theorem leNat_leBytes (n v : Nat) : leNat (leBytes n v) = v % 256 ^ n := by
  induction n generalizing v with
  | zero => simp [leBytes, leNat, Nat.mod_one]
  | succ n ih =>
    rw [leBytes, leNat, ih, BitVec.toNat_ofNat, Nat.pow_succ' (n := n), show 2 ^ 8 = 256 from rfl, Nat.mod_mul]

theorem length_leBytes (n v : Nat) : (leBytes n v).length = n := by
  induction n generalizing v with
  | zero => rfl
  | succ n ih => simp [leBytes, ih]

theorem mapM_some {α β : Type} {f : α → Option β} {g : α → β} {l : List α} (h : ∀ x ∈ l, f x = some (g x)) :
    l.mapM f = some (l.map g) := by
  induction l with
  | nil => rfl
  | cons a l ih =>
    rw [List.mapM_cons, h a (by simp), ih fun x hx => h x (by simp [hx])]
    rfl

theorem parts_flatten (b : Bytes) (n : Nat) : ((List.range n).map fun w => (b.drop (256 * w)).take 256).flatten = b.take (256 * n) := by
  induction n with
  | zero => simp
  | succ n ih =>
    rw [List.range_succ, List.map_append, List.flatten_append, ih, Nat.mul_succ, List.take_add]
    simp

theorem get_row {α : Type} (d : α) (f : Nat → α) (k n : Nat) : ∀ (a w : Nat), a ≤ w → w < a + n →
    Table.get d ((List.range' a n).map fun i => (k + i, f i)) (k + w) = f w := by
  induction n with
  | zero => intro a w h1 h2; omega
  | succ n ih =>
    intro a w h1 h2
    simp only [List.range'_succ, List.map_cons, Table.get]
    by_cases e : w = a
    · rw [if_pos (by omega), e]
    · rw [if_neg (by omega), ih (a + 1) w (by omega) (by omega)]

theorem get_skip {α : Type} (d : α) (k : Nat) (l : Table α) : ∀ pre : Table α, (∀ p ∈ pre, p.1 ≠ k) →
    Table.get d (pre ++ l) k = Table.get d l k := by
  intro pre
  induction pre with
  | nil => intro _; rfl
  | cons p t ih =>
    intro h
    simp only [List.cons_append, Table.get]
    rw [if_neg fun e => h p (by simp) e.symm, ih fun q hq => h q (by simp [hq])]

theorem slot_good (b : Bytes) (s : State) (v : Bool) (pre : Table NvmWord) (hp : ∀ p ∈ pre, p.1 < wordKey 64 50 0) (w : Nat)
    (h : w ∈ List.range 31) : (withSlot b s v pre).nvm.goodWord 64 (slotBlock 0) (slotFirst 0 + w) = some (slotPart b w) := by
  rw [List.mem_range] at h
  have e : (withSlot b s v pre).nvm.word 64 (slotBlock 0) (slotFirst 0 + w) = { flag := 8, data := slotPart b w } := by
    have := get_row ({} : NvmWord) (fun w => { flag := 8, data := slotPart b w }) (wordKey 64 50 0) 31 0 w (by omega) (by omega)
    rw [show slotFirst 0 + w = w by simp [slotFirst]]
    refine (get_skip _ _ _ _ fun p q => ?_).trans this
    have := hp p q
    have e : wordKey 64 (({ words := [] } : Nvm).physOf 64 (slotBlock 0)) w = wordKey 64 50 0 + w := rfl
    exact Nat.ne_of_lt (Nat.lt_of_lt_of_le this (Nat.le_add_right _ _))
  simp only [Nvm.goodWord, e]
  rfl

/-- It is installed. -/
theorem slot_patternOf (b : Bytes) (h : b.length = 7932) (s : State) (v : Bool) (x : Word) (hx : bitsOf x 7 0 = 0)
    (hh : Pattern.handle (slotImg b) = x) (pre : Table NvmWord) (hp : ∀ p ∈ pre, p.1 < wordKey 64 50 0)
    (h1 : (withSlot b s v pre).nvm.slotCopy 1 0 = none)
    (ht : (withSlot b s v pre).nvm.tombed 0 0 = false ∧ (withSlot b s v pre).nvm.tombed 1 0 = false) :
    (withSlot b s v pre).patternOf x = some (0, slotImg b) := by
  have hl : (slotImg b).length = 7936 := by simp [slotImg, h, length_leBytes]
  have hf : ((List.range 31).map (slotPart b)).flatten = slotImg b := by
    refine (parts_flatten (slotImg b) 31).trans (List.take_of_length_le ?_)
    rw [hl]
  have hc : leAt (slotImg b) 7932 4 = (crc32 ((slotImg b).take 7932)).toNat := by
    have h1 : (slotImg b).take 7932 = b := by rw [slotImg, List.take_left' h]
    have h2 : (slotImg b).drop 7932 = leBytes 4 (crc32 b).toNat := by rw [slotImg, List.drop_left' h]
    rw [h1, leAt, h2, List.take_of_length_le (Nat.le_of_eq (length_leBytes _ _)), leNat_leBytes]
    exact Nat.mod_eq_of_lt (crc32 b).isLt
  have h0 : (withSlot b s v pre).nvm.slotCopy 0 0 = some (slotImg b) := by
    unfold Nvm.slotCopy
    rw [mapM_some (slot_good b s v pre hp)]
    simp only [hf]
    rw [if_pos hc]
  have hb : (withSlot b s v pre).nvm.slotTaken 0 0 = some (slotImg b) := by
    simp [Nvm.slotTaken, ht.1, ht.2, Nvm.slotBest, h0, h1]
  unfold State.patternOf
  simp only [hx, show (withSlot b s v pre).fw.running = 0 from rfl, hb, hh, if_true]

/-- A pattern of one stage without pieces, under handle 0x100. -/
def patBody : Bytes := zeroBytes 22 ++ [1] ++ zeroBytes 50 ++ [1] ++ zeroBytes 7858

theorem patBody_length : patBody.length = 7932 := by
  simp only [patBody, zeroBytes, List.length_append, List.length_replicate, List.length_cons, List.length_nil]

/-- As `holds`, with that pattern installed. -/
def installed (op : Nat) (ps : List Word) : State := withSlot patBody (holds op ps)

theorem installed_pattern (op : Nat) (ps : List Word) : (installed op ps).patternOf 0x100 = some (0, slotImg patBody) :=
  slot_patternOf patBody patBody_length (holds op ps) true 0x100 (by decide) (by decide +kernel) [] (by simp) rfl ⟨rfl, rfl⟩

theorem withSlot_bind (b : Bytes) (s : State) (k : Nat) : (withSlot b s).bind k = s.bind k := rfl

/-- A binding of it: index 0, count 1, handle 64. -/
def oneBind : Table Binding := [(0, { live := true, count := 1, pattern := 0x100, groups := 1, parts := [0] })]

/-- As `installed`, with that binding. -/
def bound (op : Nat) (ps : List Word) : State := withSlot patBody { holds op ps with binds := oneBind }

theorem bindPattern_of {s : State} {x : Binding} {i : Nat} {p : Bytes} (h : s.patternOf x.pattern = some (i, p)) :
    s.bindPattern x = p := by
  unfold State.bindPattern
  rw [h]

theorem bound_patternOf (op : Nat) (ps : List Word) : (bound op ps).patternOf 0x100 = some (0, slotImg patBody) :=
  slot_patternOf patBody patBody_length { holds op ps with binds := oneBind } true 0x100 (by decide) (by decide +kernel)
    [] (by simp) rfl ⟨rfl, rfl⟩

theorem bound_bind (op : Nat) (ps : List Word) : ((bound op ps).bind 0).pattern = 0x100 := by
  rw [bound, withSlot_bind]
  rfl

theorem bound_pattern (op : Nat) (ps : List Word) : (bound op ps).bindPattern ((bound op ps).bind 0) = slotImg patBody := by
  apply bindPattern_of (i := 0)
  rw [bound_bind]
  exact bound_patternOf op ps

/-- The command that `holds` dispatches. -/
def heldCmd (op : Nat) (ps : List Word) : Cmd :=
  { fn := 0, ring := 0, seq := 0, entry := BitVec.ofNat 32 op :: ps, time := 0, order := 0, phase := .ready
    hwin := (up.fnSt 0).hwin, dwin := dev }

/-! ## A state with a pattern of one array layer -/

/-- Its layer record: a CONV with a 1x1 window over 32 channels of INT8, from a buffer to buffer 1. -/
def layRec (src : Nat) (widen : Bool := false) : Bytes :=
  leBytes 4 (0x80444400 + 0x20000000 * b2n widen) ++ zeroBytes 4 ++ leBytes 4 0x24002001 ++ leBytes 4 (32 + 1024 * 32) ++ zeroBytes 4
    ++ zeroBytes 8 ++ leBytes 2 1 ++ leBytes 2 32 ++ leBytes 2 1 ++ leBytes 2 1 ++ leBytes 2 32 ++ leBytes 2 32 ++ leBytes 2 1 ++ leBytes 2 1
    ++ leBytes 4 0x3F800000 ++ leBytes 4 0x3F800000 ++ zeroBytes 8 ++ leBytes 1 src ++ leBytes 1 1 ++ leBytes 2 0xFF ++ zeroBytes 12
    ++ leBytes 4 32 ++ leBytes 4 32 ++ zeroBytes 44

/-- Its slot: one stage, one piece of one layer on core 0; four code words of weights, one of records, two of tables. -/
def layBody : Bytes := zeroBytes 20 ++ [1, 0, 1] ++ zeroBytes 50 ++ [1] ++ zeroBytes 54 ++ leBytes 4 (128 + 16384 * 7) ++ zeroBytes 636
  ++ [0, 0, 1, 1, 0, 0, 1, 0] ++ zeroBytes 8 ++ leBytes 4 1024 ++ zeroBytes 4 ++ leBytes 4 512 ++ zeroBytes 7136

theorem layBody_length : layBody.length = 7932 := by
  simp only [layBody, zeroBytes, List.length_append, List.length_replicate, List.length_cons, List.length_nil, length_leBytes]

/-- A binding of it: index 0, count 1, handle 64. -/
def layBind : Binding := { live := true, count := 1, pattern := 0x100, groups := 1, parts := [0], cores := [0] }

/-- A state with that pattern and record, and with a binding of it. -/
def laid (s : State) (b : Binding := layBind) (r : Bytes := layRec 0) : State :=
  withSlot layBody { s with binds := [(0, b)] } true [(wordKey 0 0 4, { flag := 8, data := r ++ zeroBytes 128 })]

theorem patternOf_like {u s : State} (hn : u.nvm = s.nvm) (hf : u.fw.running = s.fw.running) (x : Word) : u.patternOf x = s.patternOf x := by
  unfold State.patternOf
  rw [hn, hf]

/-- Every state with that weight store has the pattern. -/
theorem laid_like {u s : State} {b : Binding} {r : Bytes} (hn : u.nvm = (laid s b r).nvm) (hf : u.fw.running = 0) {k : Nat}
    (hb : (u.bind k).pattern = 0x100) : u.bindPattern (u.bind k) = slotImg layBody := by
  have h := slot_patternOf layBody layBody_length { s with binds := [(0, b)] } true 0x100 (by decide) (by decide +kernel)
    [(wordKey 0 0 4, { flag := 8, data := r ++ zeroBytes 128 })]
    (fun p h => by rw [List.mem_singleton.mp h]; exact (by decide : wordKey 0 0 4 < wordKey 64 50 0)) rfl ⟨rfl, rfl⟩
  apply bindPattern_of (i := 0)
  rw [hb]
  exact (patternOf_like hn hf _).trans h

theorem lay_facts : Pattern.stageCount (slotImg layBody) = 1 ∧ Pattern.dynCount (slotImg layBody) = 0
    ∧ piecesFor (slotImg layBody) [] = [0] ∧ Pattern.chipsDim (slotImg layBody) = none := by decide +kernel

/-- How far a bind, or a preparation, has come. -/
def BindStep.isDone : BindStep → Bool
  | .done _ _ => true
  | _ => false
def Prep.isGood : Prep → Bool
  | .good _ _ => true
  | .bad _ _ => false

theorem BindStep.done_of {b : BindStep} (h : b.isDone = true) : ∃ a k, b = .done a k := by
  cases b with
  | done a k => exact ⟨a, k, rfl⟩
  | refuse a st => cases h
  | wait a => cases h

theorem Prep.good_of {p : Prep} (h : p.isGood = true) : ∃ a x, p = .good a x := by
  cases p with
  | good a x => exact ⟨a, x, rfl⟩
  | bad a st => cases h

/-- The smallest package: one stage, one piece on core 0, one layer of a vector operator. -/
def pkg : Bytes :=
  [75, 80, 65, 84, 0, 1, 0, 0, 1] ++ zeroBytes 7 ++ [128, 2, 0, 0, 1, 0, 1] ++ zeroBytes 37 ++ [197, 151, 159, 109,
  1, 0, 0, 0, 192] ++ zeroBytes 11 ++ [2, 0, 0, 0, 192, 0, 0, 0, 64, 0, 0, 0, 183, 74, 230, 197, 3] ++ zeroBytes 4
  ++ [1, 0, 0, 128, 0, 0, 0, 58, 46, 221, 39, 5, 0, 0, 0, 128, 1, 0, 0, 0, 1, 0, 0, 88, 133, 150, 13] ++ zeroBytes
  66 ++ [1, 1, 255, 255, 1] ++ zeroBytes 18 ++ [1] ++ zeroBytes 38 ++ [16, 64, 68, 128] ++ zeroBytes 4 ++ [1, 32, 0,
  36, 1, 4] ++ zeroBytes 14 ++ [1, 0, 1, 0, 1, 0, 1, 0, 1, 0, 1, 0, 1, 0, 1] ++ zeroBytes 18 ++ [1, 255] ++
  zeroBytes 321

/-- Host memory that holds it at address 0. -/
def pkgView : HostView := [{ base := 0, data := pkg }]

/-- An install of it, over a weight store. -/
def installState (v : Nvm) : State := { holds 0x10 [0, 0, 0, 640] with nvm := v }

/-- What an install reads: the state after it, and the package. -/
def installRead (v : Nvm) : State × Except ReadFail Bytes := (installState v).readPlace pkgView 0 (.host 0 false) 640

/-- The plan of the package on an empty store. -/
def pkgPlan : List Extent := (placeExtents [] pkg).getD []

set_option maxRecDepth 100000 in
theorem pkg_ok : pkgOk pkg = true ∧ placeExtents [] pkg = some pkgPlan ∧ pkgPlan.map (fun e => e.bank) = [0] := by decide +kernel

/-! ## Well-formed commands -/

/-- Each check of `wellFormed` refuses a term, and passes one at its bound. -/
theorem test_wellFormed_bar : wellFormed (.rcRead .bar0 0 2 false) = false ∧ wellFormed (.rcRead .bar0 0 4 false) = true
    ∧ wellFormed (.rcRead .bar0 0 4 true) = false ∧ wellFormed (.registerWrite (.address 7) 0 0 false 0) = false
    ∧ wellFormed (.latchLowRead 0 4) = false ∧ wellFormed (.latchHighRead 0 8) = false ∧ wellFormed (.latchHighRead 0 12) = true := by
  decide

theorem test_wellFormed_flit : ∀ f ∈ [zeroBytes 71, zeroBytes 73],
    ∀ c ∈ [Instr.weftDataFlit 0 f, .weftCtrlFlit 0 f, .weftAck 0 f, .weftNak 0 f, .weftCredit 0 f, .weftHello 0 f], wellFormed c = false := by
  decide +kernel

theorem test_wellFormed_length : wellFormed (.bar2Read 0 0) = false ∧ wellFormed (.bar2Read 0 4097) = false ∧ wellFormed (.bar2Read 0 4096) = true
    ∧ wellFormed (.bar2Write 0 []) = false ∧ wellFormed (.bar2Write 0 (zeroBytes 513)) = false := by decide +kernel

theorem test_decode_none : decodeTableWord 32 0x13 = none := rfl

/-! ## Worked examples -/

/-- CRC-32 of the nine digits (R208's polynomial and conventions; the check value of that CRC). -/
theorem test_crc32 : crc32 [49, 50, 51, 52, 53, 54, 55, 56, 57] = 0xCBF43926 := by decide +kernel

/-- Example 5.8-a: the accumulator 48,354 with m = 2 to the -9 and b = 0.1 / 0.015625 is stored as 101. -/
theorem test_example_5_8_a :
    (fmtStore 4 0 (f32fma (rne32 (Fp.ofInt 48354)) 0x3B000000 (f32div 0x3DCCCCCD 0x3C800000))).1 = 101 := by decide +kernel

/-- The same example: 6.5 rounds to 6, ties to even, and 128 is added. -/
theorem test_example_5_8_a_quantise : (fmtStore 5 128 (f32mul 0x3ED00000 0x41800000)).1 = 134 := by decide +kernel


/-! ## The hypotheses of the statements can be met -/

theorem witness_emptyQueue_powered : State.reset.pending = [] ∧ State.reset.pins.vddAon = true := by decide

theorem witness_emptyQueue_unpowered : ∃ s : State, s.pending = [] ∧ s.pins.vddAon = false :=
  ⟨{ State.reset with pins := { vddAon := false } }, by decide⟩

theorem witness_execNext : ∃ t, exec .idcode State.reset = .next t := ⟨_, rfl⟩

theorem witness_memWf_step : State.reset.memWf = true ∧ ∃ t, step { State.reset with pending := [.idcode] } = .next t :=
  ⟨by decide, _, rfl⟩

theorem witness_step_next : ∃ t, step State.reset = .next t := ⟨_, rfl⟩

theorem witness_endCmd : ∃ c, (holds 0x00 []).cmd? 5 = some c ∧ St.ok ≠ St.coreFault ∧ St.ok ≠ St.peerLost :=
  ⟨_, rfl, by decide, by decide⟩

theorem witness_lpWrite_clean : State.reset.addr.eccOn = false ∨ ∀ l, Table.get 0 State.reset.addr.lpErr l ≤ 2 :=
  .inr fun _ => Nat.zero_le 2

theorem witness_lpWrite : (0 : Nat) ≤ 64 * 0 ∧ 64 * 0 + 64 ≤ 0 + (zeroBytes 64).length ∧ 64 * 1 + 64 ≥ 0 + (zeroBytes 64).length := by decide

theorem witness_event_sent : ∃ s : State, bitOf s.pcie.evtCause 0 = false ∧ bitOf s.pcie.evtMask 0 = false
    ∧ (s.fnSt 0).msixEn = true ∧ (s.fnSt 0).fnMask = false ∧ (Table.get {} (s.fnSt 0).vecs 1).mask = false
    ∧ s.power.level ≠ 4 ∧ s.life.phase = .running ∧ s.canSend 0 = true :=
  ⟨up, by decide⟩

theorem witness_event_set : ∃ s : State, bitOf s.pcie.evtCause 4 = true ∧ bitOf s.trouble.trb Trb.fwNotReady.bit = true :=
  ⟨{ up with pcie := { up.pcie with evtCause := 0x10 }, trouble := { trb := 0x80000 } }, by decide⟩

theorem witness_event_masked : ∃ s : State, bitOf s.pcie.evtCause 4 = false ∧ bitOf s.pcie.evtMask 4 = true
    ∧ bitOf s.trouble.trb Trb.needsPowerCycle.bit = false :=
  ⟨{ up with pcie := { up.pcie with evtMask := 0x10 } }, by decide⟩

theorem witness_event_vector_masked : ∃ s : State, bitOf s.pcie.evtCause 0 = false ∧ bitOf s.pcie.evtMask 0 = false
    ∧ (s.fnSt 0).msixEn = true ∧ (s.fnSt 0).fnMask = true :=
  ⟨up.updFn 0 fun x => { x with fnMask := true }, by decide⟩

theorem witness_nop : ∃ c, (holds 0x00 []).Waits 5 0x00 c ∧ Entry.zeros c.entry [1, 2, 3, 4, 5, 6, 7, 8, 9, 10, 11, 12, 13, 14, 15] = true :=
  ⟨_, ⟨rfl, by decide, by decide, by decide, by decide⟩, by decide⟩

theorem witness_query : ∃ c a b, (holds 0x01 [0, 1]).Waits 5 0x01 c
    ∧ (holds 0x01 [0, 1]).queryItem c.fn (bitsOf (Entry.dw c.entry 2) 7 0) (Entry.handle c.entry) = some (a, b) :=
  ⟨_, _, _, ⟨rfl, by decide, by decide, by decide, by decide⟩, rfl⟩

theorem witness_query_bad : ∃ c, (holds 0x01 [0, 4]).Waits 5 0x01 c
    ∧ (holds 0x01 [0, 4]).queryItem c.fn (bitsOf (Entry.dw c.entry 2) 7 0) (Entry.handle c.entry) = none :=
  ⟨_, ⟨rfl, by decide, by decide, by decide, by decide⟩, rfl⟩

theorem witness_query_reserved : ∃ c, (holds 0x01 [0, 0, 1]).Waits 5 0x01 c
    ∧ Entry.zeros c.entry [3, 4, 5, 6, 7, 8, 9, 10, 11, 12, 13, 14, 15] = false :=
  ⟨_, ⟨rfl, by decide, by decide, by decide, by decide⟩, by decide⟩

theorem witness_troubleRead : ∃ c, (holds 0x41 []).Waits 5 0x41 c
    ∧ Entry.zeros c.entry [1, 2, 3, 4, 5, 6, 7, 8, 9, 10, 11, 12, 13, 14, 15] = true :=
  ⟨_, ⟨rfl, by decide, by decide, by decide, by decide⟩, by decide⟩

theorem witness_troubleRead_reserved : ∃ c, (holds 0x41 [0, 0, 0, 0, 0, 0, 0, 0, 0, 0, 0, 0, 0, 0, 1]).Waits 5 0x41 c
    ∧ Entry.zeros c.entry [1, 2, 3, 4, 5, 6, 7, 8, 9, 10, 11, 12, 13, 14, 15] = false :=
  ⟨_, ⟨rfl, by decide, by decide, by decide, by decide⟩, by decide⟩

theorem witness_countersRead : ∃ c p, (holds 0x40 [0, 0, 0, 0, 256]).Waits 5 0x40 c
    ∧ (if bitOf (Entry.dw c.entry 2) 0 then 512 else 256) ≤ (Entry.dw c.entry 5).toNat
    ∧ c.output 3 (Entry.dw c.entry 5).toNat = .ok p :=
  ⟨_, _, ⟨rfl, by decide, by decide, by decide, by decide⟩, by decide, rfl⟩

theorem witness_troubleClear : ∃ c, (holds 0x42 [0, 0xFFFFFFFF]).Waits 5 0x42 c
    ∧ Entry.zeros c.entry [1, 4, 5, 6, 7, 8, 9, 10, 11, 12, 13, 14, 15] = true ∧ (c.fn ≠ 0 → Entry.dw c.entry 3 = 0) :=
  ⟨_, ⟨rfl, by decide, by decide, by decide, by decide⟩, by decide, by decide⟩

theorem witness_logRead : ∃ c p, (holds 0x43 [0, 0, 1024, 0, 0, 64]).Waits 5 0x43 c
    ∧ 1 ≤ bitsOf (Entry.dw c.entry 3) 10 0 ∧ bitsOf (Entry.dw c.entry 3) 10 0 ≤ 1024
    ∧ bitsOf (Entry.dw c.entry 3) 31 11 = 0 ∧ c.output 4 (Entry.dw c.entry 6).toNat = .ok p :=
  ⟨_, _, ⟨rfl, by decide, by decide, by decide, by decide⟩, by decide, by decide, by decide, rfl⟩

theorem witness_setLatency : ∃ c, (holds 0x02 [0, 400]).Waits 5 0x02 c
    ∧ Entry.zeros c.entry [1, 3, 4, 5, 6, 7, 8, 9, 10, 11, 12, 13, 14, 15] = true :=
  ⟨_, ⟨rfl, by decide, by decide, by decide, by decide⟩, by decide⟩

theorem witness_evlogAck : up.barMode 0 ≠ .unsupported ∧ seqLater 0 up.trouble.next = false := by decide

theorem witness_evlogAck_later : up.barMode 0 ≠ .unsupported ∧ seqLater 1 up.trouble.next = true := by decide

theorem witness_barMode_normal : up.barMode 0 = .normal := by decide

theorem witness_barMode_alwaysOn : ∃ s : State, s.barMode 0 = .alwaysOn :=
  ⟨{ up with life := { up.life with phase := .romOnly } }, by decide⟩

theorem witness_barMode_unsupported : State.reset.barMode 0 = .unsupported ∧ State.reset.barMode 63 = .unsupported := by decide

theorem witness_doorbell : up.barMode 0 = .normal ∧ up.ringExists 0 31 = true ∧ (up.ring 0 31).state = .disabled
    ∧ up.ringExists 0 32 = false := by decide

theorem witness_doorbell_active : ∃ x, x = ((upRing .active).newGeneration 0).ring 0 0 ∧ x.state = .active
    ∧ bitsOf (15 : Word) 15 0 < x.sqSize ∧ x.sqSize ≤ bitsOf (16 : Word) 15 0
    ∧ x.headOk (bitsOf (0 : Word) 15 0) = true ∧ x.headOk (bitsOf (1 : Word) 15 0) = false :=
  ⟨_, rfl, by decide, by decide, by decide, by decide, by decide⟩

theorem witness_ringEnable : (upRing .disabled).barMode 0 = .normal ∧ (upRing .disabled).ringExists 0 0 = true
    ∧ (upRing .disabled).enableErr 0 ((upRing .disabled).ring 0 0) = 0 := by decide

theorem witness_ringEnable_bad : up.enableErr 0 (up.ring 0 31) = 1 ∧ up.ringExists 0 31 = true := by decide

theorem witness_ringDisable : ((upRing .active).ring 0 0).state = .active ∧ (upRing .active).ringExists 0 0 = true := by decide

set_option maxRecDepth 8000 in
theorem witness_sqFetch : ∃ s : State, s.serves = true ∧ s.fetchable 0 0 = true ∧ (s.ring 0 0).fetched = []
    ∧ (s.reads.any fun q => q.fn == 0 && !q.orphan && q.use.isSq 0) = false ∧ s.fetchCount 0 0 = 8
    ∧ (hostWindow (s.fnSt 0).hwin (4096 * (s.ring 0 0).sqBase.toNat) 512 false).isSome = true ∧ s.freeTag = some 0 :=
  ⟨(upRing .active).updRing 0 0 fun x => { x with sqTail := 15 }, by decide⟩

theorem witness_sqFetch_window : ∃ s : State, s.serves = true ∧ s.fetchable 0 0 = true ∧ s.fetchCount 0 0 = 1
    ∧ hostWindow (s.fnSt 0).hwin (4096 * (s.ring 0 0).sqBase.toNat) 64 false = none :=
  ⟨((upRing .active).updRing 0 0 fun x => { x with sqTail := 1 }).updFn 0 fun x => { x with hwin := [] }, by decide⟩

set_option maxRecDepth 8000 in
theorem witness_entryAccept : ∃ (s : State) (ten : Tenants), s.serves = true ∧ s.turn = some (ringKey 0 0, ten)
    ∧ (s.ring 0 0).fetched = [[0]] ∧ s.ticketFree 0 (s.ring 0 0).rt = true
    ∧ lowest (fun k => (s.cmd? k).isNone) 768 = some 0 :=
  ⟨(upRing .active).updRing 0 0 fun x => { x with fetched := [[0]], sqTail := 1, sqFetch := 1 }, _, by decide, rfl, by decide,
    by decide, by decide⟩

theorem witness_fenceRelease : up.serves = true := by decide

theorem witness_moderation : ∃ s : State, (s.ring 0 0).pend ≠ 0 ∧ (s.ring 0 0).pendLimit ≠ 0
    ∧ s.usSince (s.ring 0 0).pendSince (s.ring 0 0).pendLimit.toNat = true :=
  ⟨({ upRing .active with time := 39 }).updRing 0 0 fun x => { x with pend := 1, pendLimit := 1 }, by decide⟩

theorem witness_moderation_early : ∃ s : State, (s.ring 0 0).pend ≠ 0
    ∧ s.usSince (s.ring 0 0).pendSince (s.ring 0 0).pendLimit.toNat = false :=
  ⟨({ upRing .active with time := 38 }).updRing 0 0 fun x => { x with pend := 1, pendLimit := 1 }, by decide⟩

theorem witness_cqEntry : (65535 : Nat) < 65536 ∧ (1023 : Nat) < 1024 := by decide

theorem witness_cqWrap : ∃ x : Ring, x.cqTail + 1 = x.cqSize := ⟨{ cqLog2 := 4, cqTail := 15 }, by decide⟩

theorem witness_completionWrite : ∃ (s : State) (c : Cmd), s.cmd? 5 = some c ∧ s.serves = true ∧ s.mayComplete c = true ∧ c.miss = none :=
  ⟨(holds 0x00 []).endCmd 5 St.ok 0 0, _, rfl, by decide, by decide, by decide⟩

theorem witness_completionWrite_not : ∃ c, (holds 0x00 []).cmd? 5 = some c ∧ (holds 0x00 []).mayComplete c = false :=
  ⟨_, rfl, by decide⟩

theorem witness_windows : up.barMode 0 = .normal
    ∧ (Table.get {} (up.fnSt 0).hwin 0).sbase ≤ (Table.get {} (up.fnSt 0).hwin 0).slimit := by decide

theorem witness_hwin_refused : ∃ w : HWin, bitOf (1 : Word) 0 = true ∧ w.slimit < w.sbase := ⟨{ sbase := 1 }, by decide⟩

theorem witness_dwin_refused : bitOf (1 : Word) 0 = true
    ∧ ¬(State.reset.addr.stBase ≤ State.reset.addr.stLimit
      ∧ 4096 * (State.reset.addr.stLimit.toNat + 1) ≤ 1048576 * State.reset.addr.top.toNat) := by decide

theorem witness_dwin : ∃ s : State, s.barMode 0 = .normal ∧ s.addr.stBase ≤ s.addr.stLimit
    ∧ 4096 * (s.addr.stLimit.toNat + 1) ≤ 1048576 * s.addr.top.toNat :=
  ⟨{ up with addr := { up.addr with stLimit := 255, top := 1 } }, by decide⟩

theorem witness_quota : up.barMode 0 = .normal ∧ up.quotaRefused 0 (quotaOf up.quotaWords.1 up.quotaWords.2) = false := by decide

theorem witness_quota_refused : ∃ s : State, s.barMode 0 = .normal
    ∧ s.quotaRefused s.tenants.selFn.toNat (quotaOf s.quotaWords.1 s.quotaWords.2) = true :=
  ⟨{ up with tenants := { up.tenants with stA := some 0 } }, by decide⟩

theorem witness_window : ∃ s : State, s.wd.count ≤ 1024 * s.wd.period.toNat ∧ s.wd.count = 0 :=
  ⟨{ up with wd := { count := 0 } }, by decide⟩

theorem witness_wdChallenge : ∃ s : State, s.wdServable = true ∧ s.windowOpen = true ∧ s.wd.count ≠ 0 ∧ s.wd.armLeft = some 0
    ∧ wdToken 0 0 = wdToken s.wd.challenge s.fuses.salt ∧ (1 : Word) ≠ wdToken s.wd.challenge s.fuses.salt :=
  ⟨{ up with wd := { count := 1, armLeft := some 0 } }, by decide⟩

theorem witness_wdEarly : up.wdServable = true ∧ up.windowOpen = false ∧ up.wd.count ≠ 0 ∧ up.wd.armLeft = none := by decide

theorem witness_wdCountZero : ∃ s : State, s.wd.count = 0 := ⟨{ up with wd := { count := 0 } }, rfl⟩

theorem witness_wdPeriod : (8 ≤ (8 : BitVec 16).toNat) ∧ (7 : BitVec 16).toNat < 8 := by decide

theorem witness_wdUnservable : State.wdServable { up with dbg := { halted := true } } = false := by decide

theorem witness_wdFirst : ∃ s : State, s.wdLive = true ∧ s.wd.count = 0 ∧ s.wd.warned = false :=
  ⟨{ up with wd := { count := 0 } }, by decide⟩

theorem witness_wdSecond : ∃ s u : State, s.wdLive = true ∧ s.wd.count = 0 ∧ s.wd.warned = true ∧ s.fuses.wdPin = false
    ∧ u.wdLive = true ∧ u.wd.count = 0 ∧ u.wd.warned = true ∧ u.fuses.wdPin = true :=
  ⟨{ up with wd := { count := 0, warned := true } }, { up with wd := { count := 0, warned := true }, fuses := { wdPin := true } },
    by decide⟩

theorem witness_wdWarnEntry : ∃ s : State, s.wd.warnDue = some [] ∧ s.fwRuns = true ∧ s.wd.warnLeft = some 0 ∧ s.wd.armLeft = some 0 :=
  ⟨{ up with wd := { warnDue := some [], warnLeft := some 0, armLeft := some 0 } }, by decide⟩

theorem witness_wdIdle : up.wd.count ≠ 0 := by decide

theorem witness_wdtPulse : ∃ s u : State, s.usSince s.pins.wdtFrom 50000 = true ∧ u.usSince u.pins.wdtFrom 50000 = false :=
  ⟨{ up with time := 1920000 }, { up with time := 1919999 }, by decide⟩

theorem witness_govern : up.paceDemand 3 ≤ (up.gov 3).k ∧ (up.gov 3).phase = .steady := by decide

theorem witness_hold : ∃ s : State, (s.gov 0).phase = .hold ∧ (s.gov 0).k < s.paceDemand 0 :=
  ⟨{ up with pace := { gov := [(0, { k := 2, phase := .hold })] } }, by decide⟩

theorem witness_ramp : ∃ s : State, (s.gov 3).phase = .ramp :=
  ⟨{ up with pace := { gov := [(3, { k := 7, phase := .ramp })] } }, by decide⟩

theorem witness_therm : up.pins.vddAon = true ∧ State.reset.life.phase ≠ .running := by decide

theorem witness_therm_unpowered : ∃ s : State, s.pins.vddAon = false := ⟨{ up with pins := { vddAon := false } }, rfl⟩

theorem witness_avs : ∃ s : State, s.pace.setMv ≠ 0 ∧ (710 : BitVec 10).toNat ≤ s.pace.setMv.toNat + 10
    ∧ s.pace.setMv.toNat ≤ (710 : BitVec 10).toNat + 10 ∧ ¬((711 : BitVec 10).toNat ≤ s.pace.setMv.toNat + 10) ∧ up.pace.setMv = 0 :=
  ⟨{ up with pace := { setMv := 700 } }, by decide⟩

theorem witness_rest : ∃ s : State, s.idle = true ∧ s.power.level + 1 ≤ s.target
    ∧ 192 * s.power.dwellUs (s.power.level + 1) ≤ 5 * s.power.idleTicks ∧ s.power.level + 1 < 4 :=
  ⟨{ up with power := { idleTicks := 384 } }, by decide⟩

theorem witness_rest_early : 5 * up.power.idleTicks < 192 * up.power.dwellUs (up.power.level + 1) ∧ up.power.level = 0 := by decide

theorem witness_wake : ∃ s : State, s.power.level ≠ 0 ∧ s.power.level = 4 ∧ s.power.pd1Alone = true ∧ s.power.linkL12 = false :=
  ⟨{ up with power := { level := 4, pd1Alone := true } }, by decide⟩

theorem witness_l1 : ∃ s : State, s.pcie.dlActive = true ∧ bitOf s.pcie.aspm 1 = true ∧ s.reads = [] :=
  ⟨{ up with pcie := { up.pcie with aspm := 2 } }, by decide⟩

theorem witness_l1_down : State.reset.pcie.dlActive = false ∧ State.reset.power.level ≠ 4 := by decide

theorem witness_reset : ∃ u, u = up.resetDev .S .hostDsr (.boot .S) := ⟨_, rfl⟩

theorem witness_reset_calm : (∀ i, Table.get 0 up.pace.sensor i = 0) ∧ up.pins.droopInN = true ∧ ∀ q ∈ up.comp.runs, q.2.updating = none :=
  ⟨fun _ => rfl, rfl, fun _ h => nomatch h⟩

theorem witness_life : up.life.phase ≠ .por ∧ up.life.phase ≠ .held .P ∧ up.pcie.dlActive = true ∧ up.barMode 0 = .normal := by decide

theorem witness_life_por : ∃ s : State, s.life.phase = .por ∧ s.pins.testEn = false ∧ s.barMode 0 = .unsupported :=
  ⟨{ State.reset with life := { phase := .por } }, by decide⟩

theorem witness_life_held : ∃ s : State, s.pins.perstN = false ∧ s.life.phase = .held .P :=
  ⟨{ State.reset with life := { phase := .held .P }, pins := { perstN := false } }, by decide⟩

theorem witness_life_heldE : ∃ s : State, s.pins.perstN = true ∧ s.pcie.dlActive = false ∧ s.life.phase = .held .E
    ∧ trainable 4 4 = true ∧ trainable 5 4 = false ∧ trainable 4 3 = false :=
  ⟨{ State.reset with life := { phase := .held .E } }, by decide⟩

theorem witness_life_linked : ∃ s : State, s.life.phase ≠ .por ∧ s.life.phase ≠ .held .E ∧ s.pins.perstN = true ∧ s.pcie.dlActive = false
    ∧ s.barMode 0 = .alwaysOn :=
  ⟨{ up with life := { phase := .romOnly }, pcie := { up.pcie with dlActive := false } }, by decide⟩

theorem witness_life_boot : ∃ s : State, s.life.phase = .boot .P ∧ s.usSince s.life.bootStart 900000 = true :=
  ⟨{ State.reset with time := 34560000 }, by decide⟩

theorem witness_rcRead : up.barMode 0 ≠ .unsupported ∧ (0x10054 : BitVec 17).toNat % 4 = 0 ∧ (0x10400 : BitVec 17).toNat % 8 = 0 := by
  decide

theorem witness_latch : ∃ u, up.latching 0 0x18 = true ∧ exec (.latchLowRead 0 0x18) up = .next u
    ∧ u.latching 0 0x1C = true :=
  ⟨_, by decide, rfl, by decide⟩

theorem witness_barUr : State.reset.barMode 63 = .unsupported := by decide

theorem witness_decodeBar : ∃ s : State, s.decodeBar 0x10018 = .at .bar0 0 0x10018 ∧ s.decodeBar 0x40018 = .at .bar4 0 0x18
    ∧ s.decodeBar 0x20000 = .unclaimed :=
  ⟨{ up with pcie := { up.pcie with bar4 := 0x40000, bar2 := 0x10000000 } }, by decide +kernel⟩

theorem witness_registerWrite : up.barMode 0 ≠ .unsupported ∧ up.barMode 0 = .normal ∧ up.nvm.unlocked = false
    ∧ up.nvm.unlockLeft = none ∧ bitOf (1 : Word) 0 = true ∧ up.trace.en = false ∧ State.reset.barMode 0 = .unsupported := by decide

theorem witness_alwaysOn_key : ∃ s : State, s.barMode 0 = .alwaysOn :=
  ⟨{ State.reset with pcie := { State.reset.pcie with mse := true } }, by decide⟩

theorem witness_unlocking : ∃ s u : State, s.barMode 0 = .normal ∧ s.nvm.unlocked = false ∧ s.nvm.unlockLeft = some 0
    ∧ u.barMode 0 = .normal ∧ u.nvm.unlocked = true :=
  ⟨{ up with nvm := { up.nvm with unlockLeft := some 0 } }, { up with nvm := { up.nvm with unlocked := true } }, by decide⟩

theorem witness_bar2 : ∃ s : State, s.barMode 0 = .normal ∧ s.power.level = 0 ∧ 268435456 * s.addr.aptBase.toNat + 64 ≤ s.lpTop
    ∧ s.addr.eccOn = false ∧ Table.get 0 s.addr.lpErr (dramLine 0) = 0 :=
  ⟨{ up with addr := { up.addr with top := 1 } }, by decide +kernel⟩

theorem witness_bar2_regions : up.barMode 0 = .normal ∧ up.power.level = 0 ∧ up.region 0x1000000000 = .nvm 0 0
    ∧ up.region 0x2000000000 = .sac 0 0 ∧ up.wayOfPf 0 = false ∧ up.region 0x3000000000 = .core 0 0 ∧ up.coreOfPf 0 = false
    ∧ up.region 0xF000000000 = .unmapped
    ∧ State.coreOfPf { up with binds := [(0, { live := true, cores := [0] })] } 0 = true := by decide +kernel

theorem witness_bar2_early : ∃ s : State, s.barMode 0 = .alwaysOn :=
  ⟨{ State.reset with pcie := { State.reset.pcie with mse := true } }, by decide⟩

theorem witness_bar2_off : State.reset.barMode 0 = .unsupported := by decide

theorem witness_config : up.life.phase = .running ∧ up.fnExists 0 = true ∧ up.fnExists 63 = false ∧ up.pcie.crs = false
    ∧ (up.fnSt 0).flrWaits = false ∧ up.vfCrs 0 = false ∧ up.pcie.d3hot = false
    ∧ 63 < vecCount 0 ∧ vecCount 63 ≤ 33 ∧ (up.fnSt 0).msixEn = true ∧ (up.fnSt 0).fnMask = false := by decide

theorem witness_config_crs : ∃ s : State, s.life.phase = .running ∧ s.fnExists 0 = true ∧ s.pcie.crs = true :=
  ⟨{ up with pcie := {} }, by decide⟩

theorem witness_config_held : ∃ s : State, s.life.phase = .held .E := ⟨{ up with life := { phase := .held .E } }, rfl⟩

theorem witness_config_pending : ∃ s : State, s.life.phase = .running ∧ (s.fnSt 0).msixEn = true ∧ (s.fnSt 0).fnMask = false
    ∧ (Table.get {} (s.fnSt 0).vecs 1).mask = false ∧ bitOf (s.fnSt 0).pba 1 = true :=
  ⟨up.updFn 0 fun x => { x with pba := 2 }, by decide⟩

theorem witness_d3hot : ∃ s : State, s.pcie.d3hot = true := ⟨{ up with pcie := { d3hot := true } }, rfl⟩

theorem witness_numvfs : up.pcie.vfEnable = false ∧ (63 : BitVec 16).toNat ≤ 63 ∧ 63 < (64 : BitVec 16).toNat := by decide

theorem witness_vfs : ∃ s : State, s.pcie.vfEnable = true ∧ s.fnExists 63 = true :=
  ⟨{ up with pcie := { up.pcie with vfEnable := true, numVfs := 63 } }, by decide⟩

theorem witness_flr : up.fnExists 0 = true ∧ up.pcie.dlActive = true ∧ up.fnExists 1 = false ∧ up.life.phase = .running := by decide

theorem witness_flr_boot : ∃ s : State, s.fnExists 0 = true ∧ s.pcie.dlActive = true ∧ s.life.phase = .boot .S :=
  ⟨{ up with life := { phase := .boot .S } }, by decide⟩

theorem witness_retrain : up.pcie.dlActive = true ∧ ¬(up.pcie.speed = 4 ∧ up.pcie.width = 4) ∧ trainable 4 4 = true
    ∧ up.pcie.speed = 0 ∧ up.pcie.width = 0 ∧ trainable 7 3 = false ∧ State.reset.pcie.dlActive = false := by decide

theorem witness_badTlp : up.life.phase = .running ∧ up.barTarget (.bar0 0 0) = .at .bar0 0 0
    ∧ State.barTarget { up with pcie := { up.pcie with bar4 := 0x40000, bar2 := 0x10000000 } } (.address 0x20000) = .unclaimed
    ∧ State.barTarget { up with pcie := { up.pcie with bar4 := 0x40000, bar2 := 0x10000000 } } (.address 0x10000000) = .other
    ∧ State.reset.life.phase ≠ .por := by decide +kernel

theorem witness_completion : ∃ (s : State) (q : ReadReq), s.readAt 767 = some q ∧ s.readAt 0 = none ∧ q.got.length + [(0 : Byte)].length = q.len
    ∧ q.got.length + ([] : Bytes).length < q.len ∧ q.len < q.got.length + [(0 : Byte), 0].length ∧ q.orphan = false ∧ q.use = .sq 0 1
    ∧ s.usSince q.issued (timeoutUs s.pcie.cto) = true ∧ s.pcie.ctoDis = false ∧ q.sent = true :=
  ⟨{ up with time := 921600, reads := [{ tag := 767, fn := 0, addr := 0, len := 1, use := .sq 0 1, issued := 0 }] }, _, rfl, by decide⟩

theorem witness_timeout_early : ∃ (s : State) (q : ReadReq), s.readAt 0 = some q ∧ s.usSince q.issued (timeoutUs s.pcie.cto) = false
    ∧ q.orphan = true :=
  ⟨{ up with time := 921599, reads := [{ tag := 0, fn := 0, addr := 0, len := 1, use := .sq 0 1, issued := 0, orphan := true }] },
    _, rfl, by decide⟩

theorem witness_completion_line : ∃ q : ReadReq, q.orphan = false ∧ q.use = .line 0 0 0 0 0 0 :=
  ⟨{ tag := 0, fn := 0, addr := 0, len := 64, use := .line 0 0 0 0 0 0, issued := 0 }, rfl, rfl⟩

theorem witness_lines : ∃ (x : Run) (y : Line), (0, y) ∈ x.lines ∧ y.data = none ∧ x.abort = false ∧ hits 0 [(0, 1)] (0, y) = true :=
  ⟨{ fn := 0, lines := [(0, { len := 64 })] }, { len := 64 }, by decide⟩

set_option maxRecDepth 100000 in
theorem witness_boot : State.reset.life.phase = .boot .P ∧ State.reset.life.noFw = false
    ∧ State.reset.bootChoice none = some (0, false) := by decide +kernel

set_option maxRecDepth 100000 in
theorem witness_boot_none : ∃ s : State, s.life.phase = .boot .P ∧ s.life.noFw = false ∧ s.bootChoice none = none :=
  ⟨{ State.reset with nvm := { State.reset.nvm with words := [] } }, by decide +kernel⟩

theorem witness_boot_not : up.life.phase ≠ .boot .P ∧ ∃ s : State, s.life.noFw = true :=
  ⟨by decide, { up with life := { noFw := true } }, rfl⟩

/-- A bind of the installed pattern. -/
def bindState : State := installed 0x12 [0x100]

theorem witness_bind : ∃ i b q a k, bindState.Waits 5 0x12 (heldCmd 0x12 [0x100]) ∧ bindState.myTurn (heldCmd 0x12 [0x100]) = true
    ∧ bitOf (Entry.dw (heldCmd 0x12 [0x100]).entry 2) 31 = false ∧ Entry.paramsOk (heldCmd 0x12 [0x100]).entry = true
    ∧ bindState.patternOf (Entry.handle (heldCmd 0x12 [0x100]).entry) = some (i, b) ∧ bindState.mayBind 0 i b = true
    ∧ q = bindReqOf 0 i b 0 0 0 ∧ bindState.handOverOk q = true ∧ bindState.bindCore q = .done a k ∧ Pattern.chipsDim b = none := by
  obtain ⟨a, k, h⟩ : ∃ a k, bindState.bindCore (bindReqOf 0 0 (slotImg patBody) 0 0 0) = .done a k :=
    BindStep.done_of (by decide +kernel)
  exact ⟨0, slotImg patBody, _, a, k, ⟨by decide, by decide, by decide, by decide, by decide⟩, by decide, by decide, by decide,
    installed_pattern _ _, by decide +kernel, rfl, by decide +kernel, h, by decide +kernel⟩

theorem witness_bind_busy : ∃ (s : State) (q : BindReq), ∃ n ∈ Pattern.banks q.pat, s.nvm.hostOp n = true :=
  ⟨{ up with nvm := { up.nvm with ops := [{ bank := 0, act := .erase 0, owner := .orphan }] } },
    { fn := 0, slot := 0, pat := zeroBytes 128 ++ [0x80] ++ zeroBytes 600, scratch := 0, cache := 0, hoBase := 0, hoSize := 0, cores := []
      dw2 := 0, dw3 := 0, order := 0 }, 0, by decide, by decide⟩

theorem witness_release : ∃ s u : State, (∃ c, s.Waits 5 0x12 c ∧ bitOf (Entry.dw c.entry 2) 31 = true ∧ Entry.paramsOk c.entry = true
      ∧ s.byHandle c.fn (Entry.handle c.entry) = some 0
      ∧ (s.bind 0).releasing = false ∧ s.slots = [])
    ∧ u.slots = [(0, { isOpen := true })] :=
  ⟨{ holds 0x12 [64, 0x80000000] with binds := [(0, { live := true, count := 1 })] }, { up with slots := [(0, { isOpen := true })] },
    ⟨_, ⟨rfl, by decide, by decide, by decide, by decide⟩, by decide, by decide, by decide, by decide, rfl⟩, rfl⟩

theorem witness_release_stale : (holds 0x12 [64, 0x80000000]).byHandle 0 64 = none := by decide

theorem witness_releaseDone : ∃ s u : State, (s.bind 0).live = true ∧ (s.bind 0).releasing = true ∧ (s.bind 0).releaser = some 5
    ∧ (s.cmd? 5).map (fun d => s.bindBusy 0 d.order) = some false ∧ s.fwRuns = true
    ∧ (u.bind 0).live = true ∧ (u.bind 0).releasing = true ∧ (u.bind 0).releaser = some 5
    ∧ (u.cmd? 5).map (fun d => u.bindBusy 0 d.order) = some true ∧ u.fwRuns = true :=
  ⟨{ holds 0x12 [64, 0x80000000] with binds := [(0, { live := true, count := 1, releasing := true, releaser := some 5 })] },
    { holds 0x12 [64, 0x80000000] with
      binds := [(0, { live := true, count := 1, releasing := true, releaser := some 5 })]
      cmds := [(4, { fn := 0, ring := 0, seq := 0, entry := [0x13, 64], time := 0, order := 0, phase := .busy, hwin := [], dwin := [] }),
        (5, { fn := 0, ring := 0, seq := 1, entry := [0x12, 64, 0x80000000], time := 0, order := 1, phase := .busy, hwin := [], dwin := [] })] },
    by decide⟩

theorem witness_install : (heldCmd 0x10 [0, 0, 0, 640]).input 2 640 = .ok (.host 0 false)
    ∧ (∀ v ∈ [({ words := [] } : Nvm), { words := [], vppOk := true }, { words := [], vppOk := true, resv := [(0, [9])] }],
      (installState v).Waits 5 0x10 (heldCmd 0x10 [0, 0, 0, 640]) ∧ (installState v).myTurn (heldCmd 0x10 [0, 0, 0, 640]) = true
      ∧ (installRead v).2 = .ok pkg ∧ (installRead v).1.chooseSlot = some (0, false)
      ∧ (installRead v).1.patterns = [] ∧ (installRead v).1.blocked = false ∧ (installRead v).1.nvm.vppOk = v.vppOk
      ∧ (installRead v).1.reservedFor (heldCmd 0x10 [0, 0, 0, 640]) 0 = !v.resv.isEmpty) := by
  refine ⟨rfl, fun v h => ?_⟩
  simp only [List.mem_cons, List.not_mem_nil, or_false] at h
  rcases h with rfl | rfl | rfl
  all_goals
    exact ⟨⟨rfl, by decide, by decide, by decide, by decide⟩, by decide +kernel, by decide +kernel, by decide +kernel, by decide +kernel,
      by decide +kernel, by decide +kernel, by decide +kernel⟩

/-- A remove of the installed pattern, with or without VPP_NVM. -/
def removeState (v : Bool) : State := withSlot patBody (holds 0x11 [0x100]) v

theorem witness_remove : ∀ v, (removeState v).Waits 5 0x11 (heldCmd 0x11 [0x100]) ∧ (removeState v).myTurn (heldCmd 0x11 [0x100]) = true
    ∧ ((removeState v).patternOf 0x100).isSome = true ∧ (removeState v).isBound 0x100 = false ∧ (removeState v).tombOps 0 ≠ []
    ∧ (removeState v).nvm.vppOk = v := by
  intro v
  refine ⟨?_, ?_, ?_, ?_, ?_, ?_⟩
  · cases v <;> exact ⟨rfl, by decide, by decide, by decide, by decide⟩
  · cases v <;> decide +kernel
  · rw [removeState, slot_patternOf patBody patBody_length _ v 0x100 (by decide) (by decide +kernel) [] (by simp) rfl ⟨rfl, rfl⟩]
    rfl
  · cases v <;> decide +kernel
  · cases v <;> decide +kernel
  · rfl

theorem witness_remove_bound : (bound 0x11 [0x100]).isBound 0x100 = true ∧ ((bound 0x11 [0x100]).patternOf 0x100).isSome = true := by
  refine ⟨by decide +kernel, ?_⟩
  rw [bound_patternOf]
  rfl

/-- The layers of that pattern, as every state with its record reads them. -/
theorem lay_layers {u s : State} {b : Binding} (hn : u.nvm = (laid s b).nvm) : u.layersOf (slotImg layBody) [0] = [(0, 0, layRec 0)] := by
  unfold State.layersOf State.patLayer State.extentRange
  rw [hn, show (laid s b).nvm = (laid up).nvm from rfl]
  decide +kernel

theorem lay_record : LayerRec.dynEn (layRec 0) = false ∧ listRange (layRec 0) none = none ∧ LayerRec.auxBuf (layRec 0) = 255 := by
  decide +kernel

/-- The checks of a RUN or CHAIN of that pattern up to its buffer table. -/
theorem lay_run {u s : State} {b : Binding} {c : Cmd} (view : HostView) (hn : u.nvm = (laid s b).nvm) (hf : u.fw.running = 0)
    (hb : (u.bind 0).pattern = 0x100) (hc : (u.bind 0).chips = 1)
    (h1 : runStages c.entry 1 = some (0, 0)) (ho : Entry.paramsOk c.entry = true) (h2 : Entry.zeros c.entry [7, 8, 9, 10, 11, 12, 13] = true) :
    ∃ x : Run, x.bind = 0 ∧ x.waitCap = false ∧ x.nbuf = bitsOf (Entry.dw c.entry 2) 8 4 ∧ x.fn = c.fn
      ∧ u.runLayers (slotImg layBody) x = [(0, 0, layRec 0)]
      ∧ u.prepRun view c 0 = ((u.prepTable view c 5 0 x).then c.prepAdapter).then fun a y => a.prepLists view c y := by
  have p := laid_like hn hf hb
  have z : ∀ i ∈ [7, 8, 9, 10, 11, 12, 13], Entry.dw c.entry i = 0 := by
    simpa only [Entry.zeros, List.all_eq_true, beq_iff_eq] using h2
  have e : runLens c.entry = [0, 0, 0, 0] := by
    simp [runLens, z 10 (by decide), z 11 (by decide), z 12 (by decide), z 13 (by decide)]
  have k : pickDims (slotImg layBody) 1 [0, 0, 0, 0] = some [] := by simp [pickDims, lay_facts.2.1]
  have l : ∀ x : Run, x.pieces = [0] → x.first = 0 → x.last = 0 → u.runLayers (slotImg layBody) x = [(0, 0, layRec 0)] := by
    intro x h1 h2 h3
    simp [State.runLayers, h1, lay_layers hn, h2, h3]
  have f : ∀ x : Run, x.pieces = [0] → x.first = 0 → x.last = 0 → x.lens = [0, 0, 0, 0] → u.lensFit (slotImg layBody) x = true := by
    intro x h1 h2 h3 h4
    simp only [State.lensFit, lay_facts.2.1, h4, l x h1 h2 h3]
    decide +kernel
  refine ⟨{ u.runBase c 0 0 0 with lens := [0, 0, 0, 0], bind := 0, pieces := [0] }, rfl, rfl, rfl, rfl, l _ rfl rfl rfl, ?_⟩
  have q : (u.runBase c 0 0 0).bind = 0 := rfl
  have w : (u.runBase c 0 0 0).lens = [0, 0, 0, 0] := e
  unfold State.prepRun
  simp only [p, lay_facts.1, h1, ho]
  simp only [Bool.not_true, Bool.false_eq_true, if_false, State.prepPieces]
  simp only [q, p, hc, w, k, lay_facts.2.2.1]
  rw [if_pos (f _ rfl rfl rfl rfl)]
  simp only [Prep.then, Cmd.prepMap, z 7 (by decide), z 8 (by decide), z 9 (by decide)]
  rfl

/-- A RUN or CHAIN of that pattern without a buffer table passes its checks. -/
theorem lay_good {u s : State} {b : Binding} {c : Cmd} (view : HostView) (hn : u.nvm = (laid s b).nvm) (hf : u.fw.running = 0)
    (hb : (u.bind 0).pattern = 0x100) (hc : (u.bind 0).chips = 1) (ha : (u.bind 0).adapter = none)
    (h1 : runStages c.entry 1 = some (0, 0)) (ho : Entry.paramsOk c.entry = true)
    (h2 : Entry.zeros c.entry [7, 8, 9, 10, 11, 12, 13] = true ∧ bitsOf (Entry.dw c.entry 2) 8 4 = 0) :
    ∃ x : Run, u.prepRun view c 0 = .good u x ∧ x.bind = 0 ∧ x.waitCap = false := by
  obtain ⟨x, k1, k2, k3, _, k5, e⟩ := lay_run view hn hf hb hc h1 ho h2.1
  refine ⟨x, ?_, k1, k2⟩
  have p := laid_like hn hf hb
  rw [e]
  simp [State.prepTable, k3, h2.2, Prep.then, Cmd.prepAdapter, k1, ha, State.prepLists, State.runPat, p, k5, dynOf, lay_record, Prep.each]

/-- One with a buffer table ends with what the read of its table answers. -/
theorem lay_bad {u s a : State} {b : Binding} {c : Cmd} {q : Place} {f : ReadFail} (view : HostView) (hn : u.nvm = (laid s b).nvm)
    (hf : u.fw.running = 0) (hb : (u.bind 0).pattern = 0x100) (hc : (u.bind 0).chips = 1)
    (h1 : runStages c.entry 1 = some (0, 0)) (ho : Entry.paramsOk c.entry = true)
    (h2 : Entry.zeros c.entry [7, 8, 9, 10, 11, 12, 13] = true ∧ bitsOf (Entry.dw c.entry 2) 8 4 = 1) (h3 : c.input 5 16 = .ok q)
    (h4 : u.readPlace view c.fn q 16 = (a, .error f)) : u.prepRun view c 0 = .bad a St.hostAbort := by
  obtain ⟨x, k1, k2, k3, k4, k5, e⟩ := lay_run view hn hf hb hc h1 ho h2.1
  rw [e]
  simp [State.prepTable, k3, h2.2, Prep.then, h3, h4]

/-- As `up`, with a dispatched command and a binding of that pattern. -/
def ran (op : Nat) (ps : List Word) (b : Binding := layBind) : State := laid (holds op ps) b

theorem ran_bind (op : Nat) (ps : List Word) (b : Binding) : (ran op ps b).bind 0 = b := rfl

/-- The conditions of a command of the binding beside its checks. -/
theorem ran_turn : ∀ p ∈ [((0x13 : Nat), [(64 : Word)]), (0x13, [64, 16]), (0x413, [64]), (0x14, [64]), (0x15, [64])],
    (ran p.1 p.2).Waits 5 (p.1 % 1024) (heldCmd p.1 p.2) ∧ (ran p.1 p.2).bindTurn (heldCmd p.1 p.2) = true
    ∧ (ran p.1 p.2).trainTurn (heldCmd p.1 p.2) = true ∧ (ran p.1 p.2).blocked = false
    ∧ (ran p.1 p.2).boundFor (heldCmd p.1 p.2) 64 = some 0 := by
  decide +kernel

theorem ran_light : Entry.light (heldCmd 0x13 [64]).entry = false ∧ Entry.light (heldCmd 0x413 [64]).entry = true
    ∧ adaptAction (heldCmd 0x15 [64]).entry = 0 ∧ (heldCmd 0x13 [64]).fn = 0 ∧ up.boundFor (heldCmd 0x13 [64]) 64 = none := by decide

/-- A RUN and a CHAIN whose checks pass; the binding is this chip's, a job of two chips whose next frame is for chip 1, or dead. -/
theorem witness_run_good : ∀ view, ∀ op ∈ [0x13, 0x14], ∀ b ∈ [layBind, { layBind with parts := [0, 1], frames := 1 }, { layBind with dead := true }],
    ∃ x, (ran op [64] b).prepRun view (heldCmd op [64]) 0 = .good (ran op [64] b) x ∧ x.bind = 0 ∧ x.waitCap = false := by
  intro view op ho b hb
  refine lay_good view rfl rfl ?_ ?_ ?_ ?_ ?_ ?_
  · rw [ran_bind]; revert b; decide
  · rw [ran_bind]; revert b; decide
  · rw [ran_bind]; revert b; decide
  all_goals
    revert op
    decide

/-- Its binding is not dead, and no core has failed; a job's frame goes to chip 1. -/
theorem witness_run_begins : ((ran 0x13 [64]).bind 0).dead = false ∧ (ran 0x13 [64]).life.failed = []
    ∧ ((ran 0x13 [64] { layBind with dead := true }).bind 0).dead = true
    ∧ (ran 0x13 [64] { layBind with parts := [0, 1], frames := 1 }).nextChip 0 = some 1 ∧ (ran 0x13 [64]).nextChip 0 = none := by
  decide +kernel

/-- As `ran`, with core 0 failed. -/
def ranFailed (op : Nat) (ps : List Word) : State := { ran op ps with life := { phase := .running, ready := true, failed := [(0, true)] } }

theorem witness_run_failed (view : HostView) : ∃ x, (ranFailed 0x13 [64]).prepRun view (heldCmd 0x13 [64]) 0 = .good (ranFailed 0x13 [64]) x
    ∧ x.bind = 0 ∧ x.waitCap = false :=
  lay_good (s := holds 0x13 [64]) (b := layBind) view rfl rfl rfl rfl rfl (by decide) (by decide) (by decide)

theorem ranFailed_group : ∀ x : Run, x.bind = 0 → x.pieces = [0] → (ranFailed 0x13 [64]).groupFailed x 0 = true := by
  intro x hx hp
  unfold State.groupFailed State.pieceOf State.runPat Run.pieceIdx
  rw [hx, laid_like (u := ranFailed 0x13 [64]) (s := holds 0x13 [64]) (b := layBind) (r := layRec 0) (k := 0) rfl rfl rfl, hp]
  decide +kernel

/-- A RUN whose buffer table cannot be read: nothing answers, or its function may not send and the step waits. -/
theorem witness_run_bad : ∃ u, (ran 0x13 [64, 16]).prepRun [] (heldCmd 0x13 [64, 16]) 0 = .bad u St.hostAbort ∧ u.blocked = false :=
  ⟨_, lay_bad (s := holds 0x13 [64]) (b := layBind) [] rfl rfl rfl rfl (by decide) (by decide) (by decide) rfl rfl, by decide +kernel⟩

theorem witness_run_waits : ∃ s u : State, s.prepRun [] (heldCmd 0x13 [64, 16]) 0 = .bad u St.hostAbort ∧ u.blocked = true ∧ s.blocked = false :=
  ⟨{ ran 0x13 [64, 16] with pcie := { up.pcie with d3hot := true } }, _,
    lay_bad (s := holds 0x13 [64]) (b := layBind) [] rfl rfl rfl rfl (by decide) (by decide) (by decide) rfl rfl, by decide +kernel, rfl⟩

/-- An adapter region for that pattern: one entry, on its layer, of rank 4. -/
def adRegion : Bytes := leBytes 4 0x5041444B ++ leBytes 2 0x100 ++ leBytes 2 1 ++ zeroBytes 4 ++ leBytes 4 0x3F800000 ++ zeroBytes 20
  ++ leBytes 4 256 ++ zeroBytes 216 ++ zeroBytes 4 ++ [4] ++ zeroBytes 11 ++ leBytes 4 320 ++ leBytes 4 576 ++ leBytes 4 832
  ++ leBytes 4 1088 ++ leBytes 4 1344 ++ leBytes 4 1856 ++ zeroBytes 24

/-- The dwords of an ADAPT_STEP on handle 64 with a region of 4,096 bytes at 0x1000 of device window 0. -/
def adStep (act : Nat) : List Word := [64, 0, 0x1000, 0x1000, 4096, 0, 0, 0, 0, 0, 0, 0, 0, BitVec.ofNat 32 act]

/-- As `ran`, with that region in LP5X, or with an empty one. -/
def adState (act : Nat) (b : Binding := layBind) (r : Bytes := adRegion) : State :=
  let s := ran 0x15 (adStep act) b
  { s with addr := { s.addr with lp5x := writeBytes 0 s.addr.lp5x 0x1000 r } }

theorem adState_pattern (act : Nat) (b : Binding) (r : Bytes) (h : b.pattern = 0x100) :
    (adState act b r).bindPattern ((adState act b r).bind 0) = slotImg layBody :=
  laid_like (u := adState act b r) (s := holds 0x15 (adStep act)) (b := b) (r := layRec 0) (k := 0) rfl rfl h

/-- The conditions beside the region's. -/
theorem witness_adapter_turn : ∀ a ∈ [1, 2], (adState a).Waits 5 0x15 (heldCmd 0x15 (adStep a))
    ∧ (adState a).bindTurn (heldCmd 0x15 (adStep a)) = true ∧ Entry.paramsOk (heldCmd 0x15 (adStep a)).entry = true
    ∧ (adState a).boundFor (heldCmd 0x15 (adStep a)) 64 = some 0 ∧ ((adState a).bind 0).chips = 1
    ∧ adaptAction (heldCmd 0x15 (adStep a)).entry = a ∧ (heldCmd 0x15 (adStep a)).region false = .ok (0x1000, 4096) := by
  decide +kernel

/-- A region that passes within the limit, and one that exceeds it with the region of another binding. -/
theorem witness_adapter_attach : (adState 1).regionOk ((adState 1).bindPattern ((adState 1).bind 0)) 0x1000 4096 false = true
    ∧ (adState 1).regionHeld 0 0 + 4096 ≤ 268435456 := by
  rw [adState_pattern _ _ _ rfl]
  unfold State.regionOk State.entryOk State.adShape State.patLayer State.extentRange
  decide +kernel

/-- As `adState`, with another binding that holds 256 MiB. -/
def adFull : State := { adState 1 with binds := [(0, layBind), (1, { layBind with adapter := some (0x100000, 268435456) })] }

theorem witness_adapter_over : adFull.regionOk (adFull.bindPattern (adFull.bind 0)) 0x1000 4096 false = true
    ∧ 268435456 < adFull.regionHeld 0 0 + 4096 := by
  rw [laid_like (u := adFull) (s := holds 0x15 (adStep 1)) (b := layBind) (r := layRec 0) (k := 0) rfl rfl rfl]
  unfold State.regionOk State.entryOk State.adShape State.patLayer State.extentRange
  decide +kernel

theorem witness_adapter_bad : (adState 1 layBind []).regionOk ((adState 1 layBind []).bindPattern ((adState 1 layBind []).bind 0))
    0x1000 4096 false = false := by
  rw [adState_pattern _ _ _ rfl]
  unfold State.regionOk
  decide +kernel

/-- A range outside every window, a reserved parameter, no binding, and a binding of two chips. -/
theorem witness_adapter_else : (heldCmd 0x15 [64, 0, 0xFFFFF000, 0x1000, 4096, 0, 0, 0, 0, 0, 0, 0, 0, 1]).region false = .error St.windowFault
    ∧ adaptAction (heldCmd 0x15 [64, 0, 0xFFFFF000, 0x1000, 4096, 0, 0, 0, 0, 0, 0, 0, 0, 1]).entry = 1
    ∧ Entry.paramsOk (heldCmd 0x15 [64, 1, 0, 0, 0, 0, 0, 0, 0, 0, 0, 0, 0, 1]).entry = false
    ∧ up.boundFor (heldCmd 0x15 (adStep 1)) 64 = none
    ∧ ((adState 1 { layBind with parts := [0, 1], chips := 2 }).bind 0).chips = 2 := by
  decide +kernel

/-- As `holds`, with a live binding. -/
def opens (ps : List Word) : State := { holds 0x20 ps with binds := oneBind }
/-- The dwords of a STREAM_OPEN: DW2, and a budget of 100 ticks. -/
def openDws (d2 : Word) : List Word := [64, d2, 0, 0, 0, 0, 0x1000, 0x100, 100]

/-- An opening in its turn, one with no binding, one with a reserved bit set, one whose hold buffer lies in a closed window. -/
theorem witness_open : (∀ n ∈ [0, 0x88000], let d := BitVec.ofNat 32 n; (opens (openDws d)).Waits 5 0x20 (heldCmd 0x20 (openDws d))
      ∧ (opens (openDws d)).myTurn (heldCmd 0x20 (openDws d)) = true
      ∧ (opens (openDws d)).boundFor (heldCmd 0x20 (openDws d)) 64 = some 0 ∧ Entry.paramsOk (heldCmd 0x20 (openDws d)).entry = true)
    ∧ (heldCmd 0x20 (openDws 0)).openRanges (openSlot (heldCmd 0x20 (openDws 0)).entry 0 0) = true
    ∧ (opens (openDws 0)).channelTaken (openSlot (heldCmd 0x20 (openDws 0)).entry 0 0) = false ∧ (opens (openDws 0)).slotFor 0 = some 0
    ∧ ({ opens (openDws 0) with slots := (List.range 16).map fun i => (i, { isOpen := true }) } : State).slotFor 0 = none
    ∧ Entry.paramsOk (heldCmd 0x20 (openDws 0x40)).entry = false ∧ up.boundFor (heldCmd 0x20 (openDws 0)) 64 = none := by
  decide +kernel

theorem witness_open_closed : ({ heldCmd 0x20 (openDws 0x88000) with dwin := [] } : Cmd).openRanges
    (openSlot (heldCmd 0x20 (openDws 0x88000)).entry 0 0) = false := by decide +kernel

/-- A slot without frames that is closing, and one that is open for a STREAM_CLOSE; a STREAM_CLOSE that names none. -/
theorem witness_close : (({ up with slots := [(0, { isOpen := true, closing := true })] } : State).slot 0).closing = true
    ∧ (({ up with slots := [(0, { isOpen := true, closing := true })] } : State).slot 0).closer = none ∧ up.comp.runs = [] ∧ up.cmds = [] := by
  decide

theorem witness_close_turn : ∀ o ∈ [[], [(0, { isOpen := true })]],
    ({ holds 0x21 [0] with slots := o } : State).Waits 5 0x21 (heldCmd 0x21 [0])
    ∧ ({ holds 0x21 [0] with slots := o } : State).closeTurn (heldCmd 0x21 [0]) = true ∧ Entry.paramsOk (heldCmd 0x21 [0]).entry = true
    ∧ ({ holds 0x21 [0] with slots := o } : State).slotOf (heldCmd 0x21 [0]) = if o = [] then none else some 0 := by
  decide +kernel

/-- A STREAM_FRAME entry with a deadline of 1, accepted at 5. -/
def frameCmd (d2 : Word) : Cmd := { heldCmd 0x22 [0, d2, 1] with time := 5 }
/-- A state with it, the pattern bound, and a PCIe-fed slot under a late-drop rule. -/
def framed (d2 : Word) (late : Bool) : State :=
  laid { up with cmds := [(5, frameCmd d2)], slots := [(0, { isOpen := true, budget := 100, lateDrop := late })] }

theorem witness_frame : ∀ n ∈ [0, 1], ∀ l ∈ [false, true], let d := BitVec.ofNat 32 n; (framed d l).Waits 5 0x22 (frameCmd d)
    ∧ (framed d l).bindTurn (frameCmd d) = true ∧ (framed d l).blocked = false ∧ (framed d l).slotOf (frameCmd d) = some 0
    ∧ ((framed d l).bind 0).dead = false ∧ (framed d l).run? 5 = none := by
  decide +kernel

theorem framed_pattern (d : Word) (l : Bool) : (framed d l).bindPattern ((framed d l).bind 0) = slotImg layBody :=
  laid_like (u := framed d l) (b := layBind) (r := layRec 0) (k := 0) rfl rfl rfl

theorem witness_frame_bad (view : HostView) (l : Bool) : (framed 1 l).prepFrame view (frameCmd 1) 0 = .bad (framed 1 l) St.badParam := by
  have h : Entry.paramsOk (frameCmd 1).entry = false := by decide +kernel
  simp only [State.prepFrame, h, Bool.not_false, if_true]

/-- What it becomes. -/
def frameRun (l : Bool) (p : List Nat) : Run :=
  { fn := 0, bind := 0, order := 0, rt := true, last := 0, nbuf := 0, lens := [0, 0, 0, 0], lateDrop := l, slot := some 0, deadline := some 1
    pieces := p }

/-- A frame on a PCIe-fed slot without a buffer table passes its checks. -/
theorem frame_good {u s : State} {b : Binding} {c : Cmd} {l : Bool} (view : HostView) (hn : u.nvm = (laid s b).nvm)
    (hp : u.bindPattern (u.bind 0) = slotImg layBody) (hc : (u.bind 0).chips = 1) (ha : (u.bind 0).adapter = none)
    (hx : u.frameBase c 0 = frameRun l [])
    (hs : (u.slot 0).csi = false) (ho : Entry.paramsOk c.entry = true)
    (hd : Entry.dw c.entry 7 = 0 ∧ Entry.dw c.entry 8 = 0 ∧ Entry.dw c.entry 9 = 0) :
    u.prepFrame view c 0 = .good u (frameRun l [0]) := by
  have k : pickDims (slotImg layBody) 1 [0, 0, 0, 0] = some [] := by simp [pickDims, lay_facts.2.1]
  have y : u.runLayers (slotImg layBody) (frameRun l [0]) = [(0, 0, layRec 0)] := by
    simp [State.runLayers, frameRun, lay_layers hn]
  have f : u.lensFit (slotImg layBody) (frameRun l [0]) = true := by
    simp only [State.lensFit, lay_facts.2.1, show (frameRun l [0]).lens = [0, 0, 0, 0] from rfl, y]
    decide +kernel
  have g : u.prepPieces (frameRun l []) = .good u (frameRun l [0]) := by
    simp only [State.prepPieces, show (frameRun l []).bind = 0 from rfl, hp, hc, show (frameRun l []).lens = [0, 0, 0, 0] from rfl, k,
      lay_facts.2.2.1]
    exact if_pos f
  have q : (frameRun l [0]).bind = 0 ∧ (frameRun l [0]).nbuf = 0 := ⟨rfl, rfl⟩
  simp only [State.prepFrame, hx, ho, Bool.not_true, Bool.false_eq_true, if_false, g]
  simp [Prep.then, Cmd.prepMap, hd, rangeRefOk, bitsOf, hs, State.prepTable, q, Cmd.prepAdapter, ha, State.prepLists, State.runPat, hp,
    y, dynOf, lay_record, Prep.each]

theorem frame_base (l : Bool) : (framed 0 l).frameBase (frameCmd 0) 0
    = frameRun l [] := by
  have h : Pattern.stageCount ((framed 0 l).bindPattern ((framed 0 l).bind ((framed 0 l).slot 0).bind)) = 1 := by
    rw [show ((framed 0 l).slot 0).bind = 0 from rfl, framed_pattern, lay_facts.1]
  unfold State.frameBase
  simp only [h]
  cases l <;> rfl

/-- A frame whose checks pass: its deadline is 1, and it is under the slot's rule. -/
theorem witness_frame_good (view : HostView) (l : Bool) : ∃ x, (framed 0 l).prepFrame view (frameCmd 0) 0 = .good (framed 0 l) x
    ∧ x.bind = 0 ∧ x.deadline = some 1 ∧ x.lateDrop = l ∧ x.waitCap = false :=
  ⟨_, frame_good (s := up) (b := layBind) view rfl (framed_pattern 0 l) rfl rfl (frame_base l) rfl
    (by decide +kernel) (by decide), rfl, rfl, rfl, rfl⟩

/-- A COPY's two lists of one block, in device window 0; the second list of the other lies outside. -/
theorem witness_copy : (∀ op ∈ [0x23, 0x423], ∀ ps ∈ [[0, 0, 0x1000, 0x1000, 1, 0x2000, 0x1000, 1], [1]],
      (holds op ps).Waits 5 0x23 (heldCmd op ps) ∧ Entry.light (heldCmd op ps).entry = decide (op = 0x423))
    ∧ Entry.paramsOk (heldCmd 0x23 [0, 0, 0x1000, 0x1000, 1, 0x2000, 0x1000, 1]).entry = true
    ∧ Entry.paramsOk (heldCmd 0x23 [1]).entry = false ∧ Entry.paramsOk (heldCmd 0x423 [1]).entry = false := by
  decide +kernel

theorem witness_copy_good : ∃ u x, (((heldCmd 0x23 [0, 0, 0x1000, 0x1000, 1, 0x2000, 0x1000, 1]).copyBuffer 0 3 up
    (up.copyBase (heldCmd 0x23 [0, 0, 0x1000, 0x1000, 1, 0x2000, 0x1000, 1]) false)).then
    ((heldCmd 0x23 [0, 0, 0x1000, 0x1000, 1, 0x2000, 0x1000, 1]).copyBuffer 1 6)) = .good u x :=
  Prep.good_of (by decide +kernel)

theorem witness_copy_bad : ∃ u st, (((heldCmd 0x23 [0, 0, 0x1000, 0x1000, 1, 0xFFFFF000, 0x1000, 1]).copyBuffer 0 3 up
    (up.copyBase (heldCmd 0x23 [0, 0, 0x1000, 0x1000, 1, 0xFFFFF000, 0x1000, 1]) false)).then
    ((heldCmd 0x23 [0, 0, 0x1000, 0x1000, 1, 0xFFFFF000, 0x1000, 1]).copyBuffer 1 6)) = .bad u st := by
  generalize h : Prep.then _ _ = p
  cases p with
  | bad a st => exact ⟨a, st, rfl⟩
  | good a x =>
    have k := congrArg Prep.isGood h
    have j : Prep.isGood (((heldCmd 0x23 [0, 0, 0x1000, 0x1000, 1, 0xFFFFF000, 0x1000, 1]).copyBuffer 0 3 up
      (up.copyBase (heldCmd 0x23 [0, 0, 0x1000, 0x1000, 1, 0xFFFFF000, 0x1000, 1]) false)).then
      ((heldCmd 0x23 [0, 0, 0x1000, 0x1000, 1, 0xFFFFF000, 0x1000, 1]).copyBuffer 1 6)) = false := by decide +kernel
    rw [j] at k
    cases k

/-- LIGHT COPYs of 16 inline bytes: to device window 0, and to a block outside it. -/
def lightCopy (lo : Word) : Cmd := heldCmd 0x423 [0, lo, 0x0403D000]

theorem witness_copy_light : ∀ n ∈ [0x2000, 0xFFFFF000], ∃ a, let lo := BitVec.ofNat 32 n; lightArgs (lightCopy lo).entry = some a
    ∧ Entry.paramsOk (lightCopy lo).entry = true
    ∧ (((lightCopy lo).lightInput a up (up.copyBase (lightCopy lo) true)).then ((lightCopy lo).lightOutput a)).isGood
      = decide (n = 0x2000) := by
  intro n h
  have k : ∀ n ∈ [0x2000, 0xFFFFF000], ∃ k : (lightArgs (lightCopy (BitVec.ofNat 32 n)).entry).isSome = true,
      Entry.paramsOk (lightCopy (BitVec.ofNat 32 n)).entry = true
      ∧ (((lightCopy (BitVec.ofNat 32 n)).lightInput (Option.get _ k) up (up.copyBase (lightCopy (BitVec.ofNat 32 n)) true)).then
          ((lightCopy (BitVec.ofNat 32 n)).lightOutput (Option.get _ k))).isGood = decide (n = 0x2000) := by decide +kernel
  obtain ⟨k, h1, h2⟩ := k n h
  exact ⟨_, (Option.some_get k).symm, h1, h2⟩

/-- As `holds`, with another command of the PF under ticket 7; the first was accepted after it. -/
def beside (op : Nat) (ps : List Word) (d : Cmd) : State := { holds op ps with cmds := [(5, { heldCmd op ps with order := 1 }), (7, d)] }
/-- A CANCEL of ticket 7. -/
def cancelCmd : Cmd := { heldCmd 0x16 [7] with order := 1 }
/-- A command that is busy. -/
def busyCmd (op : Nat) (d2 : Word := 0) : Cmd := { heldCmd op [0, d2] with phase := .busy }

/-- Targets in every phase. -/
theorem witness_cancel : ∀ d ∈ [{ busyCmd 0x13 with phase := .ended }, { busyCmd 0x13 with phase := .ready },
      { busyCmd 0x13 with phase := .held }, { busyCmd 0x53 with phase := .ready }, { busyCmd 0x60 with phase := .ready }, busyCmd 0x53,
      busyCmd 0x13, busyCmd 0x10, busyCmd 0x31, busyCmd 0x32, busyCmd 0x21, busyCmd 0x12, busyCmd 0x12 0x80000000],
    (beside 0x16 [7] d).Waits 5 0x16 cancelCmd ∧ (beside 0x16 [7] d).cancelTarget cancelCmd = some (7, d) := by
  decide +kernel

theorem witness_cancel_else : Entry.paramsOk cancelCmd.entry = true ∧ (holds 0x16 [7]).cancelTarget (heldCmd 0x16 [7]) = none
    ∧ (busyCmd 0x12 0x80000000).isRelease = true ∧ (busyCmd 0x21).isRelease = false ∧ (busyCmd 0x12).isRelease = false := by decide +kernel

/-- Running commands: one at work, one that stops; one whose operation runs, one whose operation does not yet. -/
theorem witness_cancel_busy : (∀ x ∈ [none, some { status := St.cancelled }],
      ({ beside 0x16 [7] (busyCmd 0x13) with comp := { runs := [(7, { stop := x })] } } : State).run? 7 = some { stop := x })
    ∧ (∀ r ∈ [true, false], ∀ a ∈ [NvmAct.erase 0, .program 0 0 1 (.mem (.lp5x 0) 0)],
      let s : State := { beside 0x16 [7] (busyCmd 0x31) with
        nvm := { words := [], plans := [(7, {})], ops := [{ bank := 0, act := a, owner := .cmd 7, running := r }] } }
      s.run? 7 = none ∧ Table.find s.nvm.plans 7 = some {}
      ∧ s.nvm.runningOf 7 = if r then some { bank := 0, act := a, owner := .cmd 7, running := r } else none)
    ∧ ({ bank := 0, act := .erase 0, owner := .cmd 7, running := true } : NvmOp).uncancellable false = true
    ∧ ({ bank := 0, act := .program 0 0 1 (.mem (.lp5x 0) 0), owner := .cmd 7, running := true } : NvmOp).uncancellable false = false := by
  decide +kernel

theorem witness_cancel_binding : (beside 0x16 [7] (busyCmd 0x21)).run? 7 = none ∧ (beside 0x16 [7] (busyCmd 0x21)).bindingOf 7 = none
    ∧ ({ beside 0x16 [7] (busyCmd 0x12) with binds := [(3, { binder := some 7 })] } : State).bindingOf 7 = some 3 := by decide +kernel

/-- A reset of the PF: with an earlier command that can end, with one whose erase runs on, and with an earlier reset. -/
theorem witness_tenant_reset :
    (∀ d ∈ [{ busyCmd 0x13 with phase := .ready }, busyCmd 0x32], (beside 0x60 [] d).Waits 5 0x60 { heldCmd 0x60 [] with order := 1 }
      ∧ (beside 0x60 [] d).resetBefore { heldCmd 0x60 [] with order := 1 } = false)
    ∧ (beside 0x60 [] { busyCmd 0x60 with phase := .ready }).resetBefore { heldCmd 0x60 [] with order := 1 } = true
    ∧ Entry.paramsOk (heldCmd 0x60 []).entry = true ∧ up.fnExists 0 = true ∧ up.fnExists 5 = false
    ∧ bitsOf (Entry.dw (heldCmd 0x60 [0, 5]).entry 2) 5 0 = 5 := by
  decide +kernel

theorem witness_tenant_reset_ends (s a : State) (h : s = beside 0x60 [] { busyCmd 0x13 with phase := .ready })
    (e : a = ((s.earlier 0 1).foldl State.abortCmd s).closeSlots 0) : a.earlier 0 1 = [] := by
  subst h e
  decide +kernel

theorem witness_tenant_reset_waits (s a : State)
    (h : s = { beside 0x60 [] (busyCmd 0x32) with
      nvm := { words := [], plans := [(7, {})], ops := [{ bank := 0, act := .erase 0, owner := .cmd 7, running := true }] } })
    (e : a = ((s.earlier 0 1).foldl State.abortCmd s).closeSlots 0) : a.earlier 0 1 ≠ [] := by
  subst h e
  decide +kernel

theorem witness_peer_query : (holds 0x61 []).Waits 5 0x61 (heldCmd 0x61 []) ∧ Entry.paramsOk (heldCmd 0x61 []).entry = true
    ∧ (∀ f ∈ [true, false], ({ holds 0x62 [0, 1] with pace := { busFault := f } } : State).Waits 5 0x62 (heldCmd 0x62 [0, 1]))
    ∧ Entry.paramsOk (heldCmd 0x62 [0, 1]).entry = true ∧ (∀ op ∈ [0x16, 0x60, 0x61, 0x62], Entry.paramsOk (heldCmd op [7, 0x100]).entry = false
      ∧ (holds op [7, 0x100]).Waits 5 op (heldCmd op [7, 0x100])) := by
  decide +kernel

/-- As `holds`, with a weight store of no factory contents. -/
def store (v : Nvm) (op : Nat) (ps : List Word) : State := { holds op ps with nvm := { v with words := [] } }
/-- The dwords of an NVM_PROGRAM of one code word from device address 0x1000. -/
def progDws : List Word := [0, 0x20000, 0x1000, 0x1000]

/-- The checks of a program and of an erase. -/
theorem witness_store_checks : (∀ v ∈ [({ words := [] } : Nvm), { words := [], unlocked := true }, { words := [], unlocked := true, resv := [(0, [64])] }],
      ∀ op ∈ [0x31, 0x32], (store v op progDws).nvm.unlocked = v.unlocked
        ∧ (store v op progDws).reservedFor (heldCmd op progDws) 0 = decide (v.resv ≠ []))
    ∧ nvmRange (heldCmd 0x31 progDws).entry = (0, 0, 1) ∧ (heldCmd 0x31 progDws).input 3 256 = .ok (.lp5x 0x1000)
    ∧ (heldCmd 0x31 [0, 0x20000, 0xFFFFF000, 0x1000]).input 3 256 = .error St.windowFault
    ∧ bitsOf (Entry.dw (heldCmd 0x31 progDws).entry 2) 31 28 = 0
    ∧ Entry.zeros (heldCmd 0x31 progDws).entry [5, 6, 7, 8, 9, 10, 11, 12, 13, 14, 15] = true
    ∧ 64 ≤ (Entry.handle (heldCmd 0x31 [64]).entry).toNat ∧ 126 ≤ (Entry.dw (heldCmd 0x32 [0, 126]).entry 2).toNat
    ∧ Entry.zeros (heldCmd 0x32 [0, 5]).entry [3, 4, 5, 6, 7, 8, 9, 10, 11, 12, 13, 14, 15] = true := by
  decide +kernel

/-- They are queued, or end, in their turn. -/
theorem witness_store_turn : ∀ p ∈ [((0x31 : Nat), progDws), (0x32, [0, 5]), (0x34, [0, 5]), (0x34, [0, 0x80]), (0x34, [0, 0x81]),
      (0x30, [0, 0x20000, 0, 0x2000, 0x1000, 256]), (0x30, [64, 0xFFFFFFFF]), (0x33, [0]), (0x33, [0, 0x2000, 0x1000, 1]), (0x33, [99])],
    (store {} p.1 p.2).Waits 5 p.1 (heldCmd p.1 p.2) ∧ (store {} p.1 p.2).myTurn (heldCmd p.1 p.2) = true := by
  decide +kernel

theorem witness_store_params : (∀ p ∈ [((0x31 : Nat), progDws), (0x32, [0, 5]), (0x34, [0, 5]), (0x34, [0, 0x80]),
      (0x30, [0, 0x20000, 0, 0x2000, 0x1000, 256]), (0x33, [0]), (0x33, [0, 0x2000, 0x1000, 1])], Entry.paramsOk (heldCmd p.1 p.2).entry = true)
    ∧ (∀ p ∈ [((0x34 : Nat), [(0 : Word), 0x81]), (0x30, [64, 0xFFFFFFFF]), (0x33, [99])], Entry.paramsOk (heldCmd p.1 p.2).entry = false)
    ∧ (heldCmd 0x30 [0, 0x20000, 0, 0x2000, 0x1000, 256]).output 4 256 = .ok (.lp5x 0x2000)
    ∧ (heldCmd 0x30 [0, 0x20000, 0, 0xFFFFF000, 0x1000, 256]).output 4 256 = .error St.windowFault
    ∧ (heldCmd 0x33 [0, 0x2000, 0x1000, 1]).output 2 1024 = .ok (.lp5x 0x2000)
    ∧ (heldCmd 0x33 [0, 0xFFFFF000, 0x1000, 1]).output 2 1024 = .error St.windowFault := by
  decide +kernel

/-- Banks with and without scrub-due blocks, at rest and at work. -/
theorem witness_store_banks : ({ words := [], blocks := [(5, { due := true })] } : Nvm).dueBlocks 0 = [5]
    ∧ ({ words := [] } : Nvm).dueBlocks 0 = [] ∧ ({ words := [] } : Nvm).running 0 = none
    ∧ ({ words := [], ops := [{ bank := 0, act := .erase 0, owner := .cmd 7, running := true }] } : Nvm).running 0
      = some { bank := 0, act := .erase 0, owner := .cmd 7, running := true } := by
  decide +kernel

/-- A running device whose weight store has one operation in a bank. -/
def working (o : NvmOp) (v : Bool := true) (w : Table NvmWord := []) : State := { up with
  power := { up.power with level := 0 }
  nvm := { words := w, vppOk := v, ops := [o], charging := if o.running then [o.bank] else [] } }
/-- Operations on bank 0. -/
def eraseOp : NvmOp := { bank := 0, act := .erase 3, owner := .cmd 7 }
def progOp (s : NvmSrc) : NvmOp := { bank := 0, act := .program 0 0 1 s, owner := .cmd 7 }
def markOp : NvmOp := { bank := 65, act := markAct 1 1, owner := .mark 1 1 }

/-- Operations that may start, with and without VPP_NVM; one that may not; none. -/
theorem witness_op_start : (∀ o ∈ [eraseOp, { eraseOp with act := .erasePhys 3 }, { eraseOp with act := .relocate 3 }, progOp (.mem (.lp5x 0) 0),
        progOp (.bytes (zeroBytes 256)), markOp], ∀ v ∈ [true, false],
      (working o v).nvm.nextOp o.bank = some o ∧ (working o v).mayStart o = true ∧ (working o v).nvm.vppOk = v)
    ∧ up.nvm.nextOp 0 = none ∧ ({ working eraseOp with dbg := { halted := true } } : State).mayStart eraseOp = false := by
  decide +kernel

theorem witness_op_wear : (working { markOp with act := wearAct, owner := .wear }).nvm.nextOp 65 = some { markOp with act := wearAct, owner := .wear } := by
  simp [working, Nvm.nextOp, markOp, NvmOp.isWear, NvmOp.isMark, wearAct]

theorem witness_op_scan : (working (progOp (.bytes [])) true []).flagScan 0 0 0 1 = ((working (progOp (.bytes [])) true []).flagScan 0 0 0 1)
    ∧ ((working (progOp (.bytes [])) true []).flagScan 0 0 0 1).2 = none
    ∧ ((working (progOp (.bytes [])) true [(0, { flag := 8 })]).flagScan 0 0 0 1).2 = some 0
    ∧ (working markOp).nvm.markFull markOp = false := by decide +kernel

/-- A running program and a running erase at their units' ends; nothing running. -/
theorem witness_op_unit : (∀ o ∈ [{ progOp (.bytes (zeroBytes 256)) with running := true, staged := zeroBytes 256 },
        { progOp (.bytes (zeroBytes 256)) with running := true, staged := zeroBytes 256, stop := some St.cancelled },
        { eraseOp with running := true }, { eraseOp with running := true, done := 5 }, { eraseOp with running := true, done := 15 }],
      (working o).nvm.running 0 = some o ∧ ((working o).unitEnds 0).isSome = true)
    ∧ up.nvm.running 0 = none ∧ up.unitEnds 0 = none := by
  decide +kernel

/-- Power to program with. -/
theorem witness_vpp : (working eraseOp false).life.phase ≠ .por ∧ (working eraseOp false).nvm.vppOk = false := by decide

/-- A running device at RL0 with a weight store, without banks at work. -/
def resting (v : Nvm) : State := { up with power := { up.power with level := 0 }, nvm := { v with words := [] } }

theorem witness_patrol : (resting {}).fwRuns = true ∧ (resting {}).nvm.hostOp 0 = false ∧ (resting {}).nvm.busy 0 = false
    ∧ (resting {}).bankState 0 ≠ 0 ∧ (working eraseOp).nvm.hostOp 0 = true ∧ (working { eraseOp with running := true }).nvm.busy 0 = true
    ∧ ((resting {}).nvm.block 0 0).due = false := by decide +kernel

/-- A bank that is free for the KC2's own work, with a scrub-due block and an erased spare, and one with a stale block. -/
theorem witness_own_work : (∀ v ∈ [({ words := [], vppOk := true, blocks := [(5, { due := true })] } : Nvm),
        { words := [], vppOk := true, autoEn := false, blocks := [(126, { stale := true })] }],
      (resting v).fwRuns = true ∧ (resting v).nvm.vppOk = true ∧ (resting v).bankReserved 0 = false ∧ (resting v).nvm.hostOp 0 = false
      ∧ (resting v).nvm.busy 0 = false)
    ∧ (resting { words := [], blocks := [(5, { due := true })] }).nvm.dueBlocks 0 = [5]
    ∧ (resting { words := [], blocks := [(126, { stale := true })] }).nvm.staleBlock 0 = some 126
    ∧ (resting {}).nvm.staleBlock 0 = none := by
  decide +kernel

theorem witness_spare : ∃ q, ((resting { words := [], blocks := [(5, { due := true })] }).nvm.erasedSpares 0).head? = some q :=
  Option.isSome_iff_exists.mp (by decide +kernel)

/-- Checkpoints: at RL0, at RL3 before RL4, at RL2, queued already, and without VPP_NVM. -/
theorem witness_checkpoint : (resting { vppOk := true }).fwRuns = true ∧ (∀ x ∈ (resting { vppOk := true }).nvm.ops, x.isWear = false)
    ∧ (resting { vppOk := true }).power.level = 0
    ∧ ({ resting { vppOk := true } with power := { up.power with level := 2 } } : State).power.level = 2
    ∧ (∃ x ∈ (resting { ops := [{ bank := 64, act := wearAct, owner := .wear }] }).nvm.ops, x.isWear = true)
    ∧ (resting { vppOk := false }).nvm.vppOk = false := by
  decide +kernel

theorem witness_checkpoint_rest : ∃ s : State, s.power.level = 3 ∧ s.mayRest = true :=
  ⟨{ up with nvm := { words := [], vppOk := true }, power := { up.power with level := 3, linkL12 := true, idleTicks := 0xFFFFFFFFFFFF } }, by decide +kernel⟩

/-- The first 4,092 bytes of the factory's record, with a sequence number. -/
def recordBody (n : Nat) : Bytes := recordHead 1 n 0 ++ leBytes 2 0x1FA7 ++ leBytes 2 0xC200 ++ leBytes 4 0x48448484 ++ zeroBytes 4068

theorem recordBody_length (n : Nat) : (recordBody n).length = 4092 := by
  simp only [recordBody, recordHead, zeroBytes, List.length_append, List.length_replicate, length_leBytes]

theorem factoryRecord_length (n : Nat) : (factoryRecord n).length = 4096 := by
  change (recordBody n ++ leBytes 4 (crc32 (recordBody n)).toNat).length = 4096
  rw [List.length_append, recordBody_length, length_leBytes]

theorem recordBody_head : leAt (factoryRecord 0) 0 4 = 0x5345544B ∧ leAt (factoryRecord 0) 6 2 = 4096 := by decide +kernel

/-- A factory record is good. -/
theorem factoryRecord_good : recordGood (factoryRecord 0) = true := by
  generalize hn : 0 = n at *
  have e : factoryRecord n = recordBody n ++ leBytes 4 (crc32 (recordBody n)).toNat := by unfold factoryRecord recordBody; rfl
  have h1 : (factoryRecord n).take 4092 = recordBody n := by rw [e, List.take_left' (recordBody_length n)]
  have h2 : leAt (factoryRecord n) 4092 4 = (crc32 (recordBody n)).toNat := by
    rw [leAt, e, List.drop_left' (recordBody_length n), List.take_of_length_le (Nat.le_of_eq (length_leBytes _ _)), leNat_leBytes]
    exact Nat.mod_eq_of_lt (crc32 _).isLt
  have h3 : leAt (factoryRecord n) 0 4 = 0x5345544B ∧ leAt (factoryRecord n) 6 2 = 4096 := by
    rw [← hn]
    exact recordBody_head
  simp [recordGood, h1, h2, h3, factoryRecord_length]

theorem host_none (v : HostView) (n a : Nat) : hostBytes v n a 0 = .ok [] := by
  cases n <;> rfl

/-- Host memory that holds one byte string at address 0 gives it. -/
theorem host_one (d : Bytes) (n : Nat) (h : 0 < d.length) (hn : n = d.length) :
    hostBytes [{ base := 0, data := d }] (n + 1) 0 n = .ok d := by
  subst hn
  have h0 : d.length ≠ 0 := by omega
  simp [hostBytes, h, h0, host_none]

theorem sendReads_blocked (f g : Nat) (ns : Bool) (n : Nat) : ∀ (s : State) (a len : Nat),
    (s.sendReads f g ns n a len).blocked = s.blocked := by
  induction n with
  | zero => intro s a len; rfl
  | succ n ih =>
    intro s a len
    unfold State.sendReads
    split
    · rfl
    · rw [ih]
      rfl

/-- A read of host memory that does not wait and does not fail. -/
theorem readHost_ok {s : State} {v : HostView} {f a len : Nat} {ns : Bool} {d : Bytes} (h : hostBytes v (len + 1) a len = .ok d)
    (k : s.readWaits f (.ok d) = false) : ∃ r, s.readHost v f a ns len = (r, .ok d) ∧ r.blocked = s.blocked := by
  unfold State.readHost
  simp only [h, k, Bool.false_eq_true, if_false]
  exact ⟨_, rfl, sendReads_blocked ..⟩

theorem readHost_error {s : State} {v : HostView} {f a len : Nat} {ns : Bool} (h : hostBytes v (len + 1) a len = .error .ur)
    (k : s.readWaits f (.error .ur) = false) : ∃ r, s.readHost v f a ns len = (r, .error .ur) ∧ r.blocked = s.blocked := by
  unfold State.readHost
  simp only [h, k, Bool.false_eq_true, if_false]
  exact ⟨_, rfl, sendReads_blocked ..⟩

/-- A state whose firmware has a record in force, with a settings command. -/
def settingsState (op : Nat) (ps : List Word) (f : Bool := false) : State := { holds op ps with
  fw := { up.fw with record := factoryRecord 0, setOwn := 1, migLo := 1, defaulted := f }
  nvm := { words := [] } }

/-- Accepted in each mode, and refused while defaulted. -/
theorem witness_settings_ok : (∀ m ∈ [0, 1, 2], (settingsState 0x51 []).settingsOk m (factoryRecord 0) = true)
    ∧ (settingsState 0x51 [] true).settingsOk 0 (factoryRecord 0) = false := by
  simp only [State.settingsOk, factoryRecord_good]
  decide +kernel

/-- The commands in their turn. -/
theorem witness_settings_turn : ∀ p ∈ [((0x50 : Nat), [(0 : Word), 0x2000, 0x1000, 4096]), (0x50, [1]), (0x51, [0, 0, 0, 0]), (0x51, [0, 1, 0, 0]),
      (0x51, [0, 2, 0, 0]), (0x51, [1]), (0x51, [1, 1]), (0x51, [1, 2])],
    (settingsState p.1 p.2).Waits 5 p.1 (heldCmd p.1 p.2) ∧ (settingsState p.1 p.2).myTurn (heldCmd p.1 p.2) = true
    ∧ (settingsState p.1 p.2).blocked = false
    ∧ Entry.paramsOk (heldCmd p.1 p.2).entry = (Entry.dw (heldCmd p.1 p.2).entry 1 == 0) := by
  decide +kernel

theorem witness_settings_place : (heldCmd 0x50 [0, 0x2000, 0x1000, 4096]).output 2 4096 = .ok (.lp5x 0x2000)
    ∧ (heldCmd 0x50 [0, 0xFFFFF000, 0x1000, 4096]).output 2 4096 = .error St.windowFault
    ∧ (∀ m ∈ [0, 1, 2], (heldCmd 0x51 [0, BitVec.ofNat 32 m, 0, 0]).input 3 4096 = .ok (.host 0 false))
    ∧ (heldCmd 0x51 [0, 0, 0xFFFFF000, 0x1000]).input 3 4096 = .error St.windowFault := by
  decide +kernel

/-- A source that is read, and one that is not. -/
theorem witness_settings_read (ps : List Word) : ∃ r, (settingsState 0x51 ps).readPlace [{ base := 0, data := factoryRecord 0 }] 0 (.host 0 false) 4096
    = (r, .ok (factoryRecord 0)) ∧ r.blocked = false := by
  have h := host_one (factoryRecord 0) 4096 (by rw [factoryRecord_length]; decide) (factoryRecord_length 0).symm
  generalize factoryRecord 0 = d at *
  generalize 4096 = n at *
  exact readHost_ok (s := settingsState 0x51 ps) (f := 0) (ns := false) h rfl

theorem witness_settings_unread (ps : List Word) : ∃ r, (settingsState 0x51 ps).readPlace [] 0 (.host 0 false) 4096 = (r, .error .ur)
    ∧ r.blocked = false :=
  readHost_error (s := settingsState 0x51 ps) (f := 0) (a := 0) (len := 4096) (ns := false) rfl rfl

/-- The inactive slot with the factory's image and some marks; the other slot runs. -/
def images (op : Nat) (ps : List Word) (m : List (Nat × Nat)) (img : Bytes := factoryImage) : State := { holds op ps with
  fw := { up.fw with running := 1 }
  nvm := { words := ((codeWords 64 0 0 img).map fun x => (wordKey 64 0 x.2.2.1, ({ flag := 8, data := x.2.2.2 } : NvmWord)))
    ++ m.map fun x => (wordKey 64 47 (1008 + x.1), { flag := 8, data := markBytes x.2 (x.1 + 1) 0 }) } }

/-- A STAGE with its erases, without, and onto a PENDING slot; one out of range; a source outside the windows. -/
theorem witness_stage : (∀ p ∈ [([(0 : Word), 1, 0x2000, 0x1000, 256, 0], ([] : List (Nat × Nat))), ([0, 0, 0x2000, 0x1000, 256, 0], []),
      ([0, 0, 0x2000, 0x1000, 256, 0], [(0, 1)])],
      (images 0x52 p.1 p.2).Waits 5 0x52 (heldCmd 0x52 p.1) ∧ (images 0x52 p.1 p.2).myTurn (heldCmd 0x52 p.1) = true
      ∧ Entry.paramsOk (heldCmd 0x52 p.1).entry = true ∧ (heldCmd 0x52 p.1).input 3 256 = .ok (.lp5x 0x2000)
      ∧ (images 0x52 p.1 p.2).otherSlot = 0 ∧ (images 0x52 p.1 p.2).nvm.slotState 0 = p.2.length ∧ (images 0x52 p.1 p.2).nvm.marksUsed 0 < 16)
    ∧ (images 0x52 [1] []).Waits 5 0x52 (heldCmd 0x52 [1]) ∧ (images 0x52 [1] []).myTurn (heldCmd 0x52 [1]) = true
    ∧ Entry.paramsOk (heldCmd 0x52 [1]).entry = false ∧ (heldCmd 0x52 [0, 0, 0xFFFFF000, 0x1000, 256, 0]).input 3 256 = .error St.windowFault
    ∧ Entry.paramsOk (heldCmd 0x52 [0, 0, 0xFFFFF000, 0x1000, 256, 0]).entry = true := by
  decide +kernel

/-- Commits on slots that are PENDING, in trial, staged with a good image, staged without one, and with a full mark area. -/
theorem witness_commit : (∀ p ∈ [([((0 : Nat), (1 : Nat))], (1, 0)), ([(0, 1), (1, 2)], (2, 0)), ([], (0, 0)),
        ((List.range 16).map fun i => (i, 5), (0, 0))],
      (images 0x53 [0, 1] p.1).Waits 5 0x53 (heldCmd 0x53 [0, 1]) ∧ (images 0x53 [0, 1] p.1).myTurn (heldCmd 0x53 [0, 1]) = true
      ∧ (images 0x53 [0, 1] p.1).planeFree = true
      ∧ ((images 0x53 [0, 1] p.1).nvm.slotState 0, (images 0x53 [0, 1] p.1).nvm.imageCheck 0 0) = p.2
      ∧ ((images 0x53 [0, 1] p.1).imageReads 0).nvm.marksUsed 0 = p.1.length)
    ∧ (images 0x53 [0, 1] [] []).nvm.imageCheck 0 0 = 3 ∧ (images 0x53 [0, 1] [] []).nvm.slotState 0 = 0
    ∧ (images 0x53 [0, 1] []).fuses.rollback = 0 ∧ Entry.paramsOk (heldCmd 0x53 [0, 1]).entry = true
    ∧ Entry.paramsOk (heldCmd 0x53 [0, 3]).entry = false ∧ Entry.paramsOk (heldCmd 0x53 [0, 2]).entry = false := by
  decide +kernel

theorem witness_withdraw : (∀ m ∈ [([] : List (Nat × Nat)), [(0, 1)]], (images 0x53 [0, 0] m).Waits 5 0x53 (heldCmd 0x53 [0, 0])
      ∧ (images 0x53 [0, 0] m).myTurn (heldCmd 0x53 [0, 0]) = true ∧ (images 0x53 [0, 0] m).planeFree = true
      ∧ (images 0x53 [0, 0] m).nvm.slotState 0 = m.length)
    ∧ Entry.paramsOk (heldCmd 0x53 [0, 0]).entry = true
    ∧ ({ holds 0x53 [0, 0] with nvm := { words := [], setLock := some 9 } } : State).planeFree = false := by
  decide +kernel

/-- A run-down lock, with nothing under way and with a settings program under way; a lock that runs. -/
theorem witness_lapse : ({ up with nvm := { words := [], setLock := some 0 } } : State).nvm.running 64 = none
    ∧ ({ holds 0x51 [] with nvm := { words := [], setLock := some 0, ops := [{ bank := 64, act := .program 48 0 16 (.bytes []), owner := .cmd 5, running := true }] } } : State).nvm.running 64
      = some { bank := 64, act := .program 48 0 16 (.bytes []), owner := .cmd 5, running := true }
    ∧ (holds 0x51 []).ofSettings { bank := 64, act := .program 48 0 16 (.bytes []), owner := .cmd 5, running := true } = true
    ∧ up.nvm.setLock ≠ some 0 := by
  decide +kernel

/-- A running command of that pattern, its stage 0 in a state. -/
def stageRun (t : StageSt) (x : Run := {}) : Run := { x with
  bind := 0, pieces := [0], nbuf := 2, bufs := [(0, Buf.whole [{ rowBytes := 32, rows := 1, pitch := 32 }])], stages := [(0, t)] }
/-- As `laid`, with commands at work. -/
def staged (l : Table Run) (s : State := up) (r : Bytes := layRec 0) : State := laid { s with comp := { runs := l } } layBind r

theorem staged_pattern (l : Table Run) (s : State) (r : Bytes) (hf : (staged l s r).fw.running = 0) :
    (staged l s r).bindPattern ((staged l s r).bind 0) = slotImg layBody :=
  laid_like (u := staged l s r) (s := { s with comp := { runs := l } }) (b := layBind) (r := r) (k := 0) rfl hf rfl

theorem lay_cores : PieceRec.cores (Pattern.piece (slotImg layBody) 0) = [0] ∧ PieceRec.origin (Pattern.piece (slotImg layBody) 0) = 0
    ∧ layerAt (Pattern.pieces (slotImg layBody)) 0 0 = 1024
    ∧ PieceRec.gh (Pattern.piece (slotImg layBody) 0) = 1 ∧ PieceRec.gw (Pattern.piece (slotImg layBody) 0) = 1 := by decide +kernel

/-- A stage at its gate, alone and with an earlier command at the stage; on a core that failed and on a good one. -/
theorem witness_stage_gate : (staged [(5, stageRun {})]).liveStage 5 0 = some (stageRun {})
    ∧ ((stageRun {}).stage 0).phase = .gate
    ∧ (staged [(4, stageRun {}), (5, stageRun {} { order := 1 })]).liveStage 5 0 = some (stageRun {} { order := 1 })
    ∧ (staged [(5, stageRun {})]).stageBusy 5 (stageRun {}) 0 = false
    ∧ (staged [(4, stageRun {}), (5, stageRun {} { order := 1 })]).gateOpen 5 (stageRun {} { order := 1 }) 0 = false := by
  decide +kernel

theorem witness_stage_open : (staged [(5, stageRun {})]).gateOpen 5 (stageRun {}) 0 = true := by
  have p := staged_pattern [(5, stageRun {})] up (layRec 0) rfl
  unfold State.gateOpen State.recAt State.writeToken State.stagesOf State.pieceOf State.runPat
  rw [show (stageRun {}).bind = 0 from rfl, p]
  decide +kernel

theorem witness_stage_failed : ∀ f ∈ [false, true],
    (staged [(5, stageRun {})] { up with life := { up.life with failed := [(0, f)] } }).groupFailed (stageRun {}) 0 = f
    ∧ (staged [(5, stageRun {})] { up with life := { up.life with failed := [(0, f)] } }).liveStage 5 0 = some (stageRun {}) := by
  intro f hf
  have p := staged_pattern [(5, stageRun {})] { up with life := { up.life with failed := [(0, f)] } } (layRec 0) rfl
  unfold State.groupFailed State.pieceOf State.runPat
  rw [show (stageRun {}).bind = 0 from rfl, p, show (stageRun {}).pieceIdx 0 = 0 from rfl, lay_cores.1]
  clear p
  revert f
  decide +kernel

/-- An open stage, whose record's buffers the command's table has or lacks; a RUN that is not LIGHT is ready. -/
theorem witness_layer_start : (∀ n ∈ [0, 2], (staged [(5, { stageRun { phase := .open } with nbuf := n })]).liveStage 5 0
        = some { stageRun { phase := .open } with nbuf := n }
      ∧ (staged [(5, { stageRun { phase := .open } with nbuf := n })]).lightReady { stageRun { phase := .open } with nbuf := n } = true)
    ∧ ∀ n ∈ [0, 2], ({ stageRun { phase := .open } with nbuf := n } : Run).namesOk
      ((staged [(5, { stageRun { phase := .open } with nbuf := n })]).readLayer { stageRun { phase := .open } with nbuf := n } 0).2
        = decide (n = 2) := by
  refine ⟨by decide +kernel, fun n hn => ?_⟩
  have p := staged_pattern [(5, { stageRun { phase := .open } with nbuf := n })] up (layRec 0) rfl
  unfold State.readLayer State.pieceOf State.runPat
  rw [show ({ stageRun { phase := .open } with nbuf := n } : Run).bind = 0 from rfl, p]
  clear p
  revert n
  decide +kernel

/-- A running stage's layer: from the hand-over region of its core, or from buffer 0. -/
def layerRun (src : Nat) (c : ColSt) (x : Run := {}) (w : Bool := false) (k : CoreSt := {}) : Run :=
  stageRun { phase := .running, record := layRec src w, cols := [(0, c)], cores := [(0, k)] } x

/-- Its context. -/
def layCtx (src : Nat) : Ctx :=
  { r := layRec src, nest := [], tab := [], tabBad := false, dyn := none, wide := false, gh := 1, gw := 1, half := 0, ad := none }

theorem layer_ctx (src : Nat) (c : ColSt) (h : src ∈ [0, 0x10]) : (staged [(5, layerRun src c)]).ctxOf (layerRun src c) 0
    = layCtx src := by
  have p := staged_pattern [(5, layerRun src c)] up (layRec 0) rfl
  have d : dynOf (slotImg layBody) (layRec src) [] = none := by
    clear p
    revert src
    decide +kernel
  unfold State.ctxOf State.pieceOf State.runPat
  simp only [show (layerRun src c).bind = 0 from rfl, p, show (layerRun src c).pieceIdx 0 = 0 from rfl, lay_cores.2.2.2]
  rw [show ((layerRun src c).stage 0).record = layRec src from rfl, show (layerRun src c).lens = [] from rfl, d]
  rfl

/-- Columns that are idle, loading and computing; a column whose turn has not come. -/
theorem witness_tile : ∀ c ∈ [({} : ColSt), { phase := .load }, { phase := .compute }], ∀ src ∈ [0, 0x10],
    (staged [(5, layerRun src c)]).liveStage 5 0 = some (layerRun src c) ∧ ((layerRun src c).stage 0).phase = .running
    ∧ (layerRun src c).col 0 0 = c ∧ (layerRun src c).columnTurn 0 0 1 = true := by
  decide +kernel

/-- A tile whose lines are at hand, and one whose lines are not. -/
theorem witness_tile_ready : ∀ src ∈ [0, 0x10], ∃ b, ((layCtx src).tiles 0)[0]? = some b
    ∧ (staged [(5, layerRun src { phase := .load })]).ready (layerRun src { phase := .load }) 0
      ((staged [(5, layerRun src { phase := .load })]).tileNeeds (layerRun src { phase := .load }) 0
        ((staged [(5, layerRun src { phase := .load })]).refsOf (layerRun src { phase := .load }) 0 (layRec src)) (layCtx src) 0 0 b)
      = decide (src ≠ 0) := by
  intro src h
  have k : ∀ src ∈ [0, 0x10], ∃ k : (((layCtx src).tiles 0)[0]?).isSome = true,
      (staged [(5, layerRun src { phase := .load })]).ready (layerRun src { phase := .load }) 0
        ((staged [(5, layerRun src { phase := .load })]).tileNeeds (layerRun src { phase := .load }) 0
          ((staged [(5, layerRun src { phase := .load })]).refsOf (layerRun src { phase := .load }) 0 (layRec src)) (layCtx src) 0 0
          (Option.get _ k)) = decide (src ≠ 0) := by decide +kernel
  obtain ⟨k, e⟩ := k src h
  exact ⟨_, (Option.some_get k).symm, e⟩

/-- A drained layer. -/
theorem witness_drained (x : Run) (h : x = layerRun 0 { phase := .done }) : (staged [(5, x)]).layerDrained x 0 = true := by
  subst h
  unfold State.layerDrained
  rw [layer_ctx 0 { phase := .done } (by decide)]
  decide +kernel

/-- Drift, and what follows: a record that may widen with time for it, too late, and one that may not. -/
theorem witness_drift : ((layerRun 0 { phase := .done }).stage 0).drifted = false
    ∧ ((layerRun 0 { phase := .done } {} true { actClip := 0x10000 }).stage 0).drifted = true
    ∧ (staged []).driftStep (layerRun 0 {} {} true) 0 = .rerun
    ∧ (staged [] { up with time := 9 }).driftStep (layerRun 0 {} { lateDrop := true, deadline := some 1 } true) 0 = .late
    ∧ (staged []).driftStep (layerRun 0 {}) 0 = .keep := by
  decide +kernel

/-- A device whose fabric runs at RL0, one at rest, one after a trip. -/
theorem witness_wheel : ({ up with power := { up.power with level := 0 } } : State).fabricRuns = true
    ∧ ({ up with power := { up.power with level := 2 } } : State).power.level ≠ 0
    ∧ ({ up with life := { up.life with tripped := true } } : State).fabricRuns = false := by decide

/-- Frames before and after their deadline, with and without the drop rule; complete; noted already. -/
theorem witness_deadline : ∀ l ∈ [false, true], let x : Run := { deadline := some 1, lateDrop := l, pieces := [0], stages := [(0, {})] }
    ({ up with time := 9, comp := { runs := [(5, x)] } } : State).run? 5 = some x ∧ x.stop = none ∧ x.allDone = false ∧ x.missStage = none
    ∧ ({ x with missStage := some 0 } : Run).missStage.isSome = true ∧ ({ x with stages := [(0, { phase := .done })] } : Run).allDone = true := by
  decide +kernel

/-- A core that no command owns, and one that a command does. -/
theorem witness_core : up.coreOwner 0 = none := by decide +kernel

/-- A command of that pattern that is at work on its core. -/
def coreRun : Run := stageRun { phase := .open }

theorem coreRun_holds : (staged [(5, coreRun)]).holdsGroup 5 coreRun 0 = true ∧ coreRun.stageList = [0] := by decide +kernel

theorem coreRun_owns (s : State) (p : s.bindPattern (s.bind 0) = slotImg layBody) (h : s.holdsGroup 5 coreRun 0 = true) :
    s.ownsCore 5 coreRun 0 = true := by
  simp only [State.ownsCore, coreRun_holds.2, List.any_cons, List.any_nil, h, State.pieceOf, State.runPat, show coreRun.bind = 0 from rfl, p,
    show coreRun.pieceIdx 0 = 0 from rfl, lay_cores.1]
  rfl

theorem coreOwner_one (s : State) (x : Run) (e : s.comp.runs = [(5, x)]) (h : s.ownsCore 5 x 0 = true) : s.coreOwner 0 = some (5, x) := by
  simp only [State.coreOwner, e, List.find?, h]

theorem coreRun_pattern : (staged [(5, coreRun)]).bindPattern ((staged [(5, coreRun)]).bind 0) = slotImg layBody :=
  staged_pattern [(5, coreRun)] up (layRec 0) rfl

theorem witness_core_owned : (staged [(5, coreRun)]).coreOwner 0 = some (5, coreRun) :=
  coreOwner_one _ _ rfl (coreRun_owns _ coreRun_pattern coreRun_holds.1)

/-- A halted CP with the scope, a running one, and one without the scope. -/
theorem witness_resume : ({ up with dbg := { scope := 1, halted := true } } : State).restoring = false
    ∧ 1 ≤ ({ up with dbg := { scope := 1 } } : State).dbg.scope.toNat ∧ up.dbg.scope = 0 := by decide

/-- A slot that captures RAW8 lines of 64 pixels on receiver 0, channel 0, into two buffers in device window 0. -/
def capSlot : Slot := { isOpen := true, csi := true, dtype := 0x2A, width := 64, height := 2, nbuf := 2 }
/-- A running device with receiver 0 enabled, that slot, and a device window. -/
def capture (sl : Slot) (en : Bool := true) : State := { up with
  csi := [(0, { en := en })], slots := [(0, sl)]
  fns := [(0, { up.fnSt 0 with dwin := dev })] }
/-- The slot with a frame open at a line. -/
def capOpen (line : Nat) (d : Bool := false) : Slot := { capSlot with frame := some { line := line, discard := d } }
/-- The slot with its buffers in a state. -/
def capFull (x : CapState) : Slot := { capSlot with bufs := [(0, { state := x }), (1, { state := x })] }

/-- A receiver that runs and one that does not; a slot for the packet's type and none. -/
theorem witness_rx : (capture capSlot).rxRuns 0 = true ∧ (capture capSlot false).rxRuns 0 = false
    ∧ (∀ fx ∈ [false, true], (((capture capSlot).clockHigh 0).headerFixed 0 fx).slotAt 0 0 0x2A = some 0
      ∧ (((capture capSlot).clockHigh 0).headerFixed 0 fx).slotAt 0 0 0x2B = none
      ∧ (((capture capSlot).clockHigh 0).headerFixed 0 fx).slotAt 0 1 0x2A = none)
    ∧ (capture capSlot).slotsAt 0 0 = [0] ∧ (capture capSlot).slotsAt 0 1 = [] := by
  decide +kernel

/-- No open frame; an open one with room, one that is full, one that is discarded. -/
theorem witness_csi_lines : ((capture capSlot).slot 0).frame = none
    ∧ (∀ l ∈ [0, 2], ∀ d ∈ [false, true], ((capture (capOpen l d)).slot 0).frame = some { line := l, discard := d }
      ∧ (((capture (capOpen l d)).clockHigh 0).headerFixed 0 true).slotAt 0 0 0x2A = some 0 ∧ ((capture (capOpen l d)).slot 0).height = 2) := by
  decide +kernel

/-- Buffers: a free one, only unconsumed ones, none. -/
theorem witness_buffers : ((capture capSlot).slot 0).nextFree = some 0 ∧ (capture capSlot).capturePlace ((capture capSlot).slot 0) 0 = some 0
    ∧ ((capture (capFull .unconsumed)).slot 0).nextFree = none ∧ ((capture (capFull .unconsumed)).slot 0).oldest = some 0
    ∧ (capture (capFull .unconsumed)).capturePlace ((capture (capFull .unconsumed)).slot 0) 0 = some 0
    ∧ ((capture (capFull .inUse)).slot 0).nextFree = none ∧ ((capture (capFull .inUse)).slot 0).oldest = none := by
  decide +kernel

/-- A line of the slot's width; its pitch. -/
theorem witness_line_width : ((capture capSlot).slot 0).rowBytes = 64 ∧ ((capture capSlot).slot 0).pitch = 64 := by decide +kernel

/-- A frame with a packet 100 ms ago, and one with a packet now. -/
theorem witness_frame_timeout : ({ capture (capOpen 0) with time := 0x10000000 } : State).usSince 0 100000 = true
    ∧ (capture (capOpen 0)).usSince 0 100000 = false ∧ (capture (capOpen 0)).life.phase = .running := by decide +kernel

theorem witness_flits : up.portOn 0 = false ∧ weftUp.portOn 0 = true ∧ weftUp.portOn 1 = true := by decide

theorem witness_good_data : Flit.good (flit 1 0) = true ∧ Flit.kind (flit 1 0) = 1 ∧ Flit.seq (flit 1 0) = (weftUp.port 0).rxSeq.toNat
    ∧ (weftUp.port 0).rxBuf.length < 512 ∧ Flit.dst (flit 1 0) = weftUp.self := by decide +kernel

theorem witness_good_ctrl : Flit.good (flit 2 0) = true ∧ Flit.kind (flit 2 0) = 2 ∧ Flit.seq (flit 2 0) = (weftUp.port 0).rxSeq.toNat
    ∧ Flit.dst (flit 2 0) = weftUp.self ∧ weftUp.fwRuns = true := by decide +kernel

theorem witness_discarded : Flit.good (flit 1 7) = true ∧ Flit.seq (flit 1 7) ≠ (weftUp.port 0).rxSeq.toNat ∧ Flit.good [] = false := by
  decide +kernel

theorem witness_forwarded : Flit.dst (flitSeal 0 (flitBody 1 3 1 false 0 [])) ≠ weftUp.self ∧ (weftUp.port 1).up = true
    ∧ (weftUp.port 1).waiting.length < 64 := by decide +kernel

/-- As `weftUp`, with what waits to be sent by each port, and port 1 up or down. -/
def weftFull (n m : Nat) (u : Bool) : State := { up with weft := { up.weft with
  ports := [(0, { up := true, waiting := List.replicate n [] }), (1, { up := u, waiting := List.replicate m [] })] } }

theorem witness_forwarded_full : Flit.dst (flitSeal 0 (flitBody 1 3 1 false 0 [])) ≠ (weftFull 0 64 true).self
    ∧ ((weftFull 0 64 true).port 1).up = true ∧ 64 ≤ ((weftFull 0 64 true).port 1).waiting.length
    ∧ ((weftFull 0 0 false).port 1).up = false ∧ ((weftFull 0 0 false).port 0).waiting.length < 64
    ∧ (weftFull 0 0 false).portOn 0 = true := by decide +kernel

/-- Flits of other kinds than the command's. -/
theorem witness_other_kind : Flit.kind (flit 0 0) ≠ 1 ∧ Flit.kind (flit 0 0) ≠ 2 ∧ Flit.good (flit 0 0) = true
    ∧ 512 ≤ (({ weftUp with weft := { weftUp.weft with ports := [(0, { up := true, rxBuf := List.replicate 512 [] })] } } : State).port 0).rxBuf.length := by
  decide +kernel

theorem witness_bare : Flit.good (flit 3 0) = true ∧ Flit.kind (flit 3 0) = 3 ∧ Flit.good (flit 4 0) = true ∧ Flit.kind (flit 4 0) = 4
    ∧ Flit.good (flit 5 0) = true ∧ Flit.kind (flit 5 0) = 5 := by decide +kernel

theorem witness_ack : ∃ p : Port, (Flit.seq (flit 3 0) + 1 + 4096 - p.txSeq.toNat) % 4096 = 1 ∧ 1 ≤ p.unacked.length :=
  ⟨{ unacked := [[]] }, by decide⟩

theorem witness_resend : ∃ s : State, s.portOn 0 = true ∧ (s.port 0).unacked ≠ [] ∧ s.usSince (s.port 0).lastAck 8 = true :=
  ⟨{ weftUp with time := 308, weft := { weftUp.weft with ports := [(0, { up := true, unacked := [[]] })] } }, by decide⟩

theorem witness_ackDue : ∃ s u : State, s.portOn 0 = true ∧ 32 ≤ (s.port 0).unackedRx ∧ u.portOn 0 = true ∧ (u.port 0).unackedRx = 1
    ∧ u.usSince (u.port 0).rxSince 1 = true :=
  ⟨{ weftUp with weft := { weftUp.weft with ports := [(0, { up := true, unackedRx := 32 })] } },
    { weftUp with time := 39, weft := { weftUp.weft with ports := [(0, { up := true, unackedRx := 1 })] } }, by decide⟩

theorem witness_hello : ∃ f, Flit.good f = true ∧ Flit.kind f = 6 ∧ leAt (Flit.payload f) 0 1 = 1 ∧ leAt (Flit.payload f) 1 1 = 1
    ∧ weftUp.helloWrong 0 1 1 (leAt (Flit.payload f) 8 1) = false ∧ weftUp.helloWrong 0 0 1 0 = true :=
  ⟨flitSeal 0 (flitBody 6 0 1 false 0 [1, 1, 0, 0, 9, 0, 0, 0, 2]), by decide +kernel⟩

theorem witness_silence : ∃ s : State, s.portOn 0 = true ∧ s.usSince (s.port 0).lastGood 100 = true :=
  ⟨{ weftUp with time := 4000 }, by decide⟩

theorem witness_portUp : ∃ s : State, s.weftRuns = true ∧ (s.port 0).up = false ∧ (s.port 0).heldDown = false
    ∧ bitOf s.weft.portEn 0 = true :=
  ⟨{ up with weft := { up.weft with portEn := 3 } }, by decide⟩

/-- A port that does not come up: one that is up, one held down, one not enabled. -/
theorem witness_portUp_not : (weftUp.port 0).up = true ∧ (({ up with weft := { up.weft with ports := [(0, { heldDown := true })] } } : State).port 0).heldDown = true
    ∧ bitOf ({ up with weft := { up.weft with portEn := 0 } } : State).weft.portEn 0 = false := by decide

theorem witness_peerTimeout : ∃ s u : State, (s.peer 1).live = true ∧ (s.peer 1).ports = 0 ∧ (u.peer 1).live = true
    ∧ (u.peer 1).ports = 1 ∧ u.usSince (u.peer 1).last 1000 = false ∧ (up.peer 1).live = false :=
  ⟨{ up with weft := { up.weft with peers := [(1, { live := true })] } },
    { up with weft := { up.weft with peers := [(1, { live := true, ports := 1 })] } }, by decide⟩

theorem witness_bypass : (0xFF : BitVec 8).toNat ∉ [0x00, 0x01, 0x02, 0x20, 0x21] := by decide

theorem witness_traceLost : ∃ s : State, s.trace.dropped ≠ 0 ∧ s.trace.fifo.length < 256 ∧ s.trace.en = true :=
  ⟨{ up with trace := { up.trace with en := true, dropped := 3 } }, by decide⟩

theorem witness_traceLost_not : up.trace.dropped = 0 := by decide

theorem witness_listed : (0x20 : BitVec 8).toNat ∈ [0x00, 0x01, 0x02, 0x20, 0x21] := by decide

theorem witness_debug : up.restoring = false ∧ up.dbg.scope = 0 ∧ up.life.phase = .running ∧ up.dbg.halted = false
    ∧ ∃ s : State, s.restoring = false ∧ s.dbg.scope.toNat = 2 :=
  ⟨by decide, by decide, by decide, by decide, { up with dbg := { up.dbg with scope := 2 } }, by decide⟩

theorem witness_restoring : ∃ w : State, w.restoring = true :=
  ⟨{ up with nvm := { up.nvm with ops := [{ bank := 64, act := .erase 0, owner := .restore }] } }, by decide⟩

end Sys2Proof.Machine
end

section
/-!
PROOFS. The address map's window check: what `checkRange` decides, space by space (R308), and the statement about all spaces assembled from it.
-/

namespace Sys2Proof.Machine

/-- The conditions of R308 for a host window, in the order in which `HWin.pass` checks them. -/
theorem HWin.pass_iff (w : HWin) (wr : Bool) (a len : Nat) :
    w.pass wr a len = true ↔
      w.en = true ∧ (if wr then w.wr else w.rd) = true ∧ 4096 * w.base.toNat ≤ a
        ∧ a + len ≤ 4096 * (w.limit.toNat + 1) ∧ a + len ≤ 2 ^ 64 := by
  simp only [HWin.pass, Bool.and_eq_true, decide_eq_true_iff, and_assoc]

/-- The conditions of R308 for a device window, in the order in which `DWin.pass` checks them. -/
theorem DWin.pass_iff (w : DWin) (wr : Bool) (a len : Nat) :
    w.pass wr a len = true ↔
      w.en = true ∧ (if wr then w.wr else w.rd) = true ∧ 4096 * w.base.toNat ≤ a
        ∧ a + len ≤ 4096 * (w.limit.toNat + 1) ∧ a + len ≤ 2 ^ 40 := by
  simp only [DWin.pass, Bool.and_eq_true, decide_eq_true_iff, and_assoc]

/-- An address that is formed as base plus offset is never below the base, so that condition of a host window drops. -/
theorem HWin.pass_base_add_iff (w : HWin) (wr : Bool) (off len : Nat) :
    w.pass wr (4096 * w.base.toNat + off) len = true ↔
      w.en = true ∧ (if wr then w.wr else w.rd) = true
        ∧ 4096 * w.base.toNat + off + len ≤ 4096 * (w.limit.toNat + 1)
        ∧ 4096 * w.base.toNat + off + len ≤ 2 ^ 64 := by
  simp only [HWin.pass_iff, Nat.le_add_right, true_and]

/-- An address that is formed as base plus offset is never below the base, so that condition of a device window drops. -/
theorem DWin.pass_base_add_iff (w : DWin) (wr : Bool) (off len : Nat) :
    w.pass wr (4096 * w.base.toNat + off) len = true ↔
      w.en = true ∧ (if wr then w.wr else w.rd) = true
        ∧ 4096 * w.base.toNat + off + len ≤ 4096 * (w.limit.toNat + 1)
        ∧ 4096 * w.base.toNat + off + len ≤ 2 ^ 40 := by
  simp only [DWin.pass_iff, Nat.le_add_right, true_and]

section
variable {hw : Table HWin} {dw : Table DWin} {r : RangeRef} {len : Nat} {wr : Bool} {p : Place}

/-- Space 0: the named host window decides, at its base plus the offset. -/
theorem checkRange_hostWindow_iff (h : r.space = 0) :
    checkRange hw dw r len wr = some p ↔
      (Table.get {} hw r.win).pass wr (4096 * (Table.get {} hw r.win).base.toNat + r.off) len = true
        ∧ p = .host (4096 * (Table.get {} hw r.win).base.toNat + r.off) (Table.get {} hw r.win).ns := by
  simp [checkRange, h, eq_comm (a := p)]

/-- Space 1: the named device window decides, at its base plus the offset. -/
theorem checkRange_deviceWindow_iff (h : r.space = 1) :
    checkRange hw dw r len wr = some p ↔
      (Table.get {} dw r.win).pass wr (4096 * (Table.get {} dw r.win).base.toNat + r.off) len = true
        ∧ p = .lp5x (4096 * (Table.get {} dw r.win).base.toNat + r.off) := by
  simp [checkRange, h, eq_comm (a := p)]

/-- Space 2: any device window of the table decides, at the offset itself. -/
theorem checkRange_anyDeviceWindow_iff (h : r.space = 2) :
    checkRange hw dw r len wr = some p ↔
      (∃ q ∈ dw, q.2.pass wr r.off len = true) ∧ p = .lp5x r.off := by
  simp [checkRange, h, eq_comm (a := p)]

/-- Any other space passes no check. -/
theorem checkRange_otherSpace (h0 : r.space ≠ 0) (h1 : r.space ≠ 1) (h2 : r.space ≠ 2) :
    checkRange hw dw r len wr = none := by
  simp only [checkRange, h0, h1, h2, if_false]

end

/-- Settles O12, by cases on the range's space: in each, the space's own lemma about `checkRange` and the window's
`pass` conditions give that space's disjunct, and the other disjuncts name another space. -/
theorem aRangePassesExactlyUnderItsWindow : Obligations.ARangePassesExactlyUnderItsWindow := by
  unfold Obligations.ARangePassesExactlyUnderItsWindow
  intro hw dw r len wr p
  by_cases h0 : r.space = 0
  · rw [checkRange_hostWindow_iff h0, HWin.pass_base_add_iff, and_comm]
    simp [h0]
  by_cases h1 : r.space = 1
  · rw [checkRange_deviceWindow_iff h1, DWin.pass_base_add_iff, and_comm]
    simp [h1]
  by_cases h2 : r.space = 2
  · rw [checkRange_anyDeviceWindow_iff h2, and_comm]
    simp [h2, DWin.pass_iff]
  · simp [checkRange_otherSpace h0 h1 h2, h0, h1, h2]

end Sys2Proof.Machine
end

section
/-!
PROOFS. The watchdog: when the window of a period is open (R535), by the count that is left.
-/

namespace Sys2Proof.Machine

/-- The four codes of the fraction fuse (`WD_FUSE.fraction`). -/
theorem Fuses.wdFraction_cases (f : Fuses) :
    f.wdFraction = 0 ∨ f.wdFraction = 1 ∨ f.wdFraction = 2 ∨ f.wdFraction = 3 :=
  (by decide : ∀ x : BitVec 2, x = 0 ∨ x = 1 ∨ x = 2 ∨ x = 3) f.wdFraction

section
variable {f : Fuses}

theorem Fuses.windowEighths_of_zero (h : f.wdFraction = 0) : f.windowEighths = 2 := by simp [windowEighths, h]

theorem Fuses.windowEighths_of_one (h : f.wdFraction = 1) : f.windowEighths = 4 := by simp [windowEighths, h]

theorem Fuses.windowEighths_of_two (h : f.wdFraction = 2) : f.windowEighths = 6 := by simp [windowEighths, h]

theorem Fuses.windowEighths_of_three (h : f.wdFraction = 3) : f.windowEighths = 7 := by simp [windowEighths, h]

end

/-- The window opens before the period ends, whatever the fuse. -/
theorem Fuses.windowEighths_lt (f : Fuses) : f.windowEighths < 8 := by
  rcases f.wdFraction_cases with h | h | h | h
  · simp [windowEighths_of_zero h]
  · simp [windowEighths_of_one h]
  · simp [windowEighths_of_two h]
  · simp [windowEighths_of_three h]

/-- A count within the period: the window is open exactly when no more is left than the part of the period after its
opening. The model says it by the ticks that have elapsed. -/
theorem State.windowOpen_iff_count_le {s : State} (h : s.wd.count ≤ s.wd.total) :
    s.windowOpen = true ↔ 8 * s.wd.count ≤ (8 - s.fuses.windowEighths) * s.wd.total := by
  have hle : s.fuses.windowEighths * s.wd.total ≤ 8 * s.wd.total := Nat.mul_le_mul_right _ s.fuses.windowEighths_lt.le
  rw [windowOpen, decide_eq_true_iff, Nat.sub_mul]
  omega

/-- The window stays open until the period ends. -/
theorem State.windowOpen_of_count_eq_zero {s : State} (h : s.wd.count = 0) : s.windowOpen = true := by
  rw [windowOpen_iff_count_le (h ▸ Nat.zero_le _), h]
  exact Nat.zero_le _

/-- Settles O27, by the code of the fraction fuse: each code's eighths turn the bound on the count into the disjunct of
that code, and the other disjuncts name another code. -/
theorem theServiceWindowOpensAtTheFusedFraction : Obligations.TheServiceWindowOpensAtTheFusedFraction := by
  unfold Obligations.TheServiceWindowOpensAtTheFusedFraction
  intro s hcount
  refine ⟨?_, State.windowOpen_of_count_eq_zero⟩
  rw [State.windowOpen_iff_count_le hcount, Watchdog.total]
  rcases s.fuses.wdFraction_cases with h | h | h | h
  · simp [Fuses.windowEighths_of_zero h, h]
  · simp [Fuses.windowEighths_of_one h, h]
  · simp [Fuses.windowEighths_of_two h, h]
  · simp [Fuses.windowEighths_of_three h, h]

end Sys2Proof.Machine
end

section
/-!
PROOFS. What every step keeps: `exec_keeps` gathers the `Keeps` lemmas of all meanings, and the invariants of a step follow from it.
-/

namespace Sys2Proof.Machine

/-- Every meaning of the table keeps: the queue, what was sent, the fuses and the memories' form. -/
theorem exec_keeps (i : Instr) (s : State) : OutcomeKeeps s (exec i s) := by
  have hs := Keeps.refl s
  cases i with
  | nop t => exact execNop_keeps t s hs
  | query t => exact execQuery_keeps t s hs
  | setLatency t => exact execSetLatency_keeps t s hs
  | patternInstall t view => exact execPatternInstall_keeps t view s hs
  | patternRemove t => exact execPatternRemove_keeps t s hs
  | patternBind t => exact execPatternBind_keeps t s hs
  | patternRelease t => exact execPatternRelease_keeps t s hs
  | bindingReleaseDone fn index => exact execBindingReleaseDone_keeps fn index s hs
  | run t view => exact execRun_keeps t view s hs
  | runLight t => exact execRunLight_keeps t s hs
  | chain t view => exact execChain_keeps t view s hs
  | adaptStepTrain t view => exact execAdaptStepTrain_keeps t view s hs
  | adaptAttach t => exact execAdaptAttach_keeps t s hs
  | adaptDetach t => exact execAdaptDetach_keeps t s hs
  | cancel t => exact execCancel_keeps t s hs
  | streamOpen t => exact execStreamOpen_keeps t s hs
  | streamClose t => exact execStreamClose_keeps t s hs
  | streamFrame t view => exact execStreamFrame_keeps t view s hs
  | copy t => exact execCopy_keeps t s hs
  | copyLight t => exact execCopyLight_keeps t s hs
  | nvmRead t => exact execNvmRead_keeps t s hs
  | nvmProgram t => exact execNvmProgram_keeps t s hs
  | nvmErase t => exact execNvmErase_keeps t s hs
  | nvmStatus t => exact execNvmStatus_keeps t s hs
  | nvmScrubBlock t => exact execNvmScrubBlock_keeps t s hs
  | nvmScrubDue t => exact execNvmScrubDue_keeps t s hs
  | countersRead t => exact execCountersRead_keeps t s hs
  | troubleRead t => exact execTroubleRead_keeps t s hs
  | troubleClear t => exact execTroubleClear_keeps t s hs
  | logRead t => exact execLogRead_keeps t s hs
  | settingsGet t => exact execSettingsGet_keeps t s hs
  | settingsSetUpdate t view => exact execSettingsSetUpdate_keeps t view s hs
  | settingsSetMigrate t view => exact execSettingsSetMigrate_keeps t view s hs
  | settingsSetReplace t view => exact execSettingsSetReplace_keeps t view s hs
  | fwStage t => exact execFwStage_keeps t s hs
  | fwCommit t => exact execFwCommit_keeps t s hs
  | fwWithdraw t => exact execFwWithdraw_keeps t s hs
  | tenantReset t => exact execTenantReset_keeps t s hs
  | peerQuery t => exact execPeerQuery_keeps t s hs
  | sensorCalibrate t delta => exact execSensorCalibrate_keeps t delta s hs
  | sqTail fn ring value => exact execSqTail_keeps fn ring value s hs
  | cqHead fn ring value => exact execCqHead_keeps fn ring value s hs
  | ringEnable fn ring => exact execRingEnable_keeps fn ring s hs
  | ringDisable fn ring => exact execRingDisable_keeps fn ring s hs
  | hwinCtl fn win value => exact execHwinCtl_keeps fn win value s hs
  | dwinWctl value => exact execDwinWctl_keeps value s hs
  | quotaCommit => exact execQuotaCommit_keeps s hs
  | nvmUnlock key => exact execNvmUnlock_keeps key s hs
  | unlockTimeout => exact execUnlockTimeout_keeps s hs
  | softReset => exact execSoftReset_keeps s hs
  | fetchStop fn stop => exact execFetchStop_keeps fn stop s hs
  | statsClear fn => exact execStatsClear_keeps fn s hs
  | evlogAck value => exact execEvlogAck_keeps value s hs
  | traceMark value => exact execTraceMark_keeps value s hs
  | traceEnable value => exact execTraceEnable_keeps value s hs
  | registerWrite bar fn offset is64 value => exact execRegisterWrite_keeps bar fn offset is64 value s hs
  | rcRead bar fn offset is64 => exact execRcRead_keeps bar fn offset is64 s hs
  | latchLowRead fn offset => exact execLatchLowRead_keeps fn offset s hs
  | latchHighRead fn offset => exact execLatchHighRead_keeps fn offset s hs
  | barMisalignedAccess bar fn isWrite len => exact execBarMisalignedAccess_keeps bar fn isWrite len s hs
  | bar2Read offset len => exact execBar2Read_keeps offset len s hs
  | bar2Write offset data => exact execBar2Write_keeps offset data s hs
  | wdChallenge => exact execWdChallenge_keeps s hs
  | wdResponse token => exact execWdResponse_keeps token s hs
  | wdPeriodSet value => exact execWdPeriodSet_keeps value s hs
  | wdArmLapse => exact execWdArmLapse_keeps s hs
  | wdFirstExpiry => exact execWdFirstExpiry_keeps s hs
  | wdWarnEntry => exact execWdWarnEntry_keeps s hs
  | wdWarnTimeout => exact execWdWarnTimeout_keeps s hs
  | wdSecondExpiry => exact execWdSecondExpiry_keeps s hs
  | wdtPulseEnd => exact execWdtPulseEnd_keeps s hs
  | por aonLost => exact execPor_keeps aonLost s hs
  | suppliesValid => exact execSuppliesValid_keeps s hs
  | testEnHigh => exact execTestEnHigh_keeps s hs
  | perstNAssert => exact execPerstNAssert_keeps s hs
  | perstNRelease chip => exact execPerstNRelease_keeps chip s hs
  | linkDown cause => exact execLinkDown_keeps cause s hs
  | boot gibA gibB trained bad speed width => exact execBoot_keeps gibA gibB trained bad speed width s hs
  | fwNotReadyTimeout => exact execFwNotReadyTimeout_keeps s hs
  | configRequest fn req => exact execConfigRequest_keeps fn req s hs
  | flr fn => exact execFlr_keeps fn s hs
  | vfEnable => exact execVfEnable_keeps s hs
  | vfDisable => exact execVfDisable_keeps s hs
  | numvfsWrite value => exact execNumvfsWrite_keeps value s hs
  | busMasterEnable fn value => exact execBusMasterEnable_keeps fn value s hs
  | d3hotEntry => exact execD3hotEntry_keeps s hs
  | d0Entry => exact execD0Entry_keeps s hs
  | linkRetrain speed width => exact execLinkRetrain_keeps speed width s hs
  | msixUnmask fn vec => exact execMsixUnmask_keeps fn vec s hs
  | pcieCompletion tag status ep data => exact execPcieCompletion_keeps tag status ep data s hs
  | completionTimeout tag => exact execCompletionTimeout_keeps tag s hs
  | l1EntryRequest => exact execL1EntryRequest_keeps s hs
  | sqFetch fn ring => exact execSqFetch_keeps fn ring s hs
  | entryAccept fn ring => exact execEntryAccept_keeps fn ring s hs
  | fenceRelease fn ring => exact execFenceRelease_keeps fn ring s hs
  | completionWrite t => exact execCompletionWrite_keeps t s hs
  | moderationTimeout fn ring => exact execModerationTimeout_keeps fn ring s hs
  | stageStart t stage => exact execStageStart_keeps t stage s hs
  | layerStart t stage => exact execLayerStart_keeps t stage s hs
  | tileGrant t stage col => exact execTileGrant_keeps t stage col s hs
  | loadPhaseEnd t stage col => exact execLoadPhaseEnd_keeps t stage col s hs
  | computePhaseEnd t stage col => exact execComputePhaseEnd_keeps t stage col s hs
  | layerDrainEnd t stage => exact execLayerDrainEnd_keeps t stage s hs
  | wheelSlot engine view => exact execWheelSlot_keeps engine view s hs
  | deadlinePass t => exact execDeadlinePass_keeps t s hs
  | coreFault core => exact execCoreFault_keeps core s hs
  | nvmOpStart bank view => exact execNvmOpStart_keeps bank view s hs
  | codeWordProgrammed bank view => exact execCodeWordProgrammed_keeps bank view s hs
  | erasePulseDone bank passed => exact execErasePulseDone_keeps bank passed s hs
  | vppOkSet => exact execVppOkSet_keeps s hs
  | vppLoss => exact execVppLoss_keeps s hs
  | patrolRead bank row => exact execPatrolRead_keeps bank row s hs
  | autoRelocationStart bank => exact execAutoRelocationStart_keeps bank s hs
  | spareErase bank => exact execSpareErase_keeps bank s hs
  | staleBlockErase bank => exact execStaleBlockErase_keeps bank s hs
  | wearCheckpoint => exact execWearCheckpoint_keeps s hs
  | settingsLockLapse => exact execSettingsLockLapse_keeps s hs
  | beatRateWindow q0 q1 q2 q3 wdoKhz avs => exact execBeatRateWindow_keeps q0 q1 q2 q3 wdoKhz avs s hs
  | avsSettle readMv => exact execAvsSettle_keeps readMv s hs
  | paceHoldEnd quad => exact execPaceHoldEnd_keeps quad s hs
  | paceRampStep quad => exact execPaceRampStep_keeps quad s hs
  | droopSensorTrip sensor level2 => exact execDroopSensorTrip_keeps sensor level2 s hs
  | droopSensorRelease sensor toLevel1 => exact execDroopSensorRelease_keeps sensor toLevel1 s hs
  | droopInFall short => exact execDroopInFall_keeps short s hs
  | droopInRise => exact execDroopInRise_keeps s hs
  | thermReading tj => exact execThermReading_keeps tj s hs
  | restEnter => exact execRestEnter_keeps s hs
  | wake source => exact execWake_keeps source s hs
  | pd1AloneExit => exact execPd1AloneExit_keeps s hs
  | l12Timeout => exact execL12Timeout_keeps s hs
  | csiFrameStart rx hdr dtype frameNo => exact execCsiFrameStart_keeps rx hdr dtype frameNo s hs
  | csiLine rx vc packet => exact execCsiLine_keeps rx vc packet s hs
  | csiFrameEnd rx hdr => exact execCsiFrameEnd_keeps rx hdr s hs
  | csiFrameTimeout slot => exact execCsiFrameTimeout_keeps slot s hs
  | weftDataFlit port flit => exact execWeftDataFlit_keeps port flit s hs
  | weftCtrlFlit port flit => exact execWeftCtrlFlit_keeps port flit s hs
  | weftAck port flit => exact execWeftAck_keeps port flit s hs
  | weftNak port flit => exact execWeftNak_keeps port flit s hs
  | weftCredit port flit => exact execWeftCredit_keeps port flit s hs
  | weftHello port flit => exact execWeftHello_keeps port flit s hs
  | weftAckDue port => exact execWeftAckDue_keeps port s hs
  | weftResendTimeout port => exact execWeftResendTimeout_keeps port s hs
  | weftHelloSend => exact execWeftHelloSend_keeps s hs
  | weftLaneLockLoss port => exact execWeftLaneLockLoss_keeps port s hs
  | weftSilenceTimeout port => exact execWeftSilenceTimeout_keeps port s hs
  | weftPortUp port => exact execWeftPortUp_keeps port s hs
  | peerTimeout chip => exact execPeerTimeout_keeps chip s hs
  | traceLostEmit => exact execTraceLostEmit_keeps s hs
  | dbgPeek space fn addr => exact execDbgPeek_keeps space fn addr s hs
  | dbgPoke space fn addr data => exact execDbgPoke_keeps space fn addr data s hs
  | halt => exact execHalt_keeps s hs
  | resume => exact execResume_keeps s hs
  | step => exact execStep_keeps s hs
  | unlockLoad index word => exact execUnlockLoad_keeps index word s hs
  | unlockCheck => exact execUnlockCheck_keeps s hs
  | lock => exact execLock_keeps s hs
  | restoreErase plane => exact execRestoreErase_keeps plane s hs
  | restoreLoad index word => exact execRestoreLoad_keeps index word s hs
  | restoreProgram word plane => exact execRestoreProgram_keeps word plane s hs
  | restoreCommit plane => exact execRestoreCommit_keeps plane s hs
  | dbgStatus => exact execDbgStatus_keeps s hs
  | idcode => exact execIdcode_keeps s hs
  | extest scan => exact execExtest_keeps scan s hs
  | samplePreload scan => exact execSamplePreload_keeps scan s hs
  | bypass code len scan => exact execBypass_keeps code len scan s hs
  | dlActive speed width => exact execDlActive_keeps speed width s hs
  | l12Entry => exact execL12Entry_keeps s hs
  | l1Exit => exact execL1Exit_keeps s hs
  | recoveryEntry => exact execRecoveryEntry_keeps s hs
  | badTlp err => exact execBadTlp_keeps err s hs

/-- What `Keeps` says of an outcome's next state. -/
theorem OutcomeKeeps.keeps {s t : State} {o : Host.Outcome State Fault Refusal} (h : OutcomeKeeps s o) (e : o = .next t) :
    Keeps s t := by
  subst e
  cases h
  assumption

/-- Taking a command off the queue leaves fuses and memories alone, so a step keeps them as the command or the tick does. -/
theorem step_keeps {s t : State} (h : step s = .next t) :
    ∃ q, Keeps { s with pending := q } t := by
  unfold step at h
  split at h
  next hp =>
    cases h
    exact ⟨s.pending, State.timeTick_keeps s (Keeps.refl s)⟩
  next c rest hp => exact ⟨rest, (exec_keeps c _).keeps h⟩

/-- Settles O5, by `exec_keeps`: the relation names both parts. -/
theorem commandsLeaveTheQueueAndKeepWhatWasSent : Obligations.CommandsLeaveTheQueueAndKeepWhatWasSent := by
  unfold Obligations.CommandsLeaveTheQueueAndKeepWhatWasSent
  intro c s t h
  have hk := (exec_keeps c s).keeps h
  obtain ⟨more, hmore⟩ := hk.out
  exact ⟨hk.pending, more, hmore.symm⟩

/-- Settles O6, by `step_keeps`. -/
theorem stepsKeepTheMemoriesCanonical : Obligations.StepsKeepTheMemoriesCanonical := by
  unfold Obligations.StepsKeepTheMemoriesCanonical
  intro s t hwf h
  obtain ⟨q, hk⟩ := step_keeps h
  exact hk.mem hwf

/-- Fuses that agree but for the anti-rollback counter agree in every fused value. -/
theorem Fuses.values_of_rollback {f g : Fuses} (h : { f with rollback := g.rollback } = g) :
    f.uid = g.uid ∧ f.salt = g.salt ∧ f.wdFraction = g.wdFraction ∧ f.wdPin = g.wdPin ∧ f.wdPulse = g.wdPulse := by
  rw [← h]
  exact ⟨rfl, rfl, rfl, rfl, rfl⟩

/-- Settles O7, by `step_keeps`: the fuses agree but for the anti-rollback counter, which does not fall. -/
theorem stepsBlowNoFuseButTheRollbackCounters : Obligations.StepsBlowNoFuseButTheRollbackCounters := by
  unfold Obligations.StepsBlowNoFuseButTheRollbackCounters
  intro s t h
  obtain ⟨q, hk⟩ := step_keeps h
  obtain ⟨huid, hsalt, hfraction, hpin, hpulse⟩ := Fuses.values_of_rollback hk.fuses
  exact ⟨huid, hsalt, hfraction, hpin, hpulse, hk.rollback⟩

/-- Settles O1: that is how `step` is defined. -/
theorem stepRunsTheFrontCommand : Obligations.StepRunsTheFrontCommand := by
  unfold Obligations.StepRunsTheFrontCommand
  intro c rest s
  rfl
end Sys2Proof.Machine
end

section
/-!
PROOFS. Every command answers a next state.
-/

namespace Sys2Proof.Machine

/-- The outcome is a next state. -/
def Answers (o : Host.Outcome State Fault Refusal) : Prop := ∃ t, o = .next t

theorem Answers.next (s : State) : Answers (.next s) := ⟨s, rfl⟩

/-- No meaning of the table faults or refuses: most are a next state as they are written; those listed here branch, and each of
their branches is one. -/
theorem exec_answers (i : Instr) (s : State) : Answers (exec i s) := by
  cases i
  all_goals repeat' first
    | exact .next _
    | split
    | dsimp only [
        exec, execBindingReleaseDone, execUnlockTimeout, execRegisterWrite, execRcRead,
        execBarMisalignedAccess, execWdChallenge, execWdResponse, execWdPeriodSet, execWdArmLapse,
        execWdFirstExpiry, execWdWarnEntry, execWdWarnTimeout, execWdSecondExpiry, execWdtPulseEnd,
        execSuppliesValid, execPerstNRelease, execLinkDown, execBoot, execFwNotReadyTimeout,
        execConfigRequest, execFlr, execBusMasterEnable, execLinkRetrain, execMsixUnmask, execPcieCompletion,
        execCompletionTimeout, execL1EntryRequest, execSqFetch, execEntryAccept, execFenceRelease,
        execModerationTimeout, execStageStart, execLayerStart, execTileGrant, execLoadPhaseEnd,
        execComputePhaseEnd, execLayerDrainEnd, execWheelSlot, execCoreFault, execNvmOpStart,
        execCodeWordProgrammed, execErasePulseDone, execVppOkSet, execPatrolRead, execAutoRelocationStart,
        execWearCheckpoint, execSettingsLockLapse, execBeatRateWindow, execAvsSettle, execPaceHoldEnd,
        execPaceRampStep, execDroopInFall, execThermReading, execRestEnter, execPd1AloneExit, execL12Timeout,
        execCsiFrameStart, execCsiLine, execCsiFrameEnd, execCsiFrameTimeout, execWeftAckDue,
        execWeftResendTimeout, execWeftSilenceTimeout, execWeftPortUp, execPeerTimeout, execTraceLostEmit,
        execBypass, execDlActive, execL12Entry, execBadTlp]

/-- Settles O4, by `exec_answers`. -/
theorem everyCommandAnswersANextState : Obligations.EveryCommandAnswersANextState := by
  unfold Obligations.EveryCommandAnswersANextState
  exact exec_answers

end Sys2Proof.Machine
end

section
/-!
PROOFS. The reset state, the table without bits, the watchdog token, and the end of a command.
-/

namespace Sys2Proof.Machine

/-- Settles O3: the table has no row with bits, so `decodeTableWord` has no pattern to match. -/
theorem noWordSpellsACommand : Obligations.NoWordSpellsACommand := by
  unfold Obligations.NoWordSpellsACommand
  intro s nbits w
  exact ⟨rfl, rfl⟩

/-- Settles O9: the memories of `State.reset` are empty tables. -/
theorem resetMemoriesAreCanonical : Obligations.ResetMemoriesAreCanonical := by
  unfold Obligations.ResetMemoriesAreCanonical
  rfl

/-- Settles O8, by the defaults of the records of `State.reset`. -/
theorem resetLeavesTheRegistersAtTheirResetValues : Obligations.ResetLeavesTheRegistersAtTheirResetValues := by
  unfold Obligations.ResetLeavesTheRegistersAtTheirResetValues
  refine ⟨fun _ _ => rfl, rfl, rfl, rfl, fun _ _ => ⟨rfl, rfl⟩, fun _ => ⟨rfl, rfl⟩, ?_⟩
  refine ⟨rfl, rfl, rfl, rfl, rfl, rfl, rfl, rfl, rfl, fun _ => rfl, fun _ => rfl, ?_⟩
  exact ⟨rfl, rfl, rfl, rfl, rfl, rfl, rfl, rfl, rfl⟩

/-- Settles O26: rotating left by 7 is shifting left by 7 and right by 32 - 7. -/
theorem theWatchdogTokenIsTheRuleOfItsChallenge : Obligations.TheWatchdogTokenIsTheRuleOfItsChallenge := by
  unfold Obligations.TheWatchdogTokenIsTheRuleOfItsChallenge
  intro c salt
  rw [wdToken, BitVec.rotateLeft_def]

/-! ## The end of a command -/

/-- With a status that is neither CORE_FAULT nor PEER_LOST no trouble bit is set. -/
theorem State.endTrb_of_ne {s : State} {st : BitVec 16} (t : Nat) (hc : st ≠ St.coreFault) (hp : st ≠ St.peerLost) :
    s.endTrb t st = s := by
  unfold endTrb
  split
  · rfl
  · rw [if_neg hc, if_neg hp]

/-- `updCmd` changes the list of commands only. -/
theorem State.updCmd_frame (s : State) (t : Nat) (g : Cmd → Cmd) : s.updCmd t g = { s with cmds := (s.updCmd t g).cmds } := by
  unfold updCmd
  split <;> rfl

/-- `endCmd` with such a status: the command's entry, and the order of ends while the CP is halted. -/
theorem State.endCmd_of_ne {s : State} {t : Nat} {st : BitVec 16} {r0 r1 : Word} (hc : st ≠ St.coreFault)
    (hp : st ≠ St.peerLost) :
    s.endCmd t st r0 r1 = { s with
      cmds := (s.updCmd t fun c => { c with phase := .ended, status := st, res0 := r0, res1 := r1 }).cmds
      dbg := { s.dbg with haltEnds := if s.dbg.halted then s.dbg.haltEnds ++ [t] else s.dbg.haltEnds } } := by
  rw [endCmd, endTrb_of_ne t hc hp, updCmd_frame]
  dsimp only
  split <;> rfl

/-- Settles O10, by what `endCmd` is for such a status and the lookups after `updCmd`. -/
theorem anEndedCommandKeepsItsStatusUntilItsCompletion : Obligations.AnEndedCommandKeepsItsStatusUntilItsCompletion := by
  unfold Obligations.AnEndedCommandKeepsItsStatusUntilItsCompletion
  intro s t c st r0 r1 h hc hp
  rw [State.endCmd_of_ne hc hp]
  refine ⟨?_, fun u hu => ?_, rfl⟩
  · exact (s.cmd_updCmd t _).trans (by rw [h]; rfl)
  · exact s.cmd_updCmd_ne _ hu

end Sys2Proof.Machine
end

section
/-!
PROOFS. Little-endian strings and the layout of a completion entry (R396).
-/

namespace Sys2Proof.Machine

/-! ## Little-endian strings (R4) -/

@[simp] theorem leBytes_length (n v : Nat) : (leBytes n v).length = n := by
  induction n generalizing v with
  | zero => rfl
  | succ n ih => simp [leBytes, ih]

theorem leNat_of_leBytes (n v : Nat) : leNat (leBytes n v) = v % 256 ^ n := by
  induction n generalizing v with
  | zero => simp [leBytes, leNat, Nat.mod_one]
  | succ n ih =>
    rw [leBytes, leNat, ih, BitVec.toNat_ofNat, pow_succ' 256, Nat.mod_mul]

/-- The bytes of a number read back from their place in a longer string. -/
theorem leAt_leBytes (pre post : Bytes) (n v : Nat) :
    leAt (pre ++ (leBytes n v ++ post)) pre.length n = v % 256 ^ n := by
  rw [leAt, List.drop_left, List.take_left' (leBytes_length n v), leNat_of_leBytes]

/-! ## Completion entries (R396) -/

/-- The last dword of a completion entry: sequence number, ticket and phase in their bit ranges. -/
theorem cqEntry_word_lt (seq : Nat) {ticket : Nat} (ph : Bool) (h : ticket < 1024) :
    seq % 2 ^ 21 + 2 ^ 21 * ticket + 2 ^ 31 * b2n ph < 256 ^ 4 := by
  have hb : b2n ph ≤ 1 := by cases ph <;> decide
  omega

section
variable (r0 r1 : Word) {tag status : Nat} (seq : Nat) {ticket : Nat} (ph : Bool)

theorem cqEntry_length : (cqEntry r0 r1 tag status seq ticket ph).length = 16 := by simp [cqEntry]

theorem leAt_cqEntry_res0 : leAt (cqEntry r0 r1 tag status seq ticket ph) 0 4 = r0.toNat := by
  simp only [cqEntry, List.append_assoc]
  exact (leAt_leBytes [] _ 4 _).trans (Nat.mod_eq_of_lt r0.isLt)

theorem leAt_cqEntry_res1 : leAt (cqEntry r0 r1 tag status seq ticket ph) 4 4 = r1.toNat := by
  simp only [cqEntry, List.append_assoc]
  exact (leAt_leBytes (leBytes 4 _) _ 4 _).trans (Nat.mod_eq_of_lt r1.isLt)

theorem leAt_cqEntry_tag (h : tag < 65536) : leAt (cqEntry r0 r1 tag status seq ticket ph) 8 2 = tag := by
  have e := leAt_leBytes (leBytes 4 r0.toNat ++ leBytes 4 r1.toNat) (leBytes 2 status
    ++ leBytes 4 (seq % 2 ^ 21 + 2 ^ 21 * ticket + 2 ^ 31 * b2n ph)) 2 tag
  simpa [cqEntry, Nat.mod_eq_of_lt h] using e

theorem leAt_cqEntry_status (h : status < 65536) : leAt (cqEntry r0 r1 tag status seq ticket ph) 10 2 = status := by
  have e := leAt_leBytes (leBytes 4 r0.toNat ++ leBytes 4 r1.toNat ++ leBytes 2 tag)
    (leBytes 4 (seq % 2 ^ 21 + 2 ^ 21 * ticket + 2 ^ 31 * b2n ph)) 2 status
  simpa [cqEntry, Nat.mod_eq_of_lt h] using e

theorem leAt_cqEntry_word (h : ticket < 1024) :
    leAt (cqEntry r0 r1 tag status seq ticket ph) 12 4 = seq % 2 ^ 21 + 2 ^ 21 * ticket + 2 ^ 31 * b2n ph := by
  have e := leAt_leBytes (leBytes 4 r0.toNat ++ leBytes 4 r1.toNat ++ leBytes 2 tag ++ leBytes 2 status) [] 4
    (seq % 2 ^ 21 + 2 ^ 21 * ticket + 2 ^ 31 * b2n ph)
  rw [Nat.mod_eq_of_lt (cqEntry_word_lt seq ph h)] at e
  simpa [cqEntry] using e

end

/-- After the last place of the CQ the tail goes back to 0 in the other phase. -/
theorem Ring.wrote_of_last {x : Ring} (now : BitVec 64) (h : x.cqTail + 1 = x.cqSize) :
    (x.wrote now).cqTail = 0 ∧ (x.wrote now).phase = !x.phase := by
  simp [wrote, h]

theorem Ring.wrote_of_not_last {x : Ring} (now : BitVec 64) (h : x.cqTail + 1 ≠ x.cqSize) :
    (x.wrote now).cqTail = x.cqTail + 1 ∧ (x.wrote now).phase = x.phase := by
  simp [wrote, h]

/-- Settles O22: each field is read back from its place, and the last dword is taken apart by its bit ranges. -/
theorem aCompletionEntryHasTheLayoutOfItsTable : Obligations.ACompletionEntryHasTheLayoutOfItsTable := by
  unfold Obligations.ACompletionEntryHasTheLayoutOfItsTable
  refine ⟨fun r0 r1 tag status seq ticket ph htag hstatus hticket => ?_, fun x now =>
    ⟨Ring.wrote_of_last now, Ring.wrote_of_not_last now⟩⟩
  refine ⟨cqEntry_length r0 r1 seq ph, leAt_cqEntry_res0 r0 r1 seq ph, leAt_cqEntry_res1 r0 r1 seq ph,
    leAt_cqEntry_tag r0 r1 seq ph htag, leAt_cqEntry_status r0 r1 seq ph hstatus, ?_⟩
  rw [leAt_cqEntry_word r0 r1 seq ph hticket]
  have hb : b2n ph ≤ 1 := by cases ph <;> decide
  have hph : b2n ph = if ph then 1 else 0 := rfl
  rw [← hph]
  omega

end Sys2Proof.Machine
end

section
/-!
PROOFS. LP5X: what a write stores, marks and leaves alone (R299 to R301).
-/

namespace Sys2Proof.Machine

/-! ## Meeting a line of LP5X -/

/-- No line can be found otherwise than it is: without ECC, or while no code holds three wrong bits or more. -/
def State.Calm (s : State) : Prop := s.addr.eccOn = false ∨ ∀ l, Table.get 0 s.addr.lpErr l ≤ 2

@[simp] theorem State.lpUncorr_addr (s : State) (line : Nat) :
    (s.lpUncorr line).addr = { s.addr with uncorrCnt := satInc s.addr.uncorrCnt 1 } := by
  simp [lpUncorr]

/-- A read changes no mark, and not whether ECC is on. -/
theorem State.lpTouch_marks (s : State) (line : Nat) :
    (s.lpTouch line).1.addr.poison = s.addr.poison ∧ (s.lpTouch line).1.addr.eccOn = s.addr.eccOn := by
  unfold lpTouch
  dsimp only
  split_ifs
  · exact ⟨rfl, rfl⟩
  · exact ⟨rfl, rfl⟩
  · simp
  · split
    · simp
    · exact ⟨rfl, rfl⟩
    · exact ⟨rfl, rfl⟩

/-- A line's count of wrong bits set to 0 leaves the others. -/
theorem State.Calm.lpSetErr {s : State} (h : s.Calm) (line : Nat) : (s.lpSetErr line 0).Calm := by
  refine h.imp id fun h l => ?_
  by_cases e : l = dramLine line
  · subst e
    exact (Table.get_set_self (d := 0)).le.trans (Nat.zero_le 2)
  · exact (Table.get_set_ne (x := 0) 0 e).le.trans (h l)

/-- A read in a calm state leaves it calm and changes no byte. -/
theorem State.Calm.lpTouch {s : State} (h : s.Calm) (line : Nat) :
    (s.lpTouch line).1.Calm ∧ (s.lpTouch line).1.addr.lp5x = s.addr.lp5x := by
  unfold State.lpTouch
  dsimp only
  split_ifs with h0 h1 h2
  · exact ⟨h, rfl⟩
  · exact ⟨h.lpSetErr line, rfl⟩
  · exact ⟨by simpa [Calm] using h, by simp⟩
  · obtain h | h := h
    · simp [h] at h0
    · have := h (dramLine line)
      omega

/-! ## Marking the lines that a write touches -/

@[simp] theorem State.lpMark_poison (s : State) (line : Nat) (whole p : Bool) :
    (s.lpMark line whole p).addr.poison
      = Table.set false s.addr.poison line ((if whole then false else (s.lpTouch line).2) || p) := by
  have hm := (s.lpTouch_marks line).1
  cases whole
  · unfold lpMark
    dsimp only [Bool.false_eq_true, if_false]
    split <;> simp [lpSetErr, hm]
  · unfold lpMark
    dsimp only
    split <;> rfl

theorem State.Calm.lpMark {s : State} (h : s.Calm) (line : Nat) (whole p : Bool) :
    (s.lpMark line whole p).Calm ∧ (s.lpMark line whole p).addr.lp5x = s.addr.lp5x := by
  obtain ⟨ht, hb⟩ := h.lpTouch line
  unfold State.lpMark
  cases whole
  · dsimp only [Bool.false_eq_true, if_false]
    split
    · exact ⟨ht.lpSetErr line, hb⟩
    · exact ⟨ht, hb⟩
  · dsimp only [if_true]
    split
    · exact ⟨h.lpSetErr line, rfl⟩
    · exact ⟨h, rfl⟩

theorem State.Calm.lpMarkAll_lp5x {s : State} (h : s.Calm) (a e line : Nat) (p : Bool) (n : Nat) :
    (s.lpMarkAll a e line p n).addr.lp5x = s.addr.lp5x := by
  induction n generalizing s line with
  | zero => rfl
  | succ n ih =>
    obtain ⟨hc, hb⟩ := h.lpMark line (decide (a ≤ line * 64) && decide (line * 64 + 64 ≤ e)) p
    exact (ih hc (line + 1)).trans hb

/-- A line outside those that are marked keeps its mark. -/
theorem State.lpMarkAll_poison_outside (s : State) (a e line : Nat) (p : Bool) (n : Nat) {l : Nat}
    (h : l < line ∨ line + n ≤ l) :
    Table.get false (s.lpMarkAll a e line p n).addr.poison l = Table.get false s.addr.poison l := by
  induction n generalizing s line with
  | zero => rfl
  | succ n ih =>
    rw [lpMarkAll, ih _ (line + 1) (by omega), lpMark_poison]
    exact Table.get_set_ne _ (by omega)

/-- A line that the write covers whole takes the write's own mark. -/
theorem State.lpMarkAll_poison_whole (s : State) (a e line : Nat) (p : Bool) (n : Nat) {l : Nat}
    (hl : line ≤ l) (hu : l < line + n) (ha : a ≤ 64 * l) (he : 64 * l + 64 ≤ e) :
    Table.get false (s.lpMarkAll a e line p n).addr.poison l = p := by
  induction n generalizing s line with
  | zero => omega
  | succ n ih =>
    rw [lpMarkAll]
    obtain rfl | hne := hl.eq_or_lt
    · have hw : (decide (a ≤ line * 64) && decide (line * 64 + 64 ≤ e)) = true := by
        simp only [Bool.and_eq_true, decide_eq_true_iff]
        omega
      rw [lpMarkAll_poison_outside _ _ _ _ _ _ (by omega), lpMark_poison, Table.get_set_self, hw]
      simp
    · exact ih _ (line + 1) hne (by omega)

theorem State.lpWrite_lp5x (s : State) (a : Nat) (d : Bytes) (p : Bool) :
    (s.lpWrite a d p).addr.lp5x
      = writeBytes 0 (s.lpMarkAll a (a + d.length) (a / 64) p (lineCount a d.length)).addr.lp5x a d := rfl

theorem State.lpWrite_poison (s : State) (a : Nat) (d : Bytes) (p : Bool) :
    (s.lpWrite a d p).addr.poison
      = (s.lpMarkAll a (a + d.length) (a / 64) p (lineCount a d.length)).addr.poison := rfl

/-- The lines that a range covers whole are among those that it touches. -/
theorem line_touched_of_whole {a len l : Nat} (ha : a ≤ 64 * l) (he : 64 * l + 64 ≤ a + len) :
    a / 64 ≤ l ∧ l < a / 64 + lineCount a len := by
  rw [lineCount, if_neg (by omega)]
  omega

/-- A line beside a range is none that it touches. -/
theorem line_not_touched {a len l : Nat} (h : 64 * l + 64 ≤ a ∨ a + len ≤ 64 * l) :
    l < a / 64 ∨ a / 64 + lineCount a len ≤ l := by
  unfold lineCount
  split <;> omega

/-- Settles O11: bytes by `writeBytes` over memory that marking leaves alone, marks line by line. -/
theorem anLp5xWriteReadsBackAndLeavesTheOtherBytes : Obligations.AnLp5xWriteReadsBackAndLeavesTheOtherBytes := by
  unfold Obligations.AnLp5xWriteReadsBackAndLeavesTheOtherBytes
  intro s a d p
  refine ⟨fun i hi => ?_, fun hcalm x hx => ?_, fun l ha he => ?_, fun l hl => ?_⟩
  · rw [s.lpWrite_lp5x, get_writeBytes_inside hi]
  · rw [s.lpWrite_lp5x, get_writeBytes_outside hx, State.Calm.lpMarkAll_lp5x hcalm]
  · obtain ⟨h1, h2⟩ := line_touched_of_whole ha he
    rw [s.lpWrite_poison, s.lpMarkAll_poison_whole a _ _ p _ h1 h2 ha he]
  · rw [s.lpWrite_poison, s.lpMarkAll_poison_outside a _ _ p _ (line_not_touched hl)]

end Sys2Proof.Machine
end

section
/-!
PROOFS. The general and diagnostic commands: their parameters and what their steps are (R414 to R417, R438 to R440, R502).
-/

namespace Sys2Proof.Machine

/-! ## The parameters of the general and diagnostic commands (R415) -/

section
variable {e : Entry}

theorem Entry.paramsOk_nop (h : Entry.opcode e = 0x00) :
    Entry.paramsOk e = Entry.zeros e [1, 2, 3, 4, 5, 6, 7, 8, 9, 10, 11, 12, 13, 14, 15] := by
  rw [paramsOk, h]
  rfl

theorem Entry.paramsOk_query (h : Entry.opcode e = 0x01) :
    Entry.paramsOk e = (decide ((Entry.dw e 2).toNat ≤ 3) && Entry.zeros e [3, 4, 5, 6, 7, 8, 9, 10, 11, 12, 13, 14, 15]) := by
  rw [paramsOk, h]
  rfl

theorem Entry.paramsOk_troubleRead (h : Entry.opcode e = 0x41) :
    Entry.paramsOk e = Entry.zeros e [1, 2, 3, 4, 5, 6, 7, 8, 9, 10, 11, 12, 13, 14, 15] := by
  rw [paramsOk, h]
  rfl

/-- Dword 1 and every dword from `n` on. -/
theorem Entry.zeros_one_from (e : Entry) (n : Nat) :
    Entry.zeros e (1 :: List.range' n (16 - n)) = (Entry.zeros e [1] && Entry.zeroFrom e n) := by
  simp [zeros, zeroFrom]

theorem Entry.paramsOk_countersRead (h : Entry.opcode e = 0x40) :
    Entry.paramsOk e = true ↔ bitsOf (Entry.dw e 2) 31 2 = 0
      ∧ Entry.zeros e [1, 6, 7, 8, 9, 10, 11, 12, 13, 14, 15] = true ∧ counterBytes e ≤ (Entry.dw e 5).toNat := by
  have hz : zeros e [1, 6, 7, 8, 9, 10, 11, 12, 13, 14, 15] = (zeros e [1] && zeroFrom e 6) := zeros_one_from e 6
  rw [paramsOk, h, hz]
  simp only [Bool.and_eq_true, beq_iff_eq, decide_eq_true_iff, and_assoc]

theorem Entry.paramsOk_troubleClear (h : Entry.opcode e = 0x42) :
    Entry.paramsOk e = Entry.zeros e [1, 4, 5, 6, 7, 8, 9, 10, 11, 12, 13, 14, 15] := by
  rw [paramsOk, h]
  exact (zeros_one_from e 4).symm

theorem Entry.paramsOk_logRead (h : Entry.opcode e = 0x43) :
    Entry.paramsOk e = true ↔ 1 ≤ bitsOf (Entry.dw e 3) 10 0 ∧ bitsOf (Entry.dw e 3) 10 0 ≤ 1024
      ∧ bitsOf (Entry.dw e 3) 31 11 = 0 ∧ Entry.zeros e [1, 7, 8, 9, 10, 11, 12, 13, 14, 15] = true := by
  have hz : zeros e [1, 7, 8, 9, 10, 11, 12, 13, 14, 15] = (zeros e [1] && zeroFrom e 7) := zeros_one_from e 7
  rw [paramsOk, h, hz]
  simp only [Bool.and_eq_true, beq_iff_eq, decide_eq_true_iff, and_assoc]

theorem Entry.paramsOk_setLatency (h : Entry.opcode e = 0x02) :
    Entry.paramsOk e = Entry.zeros e [1, 3, 4, 5, 6, 7, 8, 9, 10, 11, 12, 13, 14, 15] := by
  rw [paramsOk, h]
  exact (zeros_one_from e 3).symm

end

theorem ofNat_counterBytes (e : Entry) : BitVec.ofNat 32 (counterBytes e) = if bitOf (Entry.dw e 2) 0 then 512 else 256 := by
  unfold counterBytes
  split <;> rfl

/-- A dword without bits above its low byte is its low byte. -/
theorem toNat_eq_bitsOf_low {d : Word} (h : bitsOf d 31 8 = 0) : d.toNat = bitsOf d 7 0 := by
  have := d.isLt
  simp only [bitsOf, Nat.shiftRight_eq_div_pow] at h ⊢
  omega

theorem lt_of_bitsOf_high {d : Word} (h : bitsOf d 31 8 ≠ 0) : 3 < d.toNat := by
  simp only [bitsOf, Nat.shiftRight_eq_div_pow] at h
  omega

/-- There are four items. -/
theorem State.queryItem_of_gt (s : State) (f : Nat) {item : Nat} (h : Word) (hi : 3 < item) : s.queryItem f item h = none := by
  rw [queryItem, if_neg (by omega), if_neg (by omega), if_neg (by omega), if_neg (by omega)]

/-! ## What the commands do when they are dispatched -/

section
variable {s : State} {t : Ticket} {c : Cmd}

theorem exec_nop_of_waits (h : s.Waits t.val 0x00 c) :
    exec (.nop t) s = .next (s.endCmd t.val (if Entry.paramsOk c.entry then St.ok else St.badParam) 0 0) := by
  change Host.Outcome.next (s.onCmd t.val [0x00] _) = _
  rw [State.onCmd_of_waits h]
  split <;> rfl

theorem exec_query_of_bad (h : s.Waits t.val 0x01 c) (hp : Entry.paramsOk c.entry = false) :
    exec (.query t) s = .next (s.endCmd t.val St.badParam 0 0) := by
  change Host.Outcome.next (s.onCmd t.val [0x01] _) = _
  rw [State.onCmd_of_waits h, hp]
  rfl

theorem exec_query_of_none (h : s.Waits t.val 0x01 c)
    (hq : s.queryItem c.fn (Entry.dw c.entry 2).toNat (Entry.handle c.entry) = none) :
    exec (.query t) s = .next (s.endCmd t.val St.badParam 0 0) := by
  change Host.Outcome.next (s.onCmd t.val [0x01] _) = _
  rw [State.onCmd_of_waits h, hq]
  split <;> rfl

theorem exec_query_of_some (h : s.Waits t.val 0x01 c) (hp : Entry.paramsOk c.entry = true) {a b : Word}
    (hq : s.queryItem c.fn (Entry.dw c.entry 2).toNat (Entry.handle c.entry) = some (a, b)) :
    exec (.query t) s = .next (s.endCmd t.val St.ok a b) := by
  change Host.Outcome.next (s.onCmd t.val [0x01] _) = _
  rw [State.onCmd_of_waits h, hp, hq]
  rfl

theorem exec_troubleRead_of_waits (h : s.Waits t.val 0x41 c) :
    exec (.troubleRead t) s = .next (if Entry.paramsOk c.entry then
        s.endCmd t.val St.ok ((s.fnSt c.fn).trb.setWidth 32) (if c.fn = 0 then s.trouble.trb.setWidth 32 else 0)
      else s.endCmd t.val St.badParam 0 0) := by
  change Host.Outcome.next (s.onCmd t.val [0x41] _) = _
  rw [State.onCmd_of_waits h]
  cases Entry.paramsOk c.entry <;> rfl

end

/-- Settles O14: each command's parameters decide between its words and BAD_PARAM; of a QUERY the item's words do too. -/
theorem informationCommandsEndWithTheirWords : Obligations.InformationCommandsEndWithTheirWords := by
  unfold Obligations.InformationCommandsEndWithTheirWords
  intro s t c
  refine ⟨fun h => ?_, fun h hhi hz => ⟨fun a b hq => ?_, fun hq => ?_⟩, fun h hbad => ?_, fun h hz => ?_, fun h hz => ?_⟩
  · have hop := h.2.2.1
    rw [exec_nop_of_waits h, Entry.paramsOk_nop hop]
  · have hop := h.2.2.1
    rw [← toNat_eq_bitsOf_low hhi] at hq
    have hle : (Entry.dw c.entry 2).toNat ≤ 3 := by
      by_contra hgt
      rw [s.queryItem_of_gt _ _ (by omega)] at hq
      cases hq
    refine exec_query_of_some h ?_ hq
    rw [Entry.paramsOk_query hop, hz]
    simp [hle]
  · rw [← toNat_eq_bitsOf_low hhi] at hq
    exact exec_query_of_none h hq
  · have hop := h.2.2.1
    refine exec_query_of_bad h ?_
    rw [Entry.paramsOk_query hop]
    obtain hhi | hz := hbad
    · simp [lt_of_bitsOf_high hhi]
    · simp [hz]
  · have hop := h.2.2.1
    rw [exec_troubleRead_of_waits h, Entry.paramsOk_troubleRead hop, hz]
    rfl
  · have hop := h.2.2.1
    rw [exec_troubleRead_of_waits h, Entry.paramsOk_troubleRead hop, hz]
    rfl

section
variable {s : State} {t : Ticket} {c : Cmd} {p : Place}

theorem exec_countersRead_of_ok (h : s.Waits t.val 0x40 c) (hp : Entry.paramsOk c.entry = true)
    (hf : bitOf (Entry.dw c.entry 2) 0 = true → c.fn = 0) (ho : c.output 3 (Entry.dw c.entry 5).toNat = .ok p) :
    exec (.countersRead t) s = .next (((if bitOf (Entry.dw c.entry 2) 1
        then s.counterClear c.fn (bitOf (Entry.dw c.entry 2) 0) else s).writePlace c.fn p
          (s.counterImage c.fn (bitOf (Entry.dw c.entry 2) 0)) false).endCmd t.val St.ok
      (BitVec.ofNat 32 (counterBytes c.entry)) 0) := by
  change Host.Outcome.next (s.onCmd t.val [0x40] _) = _
  rw [State.onCmd_of_waits h]
  dsimp only
  rw [if_neg (by rw [hp]; tauto), ho]

theorem exec_troubleClear_of_ok (h : s.Waits t.val 0x42 c) (hp : Entry.paramsOk c.entry = true)
    (hf : c.fn ≠ 0 → Entry.dw c.entry 3 = 0) {u : State}
    (hu : u = if c.fn = 0 then (s.clearFnTrb c.fn (Entry.dw c.entry 2)).clearTrb (Entry.dw c.entry 3)
      else s.clearFnTrb c.fn (Entry.dw c.entry 2)) :
    exec (.troubleClear t) s = .next (u.endCmd t.val St.ok (u.troubleWords c.fn).1 (u.troubleWords c.fn).2) := by
  change Host.Outcome.next (s.onCmd t.val [0x42] _) = _
  rw [State.onCmd_of_waits h]
  dsimp only
  rw [if_neg (by rw [hp]; tauto), hu]

theorem exec_logRead_of_ok (h : s.Waits t.val 0x43 c) (hp : Entry.paramsOk c.entry = true)
    (ho : c.output 4 (Entry.dw c.entry 6).toNat = .ok p) {l : List Bytes}
    (hl : l = s.trouble.collect c.fn 1024
      (if seqLater s.trouble.oldest (Entry.dw c.entry 2) then s.trouble.oldest else Entry.dw c.entry 2)
      (min (bitsOf (Entry.dw c.entry 3) 10 0) ((Entry.dw c.entry 6).toNat / 32))) :
    exec (.logRead t) s = .next ((s.writePlace c.fn p l.flatten false).endCmd t.val St.ok
      (BitVec.ofNat 32 l.length) s.trouble.oldest) := by
  change Host.Outcome.next (s.onCmd t.val [0x43] _) = _
  rw [State.onCmd_of_waits h]
  dsimp only
  rw [hp, ho, hl]
  rfl

theorem exec_setLatency_of_ok (h : s.Waits t.val 0x02 c) (hp : Entry.paramsOk c.entry = true) {u : State}
    (hu : u = (s.updFn c.fn fun x => { x with tol := Entry.dw c.entry 2 }).retarget) :
    exec (.setLatency t) s = .next (u.endCmd t.val St.ok (mkWord [(0, u.target), (4, tolLevel u.tolMin)]) 0) := by
  change Host.Outcome.next (s.onCmd t.val [0x02] _) = _
  rw [State.onCmd_of_waits h]
  dsimp only
  rw [hp, hu]
  rfl

end

/-- Settles O15: with parameters in range each step is the branch in which no check fails. -/
theorem recordCommandsWriteTheirOutputAndEnd : Obligations.RecordCommandsWriteTheirOutputAndEnd := by
  unfold Obligations.RecordCommandsWriteTheirOutputAndEnd
  intro s t c p
  refine ⟨fun h hb hz hf hlen ho => ?_, fun h hz hf => ⟨_, rfl, ?_⟩, fun h hz h1 h2 h3 ho => ⟨_, rfl, ?_⟩,
    fun h hz => ⟨_, rfl, ?_⟩⟩
  · have hop := h.2.2.1
    rw [exec_countersRead_of_ok h ((Entry.paramsOk_countersRead hop).2 ⟨hb, hz, hlen⟩) hf ho, ofNat_counterBytes]
  · have hop := h.2.2.1
    exact exec_troubleClear_of_ok h ((Entry.paramsOk_troubleClear hop).trans hz) hf rfl
  · have hop := h.2.2.1
    exact exec_logRead_of_ok h ((Entry.paramsOk_logRead hop).2 ⟨h1, h2, h3, hz⟩) ho rfl
  · have hop := h.2.2.1
    exact exec_setLatency_of_ok h ((Entry.paramsOk_setLatency hop).trans hz) rfl

end Sys2Proof.Machine
end

section
/-!
PROOFS. Event messages (R338, R339), and the register rows of the event log, the trace, FETCH_STOP and STATS_CLEAR.
-/

namespace Sys2Proof.Machine

/-! ## Event messages (R338, R339) -/

/-- The state with one more bit in `DEV_EVT_CAUSE`. -/
def State.withDevCause (s : State) (b : Nat) : State :=
  { s with pcie := { s.pcie with evtCause := s.pcie.evtCause ||| (1 <<< b) } }

section
variable {s : State} {f b v : Nat}

/-- Leaving L1 is about the power record only. -/
theorem State.leaveL1_withDevCause (s : State) (b : Nat) :
    (s.withDevCause b).leaveL1 = { s.leaveL1 with pcie := (s.withDevCause b).pcie } := by
  unfold leaveL1 withDevCause
  dsimp only
  split <;> rfl

theorem State.raiseDevEvt_of_set (h : bitOf s.pcie.evtCause b = true) : s.raiseDevEvt b = s := by
  rw [raiseDevEvt, if_pos h]

theorem State.raiseDevEvt_of_masked (h : bitOf s.pcie.evtCause b = false) (hm : bitOf s.pcie.evtMask b = true) :
    s.raiseDevEvt b = s.withDevCause b := by
  simp [raiseDevEvt, withDevCause, h, hm]

theorem State.raiseDevEvt_of_unmasked (h : bitOf s.pcie.evtCause b = false) (hm : bitOf s.pcie.evtMask b = false) :
    s.raiseDevEvt b = (s.withDevCause b).sendMsi 0 1 := by
  simp [raiseDevEvt, withDevCause, h, hm]

/-- A message of a masked vector waits in the PBA. -/
theorem State.sendMsi_of_masked (he : (s.fnSt f).msixEn = true)
    (hm : (s.fnSt f).fnMask = true ∨ (Table.get {} (s.fnSt f).vecs v).mask = true) :
    s.sendMsi f v = s.updFn f fun x => { x with pba := x.pba ||| (1 <<< v) } := by
  rw [sendMsi, if_neg (by simp [he])]
  dsimp only
  rw [if_pos (by simpa using hm)]

/-- A message of an unmasked vector above RL4 goes to the bus. -/
theorem State.sendMsi_of_unmasked {w : MsixVec} (he : (s.fnSt f).msixEn = true) (hf : (s.fnSt f).fnMask = false)
    (hw : Table.get {} (s.fnSt f).vecs v = w) (hm : w.mask = false) (hl : s.power.level ≠ 4) :
    s.sendMsi f v = s.busSend f (.msix f v w.addr w.data) := by
  rw [sendMsi, if_neg (by simp [he])]
  dsimp only
  rw [hw, hf, hm, if_neg hl]
  rfl

theorem State.busSend_of_canSend {o : Out} (hp : s.life.phase = .running) (hc : s.canSend f = true) :
    s.busSend f o = s.leaveL1.emit o := by
  rw [busSend, if_pos hp, if_pos hc]

theorem State.setTrb_of_set {b : Trb} (h : bitOf s.trouble.trb b.bit = true) : s.setTrb b = s := by
  rw [setTrb, if_pos h]

theorem State.setTrb_of_clear {b : Trb} (h : bitOf s.trouble.trb b.bit = false) :
    s.setTrb b = { s with trouble := { s.trouble with trb := s.trouble.trb ||| (1 <<< b.bit) } }.raiseDevEvt 0 := by
  rw [setTrb, if_neg (by simp [h])]

@[simp] theorem State.leaveL1_out (s : State) : s.leaveL1.out = s.out := by
  unfold leaveL1
  split <;> rfl

end

/-- Settles O13: the cause bit, its mask bit and the vector's mask decide in this order. -/
theorem anEventIsSentOnceUntilTheHostClearsIt : Obligations.AnEventIsSentOnceUntilTheHostClearsIt := by
  unfold Obligations.AnEventIsSentOnceUntilTheHostClearsIt
  refine ⟨fun s b h => State.raiseDevEvt_of_set h, fun s b h hm => State.raiseDevEvt_of_masked h hm,
    fun s b h hm he hv => ?_, fun s b v h hm he hf hv hvm hl hp hc => ?_,
    fun s b h => State.setTrb_of_set h, fun s b h => State.setTrb_of_clear h⟩
  · rw [State.raiseDevEvt_of_unmasked h hm]
    exact State.sendMsi_of_masked he hv
  · rw [State.raiseDevEvt_of_unmasked h hm]
    rw [State.sendMsi_of_unmasked (s := s.withDevCause b) he hf hv hvm hl,
      State.busSend_of_canSend (s := s.withDevCause b) hp hc, State.leaveL1_withDevCause, State.emit]
    simp only [State.leaveL1_out]
    rfl

/-! ## Writes by rows of their own (R336) -/

section
variable {s : State} {f : Nat} {g : State → State}

theorem State.barRow_of_unsupported (h : s.barMode f = .unsupported) : s.barRow f g = s.logUr f true := by
  rw [barRow, if_pos h]

theorem State.barRow_of_ne (h : s.barMode f ≠ .unsupported) : s.barRow f g = g s := by
  rw [barRow, if_neg h]

theorem State.barRow_of_normal (h : s.barMode f = .normal) : s.barRow f g = g s :=
  barRow_of_ne (by rw [h]; decide)

/-- A row whose write is discarded outside normal service. -/
theorem State.barRow_of_alwaysOn (h : s.barMode f = .alwaysOn) (hg : s.barMode f ≠ .normal → g s = s) : s.barRow f g = s :=
  (barRow_of_ne (by rw [h]; decide)).trans (hg (by rw [h]; decide))

end

theorem State.statsClear_frame (s : State) (f : Nat) : s.statsClear f = { s with fns := (s.statsClear f).fns } := rfl

/-- A cleared STATS block: the stamp in slot 0, the tickets held in slot 24, and nothing else. -/
theorem State.stats_statsClear (s : State) (f i : Nat) :
    Table.get 0 ((s.statsClear f).fnSt f).stats i
      = if i = 0 then s.time.toNat else if i = 24 then s.ticketsHeld f else 0 := by
  rw [statsClear, fnSt_updFn]
  by_cases h24 : i = 24
  · rw [h24]
    exact Table.get_set_self
  rw [Table.get_set_ne _ h24, if_neg h24]
  by_cases h0 : i = 0
  · rw [h0]
    exact Table.get_set_self
  · rw [Table.get_set_ne _ h0, if_neg h0]
    rfl

/-- Settles O16: how BAR 0 serves the function decides first, then the row's own condition. -/
theorem deviceRecordWritesTakeEffect : Obligations.DeviceRecordWritesTakeEffect := by
  unfold Obligations.DeviceRecordWritesTakeEffect
  intro s v f b
  refine ⟨fun h hv => ?_, fun h hv => ?_, fun h => ?_, fun h => ⟨?_, ?_⟩, fun h => ⟨?_, s.statsClear f.val, ?_, ⟨?_, ?_⟩, ?_⟩,
    fun h => ⟨?_, ?_⟩, fun h => ⟨?_, ?_⟩⟩
  · refine congrArg Host.Outcome.next ((State.barRow_of_ne h).trans ?_)
    rw [State.evlogAckWrite, if_neg (by simp [h, hv])]
  · refine congrArg Host.Outcome.next ((State.barRow_of_ne h).trans ?_)
    rw [State.evlogAckWrite, if_pos (Or.inr hv)]
  · refine congrArg Host.Outcome.next ((State.barRow_of_ne h).trans ?_)
    rw [State.traceMarkWrite, if_neg h]
  · exact congrArg Host.Outcome.next (State.barRow_of_unsupported h)
  · exact congrArg Host.Outcome.next (State.barRow_of_unsupported h)
  · exact congrArg Host.Outcome.next ((State.barRow_of_normal h).trans (if_neg (by simp [h])))
  · exact congrArg Host.Outcome.next ((State.barRow_of_normal h).trans (if_neg (by simp [h])))
  · exact fun g hg => s.fnSt_updFn_ne _ hg
  · exact s.stats_statsClear f.val
  · exact s.statsClear_frame f.val
  · exact congrArg Host.Outcome.next (State.barRow_of_alwaysOn h fun hn => if_pos hn)
  · exact congrArg Host.Outcome.next (State.barRow_of_alwaysOn h fun hn => if_pos hn)
  · exact congrArg Host.Outcome.next (State.barRow_of_unsupported h)
  · exact congrArg Host.Outcome.next (State.barRow_of_unsupported h)

end Sys2Proof.Machine
end

section
/-!
PROOFS. Doorbells, and enabling and disabling a ring (R383, R385, R386, R399).
-/

namespace Sys2Proof.Machine

/-! ## Doorbells (R385, R386) -/

section
variable {s : State} {f r : Nat} {v : Word}

/-- A ring's write acts only while the firmware serves BAR 0, and on a ring that exists. -/
theorem State.sqTailWrite_of_not_served (h : s.barMode f ≠ .normal ∨ s.ringExists f r = false) : s.sqTailWrite f r v = s := by
  rw [sqTailWrite, if_pos (by simpa using h)]

theorem State.cqHeadWrite_of_not_served (h : s.barMode f ≠ .normal ∨ s.ringExists f r = false) : s.cqHeadWrite f r v = s := by
  rw [cqHeadWrite, if_pos (by simpa using h)]

theorem State.ringEnable_of_not_served (h : s.barMode f ≠ .normal ∨ s.ringExists f r = false) : s.ringEnable f r = s := by
  rw [ringEnable, if_pos (by simpa using h)]

theorem State.ringDisable_of_not_served (h : s.barMode f ≠ .normal ∨ s.ringExists f r = false) : s.ringDisable f r = s := by
  rw [ringDisable, if_pos (by simpa using h)]

/-- A row of a ring that is not served or does not exist changes nothing. -/
theorem State.barRow_of_not_served {g : State → State}
    (h : s.barMode f = .alwaysOn ∨ (s.barMode f = .normal ∧ s.ringExists f r = false))
    (hg : s.barMode f ≠ .normal ∨ s.ringExists f r = false → g s = s) : s.barRow f g = s := by
  obtain h | ⟨h, he⟩ := h
  · exact barRow_of_alwaysOn h fun hn => hg (.inl hn)
  · exact (barRow_of_normal h).trans (hg (.inr he))

/-- A discarded doorbell value out of range sets `bad_db`. -/
theorem State.badDoorbell_true (s : State) (f r : Nat) :
    s.badDoorbell f r true = (s.updRing f r fun y => { y with badDb := true }).setFnTrb f .badDoorbell := by
  simp only [badDoorbell, Bool.or_true]

variable {g : State} {x : Ring} (hb : s.barMode f = .normal) (he : s.ringExists f r = true) (hg : g = s.newGeneration f)
  (hx : x = g.ring f r)
include hb he hg hx

theorem State.sqTailWrite_of_not_active (h : x.state ≠ .active) : s.sqTailWrite f r v = g.badDoorbell f r false := by
  subst hx hg
  rw [sqTailWrite, if_neg (by simp [hb, he])]
  dsimp only
  rw [if_pos h]

theorem State.sqTailWrite_of_out_of_range (h : x.state = .active) (ht : x.sqSize ≤ bitsOf v 15 0) :
    s.sqTailWrite f r v = g.badDoorbell f r true := by
  subst hx hg
  rw [sqTailWrite, if_neg (by simp [hb, he])]
  dsimp only
  rw [if_neg (by simp [h]), if_pos ht]

theorem State.sqTailWrite_of_in_range (h : x.state = .active) (ht : bitsOf v 15 0 < x.sqSize) {u : State}
    (hu : u = g.updRing f r fun y => { y with
      sqTail := bitsOf v 15 0
      bells := y.bells ++ List.replicate ((bitsOf v 15 0 + x.sqSize - x.sqTail) % x.sqSize) g.time }) :
    s.sqTailWrite f r v = if bitsOf v 15 0 = x.sqTail then u else u.wake 0 := by
  subst hx hg hu
  rw [sqTailWrite, if_neg (by simp [hb, he])]
  dsimp only
  rw [if_neg (by simp [h]), if_neg (by omega)]

theorem State.cqHeadWrite_of_not_open (h : x.state = .disabled ∨ x.state = .error) :
    s.cqHeadWrite f r v = g.badDoorbell f r false := by
  subst hx hg
  rw [cqHeadWrite, if_neg (by simp [hb, he])]
  dsimp only
  rw [if_pos (by obtain h | h := h <;> simp [h])]

theorem State.cqHeadWrite_of_headOk (h : x.state = .active ∨ x.state = .draining) (ho : x.headOk (bitsOf v 15 0) = true) :
    s.cqHeadWrite f r v = g.updRing f r fun y => { y with cqHead := bitsOf v 15 0 } := by
  subst hx hg
  rw [cqHeadWrite, if_neg (by simp [hb, he])]
  dsimp only
  rw [if_neg (by tauto), if_pos ho]

theorem State.cqHeadWrite_of_not_headOk (h : x.state = .active ∨ x.state = .draining) (ho : x.headOk (bitsOf v 15 0) = false) :
    s.cqHeadWrite f r v = g.badDoorbell f r true := by
  subst hx hg
  rw [cqHeadWrite, if_neg (by simp [hb, he])]
  dsimp only
  rw [if_neg (by tauto), ho]
  rfl

end

/-- Settles O17: BAR 0 and the ring's existence first, then the ring's state and the value's range. -/
theorem submissionDoorbellsMoveTheTail : Obligations.SubmissionDoorbellsMoveTheTail := by
  unfold Obligations.SubmissionDoorbellsMoveTheTail
  intro s g f r v x
  refine ⟨fun h => ⟨?_, ?_⟩, fun h => ⟨?_, ?_⟩, fun hb he hg hx => ?_⟩
  · exact congrArg Host.Outcome.next (State.barRow_of_unsupported h)
  · exact congrArg Host.Outcome.next (State.barRow_of_unsupported h)
  · exact congrArg Host.Outcome.next (State.barRow_of_not_served h State.sqTailWrite_of_not_served)
  · exact congrArg Host.Outcome.next (State.barRow_of_not_served h State.cqHeadWrite_of_not_served)
  · have hsq : exec (.sqTail f r v) s = .next (s.sqTailWrite f.val r.val v) :=
      congrArg Host.Outcome.next (State.barRow_of_normal hb)
    have hcq : exec (.cqHead f r v) s = .next (s.cqHeadWrite f.val r.val v) :=
      congrArg Host.Outcome.next (State.barRow_of_normal hb)
    rw [hsq, hcq]
    refine ⟨fun h ht => ⟨_, rfl, ?_⟩, fun h ht => ?_, fun h ho => ?_, fun h ho => ?_, fun h => ?_, fun h => ?_⟩
    · rw [State.sqTailWrite_of_in_range hb he hg hx h ht rfl]
    · rw [State.sqTailWrite_of_out_of_range hb he hg hx h ht, State.badDoorbell_true]
    · rw [State.cqHeadWrite_of_headOk hb he hg hx h ho]
    · rw [State.cqHeadWrite_of_not_headOk hb he hg hx h ho, State.badDoorbell_true]
    · rw [State.sqTailWrite_of_not_active hb he hg hx h]
    · rw [State.cqHeadWrite_of_not_open hb he hg hx h]

/-! ## Enabling and disabling (R383, R399) -/

section
variable {s : State} {f r : Nat}

/-- The enable checks, in their order. -/
theorem State.enableErr_eq_zero_iff (s : State) (f : Nat) (x : Ring) :
    s.enableErr f x = 0 ↔ 4 ≤ x.sqLog2.toNat ∧ x.sqLog2.toNat ≤ 16 ∧ 4 ≤ x.cqLog2.toNat ∧ x.cqLog2.toNat ≤ 16
      ∧ (hostWindow (s.fnSt f).hwin (4096 * x.sqBase.toNat) (64 * 2 ^ x.sqLog2.toNat) false).isSome = true
      ∧ (hostWindow (s.fnSt f).hwin (4096 * x.cqBase.toNat) (16 * 2 ^ x.cqLog2.toNat) true).isSome = true
      ∧ completionVector f x.vector.toNat = true := by
  unfold enableErr Ring.sqSize Ring.cqSize
  dsimp only
  split_ifs with h1 h2 h3 h4
  · simp only [Bool.not_eq_true', Bool.and_eq_false_iff, decide_eq_false_iff_not] at h1
    constructor
    · intro h; cases h
    · omega
  · simp only [Option.isNone_iff_eq_none] at h2
    simp [h2]
  · simp only [Option.isNone_iff_eq_none] at h3
    simp [h3]
  · simp only [Bool.not_eq_true'] at h4
    simp [h4]
  · simp only [Bool.not_eq_true', Bool.and_eq_false_iff, decide_eq_false_iff_not, not_or, not_not] at h1
    simp only [Option.isNone_iff_eq_none, ← ne_eq, Option.ne_none_iff_isSome] at h2 h3
    simp only [Bool.not_eq_true', Bool.not_eq_false] at h4
    simp [h1, h2, h3, h4]

variable {x : Ring} (hb : s.barMode f = .normal) (he : s.ringExists f r = true) (hx : x = s.ring f r)
include hb he hx

theorem State.ringEnable_of_ok (h : x.state = .disabled) (hc : s.enableErr f x = 0) :
    s.ringEnable f r = (s.updRing f r fun y => { y with
      state := .active, err := 0, sqHead := 0, sqTail := 0, sqFetch := 0, cqHead := 0, cqTail := 0
      seq := 0, phase := true, fetched := [], pend := 0, accepted := 0, bells := [] }).retarget := by
  subst hx
  rw [ringEnable, if_neg (by simp [hb, he])]
  dsimp only
  rw [if_neg (by simp [h]), if_pos hc]

theorem State.ringEnable_of_failing (h : x.state = .disabled) (hc : s.enableErr f x ≠ 0) :
    s.ringEnable f r = s.updRing f r fun y => { y with err := BitVec.ofNat 4 (s.enableErr f x) } := by
  subst hx
  rw [ringEnable, if_neg (by simp [hb, he])]
  dsimp only
  rw [if_neg (by simp [h]), if_neg hc]

theorem State.ringEnable_of_not_disabled (h : x.state ≠ .disabled) : s.ringEnable f r = s := by
  subst hx
  rw [ringEnable, if_neg (by simp [hb, he])]
  exact if_pos h

theorem State.ringDisable_of_active (h : x.state = .active) :
    s.ringDisable f r = ((s.dropFetches f r).updRing f r fun y =>
      if y.accepted = 0 then { y with state := .disabled } else { y with state := .draining }).retarget := by
  subst hx
  rw [ringDisable, if_neg (by simp [hb, he]), if_neg (by simp [h])]
  simp only [Ring.settle, true_or, true_and]

theorem State.ringDisable_of_not_active (h : x.state ≠ .active) : s.ringDisable f r = s := by
  subst hx
  rw [ringDisable, if_neg (by simp [hb, he]), if_pos h]

end

/-- Settles O18: BAR 0 and the ring's existence first, then the ring's state and the enable checks. -/
theorem ringsAreEnabledAfterTheirChecks : Obligations.RingsAreEnabledAfterTheirChecks := by
  unfold Obligations.RingsAreEnabledAfterTheirChecks
  intro s f r x
  refine ⟨fun h => ⟨?_, ?_⟩, fun h => ⟨?_, ?_⟩, fun hb he hx => ?_⟩
  · exact congrArg Host.Outcome.next (State.barRow_of_unsupported h)
  · exact congrArg Host.Outcome.next (State.barRow_of_unsupported h)
  · exact congrArg Host.Outcome.next (State.barRow_of_not_served h State.ringEnable_of_not_served)
  · exact congrArg Host.Outcome.next (State.barRow_of_not_served h State.ringDisable_of_not_served)
  · have hen : exec (.ringEnable f r) s = .next (s.ringEnable f.val r.val) :=
      congrArg Host.Outcome.next (State.barRow_of_normal hb)
    have hdis : exec (.ringDisable f r) s = .next (s.ringDisable f.val r.val) :=
      congrArg Host.Outcome.next (State.barRow_of_normal hb)
    rw [hen, hdis]
    refine ⟨fun h hc => ?_, fun h hc => ?_, fun h => ?_, fun h => ?_, fun h => ?_, s.enableErr_eq_zero_iff f.val x⟩
    · rw [State.ringEnable_of_ok hb he hx h hc]
    · rw [State.ringEnable_of_failing hb he hx h hc]
    · rw [State.ringEnable_of_not_disabled hb he hx h]
    · rw [State.ringDisable_of_active hb he hx h]
    · rw [State.ringDisable_of_not_active hb he hx h]

end Sys2Proof.Machine
end

section
/-!
PROOFS. Fetching and accepting entries (R387 to R391).
-/

namespace Sys2Proof.Machine

/-! ## Fetching (R387, R388) -/

theorem highest_lt {p : Nat → Bool} {n k : Nat} (h : highest p n = some k) : k < n := by
  have := List.mem_of_find?_eq_some h
  simpa using this

/-- A read takes at most eight entries. -/
theorem State.fetchCount_le (s : State) (f r : Nat) : s.fetchCount f r ≤ 8 := by
  unfold fetchCount
  dsimp only
  set n := min (min 8 (if (s.ring f r).sqFetch ≤ (s.ring f r).sqTail then (s.ring f r).sqTail - (s.ring f r).sqFetch
    else (s.ring f r).sqSize - (s.ring f r).sqFetch)) (min (s.mrrsBytes / 64) (64 - (s.ring f r).sqFetch % 64)) with hn
  have hroom : (highest (fun k => (s.ring f r).cqRoom (k - 1) || k == 0) (n + 1)).getD 0 ≤ n := by
    cases h : highest (fun k => (s.ring f r).cqRoom (k - 1) || k == 0) (n + 1) with
    | none => exact Nat.zero_le _
    | some k => exact Nat.lt_succ_iff.1 (highest_lt h)
  have hn8 : n ≤ 8 := by omega
  split_ifs <;> omega

section
variable {s : State} {f : FnId} {r : RingId} {x : Ring}

/-- The conditions of a fetch hold: the firmware serves the ring, nothing of it is on its way or waits. -/
structure State.FetchReady (s : State) (f : FnId) (r : RingId) (x : Ring) : Prop where
  serves : s.serves = true
  fetchable : s.fetchable f.val r.val = true
  ring : x = s.ring f.val r.val
  none_waits : x.fetched = []
  none_out : (s.reads.any fun q => q.fn == f.val && !q.orphan && q.use.isSq r.val) = false
  some_wanted : s.fetchCount f.val r.val ≠ 0

theorem exec_sqFetch_of_no_window (h : s.FetchReady f r x)
    (hw : hostWindow (s.fnSt f.val).hwin (4096 * x.sqBase.toNat + 64 * x.sqFetch) (64 * s.fetchCount f.val r.val) false = none) :
    exec (.sqFetch f r) s = .next (s.ringError f.val r.val 5) := by
  obtain ⟨hs, hf, rfl, hw0, ho, hn⟩ := h
  change execSqFetch f r s = _
  unfold execSqFetch
  dsimp only
  rw [if_neg (by simp [hs, hf, hw0, ho]), if_neg hn, hw]

theorem exec_sqFetch_of_window (h : s.FetchReady f r x) {ns : Bool} {tag : Nat}
    (hw : hostWindow (s.fnSt f.val).hwin (4096 * x.sqBase.toNat + 64 * x.sqFetch) (64 * s.fetchCount f.val r.val) false = some ns)
    (ht : s.freeTag = some tag) :
    exec (.sqFetch f r) s = .next (((s.updRing f.val r.val fun y =>
      { y with sqFetch := (y.sqFetch + s.fetchCount f.val r.val) % y.sqSize }).issueRead f.val tag
        (4096 * x.sqBase.toNat + 64 * x.sqFetch) (64 * s.fetchCount f.val r.val) ns
        (.sq r.val (s.fetchCount f.val r.val))).perfAdd 31 (s.fetchCount f.val r.val)) := by
  obtain ⟨hs, hf, rfl, hw0, ho, hn⟩ := h
  change execSqFetch f r s = _
  unfold execSqFetch
  dsimp only
  rw [if_neg (by simp [hs, hf, hw0, ho]), if_neg hn, hw, ht]

end

/-- Settles O19: the window check decides between the read and ERROR. -/
theorem entriesAreFetchedUnderTheRingsConditions : Obligations.EntriesAreFetchedUnderTheRingsConditions := by
  unfold Obligations.EntriesAreFetchedUnderTheRingsConditions
  intro s f r x n a hs hf hx hw ho hn h0 ha
  subst hn ha
  have h : s.FetchReady f r x := ⟨hs, hf, hx, hw, ho, h0⟩
  exact ⟨exec_sqFetch_of_no_window h, fun ns tag hns ht => ⟨s.fetchCount_le _ _, exec_sqFetch_of_window h hns ht⟩⟩

/-! ## Acceptance (R389, R391) -/

/-- The command that an accepted entry becomes, before its checks. -/
def State.entryCmd (s : State) (f r : Nat) (e : Entry) : Cmd :=
  { fn := f, ring := r, seq := (s.ring f r).seq, entry := e, time := s.time, order := s.order, phase := .held
    hwin := (s.fnSt f).hwin, dwin := (s.fnSt f).dwin, bell := (s.ring f r).bells.headD s.time, haltBase := s.haltNow }

/-- An opcode's own checks do not ask how far the command has come. -/
theorem State.ownCheck_withEnd (s : State) (c : Cmd) (p : CmdPhase) (st : BitVec 16) :
    s.ownCheck { c with phase := p, status := st } = s.ownCheck c := rfl

/-- The status of the first check that an entry's command fails (R391). -/
def State.firstFailure (s : State) (rt : Bool) (c : Cmd) : Option (BitVec 16) :=
  (acceptStatus c.entry c.fn rt).or (s.ownCheck c)

/-- What a command is after its acceptance: ended by the first check that fails, or held, or ready. -/
def Cmd.Accepted (c c' : Cmd) (failure : Option (BitVec 16)) : Prop :=
  ∃ p st, c' = { c with phase := p, status := st }
    ∧ (∀ e, failure = some e → p = .ended ∧ st = e) ∧ (failure = none → p = .held ∨ p = .ready)

theorem State.unhold_eq (s : State) (c : Cmd) (h : c.phase = .held) :
    ∃ p, s.unhold c = { c with phase := p } ∧ (p = .held ∨ p = .ready) := by
  unfold unhold
  split
  · exact ⟨_, rfl, .inr rfl⟩
  · exact ⟨.held, by rw [← h], .inl rfl⟩

/-- The commands after an acceptance: the new one under its ticket. -/
theorem State.accept_cmds (s : State) (f r t : Nat) (e : Entry) :
    ∃ c, (s.accept f r t e).cmds = Table.insert s.cmds t c
      ∧ (s.entryCmd f r e).Accepted c (s.firstFailure (s.ring f r).rt (s.entryCmd f r e)) := by
  refine ⟨_, rfl, ?_⟩
  change Cmd.Accepted _ (match s.firstFailure (s.ring f r).rt (s.entryCmd f r e) with
    | some st => _
    | none => _) _
  cases s.firstFailure (s.ring f r).rt (s.entryCmd f r e) with
  | some st => exact ⟨_, _, rfl, fun e h => ⟨rfl, Option.some.inj h⟩, fun h => by cases h⟩
  | none =>
    obtain ⟨p, hp, hor⟩ := unhold_eq { s with order := s.order + 1, cmds := Table.insert s.cmds t (s.entryCmd f r e) }
      (s.entryCmd f r e) rfl
    exact ⟨p, 0, hp, fun e h => by (cases h), fun _ => hor⟩

/-- A ring's entry leaves the SQ: the scheduling memory, the idle time, the ring's head, the counters and the trace move on. -/
def State.takeEntry (s : State) (f r : Nat) (ten : Tenants) (rest : List Entry) : State :=
  (((({ s with tenants := ten, power := { s.power with idleTicks := 0 } } : State).updRing f r fun x => { x with
    fetched := rest
    sqHead := (x.sqHead + 1) % x.sqSize }).stat f 2 1).perfAdd 42 1).traceEmit 2 (some f) false 0x10 f r (s.ring f r).seq

/-- What `takeEntry` changes, and what it leaves of the ring and of the function. -/
theorem State.takeEntry_frame (s : State) (f r : Nat) (ten : Tenants) (rest : List Entry) :
    ∃ rings fns perf trace, s.takeEntry f r ten rest = { s with
        tenants := ten, power := { s.power with idleTicks := 0 }, rings := rings, fns := fns, perf := perf, trace := trace }
      ∧ Table.get {} rings (ringKey f r)
        = { s.ring f r with fetched := rest, sqHead := ((s.ring f r).sqHead + 1) % (s.ring f r).sqSize }
      ∧ (Table.get {} fns f).hwin = (s.fnSt f).hwin ∧ (Table.get {} fns f).dwin = (s.fnSt f).dwin := by
  obtain ⟨tr, h⟩ := (((({ s with tenants := ten, power := { s.power with idleTicks := 0 } } : State).updRing f r fun x => { x with
    fetched := rest
    sqHead := (x.sqHead + 1) % x.sqSize }).stat f 2 1).perfAdd 42 1).traceEmit_frame 2 (some f) false 0x10 f r (s.ring f r).seq
  have hhw : ((s.stat f 2 1).fnSt f).hwin = (s.fnSt f).hwin := by rw [stat, fnSt_updFn]
  have hdw : ((s.stat f 2 1).fnSt f).dwin = (s.fnSt f).dwin := by rw [stat, fnSt_updFn]
  refine ⟨(s.updRing f r fun x => { x with fetched := rest, sqHead := (x.sqHead + 1) % x.sqSize }).rings, (s.stat f 2 1).fns,
    (s.perfAdd 42 1).perf, tr, h.trans ?_, ?_, ?_, ?_⟩
  · rfl
  · exact Table.get_set_self
  · exact hhw
  · exact hdw

/-- An entry's checks ask for none of what `takeEntry` changes. -/
theorem State.firstFailure_congr (s : State) (ten : Tenants) (power : Power) (rings : Table Ring) (fns : Table FnSt)
    (perf : Table Nat) (trace : Trace) (rt : Bool) (c : Cmd) :
    ({ s with tenants := ten, power := power, rings := rings, fns := fns, perf := perf, trace := trace } : State).firstFailure rt c
      = s.firstFailure rt c := rfl

/-- The command that the entry becomes, its ring's class and its checks are those of the state before. -/
theorem State.takeEntry_entryCmd (s : State) (f r : Nat) (ten : Tenants) (rest : List Entry) (e : Entry) :
    (s.takeEntry f r ten rest).entryCmd f r e = s.entryCmd f r e
      ∧ ((s.takeEntry f r ten rest).ring f r).rt = (s.ring f r).rt
      ∧ (∀ rt c, (s.takeEntry f r ten rest).firstFailure rt c = s.firstFailure rt c)
      ∧ (s.takeEntry f r ten rest).cmds = s.cmds := by
  obtain ⟨rings, fns, perf, trace, h, hring, hhw, hdw⟩ := s.takeEntry_frame f r ten rest
  rw [h]
  refine ⟨?_, ?_, fun rt c => firstFailure_congr s _ _ _ _ _ _ rt c, rfl⟩
  · simp only [entryCmd, ring, fnSt, hring, hhw, hdw]
    rfl
  · simp only [ring, hring]

theorem exec_entryAccept_of_turn {s : State} {f : FnId} {r : RingId} {e : Entry} {rest : List Entry} {ten : Tenants} {t : Nat}
    (hs : s.serves = true) (hturn : s.turn = some (ringKey f.val r.val, ten))
    (hf : (s.ring f.val r.val).fetched = e :: rest) (hfree : s.ticketFree f.val (s.ring f.val r.val).rt = true)
    (ht : lowest (fun k => (s.cmd? k).isNone) 768 = some t) :
    ∃ g, exec (.entryAccept f r) s
      = .next ((((s.takeEntry f.val r.val ten rest).accept f.val r.val t e).updRing f.val r.val g).ltrUpdate) := by
  refine ⟨fun x => { x with seq := x.seq + 1, bells := x.bells.drop 1 }, ?_⟩
  change execEntryAccept f r s = _
  unfold execEntryAccept
  simp only [State.cmd?] at ht
  simp only [hturn, hf, hs, hfree, State.cmd?, State.traceEmit_cmds, State.perfAdd_cmds, State.stat_cmds, State.updRing_cmds, ht]
  rw [if_neg (by simp)]
  rfl

@[simp] theorem State.ltrUpdate_cmds (s : State) : s.ltrUpdate.cmds = s.cmds := by
  obtain ⟨v, l, h⟩ := s.ltrUpdate_frame
  rw [h]

/-- Settles O20: the entry's command goes under the ticket, and its checks are made on the state before. -/
theorem anAcceptedEntryTakesTheLowestFreeTicket : Obligations.AnAcceptedEntryTakesTheLowestFreeTicket := by
  unfold Obligations.AnAcceptedEntryTakesTheLowestFreeTicket
  intro s f r e rest ten t hs hturn hf hfree ht
  obtain ⟨g, hexec⟩ := exec_entryAccept_of_turn hs hturn hf hfree ht
  obtain ⟨hcmd, hrt, hfail, hcmds⟩ := s.takeEntry_entryCmd f.val r.val ten rest e
  obtain ⟨c, hins, hacc⟩ := (s.takeEntry f.val r.val ten rest).accept_cmds f.val r.val t e
  rw [hcmd, hrt, hfail] at hacc
  rw [hcmds] at hins
  have hu : ((((s.takeEntry f.val r.val ten rest).accept f.val r.val t e).updRing f.val r.val g).ltrUpdate).cmds
      = Table.insert s.cmds t c := by rw [State.ltrUpdate_cmds, State.updRing_cmds, hins]
  obtain ⟨p, st, rfl, hended, hgoes⟩ := hacc
  refine ⟨_, { s.entryCmd f.val r.val e with phase := p, status := st }, hexec, ?_, fun k hk => ?_, rfl, rfl, rfl, rfl, rfl, ?_⟩
  · rw [State.cmd?, hu, Table.find_insert_self]
  · rw [State.cmd?, hu, Table.find_insert_ne hk]
    rfl
  · split
    next e he => exact hended e he
    next he => exact hgoes he

end Sys2Proof.Machine
end

section
/-!
PROOFS. Fences, moderation, completions, window commits and quota commits (R305, R306, R393, R396, R401, R406, R449).
-/

namespace Sys2Proof.Machine

/-! ## Fences and moderation (R401, R406) -/

/-- A lookup in a table whose values are changed one by one. -/
theorem Table.find_map {α : Type} (l : List (Nat × α)) (g : α → α) (k : Nat) :
    Table.find (l.map fun p => (p.1, g p.2)) k = (Table.find l k).map g := by
  induction l with
  | nil => rfl
  | cons p l ih =>
    simp only [List.map_cons, Table.find]
    split
    · rfl
    · exact ih

/-- What FENCE_RELEASE makes of one command. -/
def State.released (s : State) (f : FnId) (r : RingId) (c : Cmd) : Cmd :=
  if c.fn = f.val ∧ c.ring = r.val then s.unhold c else c

theorem State.released_eq (s : State) (f : FnId) (r : RingId) (c : Cmd) :
    s.released f r c = if c.fn = f.val ∧ c.ring = r.val ∧ c.phase = .held ∧ s.fenceBlocks c = false ∧ s.resetBlocks c = false
      then { c with phase := .ready } else c := by
  unfold released unhold
  simp only [Bool.not_eq_true']
  by_cases hr : c.fn = f.val ∧ c.ring = r.val
  · simp [hr]
  · rw [if_neg hr, if_neg (by tauto)]

theorem exec_fenceRelease_of_serves {s : State} {f : FnId} {r : RingId} (h : s.serves = true) :
    exec (.fenceRelease f r) s = .next { s with cmds := s.cmds.map fun p => (p.1, s.released f r p.2) } := by
  change execFenceRelease f r s = _
  rw [execFenceRelease, h]
  rfl

theorem State.announce_of_pending {s : State} {f r : Nat} (h : (s.ring f r).pend ≠ 0) :
    s.announce f r = (s.updRing f r fun y => { y with pend := 0 }).sendMsi f (s.ring f r).vector.toNat := by
  rw [announce, if_neg h]

/-- Settles O21: FENCE_RELEASE command by command; MODERATION_TIMEOUT by its three conditions. -/
theorem fencedCommandsAreDispatchedWhenNothingHoldsThem :
    Obligations.FencedCommandsAreDispatchedWhenNothingHoldsThem := by
  unfold Obligations.FencedCommandsAreDispatchedWhenNothingHoldsThem
  intro s f r x
  refine ⟨fun hs => ⟨_, exec_fenceRelease_of_serves hs, ?_, fun k c hc => ⟨_, ?_, s.released_eq f r c⟩⟩,
    fun hx hp hl ht => ?_, fun hx h => ?_⟩
  · rw [List.map_map]
    rfl
  · rw [Table.find_map, hc]
    rfl
  · subst hx
    refine Eq.trans (if_pos ⟨hp, hl, ht⟩) ?_
    rw [State.announce_of_pending hp]
  · subst hx
    refine if_neg ?_
    rintro ⟨hp, hl, ht⟩
    obtain h | h | h := h
    · exact hl h
    · exact hp h
    · rw [h] at ht
      cases ht

/-! ## Writing a completion (R393, R396) -/

section
variable {s : State} {t : Ticket} {c : Cmd} (h : s.cmd? t.val = some c)
include h

theorem exec_completionWrite_of_mayComplete (hs : s.serves = true) (hm : s.mayComplete c = true) (hmiss : c.miss = none)
    {w : State} (hw : w = s.writeCqe c.fn c.ring c.entry c.seq t.val c.status c.res0 c.res1) :
    exec (.completionWrite t) s = .next (({ w with cmds := Table.erase w.cmds t.val }.updRing c.fn c.ring
      fun x => ({ x with accepted := x.accepted - 1 } : Ring).settle).retarget) := by
  subst hw
  have hj : s.judge c = (s, c) := by rw [State.judge, hmiss]
  change Host.Outcome.next (s.completionWrite t.val) = _
  unfold State.completionWrite
  rw [h]
  dsimp only
  rw [if_neg (by simp [hs, hm]), hj]
  dsimp only
  rw [State.afterFrame, hmiss]

theorem exec_completionWrite_of_waiting (hw : s.serves = false ∨ s.mayComplete c = false) :
    exec (.completionWrite t) s = .next s := by
  change Host.Outcome.next (s.completionWrite t.val) = _
  unfold State.completionWrite
  rw [h]
  dsimp only
  rw [if_pos (by simpa using hw)]

end

/-- Settles O23: without a deadline there is no miss to judge and no capture buffer to free. -/
theorem aWrittenCompletionFreesItsTicket : Obligations.AWrittenCompletionFreesItsTicket := by
  unfold Obligations.AWrittenCompletionFreesItsTicket
  intro s w t c h
  exact ⟨fun hs hm hmiss hw => exec_completionWrite_of_mayComplete h hs hm hmiss hw,
    fun hm => exec_completionWrite_of_waiting h (.inr hm), fun hs => exec_completionWrite_of_waiting h (.inl hs)⟩

/-! ## Window commits (R305, R306) -/

/-- A commit takes the staged window, unless it would enable one that ends before it begins. -/
theorem HWin.commit_of_ok {w : HWin} {v : Word} (h : bitOf v 0 = false ∨ w.sbase ≤ w.slimit) :
    w.commit v = { w with base := w.sbase, limit := w.slimit, en := bitOf v 0, rd := bitOf v 1, wr := bitOf v 2, ns := bitOf v 3 } := by
  refine if_neg ?_
  rw [Bool.and_eq_true, decide_eq_true_iff]
  rintro ⟨hen, hlt⟩
  obtain h | h := h
  · rw [h] at hen
    cases hen
  · exact absurd hlt (BitVec.not_lt.2 h)

theorem HWin.commit_of_refused {w : HWin} {v : Word} (hen : bitOf v 0 = true) (hlt : w.slimit < w.sbase) : w.commit v = w :=
  if_pos (by simp [hen, hlt])

section
variable {s : State} {f i : Nat} {v : Word}

theorem State.hwinCtlWrite_of_not_normal (h : s.barMode f ≠ .normal) : s.hwinCtlWrite f i v = s := if_pos h

theorem State.hwinCtlWrite_of_normal (h : s.barMode f = .normal) :
    s.hwinCtlWrite f i v = s.updFn f fun x => { x with hwin := Table.upd {} x.hwin i fun w => w.commit v } :=
  if_neg (by simp [h])

theorem State.dwinCommit_of_not_normal (h : s.barMode 0 ≠ .normal) : s.dwinCommit v = s := if_pos h

/-- What `stagedOk` asks of the staged device window. -/
theorem Addr.stagedOk_iff (a : Addr) :
    a.stagedOk = true ↔ a.stBase ≤ a.stLimit ∧ 4096 * (a.stLimit.toNat + 1) ≤ 1048576 * a.top.toNat := by
  simp only [stagedOk, Bool.and_eq_true, decide_eq_true_iff]

theorem State.dwinCommit_of_refused (h : s.barMode 0 = .normal) (hen : bitOf v 0 = true) (hs : s.addr.stagedOk = false) :
    s.dwinCommit v = s := by
  rw [dwinCommit, if_neg (by simp [h]), if_pos (by simp [hen, hs])]

theorem State.dwinCommit_of_ok (h : s.barMode 0 = .normal) (hs : bitOf v 0 = false ∨ s.addr.stagedOk = true) :
    s.dwinCommit v = s.updFn s.addr.selFn.toNat fun x => { x with
      dwin := Table.set {} x.dwin s.addr.selWin.toNat
        { base := s.addr.stBase, limit := s.addr.stLimit, en := bitOf v 0, rd := bitOf v 1, wr := bitOf v 2 } } := by
  rw [dwinCommit, if_neg (by simp [h]), if_neg (by obtain h | h := hs <;> simp [h])]

end

/-- A change of one host window leaves every other. -/
theorem State.hwin_updHwin_ne (s : State) {f i g j : Nat} (k : HWin → HWin) (h : g ≠ f ∨ j ≠ i) :
    Table.get {} ((s.updFn f fun x => { x with hwin := Table.upd {} x.hwin i k }).fnSt g).hwin j
      = Table.get {} (s.fnSt g).hwin j := by
  by_cases hg : g = f
  · subst hg
    rw [fnSt_updFn]
    exact Table.get_set_ne _ (h.resolve_left fun hn => hn rfl)
  · rw [fnSt_updFn_ne _ _ hg]

theorem State.hwin_updHwin (s : State) (f i : Nat) (k : HWin → HWin) :
    Table.get {} ((s.updFn f fun x => { x with hwin := Table.upd {} x.hwin i k }).fnSt f).hwin i
      = k (Table.get {} (s.fnSt f).hwin i) := by
  rw [fnSt_updFn]
  exact Table.get_set_self

/-- Settles O24: BAR 0's service first, then the commit of the one window. -/
theorem windowCommitsReplaceOneWindow : Obligations.WindowCommitsReplaceOneWindow := by
  unfold Obligations.WindowCommitsReplaceOneWindow
  intro s f i v
  refine ⟨fun h => ?_, fun h => ?_, fun h => ?_, fun h => ?_, fun h =>
    ⟨s.updFn f.val fun x => { x with hwin := Table.upd {} x.hwin i.val fun w => w.commit v }, ?_, rfl, fun w hw => ⟨fun g j hne => ?_, fun hok => ?_,
    fun hen hlt => ?_⟩⟩, fun h hen hst => ?_, fun h hst => ?_⟩
  · exact congrArg Host.Outcome.next (State.barRow_of_unsupported h)
  · exact congrArg Host.Outcome.next (State.barRow_of_alwaysOn h State.hwinCtlWrite_of_not_normal)
  · exact congrArg Host.Outcome.next (State.barRow_of_unsupported h)
  · exact congrArg Host.Outcome.next (State.barRow_of_alwaysOn h State.dwinCommit_of_not_normal)
  · exact congrArg Host.Outcome.next ((State.barRow_of_normal h).trans (State.hwinCtlWrite_of_normal h))
  · exact s.hwin_updHwin_ne _ hne
  · rw [s.hwin_updHwin, ← hw, HWin.commit_of_ok hok]
  · rw [s.hwin_updHwin, ← hw, HWin.commit_of_refused hen hlt]
  · rw [← Addr.stagedOk_iff, Bool.not_eq_true] at hst
    exact congrArg Host.Outcome.next ((State.barRow_of_normal h).trans (State.dwinCommit_of_refused h hen hst))
  · rw [← Addr.stagedOk_iff] at hst
    exact congrArg Host.Outcome.next ((State.barRow_of_normal h).trans (State.dwinCommit_of_ok h hst))

/-! ## Quota commits (R449) -/

section
variable {s : State}

theorem State.quotaCommit_of_not_normal (h : s.barMode 0 ≠ .normal) : s.quotaCommit = s := if_pos h

variable {f : Nat} {q : Quota} (h : s.barMode 0 = .normal) (hf : f = s.tenants.selFn.toNat)
  (hq : q = quotaOf s.quotaWords.1 s.quotaWords.2)
include h hf hq

theorem State.quotaCommit_of_refused (hr : s.quotaRefused f q = true) :
    s.quotaCommit = { s with tenants := { s.tenants with refused := true, stA := none, stB := none } } := by
  subst hf hq
  rw [quotaCommit, if_neg (by simp [h])]
  exact if_pos hr

theorem State.quotaCommit_of_accepted (hr : s.quotaRefused f q = false) :
    s.quotaCommit = { s.updFn f fun x => { x with
        quota := q, ringsHeld := if s.fnExists f then q.rings else x.ringsHeld } with
      tenants := { s.tenants with stA := none, stB := none }
      rings := s.rings.filter fun p => !(p.1 / 256 == f && decide (q.rings ≤ p.1 % 256)) } := by
  subst hf hq
  rw [quotaCommit, if_neg (by simp [h])]
  exact if_neg (by simp [hr])

end

/-- Settles O25: BAR 0's service first, then whether the commit is refused. -/
theorem aQuotaCommitIsWholeOrRefused : Obligations.AQuotaCommitIsWholeOrRefused := by
  unfold Obligations.AQuotaCommitIsWholeOrRefused
  intro s f q
  refine ⟨fun h => ?_, fun h => ?_, fun h hf hq => ⟨fun hr => ?_, fun hr => ?_⟩⟩
  · exact congrArg Host.Outcome.next (State.barRow_of_unsupported h)
  · exact congrArg Host.Outcome.next (State.barRow_of_alwaysOn h State.quotaCommit_of_not_normal)
  · exact congrArg Host.Outcome.next ((State.barRow_of_normal h).trans (State.quotaCommit_of_refused h hf hq hr))
  · exact congrArg Host.Outcome.next ((State.barRow_of_normal h).trans (State.quotaCommit_of_accepted h hf hq hr))

end Sys2Proof.Machine
end

section
/-!
PROOFS. The watchdog (R535 to R544), the governors and the droop sensors (R33 to R39).
-/

namespace Sys2Proof.Machine

/-! ## The watchdog's service (R535 to R540) -/

theorem Watchdog.nextChallenge_ne_zero (w : Watchdog) : w.nextChallenge ≠ 0 := by
  unfold nextChallenge
  split
  · decide
  · assumption

section
variable {s : State}

theorem execWdChallenge_of_closed (h : s.windowOpen = false) : execWdChallenge s = ok s := by
  simp [execWdChallenge, h]

variable {token : Word} {value : BitVec 16}

theorem execWdResponse_of_zero (h : s.wd.count = 0) : execWdResponse token s = ok s := if_pos (.inr h)

theorem execWdResponse_of_unarmed (h : s.wdServable = true) (hc : s.wd.count ≠ 0) (ha : s.wd.armLeft = none) :
    execWdResponse token s = ok (s.wdExpire 1) := by
  rw [execWdResponse, if_neg (by simp [h, hc]), ha]

theorem execWdResponse_of_armed {n : Nat} (h : s.wdServable = true) (hc : s.wd.count ≠ 0) (ha : s.wd.armLeft = some n) :
    execWdResponse token s =
      if token = wdToken s.wd.challenge s.fuses.salt then ok { s with wd := s.wd.serve } else ok (s.wdExpire 2) := by
  rw [execWdResponse, if_neg (by simp [h, hc]), ha]

theorem execWdPeriodSet_of_refused (h : s.wdServable = true) (hv : s.windowOpen = false ∨ value.toNat < 8) :
    execWdPeriodSet value s = ok { s with wd := { s.wd with periodRefused := true } } := by
  rw [execWdPeriodSet, if_neg (by simp [h]), if_neg (by rcases hv with hv | hv <;> simp [hv])]

end

/-- Settles O28: the service of the watchdog by the window, the arming and the token. -/
theorem watchdogServiceStartsANewPeriod : Obligations.WatchdogServiceStartsANewPeriod := by
  unfold Obligations.WatchdogServiceStartsANewPeriod
  intro s tok v
  refine ⟨fun h ho => ⟨s.wd.nextChallenge, s.wd.nextChallenge_ne_zero, if_pos (by simp [h, ho])⟩,
    execWdChallenge_of_closed, fun n h hc ha ht => (execWdResponse_of_armed h hc ha).trans (if_pos ht),
    fun n h hc ha ht => (execWdResponse_of_armed h hc ha).trans (if_neg ht), execWdResponse_of_unarmed,
    execWdResponse_of_zero, fun h ho hv => ?_, execWdPeriodSet_of_refused,
    fun h => ⟨if_neg (by simp [h]), if_pos (by simp [h]), if_pos (by simp [h])⟩⟩
  change execWdPeriodSet v s = _
  rw [execWdPeriodSet, if_neg (by simp [h]), if_pos (by simp [ho, hv])]

/-! ## Its expiries (R541 to R544) -/

section
variable {s : State}

theorem execWdFirstExpiry_of_idle (h : s.wdLive = false ∨ s.wd.count ≠ 0) : execWdFirstExpiry s = ok s :=
  if_neg (by rcases h with h | h <;> simp [h])

theorem execWdSecondExpiry_of_idle (h : s.wdLive = false ∨ s.wd.count ≠ 0) : execWdSecondExpiry s = ok s :=
  if_neg (by rcases h with h | h <;> simp [h])

theorem execWdSecondExpiry_of_warned (h : s.wdLive = true) (hc : s.wd.count = 0) (hw : s.wd.warned = true) :
    execWdSecondExpiry s = ok s.wdSecond := if_pos (by simp [h, hc, hw])

theorem execWdWarnEntry_of_due {p : Bytes} (h : s.wd.warnDue = some p) (hf : s.fwRuns = true) : execWdWarnEntry s =
    ok (({ s with wd := { s.wd with warnDue := none, warnLeft := none } }).logEvent 0x60 devByte p [.dev Trb.wdWarn.bit]) := by
  rw [execWdWarnEntry, h]
  exact if_pos hf

end

/-- Settles O29: each expiry by the state of the watchdog at it, and the events that follow it. -/
theorem expiriesWarnAndThenAct : Obligations.ExpiriesWarnAndThenAct := by
  unfold Obligations.ExpiriesWarnAndThenAct
  intro s
  refine ⟨fun h hc hw => if_pos (by simp [h, hc, hw]), fun h hc hw hp => ?_, fun h hc hw hp => ?_,
    fun h => ⟨execWdFirstExpiry_of_idle h, execWdSecondExpiry_of_idle h⟩, fun p h hf => execWdWarnEntry_of_due h hf,
    fun h => if_pos h, fun h => if_pos h, ?_⟩
  · exact (execWdSecondExpiry_of_warned h hc hw).trans (congrArg ok (if_neg (by simp [hp])))
  · exact (execWdSecondExpiry_of_warned h hc hw).trans (congrArg ok (if_pos hp))
  · rintro us rfl
    exact ⟨fun h => if_pos h, fun h => if_neg (ne_true_of_eq_false h)⟩

/-! ## Governors (R33, R34) -/

section
variable (s : State) (q : Nat) (g : Governor) (why : Nat)

theorem State.setGov_pace : (s.setGov q g why).pace = { s.pace with gov := Table.set {} s.pace.gov q g } := by
  unfold setGov
  dsimp only
  split <;> simp

@[simp] theorem State.gov_setGov : (s.setGov q g why).gov q = g := by
  simp [gov, setGov_pace, Table.get_set_self]

theorem State.gov_setGov_ne {p : Nat} (h : p ≠ q) : (s.setGov q g why).gov p = s.gov p := by
  simp [gov, setGov_pace, Table.get_set_ne _ h]

end

section
variable {s : State} {q d0 why : Nat}

theorem State.govern_of_le (h : s.paceDemand q ≤ (s.gov q).k) :
    (s.govern q d0 why).gov q = { k := s.paceDemand q, phase := .steady } := by
  unfold govern
  dsimp only
  rw [if_pos h]
  split
  next e =>
    obtain ⟨hk, hp⟩ := e
    generalize s.paceDemand q = d at *
    generalize s.gov q = g at *
    obtain ⟨k, ph⟩ := g
    cases hk
    cases hp
    rfl
  next => simp

theorem State.govern_of_rise (h : (s.gov q).k < s.paceDemand q) : s.govern q d0 why =
    if d0 < s.paceDemand q then s.setGov q { s.gov q with phase := .hold } why else s := if_neg (by omega)

theorem State.rampStep_gov : (s.rampStep q).gov q = {
    k := min ((s.gov q).k + 1) (s.paceDemand q)
    phase := if min ((s.gov q).k + 1) (s.paceDemand q) < s.paceDemand q then .ramp else .steady } := gov_setGov ..

theorem State.rampStep_gov_ne {p : Nat} (h : p ≠ q) : (s.rampStep q).gov p = s.gov p := gov_setGov_ne _ _ _ _ h

end

/-- Settles O30: what governing and a ramp step leave in the governor. -/
theorem aGovernorTakesTheSmallestDemand : Obligations.AGovernorTakesTheSmallestDemand := by
  unfold Obligations.AGovernorTakesTheSmallestDemand
  intro s q
  refine ⟨rfl, fun d0 why => ⟨fun h => ?_, fun h => ⟨?_, fun hd => ?_⟩⟩,
    fun h => ⟨s.rampStep q.val, if_pos h, State.rampStep_gov, fun p => State.rampStep_gov_ne⟩,
    fun h => ⟨s.rampStep q.val, if_pos h, State.rampStep_gov, fun p => State.rampStep_gov_ne⟩,
    fun h => ⟨if_neg (by simp [h]), if_neg (by simp [h])⟩, rfl⟩
  · rw [State.govern_of_le h]
    exact ⟨rfl, rfl⟩
  · rw [State.govern_of_rise h]
    split <;> simp
  · rw [State.govern_of_rise h, if_pos hd, State.gov_setGov]

/-- Settles O31: each droop event is the change of its sensor or pin and what the governors make of it. -/
theorem droopRaisesTheLevelOfItsQuadrant : Obligations.DroopRaisesTheLevelOfItsQuadrant := by
  unfold Obligations.DroopRaisesTheLevelOfItsQuadrant
  intro s i b
  refine ⟨⟨_, rfl, rfl⟩, ⟨_, rfl, rfl⟩, ⟨_, rfl, rfl⟩, ⟨_, rfl, rfl⟩, ?_⟩
  change execDroopInFall true s = _ ∨ execDroopInFall true s = _
  rw [execDroopInFall, if_pos rfl]
  split
  · exact .inr rfl
  · exact .inl rfl

end Sys2Proof.Machine
end

section
/-!
PROOFS. Rest levels and waking (R496 to R509).
-/

namespace Sys2Proof.Machine

/-! ## Rest levels and waking (R496, R504, R546) -/

section
variable (s old : State)

theorem State.refreshDoms_power : ∃ d, (s.refreshDoms old).power = { s.power with dom := d } := by
  obtain ⟨_, _, _, d, h⟩ := s.refreshDoms_frame old
  exact ⟨d, by rw [h]⟩

theorem State.ltrUpdate_power : ∃ v, s.ltrUpdate.power = { s.power with ltrSent := v } := by
  obtain ⟨v, _, h⟩ := s.ltrUpdate_frame
  exact ⟨v, by rw [h]⟩

@[simp] theorem State.ltrUpdate_wd : s.ltrUpdate.wd = s.wd := by
  obtain ⟨_, _, h⟩ := s.ltrUpdate_frame
  rw [h]

variable {s}

theorem State.wake_of_awake {src : Nat} (h : s.power.level = 0) :
    s.wake src = { s with power := { s.power with idleTicks := 0 } } := if_pos h

theorem State.wake_of_rest {src : Nat} (h : s.power.level ≠ 0) :
    (s.wake src).power.level = 0 ∧ (s.wake src).power.wake = s.power.wake ||| (1 <<< src) ∧ (s.wake src).wd = s.wd.fresh := by
  rw [wake, if_neg h]
  dsimp only
  generalize ht : ({ s.traceEmit 0 none true 0x05 0 src 0 with
    power := _, wd := _ } : State) = t
  obtain ⟨d, hd⟩ := t.refreshDoms_power s
  obtain ⟨v, hv⟩ := (t.refreshDoms s).ltrUpdate_power
  rw [hv, hd, ltrUpdate_wd, refreshDoms_wd, ← ht]
  simp

theorem State.mayRest_eq_false (h : s.idle = false ∨ s.target < s.power.level + 1
    ∨ 5 * s.power.idleTicks < 192 * s.power.dwellUs (s.power.level + 1)) : s.mayRest = false := by
  rcases h with h | h | h
  · simp [mayRest, h]
  · simp [mayRest, Nat.not_le_of_lt h]
  · simp [mayRest, h]

theorem execRestEnter_of_not_rest (h : s.mayRest = false) : execRestEnter s = ok s := if_neg (by simp [h])

theorem execPd1AloneExit_of_rl4 (h : s.power.level = 4) : execPd1AloneExit s =
    ok (({ s with power := { s.leaveL1.power with pd1Alone := true, linkL12 := false } } : State).refreshDoms s) := by
  rw [execPd1AloneExit, if_pos h]
  obtain ⟨p, hp⟩ := s.leaveL1_frame
  rw [hp]

end

/-- Settles O33: the conditions of each rest and link command, and the wake of R504. -/
theorem restAndWakeFollowTheLatencyContract : Obligations.RestAndWakeFollowTheLatencyContract := by
  unfold Obligations.RestAndWakeFollowTheLatencyContract
  intro s w
  refine ⟨fun hi ht hd hc => ⟨_, rfl, ?_⟩, fun h => ?_, fun h => congrArg ok (State.wake_of_awake h),
    fun h => ⟨s.wake w.val, rfl, State.wake_of_rest h⟩, fun h => ⟨_, rfl, execPd1AloneExit_of_rl4 h⟩,
    fun h => ⟨if_neg h, if_neg fun k => h k.1⟩, fun h hp hl => if_pos ⟨h, hp, by simp [hl]⟩,
    fun h => ⟨_, rfl, if_neg (by simp [h])⟩, ⟨_, rfl, rfl⟩, fun h ha hr => if_pos (by simp [h, ha, hr]), fun h => ?_,
    fun h => if_pos (by simp [h])⟩
  · change execRestEnter s = _
    rw [execRestEnter, if_pos (by simpa [State.mayRest, hi, ht, hd] using hc)]
    simp only [Nat.reduceEqDiff, ok]
    split <;> rfl
  · rcases h with h | h | h | ⟨h, hc⟩
    · exact execRestEnter_of_not_rest (State.mayRest_eq_false (.inl h))
    · exact execRestEnter_of_not_rest (State.mayRest_eq_false (.inr (.inl h)))
    · exact execRestEnter_of_not_rest (State.mayRest_eq_false (.inr (.inr h)))
    · exact if_neg (by simp [h, hc])
  · refine if_neg ?_
    rcases h with h | h | h <;> simp [h]

end Sys2Proof.Machine
end

section
/-!
PROOFS. What a reset and the start of a boot leave, and the events that cause them (R343, R531, R641, R653, R654).
-/

namespace Sys2Proof.Machine

/-! ## What the entries, events and governors of a reset leave alone (Table 19-7, R654) -/

/-- `t` is `s` in its boot state, pins, commands, time base and link: what raising events, writing entries and
restarting governors leave as they are. -/
structure State.LivesAs (s t : State) : Prop where
  life : t.life = s.life
  pins : t.pins = s.pins
  cmds : t.cmds = s.cmds
  pcie : ∃ c, t.pcie = { s.pcie with evtCause := c }

theorem State.LivesAs.refl (s : State) : s.LivesAs s := ⟨rfl, rfl, rfl, s.pcie.evtCause, rfl⟩

theorem State.LivesAs.trans {s t u : State} (h : s.LivesAs t) (k : t.LivesAs u) : s.LivesAs u := by
  obtain ⟨c, hc⟩ := h.pcie
  obtain ⟨d, hd⟩ := k.pcie
  exact ⟨k.life.trans h.life, k.pins.trans h.pins, k.cmds.trans h.cmds, d, by rw [hd, hc]⟩

section
variable (s : State)

theorem State.raiseDevEvt_livesAs (b : Nat) : s.LivesAs (s.raiseDevEvt b) := by
  obtain ⟨_, _, _, c, h⟩ := s.raiseDevEvt_frame b
  exact ⟨by rw [h], by rw [h], by rw [h], c, by rw [h]⟩

theorem State.setTrb_livesAs (b : Trb) : s.LivesAs (s.setTrb b) := by
  obtain ⟨_, _, _, c, _, h⟩ := s.setTrb_frame b
  exact ⟨by rw [h], by rw [h], by rw [h], c, by rw [h]⟩

theorem State.logEvent_livesAs (kind : Nat) (fn : BitVec 8) (payload : Bytes) (bits : List TrbRef) :
    s.LivesAs (s.logEvent kind fn payload bits) := by
  obtain ⟨_, _, _, c, _, h⟩ := s.logEvent_frame kind fn payload bits
  exact ⟨by rw [h], by rw [h], by rw [h], c, by rw [h]⟩

theorem State.pace_livesAs (p : Pace) : s.LivesAs { s with pace := p } := ⟨rfl, rfl, rfl, s.pcie.evtCause, rfl⟩

theorem State.droopEntry_livesAs (q l0 source : Nat) : s.LivesAs (s.droopEntry q l0 source) := by
  unfold droopEntry
  dsimp only
  split_ifs
  · exact s.pace_livesAs _
  · exact (s.pace_livesAs _).trans (logEvent_livesAs ..)
  · exact .refl s

theorem State.thermWarn_livesAs : s.LivesAs s.thermWarn := by
  unfold thermWarn
  split
  · exact (s.pace_livesAs _).trans (raiseDevEvt_livesAs ..)
  · exact .refl s

theorem State.paceRestart_livesAs : s.LivesAs s.paceRestart := s.pace_livesAs _

theorem State.paceReenter_livesAs (old : State) : s.LivesAs (s.paceReenter old) := by
  have key : ∀ (l : List Nat) (t : State),
      t.LivesAs (l.foldl (fun (t : State) q => t.droopEntry q (old.droopLevel q) (t.droopSource q)) t) := by
    intro l
    induction l with
    | nil => exact .refl
    | cons q l ih => exact fun t => (t.droopEntry_livesAs ..).trans (ih _)
  exact (s.pace_livesAs _).trans (key ..)

theorem State.islandLevels_livesAs : s.LivesAs s.islandLevels := by
  unfold islandLevels
  split
  · exact (s.setTrb_livesAs _).trans (setTrb_livesAs ..)
  · exact .refl s

/-! ## Resets and boots -/

variable (c : ResetClass)

/-- What a reset leaves: the boot state of its class, the pins but WDT_OUT_N after class P, and no command. -/
theorem State.resetDev_facts (cause : ResetCause) (ph : Phase) :
    (s.resetDev c cause ph).life = s.resetLife c cause ph
      ∧ (s.resetDev c cause ph).pins = { s.pins with wdtOutN := s.pins.wdtOutN || decide (c = .P) }
      ∧ (s.resetDev c cause ph).cmds = [] := by
  unfold resetDev
  dsimp only
  generalize ha : State.stampStats _ = a
  have h := (a.paceReenter_livesAs s).trans (thermWarn_livesAs _)
  rw [h.life, h.pins, h.cmds, ← ha]
  exact ⟨rfl, rfl, rfl⟩

/-- What the start of a boot leaves: its phase, its start and the chip that it samples, the pins and the link. -/
theorem State.startBoot_facts : (s.startBoot c).life = { s.life with
        phase := .boot c, bootStart := s.time, chipId := if c = .P ∨ c = .E then s.pins.chipId else s.life.chipId }
      ∧ (s.startBoot c).pins = s.pins ∧ ∃ v, (s.startBoot c).pcie = { s.pcie with evtCause := v } := by
  unfold startBoot
  generalize ha : ({ s.paceRestart with life := _ } : State) = a
  have h := a.thermWarn_livesAs.trans (islandLevels_livesAs _)
  obtain ⟨v, hv⟩ := h.pcie
  rw [h.life, h.pins, hv, ← ha]
  exact ⟨rfl, rfl, v, rfl⟩

variable {s}

theorem State.enterPor_of_por (h : s.life.phase = .por) : s.enterPor = s := if_pos h

theorem State.enterPor_facts (h : s.life.phase ≠ .por) :
    s.enterPor.life.phase = .por ∧ s.enterPor.life.tripped = s.life.tripped
      ∧ s.enterPor.pins = { s.pins with wdtOutN := true } ∧ s.enterPor.cmds = [] := by
  obtain ⟨hl, hp, hc⟩ := s.resetDev_facts .P s.life.cause .por
  rw [enterPor, if_neg h]
  dsimp only
  rw [hl, hp, hc]
  exact ⟨rfl, rfl, by simp, rfl⟩

/-- After a POR that takes VDD_AON (R653, R659). -/
theorem State.loseAon_enterPor_facts :
    s.loseAon.enterPor.life.phase = .por ∧ s.loseAon.enterPor.life.tripped = false
      ∧ s.loseAon.enterPor.pins.vddAon = false ∧ s.loseAon.enterPor.pins.thermTripN = true
      ∧ (s.life.phase ≠ .por → s.loseAon.enterPor.cmds = []) := by
  by_cases h : s.life.phase = .por
  · rw [enterPor_of_por (s := s.loseAon) h]
    exact ⟨h, rfl, rfl, rfl, fun k => absurd h k⟩
  · obtain ⟨hl, ht, hp, hc⟩ := enterPor_facts (s := s.loseAon) h
    exact ⟨hl, ht, by rw [hp]; rfl, by rw [hp]; rfl, fun _ => hc⟩

theorem execSuppliesValid_of_test_low {t r : State} (h : s.life.phase = .por) (ht : s.pins.testEn = false)
    (et : t = { s with pins := { s.pins with supplies := true, vddAon := true } })
    (er : r = t.resetDev .P t.life.cause (.held .P)) :
    execSuppliesValid s = if r.pins.perstN then ok (r.startBoot .P) else ok r := by
  subst er et
  rw [execSuppliesValid, if_neg (by simp [h])]
  exact if_neg (by simp [ht])

theorem execSuppliesValid_of_por (h : s.life.phase = .por) (ht : s.pins.testEn = false) :
    ∃ u, execSuppliesValid s = ok u ∧ u.pins.supplies = true
      ∧ u.life.phase = if s.pins.perstN then .boot .P else .held .P := by
  obtain ⟨t, et⟩ : ∃ t : State, t = { s with pins := { s.pins with supplies := true, vddAon := true } } := ⟨_, rfl⟩
  obtain ⟨r, er⟩ : ∃ r, r = t.resetDev .P t.life.cause (.held .P) := ⟨_, rfl⟩
  obtain ⟨hl, hp, -⟩ := t.resetDev_facts .P t.life.cause (.held .P)
  rw [← er] at hl hp
  have hr : r.pins.perstN = s.pins.perstN := by rw [hp, et]
  have hs : r.pins.supplies = true := by rw [hp, et]
  rw [execSuppliesValid_of_test_low h ht et er, hr]
  cases s.pins.perstN
  · exact ⟨r, rfl, hs, by rw [hl]; rfl⟩
  · obtain ⟨bl, bp, -⟩ := r.startBoot_facts .P
    exact ⟨_, rfl, by rw [bp, hs], by rw [bl]; rfl⟩

theorem State.resetE_of_held {cause : ResetCause} (h : s.life.phase = .por ∨ s.life.phase = .held .P) : s.resetE cause = s :=
  if_pos h

theorem State.resetE_of_ne {cause : ResetCause} (h : s.life.phase ≠ .por) (k : s.life.phase ≠ .held .P) :
    s.resetE cause = s.resetDev .E cause (.held .E) := if_neg (by simp [h, k])

theorem execPerstNRelease_of_held {chip : BitVec 2} (h : s.pins.perstN = false) (hs : s.life.phase = .held c)
    (hc : c = .P ∨ c = .E) : execPerstNRelease chip s =
      ok (({ s with pins := { s.pins with perstN := true, chipId := chip } } : State).startBoot c) := by
  rw [execPerstNRelease, if_neg (by simp [h])]
  rcases hc with rfl | rfl
  · exact if_pos hs
  · exact (if_neg (by simp [hs])).trans (if_pos hs)

theorem execPerstNRelease_of_no_boot {chip : BitVec 2}
    (h : s.pins.perstN = true ∨ (s.life.phase ≠ .held .P ∧ s.life.phase ≠ .held .E)) :
    execPerstNRelease chip s = ok { s with pins := { s.pins with perstN := true, chipId := chip } } := by
  unfold execPerstNRelease
  dsimp only
  split
  next => rfl
  next hp =>
    obtain h | ⟨h, k⟩ := h
    · exact absurd h hp
    · rw [if_neg h, if_neg k]

theorem execDlActive_of_trained {speed : BitVec 4} {width : BitVec 5} (hp : s.life.phase ≠ .por) (hs : s.pins.perstN = true)
    (hd : s.pcie.dlActive = false) (ht : trainable speed width = true) : execDlActive speed width s =
      if s.life.phase = .held .E then ok ((s.linkUp speed width).startBoot .E) else ok (s.linkUp speed width) :=
  if_neg (by simp [hp, hs, hd, ht])

theorem execFwNotReadyTimeout_of_boot (h : s.life.phase = .boot c) : execFwNotReadyTimeout s =
    if s.usSince s.life.bootStart 900000 then
      ok (({ s with
        life := { s.life with phase := .romOnly }
        pcie := { s.pcie with crs := false }
        wd := { s.wd with stopped := true } } : State).setTrb .fwNotReady)
    else ok s := by
  rw [execFwNotReadyTimeout, h]

theorem State.softReset_of_not_normal (h : s.barMode 0 ≠ .normal) : s.softReset = s := if_neg h

end

/-- Settles O35: each event by the phase that the device is in. -/
theorem suppliesAndPinsResetAndBoot : Obligations.SuppliesAndPinsResetAndBoot := by
  unfold Obligations.SuppliesAndPinsResetAndBoot
  intro s chip cause sp wd
  refine ⟨fun h => ⟨_, rfl, ?_⟩, ⟨_, rfl, ?_⟩, fun h => ⟨_, rfl, ?_⟩, fun h => ⟨?_, ?_⟩, execSuppliesValid_of_por,
    fun h ht => ?_, fun h => if_pos h, fun h hp => ⟨?_, fun hd => ?_⟩, fun h => ⟨?_, ?_⟩, fun h => if_neg (by simp [h]),
    fun k hp hk hc => ⟨_, execPerstNRelease_of_held k hp hk hc, ?_⟩, execPerstNRelease_of_no_boot,
    fun hp hd ht h => ⟨_, (execDlActive_of_trained (by simp [h]) hp hd ht).trans (if_pos h), ?_⟩, fun h => ?_,
    fun hp he hs hd ht => (execDlActive_of_trained hp hs hd ht).trans (if_neg he), fun h => ?_, fun h => ?_, fun h => ?_,
    fun k h hu => ⟨_, rfl, (execFwNotReadyTimeout_of_boot k h).trans (if_pos hu)⟩,
    fun k h hu => (execFwNotReadyTimeout_of_boot k h).trans (if_neg (by simp [hu])), fun h => ?_⟩
  · obtain ⟨hl, -, -, hc⟩ := State.enterPor_facts h
    exact ⟨hl, rfl, hc⟩
  · obtain ⟨hl, ht, hv, hn, hc⟩ := s.loseAon_enterPor_facts
    exact ⟨hl, rfl, hv, ht, hn, hc⟩
  · obtain ⟨hl, -, -, hc⟩ := State.enterPor_facts h
    exact ⟨hl, rfl, hc⟩
  · change ok { s.enterPor with pins := { s.enterPor.pins with supplies := false } } = _
    rw [State.enterPor_of_por h]
  · change ok { s.enterPor with pins := { s.enterPor.pins with testEn := true } } = _
    rw [State.enterPor_of_por h]
  · exact (if_neg (by simp [h])).trans (if_pos ht)
  · exact congrArg ok (State.resetE_of_ne h hp)
  · exact (if_pos hd).trans (congrArg ok (State.resetE_of_ne h hp))
  · exact congrArg ok (State.resetE_of_held h)
  · change (if s.pcie.dlActive then ok (s.resetE (fallCause cause)) else ok s) = _
    rw [State.resetE_of_held h, ite_self]
  · obtain ⟨hl, hpin, -⟩ := State.startBoot_facts { s with pins := { s.pins with perstN := true, chipId := chip } } k
    rw [hl, hpin]
    exact ⟨rfl, if_pos hc, rfl, rfl⟩
  · obtain ⟨hl, -, v, hv⟩ := (s.linkUp sp wd).startBoot_facts .E
    rw [hl, hv]
    exact ⟨rfl, rfl, rfl, rfl⟩
  · refine if_pos ?_
    rcases h with h | h | h | h <;> simp [h]
  · exact congrArg ok ((State.barRow_of_normal h).trans (if_pos h))
  · exact congrArg ok (State.barRow_of_alwaysOn h State.softReset_of_not_normal)
  · exact congrArg ok (State.barRow_of_unsupported h)
  · change execFwNotReadyTimeout s = _
    rw [execFwNotReadyTimeout, h]

end Sys2Proof.Machine
end

section
/-!
PROOFS. One tick of the time base, which an empty queue leaves the device to.
-/

namespace Sys2Proof.Machine

/-! ## What leaves the time base as it is -/

/-- A fold of operations that each leave the time base as it is. -/
theorem State.foldl_time {α : Type} {f : State → α → State} (h : ∀ s x, (f s x).time = s.time) (l : List α) (s : State) :
    (l.foldl f s).time = s.time := by
  induction l generalizing s with
  | nil => rfl
  | cons x l ih => rw [List.foldl_cons, ih, h]

section
variable (s : State)

/-! ### LP5X -/

theorem State.lpUncorr_time (line : Nat) : (s.lpUncorr line).time = s.time := logEvent_time ..

theorem State.lpTouch_time (line : Nat) : (s.lpTouch line).1.time = s.time := by
  unfold lpTouch
  dsimp only
  split_ifs
  · rfl
  · rfl
  · exact s.lpUncorr_time line
  · split
    · exact s.tick.lpUncorr_time line
    · rfl
    · rfl

theorem State.lpMark_time (line : Nat) (whole poisoned : Bool) : (s.lpMark line whole poisoned).time = s.time := by
  have key : (if whole then (s, false) else s.lpTouch line).1.time = s.time := by
    cases whole
    · exact s.lpTouch_time line
    · rfl
  unfold lpMark
  dsimp only
  split <;> exact key

theorem State.lpMarkAll_time (a e : Nat) (poisoned : Bool) (n line : Nat) :
    (s.lpMarkAll a e line poisoned n).time = s.time := by
  induction n generalizing s line with
  | zero => rfl
  | succ n ih => rw [lpMarkAll, ih, lpMark_time]

theorem State.lpWrite_time (a : Nat) (d : Bytes) (poisoned : Bool) : (s.lpWrite a d poisoned).time = s.time :=
  s.lpMarkAll_time ..

/-! ### The weight store -/

theorem State.markDue_time (b p why : Nat) : (s.markDue b p why).time = s.time := by
  unfold markDue
  split
  · rfl
  · exact logEvent_time ..

theorem State.countReads_time (b p n : Nat) : (s.countReads b p n).time = s.time := by
  unfold countReads
  split
  · rfl
  · dsimp only
    split
    · exact markDue_time ..
    · rfl

theorem State.readRow_time (b row : Nat) : (s.readRow b row).time = s.time :=
  foldl_time (fun t _ => t.countReads_time ..) _ s

theorem State.eccOutcome_time (b l w : Nat) (r : WordRead) : (s.eccOutcome b l w r).time = s.time := by
  unfold eccOutcome
  split_ifs
  · exact logEvent_time ..
  · rfl
  · exact markDue_time ..
  · rfl

theorem State.readWord_time (b l w : Nat) : (s.readWord b l w).1.time = s.time := by
  refine (eccOutcome_time ..).trans ?_
  split <;> rfl

/-! ### The parts of a tick -/

theorem State.lockTick_time : s.lockTick.time = s.time := by
  unfold lockTick
  split <;> rfl

theorem State.wdoTick_time : s.wdoTick.time = s.time := by
  unfold wdoTick
  split
  · exact lockTick_time _
  · rfl

theorem State.dramUpset_time : s.dramUpset.time = s.time := by
  unfold dramUpset
  split
  · rfl
  · dsimp only
    split <;> rfl

theorem State.codeLine_time (l : Nat) : (s.codeLine l).time = s.time := by
  unfold codeLine
  dsimp only
  split
  · exact readWord_time ..
  · exact (setTrb_time ..).trans ((readWord_time ..).trans (readWord_time ..))

theorem State.fetchLine_time (l : Nat) : (s.fetchLine l).time = s.time := by
  unfold fetchLine
  dsimp only
  generalize (match s.nvm.lastFetch with
    | some k => k + 1 == l
    | none => false) = next
  generalize ha : ({ s with nvm := _ } : State) = a
  have h : a.time = s.time := by rw [← ha]
  have hr : (a.readRow (64 + s.fw.running) (l / 64)).time = s.time := (a.readRow_time ..).trans h
  split_ifs
  · exact (codeLine_time ..).trans hr
  · rfl
  · exact (codeLine_time ..).trans hr

theorem State.cpFetch_time : s.cpFetch.time = s.time := by
  unfold cpFetch
  split
  · rfl
  · exact fetchLine_time ..

theorem State.sendBare_time (i kind seq : Nat) (payload : Bytes) : (s.sendBare i kind seq payload).time = s.time := by
  unfold sendBare
  split <;> rfl

theorem State.idleFlits_time : s.idleFlits.time = s.time := by
  refine foldl_time (fun t i => ?_) _ s
  split
  · exact t.sendBare_time ..
  · rfl

theorem State.busyTick_time (f : Nat) : (s.busyTick f).time = s.time := by
  unfold busyTick
  split
  · rfl
  · dsimp only
    split <;> rfl

theorem State.sinkPacket_time (p : Bytes) : (s.sinkPacket p).time = s.time := by
  unfold sinkPacket
  dsimp only
  split
  · rfl
  · split
    · rfl
    · exact lpWrite_time ..

theorem State.drainTrace_time : s.drainTrace.time = s.time := by
  unfold drainTrace drainPacket
  split
  · rfl
  · split
    · rfl
    · split
      · rfl
      · exact sinkPacket_time ..

/-- A tick of a device with VDD_AON moves the time base on by one. -/
theorem State.timeTick_time (h : s.pins.vddAon = true) : s.timeTick.time = s.time + 1 := by
  unfold timeTick
  rw [if_neg (by simp [h])]
  dsimp only
  rw [drainTrace_time, foldl_time State.busyTick_time, idleFlits_time]
  exact (cpFetch_time _).trans ((dramUpset_time _).trans (wdoTick_time _))

end

/-- Settles O2: a step on an empty queue is one tick of the time base. -/
theorem anEmptyQueueLetsTheTimeBaseTick : Obligations.AnEmptyQueueLetsTheTimeBaseTick := by
  unfold Obligations.AnEmptyQueueLetsTheTimeBaseTick
  intro s hq
  have key : step s = .next s.timeTick := by rw [step, hq]
  rw [key]
  exact ⟨fun h => congrArg Host.Outcome.next (if_pos (by simp [h])),
    fun h => ⟨_, rfl, s.timeTick_time h, (State.timeTick_keeps s (Keeps.refl s)).pending.trans hq⟩⟩

end Sys2Proof.Machine
end

section
/-!
PROOFS. Reads of BAR 0 and BAR 4 (R7, R8, R324 to R326, R617, R618).
-/

namespace Sys2Proof.Machine

/-! ## Which registers BAR 0 serves (R621) -/

section
variable {s : State} {f o : Nat}

theorem State.barMode_of_regServed (h : s.regServed f o = true) : s.barMode f ≠ .unsupported := by
  intro k
  simp [regServed, k] at h

theorem State.regServed_of_latching (h : s.latching f o = true) : s.regServed f o = true := by
  simp only [latching, Bool.and_eq_true] at h
  exact h.1

/-! ## Reads of BAR 0 and BAR 4 (R324, R339, R617, R618) -/

/-- Neither sends anything nor touches a function's state. -/
def State.SameFns (s t : State) : Prop := t.out = s.out ∧ t.fns = s.fns

theorem State.SameFns.ite {c : Prop} [Decidable c] {t u : State} (ht : s.SameFns t) (hu : s.SameFns u) :
    s.SameFns (if c then t else u) := by
  split <;> assumption

theorem State.readClear_sameFns : s.SameFns (s.readClear o) := by
  unfold readClear
  dsimp only
  iterate 14 refine .ite ⟨rfl, rfl⟩ ?_
  exact ⟨rfl, rfl⟩

theorem State.readEffect_sameFns : s.SameFns (s.readEffect f o) := .ite readClear_sameFns ⟨rfl, rfl⟩

theorem State.readEffect_out : (s.readEffect f o).out = s.out := readEffect_sameFns.1

theorem State.readEffect_fns : (s.readEffect f o).fns = s.fns := readEffect_sameFns.2

theorem State.latchAfter_out : (s.latchAfter f o).out = s.out := by
  unfold latchAfter
  split <;> rfl

theorem State.barRead_of_unsupported {w : Bool} (h : s.barMode f = .unsupported) : s.barRead f o w = s.barUr f := if_pos h

theorem State.barRead_of_32 (h : s.barMode f ≠ .unsupported) (ho : o % 4 = 0) : s.barRead f o false = s.barRead32 f o := by
  rw [barRead, if_neg h, if_neg (by simp [ho]), if_neg (by simp)]

theorem State.barRead_of_64 (h : s.barMode f ≠ .unsupported) (ho : o % 8 = 0) : s.barRead f o true = s.barRead64 f o := by
  rw [barRead, if_neg h, if_neg (by simp [ho]), if_pos rfl]

theorem State.barRead32_out :
    (s.barRead32 f o).out = s.out ++ [.barCpl false [(leBytes 4 (s.latchValue f o).toNat, false)]] := by
  rw [barRead32, emit_out, readEffect_out, latchAfter_out]

theorem State.barRead64_out : (s.barRead64 f o).out = s.out ++
    [.barCpl false [(leBytes 4 (s.readReg f o).toNat ++ leBytes 4 (s.readReg f (o + 4)).toNat, false)]] := by
  rw [barRead64, emit_out, readEffect_out, readEffect_out, updFn_out]

/-- A read whose offset is that of a low dword gives the register as it is. -/
theorem State.latchValue_of_low (h : o % 8 = 0) : s.latchValue f o = s.readReg f o := by
  simp [latchValue, h]

/-- A read of the high dword of a pair that stands gives the copy. -/
theorem State.latchValue_of_pair (hl : s.latching f (o + 4) = true) (ho : o % 8 = 0)
    (hp : (s.fnSt f).shadowFor = some o) : s.latchValue f (o + 4) = (s.fnSt f).shadow := by
  have : (o + 4) % 8 = 4 := by omega
  simp [latchValue, hl, hp, this]

/-- A low read of a latching register pairs it with its high dword of that instant. -/
theorem State.barRead32_fnSt_of_low (hl : s.latching f o = true) (ho : o % 8 = 0) :
    (s.barRead32 f o).fnSt f = { s.fnSt f with shadow := s.readReg f (o + 4), shadowFor := some o } := by
  have key : s.latchAfter f o = s.updFn f fun x => { x with shadow := s.readReg f (o + 4), shadowFor := some o } := by
    simp [latchAfter, hl, ho]
  have : (s.barRead32 f o).fnSt f = (s.latchAfter f o).fnSt f := by
    simp [barRead32, fnSt, readEffect_fns]
  rw [this, key, fnSt_updFn]

theorem State.bar4Read_of_unsupported {w : Bool} (h : s.barMode f = .unsupported) : s.bar4Read f o w = s.barUr f :=
  if_pos (by simp [bar4Served, h])

theorem State.bar4Read_of_32 (h : s.barMode f ≠ .unsupported) (ho : o % 4 = 0) :
    s.bar4Read f o false = s.emit (.barCpl false [(leBytes 4 (s.readMsix f o).toNat, false)]) := by
  rw [bar4Read, if_neg (by simp [bar4Served, h]), if_neg (by simp [ho])]
  simp

theorem State.bar4Read_of_64 (h : s.barMode f ≠ .unsupported) (ho : o % 8 = 0) : s.bar4Read f o true =
    s.emit (.barCpl false [(leBytes 4 (s.readMsix f o).toNat ++ leBytes 4 (s.readMsix f (o + 4)).toNat, false)]) := by
  rw [bar4Read, if_neg (by simp [bar4Served, h]), if_neg (by simp [ho])]
  simp

end

/-! ## The rows of BAR 0 and BAR 4 by their target (R7, R324 to R326, R336) -/

section
variable {s : State} {a : BitVec 64} {g : FnId} {p : BitVec 17} {b : BarId} {f o : Nat} {w : Bool} {n : Nat}

theorem execRcRead_address_of_at (h : s.decodeBar a.toNat = .at b f o) : execRcRead (.address a) g p w s =
    match b with
    | .bar0 => ok (s.barRead f o w)
    | .bar4 => ok (s.bar4Read f o w) := by
  have k : s.barTarget (barRefOf (.address a) g p) = .at b f o := h
  rw [execRcRead, k]
  cases b <;> rfl

theorem execRcRead_address_of_unclaimed (h : s.decodeBar a.toNat = .unclaimed) :
    execRcRead (.address a) g p w s = ok (s.barUr 64) := by
  have k : s.barTarget (barRefOf (.address a) g p) = .unclaimed := h
  rw [execRcRead, k]

theorem execBarMisalignedAccess_address_of_unclaimed (h : s.decodeBar a.toNat = .unclaimed) :
    execBarMisalignedAccess (.address a) g w n s = ok (if w then s.logUr 64 true else s.barUr 64) := by
  have k : s.barTarget (barRefOf (.address a) g 0) = .unclaimed := h
  rw [execBarMisalignedAccess, k]

/-- An access that R7 does not allow, to BAR 0 or BAR 4 of a function. -/
theorem execBarMisalignedAccess_of_fn {b : BarSel} (hb : b = .bar0 ∨ b = .bar4) : execBarMisalignedAccess b g w n s =
    if s.barMode g.val = .unsupported then ok (if w then s.logUr g.val true else s.barUr g.val)
    else if w then ok s
    else ok (s.emit (.barCpl false [(List.replicate n 0xFF, false)])) := by
  rcases hb with rfl | rfl <;> rfl

end

/-- Settles O36: the read that a row is, by its target, its size and the service of the BAR. -/
theorem registerReadsAnswerThenHaveTheirEffect : Obligations.RegisterReadsAnswerThenHaveTheirEffect := by
  unfold Obligations.RegisterReadsAnswerThenHaveTheirEffect
  intro s f o
  have two {b : BarSel} (hb : b ∈ [BarSel.bar0, BarSel.bar4]) : b = .bar0 ∨ b = .bar4 := by simpa using hb
  refine ⟨fun h ho => congrArg ok (State.barRead_of_32 h ho),
    fun h ho => ⟨_, congrArg ok (State.barRead_of_64 h ho), State.barRead64_out⟩, fun hl ho => ?_,
    fun h ho => congrArg ok (State.bar4Read_of_32 h ho), fun h ho => congrArg ok (State.bar4Read_of_64 h ho),
    fun n b hb h => ⟨?_, ?_⟩, fun n w b hb h => ⟨?_, ?_, ?_⟩,
    fun a g p w n => ⟨execRcRead_address_of_at, execRcRead_address_of_at, fun h => ⟨execRcRead_address_of_unclaimed h,
      execBarMisalignedAccess_address_of_unclaimed h, execBarMisalignedAccess_address_of_unclaimed h⟩⟩⟩
  · have read (t : State) (x : BitVec 17) (hx : t.latching f.val x.toNat = true) (h4 : x.toNat % 4 = 0) :
        t.barRead f.val x.toNat false = t.barRead32 f.val x.toNat :=
      State.barRead_of_32 (State.barMode_of_regServed (State.regServed_of_latching hx)) h4
    refine ⟨s.barRead32 f.val o.toNat, congrArg ok (read s o hl (by omega)), ?_, fun t ht hs x hx => ?_⟩
    · rw [State.barRead32_out, State.latchValue_of_low ho]
    · refine ⟨t.barRead32 f.val x.toNat, congrArg ok (read t x (by rwa [hx]) (by omega)), ?_⟩
      have hf : t.fnSt f.val = _ := hs.trans (State.barRead32_fnSt_of_low hl ho)
      rw [State.barRead32_out, hx, State.latchValue_of_pair ht ho (by rw [hf]), hf]
  · exact (execBarMisalignedAccess_of_fn (two hb)).trans (if_neg h)
  · exact (execBarMisalignedAccess_of_fn (two hb)).trans (if_neg h)
  · rcases two hb with rfl | rfl
    · exact congrArg ok (State.barRead_of_unsupported h)
    · exact congrArg ok (State.bar4Read_of_unsupported h)
  · exact (execBarMisalignedAccess_of_fn (two hb)).trans (if_pos h)
  · exact (execBarMisalignedAccess_of_fn (two hb)).trans (if_pos h)

end Sys2Proof.Machine
end

section
/-!
PROOFS. Writes of BAR 0 and BAR 4, the unlock sequence and the enable of the trace (R89, R514, R587).
-/

namespace Sys2Proof.Machine

section
variable {s : State} {f : FnId} {o : BitVec 17} {is64 : Bool} {v : BitVec 64}

/-! ## Writes of BAR 0 and BAR 4 (R617, R621) -/

theorem execRegisterWrite_bar0 : execRegisterWrite .bar0 f o is64 v s =
    if s.barMode f.val = .unsupported then ok (s.logUr f.val true)
    else if o.toNat % (if is64 then 8 else 4) ≠ 0 then ok s else ok (s.barWrite f.val o.toNat is64 v) := rfl

theorem execRegisterWrite_bar4 : execRegisterWrite .bar4 f o is64 v s =
    if s.barMode f.val = .unsupported then ok (s.logUr f.val true)
    else if o.toNat % (if is64 then 8 else 4) ≠ 0 then ok s else ok (s.bar4Write f.val o.toNat is64 v) := rfl

theorem execRegisterWrite_bar0_of_aligned (h : s.barMode f.val ≠ .unsupported) (ho : o.toNat % (if is64 then 8 else 4) = 0) :
    execRegisterWrite .bar0 f o is64 v s = ok (s.barWrite f.val o.toNat is64 v) :=
  execRegisterWrite_bar0.trans ((if_neg h).trans (if_neg (by simpa using ho)))

theorem execRegisterWrite_bar4_of_aligned (h : s.barMode f.val ≠ .unsupported) (ho : o.toNat % (if is64 then 8 else 4) = 0) :
    execRegisterWrite .bar4 f o is64 v s = ok (s.bar4Write f.val o.toNat is64 v) :=
  execRegisterWrite_bar4.trans ((if_neg h).trans (if_neg (by simpa using ho)))

theorem execRegisterWrite_address {a : BitVec 64} {g : FnId} {p : BitVec 17} {bar : BarSel}
    (h : s.decodeBar a.toNat = s.barTarget (barRefOf bar f o)) :
    execRegisterWrite (.address a) g p is64 v s = execRegisterWrite bar f o is64 v s := by
  have k : s.barTarget (barRefOf (.address a) g p) = s.barTarget (barRefOf bar f o) := h
  rw [execRegisterWrite, execRegisterWrite, k]

theorem execRegisterWrite_address_of_unclaimed {a : BitVec 64} {g : FnId} {p : BitVec 17}
    (h : s.decodeBar a.toNat = .unclaimed) : execRegisterWrite (.address a) g p is64 v s = ok (s.logUr 64 true) := by
  have k : s.barTarget (barRefOf (.address a) g p) = .unclaimed := h
  rw [execRegisterWrite, k]

/-! ## TRB (R514) -/

/-- TRB is in the always-on set, so every served BAR 0 of the PF has it. -/
theorem State.writeReg_trb {w : Word} (h : s.barMode 0 ≠ .unsupported) : s.writeReg 0 0x10100 w = s.clearTrb w := by
  have hr : s.regServed 0 0x10100 = true := by
    unfold regServed
    cases hm : s.barMode 0
    · rfl
    · rfl
    · exact absurd hm h
  rw [writeReg, if_neg (by simp [hr]), if_neg (by decide), if_pos rfl]
  rfl

theorem State.clearTrb_bit {i : Nat} (hi : i < 20) : bitOf (s.clearTrb (loWord v)).trouble.trb i
    = (bitOf s.trouble.trb i && (!bitOf v i || bitOf s.levelBits i)) := by
  simp [clearTrb, bitOf, loWord, hi]

/-! ## The unlock sequence (R89) -/

theorem execNvmUnlock_of_normal {k : Word} (h : s.barMode 0 = .normal) :
    execNvmUnlock k s = ok { s with nvm := s.nvm.key k } :=
  congrArg ok ((State.barRow_of_normal h).trans (if_neg (by simp [h])))

theorem Nvm.key_of_closed {x : Nvm} {k : Word} (hu : x.unlocked = false) (hl : x.unlockLeft = none) :
    x.key k = if k = 0xC2A5 then { x with unlockLeft := some 1024 } else x := by
  rw [key, if_neg (by simp [hu]), hl]

theorem Nvm.key_of_open {x : Nvm} {k : Word} {n : Nat} (hu : x.unlocked = false) (hl : x.unlockLeft = some n) :
    x.key k = { x with unlocked := decide (k = 0x5A2C ∧ 0 < n), unlockLeft := none } := by
  rw [key, if_neg (by simp [hu]), hl, Bool.decide_and]

theorem Nvm.key_of_unlocked {x : Nvm} {k : Word} (hu : x.unlocked = true) : x.key k = { x with
    unlocked := decide (k = 0x5A2C)
    unlockLeft := if k = 0x5A2C then x.unlockLeft else if k = 0xC2A5 then some 1024 else none } := by
  rw [key, if_pos hu]
  by_cases hk : k = 0x5A2C
  · rw [if_pos hk, if_pos hk, decide_eq_true hk, ← hu]
  · rw [if_neg hk, if_neg hk, decide_eq_false hk]

/-! ## TRACE_CTL (R587) -/

/-- The fields that a write of TRACE_CTL sets whatever its enable bit. -/
def State.traceFields (s : State) (w : Word) : State := { s with trace := { s.trace with
  sink := if bitsOf w 2 1 = 3 then s.trace.sink else BitVec.ofNat 2 (bitsOf w 2 1)
  stopMode := bitOf w 3, deep := bitOf w 4, classes := BitVec.ofNat 8 (bitsOf w 15 8) } }

/-- Capture starts, or is refused. -/
def State.traceStart (s : State) : State :=
  if decide (s.trace.sink = 1) && !s.traceRegionOk then { s with trace := { s.trace with refused := true } }
  else { s with trace := { s.trace with en := true, wptr := 0, stopped := false } }

theorem State.traceCtlWrite_of_enable {w : Word} (hw : bitOf w 0 = true) (hen : s.trace.en = false) :
    ∃ b, (s.traceCtlWrite w).trace = { (s.traceFields w).traceStart.trace with buf := b } := by
  unfold traceCtlWrite
  dsimp only
  rw [if_pos (c := (bitOf w 0 && !s.trace.en) = true) (by simp [hw, hen])]
  change ∃ b, (if (s.traceFields w).traceStart.domState 13 ≠ 0 then
    { (s.traceFields w).traceStart with trace := { (s.traceFields w).traceStart.trace with buf := [] } }
    else (s.traceFields w).traceStart).trace = _
  split
  · exact ⟨_, rfl⟩
  · exact ⟨_, rfl⟩

theorem State.traceStart_of_refused (h : s.trace.sink = 1) (hr : s.lpTop < 4096 * (s.trace.base.toNat + s.trace.size.toNat)) :
    s.traceStart.trace = { s.trace with refused := true } := by
  rw [traceStart, if_pos (by simp [traceRegionOk, h, hr])]

theorem State.traceStart_of_started (h : ¬(s.trace.sink = 1 ∧ s.lpTop < 4096 * (s.trace.base.toNat + s.trace.size.toNat))) :
    s.traceStart.trace = { s.trace with en := true, wptr := 0, stopped := false } := by
  rw [traceStart, if_neg (by simpa [traceRegionOk] using h)]

theorem State.traceStart_sink : s.traceStart.trace.sink = s.trace.sink := by
  unfold traceStart
  split <;> rfl

end

theorem bitsOf_lt {n : Nat} (x : BitVec n) (msb lsb : Nat) : bitsOf x msb lsb < 2 ^ (msb + 1 - lsb) :=
  Nat.mod_lt _ (Nat.two_pow_pos _)

/-- Settles O37: the write that each row is, and what the rows with keys of their own leave. -/
theorem registerWritesActByTheirAccessType : Obligations.RegisterWritesActByTheirAccessType := by
  unfold Obligations.RegisterWritesActByTheirAccessType
  intro s f o v key
  refine ⟨fun h ho => ⟨execRegisterWrite_bar0_of_aligned h ho, execRegisterWrite_bar4_of_aligned h ho⟩,
    fun h ho => ⟨execRegisterWrite_bar0_of_aligned h ho, execRegisterWrite_bar4_of_aligned h ho⟩,
    fun w h => ⟨execRegisterWrite_bar0.trans (if_pos h), execRegisterWrite_bar4.trans (if_pos h)⟩,
    fun a g p w => ⟨execRegisterWrite_address (bar := .bar0), execRegisterWrite_address (bar := .bar4),
      execRegisterWrite_address_of_unclaimed⟩,
    fun h => ⟨s.clearTrb (loWord v), ?_, fun i => State.clearTrb_bit, rfl⟩, fun h hu hl => ?_, fun n h hu hl => ?_, fun h hu => ?_,
    fun h => ⟨congrArg ok (State.barRow_of_unsupported h), congrArg ok (State.barRow_of_unsupported h)⟩,
    fun h => congrArg ok (State.barRow_of_alwaysOn h fun k => if_pos k), fun h => if_pos h, fun h => if_neg h,
    fun h hk hen => ⟨s.traceCtlWrite key, congrArg ok (State.barRow_of_ne h), ?_⟩⟩
  · exact (execRegisterWrite_bar0_of_aligned (f := 0) h (by decide)).trans (congrArg ok (State.writeReg_trb h))
  · refine (execNvmUnlock_of_normal h).trans ?_
    rw [Nvm.key_of_closed hu hl]
    split <;> rfl
  · exact (execNvmUnlock_of_normal h).trans (by rw [Nvm.key_of_open hu hl])
  · exact (execNvmUnlock_of_normal h).trans (by rw [Nvm.key_of_unlocked hu])
  · obtain ⟨b, hb⟩ := State.traceCtlWrite_of_enable hk hen
    have hs : (s.traceCtlWrite key).trace.sink = (s.traceFields key).trace.sink := by rw [hb, State.traceStart_sink]
    refine ⟨?_, ?_⟩
    · rw [hs, State.traceFields]
      dsimp only
      split
      · rfl
      · exact Nat.mod_eq_of_lt (bitsOf_lt key 2 1)
    · rw [hs, hb]
      split
      next hr => rw [State.traceStart_of_refused hr.1 hr.2]; exact ⟨rfl, hen⟩
      next hr => rw [State.traceStart_of_started hr]; exact ⟨rfl, rfl, rfl⟩

end Sys2Proof.Machine
end

section
/-!
PROOFS. Accesses to BAR 2 inside one line (R304, R316, R317, R348).
-/

namespace Sys2Proof.Machine

/-! ## One unit of the aperture (R317) -/

theorem readBytes_eq_map (d : Byte) (m : List (Nat × Byte)) (a n : Nat) :
    readBytes d m a n = (List.range n).map fun i => Table.get d m (a + i) := by
  induction n generalizing a with
  | zero => rfl
  | succ n ih =>
    rw [readBytes, ih, List.range_succ_eq_map, List.map_cons, List.map_map]
    congr 1
    exact List.map_congr_left fun i _ => by simp [Nat.add_assoc, Nat.add_comm 1]

theorem readBytes_length (d : Byte) (m : List (Nat × Byte)) (a n : Nat) : (readBytes d m a n).length = n := by
  simp [readBytes_eq_map]

section
variable {s : State} {a n : Nat} {d : Bytes} {free : Bool}

theorem State.devWrite_nil : s.devWrite free n a [] = s := by
  cases n <;> rfl

/-- A write inside one line is one write of the device map. -/
theorem State.devWrite_of_line (hd : 1 ≤ d.length) (h : a % 64 + d.length ≤ 64) :
    s.devWrite free (n + 1) a d = s.devPut a d free := by
  have hne : d ≠ [] := List.ne_nil_of_length_pos hd
  rw [devWrite, if_neg (by simpa using hne)]
  dsimp only
  rw [List.take_of_length_le (by omega), List.drop_eq_nil_of_le (by omega), devWrite_nil]

theorem State.devRead_zero : s.devRead n a 0 = (s, []) := by
  cases n <;> rfl

/-- A read inside one line is one piece of the device map. -/
theorem State.devRead_of_line (hn : 1 ≤ n) (h : a % 64 + n ≤ 64) : s.devRead (n + 1) a n = s.devPiece a n := by
  have hk : min n (256 - a % 256) = n := by omega
  rw [devRead, if_neg (by omega)]
  dsimp only
  rw [hk, Nat.sub_self, devRead_zero]
  simp

end

/-- The bytes of one line leave as one completion, with EP when a byte's line is poisoned. -/
theorem completions_of_line {rcb a : Nat} {b : Marked} (hr : 64 ∣ rcb) (hpos : 0 < rcb) (hb : 1 ≤ b.length)
    (h : a % 64 + b.length ≤ 64) : completions rcb a b = [(b.map Prod.fst, b.any fun x => x.2)] := by
  have hne : b ≠ [] := List.ne_nil_of_length_pos hb
  have hk : b.length ≤ rcb - a % rcb := by
    obtain ⟨k, rfl⟩ := hr
    have h1 : a % (64 * k) = a % 64 + 64 * (a / 64 % k) := Nat.mod_mul
    have h2 : a / 64 % k < k := Nat.mod_lt _ (by omega)
    have h3 : 64 * (a / 64 % k) + 64 ≤ 64 * k := by omega
    omega
  have hc : rcbCut rcb (b.length + 1) a b = [b] := by
    rw [rcbCut, if_neg (by simpa using hne)]
    dsimp only
    rw [List.take_of_length_le hk, List.drop_eq_nil_of_le hk]
    cases b.length <;> rfl
  rw [completions, hc]
  rfl

theorem completions_of_clean {rcb a : Nat} {b : Bytes} (hr : 64 ∣ rcb) (hpos : 0 < rcb) (hb : 1 ≤ b.length)
    (h : a % 64 + b.length ≤ 64) : completions rcb a (clean b) = [(b, false)] := by
  rw [completions_of_line hr hpos (by simpa [clean] using hb) (by simpa [clean] using h)]
  simp [clean, Function.comp_def]

section
variable (s : State)

theorem State.rcb_dvd : 64 ∣ s.rcb := by
  unfold rcb
  split <;> decide

theorem State.rcb_pos : 0 < s.rcb := by
  unfold rcb
  split <;> decide

/-- A line in which a read meets no error leaves the memory as it is, and its bytes carry its mark. -/
theorem State.lpPiece_of_line {s : State} {a n : Nat} (hn : 1 ≤ n) (h : a % 64 + n ≤ 64)
    (he : s.addr.eccOn = false ∨ Table.get 0 s.addr.lpErr (dramLine (a / 64)) = 0) :
    s.lpPiece a n = (s.perfAdd 33 1, (readBytes 0 s.addr.lp5x a n).map fun x => (x, Table.get false s.addr.poison (a / 64))) := by
  have hc : lineCount a n = 1 := by
    rw [lineCount, if_neg (by omega)]
    omega
  have ht : s.lpTouch (a / 64) = (s, Table.get false s.addr.poison (a / 64)) := if_pos (by simpa using he)
  have hall : s.lpTouchAll (a / 64) 1 = (s, if Table.get false s.addr.poison (a / 64) then [a / 64] else []) := by
    rw [lpTouchAll, ht]
    rfl
  rw [lpPiece, hc, hall, readBytes_eq_map, List.map_map]
  refine Prod.ext rfl (List.map_congr_left fun i hi => ?_)
  have hi : (a + i) / 64 = a / 64 := by
    have := List.mem_range.1 hi
    omega
  simp only [hi, Function.comp_apply]
  split
  next hp => simp [hp]
  next hp => simp [hp]

end

/-! ## BAR 2 of an awake device (R304, R316, R348) -/

section
variable {s t : State} {o n a : Nat} {d : Bytes}

theorem State.bar2Write_of_unsupported (h : s.barMode 0 = .unsupported) : s.bar2Write o d = s.logUr 0 true := by
  rw [bar2Write, h]

theorem State.bar2Write_of_alwaysOn (h : s.barMode 0 = .alwaysOn) : s.bar2Write o d = s := by
  rw [bar2Write, h]

theorem State.bar2Read_of_unsupported (h : s.barMode 0 = .unsupported) :
    s.bar2Read o n = (s.logUr 0 false).emit (.barCpl true []) := by
  rw [bar2Read, h]

theorem State.bar2Read_of_alwaysOn (h : s.barMode 0 = .alwaysOn) :
    s.bar2Read o n = s.emit (.barCpl false [(zeroBytes n, false)]) := by
  rw [bar2Read, h]

section
variable (h : s.barMode 0 = .normal) (hl : s.power.level = 0) (ha : a = 268435456 * s.addr.aptBase.toNat + o)
  (ht : t = { s with power := { s.power with idleTicks := 0 } })
include h hl ha ht

theorem State.bar2Write_of_line (hd : 1 ≤ d.length) (h64 : a % 64 + d.length ≤ 64) : s.bar2Write o d = t.devPut a d false := by
  rw [bar2Write, h]
  dsimp only
  rw [wake_of_awake hl, ← ht, show s.aptAddr o = a from ha.symm]
  exact devWrite_of_line hd h64

theorem State.bar2Read_of_line (hn : 1 ≤ n) (h64 : a % 64 + n ≤ 64) :
    s.bar2Read o n = (t.devPiece a n).1.emit (.barCpl false (completions s.rcb a (t.devPiece a n).2)) := by
  rw [bar2Read, h]
  dsimp only
  rw [wake_of_awake hl, ← ht, show s.aptAddr o = a from ha.symm, devRead_of_line hn h64]

/-- A read whose piece carries no poison. -/
theorem State.bar2Read_of_clean {u : State} {b : Bytes} (hb : 1 ≤ b.length) (h64 : a % 64 + b.length ≤ 64)
    (hp : t.devPiece a b.length = (u, clean b)) : s.bar2Read o b.length = u.emit (.barCpl false [(b, false)]) := by
  rw [bar2Read_of_line h hl ha ht hb h64, hp, completions_of_clean s.rcb_dvd s.rcb_pos hb h64]

end

theorem State.region_of_lp5x (h : a < s.lpTop) : s.region a = .lp5x := if_pos h

section
variable {i : Nat}

theorem State.devPut_nvm {b : Nat} {free : Bool} (h : s.region a = .nvm b i) : s.devPut a d free = s := by
  rw [devPut, h]

theorem State.devPut_sac_denied {v : Nat} (h : s.region a = .sac v i) (hw : s.wayOfPf v = false) :
    s.devPut a d false = s.aptDenied := by
  rw [devPut, h]
  exact if_pos (by simp [hw])

theorem State.devPut_core_denied {c : Nat} (h : s.region a = .core c i) (hc : s.coreOfPf c = false) :
    s.devPut a d false = s.aptDenied := by
  rw [devPut, h]
  exact if_pos (by simp [hc])

theorem State.devPut_core {c : Nat} (h : s.region a = .core c i) (hc : s.coreOfPf c = true) : s.devPut a d false =
    { s with addr := { s.addr with cores := writeBytes 0 s.addr.cores (1048576 * c + i) d } } := by
  rw [devPut, h]
  exact if_neg (by simp [hc])

theorem State.devPut_unmapped {free : Bool} (h : s.region a = .unmapped) : s.devPut a d free = s.aptUnmapped := by
  rw [devPut, h]

theorem State.devPiece_core {c : Nat} (h : s.region a = .core c i) (hc : s.coreOfPf c = true) :
    s.devPiece a n = (s, clean (readBytes 0 s.addr.cores (1048576 * c + i) n)) := by
  rw [devPiece, h]
  exact if_pos hc

theorem State.devPiece_sac_denied {v : Nat} (h : s.region a = .sac v i) (hw : s.wayOfPf v = false) :
    s.devPiece a n = (s.aptDenied, clean (List.replicate n 0xFF)) := by
  rw [devPiece, h]
  exact if_neg (by simp [hw])

theorem State.devPiece_core_denied {c : Nat} (h : s.region a = .core c i) (hc : s.coreOfPf c = false) :
    s.devPiece a n = (s.aptDenied, clean (List.replicate n 0xFF)) := by
  rw [devPiece, h]
  exact if_neg (by simp [hc])

theorem State.devPiece_unmapped (h : s.region a = .unmapped) :
    s.devPiece a n = (s.aptUnmapped, clean (List.replicate n 0xFF)) := by
  rw [devPiece, h]

end

end

theorem any_map_pair_const {α β : Type} {l : List α} {b : Bool} {x : α → β} (h : l ≠ []) :
    (l.map fun y => (x y, b)).any (fun y => y.2) = b := by
  cases b
  · simp
  · obtain ⟨y, hy⟩ := List.exists_mem_of_ne_nil l h
    simpa using ⟨y, hy⟩

/-- Settles O38: an access inside one line is one piece of the device map, by its region. -/
theorem theApertureReadsAndWritesLp5x : Obligations.TheApertureReadsAndWritesLp5x := by
  unfold Obligations.TheApertureReadsAndWritesLp5x
  intro s o d n a t ha ht
  refine ⟨fun h hl hd h64 => ?_, fun h hl hn h64 => ?_,
    fun h => ⟨congrArg ok (State.bar2Read_of_alwaysOn h), congrArg ok (State.bar2Write_of_alwaysOn h)⟩,
    fun h => ⟨congrArg ok (State.bar2Read_of_unsupported h), congrArg ok (State.bar2Write_of_unsupported h)⟩⟩
  · have key {u : State} (hu : t.devPut a d false = u) : exec (.bar2Write o d) s = .next u :=
      congrArg ok ((State.bar2Write_of_line h hl ha ht hd h64).trans hu)
    have hr (r : Region) (e : s.region a = r) : t.region a = r := by rw [ht]; exact e
    refine ⟨fun htop => key ?_, fun b i e => key (State.devPut_nvm (hr _ e)),
      fun v i e hw => key (State.devPut_sac_denied (hr _ e) (by rw [ht]; exact hw)),
      fun c i e hc => key (State.devPut_core_denied (hr _ e) (by rw [ht]; exact hc)),
      fun c i e hc => key (State.devPut_core (hr _ e) (by rw [ht]; exact hc)),
      fun e => key (State.devPut_unmapped (hr _ e))⟩
    rw [State.devPut, hr _ (State.region_of_lp5x (by omega))]
  · have key {u : State} {b : Bytes} (hb : b.length = n) (hp : t.devPiece a n = (u, clean b)) :
        exec (.bar2Read o n) s = .next (u.emit (.barCpl false [(b, false)])) := by
      subst hb
      exact congrArg ok (State.bar2Read_of_clean h hl ha ht hn h64 hp)
    have hr (r : Region) (e : s.region a = r) : t.region a = r := by rw [ht]; exact e
    refine ⟨fun htop he => ?_, fun c i e hc => ?_, fun e => ?_,
      fun e => key List.length_replicate (State.devPiece_unmapped (hr _ e))⟩
    · have hp : t.devPiece a n = t.lpPiece a n := by rw [State.devPiece, hr _ (State.region_of_lp5x (by omega))]
      have hta : t.addr = s.addr := by rw [ht]
      refine ⟨_, congrArg ok (State.bar2Read_of_line h hl ha ht hn h64), ?_, ?_⟩
      · rw [hp, State.lpPiece_of_line hn h64 (by rw [hta]; exact he)]
        exact hta
      · rw [hp, State.lpPiece_of_line hn h64 (by rw [hta]; exact he), hta, State.emit_out,
          completions_of_line s.rcb_dvd s.rcb_pos (by simpa [readBytes_length] using hn) (by simpa [readBytes_length] using h64),
          any_map_pair_const (by intro k; have := readBytes_length 0 s.addr.lp5x a n; rw [k] at this; simp at this; omega)]
        simp [ht, Function.comp_def]
    · have hb := readBytes_length 0 s.addr.cores (1048576 * c + i) n
      exact key hb ((State.devPiece_core (hr _ e) (by rw [ht]; exact hc)).trans (by rw [ht]))
    · rcases e with ⟨v, i, e, hw⟩ | ⟨c, i, e, hc⟩
      · exact key List.length_replicate (State.devPiece_sac_denied (hr _ e) (by rw [ht]; exact hw))
      · exact key List.length_replicate (State.devPiece_core_denied (hr _ e) (by rw [ht]; exact hc))

end Sys2Proof.Machine
end

section
/-!
PROOFS. Configuration requests, Bus Master Enable, D3hot and the masks of MSI-X (R330, R335, R339, R348, R508).
-/

namespace Sys2Proof.Machine

/-! ## Configuration requests (R330, R346, R348) -/

/-- Clearing a time that has passed clears it in any case. -/
theorem FnSt.crsUntil_cleared (x : FnSt) : (if x.crsUntil.isSome then none else x.crsUntil) = none := by
  cases x.crsUntil <;> rfl

section
variable {s : State} {f : FnId} {q : CfgReq}

theorem execConfigRequest_of_held (h : s.life.phase = .por ∨ ∃ c, s.life.phase = .held c) : execConfigRequest f q s = ok s := by
  rcases h with h | ⟨c, h⟩ <;> rw [execConfigRequest, h]

variable (hp : s.life.phase ≠ .por) (hh : ∀ c, s.life.phase ≠ .held c)
include hp hh

theorem execConfigRequest_of_missing (he : s.fnExists f.val = false) :
    execConfigRequest f q s = ok ((s.aer 0 0x100000 0).emit (.cfgCpl .ur 0xFFFFFFFF)) := by
  unfold execConfigRequest
  split
  · contradiction
  next c hc => exact absurd hc (hh c)
  · exact if_pos (by simp [he])

variable (he : s.fnExists f.val = true)
include he

theorem execConfigRequest_of_waiting (hw : s.pcie.crs = true ∨ (s.fnSt f.val).flrWaits = true) :
    execConfigRequest f q s = ok (s.emit (.cfgCpl .crs 0xFFFF0001)) := by
  unfold execConfigRequest
  split
  · contradiction
  next c hc => exact absurd hc (hh c)
  · exact (if_neg (by simp [he])).trans (if_pos (by simpa using hw))

variable (hc : s.pcie.crs = false) (hw : (s.fnSt f.val).flrWaits = false)
include hc hw

theorem execConfigRequest_of_vfCrs (hv : s.vfCrs f.val = true) :
    execConfigRequest f q s = ok (s.tick.emit (.cfgCpl .crs 0xFFFF0001)) := by
  unfold execConfigRequest
  split
  · contradiction
  next c k => exact absurd k (hh c)
  · exact (if_neg (by simp [he])).trans ((if_neg (by simp [hc, hw])).trans (if_pos hv))

variable (hv : s.vfCrs f.val = false) {reg : BitVec 12}
include hv

theorem execConfigRequest_read : execConfigRequest f (.read reg) s =
    ok ((s.updFn f.val fun x => { x with crsUntil := none }).emit
      (.cfgCpl .sc ((s.updFn f.val fun x => { x with crsUntil := none }).cfgRead f.val (reg.toNat / 4 * 4)))) := by
  unfold execConfigRequest
  split
  · contradiction
  next c k => exact absurd k (hh c)
  · refine (if_neg (by simp [he])).trans ((if_neg (by simp [hc, hw])).trans ((if_neg (by simp [hv])).trans ?_))
    simp only [FnSt.crsUntil_cleared]

theorem execConfigRequest_write {w : Word} : execConfigRequest f (.write reg w) s =
    ok (((s.updFn f.val fun x => { x with crsUntil := none }).cfgWrite f.val (reg.toNat / 4 * 4) w).emit (.cfgCpl .sc 0)) := by
  unfold execConfigRequest
  split
  · contradiction
  next c k => exact absurd k (hh c)
  · refine (if_neg (by simp [he])).trans ((if_neg (by simp [hc, hw])).trans ((if_neg (by simp [hv])).trans ?_))
    simp only [FnSt.crsUntil_cleared]

end

/-- No configuration register shows how long a new VF answers with CRS. -/
theorem State.cfgRead_crsUntil (s : State) (f r : Nat) :
    (s.updFn f fun x => { x with crsUntil := none }).cfgRead f r = s.cfgRead f r := by
  have hh : (s.updFn f fun x => { x with crsUntil := none }).cfgHeader f r = s.cfgHeader f r := by
    unfold cfgHeader
    rw [fnSt_updFn]
    rfl
  have hc : (s.updFn f fun x => { x with crsUntil := none }).cfgCaps f r = s.cfgCaps f r := by
    unfold cfgCaps
    rw [fnSt_updFn]
    rfl
  unfold cfgRead
  rw [hh, hc]
  rfl

/-- Vendor and device ID (Table 12-2). -/
theorem State.cfgRead_zero (s : State) (f : Nat) : s.cfgRead f 0 = if f = 0 then 0xC2001FA7 else 0xFFFFFFFF := by
  rw [cfgRead, if_pos (by decide), if_neg (by simp)]
  rfl

/-! ## Bus Master Enable and D3hot (R335, R508) -/

section
variable {s : State} {f : Nat}

theorem State.releaseHeld_of_not_canSend (h : s.canSend f = false) : s.releaseHeld f = s := if_neg (by simp [h])

theorem State.leaveL1_fns : s.leaveL1.fns = s.fns := by
  obtain ⟨_, h⟩ := s.leaveL1_frame
  rw [h]

/-- What releases the held requests: all of them are sent in their order and none is held afterwards. -/
theorem State.releaseHeld_of_canSend (h : s.canSend f = true) : (s.releaseHeld f).out = s.out ++ (s.fnSt f).heldOut
    ∧ (s.releaseHeld f).fnSt f = { s.fnSt f with heldOut := [] }
    ∧ ∀ q ∈ (s.releaseHeld f).reads, q.fn = f → q.sent = true := by
  rw [releaseHeld, if_pos h]
  refine ⟨rfl, ?_, fun q hq hf => ?_⟩
  · have key (a : State) (ha : a.fns = s.fns) :
        (a.updFn f fun x => { x with heldOut := [] }).fnSt f = { s.fnSt f with heldOut := [] } := by
      rw [fnSt_updFn, fnSt, ha, fnSt]
    refine key _ ?_
    split
    · rfl
    · exact leaveL1_fns
  · obtain ⟨p, -, rfl⟩ := List.mem_map.1 hq
    split at hf
    next => rw [if_pos (by assumption)]
    next hn =>
      rw [if_neg hn]
      simpa [hf] using hn

end

/-- Settles O39: the branches of a configuration request, and what a change of Bus Master Enable, D3hot or a mask releases. -/
theorem configurationAndMasterEnable : Obligations.ConfigurationAndMasterEnable := by
  unfold Obligations.ConfigurationAndMasterEnable
  intro s f reg w v
  refine ⟨fun q => execConfigRequest_of_held, fun q hp hh he => execConfigRequest_of_missing hp hh he,
    fun hp hh he => ⟨fun q => execConfigRequest_of_waiting hp hh he,
      fun q hc hw => execConfigRequest_of_vfCrs hp hh he hc hw,
      fun hc hw hv => ⟨⟨_, execConfigRequest_read hp hh he hc hw hv, ?_⟩, execConfigRequest_write hp hh he hc hw hv⟩⟩,
    State.cfgRead_zero s f.val,
    fun he => ⟨if_neg (by simp [he]), if_neg (by simp [he]), if_pos (by simp [he]), if_pos (by simp [he])⟩,
    fun he hd => ⟨s.setBme f.val true, if_pos he, ?_⟩, fun he hd => (if_pos he).trans (congrArg ok ?_),
    fun he => (if_pos he).trans (congrArg ok ?_), ⟨_, rfl, rfl⟩, fun hd => ⟨_, rfl, congrArg ok (if_pos hd)⟩,
    fun hd => congrArg ok (if_neg (by simp [hd])), fun he => ⟨if_neg (by simp [he]), fun hv => ?_, fun hv => ?_⟩,
    fun hr hm hf hv hb => if_pos (by simp only [hr, hm, hf, hv, hb]; rfl)⟩
  · rw [State.emit_out, State.cfgRead_crsUntil, State.updFn_out]
  · obtain ⟨ho, hs, hr⟩ := State.releaseHeld_of_canSend (s := s.updFn f.val fun x => { x with bme := true }) (f := f.val)
      (by simp [State.canSend, hd])
    rw [State.setBme, ho, hs, State.fnSt_updFn]
    exact ⟨rfl, rfl, rfl, hr⟩
  · exact State.releaseHeld_of_not_canSend (by simp [State.canSend, hd])
  · exact State.releaseHeld_of_not_canSend (by simp [State.canSend])
  · exact (if_neg (by simp [he])).trans (if_pos hv)
  · exact (if_neg (by simp [he])).trans (if_neg (by omega))

end Sys2Proof.Machine
end

section
/-!
PROOFS. Link events and AER (R319, R322, R342, R344).
-/

namespace Sys2Proof.Machine

/-! ## AER (R322, R342) -/

section
variable (s : State) (f : Nat) (un co : Word)

/-- Logging sets the pointer and the header of the first error of one function, and nothing else of any. -/
theorem State.aerLog_fnSt : ∃ i l, (s.aerLog f un).fnSt f = { s.fnSt f with aerFirst := i, aerHdr := l } := by
  unfold aerLog
  dsimp only
  split
  · exact ⟨(s.fnSt f).aerFirst, (s.fnSt f).aerHdr, rfl⟩
  · exact ⟨_, _, fnSt_updFn ..⟩

theorem State.aerLog_fnSt_ne {h : Nat} (e : h ≠ f) : (s.aerLog f un).fnSt h = s.fnSt h := by
  unfold aerLog
  dsimp only
  split
  · rfl
  · exact fnSt_updFn_ne _ _ e

theorem State.aer_fnSt_ne {h : Nat} (e : h ≠ f) : (s.aer f un co).fnSt h = s.fnSt h :=
  (fnSt_updFn_ne _ _ e).trans (s.aerLog_fnSt_ne f un e)

theorem State.aer_status : ((s.aer f un co).fnSt f).aerUncorr = (s.fnSt f).aerUncorr ||| un
    ∧ ((s.aer f un co).fnSt f).aerCorr
      = (s.fnSt f).aerCorr ||| (if un &&& s.pcie.aerSev ≠ 0 then co &&& ~~~(0x2000 : Word) else co) := by
  obtain ⟨i, l, h⟩ := s.aerLog_fnSt f un
  rw [aer, fnSt_updFn, h]
  simp

theorem State.parity_bit : bitOf ((s.parity f false).fnSt f).cfgStat 31 = true := by
  simp [parity, bitOf]

/-! ## Link events (R319, R342, R344) -/

variable {s}

theorem State.logUr_of_held {posted : Bool} (h : s.life.phase = .por ∨ ∃ c, s.life.phase = .held c) : s.logUr f posted = s := by
  rcases h with h | ⟨c, h⟩ <;> rw [logUr, h]

theorem State.logUr_of_answering {posted : Bool} (h : s.life.phase ≠ .por) (k : ∀ c, s.life.phase ≠ .held c) :
    s.logUr f posted = s.aer (if s.fnExists f then f else 0) 0x100000 (if posted then 0x2000 else 0) := by
  unfold logUr
  split
  · contradiction
  next c hc => exact absurd hc (k c)
  · rfl

theorem trainable_iff {sp : BitVec 4} {wd : BitVec 5} :
    trainable sp wd = true ↔ (sp = 1 ∨ sp = 2 ∨ sp = 3 ∨ sp = 4) ∧ (wd = 1 ∨ wd = 2 ∨ wd = 4) := by
  have hw (n : Nat) (h : n < 32) : wd.toNat = n ↔ wd = BitVec.ofNat 5 n := by
    rw [← BitVec.toNat_inj, BitVec.toNat_ofNat, Nat.mod_eq_of_lt h]
  have hs (n : Nat) (h : n < 16) : sp.toNat = n ↔ sp = BitVec.ofNat 4 n := by
    rw [← BitVec.toNat_inj, BitVec.toNat_ofNat, Nat.mod_eq_of_lt h]
  have h4 : (1 ≤ sp.toNat ∧ sp.toNat ≤ 4) ↔ sp.toNat = 1 ∨ sp.toNat = 2 ∨ sp.toNat = 3 ∨ sp.toNat = 4 := by omega
  simp only [trainable, Bool.and_eq_true, Bool.or_eq_true, decide_eq_true_eq, beq_iff_eq, h4, hw 1 (by decide), hw 2 (by decide),
    hw 4 (by decide), hs 1 (by decide), hs 2 (by decide), hs 3 (by decide), hs 4 (by decide), or_assoc]
  rfl

variable {sp : BitVec 4} {wd : BitVec 5}

theorem execLinkRetrain_of_same (h : s.pcie.dlActive = false ∨ s.pcie.speed = sp ∧ s.pcie.width = wd ∨ trainable sp wd = false) :
    execLinkRetrain sp wd s = ok s := if_pos (by simpa using h)

theorem execLinkRetrain_of_other (hd : s.pcie.dlActive = true) (hn : ¬(s.pcie.speed = sp ∧ s.pcie.width = wd))
    (ht : trainable sp wd = true) : execLinkRetrain sp wd s =
      ok (((s.linkUp sp wd).fnList.foldl (fun (t : State) g => t.raiseFnEvt g 1) (s.linkUp sp wd)).logEvent 3 devByte
        [sp.setWidth 8, wd.setWidth 8] []) := if_neg (by simp [hd, ht, hn])

theorem State.linkUp_of_active (hd : s.pcie.dlActive = true) :
    s.linkUp sp wd = { s with pcie := { s.pcie with speed := sp, width := wd } } := by
  rw [linkUp, ← hd]

end

/-- Settles O41: each link event by its row, and AER by what logging it changes. -/
theorem linkEventsAreRecorded : Obligations.LinkEventsAreRecorded := by
  unfold Obligations.LinkEventsAreRecorded
  intro s sp wd f
  refine ⟨fun hd hn ht => ⟨_, rfl, ?_⟩, execLinkRetrain_of_same, trainable_iff, rfl, fun e un co h => ?_, fun d b g o h => ?_,
    fun d h => ?_, fun hp hh => ⟨congrArg ok (State.logUr_of_answering _ hp hh), congrArg ok (State.logUr_of_answering _ hp hh)⟩,
    fun fn h => congrArg ok (State.logUr_of_held _ h), fun g un co => ⟨(s.aer_status g un co).1, (s.aer_status g un co).2,
      fun h => s.aer_fnSt_ne g un co, State.parity_bit ..⟩⟩
  · refine (execLinkRetrain_of_other hd hn ht).trans ?_
    rw [State.linkUp_of_active hd]
  · rcases h with ⟨rfl, rfl, rfl⟩ | ⟨rfl, rfl, rfl⟩ | ⟨rfl, rfl, rfl⟩ | ⟨rfl, rfl, rfl⟩ | ⟨rfl, rfl, rfl⟩ | ⟨rfl, rfl, rfl⟩
      | ⟨rfl, rfl, rfl⟩ | ⟨rfl, rfl, rfl⟩ | ⟨rfl, rfl, rfl⟩ <;> rfl
  · change execBadTlp (.poisonedWrite d) s = _
    rw [execBadTlp, h]
    dsimp only
    split <;> rfl
  · change execBadTlp (.poisonedWrite d) s = _
    rcases h with h | h <;> rw [execBadTlp, h]

end Sys2Proof.Machine
end

section
/-!
PROOFS. Completions and timeouts of the reads that the device makes (R265, R266, R270, R340 to R342).
-/

namespace Sys2Proof.Machine

/-! ## Completions and timeouts of the device's reads (R265, R266, R340 to R342) -/

section
variable {s : State} {tag : Nat} {q : ReadReq}

/-- The state in which a completion of a read is met: one with EP is logged unless the function is gone. -/
def State.epLogged (s : State) (q : ReadReq) (ep : Bool) : State :=
  if ep = true ∧ q.orphan = false then (s.aer q.fn 0x1000 0x2000).parity q.fn true else s

theorem ReadReq.take_length {ep : Bool} {d : Bytes} : (q.take ep d).got.length = q.got.length + d.length := List.length_append

theorem execPcieCompletion_of_read {st : CplStatus} {ep : Bool} {d : Bytes} (h : s.readAt tag = some q) :
    execPcieCompletion tag st ep d s =
      if st ≠ .sc ∨ q.len < q.got.length + d.length then ok ((s.epLogged q ep).readEnds q false)
      else if q.got.length + d.length = q.len then
        ok (({ s.epLogged q ep with
          reads := (s.epLogged q ep).reads.map fun (o : ReadReq) => if o.tag = tag then q.take ep d else o } : State).readEnds
            (q.take ep d) true)
      else ok { s.epLogged q ep with
        reads := (s.epLogged q ep).reads.map fun (o : ReadReq) => if o.tag = tag then q.take ep d else o } := by
  have ha : (if ep && !q.orphan then (s.aer q.fn 0x1000 0x2000).parity q.fn true else s) = s.epLogged q ep := by
    simp [State.epLogged]
  rw [execPcieCompletion, h]
  dsimp only
  rw [ha, ReadReq.take_length]

theorem execCompletionTimeout_of_read (h : s.readAt tag = some q) : execCompletionTimeout tag s =
    if s.pcie.ctoDis || !q.sent || !s.usSince q.issued (timeoutUs s.pcie.cto) then ok s
    else ok (({ (s.aer q.fn 0x4000 0) with pcie := { s.pcie with cplTo := satInc s.pcie.cplTo 1 } }).readEnds q false) := by
  rw [execCompletionTimeout, h]

theorem State.readEnds_of_orphan {g : Bool} (h : q.orphan = true) : s.readEnds q g = { s with reads := s.reads.erase q } := if_pos h

theorem State.readEnds_of_sq {g : Bool} {r n : Nat} (h : q.orphan = false) (hu : q.use = .sq r n) : s.readEnds q g =
    ({ s with reads := s.reads.erase q } : State).sqArrive q.fn r (g && q.bad.isEmpty) q.got := by
  rw [readEnds, if_neg (by simp [h]), hu]

theorem State.readEnds_of_failed_line {k b o sg n v : Nat} (h : q.orphan = false) (hu : q.use = .line k b o sg n v) :
    s.readEnds q false = ({ s with reads := s.reads.erase q } : State).lineArrive k b o sg n v q.len [(0, q.len)] [] := by
  rw [readEnds, if_neg (by simp [h]), hu]
  rfl

end

/-! ## What a request brings to its lines (R265, R270) -/

section
variable {x : Run} {now : BitVec 64} {lo len key : Nat} {l : FailLoc} {d : Bytes} {y : Line}

theorem Run.mem_fillLines_of_covered (hy : (key, y) ∈ x.lines) (hc : covered lo d.length (key, y) = true) :
    (key, { y with data := some (lineData d lo key y.len), came := now }) ∈ (x.fillLines now lo d).lines :=
  List.mem_map.2 ⟨(key, y), hy, by rw [if_pos hc]⟩

/-- A line that has its data already keeps it. -/
theorem Run.mem_fillLines_of_filled (hy : (key, y) ∈ x.lines) (hd : y.data.isSome = true) :
    (key, y) ∈ (x.fillLines now lo d).lines := by
  have hc : covered lo d.length (key, y) = false := by
    cases h : y.data
    · simp [h] at hd
    · simp [covered, h]
  exact List.mem_map.2 ⟨(key, y), hy, by simp [hc]⟩

theorem Run.mem_failLines {bad : List (Nat × Nat)} (hy : (key, y) ∈ x.lines) (hc : covered lo len (key, y) = true)
    (hh : hits lo bad (key, y) = true) :
    (key, { y with data := some (zeroBytes y.len), poison := true, came := now }) ∈ (x.failLines now lo len bad l).lines := by
  refine List.mem_map.2 ⟨(key, y), ?_, by simp [hc, hh]⟩
  unfold countIn
  split <;> exact hy

end

/-- Settles O42: the ends of a read, and the lines that it fills. -/
theorem readsOfTheDeviceEndWithTheirCompletion : Obligations.ReadsOfTheDeviceEndWithTheirCompletion := by
  unfold Obligations.ReadsOfTheDeviceEndWithTheirCompletion
  intro s tag st ep d q a ha
  have ha : a = s.epLogged q ep := ha
  subst ha
  refine ⟨fun h => ⟨?_, ?_⟩, fun h hl => ?_, fun h hl => ⟨_, rfl, ?_⟩, fun h hl => ?_, rfl,
    fun g => ⟨State.readEnds_of_orphan, fun r n => State.readEnds_of_sq, fun k b o sg n v => State.readEnds_of_failed_line⟩,
    fun h hs hd hu => ?_, fun h hx => ?_, fun x now lo len key bad l y hy hd => ⟨fun h1 h2 => ?_, fun hab hb h1 h2 hh => ?_⟩⟩
  · change execPcieCompletion tag st ep d s = _
    rw [execPcieCompletion, h]
  · change execCompletionTimeout tag s = _
    rw [execCompletionTimeout, h]
  · exact (execPcieCompletion_of_read h).trans ((if_neg (by simpa using hl.le)).trans (if_neg hl.ne))
  · exact (execPcieCompletion_of_read h).trans ((if_neg (by simpa using hl.le)).trans (if_pos hl))
  · exact (execPcieCompletion_of_read h).trans (if_pos hl)
  · exact (execCompletionTimeout_of_read h).trans (if_neg (by simp [hs, hd, hu]))
  · refine (execCompletionTimeout_of_read h).trans (if_pos ?_)
    rcases hx with hx | hx | hx <;> simp [hx]
  · exact Run.mem_fillLines_of_covered hy (by simp [covered, h1, h2, hd])
  · have hf := Run.mem_failLines (now := now) (l := l) (len := len) hy (by simp [covered, h1, h2, hd]) hh
    rw [Run.arrive, if_neg (by simpa using hb), if_neg (by simp [hab])]
    exact Run.mem_fillLines_of_filled hf rfl

end Sys2Proof.Machine
end

section
/-!
PROOFS. The TAP and the debug access register (R571 to R583, R588).
-/

namespace Sys2Proof.Machine

/-! ## The TAP and the LOST packet (R571, R588) -/

section
variable {s : State}

/-- The 96 bits of DBG_STATUS, taken apart. -/
theorem dbgStatus_fields (u c h b f : Nat) (hu : u < 2 ^ 64) (hc : c < 4) (hh : h < 2) (hb : b < 2) :
    (u + 2 ^ 64 * c + 2 ^ 66 * h + 2 ^ 67 * b + 2 ^ 68 * f) % 2 ^ 64 = u
      ∧ (u + 2 ^ 64 * c + 2 ^ 66 * h + 2 ^ 67 * b + 2 ^ 68 * f) / 2 ^ 64 % 4 = c
      ∧ (u + 2 ^ 64 * c + 2 ^ 66 * h + 2 ^ 67 * b + 2 ^ 68 * f) / 2 ^ 66 % 2 = h
      ∧ (u + 2 ^ 64 * c + 2 ^ 66 * h + 2 ^ 67 * b + 2 ^ 68 * f) / 2 ^ 67 % 2 = b
      ∧ (u + 2 ^ 64 * c + 2 ^ 66 * h + 2 ^ 67 * b + 2 ^ 68 * f) / 2 ^ 68 = f := by
  refine ⟨?_, ?_, ?_, ?_, ?_⟩ <;> omega

theorem b2n_lt (b : Bool) : b2n b < 2 := by
  cases b <;> decide

/-- One bit of delay, which holds 0 before it. -/
theorem testBit_delayed (scan len k : Nat) :
    Nat.testBit (2 * scan % 2 ^ len) k = (decide (k < len) && decide (k ≠ 0) && Nat.testBit scan (k - 1)) := by
  rw [Nat.testBit_mod_two_pow]
  cases k with
  | zero => simp
  | succ k => simp [Nat.testBit_succ]

theorem execTraceLostEmit_of_idle (h : s.trace.dropped = 0 ∨ 256 ≤ s.trace.fifo.length ∨ s.trace.en = false) :
    execTraceLostEmit s = ok s := if_pos (by simpa using h)

theorem execTraceLostEmit_of_room (hd : s.trace.dropped ≠ 0) (hf : s.trace.fifo.length < 256) (he : s.trace.en = true) :
    execTraceLostEmit s = ok { s with trace := { s.trace with
      fifo := s.trace.fifo ++ [tracePacket s.time 0x03 0 0 0 (BitVec.ofNat 32 (satNat 0xFFFFFFFF s.trace.dropped))]
      dropped := 0 } } := if_neg (by simp [hd, he, hf])

theorem satNat_eq_min (m n : Nat) : satNat m n = min n m := by
  unfold satNat
  split <;> omega

end

/-- Settles O59: what each TAP instruction shifts out, and the LOST packet. -/
theorem tapInstructionsAndTheLostPacket : Obligations.TapInstructionsAndTheLostPacket := by
  unfold Obligations.TapInstructionsAndTheLostPacket
  intro s scan len code
  refine ⟨rfl, ⟨_, rfl, dbgStatus_fields _ _ _ _ _ s.fuses.uid.isLt s.dbg.scope.isLt (b2n_lt _) (b2n_lt _)⟩, ⟨_, rfl, rfl, rfl⟩,
    ⟨_, _, rfl, Nat.mod_lt _ (Nat.two_pow_pos _), rfl, rfl⟩,
    fun h => ⟨_, if_neg h, testBit_delayed scan len⟩, fun h => if_pos h, fun hd hf he => ?_, execTraceLostEmit_of_idle⟩
  rw [← satNat_eq_min]
  exact execTraceLostEmit_of_room hd hf he

/-! ## Debug accesses (R572, R573) -/

section
variable {s a : State} {n : Nat} {g : State → State}

theorem State.dbgAccess_of_restoring (h : s.restoring = true) : s.dbgAccess n g =
    (({ s with dbg := { s.dbg with attached := true } } : State).refreshDoms s).dbgAnswer { busy := true } := by
  rw [dbgAccess, if_pos (by rw [restoring, refreshDoms_nvm]; exact h)]

section
variable (ha : a = ({ s with dbg := { s.dbg with attached := true } } : State).refreshDoms s) (h : s.restoring = false)
include ha h

theorem State.dbgAccess_of_not_restoring : s.dbgAccess n g =
    if s.dbg.scope.toNat < n then a.dbgAnswer { done := true, denied := true } else g a := by
  have hr : a.restoring = false := by rw [ha, restoring, refreshDoms_nvm]; exact h
  have hs : a.dbg.scope = s.dbg.scope := by rw [ha, refreshDoms_dbg]
  rw [dbgAccess, ← ha]
  rw [if_neg (by simp [hr]), hs]

theorem State.dbgAccess_of_scope (hn : n ≤ s.dbg.scope.toNat) : s.dbgAccess n g = g a :=
  (dbgAccess_of_not_restoring ha h).trans (if_neg (by omega))

theorem State.dbgAccess_of_below (hn : s.dbg.scope.toNat < n) :
    s.dbgAccess n g = a.dbgAnswer { done := true, denied := true } :=
  (dbgAccess_of_not_restoring ha h).trans (if_pos hn)

end

/-! ## HALT (R580) -/

theorem State.stopCp_of_running (h : s.dbg.halted = false) :
    s.stopCp = ({ s with dbg := { s.dbg with halted := true, haltStart := s.time } } : State).traceCp 0 := if_neg (by simp [h])

theorem State.wake_level (src : Nat) : (s.wake src).power.level = 0 := by
  obtain ⟨_, _, _, p, _, _, hp, h⟩ := s.wake_frame src
  rw [h]
  exact hp

theorem State.haltCp_of_running (hp : s.life.phase = .running) (h : s.dbg.halted = false) : s.haltCp.dbg.halted = true
    ∧ s.haltCp.power.level = 0 ∧ s.haltCp.dbg.haltStart = s.time ∧ s.haltCp.dbg.result.done = true
    ∧ s.haltCp.fwRuns = false := by
  have key : s.haltCp = (s.stopCp.wake 5).dbgDone true := by rw [haltCp, hp]
  have hd : (s.stopCp.wake 5).dbg = { s.dbg with halted := true, haltStart := s.time } := by
    rw [wake_dbg, stopCp_of_running h, traceCp, traceEmit_dbg]
  rw [key, dbgDone, dbgAnswer, fwRuns]
  dsimp only
  rw [hd]
  exact ⟨rfl, wake_level 5, rfl, rfl, by simp⟩

/-! ## The commands of the debug access register -/

/-- A command whose row is a debug access at a scope. -/
def Instr.AccessesAt (c : Instr) (n : Nat) (g : State → State) : Prop := ∀ w : State, exec c w = ok (w.dbgAccess n g)

theorem Instr.AccessesAt.rows {c : Instr} {u : State} (ha : a = ({ s with dbg := { s.dbg with attached := true } } : State).refreshDoms s)
    (h : s.restoring = false) (hc : Instr.AccessesAt c n g) (hg : g a = u) :
    (n ≤ s.dbg.scope.toNat → exec c s = .next u)
      ∧ (s.dbg.scope.toNat < n → exec c s = .next (a.dbgAnswer { done := true, denied := true }))
      ∧ (∀ w : State, w.restoring = true → exec c w
          = .next ((({ w with dbg := { w.dbg with attached := true } } : State).refreshDoms w).dbgAnswer { busy := true })) := by
  subst hg
  exact ⟨fun hn => (hc s).trans (congrArg ok (State.dbgAccess_of_scope ha h hn)),
    fun hn => (hc s).trans (congrArg ok (State.dbgAccess_of_below ha h hn)),
    fun w hw => (hc w).trans (congrArg ok (State.dbgAccess_of_restoring hw))⟩

theorem State.restoreOps_ops (l : List (Nat × NvmAct)) :
    (s.restoreOps l).nvm.ops = s.nvm.ops ++ l.map fun x => { bank := x.1, act := x.2, owner := .restore } := by
  simp [restoreOps, dbgAnswer]

end

/-- Settles O60: each row is an access at its scope, and what it does there. -/
theorem debugAccessesNeedTheirScope : Obligations.DebugAccessesNeedTheirScope := by
  unfold Obligations.DebugAccessesNeedTheirScope
  intro s a sp f ad v ix ha h
  refine ⟨fun c n u hc => ?_, fun o => rfl, fun o => ⟨_, rfl, rfl, rfl⟩, fun o ho => ⟨_, rfl, ?_⟩, fun o => ?_,
    State.haltCp_of_running, State.restoreOps_ops⟩
  · rcases hc with ⟨rfl, rfl, rfl⟩ | ⟨rfl, rfl, rfl⟩ | ⟨rfl, rfl, rfl⟩ | ⟨rfl, rfl, rfl⟩ | ⟨rfl, rfl, rfl⟩ | ⟨rfl, rfl, rfl⟩
      | ⟨rfl, rfl, rfl⟩ | ⟨rfl, rfl, rfl⟩ | ⟨rfl, rfl, rfl⟩ | ⟨rfl, rfl, rfl⟩ | ⟨rfl, rfl, rfl⟩
    · exact Instr.AccessesAt.rows ha h (fun _ => rfl) rfl
    · exact Instr.AccessesAt.rows ha h (fun _ => rfl) rfl
    · exact Instr.AccessesAt.rows ha h (fun _ => rfl) rfl
    · exact Instr.AccessesAt.rows ha h (fun _ => rfl) rfl
    · exact Instr.AccessesAt.rows ha h (fun _ => rfl) rfl
    · exact Instr.AccessesAt.rows ha h (fun _ => rfl) rfl
    · exact Instr.AccessesAt.rows ha h (fun _ => rfl) rfl
    · exact Instr.AccessesAt.rows ha h (fun _ => rfl) rfl
    · exact Instr.AccessesAt.rows ha h (fun _ => rfl) rfl
    · exact Instr.AccessesAt.rows ha h (fun _ => rfl) rfl
    · refine Instr.AccessesAt.rows ha h (fun _ => rfl) ?_
      simp
  · simp [ho]
  · have hf : f.val = 0 ↔ f = 0 := Fin.val_eq_zero_iff
    simp only [pokeScope, hf]

end Sys2Proof.Machine
end

section
/-!
PROOFS. PATTERN_INSTALL and PATTERN_REMOVE (R223 to R228).
-/

namespace Sys2Proof.Machine

/-! ## Steps that may wait for host memory (R265) -/

section
variable {s u : State}

theorem State.orWait_of_blocked (h : u.blocked = true) : s.orWait u = s := if_pos h

theorem State.orWait_of_free (h : u.blocked = false) : s.orWait u = u := if_neg (by simp [h])

@[simp] theorem State.queueCmd_blocked (t : Nat) (l : List (Nat × NvmAct)) (p : NvmPlan) :
    (s.queueCmd t l p).blocked = s.blocked := by
  simp [queueCmd]

end

/-! ## PATTERN_INSTALL (R223, R224, R226) -/

section
variable {s a : State} {t : Ticket} {c : Cmd} {view : HostView} {pl : Place} {p : Bytes} {slot : Nat} {compact : Bool}
  {l : List Extent}

/-- What an install comes to once its package has been read, before a wait for that read counts. -/
def State.installRead (a : State) (n : Nat) (c : Cmd) (pl : Place) (r : Except ReadFail Bytes) : State :=
  match r with
  | .error _ => a.endCmd n St.hostAbort 0 0
  | .ok p => if pkgOk p then a.installGo n c pl p else a.endCmd n St.badParam 0 0

theorem execPatternInstall_of_read {r : Except ReadFail Bytes} (h : s.Waits t.val 0x10 c) (hm : s.myTurn c = true)
    (hp : Entry.paramsOk c.entry = true) (hi : c.input 2 (Entry.dw c.entry 4).toNat = .ok pl)
    (ho : bitOf (Entry.dw c.entry 7) 0 = true → ∃ z, c.output 5 512 = .ok z)
    (hr : s.readPlace view c.fn pl (Entry.dw c.entry 4).toNat = (a, r)) :
    execPatternInstall t view s = ok (s.orWait (a.installRead t.val c pl r)) := by
  have hz : ∃ z, (if bitOf (Entry.dw c.entry 7) 0 then c.output 5 512 else .ok (.sac 0)) = .ok z := by
    cases hb : bitOf (Entry.dw c.entry 7) 0
    · exact ⟨_, rfl⟩
    · exact ho hb
  obtain ⟨z, hz⟩ := hz
  rw [execPatternInstall, State.onTurn_of_waits h, if_pos hm]
  dsimp only
  rw [if_neg (by simp [hp]), hi, hz]
  dsimp only
  rw [hr]
  rfl

theorem State.installGo_of_no_room (h : s.chooseSlot = none ∨ placeExtents s.patterns p = none) {n : Nat} :
    s.installGo n c pl p = s.endCmd n St.noResource 0 0 := by
  unfold installGo
  split
  next h1 h2 => rcases h with h | h <;> simp_all
  next => rfl

/-- The operations of an install, in the order of R226. -/
theorem State.installOps_eq {handle : Nat} {fn : Nat} : s.installOps p pl fn handle slot compact l =
    (l.flatMap fun e => (List.range e.blocks).map fun i => (e.bank, NvmAct.erase (e.first + i)))
      ++ (l.map fun e => (e.bank, NvmAct.program e.first 0 (e.data.length / 256) (.layout pl fn e.parts)))
      ++ (l.map fun e => (e.bank, NvmAct.program (wordAt e.first 0 (e.data.length / 256)).1
          (wordAt e.first 0 (e.data.length / 256)).2 1 (.bytes (extentTag p handle e))))
      ++ (if compact then s.wearOps else [])
      ++ s.planeOps (1 - s.fw.running) slot compact (slotImage p (s.newCommit slot) fn handle (placementMap l))
      ++ s.planeOps s.fw.running slot compact (slotImage p (s.newCommit slot) fn handle (placementMap l)) := rfl

section
variable (hs : s.chooseSlot = some (slot, compact)) (hl : placeExtents s.patterns p = some l) {n : Nat}
include hs hl

theorem State.installGo_of_room : s.installGo n c pl p =
    if l.any fun e => s.reservedFor c e.bank then s.endCmd n St.bankReserved 0 0
    else if !s.nvm.vppOk then (s.endCmd n St.vppLow 0 0).setTrb .vppLow
    else s.queueCmd n (s.installOps p pl c.fn (s.newHandle slot) slot compact l)
      { res0 := BitVec.ofNat 32 (s.newHandle slot), res1 := BitVec.ofNat 32 (l.map fun e => e.blocks).sum
        goal := .install (placementMap l) } := by
  rw [installGo, hs, hl]

theorem State.installGo_of_reserved (h : ∃ e ∈ l, s.reservedFor c e.bank = true) :
    s.installGo n c pl p = s.endCmd n St.bankReserved 0 0 :=
  (installGo_of_room hs hl).trans (if_pos (by simpa using h))

variable (h : ∀ e ∈ l, s.reservedFor c e.bank = false)
include h

theorem State.installGo_of_vppLow (hv : s.nvm.vppOk = false) :
    s.installGo n c pl p = (s.endCmd n St.vppLow 0 0).setTrb .vppLow :=
  (installGo_of_room hs hl).trans ((if_neg (by simpa using h)).trans (if_pos (by simp [hv])))

theorem State.installGo_of_vppOk (hv : s.nvm.vppOk = true) : s.installGo n c pl p =
    s.queueCmd n (s.installOps p pl c.fn (s.newHandle slot) slot compact l)
      { res0 := BitVec.ofNat 32 (s.newHandle slot), res1 := BitVec.ofNat 32 (l.map fun e => e.blocks).sum
        goal := .install (placementMap l) } :=
  (installGo_of_room hs hl).trans ((if_neg (by simpa using h)).trans (if_neg (by simp [hv])))

end

end

/-! ## PATTERN_REMOVE (R228) -/

section
variable {s : State} {t : Ticket} {c : Cmd} {h : Word} (hw : s.Waits t.val 0x11 c) (hm : s.myTurn c = true)
  (hh : h = Entry.handle c.entry)
include hw hm hh

theorem execPatternRemove_of_none (hn : (s.patternOf h).isNone = true) (hf : s.halfRemoved (bitsOf h 7 0) h = false) :
    execPatternRemove t s = ok (s.endCmd t.val St.badParam 0 0) := by
  rw [execPatternRemove, State.onTurn_of_waits hw, if_pos hm, ← hh]
  dsimp only
  rw [if_pos (by simp [hf, hn])]

theorem execPatternRemove_of_named (hp : Entry.paramsOk c.entry = true) (ho : c.fn = 0 ∨ c.fn = s.owner (bitsOf h 7 0))
    (hn : (s.patternOf h).isSome = true ∨ s.halfRemoved (bitsOf h 7 0) h = true) : execPatternRemove t s =
      ok (if s.isBound h then s.endCmd t.val St.bankReserved 0 0
        else if s.tombOps (bitsOf h 7 0) = [] then s.endCmd t.val St.ok 0 0
        else if s.nvm.vppOk then s.queueCmd t.val (s.tombOps (bitsOf h 7 0)) {}
        else (s.endCmd t.val St.vppLow 0 0).setTrb .vppLow) := by
  rw [execPatternRemove, State.onTurn_of_waits hw, if_pos hm, ← hh]
  dsimp only
  rw [if_neg]
  · cases s.tombOps (bitsOf h 7 0) <;> simp
  · rcases ho with ho | ho <;> rcases hn with hn | hn <;> simp [hp, ho, hn, Option.isSome_iff_ne_none.1]

end

/-- Settles O45: an install by what its package and the directory allow, a remove by what its handle names. -/
theorem patternsAreInstalledAndRemoved : Obligations.PatternsAreInstalledAndRemoved := by
  unfold Obligations.PatternsAreInstalledAndRemoved
  intro s t c view
  refine ⟨fun pl h hm hp hi ho a r hr => ?_, fun hw hm hp ho hn => ?_, fun hw hm hn hf => execPatternRemove_of_none hw hm rfl hn hf⟩
  · have key {u : State} (hu : a.installRead t.val c pl r = u) (hb : u.blocked = false) :
        exec (.patternInstall t view) s = .next u :=
      (execPatternInstall_of_read h hm hp hi ho hr).trans (congrArg ok (by rw [hu, State.orWait_of_free hb]))
    refine ⟨fun e he hb => ?_, fun e he hb => ?_, fun p he hb => ⟨fun hk => ?_, fun hk hs => ?_, fun slot compact l hk hs hl =>
      ⟨fun hres => ?_, fun hres hv => ?_, fun hres hv => ?_⟩⟩⟩
    · subst he
      exact key rfl (by simpa using hb)
    · subst he
      exact (execPatternInstall_of_read h hm hp hi ho hr).trans (congrArg ok (State.orWait_of_blocked (by simpa [State.installRead] using hb)))
    · subst he
      exact key (if_neg (by simp [hk])) (by simpa using hb)
    · subst he
      exact key ((if_pos hk).trans (State.installGo_of_no_room hs)) (by simpa using hb)
    · subst he
      exact key ((if_pos hk).trans (State.installGo_of_reserved hs hl hres)) (by simpa using hb)
    · subst he
      exact key ((if_pos hk).trans (State.installGo_of_vppLow hs hl hres hv)) (by simpa using hb)
    · subst he
      exact key ((if_pos hk).trans (State.installGo_of_vppOk hs hl hres hv)) (by simpa using hb)
  · have key {u : State} (hu : _ = u) := (execPatternRemove_of_named hw hm rfl hp ho hn).trans (congrArg ok hu)
    refine ⟨fun hb => key (if_pos hb), fun hb ht => key ((if_neg (by simp [hb])).trans (if_pos ht)),
      fun hb ht => ⟨fun hv => ?_, fun hv => ?_⟩⟩
    · exact key ((if_neg (by simp [hb])).trans ((if_neg ht).trans (if_pos hv)))
    · exact key ((if_neg (by simp [hb])).trans ((if_neg ht).trans (if_neg (by simp [hv]))))

end Sys2Proof.Machine
end

section
/-!
PROOFS. Sending by the Weft, and the commands that run a pattern (R259, R374, R423 to R425, R603).
-/

namespace Sys2Proof.Machine

/-! ## What sending by the Weft may change (R361, R365, R370) -/

/-- `t` is `s` after flits have been queued or sent: only the Weft, its counters, what is sent and the free values differ. -/
def State.Sends (s t : State) : Prop :=
  ∃ o n w p, t = { s with out := s.out ++ o, fresh := n, weft := w, perf := p }

theorem State.Sends.refl (s : State) : s.Sends s := ⟨[], s.fresh, s.weft, s.perf, by simp⟩

theorem State.Sends.trans {s t u : State} (h : s.Sends t) (k : t.Sends u) : s.Sends u := by
  obtain ⟨o, n, w, p, rfl⟩ := h
  obtain ⟨o', n', w', p', rfl⟩ := k
  exact ⟨o ++ o', n', w', p', by simp⟩

section
variable (s : State)

theorem State.updPort_sends (i : Nat) (g : Port → Port) : s.Sends (s.updPort i g) :=
  ⟨[], s.fresh, (s.updPort i g).weft, s.perf, by simp [updPort]⟩

theorem State.emitFlits_sends (i : Nat) (l : List Bytes) : s.Sends (s.emitFlits i l) := ⟨_, s.fresh, s.weft, _, rfl⟩

theorem State.sendBare_sends (i kind seq : Nat) (payload : Bytes) : s.Sends (s.sendBare i kind seq payload) := by
  unfold sendBare
  split
  · exact .refl s
  · exact ⟨_, _, s.weft, s.perf, rfl⟩

theorem State.pump_sends (i : Nat) : s.Sends (s.pump i) := by
  unfold pump
  dsimp only
  split
  · exact .refl s
  · exact ((s.updPort_sends _ _).trans (emitFlits_sends _ _ _)).trans (sendBare_sends ..)

theorem State.sendOn_sends (i : Nat) (body : Bytes) : s.Sends (s.sendOn i body) :=
  (s.updPort_sends _ _).trans (pump_sends _ _)

theorem State.sendTo_sends (dst : Nat) (body : Bytes) : s.Sends (s.sendTo dst body) := by
  unfold sendTo
  split
  · exact s.sendOn_sends ..
  · exact .refl s

theorem State.sendCtrl_sends (dst : Nat) (m : CtrlMsg) : s.Sends (s.sendCtrl dst m) := s.sendTo_sends ..

end

@[simp] theorem State.sendCtrl_blocked (s : State) (dst : Nat) (m : CtrlMsg) : (s.sendCtrl dst m).blocked = s.blocked := by
  obtain ⟨_, _, _, _, h⟩ := s.sendCtrl_sends dst m
  rw [h]

/-! ## The start of a command (R259, R374, R424) -/

section
variable (s : State) (t : Nat) (c : Cmd) (x : Run)

theorem State.assignFrame_blocked : (s.assignFrame t x).1.blocked = s.blocked := by
  unfold assignFrame
  split <;> simp

theorem State.takeSlots_blocked : (s.takeSlots x).1.blocked = s.blocked := rfl

/-- Nothing in the start of a command waits for host memory. -/
theorem State.beginRun_blocked : (s.beginRun t c x).blocked = s.blocked := by
  unfold beginRun
  dsimp only
  split_ifs <;> simp [endUnstarted, assignFrame_blocked, takeSlots_blocked]

/-- What a command that waits for nothing begins with: it goes to a chip of its job, or to the cores of its groups. -/
theorem State.beginRun_of_free {a b : State × Run} (hw : x.waitCap = false) (ha : a = s.takeSlots x) (hb : b = a.1.assignFrame t a.2) :
    s.beginRun t c x = if b.2.chip.isNone && b.1.coreFailed b.2 then s.endUnstarted t x St.coreFault
      else (b.1.setRun t (b.2.countArrival c)).updCmd t fun y => { y with phase := .busy } := by
  have hwa : a.2.waitCap = false := by rw [ha]; exact hw
  have hwb : b.2.waitCap = false := by
    rw [hb, assignFrame]
    split <;> exact hwa
  have hif : (if a.2.waitCap then a else a.1.assignFrame t a.2) = b := by rw [if_neg (by simp [hwa]), hb]
  unfold beginRun
  dsimp only
  rw [← ha, hif, hwb, Bool.not_false, Bool.and_true]

variable {s t c x}

theorem State.launch_bad {u : State} {st : BitVec 16} : s.launch t c (.bad u st) = u.endCmd t st 0 0 := rfl

theorem State.launch_of_dead {u : State} (h : (s.bind x.bind).dead = true) :
    s.launch t c (.good u x) = u.endUnstarted t x St.peerLost := if_pos h

theorem State.launch_of_live {u : State} (h : (s.bind x.bind).dead = false) :
    s.launch t c (.good u x) = u.beginRun t c x := if_neg (by simp [h])

theorem State.launch_blocked {u : State} {x : Run} : (s.launch t c (.good u x)).blocked = u.blocked := by
  cases hd : (s.bind x.bind).dead
  · rw [launch_of_live hd, beginRun_blocked]
  · simp [launch_of_dead hd, endUnstarted]

theorem State.runOn_of_none {p : Nat → Prep} (h : s.boundFor c (Entry.handle c.entry) = none) :
    s.runOn t c p = s.endCmd t St.badParam 0 0 := by
  rw [runOn, h]

theorem State.runOn_of_bound {p : Nat → Prep} {k : Nat} (h : s.boundFor c (Entry.handle c.entry) = some k) :
    s.runOn t c p = s.launch t c (p k) := by
  rw [runOn, h]

end

/-- The four rows that run a pattern run it on the binding that they name; all but the light one may wait. -/
theorem exec_patternCommand {s : State} {t : Ticket} {c : Cmd} {view : HostView} {i : Instr} {op : Nat} {p : Nat → Prep}
    (hi : (i = .run t view ∧ op = 0x13 ∧ Entry.light c.entry = false ∧ p = s.prepRun view c)
      ∨ (i = .runLight t ∧ op = 0x13 ∧ Entry.light c.entry = true ∧ p = s.prepLight c)
      ∨ (i = .chain t view ∧ op = 0x14 ∧ p = s.prepRun view c)
      ∨ (i = .adaptStepTrain t view ∧ op = 0x15 ∧ adaptAction c.entry ≠ 1 ∧ adaptAction c.entry ≠ 2 ∧ s.trainTurn c = true
          ∧ p = s.prepTrain view c))
    (hw : s.Waits t.val op c) (ht : s.bindTurn c = true ∨ s.afterRelease c = true) :
    exec i s = ok (if i = .runLight t then s.runOn t.val c p else s.orWait (s.runOn t.val c p)) := by
  have turn (f : Cmd → State) : s.onBind t.val [op] f = f c := by
    rw [State.onBind_of_waits hw, if_pos (by simpa using ht)]
  rcases hi with ⟨rfl, rfl, hl, rfl⟩ | ⟨rfl, rfl, hl, rfl⟩ | ⟨rfl, rfl, rfl⟩ | ⟨rfl, rfl, h1, h2, htr, rfl⟩
  · change execRun t view s = _
    rw [execRun, turn, if_neg (by simp [hl]), if_neg (by simp)]
  · change execRunLight t s = _
    rw [execRunLight, turn, if_pos hl, if_pos rfl]
  · change execChain t view s = _
    rw [execChain, turn, if_neg (by simp)]
  · change execAdaptStepTrain t view s = _
    rw [execAdaptStepTrain, turn, if_neg (by simp [h1, h2, htr]), if_neg (by simp)]

/-! ## What the checks of a RUN or CHAIN leave of its entry (R423, R424) -/

/-- Two descriptions of a command agree in what its entry alone decides. -/
structure Run.SameEntry (x y : Run) : Prop where
  fn : y.fn = x.fn
  bind : y.bind = x.bind
  waitCap : y.waitCap = x.waitCap
  abort : y.abort = x.abort
  nbuf : y.nbuf = x.nbuf
  lens : y.lens = x.lens
  first : y.first = x.first
  last : y.last = x.last

theorem Run.SameEntry.refl (x : Run) : x.SameEntry x := ⟨rfl, rfl, rfl, rfl, rfl, rfl, rfl, rfl⟩

theorem Run.SameEntry.trans {x y z : Run} (h : x.SameEntry y) (k : y.SameEntry z) : x.SameEntry z :=
  ⟨k.fn.trans h.fn, k.bind.trans h.bind, k.waitCap.trans h.waitCap, k.abort.trans h.abort, k.nbuf.trans h.nbuf,
    k.lens.trans h.lens, k.first.trans h.first, k.last.trans h.last⟩

/-- A preparation that accepts a command accepts one of the same entry. -/
inductive Prep.Of (x : Run) : Prep → Prop where
  | bad {s : State} {st : BitVec 16} : Prep.Of x (.bad s st)
  | good {s : State} {y : Run} (h : x.SameEntry y) : Prep.Of x (.good s y)

theorem Prep.Of.then {x : Run} {p : Prep} {f : State → Run → Prep} (hp : p.Of x) (hf : ∀ s y, (f s y).Of y) : (p.then f).Of x := by
  cases hp with
  | bad => exact .bad
  | good h =>
    unfold Prep.then
    dsimp only
    rename_i s y
    have k := hf s y
    cases e : f s y with
    | bad => exact .bad
    | good =>
      rw [e] at k
      cases k with
      | good k => exact .good (h.trans k)

theorem Prep.Of.each {α : Type} {x : Run} {f : α → State → Run → Prep} (hf : ∀ a s y, (f a s y).Of y) (l : List α) {p : Prep}
    (hp : p.Of x) : (p.each l f).Of x := by
  induction l generalizing p with
  | nil => exact hp
  | cons a l ih => exact ih (hp.then (hf a))

section
variable (s : State) (view : HostView) (c : Cmd) (x : Run)

theorem State.prepPieces_of : (s.prepPieces x).Of x := by
  unfold prepPieces
  dsimp only
  split
  · exact .bad
  · split
    · exact .good ⟨rfl, rfl, rfl, rfl, rfl, rfl, rfl, rfl⟩
    · exact .bad

theorem Cmd.prepMap_of (lo : Nat) : (c.prepMap lo s x).Of x := by
  unfold prepMap
  dsimp only
  split_ifs
  · exact .bad
  · exact .good (.refl x)
  · exact .bad
  · exact .good ⟨rfl, rfl, rfl, rfl, rfl, rfl, rfl, rfl⟩

theorem Cmd.tabBuffer_of (t : Bytes) (i : Nat) : (c.tabBuffer t i s x).Of x := by
  unfold tabBuffer
  split
  · exact .bad
  · split
    · exact .bad
    · exact .good ⟨rfl, rfl, rfl, rfl, rfl, rfl, rfl, rfl⟩

theorem State.prepTable_of (lo start : Nat) : (s.prepTable view c lo start x).Of x := by
  unfold prepTable
  split
  · exact .good (.refl x)
  · split
    · exact .bad
    · dsimp only
      split
      · exact .bad
      · exact Prep.Of.each (fun i s y => c.tabBuffer_of s y _ i) _ (.good (.refl x))

theorem Cmd.prepAdapter_of : (c.prepAdapter s x).Of x := by
  unfold prepAdapter
  dsimp only
  split
  · exact .good (.refl x)
  · split_ifs
    · exact .bad
    · exact .bad
    · exact .good ⟨rfl, rfl, rfl, rfl, rfl, rfl, rfl, rfl⟩

theorem State.burstNow_sameEntry {buf i : Nat} {t : State} {y : Run} (h : s.burstNow view x buf i = some (t, y)) :
    x.SameEntry y := by
  unfold burstNow at h
  dsimp only at h
  split at h
  · cases h
  · split at h
    · cases h
      exact ⟨rfl, rfl, rfl, rfl, rfl, rfl, rfl, rfl⟩
    · cases h

theorem checkSpan_of (buf fuel o e : Nat) : (checkSpan view c buf fuel o e s x).Of x := by
  induction fuel generalizing o s x with
  | zero => exact .good (.refl x)
  | succ fuel ih =>
    unfold checkSpan
    split
    · exact .good (.refl x)
    · split
      · exact .bad
      · split
        · exact .bad
        next h => exact Prep.Of.then (.good (s.burstNow_sameEntry view x h)) fun s y => ih s y _
      · split
        · exact .bad
        · split
          · exact .bad
          · exact Prep.Of.then (p := .good s _) (.good ⟨rfl, rfl, rfl, rfl, rfl, rfl, rfl, rfl⟩) fun s y => ih s y _

theorem State.prepLists_of : (s.prepLists view c x).Of x :=
  Prep.Of.each (fun _ s y => checkSpan_of s view c y ..) _ (.good (.refl x))

end

/-- A RUN or CHAIN that is accepted has its entry's stages, and what else its entry says. -/
theorem State.prepRun_good {s u : State} {view : HostView} {c : Cmd} {k : Nat} {x : Run} (h : s.prepRun view c k = .good u x) :
    ∃ f l, runStages c.entry (Pattern.stageCount (s.bindPattern (s.bind k))) = some (f, l) ∧ (s.runBase c k f l).SameEntry x := by
  unfold prepRun at h
  dsimp only at h
  split at h
  · cases h
  next f l hs =>
    split at h
    · cases h
    · have key : Prep.Of (s.runBase c k f l) (.good u x) := h ▸
        ((((s.prepPieces_of _).then fun s y => c.prepMap_of s y 7).then fun s y => s.prepTable_of view c y 5 0).then
          fun s y => c.prepAdapter_of s y).then fun s y => s.prepLists_of view c y
      cases key with
      | good key => exact ⟨f, l, hs, key⟩

/-- Settles O46: the row is a start on the binding that it names, by how far its preparation comes. -/
theorem patternCommandsBegin : Obligations.PatternCommandsBegin := by
  unfold Obligations.PatternCommandsBegin
  intro s t c view i op p hi hw hb ht
  have row {u : State} (hu : s.runOn t.val c p = u) (hub : u.blocked = false) : exec i s = .next u := by
    rw [exec_patternCommand hi hw ht, hu, State.orWait_of_free hub, ite_self]
  refine ⟨fun hn => row (State.runOn_of_none hn) (by simpa using hb), fun k hk => ⟨fun u st hp hu => ?_, fun u st hp hu hl => ?_,
    fun u x hp hu => ⟨fun hd => ?_, fun a b hd hwc ha hbb => ?_⟩⟩, fun k u x hp => ?_⟩
  · have run := (State.runOn_of_bound (t := t.val) (p := p) hk).trans (congrArg _ hp)
    exact row run (by simpa [State.launch_bad] using hu)
  · have run := (State.runOn_of_bound (t := t.val) (p := p) hk).trans (congrArg _ hp)
    rw [exec_patternCommand hi hw ht, if_neg hl, run, State.orWait_of_blocked (by simpa [State.launch_bad] using hu)]
  · have run := (State.runOn_of_bound (t := t.val) (p := p) hk).trans (congrArg _ hp)
    exact row (run.trans (State.launch_of_dead hd)) (by simpa using hu)
  · have run := (State.runOn_of_bound (t := t.val) (p := p) hk).trans (congrArg _ hp)
    have hbl : (s.launch t.val c (.good u x)).blocked = false := State.launch_blocked.trans hu
    have row := row run hbl
    rw [State.launch_of_live hd, State.beginRun_of_free u t.val c x hwc ha hbb] at row
    refine ⟨fun h => row.trans (congrArg Host.Outcome.next (if_neg ?_)), fun h h2 => row.trans (congrArg Host.Outcome.next (if_pos ?_))⟩
    · rcases h with h | h
      · cases hch : b.2.chip <;> simp [hch] at h ⊢
      · simp [h]
    · simp [h, h2]
  · obtain ⟨f, l, hs, h⟩ := State.prepRun_good hp
    exact ⟨h.fn, h.bind, h.waitCap, h.abort, h.nbuf, h.lens, by rw [hs, h.first, h.last]; rfl⟩

end Sys2Proof.Machine
end

section
/-!
PROOFS. ATTACH and DETACH (R426, R473, R601).
-/

namespace Sys2Proof.Machine

/-! ## ATTACH and DETACH on the binding that they name (R473, R601) -/

section
variable {s : State} {t act : Nat} {c : Cmd} {f : Cmd → Nat → State}

/-- With good parameters, on a live binding of one chip, an ATTACH or DETACH acts. -/
theorem State.onAdapter_of_bound {k : Nat} (hw : s.Waits t 0x15 c) (ht : s.bindTurn c = true ∨ s.afterRelease c = true)
    (ha : adaptAction c.entry = act) (hp : Entry.paramsOk c.entry = true) (hk : s.boundFor c (Entry.handle c.entry) = some k)
    (h1 : (s.bind k).chips ≤ 1) : s.onAdapter t act f = f c k := by
  rw [onAdapter, onBind_of_waits hw, if_pos (by simpa using ht)]
  simp [ha, hp, hk, Nat.not_lt.mpr h1]

/-- A bad parameter, no binding of the handle, or one of several chips ends an ATTACH or DETACH with BAD_PARAM. -/
theorem State.onAdapter_of_bad (hw : s.Waits t 0x15 c) (ht : s.bindTurn c = true ∨ s.afterRelease c = true)
    (ha : adaptAction c.entry = act)
    (hb : Entry.paramsOk c.entry = false ∨ s.boundFor c (Entry.handle c.entry) = none
        ∨ (∃ k, s.boundFor c (Entry.handle c.entry) = some k ∧ 1 < (s.bind k).chips)) :
    s.onAdapter t act f = s.endCmd t St.badParam 0 0 := by
  rw [onAdapter, onBind_of_waits hw, if_pos (by simpa using ht)]
  rcases hb with hp | hn | ⟨k, hk, h1⟩
  · simp [ha, hp]
  · simp [ha, hn]
  · simp [ha, hk, h1]

end

/-- Settles O47: both rows go through the checks of an ATTACH or DETACH; an ATTACH then meets its region's outcome. -/
theorem adaptersAttachAndDetach : Obligations.AdaptersAttachAndDetach := by
  unfold Obligations.AdaptersAttachAndDetach
  rintro s t c st rfl hw ht
  refine ⟨fun k hp hk h1 => ⟨fun ha a len hr => ?_, fun ha e he => congrArg Host.Outcome.next ?_,
    fun ha => congrArg Host.Outcome.next (State.onAdapter_of_bound hw ht ha hp hk h1)⟩,
    fun hb => ⟨fun ha => congrArg Host.Outcome.next (State.onAdapter_of_bad hw ht ha hb),
      fun ha => congrArg Host.Outcome.next (State.onAdapter_of_bad hw ht ha hb)⟩⟩
  · refine ⟨fun ho hl => congrArg Host.Outcome.next ?_, fun ho hl => congrArg Host.Outcome.next ?_,
      fun ho => congrArg Host.Outcome.next ?_⟩ <;> rw [State.onAdapter_of_bound hw ht ha hp hk h1, hr] <;> dsimp only
    · exact (if_neg (by simp [ho])).trans (if_neg (Nat.not_lt.mpr hl))
    · exact (if_neg (by simp [ho])).trans (if_pos hl)
    · exact if_pos (by simp [ho])
  · rw [State.onAdapter_of_bound hw ht ha hp hk h1, he]

end Sys2Proof.Machine
end

section
/-!
PROOFS. The commands of the weight store and their checks (R92, R415, R434 to R437).
-/

namespace Sys2Proof.Machine

/-! ## The acceptance of NVM_PROGRAM and NVM_ERASE (R92, Table 4-1) -/

section
variable {s : State} {c : Cmd}

/-- A locked store is the first check of both. -/
theorem State.ownCheck_of_locked (ho : Entry.opcode c.entry = 0x31 ∨ Entry.opcode c.entry = 0x32) (hu : s.nvm.unlocked = false) :
    s.ownCheck c = some St.nvmLocked := by
  rw [ownCheck, if_pos ho, nvmCheck, if_neg (by rcases ho with h | h <;> simp [h]), if_pos (by simp [hu])]

/-- On an unlocked store a program is checked for its ranges, then its bank, then its source. -/
theorem State.ownCheck_program (ho : Entry.opcode c.entry = 0x31) (hu : s.nvm.unlocked = true) :
    s.ownCheck c = if nvmProgramOk c.entry = false then some St.badParam
      else if s.reservedFor c (Entry.handle c.entry).toNat = true then some St.bankReserved
      else match c.input 3 (256 * (nvmRange c.entry).2.2) with
        | .error st => some st
        | .ok _ => none := by
  rw [ownCheck, if_pos (.inl ho), nvmCheck]
  simp [ho, hu] <;> rfl

/-- On an unlocked store an erase is checked for its ranges, then its bank. -/
theorem State.ownCheck_erase (ho : Entry.opcode c.entry = 0x32) (hu : s.nvm.unlocked = true) :
    s.ownCheck c = if nvmEraseOk c.entry = false then some St.badParam
      else if s.reservedFor c (Entry.handle c.entry).toNat = true then some St.bankReserved else none := by
  rw [ownCheck, if_pos (.inr ho), nvmCheck]
  simp [ho, hu]

end

section
variable {e : Entry}

/-- What puts a program within its ranges (R92). -/
theorem nvmProgramOk_iff : nvmProgramOk e = true ↔
    (Entry.handle e).toNat < 64 ∧ (nvmRange e).1 < 126 ∧ 1 ≤ (nvmRange e).2.2 ∧ (nvmRange e).2.1 + (nvmRange e).2.2 ≤ 1024
      ∧ bitsOf (Entry.dw e 2) 31 28 = 0 ∧ Entry.zeros e [5, 6, 7, 8, 9, 10, 11, 12, 13, 14, 15] = true := by
  have hlog (h : (Entry.handle e).toNat < 64) : nvmLogical (Entry.handle e).toNat = 126 := if_pos h
  simp only [nvmProgramOk, nvmRangeOk, Bool.and_eq_true, decide_eq_true_eq, beq_iff_eq]
  constructor
  · rintro ⟨⟨⟨hb, ⟨⟨-, hl⟩, hn⟩, hw⟩, h28⟩, hz⟩
    exact ⟨hb, hlog hb ▸ hl, hn, hw, h28, hz⟩
  · rintro ⟨hb, hl, hn, hw, h28, hz⟩
    exact ⟨⟨⟨hb, ⟨⟨hb.trans (by decide), (hlog hb).symm ▸ hl⟩, hn⟩, hw⟩, h28⟩, hz⟩

theorem nvmEraseOk_iff : nvmEraseOk e = true ↔
    (Entry.handle e).toNat < 64 ∧ (Entry.dw e 2).toNat < 126
      ∧ Entry.zeros e [3, 4, 5, 6, 7, 8, 9, 10, 11, 12, 13, 14, 15] = true := by
  simp only [nvmEraseOk, Bool.and_eq_true, decide_eq_true_eq, and_assoc]

end

/-! ## The rows of the weight store on a command that waits -/

section
variable {s : State} {t : Ticket} {c : Cmd}

theorem exec_nvmScrubBlock_of_waits (hw : s.Waits t.val 0x34 c) (ht : s.myTurn c = true) (hm : bitOf (Entry.dw c.entry 2) 7 = false) :
    exec (.nvmScrubBlock t) s = .next (if Entry.paramsOk c.entry = true
      then s.queueCmd t.val [((Entry.handle c.entry).toNat, .relocate (nvmRange c.entry).1)] {} else s.endCmd t.val St.badParam 0 0) := by
  change Host.Outcome.next _ = _
  rw [State.onTurn_of_waits hw, if_pos ht]
  cases hp : Entry.paramsOk c.entry <;> simp [hm, nvmRange]

/-- NVM_SCRUB of every due block of a bank: nothing to do ends it, and else each block is queued. -/
theorem exec_nvmScrubDue_of_waits (hw : s.Waits t.val 0x34 c) (ht : s.myTurn c = true) (hm : bitOf (Entry.dw c.entry 2) 7 = true)
    (hp : Entry.paramsOk c.entry = true) :
    exec (.nvmScrubDue t) s = .next (if s.nvm.dueBlocks (Entry.handle c.entry).toNat = [] then s.endCmd t.val St.ok 0 0
      else s.queueCmd t.val ((s.nvm.dueBlocks (Entry.handle c.entry).toNat).map fun x =>
        ((Entry.handle c.entry).toNat, NvmAct.relocate x)) {}) := by
  change Host.Outcome.next _ = _
  rw [State.onTurn_of_waits hw, if_pos ht]
  dsimp only
  rw [if_neg (by simp [hm]), if_neg (by simp [hp])]
  cases s.nvm.dueBlocks (Entry.handle c.entry).toNat <;> rfl

theorem exec_nvmScrubDue_of_bad (hw : s.Waits t.val 0x34 c) (ht : s.myTurn c = true) (hm : bitOf (Entry.dw c.entry 2) 7 = true)
    (hp : Entry.paramsOk c.entry = false) : exec (.nvmScrubDue t) s = .next (s.endCmd t.val St.badParam 0 0) := by
  change Host.Outcome.next _ = _
  rw [State.onTurn_of_waits hw, if_pos ht]
  simp [hm, hp]

theorem exec_nvmProgram_of_waits {p : Place} (hw : s.Waits t.val 0x31 c) (ht : s.myTurn c = true) (hp : Entry.paramsOk c.entry = true)
    (hi : c.input 3 (256 * (nvmRange c.entry).2.2) = .ok p) :
    exec (.nvmProgram t) s = .next (s.queueCmd t.val
      [((Entry.handle c.entry).toNat, .program (nvmRange c.entry).1 (nvmRange c.entry).2.1 (nvmRange c.entry).2.2 (.mem p c.fn))] {}) := by
  change Host.Outcome.next _ = _
  rw [State.onTurn_of_waits hw, if_pos ht]
  dsimp only
  rw [if_neg (by simp [hp]), hi]

theorem exec_nvmErase_of_waits (hw : s.Waits t.val 0x32 c) (ht : s.myTurn c = true) (hp : Entry.paramsOk c.entry = true) :
    exec (.nvmErase t) s = .next (s.queueCmd t.val [((Entry.handle c.entry).toNat, .erase (Entry.dw c.entry 2).toNat)] {}) := by
  change Host.Outcome.next _ = _
  rw [State.onTurn_of_waits hw, if_pos ht, if_neg (by simp [hp])]

/-- NVM_READ and NVM_STATUS end with BAD_PARAM on a bad parameter. -/
theorem exec_nvmRead_of_bad (hw : s.Waits t.val 0x30 c) (hp : Entry.paramsOk c.entry = false) :
    exec (.nvmRead t) s = .next (s.endCmd t.val St.badParam 0 0) := by
  change Host.Outcome.next _ = _
  rw [State.onCmd_of_waits hw]
  simp [hp]

theorem exec_nvmStatus_of_bad (hw : s.Waits t.val 0x33 c) (hp : Entry.paramsOk c.entry = false) :
    exec (.nvmStatus t) s = .next (s.endCmd t.val St.badParam 0 0) := by
  change Host.Outcome.next _ = _
  rw [State.onCmd_of_waits hw]
  simp [hp]

/-- An NVM_READ of a bank, by its output and by what runs on the bank. -/
theorem exec_nvmRead_of_waits {b l w n : Nat} (hb : b = (Entry.handle c.entry).toNat) (hr : (l, w, n) = nvmRange c.entry)
    (hw : s.Waits t.val 0x30 c) (hp : Entry.paramsOk c.entry = true) :
    (∀ e, c.output 4 (Entry.dw c.entry 6).toNat = .error e → exec (.nvmRead t) s = .next (s.endCmd t.val e 0 0))
    ∧ ∀ p, c.output 4 (Entry.dw c.entry 6).toNat = .ok p →
      (∀ o, s.nvm.running b = some o → exec (.nvmRead t) s = .next ((s.writePlace c.fn p
        (busyWords (s.nvm.statusWord o) n (bitOf (Entry.dw c.entry 3) 0)) false).endCmd t.val St.ok (BitVec.ofNat 32 n) (BitVec.ofNat 32 n)))
      ∧ (s.nvm.running b = none → ∀ r, r = (s.pd4Read b).readWords b l w n → ∀ bad, bad = (r.2.filter fun x => x.uncorr).length →
        exec (.nvmRead t) s = .next ((r.1.writePlace c.fn p (reported r.2 (bitOf (Entry.dw c.entry 3) 0)) false).endCmd t.val
          (if bad = 0 then St.ok else St.nvmUncorrectable) (BitVec.ofNat 32 (n + 65536 * bad))
          (BitVec.ofNat 32 (65536 * (r.2.filter fun x => decide (0 < x.corrected)).length)))) := by
  have row : execNvmRead t s = _ := congrArg ok (State.onCmd_of_waits hw _)
  rw [← hr] at row
  dsimp only at row
  rw [if_neg (by simp [hp]), ← hb] at row
  refine ⟨fun e he => ?_, fun p h => ⟨fun o ho => ?_, fun ho r hrw bad hbad => ?_⟩⟩
  · exact row.trans (by rw [he])
  · exact row.trans (by rw [h, ho])
  · exact row.trans (by rw [h, ho, hbad, hrw])

/-- An NVM_STATUS of a bank, without its output and with it. -/
theorem exec_nvmStatus_of_waits {b : Nat} (hb : b = (Entry.handle c.entry).toNat) (hw : s.Waits t.val 0x33 c)
    (hp : Entry.paramsOk c.entry = true) :
    (bitOf (Entry.dw c.entry 4) 0 = false → exec (.nvmStatus t) s = .next (s.endCmd t.val St.ok (s.bankWord b) s.nvm.opseq))
    ∧ (bitOf (Entry.dw c.entry 4) 0 = true →
      (∀ e, c.output 2 (8 * nvmPhys b) = .error e → exec (.nvmStatus t) s = .next (s.endCmd t.val e 0 0))
      ∧ ∀ p, c.output 2 (8 * nvmPhys b) = .ok p → exec (.nvmStatus t) s = .next ((s.writePlace c.fn p
        ((List.range (nvmPhys b)).flatMap fun k => s.nvm.blockEntry b k) false).endCmd t.val St.ok (s.bankWord b) s.nvm.opseq)) := by
  have row : execNvmStatus t s = _ := congrArg ok (State.onCmd_of_waits hw _)
  dsimp only at row
  rw [if_neg (by simp [hp]), ← hb] at row
  refine ⟨fun he => row.trans (by rw [he]; rfl), fun he => ⟨fun e h => row.trans (by rw [he, h]; rfl), fun p h => row.trans (by rw [he, h]; rfl)⟩⟩

end

/-- Settles O50: the checks at acceptance by their order, then each row by its branches. -/
theorem weightStoreCommandsAreCheckedInOrder : Obligations.WeightStoreCommandsAreCheckedInOrder := by
  unfold Obligations.WeightStoreCommandsAreCheckedInOrder
  intro s t c b l w n hb hr
  have hl : l = (nvmRange c.entry).1 := congrArg (fun x : Nat × Nat × Nat => x.1) hr
  have hw : w = (nvmRange c.entry).2.1 := congrArg (fun x : Nat × Nat × Nat => x.2.1) hr
  have hn : n = (nvmRange c.entry).2.2 := congrArg (fun x : Nat × Nat × Nat => x.2.2) hr
  refine ⟨fun ho => ⟨State.ownCheck_of_locked (.inl ho), fun hu hbad => ?_, fun hu h1 h2 h3 h4 h5 h6 => ?_⟩,
    fun ho => ⟨State.ownCheck_of_locked (.inr ho), fun hu hbad => ?_, fun hu h1 h2 h3 => ?_⟩,
    fun p hwt ht hp hi => ?_, fun hwt ht hp => hb ▸ exec_nvmErase_of_waits hwt ht hp,
    fun hwt ht => ⟨fun hm => hb ▸ hl ▸ exec_nvmScrubBlock_of_waits hwt ht hm, fun hm hp => exec_nvmScrubDue_of_bad hwt ht hm hp,
      fun hm hp => ⟨fun hd => ?_, fun hd => ?_⟩⟩,
    fun k a p => by simp [State.queueCmd], ?_, fun hwt => ⟨exec_nvmStatus_of_bad hwt, fun hp => (exec_nvmStatus_of_waits hb hwt hp).1,
      fun r hp he hout => ?_⟩⟩
  · rw [State.ownCheck_program ho hu, if_pos]
    rw [Bool.eq_false_iff, Ne, nvmProgramOk_iff, ← hb, ← hl, ← hw, ← hn]
    omega
  · have ok : nvmProgramOk c.entry = true := nvmProgramOk_iff.2 (by rw [← hb, ← hl, ← hw, ← hn]; exact ⟨h1, h2, h3, h4, h5, h6⟩)
    rw [State.ownCheck_program ho hu, if_neg (by simp [ok]), ← hb, ← hn]
    refine ⟨fun h => if_pos h, fun h e he => ?_, fun h p hp => ?_⟩
    · rw [if_neg (by simp [h]), he]
    · rw [if_neg (by simp [h]), hp]
  · rw [State.ownCheck_erase ho hu, if_pos]
    rw [Bool.eq_false_iff, Ne, nvmEraseOk_iff, ← hb]
    omega
  · have ok : nvmEraseOk c.entry = true := nvmEraseOk_iff.2 (by rw [← hb]; exact ⟨h1, h2, h3⟩)
    rw [State.ownCheck_erase ho hu, if_neg (by simp [ok]), ← hb]
  · rw [exec_nvmProgram_of_waits hwt ht hp (by rw [← hn]; exact hi), hb, hl, hw, hn]
  · rw [exec_nvmScrubDue_of_waits hwt ht hm hp, ← hb, if_neg hd]
  · rw [exec_nvmScrubDue_of_waits hwt ht hm hp, ← hb, if_pos hd]
  · rintro rep len r rfl rfl hwt hrr
    refine ⟨exec_nvmRead_of_bad hwt, fun e hp => (exec_nvmRead_of_waits hb hr hwt hp).1 e, fun p hp hout => ?_⟩
    obtain ⟨busy, rest⟩ := (exec_nvmRead_of_waits hb hr hwt hp).2 p hout
    refine ⟨fun h bad fixed hbad hfix => ?_, busy⟩
    rw [rest h r hrr bad hbad, hfix]
    rfl
  · obtain ⟨bad, good⟩ := (exec_nvmStatus_of_waits hb hwt hp).2 he
    exact ⟨fun e hr => bad e (hout.trans hr), fun p hr => good p (hout.trans hr)⟩

end Sys2Proof.Machine
end

section
/-!
PROOFS. The settings and firmware commands (R441 to R443, R559, R564, R565, R582).
-/

namespace Sys2Proof.Machine

/-! ## The stored settings record (R441, R564, Table 21-5) -/

section
variable {b c d : Bytes} {o p n v k : Nat}

theorem spliceBytes_of_le (h : o + d.length ≤ b.length) : spliceBytes b o d = b.take o ++ d ++ b.drop (o + d.length) :=
  List.take_of_length_le (by simp; omega)

@[simp] theorem length_spliceBytes : (spliceBytes b o d).length = b.length := by
  simp [spliceBytes]
  omega

/-- A number that was put in reads back. -/
theorem leAt_spliceBytes (h : o + n ≤ b.length) : leAt (spliceBytes b o (leBytes n v)) o n = v % 256 ^ n := by
  have hpre : (b.take o).length = o := List.length_take_of_le (by omega)
  rw [spliceBytes_of_le (by simpa using h), List.append_assoc]
  conv_lhs => rw [← hpre]
  rw [hpre, ← leAt_leBytes (b.take o), hpre]

/-- A number that lies before a cut does not depend on the bytes after it. -/
theorem leAt_take_append (h : p + n ≤ k) (hk : k ≤ b.length) : leAt (b.take k ++ c) p n = leAt b p n := by
  have hl : (b.take k).length = k := List.length_take_of_le hk
  rw [leAt, leAt, List.drop_append_of_le_length (by omega), List.take_append_of_le_length (by simp; omega), List.drop_take,
    List.take_take, Nat.min_eq_left (by omega)]

theorem leAt_spliceBytes_before (h : p + n ≤ o) (hb : o + d.length ≤ b.length) : leAt (spliceBytes b o d) p n = leAt b p n := by
  rw [spliceBytes_of_le hb, List.append_assoc, leAt_take_append h (by omega)]

/-- What a record of 4,096 bytes holds after its seq was replaced: its own CRC, that seq, and what stands before it. -/
theorem recordWith_fields {seq : Nat} (h : b.length = 4096) :
    leAt (recordWith b seq) 4092 4 = (crc32 ((recordWith b seq).take 4092)).toNat
    ∧ leAt (recordWith b seq) 8 4 = seq % 256 ^ 4 ∧ leAt (recordWith b seq) 4 2 = leAt b 4 2 := by
  have hc : ((spliceBytes b 8 (leBytes 4 seq)).take 4092).length = 4092 := by simp [h]
  refine ⟨?_, ?_, ?_⟩
  · have crc := leAt_leBytes ((spliceBytes b 8 (leBytes 4 seq)).take 4092) [] 4
      (crc32 ((spliceBytes b 8 (leBytes 4 seq)).take 4092)).toNat
    rw [hc, List.append_nil, Nat.mod_eq_of_lt (show _ < 256 ^ 4 from BitVec.isLt _)] at crc
    rw [recordWith, List.take_left' hc, crc]
  · rw [recordWith, leAt_take_append (by decide) (by simp [h]), leAt_spliceBytes (by omega)]
  · rw [recordWith, leAt_take_append (by decide) (by simp [h]), leAt_spliceBytes_before (by decide) (by simp [h])]

end

/-- The record that SETTINGS_SET stores: its CRC, the next seq and the own version. -/
theorem State.newRecord_fields (s : State) {b : Bytes} (h : b.length = 4096) (hv : s.fw.setOwn < 65536) :
    leAt (s.newRecord b) 4092 4 = (crc32 ((s.newRecord b).take 4092)).toNat
    ∧ recordSeq (s.newRecord b) = (recordSeq s.fw.record + 1) % 4294967296 ∧ recordVersion (s.newRecord b) = s.fw.setOwn := by
  obtain ⟨crc, seq, version⟩ := recordWith_fields (b := spliceBytes b 4 (leBytes 2 s.fw.setOwn))
    (seq := (recordSeq s.fw.record + 1) % 2 ^ 32) (length_spliceBytes.trans h)
  refine ⟨crc, seq.trans (Nat.mod_mod _ _), version.trans ?_⟩
  rw [leAt_spliceBytes (by omega), Nat.mod_eq_of_lt (show _ < 256 ^ 2 from hv)]

/-- What a record that a mode accepts satisfies. -/
theorem State.settingsOk_fields {s : State} {m : Nat} {b : Bytes} (h : s.settingsOk m b = true) :
    recordGood b = true ∧ recordFieldsOk b = true
    ∧ (m = 0 → s.fw.defaulted = false ∧ recordVersion b = s.fw.setOwn ∧ recordSeq b = recordSeq s.fw.record)
    ∧ (m = 1 → s.fw.migLo ≤ recordVersion b ∧ recordVersion b ≤ s.fw.setOwn) ∧ (m = 2 → recordVersion b = s.fw.setOwn) := by
  simp only [settingsOk, Bool.and_eq_true] at h
  obtain ⟨⟨good, fields⟩, mode⟩ := h
  refine ⟨good, fields, ?_, ?_, ?_⟩ <;> rintro rfl <;> simpa [and_assoc] using mode

/-! ## The settings commands (R441, R565, R582) -/

section
variable {s : State} {t : Ticket} {c : Cmd} {view : HostView}

theorem execSettingsGet_of_waits (hw : s.Waits t.val 0x50 c) (ht : s.myTurn c = true) :
    (Entry.paramsOk c.entry = false → exec (.settingsGet t) s = .next (s.endCmd t.val St.badParam 0 0))
    ∧ (∀ e, Entry.paramsOk c.entry = true → c.output 2 (Entry.dw c.entry 4).toNat = .error e →
      exec (.settingsGet t) s = .next (s.endCmd t.val e 0 0))
    ∧ ∀ p, Entry.paramsOk c.entry = true → c.output 2 (Entry.dw c.entry 4).toNat = .ok p →
      exec (.settingsGet t) s = .next ((s.writePlace c.fn p s.fw.record false).endCmd t.val St.ok
        (mkWord [(0, recordVersion s.fw.record), (16, b2n s.fw.defaulted)]) (BitVec.ofNat 32 (leAt s.fw.record 4092 4))) := by
  have row : execSettingsGet t s = _ := congrArg ok ((State.onTurn_of_waits hw _).trans (if_pos ht))
  refine ⟨fun hp => row.trans (by simp [hp]), fun e hp he => row.trans (by simp [hp, he]),
    fun p hp h => row.trans (by simp [hp, h])⟩

/-- The three rows of SETTINGS_SET on a command of their own mode. -/
theorem exec_settingsSet_of_waits {m : Nat} {i : Instr}
    (hi : (m = 0 ∧ i = .settingsSetUpdate t view) ∨ (m = 1 ∧ i = .settingsSetMigrate t view) ∨ (m = 2 ∧ i = .settingsSetReplace t view))
    (hw : s.Waits t.val 0x51 c) (ht : s.myTurn c = true) (hm : bitsOf (Entry.dw c.entry 2) 1 0 = m) :
    exec i s = .next (s.orWait (if Entry.paramsOk c.entry = true then s.settingsWrite t.val c m view
      else s.endCmd t.val St.badParam 0 0)) := by
  have row : s.settingsSet t.val m view = if Entry.paramsOk c.entry = true then s.settingsWrite t.val c m view
      else s.endCmd t.val St.badParam 0 0 := by
    rw [State.settingsSet, State.onTurn_of_waits hw, if_pos ht]
    cases hp : Entry.paramsOk c.entry <;> simp [hm]
  rcases hi with ⟨rfl, rfl⟩ | ⟨rfl, rfl⟩ | ⟨rfl, rfl⟩ <;> exact congrArg (fun u => Host.Outcome.next (s.orWait u)) row

/-- A source record that was read is refused, or its programs are queued. -/
theorem State.settingsWrite_of_read {p : Place} {m : Nat} {b : Bytes} (hi : c.input 3 4096 = .ok p)
    (ha : (s.readPlace view c.fn p 4096).2 = .ok b) :
    s.settingsWrite t.val c m view = if s.settingsOk m b = true then (s.readPlace view c.fn p 4096).1.queueCmd t.val
        (s.nvm.recordOps (1 - s.fw.running) (s.newRecord b) ++ s.nvm.recordOps s.fw.running (s.newRecord b))
        { res1 := BitVec.ofNat 32 (leAt (s.newRecord b) 4092 4), goal := .settings (s.newRecord b) (m != 0) }
      else (s.readPlace view c.fn p 4096).1.endCmd t.val St.badParam 0 0 := by
  rw [settingsWrite, hi]
  dsimp only
  rw [ha]
  cases h : s.settingsOk m b <;> simp [h]

theorem State.settingsWrite_of_unread {p : Place} {m : Nat} {f : ReadFail} (hi : c.input 3 4096 = .ok p)
    (ha : (s.readPlace view c.fn p 4096).2 = .error f) :
    s.settingsWrite t.val c m view = (s.readPlace view c.fn p 4096).1.endCmd t.val St.hostAbort 0 0 := by
  rw [settingsWrite, hi]
  dsimp only
  rw [ha]

theorem State.settingsWrite_of_noInput {m : Nat} {e : BitVec 16} (hi : c.input 3 4096 = .error e) :
    s.settingsWrite t.val c m view = s.endCmd t.val e 0 0 := by
  rw [settingsWrite, hi]

end

/-- SETTINGS_LOCK_LAPSE of a lock that has run down. -/
theorem execSettingsLockLapse_of_due {s a : State} (h : s.nvm.setLock = some 0)
    (ha : a = { s with nvm := { s.nvm with setLock := none } }) :
    (s.nvm.running (64 + s.fw.running) = none → exec .settingsLockLapse s = .next a)
    ∧ ∀ o k l w n src, s.nvm.running (64 + s.fw.running) = some o → o.owner = .cmd k → o.act = .program l w n src →
      a.ofSettings o = true → exec .settingsLockLapse s = .next (a.restartCopy o n src k) := by
  subst ha
  have row : execSettingsLockLapse s = _ := if_pos h
  refine ⟨fun hr => row.trans ?_, fun o k l w n src hr ho ha hs => row.trans ?_⟩
  all_goals
    dsimp only
    rw [show Nvm.running { s.nvm with setLock := none } (64 + s.fw.running) = _ from hr]
  dsimp only
  rw [ho, ha]
  exact if_pos hs

/-! ## Firmware slots (R442, R443, R559) -/

section
variable {s : State} {t : Ticket} {c : Cmd}

/-- The operations that FW_STAGE queues before its program: erases where asked, or a withdrawal mark. -/
def State.stageHead (s : State) (erase : Bool) : List (Nat × NvmAct) :=
  (if !erase ∧ s.nvm.slotState s.otherSlot = 1 ∧ s.nvm.marksUsed s.otherSlot < 16
    then [(64 + s.otherSlot, markAct s.otherSlot 5)] else [])
  ++ if erase then (List.range 48).map fun l => (64 + s.otherSlot, NvmAct.erase l) else []

theorem State.stageHead_erase : s.stageHead true = (List.range 48).map fun l => (64 + s.otherSlot, NvmAct.erase l) := by
  rw [stageHead, if_neg (by simp), if_pos rfl, List.nil_append]

theorem State.stageHead_of_not_pending (h : ¬(s.nvm.slotState s.otherSlot = 1 ∧ s.nvm.marksUsed s.otherSlot < 16)) :
    s.stageHead false = [] := by
  rw [stageHead, if_neg (by simpa using h), if_neg (by simp), List.nil_append]

theorem State.stageHead_of_pending (h1 : s.nvm.slotState s.otherSlot = 1) (h2 : s.nvm.marksUsed s.otherSlot < 16) :
    s.stageHead false = [(64 + s.otherSlot, markAct s.otherSlot 5)] := by
  rw [stageHead, if_pos ⟨rfl, h1, h2⟩, if_neg (by simp), List.append_nil]

theorem execFwStage_of_waits (hw : s.Waits t.val 0x52 c) (ht : s.myTurn c = true) :
    (Entry.paramsOk c.entry = false → exec (.fwStage t) s = .next (s.endCmd t.val St.badParam 0 0))
    ∧ (∀ e, Entry.paramsOk c.entry = true → c.input 3 (Entry.dw c.entry 5).toNat = .error e →
      exec (.fwStage t) s = .next (s.endCmd t.val e 0 0))
    ∧ ∀ p len off, len = (Entry.dw c.entry 5).toNat → off = (Entry.dw c.entry 6).toNat → Entry.paramsOk c.entry = true →
      c.input 3 len = .ok p → 256 ≤ len → exec (.fwStage t) s = .next (s.queueCmd t.val
        (s.stageHead (bitOf (Entry.dw c.entry 2) 0)
          ++ [(64 + s.otherSlot, .program (off / 256 / 1024) (off / 256 % 1024) (len / 256) (.mem p c.fn))]) {}) := by
  have row : execFwStage t s = _ := congrArg ok ((State.onTurn_of_waits hw _).trans (if_pos ht))
  refine ⟨fun hp => row.trans (by simp [hp]), fun e hp he => row.trans (by simp [hp, he]), ?_⟩
  rintro p len off rfl rfl hp h hlen
  rw [exec, row]
  dsimp only
  rw [if_neg (by simp [hp]), h]
  dsimp only
  rw [if_neg (Nat.div_pos hlen (by decide)).ne']
  change ok (match s.stageHead (bitOf (Entry.dw c.entry 2) 0) ++ [_] with
    | [] => s.endCmd t.val St.ok 0 0
    | l => s.queueCmd t.val l {}) = _
  cases s.stageHead (bitOf (Entry.dw c.entry 2) 0) <;> rfl

theorem execFwCommit_of_waits (hw : s.Waits t.val 0x53 c) (ht : s.myTurn c = true) (hf : s.planeFree = true)
    (hm : bitOf (Entry.dw c.entry 2) 0 = true) :
    exec (.fwCommit t) s = .next (if Entry.paramsOk c.entry = false then s.endCmd t.val St.badParam 0 0
      else if s.nvm.slotState s.otherSlot = 1 then s.endCmd t.val St.ok 0 0
      else if s.nvm.imageCheck s.otherSlot s.fuses.rollback ≠ 0 then (s.imageReads s.otherSlot).endCmd t.val St.badParam
        (BitVec.ofNat 32 (s.nvm.imageCheck s.otherSlot s.fuses.rollback)) 0
      else if s.nvm.slotState s.otherSlot = 2 then (s.imageReads s.otherSlot).endCmd t.val St.badParam 0 0
      else (s.imageReads s.otherSlot).commandMark t.val s.otherSlot 1) := by
  have row : execFwCommit t s = _ := congrArg ok ((State.onTurn_of_waits hw _).trans (if_pos ht))
  exact row.trans (by simp [hm, hf])

theorem execFwWithdraw_of_waits (hw : s.Waits t.val 0x53 c) (ht : s.myTurn c = true) (hf : s.planeFree = true)
    (hm : bitOf (Entry.dw c.entry 2) 0 = false) :
    exec (.fwWithdraw t) s = .next (if Entry.paramsOk c.entry = false then s.endCmd t.val St.badParam 0 0
      else if s.nvm.slotState s.otherSlot = 1 then s.commandMark t.val s.otherSlot 5 else s.endCmd t.val St.ok 0 0) := by
  have row : execFwWithdraw t s = _ := congrArg ok ((State.onTurn_of_waits hw _).trans (if_pos ht))
  exact row.trans (by simp [hm, hf])

/-- While something is queued on the plane of the other slot, both forms of FW_COMMIT wait. -/
theorem execFwCommit_of_busy (hw : s.Waits t.val 0x53 c) (hf : s.planeFree = false) :
    exec (.fwCommit t) s = .next s ∧ exec (.fwWithdraw t) s = .next s :=
  ⟨congrArg ok ((State.onTurn_of_waits hw _).trans (by simp [hf])), congrArg ok ((State.onTurn_of_waits hw _).trans (by simp [hf]))⟩

theorem State.commandMark_of_room {slot kind : Nat} {k : Nat} (h : s.nvm.marksUsed slot < 16) :
    s.commandMark k slot kind = s.queueCmd k [(64 + slot, markAct slot kind)] {} := if_neg (by omega)

theorem State.commandMark_of_full {slot kind : Nat} {k : Nat} (h : 16 ≤ s.nvm.marksUsed slot) :
    s.commandMark k slot kind = s.endCmd k St.noResource 0 0 := if_pos h

end

/-- Settles O53: each row by its branches, the stored record by its fields. -/
theorem settingsAndFirmwareCommands : Obligations.SettingsAndFirmwareCommands := by
  unfold Obligations.SettingsAndFirmwareCommands
  intro s t c view
  refine ⟨execSettingsGet_of_waits, fun m i hi hw ht hm => ?_, fun m b => State.settingsOk_fields,
    fun b h hv => s.newRecord_fields h hv, ?_, ?_, execFwCommit_of_busy, fun a ha => ⟨fun h => (execSettingsLockLapse_of_due h ha).1,
      fun o k l w n src h => (execSettingsLockLapse_of_due h ha).2 o k l w n src, fun h => if_neg h⟩⟩
  · have row {u : State} (hu : (if Entry.paramsOk c.entry = true then s.settingsWrite t.val c m view
        else s.endCmd t.val St.badParam 0 0) = u) (hb : u.blocked = false) : exec i s = .next u := by
      rw [exec_settingsSet_of_waits hi hw ht hm, hu, State.orWait_of_free hb]
    refine ⟨fun hp hb => row (if_neg (by simp [hp])) (by simpa using hb),
      fun e hp hb he => row ((if_pos hp).trans (State.settingsWrite_of_noInput he)) (by simpa using hb), ?_⟩
    intro p r a hp hin hra hb
    have hr : (s.readPlace view c.fn p 4096).1 = r := congrArg Prod.fst hra
    have ha : (s.readPlace view c.fn p 4096).2 = a := congrArg Prod.snd hra
    subst hr
    refine ⟨fun f hf => row ((if_pos hp).trans (State.settingsWrite_of_unread hin (ha.trans hf))) ?_, fun b hab hok => row ?_ ?_, ?_⟩
    · simpa using hb
    · exact (if_pos hp).trans ((State.settingsWrite_of_read hin (ha.trans hab)).trans (if_neg (by simp [hok])))
    · simpa using hb
    · rintro b n hab hok rfl
      exact row ((if_pos hp).trans ((State.settingsWrite_of_read hin (ha.trans hab)).trans (if_pos hok))) (by simpa using hb)
  · rintro len off era rfl rfl rfl hw ht
    obtain ⟨bad, fails, stages⟩ := execFwStage_of_waits hw ht
    refine ⟨bad, fails, ?_⟩
    rintro p hp h hlen g rfl
    have row := stages p _ _ rfl rfl hp h hlen
    refine ⟨fun he => ?_, fun he hno => ?_, fun he h1 h2 => ?_⟩
    · rw [row, he, State.stageHead_erase]
    · rw [row, he, State.stageHead_of_not_pending hno]
      rfl
    · rw [row, he, State.stageHead_of_pending h1 h2]
      rfl
  · intro o st chk r ho hst hchk hread hw ht hf
    rw [ho] at hst hchk hread ⊢
    refine ⟨fun hm => ?_, fun hm => ?_⟩
    · rw [execFwCommit_of_waits hw ht hf hm, ← hst, ← hchk, ← hread]
      refine ⟨fun hp => ?_, fun hp h1 => ?_, fun hp h1 hc => ?_, fun hp h2 hc => ?_, fun hp h1 h2 hc hr => ?_, fun hp h1 h2 hc hr => ?_⟩
      · simp [hp]
      · simp [hp, h1]
      · simp [hp, h1, hc]
      · simp [hp, h2, hc]
      · simp [hp, h1, h2, hc, State.commandMark_of_room hr]
      · simp [hp, h1, h2, hc, State.commandMark_of_full hr]
    · rw [execFwWithdraw_of_waits hw ht hf hm, ← hst]
      refine ⟨fun hp => ?_, fun hp h1 => ?_, fun hp h1 => ?_⟩
      · simp [hp]
      · simp [hp, h1]
      · rw [if_neg (by simp [hp]), if_pos h1]
        split
        next hr => rw [State.commandMark_of_room hr]
        next hr => rw [State.commandMark_of_full (not_lt.1 hr)]

end Sys2Proof.Machine
end

section
/-!
PROOFS. The engines of the weight store, its own upkeep and the wear checkpoint (R66, R72 to R79, R90 to R101).
-/

namespace Sys2Proof.Machine

/-! ## Blocks and the charge (R98, R101) -/

theorem Table.get_clearRange {α : Type} (d : α) (m : List (Nat × α)) {lo hi k : Nat} (h1 : lo ≤ k) (h2 : k < hi) :
    Table.get d (clearRange m lo hi) k = d := by
  induction m with
  | nil => rfl
  | cons p t ih =>
    obtain ⟨n, v⟩ := p
    rw [clearRange] at ih ⊢
    rw [List.filter_cons]
    split
    next hn =>
      rw [Table.get, if_neg (by rintro rfl; simp [h1, h2] at hn), ih]
    next => exact ih

theorem Nvm.grantCharge_opseq (v : Nvm) (n : Nat) : (v.grantCharge n).opseq = v.opseq := by
  induction n generalizing v with
  | zero => rfl
  | succ n ih =>
    rw [grantCharge]
    split
    · rfl
    · split
      · rfl
      · exact ih _

@[simp] theorem State.updHead_opseq (s : State) (b : Nat) (g : NvmOp → NvmOp) : (s.updHead b g).nvm.opseq = s.nvm.opseq :=
  Nvm.grantCharge_opseq _ 16

@[simp] theorem State.block_updBlock (s : State) (b p : Nat) (f : NvmBlock → NvmBlock) :
    (s.updBlock b p f).nvm.block b p = f (s.nvm.block b p) :=
  Table.get_set_self

theorem State.eraseOk_block (s : State) (b p : Nat) : (s.eraseOk b p).nvm.block b p
    = { rows := 0, erases := satInc (s.nvm.block b p).erases 1, due := false, complete := 0, stale := false } :=
  State.block_updBlock _ b p _

/-- Every code word of an erased block is the erased word. -/
theorem State.eraseOk_word (s : State) {b p x : Nat} (h : x < 1024) :
    Table.get {} (s.eraseOk b p).nvm.words (wordKey b p x) = {} :=
  Table.get_clearRange {} s.nvm.words (by simp [wordKey]) (by simpa [wordKey])

/-! ## The start of an operation (R66, R90 to R93) -/

section
variable {s : State} {b : Fin 66} {view : HostView} {o : NvmOp}

theorem execNvmOpStart_of_next (h : s.nvm.nextOp b.val = some o) (hm : s.mayStart o = true) :
    exec (.nvmOpStart b view) s = .next ((s.opStart o view).takeLock o) := by
  change execNvmOpStart b view s = _
  rw [execNvmOpStart, h]
  exact if_pos hm

/-- Nothing starts where no operation is next, or the next one may not start. -/
theorem execNvmOpStart_of_none (h : s.nvm.nextOp b.val = none) : exec (.nvmOpStart b view) s = .next s := by
  change execNvmOpStart b view s = _
  rw [execNvmOpStart, h]

theorem execNvmOpStart_of_held (h : s.nvm.nextOp b.val = some o) (hm : s.mayStart o = false) :
    exec (.nvmOpStart b view) s = .next s := by
  change execNvmOpStart b view s = _
  rw [execNvmOpStart, h]
  exact if_neg (by simp [hm])

/-- Only a command's program takes the settings-commit lock. -/
theorem State.takeLock_of_act (h : ∀ l first n src, o.act ≠ .program l first n src) : s.takeLock o = s := by
  unfold takeLock
  split
  next ha => exact absurd ha (h _ _ _ _)
  · rfl

theorem State.takeLock_of_owner (h : ∀ t, o.owner ≠ .cmd t) : s.takeLock o = s := by
  unfold takeLock
  split
  next ho _ => exact absurd ho (h _)
  · rfl

theorem State.opStart_of_noVpp (h : s.nvm.vppOk = false) (hm : ∀ x y, o.owner ≠ .mark x y) (hw : o.owner ≠ .wear) :
    s.opStart o view = s.vppEnd o := by
  rw [opStart, if_pos (by simp [h])]
  split
  next ho => exact absurd ho (hm _ _)
  next ho => exact absurd ho hw
  · rfl

/-- The firmware's own marks and checkpoints wait for VPP_NVM. -/
theorem State.opStart_of_waiting (h : s.nvm.vppOk = false) (ho : (∃ x y, o.owner = .mark x y) ∨ o.owner = .wear) :
    s.opStart o view = s := by
  rw [opStart, if_pos (by simp [h])]
  rcases ho with ⟨x, y, ho⟩ | ho <;> rw [ho]

/-- With VPP_NVM, an operation whose place is found when it starts. -/
theorem State.opStart_of_room (h : s.nvm.vppOk = true) (hf : s.nvm.markFull o = false) :
    s.opStart o view = (s.placeOp o).1.opGo (s.placeOp o).2 view := by
  rw [opStart, if_neg (by simp [h]), if_neg (by simp [hf])]

/-- An operation that is neither a mark's nor a checkpoint's program has its place. -/
theorem State.opStart_of_placed (h : s.nvm.vppOk = true)
    (hp : ∀ l first n src, o.act = .program l first n src → (∀ x y, src ≠ .mark x y) ∧ ∀ x y z, src ≠ .wear x y z) :
    s.opStart o view = s.opGo o view := by
  have full : s.nvm.markFull o = false := by
    unfold Nvm.markFull
    split
    next ha => exact absurd rfl ((hp _ _ _ _ ha).1 _ _)
    · rfl
  have place : s.placeOp o = (s, o) := by
    unfold placeOp
    dsimp only
    split
    next ha => exact absurd rfl ((hp _ _ _ _ ha).1 _ _)
    next ha => exact absurd rfl ((hp _ _ _ _ ha).2 _ _ _)
    · rfl
  rw [opStart_of_room h full, place]

/-- A program whose scan finds a code word that is not erased. -/
theorem State.opGo_of_double {l first n i : Nat} {src : NvmSrc} (ha : o.act = .program l first n src)
    (hi : (s.flagScan o.bank l first n).2 = some i) :
    s.opGo o view = ((s.flagScan o.bank l first n).1.opEnd o St.doubleProgram (scanIndex o.bank l first i)).setTrb .doubleProgram := by
  unfold opGo
  rw [ha]
  dsimp only
  rw [hi]

/-- A program whose range is erased enters PROGRAM and stages its first word; a directory slot is noted. -/
theorem State.opGo_of_erased {l first n : Nat} {src : NvmSrc} (ha : o.act = .program l first n src)
    (hi : (s.flagScan o.bank l first n).2 = none) :
    (∀ d, src = .bytes d → s.opGo o view
      = (((s.flagScan o.bank l first n).1.enterOp o.bank).noteSlot o l first d).stageWord view o src)
    ∧ ((∀ d, src ≠ .bytes d) → s.opGo o view = ((s.flagScan o.bank l first n).1.enterOp o.bank).stageWord view o src) := by
  unfold opGo
  rw [ha]
  dsimp only
  rw [hi]
  refine ⟨fun d hd => by rw [hd], fun hd => ?_⟩
  cases src with
  | bytes d => exact absurd rfl (hd d)
  | mem p fn => rfl
  | layout p fn parts => rfl
  | mark slot kind => rfl
  | wear counts map inst => rfl

theorem State.opGo_of_erase {l p : Nat} (ha : o.act = .erase l ∨ o.act = .erasePhys p) : s.opGo o view = s.enterOp o.bank := by
  unfold opGo
  rcases ha with ha | ha <;> rw [ha]

theorem State.opGo_of_relocate {l : Nat} (ha : o.act = .relocate l) : s.opGo o view = (s.enterOp o.bank).relocateStart o l := by
  unfold opGo
  rw [ha]

/-- The start of an operation that is no program. -/
theorem execNvmOpStart_of_noProgram (h : s.nvm.nextOp b.val = some o) (hm : s.mayStart o = true) (hv : s.nvm.vppOk = true)
    (ha : ∀ l first n src, o.act ≠ .program l first n src) : exec (.nvmOpStart b view) s = .next (s.opGo o view) := by
  rw [execNvmOpStart_of_next h hm, State.takeLock_of_act ha, State.opStart_of_placed hv fun l first n src e => absurd e (ha l first n src)]

/-! ## Code words and pulses (R94 to R99) -/

/-- A bank without an operation, or one that waits for its turn to charge, is left as it is. -/
theorem execUnit_of_idle (h : s.unitEnds b.val = none ∨ s.nvm.running b.val = none) :
    exec (.codeWordProgrammed b view) s = .next s ∧ ∀ g, exec (.erasePulseDone b g) s = .next s := by
  refine ⟨?_, fun g => ?_⟩
  · change execCodeWordProgrammed b view s = _
    rw [execCodeWordProgrammed]
    rcases h with h | h <;> rw [h]
    cases s.nvm.running b.val <;> rfl
  · change execErasePulseDone b g s = _
    rw [execErasePulseDone]
    rcases h with h | h <;> rw [h]
    cases s.nvm.running b.val <;> rfl

theorem execCodeWordProgrammed_of_program {a : State} {l first n : Nat} {src : NvmSrc} (hr : s.nvm.running b.val = some o)
    (hu : s.unitEnds b.val = some a) (ha : o.act = .program l first n src) (hs : o.staged ≠ []) :
    exec (.codeWordProgrammed b view) s = .next (a.programmed o l first n src view) := by
  change execCodeWordProgrammed b view s = _
  rw [execCodeWordProgrammed, hr, hu]
  dsimp only
  rw [ha]
  exact if_neg (by simpa using hs)

theorem execErasePulseDone_of_erase {a : State} {l : Nat} {g : Bool} (hr : s.nvm.running b.val = some o)
    (hu : s.unitEnds b.val = some a) (ha : o.act = .erase l) :
    exec (.erasePulseDone b g) s = .next (a.pulse o (s.nvm.physOf o.bank l) g) := by
  change execErasePulseDone b g s = _
  rw [execErasePulseDone, hr, hu]
  dsimp only
  rw [show s.nvm.eraseTarget o = some (s.nvm.physOf o.bank l) by rw [Nvm.eraseTarget, ha]]

/-- A pulse of an erase that is not stopped: it counts, or ends the erase with or without success. -/
theorem State.pulse_of_erase {l p : Nat} {g : Bool} (ha : o.act = .erase l) (hs : o.stop = none) :
    s.pulse o p g = if 6 ≤ o.done + 1 ∧ g = true then (s.eraseOk o.bank p).opEnd { o with done := o.done + 1 } St.ok 0
      else if 16 ≤ o.done + 1 then ((s.eraseBad o.bank p).staleIfFree o.bank p).opEnd { o with done := o.done + 1 } St.eraseFail 0
      else s.updHead o.bank fun _ => { o with done := o.done + 1 } := by
  have ok : s.erased { o with done := o.done + 1 } p = (s.eraseOk o.bank p).opEnd { o with done := o.done + 1 } St.ok 0 := by
    unfold erased
    dsimp only
    rw [ha]
    dsimp only
    rw [hs, Option.getD_none]
  exact if_congr Iff.rfl ok rfl

/-- The end of a program's code word: a stopped program ends with its own status, else it goes on or ends. -/
theorem State.programmed_of_stop {l first n : Nat} {src : NvmSrc} {p : Nat × Nat} {u : State} (hp : p = wordAt l first o.done)
    (hu : u = (s.charge o.bank (s.nvm.physOf o.bank p.1) p.1 p.2 (s.nvm.gen o.bank p.1) false o.staged).updHead o.bank
      fun _ => { o with done := o.done + 1 }) :
    (o.stop = none → s.programmed o l first n src view = if n ≤ o.done + 1 then u.opEnd { o with done := o.done + 1 } St.ok 0
      else u.stageWord view { o with done := o.done + 1 } src)
    ∧ ∀ st, o.stop = some st → s.programmed o l first n src view = u.opEnd { o with done := o.done + 1 } st 0 := by
  subst hp hu
  unfold programmed
  exact ⟨fun h => by rw [h], fun st h => by rw [h]⟩

end

/-- Settles O51: each event of an engine by what it finds on its bank. -/
theorem enginesProgramEraseAndRelocate : Obligations.EnginesProgramEraseAndRelocate := by
  unfold Obligations.EnginesProgramEraseAndRelocate
  intro s b view o
  refine ⟨execNvmOpStart_of_none, execNvmOpStart_of_held, fun h hm => ⟨fun hv h1 h2 => ?_, fun hv ho => ?_, ?_, ?_, ?_, ?_⟩,
    State.updHead_opseq .., execUnit_of_idle, ?_, fun p l x gen mv d => ?_, ?_, fun p _ => ?_, fun hl hv => ?_, ⟨_, _, rfl, rfl, rfl⟩⟩
  · rw [execNvmOpStart_of_next h hm, State.opStart_of_noVpp hv h1 h2]
  · rw [execNvmOpStart_of_next h hm, State.opStart_of_waiting hv ho, State.takeLock_of_owner]
    rcases ho with ⟨x, y, ho⟩ | ho <;> simp [ho]
  · rintro l first n src r hv ha rfl hmark hwear
    have start : s.opStart o view = s.opGo o view := State.opStart_of_placed hv fun l' f' n' src' e => by
      obtain ⟨-, -, -, rfl⟩ := NvmAct.program.inj (ha.symm.trans e)
      exact ⟨hmark, hwear⟩
    rw [execNvmOpStart_of_next h hm, start]
    refine ⟨fun i hi => ?_, fun hi hd => ?_, fun hi d hd => ?_⟩
    · rw [State.opGo_of_double ha hi]
    · rw [(State.opGo_of_erased ha hi).2 hd]
    · rw [(State.opGo_of_erased ha hi).1 d hd]
  · intro l first n src hv ha hf _
    rw [execNvmOpStart_of_next h hm, State.opStart_of_room hv hf]
  · intro l p hv ha
    rw [execNvmOpStart_of_noProgram h hm hv (by rcases ha with ha | ha <;> simp [ha]), State.opGo_of_erase ha]
  · intro l hv ha
    rw [execNvmOpStart_of_noProgram h hm hv (by simp [ha]), State.opGo_of_relocate ha]
  · rintro a l first n src p d u hr hua ha hp rfl hu hs
    rw [execCodeWordProgrammed_of_program hr hua ha hs]
    obtain ⟨goes, stops⟩ := State.programmed_of_stop (view := view) (n := n) (src := src) hp hu
    exact ⟨fun h => congrArg Host.Outcome.next (goes h), fun st h => congrArg Host.Outcome.next (stops st h)⟩
  · exact ⟨Config.freeNat s.fresh % 17, Nat.le_of_lt_succ (Nat.mod_lt _ (by decide)), rfl, rfl, rfl, rfl, rfl⟩
  · rintro a l p g hr hua ha rfl hs
    rw [execErasePulseDone_of_erase hr hua ha, State.pulse_of_erase ha hs]
    refine ⟨fun h => ?_, fun h6 hg => ?_, fun h16 hg => ?_⟩
    · rw [if_neg (by rintro ⟨h6, hg⟩; simp [hg] at h; omega), if_neg (by omega)]
    · rw [if_pos ⟨h6, hg⟩]
    · rw [if_neg (by simp [hg]), if_pos h16]
  · rw [State.eraseOk_block]
    refine ⟨rfl, rfl, rfl, fun x hx => ?_⟩
    rw [show 1024 * (128 * b.val + p) + x = wordKey b.val p x from rfl, State.eraseOk_word s hx]
    rfl
  · exact ⟨_, rfl, if_neg (by simp [hl, hv])⟩

/-! ## Patrol, relocation, stale blocks and the wear checkpoint (R72 to R79) -/

section
variable {s : State} {b : Nat}

theorem execPatrolRead_of_free {bank : Fin 66} {row : BitVec 13} (hr : s.fwRuns = true) (hh : s.nvm.hostOp bank.val = false)
    (hb : s.nvm.busy bank.val = false) (hp : s.bankState bank.val ≠ 0) (hrow : row.toNat < nvmLogical bank.val * 64) :
    exec (.patrolRead bank row) s = .next ((List.range 16).foldl
      (fun (u : State) i => (u.readWord bank.val (row.toNat / 64) (row.toNat % 64 * 16 + i)).1) (s.countRow bank.val row.toNat)) :=
  if_neg (by simp [hr, hh, hb, hp, hrow])

theorem execPatrolRead_of_held {bank : Fin 66} {row : BitVec 13}
    (h : s.nvm.hostOp bank.val = true ∨ s.nvm.busy bank.val = true ∨ s.bankState bank.val = 0) :
    exec (.patrolRead bank row) s = .next s :=
  if_pos (by rcases h with h | h | h <;> simp [h])

/-- A row read of a block that is not due counts, and marks the block at the limit. -/
theorem State.countRow_block {k p : Nat} (hp : p = s.nvm.physOf b (k / 64)) (hd : (s.nvm.block b p).due = false) :
    ((s.countRow b k).nvm.block b p).rows = (s.nvm.block b p).rows + 1
    ∧ ((s.countRow b k).nvm.block b p).due
        = decide (s.nvm.rdLimit.toNat ≤ min 0xFFFFFF (((s.nvm.block b p).rows + 1) / 65536)) := by
  subst hp
  obtain ⟨t, ht⟩ : ∃ t, t = (s.updBlock b (s.nvm.physOf b (k / 64)) fun x => { x with rows := x.rows + 1 }).perfAdd 35 1 := ⟨_, rfl⟩
  have blk : t.nvm.block b (s.nvm.physOf b (k / 64))
      = { s.nvm.block b (s.nvm.physOf b (k / 64)) with rows := (s.nvm.block b (s.nvm.physOf b (k / 64))).rows + 1 } := by
    rw [ht, perfAdd_nvm, block_updBlock]
  have units : (t.nvm.block b (s.nvm.physOf b (k / 64))).units
      = min 0xFFFFFF (((s.nvm.block b (s.nvm.physOf b (k / 64))).rows + 1) / 65536) := by
    rw [blk, NvmBlock.units, satNat_eq_min, min_comm]
  have row : s.countRow b k = if s.nvm.rdLimit.toNat ≤ (t.nvm.block b (s.nvm.physOf b (k / 64))).units
      then t.markDue b (s.nvm.physOf b (k / 64)) 0 else t := by
    rw [ht]
    rfl
  rw [row, units]
  split
  next h =>
    rw [markDue, if_neg (by simp [blk, hd])]
    simp [blk, h]
  next h => simp [blk, hd, h]

/-- What an automatic operation of a bank waits for is met. -/
theorem State.autoFree_of (hr : s.fwRuns = true) (hv : s.nvm.vppOk = true) (hb : s.bankReserved b = false)
    (hh : s.nvm.hostOp b = false) (hu : s.nvm.busy b = false) (hl : b < 64 ∨ s.nvm.setLock = none) : s.autoFree b = true := by
  simp only [autoFree, hr, hv, hb, hh, hu]
  rcases hl with h | h <;> simp [h]

theorem execAutoRelocationStart_of_due {bank : Fin 66} {l q : Nat} {rest : List Nat} (hf : s.autoFree bank.val = true)
    (ha : s.nvm.autoEn = true) (hd : s.nvm.dueBlocks bank.val = l :: rest) (hq : (s.nvm.erasedSpares bank.val).head? = some q) :
    exec (.autoRelocationStart bank) s = .next (s.startAuto bank.val (.relocate l) .auto) := by
  change execAutoRelocationStart bank s = _
  unfold execAutoRelocationStart
  dsimp only
  rw [hd, hq]
  exact if_pos (by simp [hf, ha])

theorem execAutoRelocationStart_of_off {bank : Fin 66} (ha : s.nvm.autoEn = false) : exec (.autoRelocationStart bank) s = .next s := by
  change execAutoRelocationStart bank s = _
  unfold execAutoRelocationStart
  dsimp only
  split
  · exact if_neg (by simp [ha])
  · rfl

theorem State.staleErase_of_free {p : Nat} (hf : s.autoFree b = true) (hp : s.nvm.staleBlock b = some p) :
    s.staleErase b = s.startAuto b (.erasePhys p) .stale := by
  rw [staleErase, hp]
  exact if_pos hf

theorem State.staleErase_of_none (hp : s.nvm.staleBlock b = none) : s.staleErase b = s := by
  rw [staleErase, hp]

theorem State.queueWear_of_queued (h : ∃ x ∈ s.nvm.ops, x.isWear = true) : s.queueWear = s := if_pos (by simpa using h)

theorem State.queueWear_ops (h : ∀ x ∈ s.nvm.ops, x.isWear = false) : s.queueWear.nvm.ops = s.nvm.ops
    ++ [{ bank := 65 - s.fw.running, act := wearAct, owner := .wear }, { bank := 64 + s.fw.running, act := wearAct, owner := .wear }] := by
  rw [queueWear, if_neg (by simpa using h)]
  simp [wearOps]

theorem execWearCheckpoint_of_waits (h : s.fwRuns = false ∨ s.nvm.vppOk = false) : exec .wearCheckpoint s = .next s :=
  if_pos (by rcases h with h | h <;> simp [h])

/-- At RL0, and before RL4, a checkpoint is queued without waking the device. -/
theorem execWearCheckpoint_of_here (hr : s.fwRuns = true) (hv : s.nvm.vppOk = true)
    (hl : s.power.level = 0 ∨ (s.power.level = 3 ∧ s.mayRest = true)) : exec .wearCheckpoint s = .next s.queueWear :=
  (if_neg (by simp [hr, hv])).trans (if_pos hl)

theorem execWearCheckpoint_of_rest (hr : s.fwRuns = true) (hv : s.nvm.vppOk = true) (h0 : s.power.level ≠ 0)
    (h3 : ¬(s.power.level = 3 ∧ s.mayRest = true)) : exec .wearCheckpoint s = .next (s.wake 3).queueWear :=
  (if_neg (by simp [hr, hv])).trans (if_neg (by simpa [h0] using h3))

end

/-- Settles O52: each row by what it waits for, and the count of one row read. -/
theorem theStoreLooksAfterItself : Obligations.TheStoreLooksAfterItself := by
  unfold Obligations.TheStoreLooksAfterItself
  intro s b row
  refine ⟨fun hr hh hb hp hrow => execPatrolRead_of_free hr hh hb hp (by rw [nvmLogical, mul_comm]; exact hrow), execPatrolRead_of_held,
    fun k p => State.countRow_block, fun hr hv hb hh hu hl => ?_, fun hn => ?_, fun hr hv hw => ⟨fun hl => ?_, execWearCheckpoint_of_rest hr hv⟩,
    fun h0 hq => ?_, execWearCheckpoint_of_waits⟩
  · have hf := State.autoFree_of hr hv hb hh hu hl
    exact ⟨fun l rest q ha => execAutoRelocationStart_of_due hf ha, execAutoRelocationStart_of_off,
      fun p hp => ⟨congrArg Host.Outcome.next (State.staleErase_of_free hf hp), congrArg Host.Outcome.next (State.staleErase_of_free hf hp)⟩⟩
  · exact ⟨congrArg Host.Outcome.next (State.staleErase_of_none hn), congrArg Host.Outcome.next (State.staleErase_of_none hn)⟩
  · exact ⟨_, execWearCheckpoint_of_here hr hv hl, State.queueWear_ops hw⟩
  · by_cases h : s.fwRuns = false ∨ s.nvm.vppOk = false
    · exact execWearCheckpoint_of_waits h
    · obtain ⟨hr, hv⟩ : s.fwRuns = true ∧ s.nvm.vppOk = true := by simpa using h
      rw [execWearCheckpoint_of_here hr hv (.inl h0), State.queueWear_of_queued hq]

end Sys2Proof.Machine
end

section
/-!
PROOFS. CANCEL, TENANT_RESET, PEER_QUERY and SENSOR_CALIBRATE (R103, R419, R427, R444 to R446, R467).
-/

namespace Sys2Proof.Machine

/-! ## What a cancelled command was doing (R103, R419, R427) -/

section
variable {s : State} {t : Ticket} {c d : Cmd} {u : Nat}

/-- CANCEL with good parameters, by its target. -/
theorem execCancel_of_waits (hw : s.Waits t.val 0x16 c) (hp : Entry.paramsOk c.entry = true) :
    (s.cancelTarget c = none → exec (.cancel t) s = .next (s.endCmd t.val St.ok 0 0))
    ∧ ∀ u d, s.cancelTarget c = some (u, d) → exec (.cancel t) s
      = .next ((s.cancelCmd u d St.cancelled).1.endCmd t.val St.ok (BitVec.ofNat 32 (s.cancelCmd u d St.cancelled).2) 0) := by
  have row : execCancel t s = _ := congrArg ok (State.onCmd_of_waits hw _)
  rw [if_neg (by simp [hp])] at row
  exact ⟨fun h => row.trans (by rw [h]), fun u d h => row.trans (by rw [h])⟩

theorem State.cancelCmd_of_ended (st : BitVec 16) (h : d.phase = .ended) : s.cancelCmd u d st = (s, 0) := by
  rw [cancelCmd, h]

/-- A command that has not begun ends at once, unless it is a reset or a commit. -/
theorem State.cancelCmd_of_waiting (st : BitVec 16) (h : d.phase = .ready ∨ d.phase = .held) :
    s.cancelCmd u d st = if Entry.opcode d.entry = 0x60 ∨ Entry.opcode d.entry = 0x53 then (s, 3) else (s.endCmd u st 0 0, 1) := by
  unfold cancelCmd
  rcases h with h | h <;> rw [h]

theorem State.cancelCmd_of_busy (st : BitVec 16) (h : d.phase = .busy) :
    s.cancelCmd u d st = if Entry.opcode d.entry = 0x53 then (s, 3) else s.cancelBusy u d st := by
  unfold cancelCmd
  rw [h]

/-- A commit, and a reset that has not begun, cannot be cancelled. -/
theorem State.cancelCmd_of_fixed (st : BitVec 16) (h : Entry.opcode d.entry = 0x53 ∨ (Entry.opcode d.entry = 0x60 ∧ d.phase ≠ .busy))
    (he : d.phase ≠ .ended) : s.cancelCmd u d st = (s, 3) := by
  cases hd : d.phase with
  | ended => exact absurd hd he
  | held => exact (cancelCmd_of_waiting st (.inr hd)).trans (if_pos (by tauto))
  | ready => exact (cancelCmd_of_waiting st (.inl hd)).trans (if_pos (by tauto))
  | busy => exact (cancelCmd_of_busy st hd).trans (if_pos (h.resolve_right fun h => h.2 hd))

theorem State.cancelBusy_of_run {x : Run} (st : BitVec 16) (h : s.run? u = some x) :
    s.cancelBusy u d st = if x.stop.isSome then (s, 0) else (s.stopRun u { status := st }, if x.hasWorked then 2 else 1) := by
  rw [cancelBusy, h]

theorem State.cancelBusy_of_plan {p : NvmPlan} (st : BitVec 16) (h : s.run? u = none) (hp : Table.find s.nvm.plans u = some p) :
    s.cancelBusy u d st = s.cancelNvm u d st := by
  rw [cancelBusy, h]
  exact if_pos (by simp [hp])

theorem State.cancelBusy_of_other (st : BitVec 16) (h : s.run? u = none) (hp : Table.find s.nvm.plans u = none) :
    (d.isRelease = true → s.cancelBusy u d st = (s, 3))
    ∧ (d.isRelease = false → s.bindingOf u = none → s.cancelBusy u d st = ((s.dropCloser u).endCmd u st 0 0, 2))
    ∧ ∀ k, d.isRelease = false → s.bindingOf u = some k → s.cancelBusy u d st = (s.bindFails k st, 2) := by
  have busy : s.cancelBusy u d st = if d.isRelease then (s, 3) else match s.bindingOf u with
      | some k => (s.bindFails k st, 2)
      | none => ((s.dropCloser u).endCmd u st 0 0, 2) := by
    rw [cancelBusy, h]
    exact if_neg (by simp [hp])
  exact ⟨fun hr => by rw [busy, if_pos hr], fun hr hb => by rw [busy, if_neg (by simp [hr]), hb],
    fun k hr hb => by rw [busy, if_neg (by simp [hr]), hb]⟩

/-- A command with operations of the weight store: a running one goes on or stops, queued ones are taken back. -/
theorem State.cancelNvm_of_running {o : NvmOp} (st : BitVec 16) (h : s.nvm.runningOf u = some o) :
    s.cancelNvm u d st = if o.uncancellable (Entry.opcode d.entry == 0x10) then (s, 3) else (s.stopOp u st, 2) := by
  unfold cancelNvm
  rw [h]

theorem State.cancelNvm_of_queued (st : BitVec 16) (h : s.nvm.runningOf u = none) (ho : Entry.opcode d.entry ≠ 0x10) :
    s.cancelNvm u d st = (s.finishPlan u st 0, if (s.nvm.plan u).begun then 2 else 1) := by
  unfold cancelNvm
  rw [h]
  exact if_neg (by simp [ho])

end

theorem ofNat_outcome (b : Bool) : BitVec.ofNat 32 (if b then 2 else 1) = if b then 2 else 1 := by cases b <;> rfl

/-! ## What a reset gives back (R467) -/

/-- What leaves the cache touches the running commands, the cache and a counter of their functions. -/
theorem State.emptyCache_frame (s : State) (p : Nat × CacheLine → Bool) : ∃ c f, s.emptyCache p = { s with comp := c, fns := f } := by
  rw [emptyCache]
  generalize s.comp.cache.filter p = l
  induction l generalizing s with
  | nil => exact ⟨s.comp, s.fns, rfl⟩
  | cons q l ih =>
    rw [List.foldl_cons]
    obtain ⟨c, f, e⟩ := ih (s.evict (fun _ _ => false) q.1)
    rw [e, evict]
    split <;> exact ⟨_, _, rfl⟩

theorem State.emptyCache_tenants (s : State) (p : Nat × CacheLine → Bool) : (s.emptyCache p).tenants = s.tenants := by
  obtain ⟨c, f, e⟩ := s.emptyCache_frame p
  rw [e]

/-- The ways that are emptied have no owner any more. -/
theorem State.waysOf_emptyWays (s : State) (f : Nat) : (s.emptyWays (s.tenants.waysOf f)).tenants.waysOf f = [] := by
  rw [emptyWays]
  simp only [Tenants.waysOf, emptyCache_tenants, List.map_eq_nil_iff, List.filter_filter, List.filter_eq_nil_iff]
  intro p hp h
  simp only [Bool.and_eq_true, decide_eq_true_eq, Bool.not_eq_true', List.contains_eq_mem, decide_eq_false_iff_not] at h
  exact h.2 (List.mem_map.2 ⟨p, List.mem_filter.2 ⟨hp, by simp [h.1]⟩, rfl⟩)

theorem State.freeTenant_facts (s : State) (f : Nat) :
    (s.freeTenant f).tenants.waysOf f = [] ∧ ((s.freeTenant f).fnSt f).tol = 0xFFFFFFFF := by
  constructor
  · exact waysOf_emptyWays _ f
  · rw [freeTenant, fnSt_updFn]

/-! ## Resets, peers and the calibration of sensors (R444 to R446) -/

section
variable {s : State} {t : Ticket} {c : Cmd}

theorem execTenantReset_of_refused {f : Nat} (hf : f = resetTarget c.entry) (hw : s.Waits t.val 0x60 c)
    (h : Entry.paramsOk c.entry = false ∨ (c.fn ≠ 0 ∧ f ≠ c.fn) ∨ s.fnExists f = false) :
    exec (.tenantReset t) s = .next (s.endCmd t.val St.badParam 0 0) := by
  subst hf
  exact congrArg ok ((State.onCmd_of_waits hw _).trans (if_pos (by simpa using h)))

/-- A TENANT_RESET that is allowed waits for an earlier one of its target, and else takes its step. -/
theorem execTenantReset_of_ok {f : Nat} (hf : f = resetTarget c.entry) (hw : s.Waits t.val 0x60 c)
    (hp : Entry.paramsOk c.entry = true) (hc : c.fn = 0 ∨ f = c.fn) (he : s.fnExists f = true) :
    exec (.tenantReset t) s = .next (if s.resetBefore c then s else s.tenantReset t.val c) := by
  subst hf
  exact congrArg ok ((State.onCmd_of_waits hw _).trans (if_neg (by simp [hp, he]; tauto)))

theorem State.tenantReset_of {a : State} {f k : Nat} (hf : f = resetTarget c.entry)
    (ha : a = ((s.earlier f c.order).foldl State.abortCmd s).closeSlots f) :
    s.tenantReset k c = if a.earlier f c.order = [] then ((a.freeTenant f).endResets k f).retarget else a := by
  subst hf ha
  exact if_congr List.isEmpty_iff rfl rfl

theorem execPeerQuery_of_waits (hw : s.Waits t.val 0x61 c) : exec (.peerQuery t) s = .next (if Entry.paramsOk c.entry = false
    then s.endCmd t.val St.badParam 0 0 else s.endCmd t.val St.ok (s.peerWord (bitsOf (Entry.dw c.entry 2) 1 0))
      (if bitsOf (Entry.dw c.entry 2) 1 0 = s.self then s.life.epoch else (s.peer (bitsOf (Entry.dw c.entry 2) 1 0)).epoch)) :=
  congrArg ok ((State.onCmd_of_waits hw _).trans (if_congr (by simp) rfl rfl))

/-- One read of the voltage for a sensor that is calibrated. -/
def State.calibrateOne (s : State) : State := ((s.emit (.avs 1 0)).avsRead (BitVec.ofNat 10 (Config.freeNat s.fresh))).tick

/-- What the reads of a calibration change: as many messages, and what a read-back sets. -/
theorem State.foldl_calibrateOne (s : State) (l : List Nat) : ∃ n r e d, l.foldl (fun b _ => b.calibrateOne) s = { s with
    out := s.out ++ List.replicate l.length (.avs 1 0)
    fresh := n
    pace := { s.pace with readMv := r, settled := e, droopRef := d } } := by
  induction l generalizing s with
  | nil => exact ⟨s.fresh, s.pace.readMv, s.pace.settled, s.pace.droopRef, by simp⟩
  | cons i l ih =>
    obtain ⟨n, r, e, d, h⟩ := ih s.calibrateOne
    refine ⟨n, r, e, d, h.trans ?_⟩
    simp [calibrateOne, emit, avsRead, tick, List.replicate_succ]

/-- SENSOR_CALIBRATE with good parameters. -/
theorem execSensorCalibrate_of_ok {d : BitVec 8} {m : Nat} (hm : m = bitsOf (Entry.dw c.entry 2) 7 0) (hw : s.Waits t.val 0x62 c)
    (hp : Entry.paramsOk c.entry = true) :
    exec (.sensorCalibrate t d) s = .next (if s.pace.busFault = true then s.endCmd t.val St.noResource 0 0
      else (((List.range 8).filter fun i => m / 2 ^ i % 2 == 1).foldl (fun b _ => b.calibrateOne) s).endCmd t.val St.ok
        (BitVec.ofNat 32 m) (if m = 0 then 0 else d.setWidth 32)) := by
  subst hm
  exact congrArg ok ((State.onCmd_of_waits hw _).trans (if_neg (by simp [hp])))

theorem execSensorCalibrate_of_bad {d : BitVec 8} (hw : s.Waits t.val 0x62 c) (hp : Entry.paramsOk c.entry = false) :
    exec (.sensorCalibrate t d) s = .next (s.endCmd t.val St.badParam 0 0) :=
  congrArg ok ((State.onCmd_of_waits hw _).trans (if_pos (by simp [hp])))

theorem execCancel_of_bad (hw : s.Waits t.val 0x16 c) (hp : Entry.paramsOk c.entry = false) :
    exec (.cancel t) s = .next (s.endCmd t.val St.badParam 0 0) :=
  congrArg ok ((State.onCmd_of_waits hw _).trans (if_pos (by simp [hp])))

end

/-- Settles O49: each row by its branches, a cancelled command by its phase and by what it waits for. -/
theorem cancelAndTenantReset : Obligations.CancelAndTenantReset := by
  unfold Obligations.CancelAndTenantReset
  intro s t c
  refine ⟨fun hw hp => ⟨(execCancel_of_waits hw hp).1, fun u d hu => ?_⟩, fun f a hf hw => ⟨fun h => execTenantReset_of_refused hf hw (.inr h),
    fun hp hc he => ⟨fun hb => ?_, fun hb ha => ?_⟩⟩, s.freeTenant_facts, fun hw hp => ?_, fun d hw hp => ⟨fun hb => ?_, fun hb => ?_⟩,
    fun d hp => ⟨fun hw => execCancel_of_bad hw hp, fun hw => execTenantReset_of_refused rfl hw (.inl hp), fun hw => ?_,
      fun hw => execSensorCalibrate_of_bad hw hp⟩⟩
  · have row {r : State × Nat} (h : s.cancelCmd u d St.cancelled = r) :
        exec (.cancel t) s = .next (r.1.endCmd t.val St.ok (BitVec.ofNat 32 r.2) 0) := by
      rw [(execCancel_of_waits hw hp).2 u d hu, h]
    refine ⟨fun h => row (State.cancelCmd_of_ended _ h), fun h h60 h53 => ?_, fun h he => row (State.cancelCmd_of_fixed _ h he), fun h h53 => ?_⟩
    · exact row ((State.cancelCmd_of_waiting _ h).trans (if_neg (by tauto)))
    · have row {r : State × Nat} (hr : s.cancelBusy u d St.cancelled = r) :
          exec (.cancel t) s = .next (r.1.endCmd t.val St.ok (BitVec.ofNat 32 r.2) 0) :=
        row ((State.cancelCmd_of_busy _ h).trans ((if_neg h53).trans hr))
      refine ⟨fun x hx hs => ?_, fun x hx hs => ?_, fun p hx hpl => ⟨fun o ho hun => ?_, fun o ho hun => ?_, fun ho h10 => ?_⟩,
        fun hx hpl => ⟨fun h12 h31 => ?_, fun hr hb => ?_, fun k hr hb => ?_⟩⟩
      · exact (row ((State.cancelBusy_of_run _ hx).trans (if_neg (by simp [hs])))).trans (by rw [ofNat_outcome])
      · exact row ((State.cancelBusy_of_run _ hx).trans (if_pos (Option.isSome_iff_ne_none.2 hs)))
      · exact row ((State.cancelBusy_of_plan _ hx hpl).trans ((State.cancelNvm_of_running _ ho).trans (if_pos hun)))
      · exact row ((State.cancelBusy_of_plan _ hx hpl).trans ((State.cancelNvm_of_running _ ho).trans (if_neg (by simp [hun]))))
      · exact (row ((State.cancelBusy_of_plan _ hx hpl).trans (State.cancelNvm_of_queued _ ho h10))).trans (by rw [ofNat_outcome])
      · exact row ((State.cancelBusy_of_other _ hx hpl).1 (by simp [Cmd.isRelease, h12, h31]))
      · exact row ((State.cancelBusy_of_other _ hx hpl).2.1 hr hb)
      · exact row ((State.cancelBusy_of_other _ hx hpl).2.2 k hr hb)
  · rw [execTenantReset_of_ok hf hw hp hc he, if_pos hb]
  · rw [execTenantReset_of_ok hf hw hp hc he, if_neg (by simp [hb]), State.tenantReset_of hf ha]
    exact ⟨fun h => by rw [if_pos h], fun h => by rw [if_neg h]⟩
  · rw [execPeerQuery_of_waits hw, if_neg (by simp [hp])]
  · rw [execSensorCalibrate_of_ok rfl hw hp, if_pos hb]
  · obtain ⟨n, r, e, v, h⟩ := s.foldl_calibrateOne ((List.range 8).filter fun i => bitsOf (Entry.dw c.entry 2) 7 0 / 2 ^ i % 2 == 1)
    rw [execSensorCalibrate_of_ok rfl hw hp, if_neg (by simp [hb]), h]
    exact ⟨_, rfl, by rw [List.countP_eq_length_filter]⟩
  · rw [execPeerQuery_of_waits hw, if_pos hp]

end Sys2Proof.Machine
end

section
/-!
PROOFS. Binds and their release (R105, R193, R372, R413, R420 to R422, R455, R456).
-/

namespace Sys2Proof.Machine

/-! ## What the checks of a bind leave alone (R72, R230) -/

section
variable (s : State)

@[simp] theorem State.markDue_binds (b p why : Nat) : (s.markDue b p why).binds = s.binds := by
  unfold markDue
  dsimp only
  split <;> simp

@[simp] theorem State.scanRow_binds (b row : Nat) : (s.scanRow b row).binds = s.binds := by
  unfold scanRow countRow countReads
  dsimp only
  split_ifs <;> simp

@[simp] theorem State.readWord_binds (b l w : Nat) : (s.readWord b l w).1.binds = s.binds := by
  simp only [readWord, eccOutcome]
  split_ifs <;> simp

theorem State.foldl_binds {α : Type} {f : State → α → State} (h : ∀ s x, (f s x).binds = s.binds) (l : List α) :
    (l.foldl f s).binds = s.binds := by
  induction l generalizing s with
  | nil => rfl
  | cons x l ih => rw [List.foldl_cons, ih, h]

@[simp] theorem State.extentReads_binds (pat : Bytes) (n : Nat) : (s.extentReads pat n).binds = s.binds := by
  rw [extentReads, readWord_binds, foldl_binds _ fun s r => s.scanRow_binds n r]

end

/-! ## What an allocation takes (R105, R421, R455) -/

theorem Table.get_eq_or_mem {α : Type} (d : α) (t : List (Nat × α)) (k : Nat) :
    Table.get d t k = d ∨ (k, Table.get d t k) ∈ t := by
  induction t with
  | nil => exact .inl rfl
  | cons q t ih =>
    obtain ⟨n, v⟩ := q
    rw [Table.get]
    split
    next e => exact .inr (e ▸ List.mem_cons_self)
    next => exact ih.imp_right (List.mem_cons_of_mem _)

/-- A list of banks is reserved for a binding. -/
def reserveAll (k : Nat) (l : List Nat) (r : Table (List Nat)) : Table (List Nat) :=
  l.foldl (fun t n => Table.set [] t n (k :: Table.get [] t n)) r

theorem reserveAll_get {k n : Nat} (l : List Nat) (r : Table (List Nat)) (h : n ∈ l ∨ Table.get [] r n ≠ []) :
    Table.get [] (reserveAll k l r) n ≠ [] := by
  induction l generalizing r with
  | nil => exact h.resolve_left (by simp)
  | cons m l ih =>
    refine ih _ ?_
    by_cases e : n = m
    · subst e
      exact .inr (by rw [Table.get_set_self]; simp)
    · rw [Table.get_set_ne _ e]
      exact h.imp_left fun h => (List.mem_cons.1 h).resolve_left e

theorem State.freeIndex_facts {s : State} {f k : Nat} (h : s.freeIndex f = some k) : (s.bind k).live = false ∧ k / 64 = f := by
  unfold freeIndex at h
  split at h
  · cases h
  · obtain ⟨i, hi, rfl⟩ := Option.map_eq_some_iff.1 h
    have free := List.find?_some hi
    have lt := List.mem_range.1 (List.mem_of_find?_eq_some hi)
    exact ⟨by simpa using free, by omega⟩

/-- The binding that a bind makes at an index that was free. -/
def BindReq.binding (q : BindReq) (old : Binding) : Binding :=
  { live := true, count := old.count + 1, pattern := Pattern.handle q.pat, cores := q.cores
    groups := Pattern.stageCount q.pat, hoBase := q.hoBase, hoSize := q.hoSize, dw2 := q.dw2, dw3 := q.dw3 }

theorem State.allocate_facts {s a : State} {q : BindReq} {k : Nat} (h : s.allocate q = some (a, k)) :
    s.freeIndex q.fn = some k ∧ s.coresFree q = true ∧ a.bind k = q.binding (s.bind k)
    ∧ a.nvm.resv = reserveAll k (Pattern.banks q.pat) s.nvm.resv := by
  unfold allocate at h
  split at h
  next k' x y hk hw =>
    split at h
    · cases h
    next hc =>
      cases h
      refine ⟨hk, by simpa using hc, ?_, ?_⟩
      · rw [bind, refreshDoms_binds]
        exact Table.get_set_self (d := ({} : Binding)) (t := s.binds) (a := k) (x := q.binding (s.bind k))
      · rw [refreshDoms_nvm]
        rfl
  · cases h

/-- Cores that are free are no live binding's. -/
theorem State.coresFree_cores {s : State} {q : BindReq} (h : s.coresFree q = true) :
    ∀ p ∈ s.binds, p.2.live = true → ∀ x ∈ p.2.cores, x ∉ q.cores := by
  simp only [coresFree, Bool.and_eq_true, Bool.not_eq_true', List.any_eq_false, List.any_eq_true, List.contains_eq_mem,
    decide_eq_true_eq] at h
  intro p hp hl x hx hq
  exact h.2 p hp ⟨hl, x, hx, hq⟩

/-! ## The checks of a bind, in their order (R421) -/

section
variable {s : State} {q : BindReq}

theorem State.bindCore_of_host (h : ∃ n ∈ Pattern.banks q.pat, s.nvm.hostOp n = true ∨ s.hostWaits q.order n = true) :
    s.bindCore q = .refuse s St.bankBusy :=
  if_pos (by simpa using h)

theorem State.bindCore_of_noHost (h : ∀ n ∈ Pattern.banks q.pat, s.nvm.hostOp n = false ∧ s.hostWaits q.order n = false) :
    s.bindCore q = if (Pattern.banks q.pat).any s.nvm.busy then .wait (s.abandonAuto (Pattern.banks q.pat))
      else if !((Pattern.banks q.pat).all fun n => ((Pattern.banks q.pat).foldl (fun t n => t.extentReads q.pat n) s).extentIntact q.pat n)
      then .refuse (((Pattern.banks q.pat).foldl (fun t n => t.extentReads q.pat n) s).setTrb .patternDamaged) St.patternDamaged
      else match ((Pattern.banks q.pat).foldl (fun t n => t.extentReads q.pat n) s).allocate q with
        | none => .refuse ((Pattern.banks q.pat).foldl (fun t n => t.extentReads q.pat n) s) St.noResource
        | some (b, k) => .done b k :=
  if_neg (by simpa using h)

/-- A bind that is done has allocated from the state that its checks left. -/
theorem State.bindCore_done {a : State} {k : Nat} (h : s.bindCore q = .done a k) :
    ((Pattern.banks q.pat).foldl (fun t n => t.extentReads q.pat n) s).allocate q = some (a, k) := by
  unfold bindCore at h
  dsimp only at h
  split at h
  · cases h
  · split at h
    · cases h
    · split at h
      · cases h
      · split at h
        · cases h
        next ha => cases h; exact ha

/-- What a bind that is done has taken. -/
theorem State.bindCore_done_facts {a : State} {k : Nat} (h : s.bindCore q = .done a k) :
    (s.bind k).live = false ∧ k / 64 = q.fn ∧ a.bind k = q.binding (s.bind k)
    ∧ (∀ p ∈ s.binds, p.2.live = true → ∀ x ∈ p.2.cores, x ∉ q.cores) ∧ ∀ n ∈ Pattern.banks q.pat, a.reserved n = true := by
  have alloc := bindCore_done h
  obtain ⟨t, ht⟩ : ∃ t, t = (Pattern.banks q.pat).foldl (fun t n => t.extentReads q.pat n) s := ⟨_, rfl⟩
  have hb : t.binds = s.binds := ht ▸ foldl_binds s (fun s n => s.extentReads_binds q.pat n) _
  rw [← ht] at alloc
  obtain ⟨hk, hc, hbind, hresv⟩ := allocate_facts alloc
  have hbk : t.bind k = s.bind k := by rw [bind, hb, bind]
  obtain ⟨hl, hf⟩ := freeIndex_facts hk
  refine ⟨hbk ▸ hl, hf, hbk ▸ hbind, hb ▸ coresFree_cores hc, fun n hn => ?_⟩
  simp only [reserved, hresv, Bool.not_eq_true', List.isEmpty_eq_false_iff]
  exact reserveAll_get _ _ (.inl hn)

end

/-! ## The end of a bind (R372, R413, R421) -/

section
variable {s : State} {t k : Nat} {q : BindReq} {held : Nat}

theorem State.bindParts_of_none (h : chipCount q.pat (1 + s.livePeers.length) = none) :
    s.bindParts t k q held = (s.freeBinding k).endCmd t St.peerLost 0 0 := by
  rw [bindParts, h]

/-- A bind without other participants ends at once. -/
theorem State.bindParts_of_alone {n : Nat} (h : chipCount q.pat (1 + s.livePeers.length) = some n) (ho : s.livePeers.take (n - 1) = []) :
    s.bindParts t k q held = (s.updBind k fun x => { x with chips := n, parts := [s.self], holders := [] }).endCmd t St.ok
      ((s.updBind k fun x => { x with chips := n, parts := [s.self], holders := [] }).handleAt k) (BitVec.ofNat 32 n) := by
  rw [bindParts, h]
  dsimp only
  rw [ho]
  rfl

theorem State.bindParts_of_others {n : Nat} {others : List Nat} {w : State}
    (h : chipCount q.pat (1 + s.livePeers.length) = some n) (ho : others = s.livePeers.take (n - 1)) (hne : others ≠ [])
    (hw : w = ((s.updBind k fun x => { x with chips := n, parts := s.self :: others, holders := others }).updBind k fun x =>
      { x with awaits := others, binder := some t }).updCmd t (fun c => { c with phase := .busy })) :
    s.bindParts t k q held = others.foldl (fun (u : State) z => u.sendCtrl z (.bind (u.jobId k) (Pattern.id q.pat) n q.dw2
      (BitVec.ofNat 32 (q.hoBase - 512 * held + 65536 * q.hoSize)))) w := by
  subst hw ho
  rw [bindParts, h]
  exact if_neg (by simpa using hne)

theorem chipCount_of_fixed {pat : Bytes} {n : Nat} (h : Pattern.chipsDim pat = none) : chipCount pat n = some 1 := by
  rw [chipCount, h]

end

/-- A bind of a pattern that may be bound, in its turn, comes as far as its checks let it. -/
theorem execPatternBind_of_ok {s : State} {t : Ticket} {c : Cmd} {i : Nat} {b : Bytes} {q : BindReq} (hw : s.Waits t.val 0x12 c)
    (ht : s.myTurn c = true) (hm : bitOf (Entry.dw c.entry 2) 31 = false) (hp : Entry.paramsOk c.entry = true)
    (hpat : s.patternOf (Entry.handle c.entry) = some (i, b)) (hmay : s.mayBind c.fn i b = true)
    (hq : q = bindReqOf c.fn i b (Entry.dw c.entry 2) (Entry.dw c.entry 3) c.order) (hh : s.handOverOk q = true) :
    (∀ a st, s.bindCore q = .refuse a st → exec (.patternBind t) s = .next (a.endCmd t.val st 0 0))
    ∧ (∀ a, s.bindCore q = .wait a → exec (.patternBind t) s = .next a)
    ∧ ∀ a k, s.bindCore q = .done a k → exec (.patternBind t) s = .next (a.bindParts t.val k q (s.scratchHeld q.fn)) := by
  have row : execPatternBind t s = ok (s.bindGo t.val q) := by
    subst hq
    rw [execPatternBind, State.onTurn_of_waits hw, if_pos ht]
    dsimp only
    rw [if_neg (by simp [hm]), if_neg (by simp [hp]), hpat]
    exact congrArg ok (if_neg (by simp [hmay]))
  have go : s.bindGo t.val q = match s.bindCore q with
      | .refuse a st => a.endCmd t.val st 0 0
      | .wait a => a
      | .done a k => a.bindParts t.val k q (s.scratchHeld q.fn) := if_neg (by simp [hh])
  exact ⟨fun a st h => row.trans (by rw [go, h]), fun a h => row.trans (by rw [go, h]),
    fun a k h => row.trans (by rw [go, h])⟩

/-! ## Release (R193, R422, R456) -/

section
variable {s : State} {t : Ticket} {c : Cmd}

theorem execPatternRelease_of_bound {k : Nat} (hw : s.Waits t.val 0x12 c) (hm : bitOf (Entry.dw c.entry 2) 31 = true)
    (hp : Entry.paramsOk c.entry = true) (hk : s.byHandle c.fn (Entry.handle c.entry) = some k) :
    exec (.patternRelease t) s = .next (if (s.bind k).releasing = true ∨ (∃ p ∈ s.slots, p.2.isOpen = true ∧ p.2.bind = k)
      then s.endCmd t.val St.badParam 0 0
      else (s.updBind k fun x => { x with releasing := true, releaser := some t.val }).updCmd t.val fun x => { x with phase := .busy }) := by
  refine congrArg ok ((State.onCmd_of_waits hw _).trans ?_)
  rw [if_neg (by simp [hm]), if_neg (by simp [hp]), hk]
  exact if_congr (by simp) rfl rfl

theorem execPatternRelease_of_none (hw : s.Waits t.val 0x12 c) (hm : bitOf (Entry.dw c.entry 2) 31 = true)
    (hn : s.byHandle c.fn (Entry.handle c.entry) = none) : exec (.patternRelease t) s = .next (s.endCmd t.val St.badParam 0 0) := by
  refine congrArg ok ((State.onCmd_of_waits hw _).trans ?_)
  rw [if_neg (by simp [hm]), hn]
  exact ite_self _

theorem execBindingReleaseDone_of_releaser {f : FnId} {i : Fin 64} {k u : Nat} {d : Cmd} (hk : k = 64 * f.val + i.val)
    (hl : (s.bind k).live = true) (hr : (s.bind k).releasing = true) (hu : (s.bind k).releaser = some u) (hd : s.cmd? u = some d)
    (hf : s.fwRuns = true) : exec (.bindingReleaseDone f i) s
      = .next (if s.bindBusy k d.order then s else ((s.freeBinding k).endCmd u St.ok 0 0).retarget) := by
  obtain rfl : k = f.val * 64 + i.val := by omega
  change execBindingReleaseDone f i s = _
  unfold execBindingReleaseDone
  dsimp only
  rw [hu]
  dsimp only
  rw [hd]
  dsimp only
  cases h : s.bindBusy (f.val * 64 + i.val) d.order <;> simp [hl, hr, hf]

theorem State.foldl_sends {α : Type} {f : State → α → State} (h : ∀ (s : State) x, s.Sends (f s x)) (s : State) (l : List α) :
    s.Sends (l.foldl f s) := by
  induction l generalizing s with
  | nil => exact .refl s
  | cons x l ih => exact (h s x).trans (ih _)

theorem State.tellParts_sends (s : State) (k : Nat) : s.Sends (s.tellParts k) := by
  unfold tellParts
  dsimp only
  split
  · exact .refl s
  · exact foldl_sends (fun s c => s.sendCtrl_sends c _) _ _

/-- What emptying ways may change. -/
theorem State.emptyWays_frame (s : State) (l : List Nat) : ∃ c f a b w, s.emptyWays l = { s with
    comp := c, fns := f, addr := { s.addr with sac := a, sacPoison := b }, tenants := { s.tenants with ways := w } } := by
  obtain ⟨c, f, e⟩ := s.emptyCache_frame fun p => l.contains (p.1 / 32768)
  exact ⟨c, f, _, _, _, by rw [emptyWays, e]⟩

theorem State.freeWays_frame (s : State) (k : Nat) : ∃ c f a b w, s.freeWays k = { s with
    comp := c, fns := f, addr := { s.addr with sac := a, sacPoison := b }, tenants := { s.tenants with ways := w } } := by
  obtain ⟨t, w, ht⟩ : ∃ t w, t = { s with tenants := { s.tenants with ways := w } } ∧ ∃ l m, s.freeWays k = (t.emptyWays l).emptyWays m :=
    ⟨_, _, rfl, _, _, rfl⟩
  obtain ⟨rfl, l, m, h⟩ := ht
  obtain ⟨_, _, _, _, _, e1⟩ := emptyWays_frame { s with tenants := { s.tenants with ways := w } } l
  obtain ⟨_, _, _, _, _, e2⟩ := emptyWays_frame (emptyWays { s with tenants := { s.tenants with ways := w } } l) m
  exact ⟨_, _, _, _, _, h.trans (e2.trans (by rw [e1]))⟩

/-- The end of a live binding: what its participants are told, then its cores, ways and reservations. -/
theorem State.freeBinding_eq {k : Nat} (h : (s.bind k).live = true) : s.freeBinding k
    = (({ (((s.tellParts k).zeroCores (s.bind k).cores).freeWays k) with
        nvm := (((s.tellParts k).zeroCores (s.bind k).cores).freeWays k).nvm.unreserve k } : State).updBind k
          fun x => { count := x.count }).refreshDoms s :=
  if_neg (by simp [h])

theorem Nvm.unreserve_resv (v : Nvm) (k n : Nat) : k ∉ Table.get [] (v.unreserve k).resv n := by
  rcases Table.get_eq_or_mem [] (v.unreserve k).resv n with h | h
  · simp [h]
  · obtain ⟨q, -, e⟩ := List.mem_map.1 (List.mem_filter.1 h).1
    have hq := congrArg Prod.snd e
    dsimp only at hq
    simp [← hq]

/-- The stores of cores that are zeroed hold nothing. -/
theorem State.zeroCores_not_mem (l : List Nat) {a : Nat} {v : Byte} (h : a / 1048576 ∈ l) : (a, v) ∉ (s.zeroCores l).addr.cores := by
  intro hm
  have keep := (List.mem_filter.1 hm).2
  simp [h] at keep

/-- What `refreshDoms` leaves of the core stores is what the domains that are not OFF hold. -/
theorem State.refreshDoms_cores (s old : State) : (s.refreshDoms old).addr.cores ⊆ s.addr.cores := by
  have rest (s : State) (d : Nat) : (s.restPacket old d).addr = s.addr := by
    obtain ⟨_, e⟩ := s.restPacket_frame old d
    rw [e]
  have resume (s : State) (d : Nat) : (s.resumePacket old d).addr = s.addr := by
    obtain ⟨_, e⟩ := s.resumePacket_frame old d
    rw [e]
  have replay (s : State) (d : DomState) : (s.replayStub d).addr = s.addr := by
    obtain ⟨_, e⟩ := s.replayStub_frame d
    rw [e]
  have fifo (s : State) (p : Bytes) : (s.traceFifo p).addr = s.addr := by
    obtain ⟨_, e⟩ := s.traceFifo_frame p
    rw [e]
  unfold refreshDoms
  dsimp only
  refine List.Subset.trans List.filter_sublist.subset ?_
  split_ifs <;> simp [rest, resume, replay, fifo, stubFifo]

/-- The end of a binding (R413, R422, R456): its index keeps its count, its cores read zero, no bank is reserved for it. -/
theorem State.freeBinding_facts {k : Nat} (h : (s.bind k).live = true) :
    (s.freeBinding k).bind k = { count := (s.bind k).count }
    ∧ (∀ a, a / 1048576 ∈ (s.bind k).cores → Table.get 0 (s.freeBinding k).addr.cores a = 0)
    ∧ ∀ n, k ∉ Table.get [] (s.freeBinding k).nvm.resv n := by
  obtain ⟨_, _, _, _, tell⟩ := s.tellParts_sends k
  obtain ⟨_, _, _, _, _, free⟩ := ((s.tellParts k).zeroCores (s.bind k).cores).freeWays_frame k
  rw [freeBinding_eq h]
  refine ⟨?_, fun a ha => ?_, fun n => ?_⟩
  · rw [bind, refreshDoms_binds]
    refine (bind_updBind _ k _).trans ?_
    rw [free, tell]
    rfl
  · refine (Table.get_eq_or_mem 0 _ a).resolve_right fun hm => ?_
    have hm := refreshDoms_cores _ _ hm
    rw [updBind_addr, free] at hm
    exact zeroCores_not_mem _ ha hm
  · rw [refreshDoms_nvm]
    exact Nvm.unreserve_resv _ k n

end

/-- Settles O44: a bind by how far its checks let it come, a release by what it waits for. -/
theorem bindingsAreMadeAndReleased : Obligations.BindingsAreMadeAndReleased := by
  unfold Obligations.BindingsAreMadeAndReleased
  intro s t c
  refine ⟨?_, fun q a k => State.bindCore_done_facts, fun q => ⟨State.bindCore_of_host, fun hn => ⟨fun hb => ?_, ?_⟩⟩,
    fun k hw hm hp hk => ⟨fun hr hs => ?_, fun h => ?_⟩, execPatternRelease_of_none, ?_, fun k => State.freeBinding_facts⟩
  · intro i b q hw ht hm hp hpat hmay hq hh
    obtain ⟨refused, waits, done⟩ := execPatternBind_of_ok hw ht hm hp hpat hmay hq hh
    obtain rfl : q.pat = b := by rw [hq]; rfl
    refine ⟨fun a k w hd hdim hw => ?_, fun a k hd hc => ?_, fun a k n others w hd hc ho hne hw => ?_, refused, waits⟩
    · rw [done a k hd, State.bindParts_of_alone (chipCount_of_fixed hdim) rfl, hw]
      rfl
    · rw [done a k hd, State.bindParts_of_none hc]
    · rw [done a k hd, State.bindParts_of_others hc ho hne hw]
  · rw [State.bindCore_of_noHost hn, if_pos (by simpa using hb)]
  · rintro a rfl hb hd
    rw [State.bindCore_of_noHost hn, if_neg (by simpa using hb), if_pos (by simpa using hd)]
  · rw [execPatternRelease_of_bound hw hm hp hk, if_neg]
    rintro (h | ⟨p, hp, ho, hk⟩)
    · simp [hr] at h
    · exact hs p hp ho hk
  · rw [execPatternRelease_of_bound hw hm hp hk, if_pos h]
  · intro f i k u d hk hl hr hu hd hf
    rw [execBindingReleaseDone_of_releaser hk hl hr hu hd hf]
    exact ⟨fun h => by simp [h], fun h => by simp [h]⟩

end Sys2Proof.Machine
end

section
/-!
PROOFS. The sequencers: gates, layer runs, tiles and drains (R27, R154 to R168, R242 to R262, R285).
-/

namespace Sys2Proof.Machine

/-- What every step of a fold leaves, the fold leaves. -/
theorem foldl_keeps_value {α β γ : Type} (p : β → γ) {f : β → α → β} (h : ∀ u a, p (f u a) = p u) (u : β) (l : List α) :
    p (l.foldl f u) = p u := by
  induction l generalizing u with
  | nil => rfl
  | cons a l ih => rw [List.foldl_cons, ih, h]

/-! ## Stages and columns of a running command -/

section
variable (x : Run) (n j : Nat)

@[simp] theorem Run.stage_updStage (g : StageSt → StageSt) : (x.updStage n g).stage n = g (x.stage n) := Table.get_set_self

@[simp] theorem Run.col_updCol (g : ColSt → ColSt) : (x.updCol n j g).col n j = g (x.col n j) := by
  rw [col, updCol, stage_updStage]
  exact Table.get_set_self

/-- What a layer run's start sets of its stage and nothing else of it changes. -/
def StageSt.runKey (t : StageSt) : StagePhase × Bytes × Nat := (t.phase, t.record, t.layer)

@[simp] theorem Run.runKey_updCol (g : ColSt → ColSt) : ((x.updCol n j g).stage n).runKey = (x.stage n).runKey := by
  rw [updCol, stage_updStage]
  rfl

@[simp] theorem Run.runKey_weightLines (k : Nat) : ((x.weightLines n k).stage n).runKey = (x.stage n).runKey := by
  unfold weightLines
  split
  · rfl
  · change ((x.countIn n k).stage n).runKey = _
    unfold countIn
    split
    · rfl
    · rw [stage_updStage]
      rfl

theorem State.setCols_runKey (s : State) : ((s.setCols x n).stage n).runKey = (x.stage n).runKey :=
  foldl_keeps_value (fun y : Run => (y.stage n).runKey) (fun y i => y.runKey_updCol n i _) x _

theorem State.fetchNext_runKey (s : State) : ((s.fetchNext x n j).2.stage n).runKey = (x.stage n).runKey := by
  unfold fetchNext
  split
  · rfl
  · split
    · rfl
    · simp

theorem State.landEmpty_runKey (s : State) : ((s.landEmpty x n).2.stage n).runKey = (x.stage n).runKey := by
  refine foldl_keeps_value (fun u : State × Run => (u.2.stage n).runKey) (fun u i => ?_) (s, x) _
  dsimp only
  split
  · rfl
  · exact u.1.fetchNext_runKey u.2 n i

/-- Putting an output out, or failing to, leaves the stages. -/
theorem State.putSac_stages (s : State) (ref base off : Nat) (d : Bytes) (bad : Bool) :
    (s.putSac x n ref base off d bad).2.stages = x.stages := by
  unfold putSac Run.abortAt
  split
  · rfl
  · dsimp only
    split_ifs
    · split <;> rfl
    · rfl

theorem State.putRef_stages (s : State) (f : Ref) (ref off : Nat) (d : Bytes) (bad beyond : Bool) :
    (s.putRef x n f ref off d bad beyond).2.stages = x.stages := by
  unfold putRef
  split
  · unfold Run.putOut
    dsimp only
    split <;> rfl
  · exact foldl_keeps_value (fun u : State × Run => u.2.stages) (fun u _ => u.1.putSac_stages u.2 n ..) (s, x) _
  · rfl

theorem State.drainCore_stages (s : State) (f : Refs) (c : Ctx) (core : Nat) (b : Box) :
    (s.drainCore x n f c core b).2.stages = x.stages :=
  foldl_keeps_value (fun u : State × Run => u.2.stages) (fun u _ => u.1.putRef_stages u.2 n ..) (s, x) _

theorem Run.col_of_stages {x y : Run} (h : y.stages = x.stages) (n j : Nat) : y.col n j = x.col n j := by rw [col, stage, h, ← stage, ← col]

/-- Draining a column empties it; its tile stays the present one. -/
theorem State.drainColumn_tile (s : State) : ((s.drainColumn x n j).2.col n j).tile = (x.col n j).tile := by
  unfold drainColumn
  split
  · rfl
  · dsimp only
    split
    · rfl
    · rw [Run.col_updCol, Run.col_of_stages (x := x)]
      refine foldl_keeps_value (fun u : State × Run => u.2.stages) (fun u _ => ?_) (s, x) _
      split
      · rfl
      · exact u.1.drainCore_stages u.2 n ..

theorem State.jobCompute_cols (s : State) (f : Refs) (c : Ctx) (l : List Nat) (job : LoadJob) (h : job.stage = n) :
    ((s.jobCompute x f c l job).2.stage n).cols = (x.stage n).cols := by
  subst h
  rw [jobCompute]
  dsimp only
  rw [Run.stage_updStage]

theorem State.dropUsed_stages (s : State) (x : Run) (n j : Nat) (c : Ctx) (l : List Need) : (s.dropUsed x n j c l).stages = x.stages := by
  unfold dropUsed
  dsimp only
  split <;> rfl

end

/-! ## Hand-over tokens (R259 to R262) -/

theorem State.token_setToken (s : State) (k key : Nat) (v : Token) : (s.setToken k key v).token k key = v := by
  rw [token, setToken, bind_updBind]
  exact Table.get_set_self

theorem State.token_setToken_ne (s : State) (k : Nat) {key q : Nat} (v : Token) (h : q ≠ key) :
    (s.setToken k key v).token k q = s.token k q := by
  rw [token, setToken, bind_updBind]
  exact Table.get_set_ne _ h

theorem State.token_setRun (s : State) (k b q : Nat) (y : Run) : (s.setRun k y).token b q = s.token b q := rfl

theorem State.token_setTokenOf (s : State) (k q : Nat) (v : Token) : (s.setTokenOf k (some q) v).token k q = v :=
  s.token_setToken k q v

theorem State.token_setTokenOf_ne (s : State) (k : Nat) {q : Nat} {key : Option Nat} (v : Token) (h : key ≠ some q) :
    (s.setTokenOf k key v).token k q = s.token k q := by
  cases key with
  | none => rfl
  | some key => exact s.token_setToken_ne k v fun e => h (by rw [e])

/-! ## The gate of a stage (R259 to R262, R285) -/

section
variable {s : State} {t : RunId} {n j : Fin 8} {x : Run}

theorem State.liveStage_facts {k i : Nat} (h : s.liveStage k i = some x) : s.run? k = some x ∧ s.fabricRuns = true ∧ x.stop = none := by
  unfold liveStage at h
  split at h
  · cases h
  · split at h
    next y hy hc =>
      cases h
      simp only [Bool.and_eq_true, Option.isNone_iff_eq_none] at hc
      obtain ⟨⟨⟨⟨⟨hf, hs⟩, -⟩, -⟩, -⟩, -⟩ := hc
      exact ⟨hy, hf, hs⟩
    · cases h

/-- A stage that passes its gate. -/
def State.gateStage (s : State) (t : StageSt) : StageSt :=
  { t with
    phase := .open
    waits := none
    withheld := if t.layer = 0 then (List.range 4).map fun q => Table.get 0 s.pace.withheld q else t.withheld }

theorem State.passGate_eq (s : State) (k : Nat) (x : Run) (i : Nat) : ∃ l w, s.passGate k x i
    = ((s.setTokenOf x.bind (x.readToken i (s.recAt x i (x.stage i).layer)) .reading).setTokenOf x.bind
        (s.writeToken x i (s.recAt x i (x.stage i).layer)) .filling).setRun k
      { (x.hold l).updStage i s.gateStage with contention := w } :=
  ⟨_, _, rfl⟩

/-- What passing its gate makes of a stage and of the tokens of its next layer. -/
theorem State.passGate_facts (s : State) (k : Nat) (x : Run) (i : Nat) : ∃ y, (s.passGate k x i).run? k = some y
    ∧ y.stage i = s.gateStage (x.stage i)
    ∧ ∀ r, r = s.recAt x i (x.stage i).layer →
      (∀ q, s.writeToken x i r = some q → (s.passGate k x i).token x.bind q = .filling)
      ∧ (∀ q, x.readToken i r = some q → s.writeToken x i r ≠ some q → (s.passGate k x i).token x.bind q = .reading) := by
  obtain ⟨l, w, e⟩ := s.passGate_eq k x i
  rw [e]
  refine ⟨_, run_setRun _ _ _, (x.hold l).stage_updStage i s.gateStage, ?_⟩
  rintro r rfl
  refine ⟨fun q hq => ?_, fun q hq hw => ?_⟩
  · rw [token_setRun, hq, token_setTokenOf]
  · rw [token_setRun, token_setTokenOf_ne _ _ _ hw, hq, token_setTokenOf]

theorem execStageStart_of_gate (h : s.liveStage t.val n.val = some x) (hg : (x.stage n.val).phase = .gate) :
    exec (.stageStart t n) s = .next (if (s.groupFailed x n.val && !s.stageBusy t.val x n.val) = true
      then s.stopRun t.val { status := St.coreFault }
      else if s.gateOpen t.val x n.val then s.passGate t.val x n.val else s.setRun t.val (x.updStage n.val s.beginWait)) := by
  change execStageStart t n s = _
  rw [execStageStart, h]
  dsimp only
  rw [if_neg (by simp [hg])]
  cases s.groupFailed x n.val <;> cases s.stageBusy t.val x n.val <;> cases s.gateOpen t.val x n.val <;> rfl

theorem execStageStart_of_passed (h : s.liveStage t.val n.val = some x) (hg : (x.stage n.val).phase ≠ .gate) :
    exec (.stageStart t n) s = .next s := by
  change execStageStart t n s = _
  rw [execStageStart, h]
  exact if_pos hg

/-! ## The start of a layer (R148, R173, R411) -/

theorem execLayerStart_of_live (h : s.liveStage t.val n.val = some x) :
    exec (.layerStart t n) s = .next (if (x.stage n.val).phase = .open ∧ s.lightReady x = true then s.startLayer t.val x n.val else s) := by
  change execLayerStart t n s = _
  rw [execLayerStart, h]
  dsimp only
  split <;> rfl

theorem State.layerTrace_run (s : State) (x : Run) (i aux k : Nat) : (s.layerTrace x i aux).run? k = s.run? k := by
  obtain ⟨tr, e⟩ := s.traceEmit_frame 3 (some x.fn) false 0x12 (PieceRec.origin (s.pieceOf x i)) aux
    (BitVec.ofNat 32 ((x.stage i).layer % 65536 + 65536 * x.pieceIdx i))
  rw [layerTrace, e]
  rfl

/-- With every buffer in the table the layer runs on its stage. -/
theorem State.startLayer_of_ok {k i : Nat} {q : State × LayerRead} (hq : q = s.readLayer x i) (hn : x.namesOk q.2 = true) :
    ∃ y, (s.startLayer k x i).run? k = some y ∧ (y.stage i).runKey = (.running, q.2.record, (x.stage i).layer) := by
  subst hq
  have start : s.startLayer k x i = _ := if_neg (by simp [hn])
  refine ⟨_, by rw [start, layerTrace_run, run_setRun], ?_⟩
  rw [landEmpty_runKey, setCols_runKey, Run.stage_updStage]
  refine (Run.runKey_weightLines _ i _).trans ?_
  rw [Run.stage_updStage]
  rfl

theorem State.startLayer_of_bad {k i : Nat} {q : State × LayerRead} (hq : q = s.readLayer x i) (hn : x.namesOk q.2 = false) :
    ∃ y : Run, s.startLayer k x i = (q.1.setRun k y).settle k ∧ y.stop = some { status := St.badParam } := by
  subst hq
  exact ⟨_, if_pos (by simp [hn]), rfl⟩

/-! ## Tiles (R187, R242, R245 to R250) -/

/-- The present tile of a column of a running layer is granted to an idle column whose turn has come. -/
theorem execTileGrant_of_live (h : s.liveStage t.val n.val = some x) : exec (.tileGrant t n j) s = .next
    (if (x.stage n.val).phase ≠ .running ∨ (s.ctxOf x n.val).gw ≤ j.val ∨ (x.col n.val j.val).phase ≠ .idle
        ∨ x.columnTurn n.val j.val (s.ctxOf x n.val).gw = false then s
      else match ((s.ctxOf x n.val).tiles j.val)[(x.col n.val j.val).tile]? with
        | none => s
        | some b => s.grantTile t.val x n.val j.val (s.ctxOf x n.val) b) := by
  change execTileGrant t n j s = _
  rw [execTileGrant, h]
  dsimp only
  simp only [Bool.not_eq_true']
  split
  · rfl
  · cases ((s.ctxOf x n.val).tiles j.val)[(x.col n.val j.val).tile]? <;> rfl

theorem State.grantTile_facts (s : State) (k : Nat) (x : Run) (i l : Nat) (c : Ctx) (b : Box) : ∃ y,
    (s.grantTile k x i l c b).run? k = some y ∧ (y.col i l).phase = .load ∧ (y.col i l).since = s.time := by
  refine ⟨_, run_setRun _ _ _, ?_, ?_⟩ <;> rw [Run.col_updCol]

theorem execLoadPhaseEnd_of_load {b : Box} (h : s.liveStage t.val n.val = some x) (hp : (x.stage n.val).phase = .running)
    (hc : (x.col n.val j.val).phase = .load) (hb : ((s.ctxOf x n.val).tiles j.val)[(x.col n.val j.val).tile]? = some b) :
    exec (.loadPhaseEnd t n j) s = .next (if s.ready x n.val (s.tileNeeds x n.val (s.refsOf x n.val (s.ctxOf x n.val).r) (s.ctxOf x n.val)
        j.val (x.col n.val j.val).tile b) = true
      then (s.endLoad t.val x n.val j.val (s.ctxOf x n.val) b (s.tileNeeds x n.val (s.refsOf x n.val (s.ctxOf x n.val).r) (s.ctxOf x n.val)
        j.val (x.col n.val j.val).tile b)).settle t.val else s) := by
  change execLoadPhaseEnd t n j s = _
  rw [execLoadPhaseEnd, h]
  dsimp only
  rw [if_neg (by simp [hp, hc]), hb]
  dsimp only
  split <;> rfl

theorem State.endLoad_facts (s : State) (k : Nat) (x : Run) (i l : Nat) (c : Ctx) (b : Box) (m : List Need) : ∃ y,
    (s.endLoad k x i l c b m).run? k = some y ∧ (y.col i l).phase = .compute ∧ (y.col i l).loaded = true ∧ (y.col i l).held = false := by
  refine ⟨_, run_setRun _ _ _, ?_, ?_, ?_⟩ <;> rw [Run.col_of_stages (dropUsed_stages ..), Run.col_updCol]

theorem execComputePhaseEnd_of_compute {b : Box} (h : s.liveStage t.val n.val = some x) (hp : (x.stage n.val).phase = .running)
    (hc : (x.col n.val j.val).phase = .compute) (hb : ((s.ctxOf x n.val).tiles j.val)[(x.col n.val j.val).tile]? = some b) :
    exec (.computePhaseEnd t n j) s = .next (s.endCompute t.val x n.val j.val (s.ctxOf x n.val) b) := by
  obtain ⟨hr, hf, -⟩ := State.liveStage_facts h
  change execComputePhaseEnd t n j s = _
  rw [execComputePhaseEnd, hr]
  dsimp only
  rw [if_neg (by simp [hf, hp, hc]), hb]

theorem State.afterTile_facts (s : State) (x : Run) (i l : Nat) (c : Ctx) :
    ((s.afterTile x i l c).2.col i l).tile = (x.col i l).tile
    ∧ ((s.afterTile x i l c).2.col i l).phase = if (c.tiles l).length ≤ (x.col i l).tile then .done else .idle := by
  have tile (p : Bool) : ((if p = true then s.drainColumn x i l else (s, x)).2.col i l).tile = (x.col i l).tile := by
    cases p
    · rfl
    · exact s.drainColumn_tile x i l
  rw [afterTile]
  dsimp only
  rw [Run.col_updCol]
  exact ⟨tile _, if_congr (by simp) rfl rfl⟩

/-- A column counts its tile at the end of its compute phase. -/
def Ctx.tileDone (c : Ctx) (b : Box) (z : ColSt) : ColSt := { z with tile := z.tile + 1, held := !LayerRec.isArray c.r || c.lastC b }

/-- The end of a compute phase counts its tile; after the last one the column is done. -/
theorem State.endCompute_facts (s : State) (k : Nat) (x : Run) (i l : Nat) (c : Ctx) (b : Box) : ∃ (u : State) (y : Run),
    s.endCompute k x i l c b = u.settle k ∧ u.run? k = some y ∧ (y.col i l).tile = (x.col i l).tile + 1
    ∧ (y.col i l).phase = if (c.tiles l).length ≤ (x.col i l).tile + 1 then .done else .idle := by
  obtain ⟨u, hu⟩ : ∃ u, u = ((c.jobs (s.pieceOf x i) i l (x.col i l).tile b).filter LoadJob.active).foldl
    (fun (v : State × Run) job => v.1.jobCompute v.2 (s.refsOf x i c.r) c (x.col i l).badW job) (s, x) := ⟨_, rfl⟩
  have cols : (u.2.stage i).cols = (x.stage i).cols := by
    rw [hu]
    refine List.foldlRecOn (motive := fun v : State × Run => (v.2.stage i).cols = (x.stage i).cols) _ _ rfl fun v hv job hjob => ?_
    obtain ⟨m, -, rfl⟩ := List.mem_map.1 (List.mem_of_mem_filter hjob)
    exact (State.jobCompute_cols _ i _ _ _ _ _ rfl).trans hv
  have tile : (u.2.col i l).tile = (x.col i l).tile := by rw [Run.col, cols, ← Run.col]
  obtain ⟨w, hw⟩ : ∃ w, w = u.1.afterTile (u.2.updCol i l (c.tileDone b)) i l c := ⟨_, rfl⟩
  have after := afterTile_facts u.1 (u.2.updCol i l (c.tileDone b)) i l c
  rw [Run.col_updCol, ← hw, Ctx.tileDone, tile] at after
  refine ⟨w.1.setRun k w.2, w.2, ?_, run_setRun _ _ _, after.1, after.2⟩
  rw [hw, hu]
  rfl

/-! ## The drain of a layer (R154 to R168, R252) -/

theorem execLayerDrainEnd_of_live (h : s.liveStage t.val n.val = some x) : exec (.layerDrainEnd t n) s = .next
    (if (x.stage n.val).phase = .running ∧ s.layerDrained x n.val = true then s.endLayer t.val x n.val else s) := by
  change execLayerDrainEnd t n s = _
  rw [execLayerDrainEnd, h]
  dsimp only
  split <;> rfl

theorem State.recordBeats_drifted (s : State) (x : Run) (i : Nat) : ((s.recordBeats x i).stage i).drifted = (x.stage i).drifted := by
  unfold recordBeats
  split
  · rfl
  · rw [Run.stage_updStage]
    rfl

/-- The end of a layer without drift, and with each answer to a drift. -/
theorem State.endLayer_of {k i : Nat} {y : Run} {a : State} (hy : y = s.recordBeats x i) (ha : a = s.tick.layerTrace y i 1) :
    ((x.stage i).drifted = false → s.endLayer k x i = a.passLayer k y i)
    ∧ ((x.stage i).drifted = true → a.driftStep y i = .rerun → s.endLayer k x i = (a.tick.reportDrift y i true).startRerun k y i)
    ∧ ((x.stage i).drifted = true → a.driftStep y i = .late →
        s.endLayer k x i = (a.tick.reportDrift y i false).passLayer k { y with drift := true, kept := true } i)
    ∧ ((x.stage i).drifted = true → a.driftStep y i = .keep →
        s.endLayer k x i = (a.tick.reportDrift y i false).passLayer k { y with drift := true } i) := by
  rw [← s.recordBeats_drifted x i, ← hy]
  refine ⟨fun h => ?_, fun h hs => ?_, fun h hs => ?_, fun h hs => ?_⟩
  · rw [endLayer, ← hy, ← ha, if_pos (by simp [h])]
  all_goals rw [endLayer, ← hy, ← ha, if_neg (by simp [h]), hs]

end

/-- Settles O54: each event of a sequencer by what it finds of its stage and column. -/
theorem sequencersTakeAStageThroughItsLayers : Obligations.SequencersTakeAStageThroughItsLayers := by
  unfold Obligations.SequencersTakeAStageThroughItsLayers
  intro s t n j x h
  refine ⟨?_, execStageStart_of_passed h, fun q ho hl hq => ⟨fun hn => ?_, fun hn => ?_⟩, fun hno => ?_, fun c b hp hc hb => ?_,
    fun hno => ?_, fun y a hp hd hy ha => ?_, fun hno => ?_⟩
  · rintro held rfl hg
    rw [execStageStart_of_gate h hg]
    refine ⟨fun hh => by rw [if_pos hh], fun hh ho => ?_, fun hh ho => ?_⟩
    · rw [if_neg (by simp [hh]), if_pos ho]
      obtain ⟨y, hy, hs, tok⟩ := s.passGate_facts t.val x n.val
      exact ⟨_, y, rfl, hy, by rw [hs]; rfl, by rw [hs]; rfl, tok⟩
    · rw [if_neg (by simp [hh]), if_neg (by simp [ho])]
      refine ⟨_, _, rfl, State.run_setRun _ _ _, ?_, ?_⟩ <;> rw [Run.stage_updStage, State.beginWait]
      · split <;> exact hg
      · cases hw : (x.stage n.val).waits <;> simp [hw]
  · obtain ⟨y, hy, hk⟩ := State.startLayer_of_ok (k := t.val) hq hn
    obtain ⟨hph, hrec, hlay⟩ : _ ∧ _ ∧ _ := by simpa only [StageSt.runKey, Prod.mk.injEq] using hk
    rw [execLayerStart_of_live h, if_pos ⟨ho, hl⟩]
    exact ⟨_, y, rfl, hy, hph, hrec, hlay⟩
  · obtain ⟨y, hy, hs⟩ := State.startLayer_of_bad (k := t.val) hq hn
    rw [execLayerStart_of_live h, if_pos ⟨ho, hl⟩]
    exact ⟨y, congrArg Host.Outcome.next hy, hs⟩
  · rw [execLayerStart_of_live h, if_neg]
    rintro ⟨ho, hl⟩
    simp [ho, hl] at hno
  · subst hc
    refine ⟨fun hj hi ht => ?_, fun hl => ?_, fun hcp => ?_⟩
    · rw [execTileGrant_of_live h, if_neg (by simp [hp, hi, ht, hj]), hb]
      obtain ⟨y, hy, facts⟩ := s.grantTile_facts t.val x n.val j.val (s.ctxOf x n.val) b
      exact ⟨_, y, rfl, hy, facts⟩
    · rintro l rfl
      rw [execLoadPhaseEnd_of_load h hp hl hb]
      refine ⟨fun hr => ?_, fun hr => by rw [if_neg (by simp [hr])]⟩
      obtain ⟨y, facts⟩ := s.endLoad_facts t.val x n.val j.val (s.ctxOf x n.val) b (s.tileNeeds x n.val
        (s.refsOf x n.val (s.ctxOf x n.val).r) (s.ctxOf x n.val) j.val (x.col n.val j.val).tile b)
      exact ⟨_, y, by rw [if_pos hr], facts⟩
    · rw [execComputePhaseEnd_of_compute h hp hcp hb]
      obtain ⟨u, y, hu, facts⟩ := s.endCompute_facts t.val x n.val j.val (s.ctxOf x n.val) b
      exact ⟨u, y, congrArg Host.Outcome.next hu, facts⟩
  · rw [execTileGrant_of_live h, if_pos]
    rcases hno with hno | hno
    · exact .inl hno
    · exact .inr (.inr (.inr hno))
  · obtain ⟨keeps, again, late, noted⟩ := State.endLayer_of (k := t.val) hy ha
    rw [execLayerDrainEnd_of_live h, if_pos ⟨hp, hd⟩]
    exact ⟨fun h => congrArg Host.Outcome.next (keeps h), fun h hs => congrArg Host.Outcome.next (again h hs),
      fun h hs => congrArg Host.Outcome.next (late h hs), fun h hs => congrArg Host.Outcome.next (noted h hs)⟩
  · rw [execLayerDrainEnd_of_live h, if_neg]
    rintro ⟨hp, hd⟩
    simp [hp, hd] at hno

end Sys2Proof.Machine
end

section
/-!
PROOFS. Wheels, deadlines, failing cores and the resume of the CP (R27, R253, R283, R287, R580).
-/

namespace Sys2Proof.Machine

/-! ## Wheels (R253 to R255) -/

theorem State.advanceWheel_wheel (s : State) (e : Nat) :
    Table.get 0 (s.advanceWheel e).comp.wheel e = (Table.get 0 s.comp.wheel e + 1) % 16 := Table.get_set_self

theorem execWheelSlot_of_running {s : State} {e : Fin 4} {view : HostView} (hf : s.fabricRuns = true) (hl : s.power.level = 0) :
    exec (.wheelSlot e view) s = .next ((((s.pullAll e.val).updateSlot e.val).advanceWheel e.val).runSlot view e.val
      (Table.get 0 s.comp.wheel e.val % 16)) :=
  if_neg (by simp [hf, hl])

theorem execWheelSlot_of_still {s : State} {e : Fin 4} {view : HostView} (h : s.fabricRuns = false ∨ s.power.level ≠ 0) :
    exec (.wheelSlot e view) s = .next s :=
  if_pos (by rcases h with h | h <;> simp [h])

/-! ## Deadlines (R283, R287, R289) -/

section
variable {s : State} {k : Nat} {x : Run}

theorem State.deadlinePass_of_idle (hx : s.run? k = some x) (h : x.passed s.time = false ∨ x.missStage.isSome = true) :
    s.deadlinePass k = s := by
  rw [deadlinePass, hx]
  exact if_pos (by rcases h with h | h <;> simp [h])

/-- A frame that misses its deadline is dropped under LATE_DROP, unless the CP is halted, and else keeps its open stage. -/
theorem State.deadlinePass_of_passed (hx : s.run? k = some x) (hp : x.passed s.time = true) (hm : x.missStage = none) :
    s.deadlinePass k = if (x.lateDrop && !s.dbg.halted) = true then s.dropFrame k else s.setRun k (x.passDeadline s.time) := by
  have upd : s.updRun k (fun y => y.passDeadline s.time) = s.setRun k (x.passDeadline s.time) := by rw [updRun, hx]
  rw [deadlinePass, hx]
  dsimp only
  rw [if_neg (by simp [hp, hm]), upd]

theorem Run.passDeadline_missStage (hm : x.missStage = none) (now : BitVec 64) :
    (x.passDeadline now).missStage = some x.openStage := by
  rw [passDeadline, hm]
  rfl

theorem Run.passed_iff {d now : BitVec 64} (hd : x.deadline = some d) (hs : x.stop = none) :
    x.passed now = true ↔ d < now ∧ x.allDone = false := by
  simp [passed, hd, hs, and_comm]

/-! ## A core that fails (R27) -/

theorem State.markCore_failed (s : State) (n : Nat) : Table.get false (s.markCore n).life.failed n = true :=
  Table.get_set_self (d := false) (t := s.life.failed) (a := n) (x := true)

theorem execCoreFault_of_still {core : Fin 64} (h : s.fabricRuns = false) : exec (.coreFault core) s = .next s :=
  if_pos (by simp [h])

theorem execCoreFault_of_running {core : Fin 64} (h : s.fabricRuns = true) :
    (s.coreOwner core.val = none → exec (.coreFault core) s = .next ((s.markCore core.val).logEvent 0x33 0x40
      (leBytes 1 core.val ++ zeroBytes 4) [.dev Trb.coreFault.bit]))
    ∧ ∀ k x, s.coreOwner core.val = some (k, x) → exec (.coreFault core) s
      = .next (((s.markCore core.val).logEvent 0x33 (fnByte x.fn) (leBytes 1 core.val ++ leBytes 4 (s.handleAt x.bind).toNat)
        [.dev Trb.coreFault.bit, .fn x.fn FnTrb.coreFault.bit]).stopRun k { status := St.coreFault }) := by
  have row : execCoreFault core s = _ := if_neg (by simp [h])
  exact ⟨fun hn => row.trans (by rw [hn]; rfl), fun k x hk => row.trans (by rw [hk])⟩

/-! ## The CP resumes (R287, R580) -/

theorem State.resumeCp_of_running (h : s.dbg.halted = false) : s.resumeCp = s := if_pos (by simp [h])

theorem State.resumeCp_of_halted (h : s.dbg.halted = true) :
    s.resumeCp = (s.startCp.dropsDue.foldl State.dropAfterHalt s.startCp).retarget := if_neg (by simp [h])

end

/-- Settles O55: the wheel's present slot, a deadline and a failing core by their cases, RESUME by its scope. -/
theorem wheelsTurnAndFramesPassTheirDeadlines : Obligations.WheelsTurnAndFramesPassTheirDeadlines := by
  unfold Obligations.WheelsTurnAndFramesPassTheirDeadlines
  intro s e view t core
  refine ⟨?_, execWheelSlot_of_still, fun x d hx hd hs => ⟨fun hlt ha hm => ?_, fun h => congrArg Host.Outcome.next ?_⟩,
    fun hf => ⟨_, rfl, s.markCore_failed core.val, execCoreFault_of_running hf⟩, execCoreFault_of_still, fun a b ha hr => ?_⟩
  · rintro u v i hf hl rfl rfl rfl
    exact ⟨State.advanceWheel_wheel _ _, (execWheelSlot_of_running hf hl).trans rfl⟩
  · have row := State.deadlinePass_of_passed hx ((Run.passed_iff hd hs).2 ⟨hlt, ha⟩) hm
    refine ⟨fun hl hh => congrArg Host.Outcome.next (row.trans (if_pos (by simp [hl, hh]))), fun h => ?_⟩
    refine ⟨_, _, congrArg Host.Outcome.next (row.trans (if_neg ?_)), State.run_setRun _ _ _, Run.passDeadline_missStage hm _⟩
    rcases h with h | h <;> simp [h]
  · refine State.deadlinePass_of_idle hx ?_
    rcases h with h | h | h
    · exact .inl (Bool.eq_false_iff.2 fun hp => absurd ((Run.passed_iff hd hs).1 hp).1 (BitVec.not_lt.2 h))
    · exact .inl (Bool.eq_false_iff.2 fun hp => by simp [((Run.passed_iff hd hs).1 hp).2] at h)
    · exact .inr h
  · have halted : a.dbg.halted = s.dbg.halted := by rw [ha, State.refreshDoms_dbg]
    refine ⟨fun h1 hh hb => congrArg Host.Outcome.next ?_, fun h1 hh => congrArg Host.Outcome.next ?_, fun h0 => congrArg Host.Outcome.next ?_⟩
    · rw [State.dbgAccess_of_scope ha hr h1, State.resumeCp_of_halted (halted.trans hh), hb]
    · rw [State.dbgAccess_of_scope ha hr h1, State.resumeCp_of_running (halted.trans hh)]
    · rw [State.dbgAccess_of_below ha hr (by simp [h0])]
      rfl

end Sys2Proof.Machine
end

section
/-!
PROOFS. Flits: what is accepted, discarded, drained and sent again (R361 to R365, R370).
-/

namespace Sys2Proof.Machine

section
variable {s : State} {i : Nat} {f : Bytes}

/-! ## What a port sends bare (R361, R365) -/

theorem State.port_congr {t : State} (h : t.weft = s.weft) : t.port i = s.port i :=
  congrArg (fun w : Weft => Table.get ({} : Port) w.ports i) h

@[simp] theorem State.sendBare_weft (s : State) (i kind seq : Nat) (payload : Bytes) :
    (s.sendBare i kind seq payload).weft = s.weft := by
  unfold sendBare
  split <;> rfl

@[simp] theorem State.sendBare_port (s : State) (i kind seq j : Nat) (payload : Bytes) :
    (s.sendBare i kind seq payload).port j = s.port j := port_congr (sendBare_weft ..)

/-- The destination field of an unsequenced flit: the neighbour's ID, free where it is not known. -/
def State.bareDst (s : State) (i : Nat) : Nat := (s.port i).neighbour.getD (Config.freeNat s.fresh)

theorem State.sendBare_of_up (h : (s.port i).up = true) (kind seq : Nat) (payload : Bytes) :
    s.sendBare i kind seq payload
      = { s.tick with out := s.out ++ [.flit i (flitSeal seq (flitBody kind (s.bareDst i) s.self false 0 payload))] } :=
  if_neg (by simp [h])

theorem State.sendBare_out (h : (s.port i).up = true) (kind seq : Nat) (payload : Bytes) :
    (s.sendBare i kind seq payload).out
      = s.out ++ [.flit i (flitSeal seq (flitBody kind (s.bareDst i) s.self false 0 payload))] := by
  rw [sendBare_of_up h]

@[simp] theorem State.sendBare_life (s : State) (i kind seq : Nat) (payload : Bytes) :
    (s.sendBare i kind seq payload).life = s.life := by
  unfold sendBare
  split <;> rfl

theorem State.up_of_portOn (h : s.portOn i = true) : (s.port i).up = true := (Bool.and_eq_true_iff.1 h).2

/-- Transmitting leaves a port up or down. -/
theorem Port.pump_up (now : BitVec 64) (n : Nat) (p : Port) : (Port.pump now n p).1.up = p.up := by
  induction n generalizing p with
  | zero => rfl
  | succ n ih =>
    rw [Port.pump]
    split
    · rfl
    split
    · exact ih _
    · split
      · rfl
      · split
        · rfl
        · exact ih _

theorem State.pump_out (h : (s.port i).up = true) :
    ∃ l d, (s.pump i).out = s.out ++ l ++ [.flit i (flitSeal 0 (flitBody 0 d s.self false 0 []))] := by
  obtain ⟨r, er⟩ : ∃ r, r = Port.pump s.time ((s.port i).unacked.length + (s.port i).waiting.length + 1) (s.port i) := ⟨_, rfl⟩
  have e : s.pump i = ((s.updPort i fun _ => r.1).emitFlits i r.2).sendIdle i := by
    rw [er]
    exact if_neg (by simp [h])
  have up : r.1.up = true := er ▸ (Port.pump_up _ _ _).trans h
  have out : ((s.updPort i fun _ => r.1).emitFlits i r.2).port i = r.1 := State.port_updPort s i fun _ => r.1
  refine ⟨r.2.map fun b => .flit i b, ((s.updPort i fun _ => r.1).emitFlits i r.2).bareDst i, ?_⟩
  rw [e, sendIdle, sendBare_out ((congrArg Port.up out).trans up)]
  rfl

/-! ## Flits that arrive (R363, R364) -/

theorem State.sawGood_port (s : State) (i : Nat) : (s.sawGood i).port i = { s.port i with lastGood := s.time } :=
  s.port_updPort i _

theorem State.sequenced_of_bad (hon : s.portOn i = true) (hg : Flit.good f = false) (kind : Nat) :
    s.sequenced kind i f = (s.countCrc i).discardFlit i := by
  rw [sequenced, if_neg (by simp [hon]), if_pos (by simp [hg])]

theorem State.bareFlit_of_bad (hon : s.portOn i = true) (hg : Flit.good f = false) (kind : Nat) (g : State → State) :
    s.bareFlit kind i f g = s.countCrc i := by
  rw [bareFlit, if_neg (by simp [hon]), if_pos (by simp [hg])]

theorem State.bareFlit_of_good {kind : Nat} (hon : s.portOn i = true) (hg : Flit.good f = true) (hk : Flit.kind f = kind)
    (g : State → State) : s.bareFlit kind i f g = g (s.sawGood i) := by
  rw [bareFlit, if_neg (by simp [hon]), if_neg (by simp [hg]), if_neg (by simp [hk])]

theorem State.sequenced_of_other {kind : Nat} (hon : s.portOn i = true) (hg : Flit.good f = true) (hk : Flit.kind f ≠ kind) :
    s.sequenced kind i f = s.sawGood i := by
  rw [sequenced, if_neg (by simp [hon]), if_neg (by simp [hg]), if_pos hk]

theorem State.sequenced_of_good {kind : Nat} (hon : s.portOn i = true) (hg : Flit.good f = true) (hk : Flit.kind f = kind) :
    s.sequenced kind i f
      = if Flit.seq f = (s.port i).rxSeq.toNat ∧ (s.port i).rxBuf.length < 512 then (s.sawGood i).acceptFlit i f
        else (s.sawGood i).discardFlit i := by
  rw [sequenced, if_neg (by simp [hon]), if_neg (by simp [hg]), if_neg (by simp [hk])]

theorem State.sendAck_port (s : State) (i : Nat) : (s.sendAck i).port i = { s.port i with unackedRx := 0 } := by
  rw [sendAck, sendBare_port, port_updPort]

theorem State.sendAck_out (h : (s.port i).up = true) : ∃ d, (s.sendAck i).out
    = s.out ++ [.flit i (flitSeal ((s.port i).rxSeq.toNat + 4095) (flitBody 3 d s.self false 0 []))] :=
  ⟨_, sendBare_out (s := s.updPort i fun x => { x with unackedRx := 0 }) (by rw [port_updPort]; exact h) ..⟩

/-- The state in which an accepted flit has joined the buffer and the buffer is not yet drained. -/
def State.flitTaken (s : State) (i : Nat) (f : Bytes) : State :=
  let a := if 32 ≤ (s.port i).unackedRx then s.sendAck i else s
  let b := a.updPort i fun x =>
    { x with
      rxSeq := x.rxSeq + 1, nakSent := false, rxBuf := x.rxBuf ++ [f], unackedRx := x.unackedRx + 1
      rxSince := if x.unackedRx = 0 then s.time else x.rxSince }
  (if Flit.dst f = s.self then b.wake 2 else b).perfAdd (40 + i) 1

theorem State.flitTaken_port (s : State) (i : Nat) (f : Bytes) :
    ((s.flitTaken i f).port i).rxSeq = (s.port i).rxSeq + 1 ∧ ((s.flitTaken i f).port i).nakSent = false
      ∧ ((s.flitTaken i f).port i).rxBuf = (s.port i).rxBuf ++ [f]
      ∧ ((s.flitTaken i f).port i).unackedRx = (if 32 ≤ (s.port i).unackedRx then 1 else (s.port i).unackedRx + 1) := by
  obtain ⟨a, ea⟩ : ∃ a, a = if 32 ≤ (s.port i).unackedRx then s.sendAck i else s := ⟨_, rfl⟩
  have joined : (s.flitTaken i f).port i = { a.port i with
      rxSeq := (a.port i).rxSeq + 1, nakSent := false, rxBuf := (a.port i).rxBuf ++ [f], unackedRx := (a.port i).unackedRx + 1
      rxSince := if (a.port i).unackedRx = 0 then s.time else (a.port i).rxSince } := by
    rw [flitTaken, ← ea, port_congr (perfAdd_weft ..)]
    split
    · rw [port_congr (wake_weft ..), port_updPort]
    · rw [port_updPort]
  rw [joined, ea]
  split
  · rw [sendAck_port]
    exact ⟨rfl, rfl, rfl, rfl⟩
  · exact ⟨rfl, rfl, rfl, rfl⟩

theorem State.discardFlit_out (h : (s.port i).up = true) : ∃ e, (s.discardFlit i).out = s.out
      ++ (if (s.port i).nakSent = true then [Out.flit i (flitSeal 0 (flitBody 5 (s.bareDst i) s.self false 0 []))]
        else [Out.flit i (flitSeal 0 (flitBody 5 (s.bareDst i) s.self false 0 [])),
          Out.flit i (flitSeal (s.port i).rxSeq.toNat (flitBody 4 e s.self false 0 []))]) := by
  obtain ⟨a, ea⟩ : ∃ a, a = s.sendBare i 5 0 [] := ⟨_, rfl⟩
  obtain ⟨b, eb⟩ : ∃ b, b = a.updPort i fun x => { x with nakSent := true } := ⟨_, rfl⟩
  have self : b.self = s.self := by rw [eb, ea]; exact congrArg (fun l => l.chipId.toNat) (sendBare_life ..)
  have up : (b.port i).up = true := by rw [eb, port_updPort, ea, sendBare_port]; exact h
  have out : b.out = s.out ++ [Out.flit i (flitSeal 0 (flitBody 5 (s.bareDst i) s.self false 0 []))] := by
    rw [eb, ea]
    exact sendBare_out h ..
  refine ⟨b.bareDst i, ?_⟩
  rw [discardFlit, ← ea, ← eb]
  split
  · rw [ea]
    exact sendBare_out h ..
  · rw [sendBare_out up, out, self, List.append_assoc]
    rfl

theorem State.discardFlit_nakSent (s : State) (i : Nat) : ((s.discardFlit i).port i).nakSent = true := by
  rw [discardFlit]
  split
  case isTrue h => rw [sendBare_port]; exact h
  case isFalse => rw [sendBare_port, port_updPort]

theorem State.dropRx_out (h : (s.port i).up = true) (f : Bytes) :
    (s.dropRx i f).out = s.out ++ [Out.flit i (flitSeal 0 (flitBody 5 (s.bareDst i) s.self false 0 []))] := by
  rw [dropRx, sendBare_out (by rw [port_updPort]; exact h)]
  rw [bareDst, port_updPort]
  rfl

/-! ## Draining (R364, R370) -/

theorem State.drainList_foreign (h : Flit.dst f ≠ s.self) : s.drainList i false [f] = s.forward i f := by
  rw [drainList, if_pos h, drainList]

theorem State.forward_of_port {j : Nat} (h : (if (s.port (1 - i)).up then 1 - i else i) = j) :
    s.forward i f = if 64 ≤ (s.port j).waiting.length then s else (s.sendOn j (f.take 68)).dropRx i f := by
  rw [forward, h]

theorem State.drainList_message (hd : Flit.dst f = s.self) (hk : Flit.kind f = 2) :
    s.drainList i false [f] = if s.fwRuns = false then s
      else if (s.ctrlWaits (Flit.src f) (Config.ctrlMessage (Flit.payload f))).2 = true
        then (s.ctrlWaits (Flit.src f) (Config.ctrlMessage (Flit.payload f))).1
        else (s.dropRx i f).ctrlIn (Flit.src f) (Config.ctrlMessage (Flit.payload f)) := by
  rw [drainList, if_neg (by simp [hd]), if_neg (by simp), if_pos hk]
  cases s.fwRuns with
  | false => simp [drainList]
  | true => by_cases w : (s.ctrlWaits (Flit.src f) (Config.ctrlMessage (Flit.payload f))).2 = true <;> simp [drainList, w]

theorem State.drainList_line (hd : Flit.dst f = s.self) (hk : Flit.kind f = 1) :
    s.drainList i false [f] = if s.chanRun f = none then s.dropRx i f else s := by
  rw [drainList, if_neg (by simp [hd]), if_neg (by simp), if_neg (by simp [hk])]
  simp [drainList]

/-! ## ACK, NAK and resends (R363, R365) -/

theorem Port.ack_of_covered {p : Port} {a n : Nat} (now : BitVec 64) (hn : n = (a + 1 + 4096 - p.txSeq.toNat) % 4096)
    (h1 : 1 ≤ n) (h2 : n ≤ p.unacked.length) :
    p.ack a now = { p with
      txSeq := BitVec.ofNat 12 (a + 1), unacked := p.unacked.drop n, cur := p.cur - n, resends := 0, lastAck := now } := by
  have seq : p.txSeq + BitVec.ofNat 12 n = BitVec.ofNat 12 (a + 1) := by
    apply BitVec.eq_of_toNat_eq
    simp only [BitVec.toNat_add, BitVec.toNat_ofNat]
    have := p.txSeq.isLt
    omega
  rw [← seq]
  subst hn
  exact if_neg (by omega)

theorem execWeftResendTimeout_eq {port : Fin 2} (hon : s.portOn port.val = true) :
    exec (.weftResendTimeout port) s = .next (if (s.port port.val).unacked ≠ [] ∧ s.usSince (s.port port.val).lastAck 8 = true
      then s.resend port.val 0 else s) := by
  change execWeftResendTimeout port s = _
  rw [execWeftResendTimeout]
  by_cases h : (s.port port.val).unacked = [] <;> by_cases u : s.usSince (s.port port.val).lastAck 8 = true <;> simp [hon, h, u]

theorem State.resend_of_few {n : Nat} (h : (s.port i).resends < 16) : s.resend i n
    = (s.updPort i fun p => { p with cur := n, resends := p.resends + 1, errResend := satInc p.errResend 1, lastAck := s.time }).pump i :=
  if_neg (by omega)

theorem State.resend_of_many {n : Nat} (h : 16 ≤ (s.port i).resends) : s.resend i n = (s.portDown i 1).settleAll.retarget :=
  if_pos h

end

/-- Settles O57: each kind of flit by the branches of `sequenced` and `bareFlit`; what goes out is what `sendBare` sends. -/
theorem flitsAreTakenInOrderAndAcknowledged : Obligations.FlitsAreTakenInOrderAndAcknowledged := by
  unfold Obligations.FlitsAreTakenInOrderAndAcknowledged
  intro s i f hon
  have up := State.up_of_portOn hon
  refine ⟨fun hg => ⟨congrArg ok (State.sequenced_of_bad hon hg 1), congrArg ok (State.sequenced_of_bad hon hg 2),
      congrArg ok (State.bareFlit_of_bad hon hg 3 _), congrArg ok (State.bareFlit_of_bad hon hg 4 _),
      congrArg ok (State.bareFlit_of_bad hon hg 5 _), congrArg ok (State.bareFlit_of_bad hon hg 6 _),
      congrArg Port.errCrc (s.port_updPort i.val _)⟩,
    ?_, fun hg => ⟨fun hk => congrArg ok (State.sequenced_of_other hon hg hk), fun hk => congrArg ok (State.sequenced_of_other hon hg hk),
      s.sawGood_port i.val⟩,
    ⟨s.flitTaken i.val f, rfl, s.flitTaken_port i.val f⟩, ?_, ?_, State.drainList_line, ?_, ?_, ?_, State.pump_out up,
    fun hg hk => congrArg ok (State.bareFlit_of_good hon hg hk _), fun p n hn h1 h2 => Port.ack_of_covered s.time hn h1 h2, ?_,
    fun hu => ?_, fun hu => ?_, fun n => ⟨_, rfl, ?_⟩, fun hg hk => congrArg ok (State.bareFlit_of_good hon hg hk _), fun h => ?_, fun h => ?_⟩
  · intro kind cmd hc hg hk
    have row : exec cmd s = .next (s.sequenced kind i.val f) := by
      rcases hc with ⟨rfl, rfl⟩ | ⟨rfl, rfl⟩ <;> rfl
    rw [row, State.sequenced_of_good hon hg hk]
    refine ⟨fun h1 h2 => by rw [if_pos ⟨h1, h2⟩], fun h => ?_⟩
    rw [if_neg fun k => h.elim (fun h => h k.1) fun h => Nat.not_lt.2 h k.2]
  · obtain ⟨e, out⟩ := State.discardFlit_out up
    exact ⟨_, e, out, s.discardFlit_nakSent i.val, State.dropRx_out up f⟩
  · rintro w rfl hd hk
    exact State.drainList_message hd hk
  · exact fun hd hu hw => (State.drainList_foreign hd).trans ((State.forward_of_port (if_pos hu)).trans (if_neg (by omega)))
  · exact fun hd hu hw => (State.drainList_foreign hd).trans ((State.forward_of_port (if_pos hu)).trans (if_pos hw))
  · exact fun hd hu hw => (State.drainList_foreign hd).trans ((State.forward_of_port (if_neg (by simp [hu]))).trans (if_neg (by omega)))
  · rintro n rfl hg hk
    refine congrArg ok ((State.bareFlit_of_good hon hg hk _).trans ?_)
    rw [s.sawGood_port i.val]
  · rw [execWeftResendTimeout_eq hon]
    simp [hu]
  · rw [execWeftResendTimeout_eq hon, if_neg (by simp [hu])]
  · by_cases h : (s.port i.val).resends < 16
    · rw [if_pos h, State.resend_of_few h]
    · rw [if_neg h, State.resend_of_many (by omega)]
  · obtain ⟨d, out⟩ := State.sendAck_out up
    exact ⟨s.sendAck i.val, d, if_pos ⟨hon, h⟩, by rw [State.sendAck_port], out⟩
  · exact if_neg fun k => by simp [h] at k

end Sys2Proof.Machine
end

section
/-!
PROOFS. Ports and peers: HELLO, ports that fall and rise, peers that are lost (R365, R367 to R371).
-/

namespace Sys2Proof.Machine

section
variable {s : State} {i : Nat}

/-! ## A port that has gone down (R365, R370) -/

theorem State.pump_port_ne {j : Nat} (h : i ≠ j) : (s.pump j).port i = s.port i := by
  unfold pump
  dsimp only
  split
  · rfl
  · rw [sendIdle, sendBare_port]
    exact port_updPort_ne s _ h

theorem State.sendOn_port_ne {j : Nat} (h : i ≠ j) (body : Bytes) : (s.sendOn j body).port i = s.port i :=
  (pump_port_ne h).trans (s.port_updPort_ne _ h)

theorem State.route_up {dst j : Nat} (h : s.route dst = some j) : (s.port j).up = true := by
  unfold route at h
  grind

/-- What goes to a chip leaves a port alone that is down. -/
theorem State.sendTo_port_of_down (h : (s.port i).up = false) (dst : Nat) (body : Bytes) :
    (s.sendTo dst body).port i = s.port i := by
  unfold sendTo
  split
  case h_1 j hj => exact sendOn_port_ne (fun e => by simp [e, route_up hj] at h) body
  case h_2 => rfl

theorem State.portCut_port (s : State) (i : Nat) : (s.portCut i).port i = (s.port i).cut := by
  have cut : (s.updPort i Port.cut).port i = (s.port i).cut := s.port_updPort i _
  suffices h : ∀ (l : List Bytes) (t : State), t.port i = (s.port i).cut →
      (l.foldl (fun (t : State) x => t.sendTo (Flit.dst x) x) t).port i = (s.port i).cut from h _ _ cut
  intro l
  induction l with
  | nil => exact fun t h => h
  | cons x l ih => exact fun t h => ih _ ((sendTo_port_of_down (by rw [h]; rfl) _ _).trans h)

theorem State.portDown_of_up {r : Nat} (h : (s.port i).up = true) : s.portDown i r
    = (((s.portCut i).logEvent 0x50 devByte (leBytes 1 i ++ leBytes 1 r) []).traceEmit 5 none false 0x40 i 0
        (BitVec.ofNat 32 r)).pathLost i := by
  rw [portDown, if_pos h, portOff, if_neg (by simp [h])]

theorem State.portDown_of_down {r : Nat} (h : (s.port i).up = false) : s.portDown i r = s := if_neg (by simp [h])

/-! ## A port that comes up -/

/-- A port as it is once it has trained. -/
def Port.trained (p : Port) (now : BitVec 64) : Port := { p.cut with up := true, lastGood := now }

/-- A trained port has nothing to send. -/
theorem Port.pump_trained (p : Port) (now : BitVec 64) (n : Nat) : Port.pump now n (p.trained now) = (p.trained now, []) := by
  cases n with
  | zero => rfl
  | succ n => simp [Port.pump, Port.trained, Port.cut]

theorem State.pump_port (h : (s.port i).up = true) : (s.pump i).port i
    = (Port.pump s.time ((s.port i).unacked.length + (s.port i).waiting.length + 1) (s.port i)).1 := by
  unfold pump
  rw [if_neg (by simp [h]), sendIdle, sendBare_port]
  exact s.port_updPort i _

theorem State.trained_port (s : State) (i : Nat) :
    ((s.updPort i fun x => x.trained s.time).pump i).port i = (s.port i).trained s.time := by
  have p := s.port_updPort i fun x => x.trained s.time
  rw [pump_port (by rw [p]; rfl), p]
  exact congrArg Prod.fst (Port.pump_trained (s.port i) s.time _)

theorem execWeftPortUp_of_ready {port : Fin 2} (hr : s.weftRuns = true) (hu : (s.port port.val).up = false)
    (hh : (s.port port.val).heldDown = false) (he : bitOf s.weft.portEn port.val = true) :
    exec (.weftPortUp port) s = .next (((s.updPort port.val fun x => x.trained s.time).pump port.val).traceEmit 5 none false 0x40
      port.val 1 0) :=
  if_neg (by simp [hr, hu, hh, he])

/-! ## HELLO (R368, R369) -/

theorem State.helloWrong_iff {chip port map : Nat} : s.helloWrong i chip port map = true ↔ chip = s.self ∨ port = i
    ∨ ((s.port (1 - i)).neighbour = some chip ∧ 2 < mapCount (s.liveMap ||| map ||| 2 ^ chip)) := by
  simp [helloWrong, or_assoc]

/-- HELLO goes out by one port, when it is up. -/
def State.helloOn (t : State) (i : Nat) : State := if t.portOn i then t.sendBare i 6 0 (t.hello i) else t

theorem State.helloOn_weft (t : State) (i : Nat) : (t.helloOn i).weft = t.weft := by
  unfold helloOn
  split
  · exact sendBare_weft ..
  · rfl

theorem State.helloOn_life (t : State) (i : Nat) : (t.helloOn i).life = t.life := by
  unfold helloOn
  split
  · exact sendBare_life ..
  · rfl

theorem State.helloOn_out (t : State) (i : Nat) : (t.helloOn i).out = t.out ++ if t.portOn i = true then
    [Out.flit i (flitSeal 0 (flitBody 6 (t.bareDst i) t.self false 0 (t.hello i)))] else [] := by
  unfold helloOn
  split
  case isTrue h => exact sendBare_out (up_of_portOn h) ..
  case isFalse => simp

/-- What a HELLO says, and whether it goes out, is read from the Weft and the device's life alone. -/
theorem State.hello_congr {t : State} (hw : t.weft = s.weft) (hl : t.life = s.life) (i : Nat) :
    t.hello i = s.hello i ∧ t.portOn i = s.portOn i ∧ t.self = s.self := by
  have self : t.self = s.self := congrArg (fun l => l.chipId.toNat) hl
  have map : t.liveMap = s.liveMap := by
    unfold liveMap peer
    rw [hw, self]
  refine ⟨?_, ?_, self⟩
  · rw [hello, hello, map, self, hl]
  · rw [portOn, portOn, weftRuns, weftRuns, port_congr hw, hl]

/-- The destination field of the HELLO on port `j`. -/
def State.helloDst (s : State) (j : Nat) : Nat := if j = 0 then s.bareDst 0 else (s.helloOn 0).bareDst 1

theorem State.helloSend_out (s : State) : ((List.range 2).foldl State.helloOn s).out
    = s.out ++ ((List.range 2).filter fun j => s.portOn j).map fun j =>
        Out.flit j (flitSeal 0 (flitBody 6 (s.helloDst j) s.self false 0 (s.hello j))) := by
  obtain ⟨hello, on, self⟩ := hello_congr (s.helloOn_weft 0) (s.helloOn_life 0) 1
  have out : ((List.range 2).foldl State.helloOn s).out = ((s.helloOn 0).helloOn 1).out := rfl
  rw [out, helloOn_out, hello, on, self, helloOn_out]
  have range : List.range 2 = [0, 1] := rfl
  rw [range]
  by_cases h0 : s.portOn 0 = true <;> by_cases h1 : s.portOn 1 = true <;> simp [helloDst, h0, h1]

theorem State.self_lt (s : State) : s.self < 4 := s.life.chipId.isLt

theorem State.liveMap_lt (s : State) : s.liveMap < 16 := by
  have b : ∀ c, b2n c ≤ 1 := fun c => by cases c <;> decide
  have range : List.range 4 = [0, 1, 2, 3] := rfl
  rw [liveMap, range]
  simp only [List.map_cons, List.map_nil, List.sum_cons, List.sum_nil]
  have h0 := b (0 == s.self || (s.peer 0).live)
  have h1 := b (1 == s.self || (s.peer 1).live)
  have h2 := b (2 == s.self || (s.peer 2).live)
  have h3 := b (3 == s.self || (s.peer 3).live)
  omega

theorem State.hello_fields (hi : i < 2) : leAt (s.hello i) 0 1 = s.self ∧ leAt (s.hello i) 1 1 = i
    ∧ leAt (s.hello i) 4 4 = s.life.epoch.toNat ∧ leAt (s.hello i) 8 1 = s.liveMap := by
  have chip := s.self_lt
  have map := s.liveMap_lt
  have epoch := s.life.epoch.isLt
  refine ⟨?_, ?_, ?_, ?_⟩
  · have e := leAt_leBytes [] (leBytes 1 i ++ zeroBytes 2 ++ leBytes 4 s.life.epoch.toNat ++ leBytes 1 s.liveMap) 1 s.self
    rw [Nat.mod_eq_of_lt (by omega)] at e
    simpa [hello] using e
  · have e := leAt_leBytes (leBytes 1 s.self) (zeroBytes 2 ++ leBytes 4 s.life.epoch.toNat ++ leBytes 1 s.liveMap) 1 i
    rw [Nat.mod_eq_of_lt (by omega)] at e
    simpa [hello, leBytes_length] using e
  · have e := leAt_leBytes (leBytes 1 s.self ++ leBytes 1 i ++ zeroBytes 2) (leBytes 1 s.liveMap) 4 s.life.epoch.toNat
    rw [Nat.mod_eq_of_lt (by omega)] at e
    simpa [hello, leBytes_length, zeroBytes] using e
  · have e := leAt_leBytes (leBytes 1 s.self ++ leBytes 1 i ++ zeroBytes 2 ++ leBytes 4 s.life.epoch.toNat) [] 1 s.liveMap
    rw [Nat.mod_eq_of_lt (by omega)] at e
    simpa [hello, leBytes_length, zeroBytes] using e

/-! ## A peer that is lost (R371, R375) -/

/-- A peer is no longer live, its loss is logged, and its channels are gone. -/
def State.peerGone (s : State) (c : Nat) : State :=
  let a := (s.updPeer c fun p => { p with live := false, known := false, ports := 0 }).peerEvent c false (s.peer c).epoch
  { a with weft := { a.weft with chans := a.weft.chans.filter fun x => !(x.peer == c) } }

/-- The ring jobs of this chip in which a chip takes part. -/
def State.jobsOf (s : State) (c : Nat) : List Nat :=
  (s.binds.filter fun p => p.2.live && p.2.lead.isNone && (p.2.parts.contains c || p.2.awaits.contains c)).map Prod.fst

theorem State.peerEvent_weft (s : State) (c : Nat) (live : Bool) (epoch : Word) : (s.peerEvent c live epoch).weft = s.weft :=
  (raiseDevEvt_weft ..).trans (logEvent_weft ..)

theorem State.peerGone_peer (s : State) (c : Nat) : ((s.peerGone c).peer c).live = false := by
  change Peer.live (Table.get {} (State.weft (peerEvent _ _ _ _)).peers c) = false
  rw [peerEvent_weft]
  exact congrArg Peer.live (s.peer_updPeer c _)

theorem State.peerGone_chans (s : State) (c : Nat) : ∀ x ∈ (s.peerGone c).weft.chans, x.peer ≠ c := by
  intro x hx
  have kept := (List.mem_filter.1 hx).2
  simpa using kept

theorem State.peerGone_binds (s : State) (c : Nat) : (s.peerGone c).binds = s.binds :=
  (raiseDevEvt_binds ..).trans (logEvent_binds ..)

theorem State.mem_jobsOf {c k : Nat} : k ∈ s.jobsOf c ↔ ∃ p ∈ s.binds, p.1 = k ∧ p.2.live = true ∧ p.2.lead = none
    ∧ (c ∈ p.2.parts ∨ c ∈ p.2.awaits) := by
  simp only [jobsOf, List.mem_map, List.mem_filter]
  constructor
  · rintro ⟨p, ⟨hp, h⟩, rfl⟩
    exact ⟨p, hp, rfl, by simpa [and_assoc] using h⟩
  · rintro ⟨p, hp, rfl, h⟩
    exact ⟨p, ⟨hp, by simpa [and_assoc] using h⟩, rfl⟩

theorem State.peerDown_of_live {c : Nat} (h : (s.peer c).live = true) : s.peerDown c
    = ((s.jobsOf c).foldl (fun (t : State) k => t.partAnswer k c St.peerLost) (s.peerGone c)).leadLost c := by
  have jobs : s.jobsOf c = (s.peerGone c).jobsOf c := by rw [jobsOf, jobsOf, peerGone_binds]
  rw [jobs]
  exact if_neg (by simp [h])

end

/-- Settles O58: HELLOs by `helloWrong`, a port's fall by `portCut`, its rise by what a trained port may send, a peer's
loss by the jobs that it takes part in. -/
theorem portsAndPeersComeAndGo : Obligations.PortsAndPeersComeAndGo := by
  unfold Obligations.PortsAndPeersComeAndGo
  intro s i f c
  refine ⟨?_, fun chip port map => State.helloWrong_iff, fun chip port => ⟨((s.portCut i.val).updPort i.val fun p => { p with heldDown := true }),
      _, ?_, ?_, rfl, rfl⟩, ⟨_, s.helloDst, rfl, s.helloSend_out⟩, State.hello_fields i.isLt, rfl, fun hon => ?_,
    fun r hu => ⟨s.portCut i.val, s.portCut_port i.val, State.portDown_of_up hu⟩, fun r hu => State.portDown_of_down hu,
    fun hr hu hh he => ⟨_, execWeftPortUp_of_ready hr hu hh he, ?_⟩, fun h => if_pos ?_, fun hl => ⟨fun h => if_pos ⟨hl, h⟩, fun hp ht => if_neg ?_,
      s.peerGone c.val, s.jobsOf c.val, s.peerGone_peer c.val, s.peerGone_chans c.val, fun k => State.mem_jobsOf, State.peerDown_of_live hl⟩,
    fun hl => if_neg (by simp [hl])⟩
  · rintro d chip port map a hon hg hk rfl rfl rfl rfl rfl
    have row := State.bareFlit_of_good hon hg hk
    exact ⟨fun h => congrArg ok ((row _).trans (if_pos h)), fun h => congrArg ok ((row _).trans (if_neg (by simp [h])))⟩
  · rw [State.port_updPort]
  · rw [State.port_updPort, State.portCut_port]
    rfl
  · change execWeftSilenceTimeout i s = _
    rw [execWeftSilenceTimeout]
    by_cases h : s.usSince (s.port i.val).lastGood 100 = true <;> simp [hon, h, ok]
  · rw [State.port_congr (State.traceEmit_weft ..), State.trained_port]
    exact ⟨rfl, rfl, rfl, rfl, rfl⟩
  · rcases h with h | h | h | h <;> simp [h]
  · rintro ⟨_, k | k⟩
    · exact hp k
    · simp [ht] at k

end Sys2Proof.Machine
end

section
/-!
PROOFS. What only a reset, a boot or a read of host memory moves: the operations that leave it alone.
-/

namespace Sys2Proof.Machine

/-! ## What neither sending, nor a command's end, nor the end of a function's work moves -/

/-- The fields that only a reset, a boot, or a read of host memory moves. -/
structure Steady where
  blocked : Bool
  phase : Phase
  ready : Bool
  failed : Table Bool
  crs : Bool
  running : Nat
  restarted : Bool
  trained : Bool

/-- These fields of a state. -/
def State.steady (s : State) : Steady :=
  ⟨s.blocked, s.life.phase, s.life.ready, s.life.failed, s.pcie.crs, s.fw.running, s.fw.restarted, s.addr.trained⟩

theorem State.steady_mk {pending out blocked fresh time pins fuses life pcie fns addr tenants trouble rings cmds order reads binds
    owners pace power wd dbg trace nvm fw csi slots weft comp perf} :
    State.steady (State.mk pending out blocked fresh time pins fuses life pcie fns addr tenants trouble rings cmds order reads binds
      owners pace power wd dbg trace nvm fw csi slots weft comp perf)
      = ⟨blocked, life.phase, life.ready, life.failed, pcie.crs, fw.running, fw.restarted, addr.trained⟩ := rfl

theorem State.steady_eta (s : State) : Steady.mk s.blocked s.life.phase s.life.ready s.life.failed s.pcie.crs s.fw.running
    s.fw.restarted s.addr.trained = s.steady := rfl

theorem foldl_steady {α : Type} {f : State → α → State} (h : ∀ u a, (f u a).steady = u.steady) (s : State) (l : List α) :
    (l.foldl f s).steady = s.steady := foldl_keeps_value State.steady h s l

theorem foldl_fst_steady {α β : Type} {f : State × β → α → State × β} (h : ∀ u a, (f u a).1.steady = u.1.steady)
    (u : State × β) (l : List α) : (l.foldl f u).1.steady = u.1.steady := foldl_keeps_value (fun u : State × β => u.1.steady) h u l

section
variable (s : State)

/-! ### Messages, events, the log and LP5X -/

theorem State.updCmd_steady (t : Nat) (g : Cmd → Cmd) : (s.updCmd t g).steady = s.steady := by
  unfold updCmd
  repeat' split
  all_goals simp only [steady_mk, steady_eta]

theorem State.updFn_steady (f : Nat) (g : FnSt → FnSt) : (s.updFn f g).steady = s.steady := rfl

theorem State.emit_steady (o : Out) : (s.emit o).steady = s.steady := rfl

theorem State.leaveL1_steady : s.leaveL1.steady = s.steady := by
  unfold leaveL1
  simp only [steady_mk, steady_eta, apply_ite steady, ite_self]

theorem State.busSend_steady (f : Nat) (o : Out) : (s.busSend f o).steady = s.steady := by
  unfold busSend
  simp only [emit_steady, leaveL1_steady, updFn_steady, apply_ite steady, ite_self]

theorem State.sendMsi_steady (f vec : Nat) : (s.sendMsi f vec).steady = s.steady := by
  unfold sendMsi
  simp only [steady_mk, steady_eta, busSend_steady, updFn_steady, apply_ite steady, ite_self]

theorem State.raiseFnEvt_steady (f bit : Nat) : (s.raiseFnEvt f bit).steady = s.steady := by
  unfold raiseFnEvt
  simp only [sendMsi_steady, updFn_steady, apply_ite steady, ite_self]

theorem State.setFnTrb_steady (f : Nat) (b : FnTrb) : (s.setFnTrb f b).steady = s.steady := by
  unfold setFnTrb
  simp only [raiseFnEvt_steady, updFn_steady, apply_ite steady, ite_self]

theorem State.endTrb_steady (t : Nat) (status : BitVec 16) : (s.endTrb t status).steady = s.steady := by
  unfold endTrb
  repeat' split
  all_goals simp only [setFnTrb_steady]

theorem State.endCmd_steady (t : Nat) (status : BitVec 16) (r0 r1 : Word) : (s.endCmd t status r0 r1).steady = s.steady := by
  unfold endCmd
  simp only [steady_mk, steady_eta, endTrb_steady, updCmd_steady, apply_ite steady, ite_self]

theorem State.perfAdd_steady (slot k : Nat) : (s.perfAdd slot k).steady = s.steady := rfl

theorem State.stat_steady (f slot k : Nat) : (s.stat f slot k).steady = s.steady := by
  unfold stat
  simp only [updFn_steady]

theorem State.sendPieces_steady (f : Nat) (ns : Bool) (l : List (Nat × Bytes)) : (s.sendPieces f ns l).steady = s.steady := by
  induction l generalizing s with
  | nil => rfl
  | cons p t ih => exact (ih _).trans (busSend_steady ..)

theorem State.patchCopies_steady (w : MemWrite) (mine : Nat → Bool) : (s.patchCopies w mine).steady = s.steady := rfl

theorem State.patchHost_steady (f a : Nat) (d : Bytes) (poison : Bool) : (s.patchHost f a d poison).steady = s.steady := by
  unfold patchHost
  simp only [patchCopies_steady]

theorem State.hostWrite_steady (f a : Nat) (ns : Bool) (d : Bytes) (poison : optParam Bool Bool.false) :
    (s.hostWrite f a ns d poison).steady = s.steady := by
  unfold hostWrite
  simp only [patchHost_steady, perfAdd_steady, sendPieces_steady, stat_steady]

theorem State.patchLp_steady (a : Nat) (d : Bytes) (poison : Bool) : (s.patchLp a d poison).steady = s.steady := by
  unfold patchLp
  simp only [patchCopies_steady]

theorem State.lpSetErr_steady (line n : Nat) : (s.lpSetErr line n).steady = s.steady := rfl

theorem State.lpCorrect_steady (line : Nat) : (s.lpCorrect line).steady = s.steady := by
  unfold lpCorrect
  simp only [steady_mk, steady_eta, lpSetErr_steady]

theorem State.raiseDevEvt_steady (bit : Nat) : (s.raiseDevEvt bit).steady = s.steady := by
  unfold raiseDevEvt
  simp only [steady_mk, steady_eta, sendMsi_steady, apply_ite steady, ite_self]

theorem State.setRefs_steady (l : List TrbRef) : (s.setRefs l).steady = s.steady := by
  induction l generalizing s with
  | nil => rfl
  | cons r t ih =>
    cases r with
    | dev b =>
      refine (ih _).trans ?_
      split
      · rfl
      · exact raiseDevEvt_steady ..
    | fn f b =>
      refine (ih _).trans ?_
      split
      · rfl
      · exact (raiseFnEvt_steady ..).trans (updFn_steady ..)

theorem State.setTrb_steady (b : Trb) : (s.setTrb b).steady = s.steady := by
  unfold setTrb
  simp only [steady_mk, steady_eta, raiseDevEvt_steady, apply_ite steady, ite_self]

theorem State.writeEntry_steady (e : LogEntry) : (s.writeEntry e).steady = s.steady := by
  unfold writeEntry
  simp only [steady_mk, steady_eta, setTrb_steady, apply_ite steady, ite_self]

theorem State.logEvent_steady (kind : Nat) (fn : BitVec 8) (payload : Bytes) (bits : List TrbRef) :
    (s.logEvent kind fn payload bits).steady = s.steady := by
  unfold logEvent
  simp only [steady_mk, steady_eta, setRefs_steady, writeEntry_steady, apply_ite steady, ite_self]

theorem State.lpUncorr_steady (line : Nat) : (s.lpUncorr line).steady = s.steady := by
  unfold lpUncorr
  simp only [steady_mk, steady_eta, logEvent_steady]

theorem State.tick_steady : s.tick.steady = s.steady := rfl

theorem State.lpGarble_steady (line : Nat) : (s.lpGarble line).steady = s.steady := rfl

theorem State.lpTouch_steady (line : Nat) : (s.lpTouch line).1.steady = s.steady := by
  unfold lpTouch
  grind [steady_mk, steady_eta, lpCorrect_steady, lpGarble_steady, lpSetErr_steady, lpUncorr_steady, tick_steady]

theorem State.lpMark_steady (line : Nat) (whole poisoned : Bool) : (s.lpMark line whole poisoned).steady = s.steady := by
  unfold lpMark
  repeat' split
  all_goals simp only [steady_mk, steady_eta, lpSetErr_steady, lpTouch_steady]

theorem State.lpMarkAll_steady (a e line : Nat) (poisoned : Bool) (n : Nat) :
    (s.lpMarkAll a e line poisoned n).steady = s.steady := by
  induction n generalizing s line with
  | zero => rfl
  | succ n ih => exact (ih ..).trans (lpMark_steady ..)

theorem State.lpWrite_steady (a : Nat) (d : Bytes) (poisoned : Bool) : (s.lpWrite a d poisoned).steady = s.steady := by
  unfold lpWrite
  simp only [steady_mk, steady_eta, lpMarkAll_steady, patchLp_steady, perfAdd_steady]

theorem State.lpTouchAll_steady (line n : Nat) : (s.lpTouchAll line n).1.steady = s.steady := by
  induction n generalizing s line with
  | zero => rfl
  | succ n ih => exact (ih ..).trans (lpTouch_steady ..)

theorem State.lpRead_steady (a len : Nat) : (s.lpRead a len).1.steady = s.steady := by
  unfold lpRead
  simp only [lpTouchAll_steady, perfAdd_steady]

theorem State.updBind_steady (k : Nat) (g : Binding → Binding) : (s.updBind k g).steady = s.steady := rfl

theorem State.writePlace_steady (f : Nat) (p : Place) (d : Bytes) (poisoned : Bool) :
    (s.writePlace f p d poisoned).steady = s.steady := by
  unfold writePlace
  repeat' split
  all_goals simp only [hostWrite_steady, lpWrite_steady, stat_steady]

theorem State.updSlot_steady (i : Nat) (g : Slot → Slot) : (s.updSlot i g).steady = s.steady := rfl

/-! ### Trace, power states and wake -/

theorem State.traceFifo_steady (p : Bytes) : (s.traceFifo p).steady = s.steady := by
  unfold traceFifo
  simp only [steady_mk, steady_eta, apply_ite steady, ite_self]

theorem State.traceEmit_steady (cls : Nat) (fn : Option Nat) (aon : Bool) (kind src aux : Nat) (data : Word) :
    (s.traceEmit cls fn aon kind src aux data).steady = s.steady := by
  unfold traceEmit
  simp only [steady_mk, steady_eta, traceFifo_steady, apply_ite steady, ite_self]

theorem State.ltrUpdate_steady : s.ltrUpdate.steady = s.steady := by
  unfold ltrUpdate
  simp only [steady_mk, steady_eta, emit_steady, apply_ite steady, ite_self]

theorem State.replayStub_steady (was : DomState) : (s.replayStub was).steady = s.steady := by
  unfold replayStub
  simp only [steady_mk, steady_eta, traceFifo_steady, foldl_steady, implies_true]

theorem State.restPacket_steady (old : State) (d : Nat) : (s.restPacket old d).steady = s.steady := by
  unfold restPacket
  simp only [traceEmit_steady, apply_ite steady, ite_self]

theorem State.resumePacket_steady (old : State) (d : Nat) : (s.resumePacket old d).steady = s.steady := by
  unfold resumePacket
  simp only [traceEmit_steady, apply_ite steady, ite_self]

theorem State.stubFifo_steady : s.stubFifo.steady = s.steady := rfl

theorem State.dropCores_steady : s.dropCores.steady = s.steady := rfl

theorem State.refreshDoms_steady (old : State) : (s.refreshDoms old).steady = s.steady := by
  unfold refreshDoms
  simp only [steady_mk, steady_eta, dropCores_steady, replayStub_steady, restPacket_steady, resumePacket_steady,
    stubFifo_steady, traceFifo_steady, foldl_steady, implies_true, apply_ite steady, ite_self]

theorem State.wake_steady (src : Nat) : (s.wake src).steady = s.steady := by
  unfold wake
  simp only [steady_mk, steady_eta, ltrUpdate_steady, refreshDoms_steady, traceEmit_steady, apply_ite steady, ite_self]

theorem State.retarget_steady : s.retarget.steady = s.steady := by
  unfold retarget
  simp only [ltrUpdate_steady, wake_steady, apply_ite steady, ite_self]

/-! ### The weight store -/

theorem State.updBlock_steady (b p : Nat) (f : NvmBlock → NvmBlock) : (s.updBlock b p f).steady = s.steady := rfl

theorem State.markDue_steady (b p why : Nat) : (s.markDue b p why).steady = s.steady := by
  unfold markDue
  simp only [logEvent_steady, updBlock_steady, apply_ite steady, ite_self]

theorem State.countReads_steady (b p n : Nat) : (s.countReads b p n).steady = s.steady := by
  unfold countReads
  simp only [markDue_steady, perfAdd_steady, updBlock_steady, apply_ite steady, ite_self]

theorem State.countRow_steady (b row : Nat) : (s.countRow b row).steady = s.steady := by
  unfold countRow
  simp only [countReads_steady]

theorem State.readRow_steady (b row : Nat) : (s.readRow b row).steady = s.steady := by
  unfold readRow
  simp only [steady_mk, steady_eta, countRow_steady, foldl_steady, implies_true]

theorem State.eccOutcome_steady (b l w : Nat) (r : WordRead) : (s.eccOutcome b l w r).steady = s.steady := by
  unfold eccOutcome
  simp only [steady_mk, steady_eta, logEvent_steady, markDue_steady, apply_ite steady, ite_self]

theorem State.readWord_steady (b l w : Nat) : (s.readWord b l w).1.steady = s.steady := by
  unfold readWord
  simp only [eccOutcome_steady, tick_steady, apply_ite steady, ite_self]

theorem State.readStored_steady (part : Nat → Nat → Nat → Bool) : (s.readStored part).steady = s.steady := by
  unfold readStored
  refine foldl_steady (fun t x => ?_) s _
  dsimp only
  split
  · rfl
  · split
    · exact readWord_steady ..
    · rfl

theorem State.slotRows_steady (b len : Nat) : (s.slotRows b len).steady = s.steady := by
  unfold slotRows
  simp only [countReads_steady, foldl_steady, implies_true]

theorem State.queueOp_steady (o : NvmOp) : (s.queueOp o).steady = s.steady := rfl

/-! ### A TRAIN step and the Weft -/

theorem State.trainWrite_steady (f a : Nat) (d : Bytes) (poison : Bool) : (s.trainWrite f a d poison).steady = s.steady := by
  unfold trainWrite
  simp only [lpWrite_steady, stat_steady]

theorem State.endUpdate_steady (x : Run) (a : Nat) (u : UpdPhase) : (s.endUpdate x a u).1.steady = s.steady := by
  unfold endUpdate
  simp only [trainWrite_steady]

theorem State.trainRead_steady (f a len : Nat) : (s.trainRead f a len).1.steady = s.steady := by
  unfold trainRead
  simp only [lpRead_steady, stat_steady]

theorem State.newTensor_steady (f : Nat) (o : OptArgs) (a : Nat) (p : Tensor) : (s.newTensor f o a p).1.steady = s.steady := by
  unfold newTensor
  grind [steady_mk, steady_eta, trainRead_steady]

theorem State.updateTensor_steady (f : Nat) (o : OptArgs) (a : Nat) (p : Tensor) :
    (s.updateTensor f o a p).1.steady = s.steady := by
  unfold updateTensor
  grind [steady_mk, steady_eta, newTensor_steady, trainWrite_steady]

theorem State.stepUpdate_steady (x : Run) : (s.stepUpdate x).1.steady = s.steady := by
  unfold stepUpdate
  repeat' split
  all_goals simp only [endUpdate_steady, updateTensor_steady]

theorem State.closeUpdate_steady (x : Run) : (s.closeUpdate x).1.steady = s.steady := by
  unfold closeUpdate
  grind [steady_mk, steady_eta, endUpdate_steady, stepUpdate_steady]

theorem State.sendBare_steady (i kind seq : Nat) (payload : Bytes) : (s.sendBare i kind seq payload).steady = s.steady := by
  unfold sendBare
  simp only [steady_mk, steady_eta, tick_steady, apply_ite steady, ite_self]

theorem State.sendIdle_steady (i : Nat) : (s.sendIdle i).steady = s.steady := by
  unfold sendIdle
  simp only [sendBare_steady]

theorem State.emitFlits_steady (i : Nat) (l : List Bytes) : (s.emitFlits i l).steady = s.steady := by
  unfold emitFlits
  simp only [steady_mk, steady_eta, perfAdd_steady]

theorem State.updPort_steady (i : Nat) (g : Port → Port) : (s.updPort i g).steady = s.steady := rfl

theorem State.pump_steady (i : Nat) : (s.pump i).steady = s.steady := by
  unfold pump
  simp only [emitFlits_steady, sendIdle_steady, updPort_steady, apply_ite steady, ite_self]

theorem State.sendOn_steady (i : Nat) (body : Bytes) : (s.sendOn i body).steady = s.steady := by
  unfold sendOn
  simp only [pump_steady, updPort_steady]

theorem State.sendTo_steady (dst : Nat) (body : Bytes) : (s.sendTo dst body).steady = s.steady := by
  unfold sendTo
  repeat' split
  all_goals simp only [sendOn_steady]

theorem State.sendCtrl_steady (dst : Nat) (m : CtrlMsg) : (s.sendCtrl dst m).steady = s.steady := by
  unfold sendCtrl
  simp only [sendTo_steady]

/-! ### Slots, bindings and a function that ends -/

theorem State.dropSlot_steady (i : Nat) : (s.dropSlot i).steady = s.steady := by
  unfold dropSlot
  simp only [updSlot_steady]

theorem State.slotDone_steady (i : Nat) : (s.slotDone i).steady = s.steady := by
  unfold slotDone
  grind [steady_mk, steady_eta, dropSlot_steady, endCmd_steady, retarget_steady]

theorem State.loseCopies_steady (keep : Nat → Nat × Line → Bool) (f : Nat) (host : Bool) (line : Nat) :
    (s.loseCopies keep f host line).steady = s.steady := by
  unfold loseCopies
  simp only [steady_mk, steady_eta, stat_steady]

theorem State.evict_steady (keep : Nat → Nat × Line → Bool) (key : Nat) : (s.evict keep key).steady = s.steady := by
  unfold evict
  repeat' split
  all_goals simp only [steady_mk, steady_eta, loseCopies_steady]

theorem State.emptyCache_steady (p : Nat × CacheLine → Bool) : (s.emptyCache p).steady = s.steady := by
  unfold emptyCache
  simp only [evict_steady, foldl_steady, implies_true]

theorem State.emptyWays_steady (l : List Nat) : (s.emptyWays l).steady = s.steady := by
  unfold emptyWays
  simp only [steady_mk, steady_eta, emptyCache_steady]

theorem State.freeWays_steady (k : Nat) : (s.freeWays k).steady = s.steady := by
  unfold freeWays
  simp only [steady_mk, steady_eta, emptyWays_steady]

theorem State.zeroCores_steady (l : List Nat) : (s.zeroCores l).steady = s.steady := rfl

theorem State.tellParts_steady (k : Nat) : (s.tellParts k).steady = s.steady := by
  unfold tellParts
  simp only [sendCtrl_steady, foldl_steady, implies_true, apply_ite steady, ite_self]

theorem State.freeBinding_steady (k : Nat) : (s.freeBinding k).steady = s.steady := by
  unfold freeBinding
  simp only [steady_mk, steady_eta, freeWays_steady, refreshDoms_steady, tellParts_steady, updBind_steady, zeroCores_steady,
    apply_ite steady, ite_self]

theorem State.tearRun_steady (x : Run) : (s.tearRun x).steady = s.steady := by
  unfold tearRun
  repeat' split
  all_goals simp only [lpWrite_steady, tick_steady]

theorem State.tearRuns_steady (mine : Run → Bool) : (s.tearRuns mine).steady = s.steady := by
  unfold tearRuns
  simp only [tearRun_steady, foldl_steady, implies_true, apply_ite steady, ite_self]

theorem State.markLater_steady (slot kind : Nat) : (s.markLater slot kind).steady = s.steady := rfl

theorem State.dropSlots_steady (f : Nat) : (s.dropSlots f).steady = s.steady := rfl

theorem State.freeBindings_steady (f : Nat) : (s.freeBindings f).steady = s.steady := by
  unfold freeBindings
  simp only [freeBinding_steady, foldl_steady, implies_true]

theorem State.dropWork_steady (f : Nat) : (s.dropWork f).steady = s.steady := rfl

theorem State.endFunction_steady (f : Nat) : (s.endFunction f).steady = s.steady := by
  unfold endFunction
  simp only [steady_mk, steady_eta, dropSlots_steady, dropWork_steady, emptyWays_steady, freeBindings_steady, tearRuns_steady]

theorem State.fwMark_steady (slot kind : Nat) : (s.fwMark slot kind).steady = s.steady := by
  unfold fwMark
  simp only [markLater_steady, queueOp_steady, apply_ite steady, ite_self]

theorem State.flushPba_steady (f vec : Nat) : (s.flushPba f vec).steady = s.steady := by
  unfold flushPba
  simp only [sendMsi_steady, updFn_steady, apply_ite steady, ite_self]

/-! ### What a boot does once the firmware is ready -/

theorem State.bootEntries_steady (falls : List Bytes) : (s.bootEntries falls).steady = s.steady := by
  unfold bootEntries
  simp only [logEvent_steady, foldl_steady, implies_true, apply_ite steady, ite_self]

theorem State.imageReads_steady (slot : Nat) : (s.imageReads slot).steady = s.steady := by
  unfold imageReads
  simp only [readStored_steady, slotRows_steady]

theorem State.bootReads_steady : s.bootReads.steady = s.steady := by
  unfold bootReads
  simp only [countReads_steady, imageReads_steady, readStored_steady, foldl_steady, implies_true]

theorem State.lostWorkBits_steady : s.lostWorkBits.steady = s.steady := by
  unfold lostWorkBits
  simp only [steady_mk, steady_eta, setFnTrb_steady, foldl_steady, implies_true]

theorem State.startEntry_steady (c : ResetClass) : (s.startEntry c).steady = s.steady := by
  unfold startEntry
  simp only [logEvent_steady, apply_ite steady, ite_self]

theorem State.flushVecs_steady (f : Nat) : (s.flushVecs f).steady = s.steady := by
  unfold flushVecs
  simp only [flushPba_steady, foldl_steady, implies_true]

theorem State.disableVf_steady (f : Nat) : (s.disableVf f).steady = s.steady := by
  unfold disableVf
  simp only [steady_mk, steady_eta, endFunction_steady, logEvent_steady, updFn_steady, apply_ite steady, ite_self]

theorem State.vfDisable_steady : s.vfDisable.steady = s.steady := by
  unfold vfDisable
  simp only [steady_mk, steady_eta, disableVf_steady, refreshDoms_steady, retarget_steady, foldl_steady, implies_true,
    apply_ite steady, ite_self]

theorem State.flr_steady (f : Nat) : (s.flr f).steady = s.steady := by
  have ended : ∀ a : State, a.steady = s.steady → ((a.endFunction f).updFn f fun x => x.flr s.time).steady = s.steady :=
    fun a h => (updFn_steady ..).trans ((endFunction_steady ..).trans h)
  have moved : ∀ (c a : State) (w : Bool), c.steady = s.steady → (if w = true then
      (c.refreshDoms a).retarget.setFnTrb f .lostWork else (c.refreshDoms a).retarget).steady = s.steady := by
    intro c a w h
    have d : (c.refreshDoms a).retarget.steady = s.steady := (retarget_steady _).trans ((refreshDoms_steady c a).trans h)
    split
    · exact (setFnTrb_steady ..).trans d
    · exact d
  have bus : ∀ b : State, b.steady = s.steady → ({ b with pcie := b.pcie.flr } : State).steady = s.steady := fun b h => h
  unfold flr
  split
  · exact updFn_steady ..
  dsimp only
  split
  · exact moved _ _ _ (bus _ (ended _ (vfDisable_steady s)))
  · exact moved _ _ _ (ended s rfl)

theorem State.finishFlrs_steady : s.finishFlrs.steady = s.steady := by
  unfold finishFlrs
  simp only [flr_steady, foldl_steady, implies_true]

theorem State.confirm_steady : s.confirm.steady = s.steady := by
  unfold confirm
  simp only [steady_mk, steady_eta, fwMark_steady, apply_ite steady, ite_self]

theorem State.raiseLevels_steady : s.raiseLevels.steady = s.steady := by
  unfold raiseLevels
  simp only [steady_mk, steady_eta, raiseDevEvt_steady, apply_ite steady, ite_self]

end

end Sys2Proof.Machine
end

section
/-!
PROOFS. The same of a running command and of its end.
-/

namespace Sys2Proof.Machine

/-! ## What the end of a command leaves (R263, R275, R283, R484) -/

section
variable (s : State)

theorem State.setRun_steady (k : Nat) (r : Run) : (s.setRun k r).steady = s.steady := rfl

theorem State.sacLine_steady (f o : Nat) (d : Bytes) (poison : Bool) : (s.sacLine f o d poison).steady = s.steady := by
  unfold sacLine
  repeat' split
  all_goals simp only [steady_mk, steady_eta]

theorem State.partWrite_steady (f o : Nat) (d : Bytes) (poison : Bool) : (s.partWrite f o d poison).steady = s.steady := by
  unfold partWrite
  simp only [sacLine_steady, foldl_steady, implies_true]

theorem State.putAt_steady (f : Nat) (p : Place) (d : Bytes) (poison : Bool) : (s.putAt f p d poison).steady = s.steady := by
  unfold putAt
  repeat' split
  all_goals simp only [hostWrite_steady, lpWrite_steady, partWrite_steady, stat_steady]

theorem State.issueOut_steady (r : Run) (x : OutLine) : ∀ z, s.issueOut r x = some z → z.1.steady = s.steady := by
  intro z h
  unfold issueOut at h
  split at h
  · exact Option.some.inj h ▸ rfl
  split at h
  · cases h
  · split at h <;> exact Option.some.inj h ▸ rfl
  dsimp only at h
  split at h
  · exact Option.some.inj h ▸ rfl
  split at h
  · exact Option.some.inj h ▸ putAt_steady ..
  · exact Option.some.inj h ▸ rfl

theorem State.flushLine_steady (x : Run) (fuel : Nat) (o : OutLine) : (s.flushLine x fuel o).1.steady = s.steady := by
  induction fuel generalizing s x o with
  | zero => rfl
  | succ n ih =>
    have issued : ∀ (b : Bool) z, (if b then s.issueOut x o else none) = some z → z.1.steady = s.steady := by
      intro b z h
      cases b
      · cases h
      · exact issueOut_steady s x o z h
    unfold flushLine
    dsimp only
    split
    case h_1 t y rest h => exact (ih ..).trans (issued _ _ h)
    case h_2 t y h => exact issued _ _ h
    case h_3 => rfl

theorem State.flushSac_steady (k : Nat) (x : Run) : (s.flushSac k x).1.steady = s.steady := by
  unfold flushSac
  dsimp only
  split
  · rfl
  · exact (setRun_steady ..).trans (foldl_fst_steady (fun u o => flushLine_steady ..) _ _)

theorem State.tellDrop_steady (k : Nat) (x : Run) (st : Stop) : (s.tellDrop k x st).1.steady = s.steady := by
  unfold tellDrop
  repeat' split
  all_goals simp only [sendCtrl_steady]

theorem State.putSac_steady (x : Run) (stage ref base off : Nat) (d : Bytes) (bad : Bool) :
    (s.putSac x stage ref base off d bad).1.steady = s.steady := by
  unfold putSac
  repeat' split
  all_goals simp only [partWrite_steady]

theorem State.putRef_steady (x : Run) (stage : Nat) (f : Ref) (ref off : Nat) (d : Bytes) (bad beyond : Bool) :
    (s.putRef x stage f ref off d bad beyond).1.steady = s.steady := by
  unfold putRef
  split
  · rfl
  · exact foldl_fst_steady (fun u q => putSac_steady ..) _ _
  · rfl

theorem State.putRuns_steady (x : Run) (stage : Nat) (f : Refs) (r : LayerRec) (l : List OutRun) :
    (s.putRuns x stage f r l).1.steady = s.steady := by
  unfold putRuns
  simp only [putRef_steady, foldl_fst_steady, implies_true]

theorem State.drainCore_steady (x : Run) (stage : Nat) (f : Refs) (c : Ctx) (core : Nat) (b : Box) :
    (s.drainCore x stage f c core b).1.steady = s.steady := by
  unfold drainCore
  simp only [putRuns_steady]

theorem State.drainColumn_steady (x : Run) (stage col : Nat) : (s.drainColumn x stage col).1.steady = s.steady := by
  unfold drainColumn
  dsimp only
  split
  · rfl
  · split
    · rfl
    · refine foldl_fst_steady (fun u i => ?_) _ _
      split
      · rfl
      · exact drainCore_steady ..

theorem State.quenchCol_steady (u : State × Run) (stage col : Nat) : (State.quenchCol u stage col).1.steady = u.1.steady := by
  unfold quenchCol
  grind [steady_mk, steady_eta, drainColumn_steady]

theorem State.quench_steady (x : Run) : (s.quench x).1.steady = s.steady := by
  unfold quench
  simp only [quenchCol_steady, foldl_fst_steady, implies_true]

theorem State.setToken_steady (k key : Nat) (v : Token) : (s.setToken k key v).steady = s.steady := by
  unfold setToken
  simp only [updBind_steady]

theorem State.freeTokens_steady (x : Run) : (s.freeTokens x).steady = s.steady := by
  unfold freeTokens
  simp only [setToken_steady, foldl_steady, implies_true]

theorem State.repeatLines_steady (a : Nat) (l : List (Nat × Nat × Nat)) : (s.repeatLines a l).1.steady = s.steady := by
  induction l generalizing s with
  | nil => rfl
  | cons q t ih =>
    refine (ih _).trans (foldl_fst_steady (fun u p => ?_) _ _)
    exact (stat_steady ..).trans (lpRead_steady ..)

theorem State.holdRepeat_steady (x : Run) (i : Nat) : (s.holdRepeat x i).1.steady = s.steady := by
  unfold holdRepeat
  grind [steady_mk, steady_eta, repeatLines_steady, setFnTrb_steady]

theorem State.endServed_steady (k : Nat) (x : Run) (status : BitVec 16) : (s.endServed k x status).steady = s.steady := by
  unfold endServed
  repeat' split
  all_goals simp only [steady_mk, steady_eta, sendCtrl_steady]

theorem State.leaveCapture_steady (x : Run) : (s.leaveCapture x).steady = s.steady := by
  unfold leaveCapture
  repeat' split
  all_goals simp only [writePlace_steady]

theorem State.reportFault_steady (c : Cmd) (x : Run) : (s.reportFault c x).steady = s.steady := by
  unfold reportFault
  simp only [logEvent_steady, setFnTrb_steady, apply_ite steady, ite_self]

theorem State.endRun_steady (k : Nat) (x : Run) (status : BitVec 16) (r0 r1 : Word) :
    (s.endRun k x status r0 r1).steady = s.steady := by
  unfold endRun
  repeat' split
  all_goals simp only [steady_mk, steady_eta, endCmd_steady, leaveCapture_steady, reportFault_steady, slotDone_steady,
    stat_steady, updCmd_steady]

theorem State.finishStop_steady (k : Nat) (x : Run) (st : Stop) : (s.finishStop k x st).steady = s.steady := by
  unfold finishStop
  simp only [endRun_steady, endServed_steady, stat_steady, apply_ite steady, ite_self]

theorem State.settleStop_steady (k : Nat) (x : Run) (st : Stop) : (s.settleStop k x st).steady = s.steady := by
  unfold settleStop
  grind [steady_mk, steady_eta, closeUpdate_steady, finishStop_steady, freeTokens_steady, holdRepeat_steady, quench_steady,
    setRun_steady, tellDrop_steady]

theorem State.extentWords_steady (bank first w n : Nat) : (s.extentWords bank first w n).1.steady = s.steady := by
  induction n generalizing s w with
  | zero => rfl
  | succ n ih => exact (ih ..).trans ((readWord_steady ..).trans (readRow_steady ..))

theorem State.extentRead_steady (pat : Bytes) (bank o len : Nat) : (s.extentRead pat bank o len).1.steady = s.steady := by
  unfold extentRead
  repeat' split
  all_goals simp only [extentWords_steady]

theorem State.readShares_steady (pat : Bytes) (i col off share k n : Nat) :
    (s.readShares pat i col off share k n).1.steady = s.steady := by
  induction n generalizing s k with
  | zero => rfl
  | succ n ih => exact (ih ..).trans (extentRead_steady ..)

theorem State.readTile_steady (pat : Bytes) (i : Nat) (r : LayerRec) (nest : NestRec) (col : Nat) (b : Box) :
    (s.readTile pat i r nest col b).1.steady = s.steady := by
  unfold readTile
  simp only [readShares_steady]

theorem State.backWeights_steady (x : Run) (n layer : Nat) (r : LayerRec) :
    (s.backWeights x n layer r).1.steady = s.steady := by
  unfold backWeights
  dsimp only
  split
  · rfl
  · refine foldl_fst_steady (fun u j => ?_) _ _
    refine foldl_fst_steady (fun v b => ?_) _ _
    exact readTile_steady ..

theorem State.backLayers_steady (x : Run) (tape : Bytes) (l : List ((Nat × Nat × LayerRec) × Nat)) :
    (s.backLayers x tape l).1.steady = s.steady := by
  induction l generalizing s with
  | nil => rfl
  | cons q t ih => exact (ih _).trans (backWeights_steady ..)

theorem State.readTensors_steady (f a : Nat) (l : List Tensor) : (s.readTensors f a l).1.steady = s.steady := by
  induction l generalizing s with
  | nil => rfl
  | cons q t ih => exact (ih _).trans (trainRead_steady ..)

theorem State.trainIn_steady (x : Run) (t : Train) (a targetLen : Nat) : (s.trainIn x t a targetLen).1.steady = s.steady := by
  unfold trainIn
  simp only [backLayers_steady, readTensors_steady, tick_steady, trainRead_steady]

theorem State.backDrift_steady (x : Run) (l : List (BackLayer × BackOut)) : (s.backDrift x l).1.steady = s.steady := by
  induction l generalizing s x with
  | nil => rfl
  | cons q t ih =>
    unfold backDrift
    dsimp only
    split
    · exact ih ..
    · exact (ih ..).trans ((stat_steady ..).trans (logEvent_steady ..))

theorem State.putGrad_steady (x : Run) (t : Train) (a : Nat) (bad : Bool) (p : Tensor) (g : List F32) :
    (s.putGrad x t a bad p g).steady = s.steady := by
  unfold putGrad
  repeat' split
  all_goals simp only [trainRead_steady, trainWrite_steady]

theorem State.beginUpdate_steady (x : Run) (t : Train) (a : Nat) (ps : List Tensor) :
    (s.beginUpdate x t a ps).1.steady = s.steady := by
  unfold beginUpdate
  grind [steady_mk, steady_eta, endUpdate_steady]

theorem State.trainEnd_steady (x : Run) (targetLen : Nat) : (s.trainEnd x targetLen).1.steady = s.steady := by
  unfold trainEnd
  split
  · exact (beginUpdate_steady ..).trans ((trainWrite_steady ..).trans ((foldl_steady (fun b p => putGrad_steady ..) _ _).trans
      ((backDrift_steady ..).trans (trainIn_steady ..))))
  · rfl

theorem State.beforeEnd_steady (x : Run) : ∀ z, s.beforeEnd x = some z → z.1.steady = s.steady := by
  intro r h
  unfold beforeEnd at h
  split at h
  · rw [← Option.some.inj h]
  · obtain ⟨n, _, e⟩ := Option.map_eq_some_iff.1 h
    rw [← e]
    exact trainEnd_steady ..

theorem State.holdCopy_steady (x : Run) (i : Nat) : (s.holdCopy x i).1.steady = s.steady := by
  unfold holdCopy
  grind [steady_mk, steady_eta, setFnTrb_steady, updSlot_steady]

theorem State.writeMap_steady (x : Run) : ∀ z, s.writeMap x = some z → z.steady = s.steady := by
  unfold writeMap
  grind [steady_mk, steady_eta, writePlace_steady]

theorem State.finishOk_steady (k : Nat) (x : Run) : (s.finishOk k x).steady = s.steady := by
  unfold finishOk
  simp only [endRun_steady, endServed_steady, apply_ite steady, ite_self]

/-- The last of a command that is done: it ends once its map is written. -/
def State.settleLast (k : Nat) (u : State × Run) : State :=
  if u.2.updating.isSome || !u.2.writes.isEmpty then u.1.setRun k u.2
  else
    match u.1.writeMap u.2 with
    | none => u.1.setRun k u.2
    | some a => a.finishOk k u.2

theorem State.settleLast_steady (k : Nat) (u : State × Run) : (State.settleLast k u).steady = u.1.steady := by
  unfold settleLast
  split
  · exact setRun_steady ..
  · split
    · exact setRun_steady ..
    case h_2 a ha => exact (finishOk_steady ..).trans (writeMap_steady _ _ a ha)

theorem State.settleDone_steady (k : Nat) (x : Run) : (s.settleDone k x).steady = s.steady := by
  unfold settleDone
  split
  · rfl
  split
  · rfl
  case h_2 t ht =>
    refine (settleLast_steady k _).trans ?_
    rw [← beforeEnd_steady s x t ht]
    split
    · split
      · rfl
      · exact holdCopy_steady ..
    · rfl

theorem State.settle_steady (k : Nat) : (s.settle k).steady = s.steady := by
  unfold settle
  grind [steady_mk, steady_eta, flushSac_steady, settleDone_steady, settleStop_steady]

theorem State.updRun_steady (k : Nat) (g : Run → Run) : (s.updRun k g).steady = s.steady := by
  unfold updRun
  repeat' split
  all_goals simp only [setRun_steady]

theorem State.stopRun_steady (k : Nat) (st : Stop) : (s.stopRun k st).steady = s.steady := by
  unfold stopRun
  simp only [settle_steady, updRun_steady]

theorem State.dropFrame_steady (k : Nat) : (s.dropFrame k).steady = s.steady := by
  unfold dropFrame
  simp only [stopRun_steady, updRun_steady]

end

end Sys2Proof.Machine
end

section
/-!
PROOFS. Stream slots, their frames, and COPY (R283, R356 to R360, R412, R429 to R432).
-/

namespace Sys2Proof.Machine

theorem State.dropFrame_blocked (s : State) (k : Nat) : (s.dropFrame k).blocked = s.blocked :=
  congrArg Steady.blocked (s.dropFrame_steady k)

/-! ## STREAM_OPEN (R356, R429) -/

section
variable {s : State} {t : Ticket} {c : Cmd} (hw : s.Waits t.val 0x20 c) (ht : s.myTurn c = true)
include hw ht

theorem execStreamOpen_of_bad (h : s.boundFor c (Entry.handle c.entry) = none ∨ Entry.paramsOk c.entry = false) :
    exec (.streamOpen t) s = .next (s.endCmd t.val St.badParam 0 0) := by
  change execStreamOpen t s = _
  rw [execStreamOpen, State.onTurn_of_waits hw, if_pos ht]
  cases hk : s.boundFor c (Entry.handle c.entry) with
  | none => rfl
  | some k =>
    have bad : Entry.paramsOk c.entry = false := by simpa [hk] using h
    exact congrArg ok (if_pos (by simp [bad]))

variable {k : Nat} (hk : s.boundFor c (Entry.handle c.entry) = some k) (hp : Entry.paramsOk c.entry = true)
include hk hp

theorem execStreamOpen_of_range (hr : c.openRanges (openSlot c.entry c.fn k) = false) :
    exec (.streamOpen t) s = .next (s.endCmd t.val St.windowFault 0 0) := by
  change execStreamOpen t s = _
  rw [execStreamOpen, State.onTurn_of_waits hw, if_pos ht, hk]
  exact congrArg ok ((if_neg (by simp [hp])).trans (if_pos (by simp [hr])))

theorem execStreamOpen_of_taken (hr : c.openRanges (openSlot c.entry c.fn k) = true)
    (h : s.channelTaken (openSlot c.entry c.fn k) = true ∨ s.slotFor c.fn = none) :
    exec (.streamOpen t) s = .next (s.endCmd t.val St.noResource 0 0) := by
  change execStreamOpen t s = _
  rw [execStreamOpen, State.onTurn_of_waits hw, if_pos ht, hk]
  refine congrArg ok ((if_neg (by simp [hp])).trans ((if_neg (by simp [hr])).trans ?_))
  split
  · rfl
  case isFalse hn => rw [h.resolve_left hn]

theorem execStreamOpen_of_free {i : Nat} (hr : c.openRanges (openSlot c.entry c.fn k) = true)
    (hc : s.channelTaken (openSlot c.entry c.fn k) = false) (hi : s.slotFor c.fn = some i) :
    exec (.streamOpen t) s = .next ((s.updSlot i fun o => { openSlot c.entry c.fn k with overrun := o.overrun }).endCmd t.val St.ok
      (BitVec.ofNat 32 i) 0).retarget := by
  change execStreamOpen t s = _
  rw [execStreamOpen, State.onTurn_of_waits hw, if_pos ht, hk]
  refine congrArg ok ((if_neg (by simp [hp])).trans ((if_neg (by simp [hr])).trans ((if_neg (by simp [hc])).trans ?_)))
  rw [hi]

end

theorem State.slotFor_some {s : State} {f i : Nat} (h : s.slotFor f = some i) :
    (s.slot i).isOpen = false ∧ s.slotsHeld f < (s.fnSt f).quota.slots := by
  unfold slotFor at h
  split at h
  · cases h
  case isFalse hq =>
    have free := List.find?_some h
    exact ⟨by simpa using free, Nat.lt_of_not_le hq⟩

/-! ## STREAM_CLOSE (R360, R431) -/

section
variable {s : State} {t : Ticket} {c : Cmd} (hw : s.Waits t.val 0x21 c) (ht : s.closeTurn c = true)
include hw ht

theorem execStreamClose_of_open {i : Nat} (hp : Entry.paramsOk c.entry = true) (hi : s.slotOf c = some i) :
    exec (.streamClose t) s = .next (((((s.updSlot i fun y => { y with closing := true, frame := none, closer := some t.val }).updCmd
      t.val fun y => { y with phase := .busy }).endWaiting i St.cancelled).slotDone i)) := by
  change execStreamClose t s = _
  rw [execStreamClose, State.onCmd_of_waits hw, if_neg (by simp [ht]), if_neg (by simp [hp]), hi]

theorem execStreamClose_of_bad (h : Entry.paramsOk c.entry = false ∨ s.slotOf c = none) :
    exec (.streamClose t) s = .next (s.endCmd t.val St.badParam 0 0) := by
  change execStreamClose t s = _
  rw [execStreamClose, State.onCmd_of_waits hw, if_neg (by simp [ht])]
  split
  · rfl
  case isFalse hp =>
    rw [h.resolve_left fun e => hp (by simp [e])]

end

theorem State.slotDone_of_idle {s : State} {i : Nat} (hc : (s.slot i).closing = true) (hn : (s.slot i).closer = none)
    (hr : ∀ p ∈ s.comp.runs, p.2.slot ≠ some i) (hm : ∀ p ∈ s.cmds, ∀ m, p.2.miss = some m → m.slot ≠ some i) :
    s.slotDone i = (s.dropSlot i).retarget := by
  have runs : (s.comp.runs.any fun p => p.2.slot == some i) = false := by simpa using hr
  have misses : (s.cmds.any fun p => (p.2.miss.bind fun m => m.slot) == some i) = false := by
    rw [List.any_eq_false]
    intro p hp
    cases e : p.2.miss with
    | none => simp
    | some m => simpa using hm p hp m e
  unfold slotDone
  rw [runs, misses]
  dsimp only
  rw [if_neg (by simp [hc]), hn]

/-! ## STREAM_FRAME (R283, R357, R358) -/

/-- A command begins unless it runs here and its groups have lost a core. -/
theorem State.beginRun_of_able {s : State} {t : Nat} {c : Cmd} {x : Run} {a b : State × Run} (ha : a = s.takeSlots x)
    (hb : b = if x.waitCap then a else a.1.assignFrame t a.2)
    (h : b.2.chip.isSome = true ∨ b.2.waitCap = true ∨ b.1.coreFailed b.2 = false) :
    s.beginRun t c x = (b.1.setRun t (b.2.countArrival c)).updCmd t fun y => { y with phase := .busy } := by
  have hwa : a.2.waitCap = x.waitCap := by rw [ha]; rfl
  have hb' : (if a.2.waitCap then a else a.1.assignFrame t a.2) = b := by rw [hwa, hb]
  unfold beginRun
  dsimp only
  rw [← ha, hb']
  refine if_neg ?_
  rcases h with h | h | h
  · cases e : b.2.chip <;> simp [e] at h ⊢
  · simp [h]
  · simp [h]

theorem State.assignFrame_late (s : State) (t : Nat) (x : Run) :
    (s.assignFrame t x).2.deadline = x.deadline ∧ (s.assignFrame t x).2.lateDrop = x.lateDrop := by
  unfold assignFrame
  dsimp only
  split <;> exact ⟨rfl, rfl⟩

section
variable {v : State} {t : Nat} {c : Cmd} {x : Run}

theorem State.dropIfLate_of_none (h : v.run? t = none) : v.dropIfLate t c = v := by
  rw [dropIfLate, h]

theorem State.dropIfLate_of_kept (h : v.run? t = some x) (hk : ∀ d, x.deadline = some d → d < c.time → x.lateDrop = false) :
    v.dropIfLate t c = v := by
  rw [dropIfLate, h]
  dsimp only
  cases hd : x.deadline with
  | none => rfl
  | some d => exact if_neg fun ⟨hl, ht⟩ => by simp [hk d hd ht] at hl

theorem State.dropIfLate_of_late {d : BitVec 64} (h : v.run? t = some x) (hd : x.deadline = some d) (ht : d < c.time)
    (hl : x.lateDrop = true) : v.dropIfLate t c = v.dropFrame t := by
  rw [dropIfLate, h]
  dsimp only
  rw [hd]
  exact if_pos ⟨hl, ht⟩

end

section
variable {s : State} {t : Ticket} {c : Cmd} {view : HostView} (hw : s.Waits t.val 0x22 c)
  (ht : s.bindTurn c = true ∨ s.afterRelease c = true)
include hw ht

theorem execStreamFrame_of_none (hs : s.slotOf c = none) (hb : s.blocked = false) :
    exec (.streamFrame t view) s = .next (s.endCmd t.val St.badParam 0 0) := by
  change execStreamFrame t view s = _
  rw [execStreamFrame, State.onBind_of_waits hw, if_pos (by simpa using ht), hs]
  exact congrArg ok (State.orWait_of_free (by simpa using hb))

theorem execStreamFrame_of_slot {i : Nat} (hs : s.slotOf c = some i) :
    exec (.streamFrame t view) s
      = .next (s.orWait ((s.launch t.val c (s.prepFrame view c i)).dropIfLate t.val c)) := by
  change execStreamFrame t view s = _
  rw [execStreamFrame, State.onBind_of_waits hw, if_pos (by simpa using ht), hs]

end

/-! ## COPY (R412, R432) -/

section
variable {s : State} {t : Ticket} {c : Cmd} (hw : s.Waits t.val 0x23 c)
include hw

theorem execCopy_of_bad (hl : Entry.light c.entry = false) (hp : Entry.paramsOk c.entry = false) :
    exec (.copy t) s = .next (s.endCmd t.val St.badParam 0 0) :=
  congrArg ok ((State.onCmd_of_waits hw _).trans ((if_neg (by simp [hl])).trans (if_pos (by simp [hp]))))

theorem execCopy_of_ok (hl : Entry.light c.entry = false) (hp : Entry.paramsOk c.entry = true) : exec (.copy t) s
    = .next (((c.copyBuffer 0 3 s (s.copyBase c false)).then (c.copyBuffer 1 6)).beginCopy t.val) :=
  congrArg ok ((State.onCmd_of_waits hw _).trans ((if_neg (by simp [hl])).trans (if_neg (by simp [hp]))))

theorem execCopyLight_of_bad (hl : Entry.light c.entry = true) (hp : Entry.paramsOk c.entry = false) :
    exec (.copyLight t) s = .next (s.endCmd t.val St.badParam 0 0) := by
  refine congrArg ok ((State.onCmd_of_waits hw _).trans ((if_neg (by simp [hl])).trans ?_))
  cases lightArgs c.entry with
  | none => rfl
  | some a => exact if_pos (by simp [hp])

theorem execCopyLight_of_ok {a : LightArgs} (hl : Entry.light c.entry = true) (ha : lightArgs c.entry = some a)
    (hp : Entry.paramsOk c.entry = true) : exec (.copyLight t) s
      = .next (((c.lightInput a s (s.copyBase c true)).then (c.lightOutput a)).beginCopy t.val) := by
  refine congrArg ok ((State.onCmd_of_waits hw _).trans ((if_neg (by simp [hl])).trans ?_))
  rw [ha]
  exact if_neg (by simp [hp])

end

/-- Settles O48: slots by the checks of STREAM_OPEN and STREAM_CLOSE, a frame by how far its preparation and its deadline let it
come, a COPY by its buffers. -/
theorem streamsOpenCloseAndRunFrames : Obligations.StreamsOpenCloseAndRunFrames := by
  unfold Obligations.StreamsOpenCloseAndRunFrames
  intro s t c view
  refine ⟨fun hw ht => ⟨execStreamOpen_of_bad hw ht, ?_⟩,
    fun hw ht => ⟨fun i hp hi => execStreamClose_of_open hw ht hp hi, execStreamClose_of_bad hw ht⟩,
    fun i hc hn hr hm => State.slotDone_of_idle hc hn hr hm,
    fun hw ht hb => ⟨fun hs => execStreamFrame_of_none hw ht hs hb, fun i u st hs hp hu hn => ?_, ?_⟩,
    fun hw => ⟨fun hl => ⟨execCopy_of_bad hw hl, ?_⟩, fun hl => ⟨execCopyLight_of_bad hw hl, ?_⟩⟩⟩
  · rintro k sl hk rfl hp
    exact ⟨execStreamOpen_of_range hw ht hk hp, execStreamOpen_of_taken hw ht hk hp,
      fun i hr hc hi => ⟨(State.slotFor_some hi).1, (State.slotFor_some hi).2, execStreamOpen_of_free hw ht hk hp hr hc hi⟩⟩
  · have none : (u.endCmd t.val st 0 0).run? t.val = none := by
      rw [State.run?, State.endCmd_comp]
      exact hn
    rw [execStreamFrame_of_slot hw ht hs, hp, State.launch_bad, State.dropIfLate_of_none none,
      State.orWait_of_free (by simpa using hu)]
  · intro i u x a b v hs hp hu hd ha hb hable hv
    have begun : s.launch t.val c (s.prepFrame view c i) = v := by
      rw [hp, State.launch_of_live hd, State.beginRun_of_able ha hb hable, hv]
    have free : v.blocked = false := by
      rw [← begun, hp, State.launch_blocked, hu]
    have late : b.2.deadline = x.deadline ∧ b.2.lateDrop = x.lateDrop := by
      rw [hb]
      split
      · rw [ha]
        exact ⟨rfl, rfl⟩
      · rw [(State.assignFrame_late ..).1, (State.assignFrame_late ..).2, ha]
        exact ⟨rfl, rfl⟩
    have run : v.run? t.val = some (b.2.countArrival c) := by
      rw [hv, State.run?, State.updCmd_comp]
      exact State.run_setRun ..
    rw [execStreamFrame_of_slot hw ht hs, begun]
    refine ⟨fun h => ?_, fun d hxd htd hl => ?_⟩
    · rw [State.dropIfLate_of_kept run fun d e k => late.2.trans (h d (late.1.symm.trans e) k), State.orWait_of_free free]
    · rw [State.dropIfLate_of_late run (late.1.trans hxd) htd (late.2.trans hl),
        State.orWait_of_free ((State.dropFrame_blocked ..).trans free)]
  · rintro p hp rfl
    refine ⟨fun u st h => ?_, fun u x h => ?_⟩ <;> rw [execCopy_of_ok hw hl hp, h] <;> rfl
  · rintro a p ha hp rfl
    refine ⟨fun u st h => ?_, fun u x h => ?_⟩ <;> rw [execCopyLight_of_ok hw hl ha hp, h] <;> rfl

end Sys2Proof.Machine
end

section
/-!
PROOFS. BOOT (R293, R552, R558, R562, R568, R624).
-/

namespace Sys2Proof.Machine

/-! ## The firmware that runs (R558, R568) -/

section
variable {s : State} {slot : Nat} {trial : Bool}

theorem State.chooseFw_of_none (h : s.bootChoice none = none) : s.chooseFw = (s, none) := by
  rw [chooseFw, h]

/-- The slot chosen runs, or the other after one internal restart. -/
theorem State.chooseFw_of_some (h : s.bootChoice none = some (slot, trial)) : ∃ a run t falls, s.chooseFw = (a, some (run, t, falls))
    ∧ (run = slot ∨ run = 1 - slot ∧ a.fw.restarted = true) := by
  rw [chooseFw, h]
  dsimp only
  split_ifs
  · exact ⟨_, _, _, _, rfl, .inr ⟨rfl, rfl⟩⟩
  · exact ⟨_, _, _, _, rfl, .inl rfl⟩
  · exact ⟨_, _, _, _, rfl, .inr ⟨rfl, rfl⟩⟩
  · exact ⟨_, _, _, _, rfl, .inl rfl⟩

end

/-! ## The boot of a class (R293, R552, R562, R624) -/

/-- The cores that failed the core test are those that are marked. -/
theorem get_foldl_set_true (l : List Nat) (t : Table Bool) (k : Nat) :
    Table.get false (l.foldl (fun t n => Table.set false t n true) t) k = (l.contains k || Table.get false t k) := by
  induction l generalizing t with
  | nil => simp
  | cons n l ih =>
    rw [List.foldl_cons, ih]
    by_cases h : k = n
    · subst h
      simp [Table.get_set_self]
    · rw [Table.get_set_ne _ h]
      simp [h]

section
variable (s : State) (c : ResetClass) (slot : Nat) (trial : Bool) (ga gb : Nat) (tr : Bool) (bad : List Nat)

/-- The state of a boot that has done all its steps but the last. -/
def State.bootReady : State :=
  let a := ((s.loadHead slot trial).coreTest c bad).loadSettings slot
  let a := { a with nvm := a.nvm.rebuild }
  let a := if c = .S then a else a.trainLp5x ga gb tr
  let a := a.applySettings c
  { a with fw := { a.fw with bootMs := a.bootTime, bootClass := BitVec.ofNat 2 (classCode c) } }

theorem State.loadSettings_steady : (s.loadSettings slot).steady = s.steady := by
  unfold loadSettings
  simp only [steady_mk, steady_eta, apply_ite steady, ite_self]

theorem State.applySettings_steady : (s.applySettings c).steady = s.steady := by
  unfold applySettings
  split <;> rfl

/-- Training succeeds with two channels of one density of 2, 4, 6 or 8 GiB. -/
def lpTrained (ga gb : Nat) (tr : Bool) : Bool := tr && ga == gb && (ga == 2 || ga == 4 || ga == 6 || ga == 8)

theorem State.trainLp5x_steady : (s.trainLp5x ga gb tr).steady = { s.steady with trained := lpTrained ga gb tr } := by
  have good : (tr && ga == gb && decide (ga ∈ [2, 4, 6, 8])) = lpTrained ga gb tr := by
    simp only [lpTrained, List.mem_cons, List.not_mem_nil, or_false, Bool.decide_or, Bool.or_assoc]
    rfl
  rw [← good]
  rfl

/-- What a boot has loaded, tested and trained before its last step. -/
theorem State.bootReady_steady : (s.bootReady c slot trial ga gb tr bad).steady = { s.steady with
    failed := bad.foldl (fun t n => Table.set false t n true) [], running := slot
    trained := if c = .S then s.addr.trained else lpTrained ga gb tr } := by
  obtain ⟨a, ea⟩ : ∃ a, a = ((s.loadHead slot trial).coreTest c bad).loadSettings slot := ⟨_, rfl⟩
  have loaded : a.steady = { s.steady with
      failed := bad.foldl (fun t n => Table.set false t n true) [], running := slot } := ea ▸ loadSettings_steady _ _
  have row : (s.bootReady c slot trial ga gb tr bad).steady = ((if c = .S then ({ a with nvm := a.nvm.rebuild } : State)
      else State.trainLp5x { a with nvm := a.nvm.rebuild } ga gb tr).applySettings c).steady := by
    rw [ea]
    rfl
  rw [row, applySettings_steady]
  split
  · exact loaded
  · exact (trainLp5x_steady ..).trans (congrArg (fun p : Steady => { p with trained := lpTrained ga gb tr }) loaded)

/-- The firmware signals ready, and nothing else of these fields moves. -/
theorem State.signalReady_steady (speed : BitVec 4) (width : BitVec 5) :
    (s.signalReady c speed width).steady = { s.steady with phase := .running, ready := true, crs := false } := by
  obtain ⟨a, ea⟩ : ∃ a, a = if c = .S ∨ s.pcie.dlActive ∨ !trainable speed width then s else s.linkUp speed width := ⟨_, rfl⟩
  have linked : a.steady = s.steady := by
    rw [ea]
    split <;> rfl
  obtain ⟨d, ed⟩ : ∃ d, d = ({ a with
    life := { a.life with phase := .running, ready := true }
    pcie := { a.pcie with crs := false } } : State).startEntry c := ⟨_, rfl⟩
  have started : d.steady = { s.steady with phase := .running, ready := true, crs := false } := by
    rw [ed, startEntry_steady, ← linked]
    rfl
  have row : s.signalReady c speed width = if c = .S then (d.fnList.foldl flushVecs d).raiseDevEvt 4 else d := by
    rw [ed, ea]
    rfl
  rw [row, ← started]
  split
  · rw [raiseDevEvt_steady, foldl_steady fun u f => u.flushVecs_steady f]
  · rfl

/-- What a boot still does once the firmware is ready leaves these fields alone. -/
theorem State.bootRun_steady (falls : List Bytes) (speed : BitVec 4) (width : BitVec 5) :
    (s.bootRun c slot trial falls ga gb tr bad speed width).steady
      = ((s.bootReady c slot trial ga gb tr bad).signalReady c speed width).steady := by
  have row : s.bootRun c slot trial falls ga gb tr bad speed width
      = ((((s.bootReady c slot trial ga gb tr bad).signalReady c speed width).bootReads.bootEntries falls
        ).lostWorkBits.raiseLevels.confirm.finishFlrs.refreshDoms s).ltrUpdate := rfl
  rw [row, ltrUpdate_steady, refreshDoms_steady, finishFlrs_steady, confirm_steady, raiseLevels_steady, lostWorkBits_steady,
    bootEntries_steady, bootReads_steady]

end

/-! ## The row -/

section
variable {s : State} {ga gb : Nat} {tr : Bool} {bad : List (Fin 64)} {speed : BitVec 4} {width : BitVec 5}

theorem execBoot_of_boot {c : ResetClass} (hp : s.life.phase = .boot c) (hn : s.life.noFw = false) :
    (∀ a, s.chooseFw = (a, none) → exec (.boot ga gb tr bad speed width) s = .next { s with
      life := { s.life with noFw := true }, wd := { s.wd with stopped := true } })
    ∧ ∀ a run t falls, s.chooseFw = (a, some (run, t, falls)) → exec (.boot ga gb tr bad speed width) s
      = .next (a.bootRun c run t falls ga gb tr (bad.map Fin.val) speed width) := by
  have row : exec (.boot ga gb tr bad speed width) s = execBoot ga gb tr bad speed width s := rfl
  rw [row, execBoot, hp]
  dsimp only
  rw [if_neg (by simp [hn])]
  exact ⟨fun a h => by rw [h], fun a run t falls h => by rw [h]⟩

theorem execBoot_of_noFw (hn : s.life.noFw = true) : exec (.boot ga gb tr bad speed width) s = .next s := by
  change execBoot ga gb tr bad speed width s = _
  rw [execBoot]
  split
  · exact if_pos hn
  · rfl

theorem execBoot_of_no_boot (h : ∀ c, s.life.phase ≠ .boot c) : exec (.boot ga gb tr bad speed width) s = .next s := by
  change execBoot ga gb tr bad speed width s = _
  rw [execBoot]
  split
  case h_1 c hc => exact absurd hc (h c)
  case h_2 => rfl

end

/-- Settles O43: the firmware chosen, then what the boot has loaded before it signals ready; what comes after moves none of it. -/
theorem aBootEndsReadyOrWithoutFirmware : Obligations.ABootEndsReadyOrWithoutFirmware := by
  unfold Obligations.ABootEndsReadyOrWithoutFirmware
  intro s ga gb tr bad speed width
  refine ⟨fun c slot trial hp hn hb => ?_, fun c hp hn hb => (execBoot_of_boot hp hn).1 _ (State.chooseFw_of_none hb),
    execBoot_of_no_boot, execBoot_of_noFw⟩
  obtain ⟨a, run, t, falls, chosen, hrun⟩ := State.chooseFw_of_some hb
  have steady := a.bootRun_steady c run t ga gb tr (bad.map Fin.val) falls speed width
  rw [State.signalReady_steady, State.bootReady_steady] at steady
  refine ⟨_, (execBoot_of_boot hp hn).2 a run t falls chosen, congrArg Steady.phase steady, congrArg Steady.ready steady,
    congrArg Steady.crs steady, ?_, fun k => ?_, fun hc => ?_⟩
  · have runs := congrArg Steady.running steady
    have restarted := congrArg Steady.restarted steady
    exact hrun.imp runs.trans fun ⟨e, r⟩ => ⟨runs.trans e, restarted.trans r⟩
  · have failed := congrArg Steady.failed steady
    refine (congrArg (Table.get false · k.val) failed).trans ((get_foldl_set_true _ [] k.val).trans ?_)
    rw [Bool.eq_iff_iff]
    simp [Table.get, Fin.val_inj]
  · exact (congrArg Steady.trained steady).trans (if_neg hc)

end Sys2Proof.Machine
end
